-- ==== Sys2Proof/Word.lean ====
section
/-! DEFINITION. The word types of the machine, and the type of a sparse map. -/

namespace Sys2Proof

/-- One byte of memory. -/
abbrev Byte := BitVec 8

/-- A register or an instruction word: 32 bits (R11, R32). -/
abbrev Word := BitVec 32

/-- An address, a pair or a lane mask: 64 bits (R12, R26, R161). -/
abbrev DWord := BitVec 64

/-- A sparse map: (key, value) pairs with rising keys, no entry equal to what an unlisted key
reads as (Machine/Sparse.lean). -/
abbrev Sparse (α : Type) := List (Nat × α)

end Sys2Proof
end

