-- ==== Sys2Proof/Machine/Flags.lean ====
section
/-! DEFINITION. The flag bits of R20, the integer elements of R61 and the fitting of R63. -/

namespace Sys2Proof.Machine

/-- The bits of FLAGS (R20). -/
def flagINV : Word := 0x01
def flagDZ : Word := 0x02
def flagOF : Word := 0x04
def flagUF : Word := 0x08
def flagNX : Word := 0x10
def flagSATF : Word := 0x20
def flagSCF : Word := 0x40

/-- A flag that is raised when a condition holds. -/
def flagIf (c : Bool) (f : Word) : Word := if c then f else 0

/-- An element's value in its signedness: a raw pattern below 2^b. -/
def intVal (signed : Bool) (b x : Nat) : Int :=
  if signed && decide (2 ^ (b - 1) ≤ x) then (x : Int) - 2 ^ b else x

/-- The pattern of an integer modulo 2^b. -/
def wrapInt (b : Nat) (r : Int) : Nat := (r % (2 ^ b : Int)).toNat

/-- The range of an element (R63). -/
def minInt (signed : Bool) (b : Nat) : Int := if signed then -(2 ^ (b - 1)) else 0
def maxInt (signed : Bool) (b : Nat) : Int := if signed then 2 ^ (b - 1) - 1 else 2 ^ b - 1

/-- fit of R63: modulo 2^b, or clamped into the range with SATF when the clamp changes it. -/
def fitInt (signed sat : Bool) (b : Nat) (r : Int) : Nat × Word :=
  if sat && decide (r < minInt signed b) then (wrapInt b (minInt signed b), flagSATF)
  else if sat && decide (maxInt signed b < r) then (wrapInt b (maxInt signed b), flagSATF)
  else (wrapInt b r, 0)

/-- trunc(x / y): toward zero (R65). -/
def truncDiv (x y : Int) : Int := Int.tdiv x y

/-- Integer DIV with the edge cases of R66. -/
def intDiv (signed : Bool) (b : Nat) (x y : Int) : Nat × Word :=
  if y = 0 then (2 ^ b - 1, flagDZ)
  else if signed && decide (x = minInt true b) && decide (y = -1) then (wrapInt b x, flagOF)
  else (wrapInt b (truncDiv x y), 0)

/-- Integer REM with the edge cases of R66. -/
def intRem (signed : Bool) (b : Nat) (x y : Int) : Nat × Word :=
  if y = 0 then (wrapInt b x, flagDZ)
  else if signed && decide (x = minInt true b) && decide (y = -1) then (0, flagOF)
  else (wrapInt b (x - y * truncDiv x y), 0)

end Sys2Proof.Machine
end

