-- ==== Sys2Proof/Machine/Float.lean ====
section
/-! DEFINITION. Binary floating point (R106 to R111): decoding, the one rounding of an exact value, and
the arithmetic of R65, R73, R76 and R121. An exact value is m · 2^e with a sign; `sticky` says that the
value lies strictly between m and m + 1 in units of 2^e. -/

namespace Sys2Proof.Machine

/-! ## Formats -/

/-- A binary format: its width, precision with the hidden bit, and bias (R106). -/
structure FloatFmt where
  width : Nat
  p     : Nat
  bias  : Nat
deriving DecidableEq, Repr

/-- The formats by CVT code (R106, R125). -/
def floatFmt : Nat → FloatFmt
  | 3 => ⟨16, 11, 15⟩
  | 4 => ⟨16, 8, 127⟩
  | 9 => ⟨64, 53, 1023⟩
  | _ => ⟨32, 24, 127⟩

/-- Exponent of the smallest normal magnitude. -/
def FloatFmt.emin (f : FloatFmt) : Int := 1 - f.bias

/-- The pattern of a sign, biased exponent and fraction. -/
def FloatFmt.pack (f : FloatFmt) (neg : Bool) (ex frac : Nat) : Nat :=
  (if neg then 2 ^ (f.width - 1) else 0) + ex * 2 ^ (f.p - 1) + frac

/-- Infinity, the largest finite magnitude, zero, and the canonical NaN (R106, R107). -/
def FloatFmt.inf (f : FloatFmt) (neg : Bool) : Nat := f.pack neg (2 * f.bias + 1) 0
def FloatFmt.maxFinite (f : FloatFmt) (neg : Bool) : Nat := f.pack neg (2 * f.bias) (2 ^ (f.p - 1) - 1)
def FloatFmt.zero (f : FloatFmt) (neg : Bool) : Nat := f.pack neg 0 0
def FloatFmt.nan (f : FloatFmt) : Nat := f.pack false (2 * f.bias + 1) (2 ^ (f.p - 2))

/-- A value read from a float register. -/
inductive FVal where
  | nan (signalling : Bool)
  | inf (neg : Bool)
  | fin (neg : Bool) (m : Nat) (e : Int)
deriving DecidableEq, Repr

/-- Read a pattern; FTZ reads a subnormal as zero of its sign (R108). -/
def decodeFloat (f : FloatFmt) (ftz : Bool) (x : Nat) : FVal :=
  let neg := decide (x / 2 ^ (f.width - 1) % 2 = 1)
  let ex := x / 2 ^ (f.p - 1) % (2 * f.bias + 2)
  let frac := x % 2 ^ (f.p - 1)
  if ex = 2 * f.bias + 1 then (if frac = 0 then .inf neg else .nan (decide (frac < 2 ^ (f.p - 2))))
  else if ex = 0 then .fin neg (if ftz then 0 else frac) (f.emin - (f.p - 1))
  else .fin neg (2 ^ (f.p - 1) + frac) ((ex : Int) - f.bias - (f.p - 1))

/-- A signalling NaN sets INV wherever it is read (R107). -/
def FVal.inv : FVal → Word
  | .nan true => flagINV
  | _ => 0
def FVal.isNan : FVal → Bool
  | .nan _ => true
  | _ => false
def FVal.neg : FVal → Bool
  | .nan _ => false
  | .inf n => n
  | .fin n _ _ => n

/-! ## Rounding -/

/-- Number of bits of a magnitude. -/
def bitLen (m : Nat) : Nat := if m = 0 then 0 else Nat.log2 m + 1

/-- A magnitude shifted left by an integer amount, right shifts dropping bits. -/
def shiftInt (m : Nat) (k : Int) : Nat := if 0 ≤ k then m * 2 ^ k.toNat else m / 2 ^ (-k).toNat

/-- Round a magnitude m · 2^(−k) to an integer in mode RND (R18): the integer, and whether it changed. -/
def roundAt (rnd : Nat) (neg : Bool) (m k : Nat) (sticky : Bool) : Nat × Bool :=
  let hi := m / 2 ^ k
  let lo := m % 2 ^ k
  let inexact := decide (lo ≠ 0) || sticky
  let up :=
    match rnd with
    | 0 => decide (2 ^ k < 2 * lo) || (decide (2 * lo = 2 ^ k) && decide (k ≠ 0) && (sticky || decide (hi % 2 = 1)))
    | 1 => false
    | 2 => neg && inexact
    | _ => !neg && inexact
  (if up then hi + 1 else hi, inexact)

/-- What an overflow gives (R110): by RND, or by an OVF field whatever RND. -/
def overflowValue (f : FloatFmt) (rnd : Nat) (ovf : Option Bool) (neg : Bool) : Nat :=
  let toInf := match ovf with
    | some b => b
    | none => decide (rnd = 0) || (decide (rnd = 2) && neg) || (decide (rnd = 3) && !neg)
  if toInf then f.inf neg else f.maxFinite neg

/-- Round an exact value into a format (R64, R108 to R110). Tiny is judged after rounding with the
exponent unbounded (log 30). -/
def roundFloat (f : FloatFmt) (rnd : Nat) (ftz : Bool) (ovf : Option Bool) (neg : Bool) (m : Nat) (e : Int)
    (sticky : Bool) : Nat × Word :=
  if m = 0 && !sticky then (f.zero neg, 0)
  else
    let top := e + bitLen m - 1
    let q := max (top - (f.p - 1)) (f.emin - (f.p - 1))
    let (r, inexact) := if q ≤ e then (shiftInt m (e - q), sticky) else roundAt rnd neg m (q - e).toNat sticky
    let (q, r) := if r = 2 ^ f.p then (q + 1, 2 ^ (f.p - 1)) else (q, r)
    if decide ((f.bias : Int) < q + (f.p - 1)) && decide (2 ^ (f.p - 1) ≤ r) then
      (overflowValue f rnd ovf neg, flagOF ||| flagNX)
    else if r < 2 ^ (f.p - 1) then
      if ftz && decide (r ≠ 0) then (f.zero neg, flagUF ||| flagNX)
      else (f.pack neg 0 r, if inexact then flagUF ||| flagNX else 0)
    else
      let qf := top - (f.p - 1)
      let wide := if qf ≤ e then shiftInt m (e - qf) else (roundAt rnd neg m (qf - e).toNat sticky).1
      let tiny := decide (top < f.emin) && decide (wide < 2 ^ f.p)
      (f.pack neg (q + (f.p - 1) + f.bias).toNat (r - 2 ^ (f.p - 1)),
       flagIf inexact flagNX ||| flagIf (tiny && inexact) flagUF)

/-- Write a value that is exact in the format, or special. -/
def FVal.encode (f : FloatFmt) : FVal → Nat
  | .nan _ => f.nan
  | .inf n => f.inf n
  | .fin n m e => (roundFloat f 0 false none n m e false).1

/-! ## Exact arithmetic -/

/-- A signed dyadic number m · 2^e. -/
structure Dyadic where
  m : Int
  e : Int
deriving DecidableEq, Repr

/-- Zero. -/
def Dyadic.zero : Dyadic := ⟨0, 0⟩

/-- Exact sum. -/
def Dyadic.add (a b : Dyadic) : Dyadic :=
  if a.m = 0 then b else if b.m = 0 then a
  else if a.e ≤ b.e then ⟨a.m + b.m * 2 ^ (b.e - a.e).toNat, a.e⟩
  else ⟨a.m * 2 ^ (a.e - b.e).toNat + b.m, b.e⟩

/-- Exact product. -/
def Dyadic.mul (a b : Dyadic) : Dyadic := ⟨a.m * b.m, a.e + b.e⟩

/-- The dyadic value of a finite float. -/
def dyOf (neg : Bool) (m : Nat) (e : Int) : Dyadic := ⟨if neg then -(m : Int) else m, e⟩

/-- The mode of a float operation: RND, FTZ and, where it acts, an OVF field. -/
structure FMode where
  rnd : Nat
  ftz : Bool
  ovf : Option Bool
deriving DecidableEq, Repr

/-- Round a dyadic; an exact zero takes the given sign. -/
def roundDyadic (f : FloatFmt) (md : FMode) (zeroNeg : Bool) (x : Dyadic) : Nat × Word :=
  if x.m = 0 then (f.zero zeroNeg, 0)
  else roundFloat f md.rnd md.ftz md.ovf (decide (x.m < 0)) x.m.natAbs x.e false

/-- The sign of an exact zero sum (IEEE 754). -/
def zeroSign (rnd : Nat) (a b : Bool) : Bool := if a == b then a else decide (rnd = 2)

/-- x + y (R65, R109). -/
def fAdd (f : FloatFmt) (md : FMode) (x y : FVal) : Nat × Word :=
  match x, y with
  | .nan _, _ | _, .nan _ => (f.nan, x.inv ||| y.inv)
  | .inf a, .inf b => if a == b then (f.inf a, 0) else (f.nan, flagINV)
  | .inf a, _ => (f.inf a, 0)
  | _, .inf b => (f.inf b, 0)
  | .fin a m e, .fin b n g => roundDyadic f md (zeroSign md.rnd a b) ((dyOf a m e).add (dyOf b n g))

/-- The opposite of a value. -/
def FVal.opp : FVal → FVal
  | .nan s => .nan s
  | .inf n => .inf (!n)
  | .fin n m e => .fin (!n) m e

/-- x · y + z with one rounding; a product 0 × ∞ is invalid whatever z is (R109). -/
def fFma (f : FloatFmt) (md : FMode) (x y z : FVal) : Nat × Word :=
  let snan := x.inv ||| y.inv ||| z.inv
  let sg := xor x.neg y.neg
  match x, y with
  | .nan _, _ | _, .nan _ => (f.nan, snan)
  | .inf _, .fin _ 0 _ | .fin _ 0 _, .inf _ => (f.nan, snan ||| flagINV)
  | .inf _, _ | _, .inf _ =>
    (match z with
     | .nan _ => (f.nan, snan)
     | .inf c => if c == sg then (f.inf sg, 0) else (f.nan, flagINV)
     | .fin _ _ _ => (f.inf sg, 0))
  | .fin a m e, .fin b n g =>
    (match z with
     | .nan _ => (f.nan, snan)
     | .inf c => (f.inf c, 0)
     | .fin c k h => roundDyadic f md (zeroSign md.rnd sg c) (((dyOf a m e).mul (dyOf b n g)).add (dyOf c k h)))

/-- x · y. -/
def fMul (f : FloatFmt) (md : FMode) (x y : FVal) : Nat × Word :=
  match x, y with
  | .nan _, _ | _, .nan _ => (f.nan, x.inv ||| y.inv)
  | .inf _, .fin _ 0 _ | .fin _ 0 _, .inf _ => (f.nan, flagINV)
  | .inf a, _ => (f.inf (xor a y.neg), 0)
  | _, .inf b => (f.inf (xor x.neg b), 0)
  | .fin a m e, .fin b n g => roundDyadic f md (xor a b) ((dyOf a m e).mul (dyOf b n g))

/-- A quotient of magnitudes, correctly rounded: enough quotient bits and a sticky remainder. -/
def roundQuot (f : FloatFmt) (md : FMode) (neg : Bool) (m n : Nat) (e : Int) : Nat × Word :=
  let k := bitLen n + f.p + 3
  roundFloat f md.rnd md.ftz md.ovf neg (m * 2 ^ k / n) (e - k) (decide (m * 2 ^ k % n ≠ 0))

/-- x / y (R65, R109). -/
def fDiv (f : FloatFmt) (md : FMode) (x y : FVal) : Nat × Word :=
  let sg := xor x.neg y.neg
  match x, y with
  | .nan _, _ | _, .nan _ => (f.nan, x.inv ||| y.inv)
  | .inf _, .inf _ => (f.nan, flagINV)
  | .inf _, .fin _ _ _ => (f.inf sg, 0)
  | .fin _ _ _, .inf _ => (f.zero sg, 0)
  | .fin _ m e, .fin _ n g =>
    if n = 0 then (if m = 0 then (f.nan, flagINV) else (f.inf sg, flagDZ))
    else if m = 0 then (f.zero sg, 0)
    else roundQuot f md sg m n (e - g)

/-- Integer square root by bits, from bit k − 1 down. -/
def isqrtBits (n : Nat) : Nat → Nat → Nat
  | 0, r => r
  | k + 1, r => if (r + 2 ^ k) * (r + 2 ^ k) ≤ n then isqrtBits n k (r + 2 ^ k) else isqrtBits n k r
def isqrt (n : Nat) : Nat := isqrtBits n (bitLen n / 2 + 1) 0

/-- √x (R77, R78). -/
def fSqrt (f : FloatFmt) (md : FMode) (x : FVal) : Nat × Word :=
  match x with
  | .nan _ => (f.nan, x.inv)
  | .inf n => if n then (f.nan, flagINV) else (f.inf false, 0)
  | .fin n m e =>
    if m = 0 then (f.zero n, 0)
    else if n then (f.nan, flagINV)
    else
      let odd := (e % 2).toNat
      let k := f.p + 3
      let v := m * 2 ^ (odd + 2 * k)
      let r := isqrt v
      roundFloat f md.rnd md.ftz md.ovf false r ((e - odd) / 2 - k) (decide (r * r ≠ v))

/-- 1/√x (R77, R78). -/
def fRsq (f : FloatFmt) (md : FMode) (x : FVal) : Nat × Word :=
  match x with
  | .nan _ => (f.nan, x.inv)
  | .inf n => if n then (f.nan, flagINV) else (f.zero false, 0)
  | .fin n m e =>
    if m = 0 then (f.inf n, flagDZ)
    else if n then (f.nan, flagINV)
    else
      let odd := (e % 2).toNat
      let k := bitLen m + f.p + 4
      let v := 2 ^ (2 * k) / (m * 2 ^ odd)
      let r := isqrt v
      roundFloat f md.rnd md.ftz md.ovf false r (-((e - odd) / 2) - k) (decide (r * r * (m * 2 ^ odd) ≠ 2 ^ (2 * k)))

/-- 1/x (R77, R78). -/
def fRcp (f : FloatFmt) (md : FMode) (x : FVal) : Nat × Word := fDiv f md (.fin false 1 0) x

/-- Numerical order of two values that are not NaN; −0 equals +0. -/
def fLess (x y : FVal) : Bool :=
  match x, y with
  | .inf a, .inf b => a && !b
  | .inf a, _ => a
  | _, .inf b => !b
  | .fin a m e, .fin b n g => decide (((dyOf a m e).add (dyOf (!b) n g)).m < 0)
  | _, _ => false
def fEqual (x y : FVal) : Bool :=
  match x, y with
  | .inf a, .inf b => a == b
  | .fin a m e, .fin b n g => decide (((dyOf a m e).add (dyOf (!b) n g)).m = 0)
  | _, _ => false

/-- Float MIN and MAX (R111). -/
def fMinMax (f : FloatFmt) (isMax : Bool) (x y : FVal) : Nat × Word :=
  let fl := x.inv ||| y.inv
  match x.isNan, y.isNan with
  | true, true => (f.nan, fl)
  | true, false => (y.encode f, fl)
  | false, true => (x.encode f, fl)
  | false, false =>
    let xLow := fLess x y || (fEqual x y && x.neg)
    (if xLow == isMax then y.encode f else x.encode f, fl)

/-- Sign changed or cleared; NaN gives the canonical NaN (R76). -/
def fSign (f : FloatFmt) (clear : Bool) (x : FVal) : Nat × Word :=
  match x with
  | .nan _ => (f.nan, x.inv)
  | .inf n => (f.inf (!clear && !n), 0)
  | .fin n m e => (FVal.encode f (.fin (!clear && !n) m e), 0)

/-- Round a finite value to an integer: the signed integer, and whether it changed. -/
def roundToInt (rnd : Nat) (neg : Bool) (m : Nat) (e : Int) : Int × Bool :=
  let (r, inexact) := if 0 ≤ e then (m * 2 ^ e.toNat, false)
    else if (bitLen m : Int) + 2 < -e then roundAt rnd neg (if m = 0 then 0 else 1) 2 false
    else roundAt rnd neg m (-e).toNat false
  (if neg then -(r : Int) else r, inexact)

/-- RINT (R76): the sign of zero is kept. -/
def fRint (f : FloatFmt) (md : FMode) (x : FVal) : Nat × Word :=
  match x with
  | .nan _ => (f.nan, x.inv)
  | .inf n => (f.inf n, 0)
  | .fin n m e =>
    if 0 ≤ e then (x.encode f, 0)
    else
      let (r, inexact) := roundToInt md.rnd n m e
      (FVal.encode f (.fin n r.natAbs 0), flagIf inexact flagNX)

/-- FRC (R76): x − floor(x); −0 gives +0. DESIGN CHOICE (log 105): the zero of any other integral x is +0 in every rounding
mode. -/
def fFrc (f : FloatFmt) (md : FMode) (x : FVal) : Nat × Word :=
  match x with
  | .nan _ => (f.nan, x.inv)
  | .inf _ => (f.nan, flagINV)
  | .fin n m e =>
    if 0 ≤ e then (f.zero false, 0)
    else
      let k := (-e).toNat
      roundDyadic f md false ⟨(if n then -(m : Int) else m) % (2 ^ k : Int), e⟩

/-! ## Engine arithmetic (R121, R122) -/

/-- A value of the engine: NaN, an infinity, or an exact number. -/
inductive EVal where
  | nan
  | inf (neg : Bool)
  | num (x : Dyadic)
deriving DecidableEq, Repr

/-- A float as the engine reads it, with INV for a signalling NaN: subnormals honoured. -/
def EVal.ofFloat (f : FloatFmt) (x : Nat) : EVal × Word :=
  match decodeFloat f false x with
  | .nan _ => (.nan, flagINV)
  | .inf n => (.inf n, 0)
  | .fin n m e => (.num (dyOf n m e), 0)

/-- A product; 0 × ∞ is invalid (R122). -/
def EVal.mul (a b : EVal) : EVal × Word :=
  match a, b with
  | .nan, _ | _, .nan => (.nan, flagINV)
  | .inf n, .num x => if x.m = 0 then (.nan, flagINV) else (.inf (xor n (decide (x.m < 0))), 0)
  | .num x, .inf n => if x.m = 0 then (.nan, flagINV) else (.inf (xor n (decide (x.m < 0))), 0)
  | .inf n, .inf k => (.inf (xor n k), 0)
  | .num x, .num y => (.num (x.mul y), 0)

/-- A sum: +∞ and −∞ together are invalid. -/
def EVal.add (a b : EVal) : EVal × Word :=
  match a, b with
  | .nan, _ | _, .nan => (.nan, 0)
  | .inf n, .inf k => if n == k then (.inf n, 0) else (.nan, flagINV)
  | .inf n, _ => (.inf n, 0)
  | _, .inf n => (.inf n, 0)
  | .num x, .num y => (.num (x.add y), 0)

/-- The exact sum of products of one block (R121). -/
def EVal.dot : List (EVal × EVal) → EVal × Word
  | [] => (.num Dyadic.zero, 0)
  | (a, b) :: rest =>
    let (p, f1) := a.mul b
    let (s, f2) := EVal.dot rest
    let (r, f3) := p.add s
    (r, f1 ||| f2 ||| f3)

/-- rtz32 with the range rules of R121; an exact zero takes the given sign. -/
def rtz32 (ovf zeroNeg : Bool) (x : EVal) : Nat × Word :=
  let f := floatFmt 2
  match x with
  | .nan => (f.nan, 0)
  | .inf n => (f.inf n, 0)
  | .num d => roundDyadic f { rnd := 1, ftz := true, ovf := some ovf } zeroNeg d

/-- acc ← rtz32(acc + rtz32(S)) (R121, R122): once NaN the accumulator stays NaN. -/
def accumulate (ovf : Bool) (acc : Nat) (sum : EVal) : Nat × Word :=
  let f := floatFmt 2
  let (s32, f1) := rtz32 ovf false sum
  let (a, _) := EVal.ofFloat f acc
  let (b, _) := EVal.ofFloat f s32
  let (t, f2) := a.add b
  let (r, f3) := rtz32 ovf (decide (acc = f.zero true) && decide (s32 = f.zero true)) t
  (r, f1 ||| f2 ||| f3)

end Sys2Proof.Machine
end

