-- ==== Sys2Proof/Config.lean ====
section
/-! DEFINITION. What the THB-480 fixes as numbers (R1), and the free values: constants with no body,
applied to the counter `State.fresh`, so that nothing in Lean can know what they are. -/

namespace Sys2Proof.Config

/-- A fresh natural number: a choice or a duration that the spec leaves open. -/
opaque freeNat : Nat → Nat

/-- A fresh truth value: whether a cache of open replacement still holds a line, for one. -/
opaque freeBool : Nat → Bool

/-- Turns after which a ready thread issues at the latest (R190: eventually). -/
opaque fairTurns : Nat

/-- The number of this device on Krazu Link (R422), which the spec does not give: below 32,768. -/
opaque device : Nat

/-- The routing table of configuration flash (R422): a mask of ports for each device number. -/
opaque flashRoutes : Nat → Nat

/-- What the fuses hold, the configuration of the firmware, and the code of the firmware that comes with the device
(R425 to R427). -/
opaque fuses : List DWord
opaque firmwareConfig : List DWord
opaque firmwareCode : List DWord

/-- SHA-384 (R427), and the key pair and certificate chain of an SPDM slot for a fused secret and a measurement of the
firmware (R426), with the signature of a key over a transcript. -/
opaque sha384 : List DWord → List DWord
opaque keyPair : Nat → List DWord → List DWord → DWord × DWord
opaque certChain : Nat → DWord → List DWord
opaque signature : DWord → List DWord → List DWord

/-- Whether a Lantern core raises an exception for a misaligned access of its local memory (R340, log 20). -/
opaque lanternAligns : Bool

/-- A fresh 64-bit value: data that another device or a signing key supplies. -/
opaque freeBits : Nat → DWord

/-- Compute dies (R1). -/
def dies : Nat := 4

/-- Clusters, on an 8 × 8 grid (R1, R403). -/
def clusters : Nat := 64

/-- Cores, on a 16 × 32 grid (R1, R403). -/
def cores : Nat := 512

/-- L2 slices, 32 per die (R1). -/
def slices : Nat := 128

/-- Banks of a cluster (R225). -/
def banks : Nat := 64

/-- Bytes of a bank (R230). -/
def bankBytes : Nat := 131072

/-- Bytes of a cache line at every level (R233, R235). -/
def lineBytes : Nat := 128

/-- Bytes of HBM: 384 GiB (R1). -/
def hbmBytes : Nat := 384 * 2 ^ 30

/-- Krazu ports (R1). -/
def ports : Nat := 16

/-- Host-visible work queues (R1). -/
def queues : Nat := 2048

/-- The mark of a word that no crew claims (R236). -/
def noMark : Nat := 511

/-- Instructions of a run, the last of which counts as marked (R21). -/
def runLimit : Nat := 64

/-- Cycles an allocated bank is untouched before it may enter retention (R226). -/
def retentionIdle : Nat := 27000

/-- Cycles an unallocated bank is idle before it enters deep-off (R226). -/
def deepOffIdle : Nat := 54000

/-- The most cycles a wake from retention takes (R226). -/
def retentionWake : Nat := 108

/-- Cycles a wake from deep-off takes (R226). -/
def deepOffWake : Nat := 5400

/-- Cycles between two tries of a split that a full waiter list did not link (R232). -/
def fifoRetry : Nat := 64

/-- Cycles of one tick of a pin window's fade counter (R237). -/
def pinTick : Nat := 270000

/-- Entries of a launch's decision queue (R180). -/
def decisionQueue : Nat := 64

/-- Commands a copy engine queues (R319). -/
def copyQueue : Nat := 64

/-- Incomplete commands of one issuer that a copy engine tracks (R319). -/
def copyPerIssuer : Nat := 16

/-- Operations a matrix engine queues (R362). -/
def engineQueue : Nat := 8

/-- Tile entries of one slice (R252). -/
def tileEntries : Nat := 4096

/-- Entries of one slice's coverage filter (R254). -/
def coverageEntries : Nat := 8192

/-- Ways of an L2 slice (R235). -/
def l2Ways : Nat := 32

/-- Entries of a die's channel TLB (R241). -/
def tlbEntries : Nat := 8192

/-- Codes that the metadata cache of an HBM controller holds: 1 MiB of 2 bits each (R245). -/
def metaCodes : Nat := 4194304

/-- Where the physical pages of fresh code images lie (R395, R414): above every address that a page table can name. -/
def imageFrames : Nat := 2 ^ 52

/-- Carve-outs after which a tile is dissolved (R257). -/
def carveLimit : Nat := 64

/-- Circle states of the circle network (R405). -/
def circleStates : Nat := 2048

/-- Entries of a die's reverse map (R260). -/
def reverseEntries : Nat := 65536

/-- Event records of a partition's on-die buffer (R419). -/
def eventBuffer : Nat := 256

/-- Fourth operand fault of one crew or frame (R335). -/
def retryLimit : Nat := 4

/-- Lines of a cluster's sampler cache (R439). -/
def samplerLines : Nat := 256

/-- Lines of a tile-layout unit's read buffers (R439). -/
def layoutLines : Nat := 64

/-- Records of a core's record cache (R338). -/
def recordEntries : Nat := 64

end Sys2Proof.Config
end

