-- ==== Sys2Proof/Syntax.lean ====
section
/-! DEFINITION. The instruction set as syntax: one constructor per row of spec/opcode_table.json.
The first 168 are the words of R41 to R43, with the fields of R33; the other 116 are the events of
the table, which no word encodes, with the operands that say where the event happens and what the
outside world supplies. -/

namespace Sys2Proof

/-- What a home slice grants with line data (R250): shared, exclusive or owned. -/
inductive Grant where
  | shared | exclusive | owned
deriving DecidableEq, Repr

/-- The unit in which an uncorrectable error is found, one constructor per row of R386. -/
inductive EccPlace where
  | hbm (granule : Nat)
  | walker (cid : Nat)
  | cacheClean (cid line : Nat)
  | cacheDirty (cid line : Nat)
  | subGranuleWrite (cid granule : Nat)
  | crew (tid : Nat)
  | share (launch share : Nat)
  | engine (core : Nat)
  | bankWord (cl bank : Nat)
  | stash (part : Nat)
deriving DecidableEq, Repr

/-- The four reasons of a narrowing (17, R388): an urgent launch, thermal migration, a change of
partition, a context swap. -/
inductive NarrowWhy where
  | urgent | thermal | partition | swap
deriving DecidableEq, Repr

/-- What else a word without a meaning says: whether a guard governs it (R46), and its run-close marker S (R21). -/
structure WordGuard where
  guarded : Bool
  marker  : BitVec 1
deriving DecidableEq, Repr

/-- The fields of a format window (R243). -/
structure FormatWindow where
  ebase : Nat
  esize : Nat
  dbase : Nat
  sbase : Nat
  fmt   : Nat
deriving DecidableEq, Repr

/-- A host register written without behaviour of its own (REGISTER_WRITE): a register of a partition
window (R409), of a doorbell block (R411), or a word of BAR0 (R431); or the device owner's request, through the mailbox
of partition 63, that a partition hold clusters of a die, those of the written mask: R406 gives the request, R410 no code
and no arguments for it (DESIGN CHOICE, log 62). -/
inductive HostReg where
  | window (part off : Nat)
  | doorbell (queue off : Nat)
  | bar0 (off : Nat)
  | owner (part die : Nat)
deriving DecidableEq, Repr

/-- A received 256-byte flit (R422): header fields, payload and whether its CRC-64 holds. -/
structure Flit where
  dest    : Nat
  src     : Nat
  kind    : Nat
  seq     : Nat
  payload : List Byte
  crcOk   : Bool
deriving DecidableEq, Repr

/-- What the ROM and the firmware find while booting (R425, R429): which checks and steps pass; `arrays` stands for
step 4, `krazu` for step 5. -/
structure BootInputs where
  present  : Bool
  ed25519  : Bool
  mldsa    : Bool
  rollback : Bool
  dieLink  : Bool
  hbm      : Bool
  arrays   : Bool
  krazu    : Bool
  version  : BitVec 32
deriving DecidableEq, Repr

/-- One constructor per row of spec/opcode_table.json. `m` is the switch marker S (bit 31, R32). -/
inductive Instr where
  | add (m : BitVec 1) (d : BitVec 8) (a : BitVec 8) (b : BitVec 8)
  | sub (m : BitVec 1) (d : BitVec 8) (a : BitVec 8) (b : BitVec 8)
  | mul (m : BitVec 1) (d : BitVec 8) (a : BitVec 8) (b : BitVec 8)
  | mulh (m : BitVec 1) (d : BitVec 8) (a : BitVec 8) (b : BitVec 8)
  | fma (m : BitVec 1) (d : BitVec 8) (a : BitVec 8) (b : BitVec 8)
  | div (m : BitVec 1) (d : BitVec 8) (a : BitVec 8) (b : BitVec 8)
  | rem (m : BitVec 1) (d : BitVec 8) (a : BitVec 8) (b : BitVec 8)
  | min (m : BitVec 1) (d : BitVec 8) (a : BitVec 8) (b : BitVec 8)
  | max (m : BitVec 1) (d : BitVec 8) (a : BitVec 8) (b : BitVec 8)
  | and (m : BitVec 1) (d : BitVec 8) (a : BitVec 8) (b : BitVec 8)
  | or (m : BitVec 1) (d : BitVec 8) (a : BitVec 8) (b : BitVec 8)
  | xor (m : BitVec 1) (d : BitVec 8) (a : BitVec 8) (b : BitVec 8)
  | andn (m : BitVec 1) (d : BitVec 8) (a : BitVec 8) (b : BitVec 8)
  | shl (m : BitVec 1) (d : BitVec 8) (a : BitVec 8) (b : BitVec 8)
  | shr (m : BitVec 1) (d : BitVec 8) (a : BitVec 8) (b : BitVec 8)
  | sra (m : BitVec 1) (d : BitVec 8) (a : BitVec 8) (b : BitVec 8)
  | bfx (m : BitVec 1) (d : BitVec 8) (a : BitVec 8) (b : BitVec 8)
  | bfi (m : BitVec 1) (d : BitVec 8) (a : BitVec 8) (b : BitVec 8)
  | permb (m : BitVec 1) (d : BitVec 8) (a : BitVec 8) (b : BitVec 8)
  | sel (m : BitVec 1) (d : BitVec 8) (a : BitVec 8) (b : BitVec 8)
  | cmp (m : BitVec 1) (c : BitVec 3) (p : BitVec 3) (a : BitVec 8) (b : BitVec 8)
  | pred (m : BitVec 1) (o : BitVec 2) (d : BitVec 3) (i : BitVec 1) (a : BitVec 3) (j : BitVec 1) (b : BitVec 3)
  | addx (m : BitVec 1) (d : BitVec 8) (a : BitVec 8) (b : BitVec 8)
  | mov (m : BitVec 1) (d : BitVec 8) (a : BitVec 8)
  | not (m : BitVec 1) (d : BitVec 8) (a : BitVec 8)
  | neg (m : BitVec 1) (d : BitVec 8) (a : BitVec 8)
  | abs (m : BitVec 1) (d : BitVec 8) (a : BitVec 8)
  | popc (m : BitVec 1) (d : BitVec 8) (a : BitVec 8)
  | clz (m : BitVec 1) (d : BitVec 8) (a : BitVec 8)
  | ctz (m : BitVec 1) (d : BitVec 8) (a : BitVec 8)
  | brev (m : BitVec 1) (d : BitVec 8) (a : BitVec 8)
  | frc (m : BitVec 1) (d : BitVec 8) (a : BitVec 8)
  | rint (m : BitVec 1) (d : BitVec 8) (a : BitVec 8)
  | rcp (m : BitVec 1) (d : BitVec 8) (a : BitVec 8)
  | rsq (m : BitVec 1) (d : BitVec 8) (a : BitVec 8)
  | sqrt (m : BitVec 1) (d : BitVec 8) (a : BitVec 8)
  | exp2 (m : BitVec 1) (d : BitVec 8) (a : BitVec 8)
  | log2 (m : BitVec 1) (d : BitVec 8) (a : BitVec 8)
  | sinp (m : BitVec 1) (d : BitVec 8) (a : BitVec 8)
  | cosp (m : BitVec 1) (d : BitVec 8) (a : BitVec 8)
  | tanh (m : BitVec 1) (d : BitVec 8) (a : BitVec 8)
  | cvt (m : BitVec 1) (d : BitVec 8) (a : BitVec 8) (f : BitVec 4) (g : BitVec 4)
  | li (m : BitVec 1) (d : BitVec 8) (i : BitVec 16)
  | lih (m : BitVec 1) (d : BitVec 8) (i : BitVec 16)
  | setmode (m : BitVec 1) (k : BitVec 8) (i : BitVec 16)
  | br (m : BitVec 1) (c : BitVec 4) (o : BitVec 20)
  | call (m : BitVec 1) (o : BitVec 20)
  | brd (m : BitVec 1) (k : BitVec 4) (o : BitVec 20)
  | join (m : BitVec 1) (k : BitVec 4)
  | loop (m : BitVec 1) (a : BitVec 8) (l : BitVec 8)
  | choice (m : BitVec 1) (o : BitVec 20)
  | jmpr (m : BitVec 1) (d : BitVec 8) (a : BitVec 8)
  | nop (m : BitVec 1)
  | endI (m : BitVec 1)
  | sys (m : BitVec 1) (n : BitVec 8)
  | tret (m : BitVec 1)
  | rdsr (m : BitVec 1) (d : BitVec 8) (a : BitVec 8)
  | wrsr (m : BitVec 1) (d : BitVec 8) (a : BitVec 8)
  | getcyc (m : BitVec 1) (d : BitVec 8)
  | icinv (m : BitVec 1)
  | exit (m : BitVec 1)
  | ret (m : BitVec 1)
  | setmoder (m : BitVec 1) (k : BitVec 8) (a : BitVec 8)
  | getmode (m : BitVec 1) (d : BitVec 8)
  | waitt (m : BitVec 1) (a : BitVec 8)
  | brk (m : BitVec 1) (n : BitVec 8)
  | shfl (m : BitVec 1) (d : BitVec 8) (a : BitVec 8) (b : BitVec 8)
  | shflx (m : BitVec 1) (d : BitVec 8) (a : BitVec 8) (b : BitVec 8)
  | shflup (m : BitVec 1) (d : BitVec 8) (a : BitVec 8) (n : BitVec 6)
  | shfldn (m : BitVec 1) (d : BitVec 8) (a : BitVec 8) (n : BitVec 6)
  | voteall (m : BitVec 1) (p : BitVec 3)
  | voteany (m : BitVec 1) (p : BitVec 3)
  | ballot (m : BitVec 1) (d : BitVec 8)
  | mbcnt (m : BitVec 1) (d : BitVec 8) (a : BitVec 8)
  | firstlane (m : BitVec 1) (d : BitVec 8) (a : BitVec 8)
  | rsum (m : BitVec 1) (d : BitVec 8) (a : BitVec 8) (f : BitVec 1)
  | scans (m : BitVec 1) (d : BitVec 8) (a : BitVec 8) (f : BitVec 1)
  | bar (m : BitVec 1) (k : BitVec 2)
  | bara (m : BitVec 1) (k : BitVec 2)
  | barw (m : BitVec 1) (k : BitVec 2)
  | dqpush (m : BitVec 1) (a : BitVec 8)
  | dqpop (m : BitVec 1) (d : BitVec 8)
  | dqpeek (m : BitVec 1) (d : BitVec 8)
  | spawn (m : BitVec 1) (a : BitVec 8) (b : BitVec 8)
  | tdone (m : BitVec 1) (a : BitVec 8)
  | qpop (m : BitVec 1) (d : BitVec 8) (a : BitVec 8)
  | setgang (m : BitVec 1) (a : BitVec 8)
  | adoptq (m : BitVec 1) (d : BitVec 8) (a : BitVec 8)
  | offer (m : BitVec 1) (d : BitVec 8)
  | vwin (m : BitVec 1) (a : BitVec 8) (b : BitVec 8)
  | tagof (m : BitVec 1) (d : BitVec 8) (a : BitVec 8)
  | payld (m : BitVec 1) (d : BitVec 8) (a : BitVec 8)
  | mkterm (m : BitVec 1) (d : BitVec 8) (a : BitVec 8) (t : BitVec 3)
  | deref (m : BitVec 1) (d : BitVec 8) (a : BitVec 8)
  | getcp (m : BitVec 1) (d : BitVec 8)
  | gettr (m : BitVec 1) (d : BitVec 8)
  | unify (m : BitVec 1) (d : BitVec 8) (a : BitVec 8) (b : BitVec 8)
  | bind (m : BitVec 1) (d : BitVec 8) (a : BitVec 8) (b : BitVec 8)
  | fail (m : BitVec 1)
  | cut (m : BitVec 1) (a : BitVec 8)
  | hnew (m : BitVec 1) (d : BitVec 8) (a : BitVec 8)
  | newvar (m : BitVec 1) (d : BitVec 8)
  | ldb (m : BitVec 1) (d : BitVec 8) (a : BitVec 8) (o : BitVec 8)
  | ldh (m : BitVec 1) (d : BitVec 8) (a : BitVec 8) (o : BitVec 8)
  | ldw (m : BitVec 1) (d : BitVec 8) (a : BitVec 8) (o : BitVec 8)
  | ldd (m : BitVec 1) (d : BitVec 8) (a : BitVec 8) (o : BitVec 8)
  | ldq (m : BitVec 1) (d : BitVec 8) (a : BitVec 8) (o : BitVec 8)
  | stb (m : BitVec 1) (d : BitVec 8) (a : BitVec 8) (o : BitVec 8)
  | sth (m : BitVec 1) (d : BitVec 8) (a : BitVec 8) (o : BitVec 8)
  | stw (m : BitVec 1) (d : BitVec 8) (a : BitVec 8) (o : BitVec 8)
  | std (m : BitVec 1) (d : BitVec 8) (a : BitVec 8) (o : BitVec 8)
  | stq (m : BitVec 1) (d : BitVec 8) (a : BitVec 8) (o : BitVec 8)
  | lda (m : BitVec 1) (d : BitVec 8) (a : BitVec 8) (o : BitVec 8)
  | ldad (m : BitVec 1) (d : BitVec 8) (a : BitVec 8) (o : BitVec 8)
  | stl (m : BitVec 1) (d : BitVec 8) (a : BitVec 8) (o : BitVec 8)
  | stld (m : BitVec 1) (d : BitVec 8) (a : BitVec 8) (o : BitVec 8)
  | ldc (m : BitVec 1) (d : BitVec 8) (a : BitVec 8) (o : BitVec 8)
  | lds (m : BitVec 1) (d : BitVec 8) (a : BitVec 8) (o : BitVec 8)
  | sts (m : BitVec 1) (d : BitVec 8) (a : BitVec 8) (o : BitVec 8)
  | fpush (m : BitVec 1) (d : BitVec 8) (a : BitVec 8)
  | fpop (m : BitVec 1) (d : BitVec 8) (a : BitVec 8)
  | ftrypop (m : BitVec 1) (d : BitVec 8) (a : BitVec 8)
  | atadd (m : BitVec 1) (d : BitVec 8) (a : BitVec 8) (b : BitVec 8)
  | atmin (m : BitVec 1) (d : BitVec 8) (a : BitVec 8) (b : BitVec 8)
  | atmax (m : BitVec 1) (d : BitVec 8) (a : BitVec 8) (b : BitVec 8)
  | atand (m : BitVec 1) (d : BitVec 8) (a : BitVec 8) (b : BitVec 8)
  | ator (m : BitVec 1) (d : BitVec 8) (a : BitVec 8) (b : BitVec 8)
  | atxor (m : BitVec 1) (d : BitVec 8) (a : BitVec 8) (b : BitVec 8)
  | atswp (m : BitVec 1) (d : BitVec 8) (a : BitVec 8) (b : BitVec 8)
  | atcas (m : BitVec 1) (d : BitVec 8) (a : BitVec 8) (b : BitVec 8)
  | atfadd (m : BitVec 1) (d : BitVec 8) (a : BitVec 8) (b : BitVec 8)
  | atinc (m : BitVec 1) (d : BitVec 8) (a : BitVec 8) (b : BitVec 8)
  | fence (m : BitVec 1) (p : BitVec 1) (k : BitVec 2)
  | pfence (m : BitVec 1) (p : BitVec 7)
  | cwb (m : BitVec 1) (d : BitVec 8) (a : BitVec 8)
  | cinv (m : BitVec 1) (d : BitVec 8) (a : BitVec 8)
  | cflush (m : BitVec 1) (d : BitVec 8) (a : BitVec 8)
  | pref (m : BitVec 1) (a : BitVec 8)
  | pin (m : BitVec 1) (d : BitVec 8) (a : BitVec 8)
  | unpin (m : BitVec 1) (a : BitVec 8)
  | sample (m : BitVec 1) (d : BitVec 8) (a : BitVec 8) (b : BitVec 8)
  | bankmode (m : BitVec 1) (a : BitVec 8) (r : BitVec 4) (c : BitVec 5)
  | bankpwr (m : BitVec 1) (a : BitVec 8) (r : BitVec 4) (c : BitVec 5)
  | bankq (m : BitVec 1) (a : BitVec 8) (r : BitVec 4) (c : BitVec 5)
  | lmsg (m : BitVec 1) (a : BitVec 8) (r : BitVec 4) (c : BitVec 5)
  | bwphase (m : BitVec 1) (n : BitVec 8) (h : BitVec 2)
  | topen (m : BitVec 1) (d : BitVec 8) (a : BitVec 8)
  | tclose (m : BitVec 1) (a : BitVec 8)
  | tacqr (m : BitVec 1) (a : BitVec 8)
  | tacqw (m : BitVec 1) (a : BitVec 8)
  | trel (m : BitVec 1) (a : BitVec 8)
  | tquery (m : BitVec 1) (d : BitVec 8) (a : BitVec 8)
  | tsplit (m : BitVec 1) (d : BitVec 8) (a : BitVec 8) (b : BitVec 8)
  | tld (m : BitVec 1) (d : BitVec 8) (a : BitVec 8) (b : BitVec 8)
  | tst (m : BitVec 1) (d : BitVec 8) (a : BitVec 8) (b : BitVec 8)
  | copy (m : BitVec 1) (d : BitVec 8) (a : BitVec 8) (b : BitVec 8)
  | copyg (m : BitVec 1) (d : BitVec 8) (a : BitVec 8) (b : BitVec 8)
  | collect (m : BitVec 1) (d : BitVec 8) (a : BitVec 8) (b : BitVec 8)
  | fork (m : BitVec 1) (d : BitVec 8) (a : BitVec 8) (b : BitVec 8)
  | rdv (m : BitVec 1) (d : BitVec 8) (f : BitVec 2)
  | publish (m : BitVec 1) (a : BitVec 8)
  | mlds (m : BitVec 1) (a : BitVec 8) (b : BitVec 8)
  | mones (m : BitVec 1) (k : BitVec 2)
  | mswap (m : BitVec 1)
  | mstream (m : BitVec 1) (d : BitVec 8) (a : BitVec 8) (b : BitVec 8)
  | mdrain (m : BitVec 1) (d : BitVec 8) (a : BitVec 8) (b : BitVec 8)
  | mzero (m : BitVec 1) (a : BitVec 8)
  | mshadow (m : BitVec 1) (f : BitVec 1)
  | illegalInstruction (check : Nat) (guarded : WordGuard)
  | crewStart (launch crew : Nat)
  | shareStart (launch share : Nat)
  | barrierComplete (launch circle : Nat)
  | waiterRelease (tid split : Nat)
  | bankRetentionEntry (cl bank : Nat)
  | bankDeepOffEntry (cl bank : Nat)
  | bankWakeComplete (cl bank : Nat)
  | fifoWaiterRetry (tid split : Nat)
  | reqs (die cid line : Nat)
  | reqm (die cid line : Nat)
  | upg (die cid line : Nat)
  | wb (die cid line : Nat)
  | inv (die cid line : Nat)
  | fwds (die cid line req : Nat)
  | fwdm (die cid line req : Nat)
  | recall (die cid line : Nat)
  | data (die cid line : Nat) (grant : Grant)
  | ack (die cid line : Nat)
  | upgack (die cid line : Nat)
  | wback (die cid line : Nat)
  | alreadywb (die cid line : Nat)
  | pinFadeTick (die win : Nat)
  | pinWindowFaded (die win : Nat)
  | lanternHandlerStart (slice : Nat)
  | lanternBudgetExpiry (slice : Nat)
  | lanternPortComplete (slice status : Nat)
  | krazuHeartbeatTimeout (device : Nat)
  | tempSample (temps : List (Nat × BitVec 32)) (hottest inlet : List Nat)
  | specFenceComplete (tid split : Nat)
  | copyCommandAccept (cl : Nat)
  | copyCommandStart (cl : Nat)
  | copyCommandComplete (cl : Nat)
  | waittWake (tid split : Nat)
  | publishSwap (cid region : Nat)
  | planeLoadStart (core : Nat)
  | planeLoadEnd (core : Nat)
  | streamPassStart (core : Nat)
  | streamPassEnd (core : Nat)
  | drainStart (core : Nat)
  | drainEnd (core : Nat)
  | mzeroEnd (core : Nat)
  | mshadowEnd (core : Nat)
  | sequencerEndComplete (core which : Nat)
  | faultRecordWrite (cid : Nat)
  | narrowing (part : Nat) (cores : List Nat) (why : NarrowWhy)
  | crewSaveComplete (tid : Nat)
  | crewRestore (tid core : Nat)
  | imageSwitch (launch : Nat)
  | launchRecordDispatch (queue : Nat)
  | launchEnd (launch : Nat)
  | invalidationComplete (cid base len : Nat)
  | newctx (part : Nat)
  | endctx (part cid : Nat)
  | mapframe (part cid vbase pbase frames cls : Nat)
  | setwindow (part ctrl win : Nat) (w : FormatWindow)
  | biasflip (part cid vpage : Nat) (host : Bool)
  | biasFlipComplete (cid vpage : Nat) (host : Bool)
  | lantern (part cid mask image size table : Nat)
  | image (part cid size : Nat)
  | assignq (part queue : Nat)
  | setcache (part banks : Nat)
  | setreserve (part cores : Nat)
  | stash (part ways : Nat)
  | groups (part cid addr : Nat)
  | swap (part : Nat) (swapIn : Bool)
  | clearctx (part cid : Nat)
  | span (part mask : Nat)
  | checkpoint (part cid region buddy : Nat) (confirmed : Bool)
  | mirror (part device cid size base : Nat)
  | powerSample (watts : Nat)
  | krazuAckTimeout (port : Nat)
  | krazuRetrainComplete (port : Nat) (trained : Bool)
  | hostCxlMemWrite (pa : Nat) (bytes : List Byte)
  | perstDeassert (boot : BootInputs)
  | processMonitorSample (cl mhz : Nat)
  | hostCxlMemRead (pa n : Nat)
  | hostSnoop (die pline : Nat)
  | lanternDoneDefault (slice : Nat)
  | cacheBankPowerOff (cl bank : Nat)
  | lanternPortRead (slice paddr plocal plen : Nat)
  | lanternPortWrite (slice paddr plocal plen : Nat)
  | lanternPortPrefetch (slice paddr : Nat)
  | lanternPortAdd (slice paddr : Nat) (wide : Bool) (operand : BitVec 64)
  | lanternPortAnd (slice paddr : Nat) (wide : Bool) (operand : BitVec 64)
  | lanternPortOr (slice paddr : Nat) (wide : Bool) (operand : BitVec 64)
  | lanternPortXor (slice paddr : Nat) (wide : Bool) (operand : BitVec 64)
  | lanternPortSwap (slice paddr : Nat) (wide : Bool) (operand : BitVec 64)
  | lanternPortReply (slice plocal rdest : Nat)
  | lanternPortRefused (slice : Nat)
  | fqresRetry (cid token : Nat)
  | fqresUnresolvable (cid token : Nat)
  | eccUncorrectable (place : EccPlace)
  | doorbell (queue value : Nat)
  | qctlStallClear (queue : Nat)
  | evheadWrite (part value : Nat)
  | fqbaseWrite (part value : Nat)
  | invlen (part len : Nat)
  | registerWrite (reg : HostReg) (value : Nat)
  | krazuFlitReceive (port : Nat) (flit : Flit)
  | getVersion
  | getCapabilities
  | negotiateAlgorithms
  | getDigests
  | getCertificate (slot : Nat)
  | challenge (slot nonce : Nat)
  | getMeasurements (index nonce : Nat)
  | configRetryEnd
  | recgo (image : BootInputs)
  | requestRefused (part code : Nat)
  | lanternDoneSubstitute (slice : Nat)
  | droopDetect (cl millivolts : Nat)
  | perstAssert
  | partitionReset (part : Nat)
  | evlogWrite (part base log : Nat)
  | lanternHandlerException (slice : Nat)
deriving DecidableEq, Repr

end Sys2Proof
end

