-- ==== Sys2Proof/WellFormed.lean ====
section
/-! DEFINITION. Which instructions are well formed: the checks of R45 steps 1 to 3 that the field
widths of `Instr` do not already make, and for an event that it names a unit of the device. -/

namespace Sys2Proof

/-- The seven integer format codes of CVT (R125). -/
def cvtInts : List Nat := [0, 1, 5, 6, 7, 8, 10]

/-- The legal destinations of a CVT source (R126). -/
def cvtDests (src : Nat) : List Nat :=
  if cvtInts.contains src then (cvtInts.filter (· != src)) ++ [2, 3, 4, 9]
  else match src with
    | 2 => cvtInts ++ [3, 4, 9, 11, 12, 13]
    | 3 => cvtInts ++ [2, 4, 9, 11, 12, 13]
    | 4 => cvtInts ++ [2, 3, 9, 11, 12, 13]
    | 9 => cvtInts ++ [2, 3, 4]
    | 11 | 12 | 13 => [0, 2, 3, 4]
    | _ => []

/-- The pairs of R126. -/
def cvtLegal (src dst : Nat) : Bool := (cvtDests src).contains dst

/-- The largest legal value of each SETMODE selector (R40). -/
def setmodeMax : List Nat := [7, 1, 15, 3, 1, 1, 1, 1, 3, 2]

/-- The legal selectors and values of SETMODE (R40). -/
def setmodeLegal (sel imm : Nat) : Bool :=
  match setmodeMax[sel]? with
  | some hi => decide (imm ≤ hi)
  | none => false

/-- Well-formedness, one row per constructor. -/
def Instr.wellFormed : Instr → Bool
  | .add _ _ _ _ => true
  | .sub _ _ _ _ => true
  | .mul _ _ _ _ => true
  | .mulh _ _ _ _ => true
  | .fma _ _ _ _ => true
  | .div _ _ _ _ => true
  | .rem _ _ _ _ => true
  | .min _ _ _ _ => true
  | .max _ _ _ _ => true
  | .and _ _ _ _ => true
  | .or _ _ _ _ => true
  | .xor _ _ _ _ => true
  | .andn _ _ _ _ => true
  | .shl _ _ _ _ => true
  | .shr _ _ _ _ => true
  | .sra _ _ _ _ => true
  | .bfx _ _ _ _ => true
  | .bfi _ _ _ _ => true
  | .permb _ _ _ _ => true
  | .sel _ _ _ _ => true
  | .cmp _ _ p _ _ => p != 0
  | .pred _ _ d _ _ _ _ => d != 0
  | .addx _ _ _ _ => true
  | .mov _ _ _ => true
  | .not _ _ _ => true
  | .neg _ _ _ => true
  | .abs _ _ _ => true
  | .popc _ _ _ => true
  | .clz _ _ _ => true
  | .ctz _ _ _ => true
  | .brev _ _ _ => true
  | .frc _ _ _ => true
  | .rint _ _ _ => true
  | .rcp _ _ _ => true
  | .rsq _ _ _ => true
  | .sqrt _ _ _ => true
  | .exp2 _ _ _ => true
  | .log2 _ _ _ => true
  | .sinp _ _ _ => true
  | .cosp _ _ _ => true
  | .tanh _ _ _ => true
  | .cvt _ _ _ f g => cvtLegal f.toNat g.toNat
  | .li _ _ _ => true
  | .lih _ _ _ => true
  | .setmode _ k i => setmodeLegal k.toNat i.toNat
  | .br _ c _ => decide (c.toNat ≤ 3)
  | .call _ _ => true
  | .brd _ _ _ => true
  | .join _ _ => true
  | .loop _ _ _ => true
  | .choice _ _ => true
  | .jmpr _ _ _ => true
  | .nop _ => true
  | .endI _ => true
  | .sys _ _ => true
  | .tret _ => true
  | .rdsr _ _ _ => true
  | .wrsr _ _ _ => true
  | .getcyc _ _ => true
  | .icinv _ => true
  | .exit _ => true
  | .ret _ => true
  | .setmoder _ k _ => decide (k.toNat ≤ 2)
  | .getmode _ _ => true
  | .waitt _ _ => true
  | .brk _ _ => true
  | .shfl _ _ _ _ => true
  | .shflx _ _ _ _ => true
  | .shflup _ _ _ _ => true
  | .shfldn _ _ _ _ => true
  | .voteall _ p => p != 0
  | .voteany _ p => p != 0
  | .ballot _ _ => true
  | .mbcnt _ _ _ => true
  | .firstlane _ _ _ => true
  | .rsum _ _ _ _ => true
  | .scans _ _ _ _ => true
  | .bar _ _ => true
  | .bara _ _ => true
  | .barw _ _ => true
  | .dqpush _ _ => true
  | .dqpop _ _ => true
  | .dqpeek _ _ => true
  | .spawn _ _ _ => true
  | .tdone _ _ => true
  | .qpop _ _ _ => true
  | .setgang _ _ => true
  | .adoptq _ _ _ => true
  | .offer _ _ => true
  | .vwin _ _ _ => true
  | .tagof _ _ _ => true
  | .payld _ _ _ => true
  | .mkterm _ _ _ _ => true
  | .deref _ _ _ => true
  | .getcp _ _ => true
  | .gettr _ _ => true
  | .unify _ _ _ _ => true
  | .bind _ _ _ _ => true
  | .fail _ => true
  | .cut _ _ => true
  | .hnew _ _ _ => true
  | .newvar _ _ => true
  | .ldb _ _ _ _ => true
  | .ldh _ _ _ _ => true
  | .ldw _ _ _ _ => true
  | .ldd _ _ _ _ => true
  | .ldq _ _ _ _ => true
  | .stb _ _ _ _ => true
  | .sth _ _ _ _ => true
  | .stw _ _ _ _ => true
  | .std _ _ _ _ => true
  | .stq _ _ _ _ => true
  | .lda _ _ _ _ => true
  | .ldad _ _ _ _ => true
  | .stl _ _ _ _ => true
  | .stld _ _ _ _ => true
  | .ldc _ _ _ _ => true
  | .lds _ _ _ _ => true
  | .sts _ _ _ _ => true
  | .fpush _ _ _ => true
  | .fpop _ _ _ => true
  | .ftrypop _ _ _ => true
  | .atadd _ _ _ _ => true
  | .atmin _ _ _ _ => true
  | .atmax _ _ _ _ => true
  | .atand _ _ _ _ => true
  | .ator _ _ _ _ => true
  | .atxor _ _ _ _ => true
  | .atswp _ _ _ _ => true
  | .atcas _ _ _ _ => true
  | .atfadd _ _ _ _ => true
  | .atinc _ _ _ _ => true
  | .fence _ _ k => k != 3
  | .pfence _ p => p != 0
  | .cwb _ _ _ => true
  | .cinv _ _ _ => true
  | .cflush _ _ _ => true
  | .pref _ _ => true
  | .pin _ _ _ => true
  | .unpin _ _ => true
  | .sample _ _ _ _ => true
  | .bankmode _ _ r c => decide (r.toNat ≤ 7) && decide (c.toNat ≤ 7)
  | .bankpwr _ _ r c => decide (r.toNat ≤ 7) && decide (c.toNat ≤ 7)
  | .bankq _ _ r c => decide (r.toNat ≤ 7) && decide (c.toNat ≤ 7)
  | .lmsg _ _ r c => decide (r.toNat ≤ 7) && decide (c.toNat ≤ 15)
  | .bwphase _ _ _ => true
  | .topen _ _ _ => true
  | .tclose _ _ => true
  | .tacqr _ _ => true
  | .tacqw _ _ => true
  | .trel _ _ => true
  | .tquery _ _ _ => true
  | .tsplit _ _ _ _ => true
  | .tld _ _ _ _ => true
  | .tst _ _ _ _ => true
  | .copy _ _ _ _ => true
  | .copyg _ _ _ _ => true
  | .collect _ _ _ _ => true
  | .fork _ _ _ _ => true
  | .rdv _ _ f => f != 0
  | .publish _ _ => true
  | .mlds _ _ _ => true
  | .mones _ _ => true
  | .mswap _ => true
  | .mstream _ _ _ _ => true
  | .mdrain _ _ _ _ => true
  | .mzero _ _ => true
  | .mshadow _ _ => true
  | .illegalInstruction check _ => decide (check < 4)
  | .crewStart _ _ => true
  | .shareStart _ _ => true
  | .barrierComplete _ circle => decide (circle < 256)
  | .waiterRelease _ split => decide (split < 16)
  | .bankRetentionEntry cl bank => decide (cl < Config.clusters) && decide (bank < Config.banks)
  | .bankDeepOffEntry cl bank => decide (cl < Config.clusters) && decide (bank < Config.banks)
  | .bankWakeComplete cl bank => decide (cl < Config.clusters) && decide (bank < Config.banks)
  | .cacheBankPowerOff cl bank => decide (cl < Config.clusters) && decide (bank < Config.banks)
  | .fifoWaiterRetry _ split => decide (split < 16)
  | .reqs die cid _ => decide (die < Config.dies) && decide (cid < 4096)
  | .reqm die cid _ => decide (die < Config.dies) && decide (cid < 4096)
  | .upg die cid _ => decide (die < Config.dies) && decide (cid < 4096)
  | .wb die cid _ => decide (die < Config.dies) && decide (cid < 4096)
  | .inv die cid _ => decide (die < Config.dies) && decide (cid < 4096)
  | .fwds die cid _ req => decide (die < Config.dies) && decide (cid < 4096) && decide (req < 5)
  | .fwdm die cid _ req => decide (die < Config.dies) && decide (cid < 4096) && decide (req < 5)
  | .recall die cid _ => decide (die < Config.dies) && decide (cid < 4096)
  | .data die cid _ _ => decide (die < Config.dies) && decide (cid < 4096)
  | .ack die cid _ => decide (die < Config.dies) && decide (cid < 4096)
  | .upgack die cid _ => decide (die < Config.dies) && decide (cid < 4096)
  | .wback die cid _ => decide (die < Config.dies) && decide (cid < 4096)
  | .alreadywb die cid _ => decide (die < Config.dies) && decide (cid < 4096)
  | .hostSnoop die _ => decide (die < Config.dies)
  | .hostCxlMemRead _ _ => true
  | .hostCxlMemWrite _ _ => true
  | .pinFadeTick die win => decide (die < Config.dies) && decide (win < 64)
  | .pinWindowFaded die win => decide (die < Config.dies) && decide (win < 64)
  | .lanternHandlerStart slice => decide (slice < Config.slices)
  | .lanternBudgetExpiry slice => decide (slice < Config.slices)
  | .lanternPortRead slice _ _ _ => decide (slice < Config.slices)
  | .lanternPortWrite slice _ _ _ => decide (slice < Config.slices)
  | .lanternPortPrefetch slice _ => decide (slice < Config.slices)
  | .lanternPortAdd slice _ _ _ => decide (slice < Config.slices)
  | .lanternPortAnd slice _ _ _ => decide (slice < Config.slices)
  | .lanternPortOr slice _ _ _ => decide (slice < Config.slices)
  | .lanternPortXor slice _ _ _ => decide (slice < Config.slices)
  | .lanternPortSwap slice _ _ _ => decide (slice < Config.slices)
  | .lanternPortReply slice _ _ => decide (slice < Config.slices)
  | .lanternPortRefused slice => decide (slice < Config.slices)
  | .lanternPortComplete slice _ => decide (slice < Config.slices)
  | .lanternDoneDefault slice => decide (slice < Config.slices)
  | .lanternDoneSubstitute slice => decide (slice < Config.slices)
  | .specFenceComplete _ split => decide (split < 16)
  | .copyCommandAccept cl => decide (cl < Config.clusters)
  | .copyCommandStart cl => decide (cl < Config.clusters)
  | .copyCommandComplete cl => decide (cl < Config.clusters)
  | .waittWake _ split => decide (split < 16)
  | .publishSwap cid region => decide (cid < 4096) && decide (region < 64)
  | .planeLoadStart core => decide (core < Config.cores)
  | .planeLoadEnd core => decide (core < Config.cores)
  | .streamPassStart core => decide (core < Config.cores)
  | .streamPassEnd core => decide (core < Config.cores)
  | .drainStart core => decide (core < Config.cores)
  | .drainEnd core => decide (core < Config.cores)
  | .mzeroEnd core => decide (core < Config.cores)
  | .mshadowEnd core => decide (core < Config.cores)
  | .sequencerEndComplete core which => decide (core < Config.cores) && decide (which < 2)
  | .faultRecordWrite cid => decide (cid < 4096)
  | .fqresRetry cid _ => decide (cid < 4096)
  | .fqresUnresolvable cid _ => decide (cid < 4096)
  | .eccUncorrectable _ => true
  | .narrowing part _ _ => decide (part < 64)
  | .crewSaveComplete _ => true
  | .crewRestore _ core => decide (core < Config.cores)
  | .imageSwitch _ => true
  | .launchRecordDispatch queue => decide (queue < Config.queues)
  | .launchEnd _ => true
  | .doorbell queue _ => decide (queue < Config.queues)
  | .qctlStallClear queue => decide (queue < Config.queues)
  | .evheadWrite part _ => decide (part < 64)
  | .fqbaseWrite part _ => decide (part < 64)
  | .invlen part _ => decide (part < 64)
  | .invalidationComplete cid _ _ => decide (cid < 4096)
  | .registerWrite reg _ => (match reg with | .owner part die => decide (part < 63) && decide (die < Config.dies) | _ => true)
  | .newctx part => decide (part < 64)
  | .endctx part cid => decide (part < 64) && decide (cid < 4096)
  | .mapframe part cid _ _ _ _ => decide (part < 64) && decide (cid < 4096)
  | .setwindow part ctrl win _ => decide (part < 64) && decide (ctrl < 8) && decide (win < 16)
  | .biasflip part cid _ _ => decide (part < 64) && decide (cid < 4096)
  | .biasFlipComplete cid _ _ => decide (cid < 4096)
  | .lantern part cid _ _ _ _ => decide (part < 64) && decide (cid < 4096)
  | .image part cid _ => decide (part < 64) && decide (cid < 4096)
  | .assignq part queue => decide (part < 64) && decide (queue < Config.queues)
  | .setcache part _ => decide (part < 64)
  | .setreserve part _ => decide (part < 64)
  | .stash part _ => decide (part < 64)
  | .groups part cid _ => decide (part < 64) && decide (cid < 4096)
  | .swap part _ => decide (part < 64)
  | .clearctx part cid => decide (part < 64) && decide (cid < 4096)
  | .span part _ => decide (part < 64)
  | .checkpoint part cid region _ _ => decide (part < 64) && decide (cid < 4096) && (decide (region < 64) || decide (region = 0xFFFFFFFF))
  | .mirror part _ cid _ _ => decide (part < 64) && decide (cid < 4096)
  | .requestRefused part _ => decide (part < 64)
  | .krazuFlitReceive port _ => decide (port < Config.ports)
  | .krazuAckTimeout port => decide (port < Config.ports)
  | .krazuRetrainComplete port _ => decide (port < Config.ports)
  | .krazuHeartbeatTimeout device => decide (device < 32768)
  | .getVersion => true
  | .getCapabilities => true
  | .negotiateAlgorithms => true
  | .getDigests => true
  | .getCertificate _ => true
  | .challenge _ _ => true
  | .getMeasurements _ _ => true
  | .perstDeassert _ => true
  | .configRetryEnd => true
  | .recgo _ => true
  | .powerSample _ => true
  | .tempSample _ _ _ => true
  | .droopDetect cl _ => decide (cl < Config.clusters)
  | .processMonitorSample cl _ => decide (cl < Config.clusters)
  | .perstAssert => true
  | .partitionReset part => decide (part < 64)
  | .evlogWrite part _ _ => decide (part < 64)
  | .lanternHandlerException slice => decide (slice < Config.slices)

end Sys2Proof
end

