-- ==== Sys2Proof/Decode.lean ====
section
/-! DEFINITION. From bits to instructions and back (R32 to R45). The decoder reads the word's fields
as natural numbers, once; a word that is not an instruction is rejected by the name of the check it
fails, with that check's step of R45 and whether the word is one the guard governs (R46). After the
decoder stands the encoder, from the same tables. -/

namespace Sys2Proof

/-- Why a word is not an instruction: steps 1 to 3 of R45. -/
inductive DecodeError where
  | reservedMajor
  | unassignedFn
  | badCondition
  | badSelector
  | illegalPair
  | destinationP0
  | offGrid
  | mustBeZero
deriving DecidableEq, Repr

/-- The step of R45 that the error fails. -/
def DecodeError.check : DecodeError → Nat
  | .reservedMajor => 1
  | .mustBeZero => 3
  | _ => 2

/-- A rejected word: why, and whether only guarded lanes raise it (R46). -/
structure Reject where
  why     : DecodeError
  guarded : Bool
deriving DecidableEq, Repr

/-- A decoded word. -/
abbrev Decoded := Except Reject Instr

/-- Reject for `why` unless `ok`. -/
def need (ok : Bool) (why : DecodeError) (guarded : Bool) (k : Decoded) : Decoded :=
  if ok then k else .error ⟨why, guarded⟩

/-- Reject for a must-be-zero field. -/
def zero (field : Nat) (guarded : Bool) (k : Decoded) : Decoded :=
  need (field == 0) .mustBeZero guarded k

/-- A register field that names a vector register (R34). -/
def fieldIsVector (field : Nat) : Bool := decide (field < 0xC0)

/-- The FN codes of UNARY (R42). DESIGN CHOICE (log 85): an FN code that no member has is raised unguarded, here and in
TERMF and CHF, although the members are guarded. -/
def decodeUnary (m : BitVec 1) (d a : BitVec 8) (fn : Nat) : Decoded :=
  match fn with
  | 0 => .ok (.mov m d a)
  | 1 => .ok (.not m d a)
  | 2 => .ok (.neg m d a)
  | 3 => .ok (.abs m d a)
  | 4 => .ok (.popc m d a)
  | 5 => .ok (.clz m d a)
  | 6 => .ok (.ctz m d a)
  | 7 => .ok (.brev m d a)
  | 8 => .ok (.frc m d a)
  | 9 => .ok (.rint m d a)
  | 16 => .ok (.rcp m d a)
  | 17 => .ok (.rsq m d a)
  | 18 => .ok (.sqrt m d a)
  | 19 => .ok (.exp2 m d a)
  | 20 => .ok (.log2 m d a)
  | 21 => .ok (.sinp m d a)
  | 22 => .ok (.cosp m d a)
  | 23 => .ok (.tanh m d a)
  | _ => .error ⟨.unassignedFn, false⟩

/-- The FN codes of SYSF (R42), with the selector of SETMODER (R82). -/
def decodeSystem (m : BitVec 1) (d a fn : Nat) : Decoded :=
  let d8 : BitVec 8 := BitVec.ofNat 8 d
  let a8 : BitVec 8 := BitVec.ofNat 8 a
  match fn with
  | 0 => zero d false (zero a false (.ok (.nop m)))
  | 1 => zero d false (zero a false (.ok (.endI m)))
  | 2 => zero a false (.ok (.sys m d8))
  | 3 => zero d false (zero a false (.ok (.tret m)))
  | 4 => .ok (.rdsr m d8 a8)
  | 5 => .ok (.wrsr m d8 a8)
  | 6 => zero a false (.ok (.getcyc m d8))
  | 7 => zero d false (zero a false (.ok (.icinv m)))
  | 8 => zero d true (zero a true (.ok (.exit m)))
  | 9 => zero d false (zero a false (.ok (.ret m)))
  | 10 => need (decide (d ≤ 2)) .badSelector false (.ok (.setmoder m d8 a8))
  | 11 => zero a (fieldIsVector d) (.ok (.getmode m d8))
  | 12 => zero d false (.ok (.waitt m a8))
  | 13 => zero a false (.ok (.brk m d8))
  | _ => .error ⟨.unassignedFn, false⟩

/-- The FN codes of XL (R42). -/
def decodeXl (m : BitVec 1) (d a fn : Nat) : Decoded :=
  let d8 : BitVec 8 := BitVec.ofNat 8 d
  let a8 : BitVec 8 := BitVec.ofNat 8 a
  if fn < 0x40 then .ok (.shflup m d8 a8 (BitVec.ofNat 6 fn))
  else if fn < 0x80 then .ok (.shfldn m d8 a8 (BitVec.ofNat 6 (fn - 0x40)))
  else match fn with
  | 0x80 => need (d % 8 != 0) .destinationP0 false (zero (d / 8) false (zero a false
      (.ok (.voteall m (BitVec.ofNat 3 d)))))
  | 0x81 => need (d % 8 != 0) .destinationP0 false (zero (d / 8) false (zero a false
      (.ok (.voteany m (BitVec.ofNat 3 d)))))
  | 0x82 => zero a false (.ok (.ballot m d8))
  | 0x83 => .ok (.mbcnt m d8 a8)
  | 0x84 => .ok (.firstlane m d8 a8)
  | _ => .error ⟨.unassignedFn, false⟩

/-- The FN codes of TERMF (R42). -/
def decodeTerm (m : BitVec 1) (d a fn : Nat) : Decoded :=
  let d8 : BitVec 8 := BitVec.ofNat 8 d
  let a8 : BitVec 8 := BitVec.ofNat 8 a
  match fn with
  | 0x00 => .ok (.tagof m d8 a8)
  | 0x01 => .ok (.payld m d8 a8)
  | 0x10 => .ok (.deref m d8 a8)
  | 0x11 => zero a true (.ok (.getcp m d8))
  | 0x12 => zero a true (.ok (.gettr m d8))
  | _ => need (decide (8 ≤ fn) && decide (fn < 16)) .unassignedFn false
      (.ok (.mkterm m d8 a8 (BitVec.ofNat 3 (fn - 8))))

/-- BARF, DQ, CHF, FIFO, CACHE and TILE (R42, R43). -/
def decodeSmall (major : Nat) (m : BitVec 1) (d a fn : Nat) : Decoded :=
  let d8 : BitVec 8 := BitVec.ofNat 8 d
  let a8 : BitVec 8 := BitVec.ofNat 8 a
  match major, fn with
  | 0x2F, 0 => zero d false (.ok (.dqpush m a8))
  | 0x2F, 1 => zero a false (.ok (.dqpop m d8))
  | 0x2F, 2 => zero a false (.ok (.dqpeek m d8))
  | 0x3B, 0 => zero d true (zero a true (.ok (.fail m)))
  | 0x3B, 1 => zero d true (.ok (.cut m a8))
  | 0x3B, 2 => .ok (.hnew m d8 a8)
  | 0x3B, 3 => zero a true (.ok (.newvar m d8))
  | 0x51, 0 => .ok (.fpush m d8 a8)
  | 0x51, 1 => .ok (.fpop m d8 a8)
  | 0x51, 2 => .ok (.ftrypop m d8 a8)
  | 0x5E, 0 => .ok (.cwb m d8 a8)
  | 0x5E, 1 => .ok (.cinv m d8 a8)
  | 0x5E, 2 => .ok (.cflush m d8 a8)
  | 0x5E, 3 => zero d (fieldIsVector a) (.ok (.pref m a8))
  | 0x5E, 4 => .ok (.pin m d8 a8)
  | 0x5E, 5 => zero d false (.ok (.unpin m a8))
  | 0x63, 0 => .ok (.topen m d8 a8)
  | 0x63, 1 => zero d false (.ok (.tclose m a8))
  | 0x63, 2 => zero d false (.ok (.tacqr m a8))
  | 0x63, 3 => zero d false (.ok (.tacqw m a8))
  | 0x63, 4 => zero d false (.ok (.trel m a8))
  | 0x63, 5 => .ok (.tquery m d8 a8)
  | _, _ => .error ⟨.unassignedFn, false⟩

/-- BAR, BARA, BARW by FN (R43). -/
def decodeBarrier (m : BitVec 1) (d a fn : Nat) : Decoded :=
  let k : BitVec 2 := BitVec.ofNat 2 fn
  need (decide (fn < 12)) .unassignedFn false (zero d false (zero a false
    (if fn < 4 then .ok (.bar m k) else if fn < 8 then .ok (.bara m k) else .ok (.barw m k))))

/-- The FC words: the BANK family and LMSG (R33, R38, R42). -/
def decodeGrid (major : Nat) (m : BitVec 1) (w : Nat) : Decoded :=
  let a8 : BitVec 8 := BitVec.ofNat 8 (w / 0x10000)
  let row := w / 0x1000 % 16
  let col := w / 0x80 % 32
  let r4 : BitVec 4 := BitVec.ofNat 4 row
  let c5 : BitVec 5 := BitVec.ofNat 5 col
  let fn := w % 0x80
  if major == 0x61 then
    need (decide (row ≤ 7) && decide (col ≤ 15)) .offGrid false (zero fn false (.ok (.lmsg m a8 r4 c5)))
  else match fn with
    | 0 => need (decide (row ≤ 7) && decide (col ≤ 7)) .offGrid false (.ok (.bankmode m a8 r4 c5))
    | 1 => need (decide (row ≤ 7) && decide (col ≤ 7)) .offGrid false (.ok (.bankpwr m a8 r4 c5))
    | 2 => need (decide (row ≤ 7) && decide (col ≤ 7)) .offGrid false (.ok (.bankq m a8 r4 c5))
    | _ => .error ⟨.unassignedFn, false⟩

/-- The remaining F2 and F3 words with fixed fields, and CMP, PRED, CVT (R35, R43, R126). -/
def decodeFixed (major : Nat) (m : BitVec 1) (d a b : Nat) : Decoded :=
  let d8 : BitVec 8 := BitVec.ofNat 8 d
  let a8 : BitVec 8 := BitVec.ofNat 8 a
  let b8 : BitVec 8 := BitVec.ofNat 8 b
  match major with
  | 0x15 => need (d % 8 != 0) .destinationP0 true (zero (d / 8 % 4) true
      (.ok (.cmp m (BitVec.ofNat 3 (d / 32)) (BitVec.ofNat 3 d) a8 b8)))
  | 0x16 => need (d % 8 != 0) .destinationP0 true (zero (d / 8 % 8) true (zero (a / 8 % 16) true
      (zero (b / 8 % 16) true
      (.ok (.pred m (BitVec.ofNat 2 (d / 64)) (BitVec.ofNat 3 d) (BitVec.ofNat 1 (a / 128))
        (BitVec.ofNat 3 a) (BitVec.ofNat 1 (b / 128)) (BitVec.ofNat 3 b))))))
  | 0x19 => need (cvtLegal (b / 16) (b % 16)) .illegalPair (fieldIsVector d)
      (.ok (.cvt m d8 a8 (BitVec.ofNat 4 (b / 16)) (BitVec.ofNat 4 b)))
  | 0x26 => zero b false (.ok (.jmpr m d8 a8))
  | 0x2C => need (decide (b ≤ 1)) .unassignedFn false (.ok (.rsum m d8 a8 (BitVec.ofNat 1 b)))
  | 0x2D => need (decide (b ≤ 1)) .unassignedFn false (.ok (.scans m d8 a8 (BitVec.ofNat 1 b)))
  | 0x30 => zero d (fieldIsVector a || fieldIsVector b) (.ok (.spawn m a8 b8))
  | 0x31 => need (b == 0) .unassignedFn (fieldIsVector a) (zero d (fieldIsVector a) (.ok (.tdone m a8)))
  | 0x32 => need (b == 0) .unassignedFn true (.ok (.qpop m d8 a8))
  | 0x33 => need (b == 0) .unassignedFn false (zero d false (.ok (.setgang m a8)))
  | 0x34 => need (b == 0) .unassignedFn true (.ok (.adoptq m d8 a8))
  | 0x35 => need (b == 0) .unassignedFn true (zero a true (.ok (.offer m d8)))
  | 0x36 => zero d true (.ok (.vwin m a8 b8))
  | 0x5C => need (decide (b < 8) && decide (b % 4 ≠ 3)) .unassignedFn false (zero d false (zero a false
      (.ok (.fence m (BitVec.ofNat 1 (b / 4)) (BitVec.ofNat 2 b)))))
  | 0x5D => need (decide (1 ≤ b) && decide (b < 128)) .unassignedFn false (zero d false (zero a false
      (.ok (.pfence m (BitVec.ofNat 7 b)))))
  | 0x6C => need (decide (1 ≤ b) && decide (b < 4)) .unassignedFn false (zero a false
      (.ok (.rdv m d8 (BitVec.ofNat 2 b))))
  | 0x6D => need (b == 0) .unassignedFn false (zero d false (.ok (.publish m a8)))
  | 0x70 => zero d false (.ok (.mlds m a8 b8))
  | 0x71 => need (decide (b < 4)) .unassignedFn false (zero d false (zero a false
      (.ok (.mones m (BitVec.ofNat 2 b)))))
  | 0x72 => need (b == 0) .unassignedFn false (zero d false (zero a false (.ok (.mswap m))))
  | 0x75 => need (b == 0) .unassignedFn false (zero d false (.ok (.mzero m a8)))
  | 0x76 => need (decide (b < 2)) .unassignedFn false (zero d false (zero a false
      (.ok (.mshadow m (BitVec.ofNat 1 b)))))
  | _ => .error ⟨.reservedMajor, false⟩

/-- FI, FJ and FL words (R36, R37, R40). DESIGN CHOICE (log 85): a C of CALL or CHOICE that is not zero fails as a field
that must be zero, at step 3 of R45, and not as a field of R36, at step 2. -/
def decodeImmediate (major : Nat) (m : BitVec 1) (w : Nat) : Decoded :=
  let d := w / 0x10000 % 0x100
  let d8 : BitVec 8 := BitVec.ofNat 8 d
  let i16 : BitVec 16 := BitVec.ofNat 16 w
  let c := w / 0x100000 % 16
  let c4 : BitVec 4 := BitVec.ofNat 4 c
  let off := w % 0x100000
  let o20 : BitVec 20 := BitVec.ofNat 20 off
  match major with
  | 0x1A => .ok (.li m d8 i16)
  | 0x1B => .ok (.lih m d8 i16)
  | 0x1C => need (setmodeLegal d (w % 0x10000)) .badSelector false (.ok (.setmode m d8 i16))
  | 0x20 => need (decide (c ≤ 3)) .badCondition false (.ok (.br m c4 o20))
  | 0x21 => zero c false (.ok (.call m o20))
  | 0x22 => .ok (.brd m c4 o20)
  | 0x23 => zero off false (.ok (.join m c4))
  | 0x24 => zero (w % 0x100) false (.ok (.loop m d8 (BitVec.ofNat 8 (w / 0x100))))
  | 0x25 => zero c true (.ok (.choice m o20))
  | 0x62 => zero d false (zero (w / 4 % 64) false
      (.ok (.bwphase m (BitVec.ofNat 8 (w / 0x100)) (BitVec.ofNat 2 w))))
  | _ => .error ⟨.reservedMajor, false⟩

/-- F3 and FMEM words whose three fields are all operands (R33, R41). -/
def decodeThree (major : Nat) (m : BitVec 1) (d a b : BitVec 8) : Option Instr :=
  match major with
  | 0x01 => some (.add m d a b)
  | 0x02 => some (.sub m d a b)
  | 0x03 => some (.mul m d a b)
  | 0x04 => some (.mulh m d a b)
  | 0x05 => some (.fma m d a b)
  | 0x06 => some (.div m d a b)
  | 0x07 => some (.rem m d a b)
  | 0x08 => some (.min m d a b)
  | 0x09 => some (.max m d a b)
  | 0x0A => some (.and m d a b)
  | 0x0B => some (.or m d a b)
  | 0x0C => some (.xor m d a b)
  | 0x0D => some (.andn m d a b)
  | 0x0E => some (.shl m d a b)
  | 0x0F => some (.shr m d a b)
  | 0x10 => some (.sra m d a b)
  | 0x11 => some (.bfx m d a b)
  | 0x12 => some (.bfi m d a b)
  | 0x13 => some (.permb m d a b)
  | 0x14 => some (.sel m d a b)
  | 0x17 => some (.addx m d a b)
  | 0x29 => some (.shfl m d a b)
  | 0x2A => some (.shflx m d a b)
  | 0x39 => some (.unify m d a b)
  | 0x3A => some (.bind m d a b)
  | 0x40 => some (.ldb m d a b)
  | 0x41 => some (.ldh m d a b)
  | 0x42 => some (.ldw m d a b)
  | 0x43 => some (.ldd m d a b)
  | 0x44 => some (.ldq m d a b)
  | 0x45 => some (.stb m d a b)
  | 0x46 => some (.sth m d a b)
  | 0x47 => some (.stw m d a b)
  | 0x48 => some (.std m d a b)
  | 0x49 => some (.stq m d a b)
  | 0x4A => some (.lda m d a b)
  | 0x4B => some (.ldad m d a b)
  | 0x4C => some (.stl m d a b)
  | 0x4D => some (.stld m d a b)
  | 0x4E => some (.ldc m d a b)
  | 0x4F => some (.lds m d a b)
  | 0x50 => some (.sts m d a b)
  | 0x52 => some (.atadd m d a b)
  | 0x53 => some (.atmin m d a b)
  | 0x54 => some (.atmax m d a b)
  | 0x55 => some (.atand m d a b)
  | 0x56 => some (.ator m d a b)
  | 0x57 => some (.atxor m d a b)
  | 0x58 => some (.atswp m d a b)
  | 0x59 => some (.atcas m d a b)
  | 0x5A => some (.atfadd m d a b)
  | 0x5B => some (.atinc m d a b)
  | 0x5F => some (.sample m d a b)
  | 0x64 => some (.tsplit m d a b)
  | 0x65 => some (.tld m d a b)
  | 0x66 => some (.tst m d a b)
  | 0x68 => some (.copy m d a b)
  | 0x69 => some (.copyg m d a b)
  | 0x6A => some (.collect m d a b)
  | 0x6B => some (.fork m d a b)
  | 0x73 => some (.mstream m d a b)
  | 0x74 => some (.mdrain m d a b)
  | _ => none

/-- The instruction of a word from its marker, its major opcode and its three lower bytes (R32). -/
def decodeFields (m : BitVec 1) (major d a b w : Nat) : Decoded :=
  match decodeThree major m (BitVec.ofNat 8 d) (BitVec.ofNat 8 a) (BitVec.ofNat 8 b) with
  | some i => .ok i
  | none =>
    match major with
    | 0x18 => decodeUnary m (BitVec.ofNat 8 d) (BitVec.ofNat 8 a) b
    | 0x28 => decodeSystem m d a b
    | 0x2B => decodeXl m d a b
    | 0x2E => decodeBarrier m d a b
    | 0x38 => decodeTerm m d a b
    | 0x2F | 0x3B | 0x51 | 0x5E | 0x63 => decodeSmall major m d a b
    | 0x60 | 0x61 => decodeGrid major m w
    | 0x1A | 0x1B | 0x1C | 0x20 | 0x21 | 0x22 | 0x23 | 0x24 | 0x25 | 0x62 => decodeImmediate major m w
    | _ => decodeFixed major m d a b

/-- The instruction of a word, or why it is none. Total on every natural number below 2^32. -/
def decodeWord (w : Nat) : Decoded :=
  decodeFields (BitVec.ofNat 1 (w / 0x80000000)) (w / 0x1000000 % 0x80) (w / 0x10000 % 0x100) (w / 0x100 % 0x100) (w % 0x100) w

/-- Little-endian value of a list of bytes (R6). -/
def leNat : List Byte → Nat
  | [] => 0
  | x :: xs => x.toNat + 256 * leNat xs

/-- The `n` little-endian bytes of a number (R6). -/
def leBytes : Nat → Nat → List Byte
  | 0, _ => []
  | n + 1, x => BitVec.ofNat 8 x :: leBytes n (x / 256)

/-- Decode the instruction at the head of a list of bytes (R32: little-endian words of 4 bytes), with
the bytes after it; none when fewer than four bytes are left. -/
def decodeBytes : List Byte → Option (Decoded × List Byte)
  | b0 :: b1 :: b2 :: b3 :: rest => some (decodeWord (leNat [b0, b1, b2, b3]), rest)
  | _ => none

/-- What the decoder reads from an instruction whose bits are `w`, numbered as the opcode table
numbers them: every instruction is one 32-bit word (R32). -/
def decodeTableWord (nbits w : Nat) : Option Instr :=
  match decodeBytes (leBytes 4 (w % 2 ^ nbits)) with
  | some (.ok i, _) => some i
  | _ => none

/-- A word from its fixed part and its fields, each with the place of its lowest bit. -/
def packFields (fixed : Nat) : List (Nat × Nat) → Nat
  | [] => fixed
  | (lo, v) :: fs => v * 2 ^ lo + packFields fixed fs

/-- The word of an instruction (R33 to R43); none for an event, which no word encodes. -/
def encode : Instr → Option Nat
  | .add m d a b => some (packFields 0x01000000 [(31, m.toNat), (16, d.toNat), (8, a.toNat), (0, b.toNat)])
  | .sub m d a b => some (packFields 0x02000000 [(31, m.toNat), (16, d.toNat), (8, a.toNat), (0, b.toNat)])
  | .mul m d a b => some (packFields 0x03000000 [(31, m.toNat), (16, d.toNat), (8, a.toNat), (0, b.toNat)])
  | .mulh m d a b => some (packFields 0x04000000 [(31, m.toNat), (16, d.toNat), (8, a.toNat), (0, b.toNat)])
  | .fma m d a b => some (packFields 0x05000000 [(31, m.toNat), (16, d.toNat), (8, a.toNat), (0, b.toNat)])
  | .div m d a b => some (packFields 0x06000000 [(31, m.toNat), (16, d.toNat), (8, a.toNat), (0, b.toNat)])
  | .rem m d a b => some (packFields 0x07000000 [(31, m.toNat), (16, d.toNat), (8, a.toNat), (0, b.toNat)])
  | .min m d a b => some (packFields 0x08000000 [(31, m.toNat), (16, d.toNat), (8, a.toNat), (0, b.toNat)])
  | .max m d a b => some (packFields 0x09000000 [(31, m.toNat), (16, d.toNat), (8, a.toNat), (0, b.toNat)])
  | .and m d a b => some (packFields 0x0A000000 [(31, m.toNat), (16, d.toNat), (8, a.toNat), (0, b.toNat)])
  | .or m d a b => some (packFields 0x0B000000 [(31, m.toNat), (16, d.toNat), (8, a.toNat), (0, b.toNat)])
  | .xor m d a b => some (packFields 0x0C000000 [(31, m.toNat), (16, d.toNat), (8, a.toNat), (0, b.toNat)])
  | .andn m d a b => some (packFields 0x0D000000 [(31, m.toNat), (16, d.toNat), (8, a.toNat), (0, b.toNat)])
  | .shl m d a b => some (packFields 0x0E000000 [(31, m.toNat), (16, d.toNat), (8, a.toNat), (0, b.toNat)])
  | .shr m d a b => some (packFields 0x0F000000 [(31, m.toNat), (16, d.toNat), (8, a.toNat), (0, b.toNat)])
  | .sra m d a b => some (packFields 0x10000000 [(31, m.toNat), (16, d.toNat), (8, a.toNat), (0, b.toNat)])
  | .bfx m d a b => some (packFields 0x11000000 [(31, m.toNat), (16, d.toNat), (8, a.toNat), (0, b.toNat)])
  | .bfi m d a b => some (packFields 0x12000000 [(31, m.toNat), (16, d.toNat), (8, a.toNat), (0, b.toNat)])
  | .permb m d a b => some (packFields 0x13000000 [(31, m.toNat), (16, d.toNat), (8, a.toNat), (0, b.toNat)])
  | .sel m d a b => some (packFields 0x14000000 [(31, m.toNat), (16, d.toNat), (8, a.toNat), (0, b.toNat)])
  | .cmp m c p a b => some (packFields 0x15000000 [(31, m.toNat), (21, c.toNat), (16, p.toNat), (8, a.toNat), (0, b.toNat)])
  | .pred m o d i a j b => some (packFields 0x16000000 [(31, m.toNat), (22, o.toNat), (16, d.toNat), (15, i.toNat), (8, a.toNat), (7, j.toNat), (0, b.toNat)])
  | .addx m d a b => some (packFields 0x17000000 [(31, m.toNat), (16, d.toNat), (8, a.toNat), (0, b.toNat)])
  | .mov m d a => some (packFields 0x18000000 [(31, m.toNat), (16, d.toNat), (8, a.toNat)])
  | .not m d a => some (packFields 0x18000001 [(31, m.toNat), (16, d.toNat), (8, a.toNat)])
  | .neg m d a => some (packFields 0x18000002 [(31, m.toNat), (16, d.toNat), (8, a.toNat)])
  | .abs m d a => some (packFields 0x18000003 [(31, m.toNat), (16, d.toNat), (8, a.toNat)])
  | .popc m d a => some (packFields 0x18000004 [(31, m.toNat), (16, d.toNat), (8, a.toNat)])
  | .clz m d a => some (packFields 0x18000005 [(31, m.toNat), (16, d.toNat), (8, a.toNat)])
  | .ctz m d a => some (packFields 0x18000006 [(31, m.toNat), (16, d.toNat), (8, a.toNat)])
  | .brev m d a => some (packFields 0x18000007 [(31, m.toNat), (16, d.toNat), (8, a.toNat)])
  | .frc m d a => some (packFields 0x18000008 [(31, m.toNat), (16, d.toNat), (8, a.toNat)])
  | .rint m d a => some (packFields 0x18000009 [(31, m.toNat), (16, d.toNat), (8, a.toNat)])
  | .rcp m d a => some (packFields 0x18000010 [(31, m.toNat), (16, d.toNat), (8, a.toNat)])
  | .rsq m d a => some (packFields 0x18000011 [(31, m.toNat), (16, d.toNat), (8, a.toNat)])
  | .sqrt m d a => some (packFields 0x18000012 [(31, m.toNat), (16, d.toNat), (8, a.toNat)])
  | .exp2 m d a => some (packFields 0x18000013 [(31, m.toNat), (16, d.toNat), (8, a.toNat)])
  | .log2 m d a => some (packFields 0x18000014 [(31, m.toNat), (16, d.toNat), (8, a.toNat)])
  | .sinp m d a => some (packFields 0x18000015 [(31, m.toNat), (16, d.toNat), (8, a.toNat)])
  | .cosp m d a => some (packFields 0x18000016 [(31, m.toNat), (16, d.toNat), (8, a.toNat)])
  | .tanh m d a => some (packFields 0x18000017 [(31, m.toNat), (16, d.toNat), (8, a.toNat)])
  | .cvt m d a f g => some (packFields 0x19000000 [(31, m.toNat), (16, d.toNat), (8, a.toNat), (4, f.toNat), (0, g.toNat)])
  | .li m d i => some (packFields 0x1A000000 [(31, m.toNat), (16, d.toNat), (0, i.toNat)])
  | .lih m d i => some (packFields 0x1B000000 [(31, m.toNat), (16, d.toNat), (0, i.toNat)])
  | .setmode m k i => some (packFields 0x1C000000 [(31, m.toNat), (16, k.toNat), (0, i.toNat)])
  | .br m c o => some (packFields 0x20000000 [(31, m.toNat), (20, c.toNat), (0, o.toNat)])
  | .call m o => some (packFields 0x21000000 [(31, m.toNat), (0, o.toNat)])
  | .brd m k o => some (packFields 0x22000000 [(31, m.toNat), (20, k.toNat), (0, o.toNat)])
  | .join m k => some (packFields 0x23000000 [(31, m.toNat), (20, k.toNat)])
  | .loop m a l => some (packFields 0x24000000 [(31, m.toNat), (16, a.toNat), (8, l.toNat)])
  | .choice m o => some (packFields 0x25000000 [(31, m.toNat), (0, o.toNat)])
  | .jmpr m d a => some (packFields 0x26000000 [(31, m.toNat), (16, d.toNat), (8, a.toNat)])
  | .nop m => some (packFields 0x28000000 [(31, m.toNat)])
  | .endI m => some (packFields 0x28000001 [(31, m.toNat)])
  | .sys m n => some (packFields 0x28000002 [(31, m.toNat), (16, n.toNat)])
  | .tret m => some (packFields 0x28000003 [(31, m.toNat)])
  | .rdsr m d a => some (packFields 0x28000004 [(31, m.toNat), (16, d.toNat), (8, a.toNat)])
  | .wrsr m d a => some (packFields 0x28000005 [(31, m.toNat), (16, d.toNat), (8, a.toNat)])
  | .getcyc m d => some (packFields 0x28000006 [(31, m.toNat), (16, d.toNat)])
  | .icinv m => some (packFields 0x28000007 [(31, m.toNat)])
  | .exit m => some (packFields 0x28000008 [(31, m.toNat)])
  | .ret m => some (packFields 0x28000009 [(31, m.toNat)])
  | .setmoder m k a => some (packFields 0x2800000A [(31, m.toNat), (16, k.toNat), (8, a.toNat)])
  | .getmode m d => some (packFields 0x2800000B [(31, m.toNat), (16, d.toNat)])
  | .waitt m a => some (packFields 0x2800000C [(31, m.toNat), (8, a.toNat)])
  | .brk m n => some (packFields 0x2800000D [(31, m.toNat), (16, n.toNat)])
  | .shfl m d a b => some (packFields 0x29000000 [(31, m.toNat), (16, d.toNat), (8, a.toNat), (0, b.toNat)])
  | .shflx m d a b => some (packFields 0x2A000000 [(31, m.toNat), (16, d.toNat), (8, a.toNat), (0, b.toNat)])
  | .shflup m d a n => some (packFields 0x2B000000 [(31, m.toNat), (16, d.toNat), (8, a.toNat), (0, n.toNat)])
  | .shfldn m d a n => some (packFields 0x2B000040 [(31, m.toNat), (16, d.toNat), (8, a.toNat), (0, n.toNat)])
  | .voteall m p => some (packFields 0x2B000080 [(31, m.toNat), (16, p.toNat)])
  | .voteany m p => some (packFields 0x2B000081 [(31, m.toNat), (16, p.toNat)])
  | .ballot m d => some (packFields 0x2B000082 [(31, m.toNat), (16, d.toNat)])
  | .mbcnt m d a => some (packFields 0x2B000083 [(31, m.toNat), (16, d.toNat), (8, a.toNat)])
  | .firstlane m d a => some (packFields 0x2B000084 [(31, m.toNat), (16, d.toNat), (8, a.toNat)])
  | .rsum m d a f => some (packFields 0x2C000000 [(31, m.toNat), (16, d.toNat), (8, a.toNat), (0, f.toNat)])
  | .scans m d a f => some (packFields 0x2D000000 [(31, m.toNat), (16, d.toNat), (8, a.toNat), (0, f.toNat)])
  | .bar m k => some (packFields 0x2E000000 [(31, m.toNat), (0, k.toNat)])
  | .bara m k => some (packFields 0x2E000004 [(31, m.toNat), (0, k.toNat)])
  | .barw m k => some (packFields 0x2E000008 [(31, m.toNat), (0, k.toNat)])
  | .dqpush m a => some (packFields 0x2F000000 [(31, m.toNat), (8, a.toNat)])
  | .dqpop m d => some (packFields 0x2F000001 [(31, m.toNat), (16, d.toNat)])
  | .dqpeek m d => some (packFields 0x2F000002 [(31, m.toNat), (16, d.toNat)])
  | .spawn m a b => some (packFields 0x30000000 [(31, m.toNat), (8, a.toNat), (0, b.toNat)])
  | .tdone m a => some (packFields 0x31000000 [(31, m.toNat), (8, a.toNat)])
  | .qpop m d a => some (packFields 0x32000000 [(31, m.toNat), (16, d.toNat), (8, a.toNat)])
  | .setgang m a => some (packFields 0x33000000 [(31, m.toNat), (8, a.toNat)])
  | .adoptq m d a => some (packFields 0x34000000 [(31, m.toNat), (16, d.toNat), (8, a.toNat)])
  | .offer m d => some (packFields 0x35000000 [(31, m.toNat), (16, d.toNat)])
  | .vwin m a b => some (packFields 0x36000000 [(31, m.toNat), (8, a.toNat), (0, b.toNat)])
  | .tagof m d a => some (packFields 0x38000000 [(31, m.toNat), (16, d.toNat), (8, a.toNat)])
  | .payld m d a => some (packFields 0x38000001 [(31, m.toNat), (16, d.toNat), (8, a.toNat)])
  | .mkterm m d a t => some (packFields 0x38000008 [(31, m.toNat), (16, d.toNat), (8, a.toNat), (0, t.toNat)])
  | .deref m d a => some (packFields 0x38000010 [(31, m.toNat), (16, d.toNat), (8, a.toNat)])
  | .getcp m d => some (packFields 0x38000011 [(31, m.toNat), (16, d.toNat)])
  | .gettr m d => some (packFields 0x38000012 [(31, m.toNat), (16, d.toNat)])
  | .unify m d a b => some (packFields 0x39000000 [(31, m.toNat), (16, d.toNat), (8, a.toNat), (0, b.toNat)])
  | .bind m d a b => some (packFields 0x3A000000 [(31, m.toNat), (16, d.toNat), (8, a.toNat), (0, b.toNat)])
  | .fail m => some (packFields 0x3B000000 [(31, m.toNat)])
  | .cut m a => some (packFields 0x3B000001 [(31, m.toNat), (8, a.toNat)])
  | .hnew m d a => some (packFields 0x3B000002 [(31, m.toNat), (16, d.toNat), (8, a.toNat)])
  | .newvar m d => some (packFields 0x3B000003 [(31, m.toNat), (16, d.toNat)])
  | .ldb m d a o => some (packFields 0x40000000 [(31, m.toNat), (16, d.toNat), (8, a.toNat), (0, o.toNat)])
  | .ldh m d a o => some (packFields 0x41000000 [(31, m.toNat), (16, d.toNat), (8, a.toNat), (0, o.toNat)])
  | .ldw m d a o => some (packFields 0x42000000 [(31, m.toNat), (16, d.toNat), (8, a.toNat), (0, o.toNat)])
  | .ldd m d a o => some (packFields 0x43000000 [(31, m.toNat), (16, d.toNat), (8, a.toNat), (0, o.toNat)])
  | .ldq m d a o => some (packFields 0x44000000 [(31, m.toNat), (16, d.toNat), (8, a.toNat), (0, o.toNat)])
  | .stb m d a o => some (packFields 0x45000000 [(31, m.toNat), (16, d.toNat), (8, a.toNat), (0, o.toNat)])
  | .sth m d a o => some (packFields 0x46000000 [(31, m.toNat), (16, d.toNat), (8, a.toNat), (0, o.toNat)])
  | .stw m d a o => some (packFields 0x47000000 [(31, m.toNat), (16, d.toNat), (8, a.toNat), (0, o.toNat)])
  | .std m d a o => some (packFields 0x48000000 [(31, m.toNat), (16, d.toNat), (8, a.toNat), (0, o.toNat)])
  | .stq m d a o => some (packFields 0x49000000 [(31, m.toNat), (16, d.toNat), (8, a.toNat), (0, o.toNat)])
  | .lda m d a o => some (packFields 0x4A000000 [(31, m.toNat), (16, d.toNat), (8, a.toNat), (0, o.toNat)])
  | .ldad m d a o => some (packFields 0x4B000000 [(31, m.toNat), (16, d.toNat), (8, a.toNat), (0, o.toNat)])
  | .stl m d a o => some (packFields 0x4C000000 [(31, m.toNat), (16, d.toNat), (8, a.toNat), (0, o.toNat)])
  | .stld m d a o => some (packFields 0x4D000000 [(31, m.toNat), (16, d.toNat), (8, a.toNat), (0, o.toNat)])
  | .ldc m d a o => some (packFields 0x4E000000 [(31, m.toNat), (16, d.toNat), (8, a.toNat), (0, o.toNat)])
  | .lds m d a o => some (packFields 0x4F000000 [(31, m.toNat), (16, d.toNat), (8, a.toNat), (0, o.toNat)])
  | .sts m d a o => some (packFields 0x50000000 [(31, m.toNat), (16, d.toNat), (8, a.toNat), (0, o.toNat)])
  | .fpush m d a => some (packFields 0x51000000 [(31, m.toNat), (16, d.toNat), (8, a.toNat)])
  | .fpop m d a => some (packFields 0x51000001 [(31, m.toNat), (16, d.toNat), (8, a.toNat)])
  | .ftrypop m d a => some (packFields 0x51000002 [(31, m.toNat), (16, d.toNat), (8, a.toNat)])
  | .atadd m d a b => some (packFields 0x52000000 [(31, m.toNat), (16, d.toNat), (8, a.toNat), (0, b.toNat)])
  | .atmin m d a b => some (packFields 0x53000000 [(31, m.toNat), (16, d.toNat), (8, a.toNat), (0, b.toNat)])
  | .atmax m d a b => some (packFields 0x54000000 [(31, m.toNat), (16, d.toNat), (8, a.toNat), (0, b.toNat)])
  | .atand m d a b => some (packFields 0x55000000 [(31, m.toNat), (16, d.toNat), (8, a.toNat), (0, b.toNat)])
  | .ator m d a b => some (packFields 0x56000000 [(31, m.toNat), (16, d.toNat), (8, a.toNat), (0, b.toNat)])
  | .atxor m d a b => some (packFields 0x57000000 [(31, m.toNat), (16, d.toNat), (8, a.toNat), (0, b.toNat)])
  | .atswp m d a b => some (packFields 0x58000000 [(31, m.toNat), (16, d.toNat), (8, a.toNat), (0, b.toNat)])
  | .atcas m d a b => some (packFields 0x59000000 [(31, m.toNat), (16, d.toNat), (8, a.toNat), (0, b.toNat)])
  | .atfadd m d a b => some (packFields 0x5A000000 [(31, m.toNat), (16, d.toNat), (8, a.toNat), (0, b.toNat)])
  | .atinc m d a b => some (packFields 0x5B000000 [(31, m.toNat), (16, d.toNat), (8, a.toNat), (0, b.toNat)])
  | .fence m p k => some (packFields 0x5C000000 [(31, m.toNat), (2, p.toNat), (0, k.toNat)])
  | .pfence m p => some (packFields 0x5D000000 [(31, m.toNat), (0, p.toNat)])
  | .cwb m d a => some (packFields 0x5E000000 [(31, m.toNat), (16, d.toNat), (8, a.toNat)])
  | .cinv m d a => some (packFields 0x5E000001 [(31, m.toNat), (16, d.toNat), (8, a.toNat)])
  | .cflush m d a => some (packFields 0x5E000002 [(31, m.toNat), (16, d.toNat), (8, a.toNat)])
  | .pref m a => some (packFields 0x5E000003 [(31, m.toNat), (8, a.toNat)])
  | .pin m d a => some (packFields 0x5E000004 [(31, m.toNat), (16, d.toNat), (8, a.toNat)])
  | .unpin m a => some (packFields 0x5E000005 [(31, m.toNat), (8, a.toNat)])
  | .sample m d a b => some (packFields 0x5F000000 [(31, m.toNat), (16, d.toNat), (8, a.toNat), (0, b.toNat)])
  | .bankmode m a r c => some (packFields 0x60000000 [(31, m.toNat), (16, a.toNat), (12, r.toNat), (7, c.toNat)])
  | .bankpwr m a r c => some (packFields 0x60000001 [(31, m.toNat), (16, a.toNat), (12, r.toNat), (7, c.toNat)])
  | .bankq m a r c => some (packFields 0x60000002 [(31, m.toNat), (16, a.toNat), (12, r.toNat), (7, c.toNat)])
  | .lmsg m a r c => some (packFields 0x61000000 [(31, m.toNat), (16, a.toNat), (12, r.toNat), (7, c.toNat)])
  | .bwphase m n h => some (packFields 0x62000000 [(31, m.toNat), (8, n.toNat), (0, h.toNat)])
  | .topen m d a => some (packFields 0x63000000 [(31, m.toNat), (16, d.toNat), (8, a.toNat)])
  | .tclose m a => some (packFields 0x63000001 [(31, m.toNat), (8, a.toNat)])
  | .tacqr m a => some (packFields 0x63000002 [(31, m.toNat), (8, a.toNat)])
  | .tacqw m a => some (packFields 0x63000003 [(31, m.toNat), (8, a.toNat)])
  | .trel m a => some (packFields 0x63000004 [(31, m.toNat), (8, a.toNat)])
  | .tquery m d a => some (packFields 0x63000005 [(31, m.toNat), (16, d.toNat), (8, a.toNat)])
  | .tsplit m d a b => some (packFields 0x64000000 [(31, m.toNat), (16, d.toNat), (8, a.toNat), (0, b.toNat)])
  | .tld m d a b => some (packFields 0x65000000 [(31, m.toNat), (16, d.toNat), (8, a.toNat), (0, b.toNat)])
  | .tst m d a b => some (packFields 0x66000000 [(31, m.toNat), (16, d.toNat), (8, a.toNat), (0, b.toNat)])
  | .copy m d a b => some (packFields 0x68000000 [(31, m.toNat), (16, d.toNat), (8, a.toNat), (0, b.toNat)])
  | .copyg m d a b => some (packFields 0x69000000 [(31, m.toNat), (16, d.toNat), (8, a.toNat), (0, b.toNat)])
  | .collect m d a b => some (packFields 0x6A000000 [(31, m.toNat), (16, d.toNat), (8, a.toNat), (0, b.toNat)])
  | .fork m d a b => some (packFields 0x6B000000 [(31, m.toNat), (16, d.toNat), (8, a.toNat), (0, b.toNat)])
  | .rdv m d f => some (packFields 0x6C000000 [(31, m.toNat), (16, d.toNat), (0, f.toNat)])
  | .publish m a => some (packFields 0x6D000000 [(31, m.toNat), (8, a.toNat)])
  | .mlds m a b => some (packFields 0x70000000 [(31, m.toNat), (8, a.toNat), (0, b.toNat)])
  | .mones m k => some (packFields 0x71000000 [(31, m.toNat), (0, k.toNat)])
  | .mswap m => some (packFields 0x72000000 [(31, m.toNat)])
  | .mstream m d a b => some (packFields 0x73000000 [(31, m.toNat), (16, d.toNat), (8, a.toNat), (0, b.toNat)])
  | .mdrain m d a b => some (packFields 0x74000000 [(31, m.toNat), (16, d.toNat), (8, a.toNat), (0, b.toNat)])
  | .mzero m a => some (packFields 0x75000000 [(31, m.toNat), (8, a.toNat)])
  | .mshadow m f => some (packFields 0x76000000 [(31, m.toNat), (0, f.toNat)])
  | .illegalInstruction _ _ => none
  | .crewStart _ _ => none
  | .shareStart _ _ => none
  | .barrierComplete _ _ => none
  | .waiterRelease _ _ => none
  | .bankRetentionEntry _ _ => none
  | .bankDeepOffEntry _ _ => none
  | .bankWakeComplete _ _ => none
  | .cacheBankPowerOff _ _ => none
  | .fifoWaiterRetry _ _ => none
  | .reqs _ _ _ => none
  | .reqm _ _ _ => none
  | .upg _ _ _ => none
  | .wb _ _ _ => none
  | .inv _ _ _ => none
  | .fwds _ _ _ _ => none
  | .fwdm _ _ _ _ => none
  | .recall _ _ _ => none
  | .data _ _ _ _ => none
  | .ack _ _ _ => none
  | .upgack _ _ _ => none
  | .wback _ _ _ => none
  | .alreadywb _ _ _ => none
  | .hostSnoop _ _ => none
  | .hostCxlMemRead _ _ => none
  | .hostCxlMemWrite _ _ => none
  | .pinFadeTick _ _ => none
  | .pinWindowFaded _ _ => none
  | .lanternHandlerStart _ => none
  | .lanternBudgetExpiry _ => none
  | .lanternPortRead _ _ _ _ => none
  | .lanternPortWrite _ _ _ _ => none
  | .lanternPortPrefetch _ _ => none
  | .lanternPortAdd _ _ _ _ => none
  | .lanternPortAnd _ _ _ _ => none
  | .lanternPortOr _ _ _ _ => none
  | .lanternPortXor _ _ _ _ => none
  | .lanternPortSwap _ _ _ _ => none
  | .lanternPortReply _ _ _ => none
  | .lanternPortRefused _ => none
  | .lanternPortComplete _ _ => none
  | .lanternDoneDefault _ => none
  | .lanternDoneSubstitute _ => none
  | .specFenceComplete _ _ => none
  | .copyCommandAccept _ => none
  | .copyCommandStart _ => none
  | .copyCommandComplete _ => none
  | .waittWake _ _ => none
  | .publishSwap _ _ => none
  | .planeLoadStart _ => none
  | .planeLoadEnd _ => none
  | .streamPassStart _ => none
  | .streamPassEnd _ => none
  | .drainStart _ => none
  | .drainEnd _ => none
  | .mzeroEnd _ => none
  | .mshadowEnd _ => none
  | .sequencerEndComplete _ _ => none
  | .faultRecordWrite _ => none
  | .fqresRetry _ _ => none
  | .fqresUnresolvable _ _ => none
  | .eccUncorrectable _ => none
  | .narrowing _ _ _ => none
  | .crewSaveComplete _ => none
  | .crewRestore _ _ => none
  | .imageSwitch _ => none
  | .launchRecordDispatch _ => none
  | .launchEnd _ => none
  | .doorbell _ _ => none
  | .qctlStallClear _ => none
  | .evheadWrite _ _ => none
  | .fqbaseWrite _ _ => none
  | .invlen _ _ => none
  | .invalidationComplete _ _ _ => none
  | .registerWrite _ _ => none
  | .newctx _ => none
  | .endctx _ _ => none
  | .mapframe _ _ _ _ _ _ => none
  | .setwindow _ _ _ _ => none
  | .biasflip _ _ _ _ => none
  | .biasFlipComplete _ _ _ => none
  | .lantern _ _ _ _ _ _ => none
  | .image _ _ _ => none
  | .assignq _ _ => none
  | .setcache _ _ => none
  | .setreserve _ _ => none
  | .stash _ _ => none
  | .groups _ _ _ => none
  | .swap _ _ => none
  | .clearctx _ _ => none
  | .span _ _ => none
  | .checkpoint _ _ _ _ _ => none
  | .mirror _ _ _ _ _ => none
  | .requestRefused _ _ => none
  | .krazuFlitReceive _ _ => none
  | .krazuAckTimeout _ => none
  | .krazuRetrainComplete _ _ => none
  | .krazuHeartbeatTimeout _ => none
  | .getVersion => none
  | .getCapabilities => none
  | .negotiateAlgorithms => none
  | .getDigests => none
  | .getCertificate _ => none
  | .challenge _ _ => none
  | .getMeasurements _ _ => none
  | .perstDeassert _ => none
  | .configRetryEnd => none
  | .recgo _ => none
  | .powerSample _ => none
  | .tempSample _ _ _ => none
  | .droopDetect _ _ => none
  | .processMonitorSample _ _ => none
  | .perstAssert => none
  | .partitionReset _ => none
  | .evlogWrite _ _ _ => none
  | .lanternHandlerException _ => none

end Sys2Proof
end

