-- ==== Sys2Proof/Machine/Sparse.lean ====
section
/-! DEFINITION. Sparse maps: lists of (key, value) with strictly rising keys. With a default value they
are total maps whose unlisted keys read as the default (memory, register files); without one they are
partial maps (tables of records). -/

namespace Sys2Proof

variable {α : Type}

/-- The value listed at a key, if any. -/
def Sparse.find? : Sparse α → Nat → Option α
  | [], _ => none
  | (k, v) :: m, i => if i = k then some v else if i < k then none else Sparse.find? m i

/-- List a value at a key, in order. -/
def Sparse.put : Sparse α → Nat → α → Sparse α
  | [], i, x => [(i, x)]
  | (k, v) :: m, i, x =>
    if i = k then (i, x) :: m
    else if i < k then (i, x) :: (k, v) :: m
    else (k, v) :: Sparse.put m i x

/-- Remove a key. -/
def Sparse.erase : Sparse α → Nat → Sparse α
  | [], _ => []
  | (k, v) :: m, i => if i = k then m else if i < k then (k, v) :: m else (k, v) :: Sparse.erase m i

/-- Read a total map whose unlisted keys hold `dflt`. -/
def Sparse.get (dflt : α) (m : Sparse α) (i : Nat) : α := (Sparse.find? m i).getD dflt

/-- Write a total map: a value equal to the default is not listed. -/
def Sparse.set [DecidableEq α] (dflt : α) (m : Sparse α) (i : Nat) (x : α) : Sparse α :=
  if x = dflt then Sparse.erase m i else Sparse.put m i x

/-- Change the record at a key, if it is listed. -/
def Sparse.alter (m : Sparse α) (i : Nat) (f : α → α) : Sparse α :=
  match Sparse.find? m i with
  | some v => Sparse.put m i (f v)
  | none => m

/-- Every listed key is above `lo`, and the keys rise. -/
def Sparse.sortedFrom : Nat → Sparse α → Bool
  | _, [] => true
  | lo, (k, _) :: m => decide (lo ≤ k) && Sparse.sortedFrom (k + 1) m

/-- The canonical form of a total map: strictly rising keys, and no entry that holds the default. -/
def Sparse.wf [DecidableEq α] (dflt : α) (m : Sparse α) : Bool :=
  Sparse.sortedFrom 0 m && m.all (fun kv => decide (kv.2 ≠ dflt))

/-- The listed entries with keys from `lo` to `lo + n - 1`, with keys counted from `lo`. -/
def Sparse.slice (m : Sparse α) (lo n : Nat) : Sparse α :=
  (m.filter (fun kv => decide (lo ≤ kv.1) && decide (kv.1 < lo + n))).map (fun kv => (kv.1 - lo, kv.2))

/-- The values. -/
def Sparse.values (m : Sparse α) : List α := m.map Prod.snd

/-- The lowest key of `lo`, `lo + 1`, … that is not listed, trying `fuel` keys. -/
def Sparse.freshKey (m : Sparse α) : Nat → Nat → Nat
  | 0, lo => lo
  | fuel + 1, lo => if (Sparse.find? m lo).isSome then Sparse.freshKey m fuel (lo + 1) else lo

/-- Write consecutive values from a key on. -/
def Sparse.setAll [DecidableEq α] (dflt : α) : Sparse α → Nat → List α → Sparse α
  | m, _, [] => m
  | m, i, x :: xs => Sparse.setAll dflt (Sparse.set dflt m i x) (i + 1) xs

/-- Read `n` consecutive values from a key on. -/
def Sparse.getAll (dflt : α) (m : Sparse α) (i : Nat) : Nat → List α
  | 0 => []
  | n + 1 => Sparse.get dflt m i :: Sparse.getAll dflt m (i + 1) n

end Sys2Proof
end

