-- ==== Sys2Proof/Machine/State.lean ====
section
/-! DEFINITION. Everything the spec gives the machine, as plain data, and the machine after reset.
INVENTORY.md lists each piece with its rule. -/

namespace Sys2Proof.Machine

/-! ## Registers of one thread -/

/-- The registers of a crew, scout or sequencer (R11 to R16). Lane registers are keyed by
256 · lane + number; what is not listed reads as zero (R11), false (R14). -/
structure Regs where
  v       : Sparse Word
  p       : Sparse Bool
  s       : Sparse Word
  flags   : Word
  cmode   : Word
  mmode   : Word
  gang    : Word
  xmode   : Word
  ubudget : Word
  promise : DWord
  hzn     : Sparse Word
  birth   : Sparse Word
  vwsize  : Sparse Word
  cptop   : Sparse DWord
  trtop   : Sparse DWord
  heaptop : Sparse DWord
  vwbase  : Sparse DWord
deriving DecidableEq, Repr

/-- Registers at the start of a crew, scout or sequencer (R16, R27, R176, R332). -/
def Regs.start : Regs :=
  { v := [], p := [], s := [], flags := 0, cmode := 0, mmode := 0, gang := 0, xmode := 0,
    ubudget := 65536, promise := 0, hzn := [], birth := [], vwsize := [], cptop := [], trtop := [],
    heaptop := [], vwbase := [] }

/-- One pending register result of a run (R22). Mode writes carry the mask of the fields they write
(R81); `special` is a special register written by WRSR or a lane-state instruction (R85). -/
inductive RegWrite where
  | vec (lane n : Nat) (x : Word)
  | scal (n : Nat) (x : Word)
  | pred (lane n : Nat) (x : Bool)
  | cmode (mask x : Word)
  | mmode (mask x : Word)
  | special (lane sr : Nat) (x : DWord)
deriving DecidableEq, Repr

/-- An active loop level: its body is the `len` words from `start` (R30, R95). -/
structure Level where
  start : Nat
  len   : Nat
deriving DecidableEq, Repr

/-- Loop state of a split (R30, R99): the counters, the active levels outermost first, and the words
captured when level 0 was entered (none where a word could not be fetched then). -/
structure Loop where
  lc     : List Word
  levels : List Level
  body   : List (Option Word)
deriving DecidableEq, Repr

/-- No level active, every counter zero (R162). -/
def Loop.start : Loop := { lc := [0, 0, 0], levels := [], body := [] }

/-- The trap registers of a split (R16). -/
structure TrapRegs where
  cause     : Word
  pc        : DWord
  mask      : DWord
  faultva   : DWord
  faultmask : DWord
deriving DecidableEq, Repr

/-- Trap registers at reset (R16). -/
def TrapRegs.start : TrapRegs := { cause := 0, pc := 0, mask := 0, faultva := 0, faultmask := 0 }

/-- The run of a split (R21, R22): whether it is open, its instructions so far, the register image at
its beginning (with the core and its TEMP, R22), its pending results in program order, and the flags it raises and
clears. -/
structure Run where
  isOpen   : Bool
  count    : Nat
  image    : Regs
  lcImage  : List Word
  depth    : Nat
  trImage  : TrapRegs
  temp     : Word
  phys     : Nat
  pend     : List RegWrite
  flagSet  : Word
  flagClr  : Word
deriving DecidableEq, Repr

/-- No open run. -/
def Run.closed : Run :=
  { isOpen := false, count := 0, image := Regs.start, lcImage := [0, 0, 0], depth := 0,
    trImage := TrapRegs.start, temp := 0, phys := 0, pend := [], flagSet := 0, flagClr := 0 }

/-- A trap that a split has raised (R376, R377). -/
structure TrapInfo where
  cause   : Nat
  code    : Nat
  isOpen  : Bool
  pc      : DWord
  mask    : DWord
  faultva : DWord
deriving DecidableEq, Repr

/-- What an instruction has done before it parked or trapped (R268, R277): the lanes performed, their
results, and whether its release is complete. -/
structure Progress where
  lanes    : DWord
  results  : List RegWrite
  flags    : Word
  released : Bool
  count    : Nat
deriving DecidableEq, Repr

/-- Nothing performed. -/
def Progress.none : Progress := { lanes := 0, results := [], flags := 0, released := false, count := 0 }

/-- What a split record saves at trap entry (R375). -/
structure TrapSave where
  member   : DWord
  exited   : DWord
  pc       : DWord
  loop     : Loop
  run      : Run
  cmode    : Word
  mmode    : Word
  progress : Progress
deriving DecidableEq, Repr

/-- How an access uses memory: the ACC codes of R382. -/
inductive Acc where
  | read | write | atomic | fetch
deriving DecidableEq, Repr

/-- A parked page fault (R381, R384); the verdict, once stored, is true for retry. -/
structure Parked where
  token   : Nat
  va      : DWord
  mask    : DWord
  acc     : Acc
  why     : Nat
  verdict : Option Bool
deriving DecidableEq, Repr

/-- An entry of a FIFO bank: its bytes and its poison mark (R232, R352). -/
structure Entry where
  bytes  : List Byte
  poison : Bool
deriving DecidableEq, Repr

/-- A continuation record (R182). -/
structure Cont where
  code  : DWord
  frame : DWord
  queue : Nat
  arg   : DWord
deriving DecidableEq, Repr

/-- The object a split waits on (R186), or why it sleeps (R356), is parked (R381), or waits for a line that a
Lantern core handles (R247). -/
inductive WaitObj where
  | join (group : Nat)
  | barrier (launch circle generation : Nat)
  | mark (slot : Nat)
  | dqPush (launch share : Nat) (x : DWord)
  | dqPop (launch share : Nat)
  | fifoPush (cl bank : Nat) (e : Entry)
  | fifoPop (cl bank : Nat)
  | fifoFull (cl bank : Nat)
  | taskPush (cid queue : Nat) (recs : List Cont)
  | taskPop (cid queue : Nat)
  | latch (core launch tag : Nat)
  | records
  | adopt
  | copyQueue (cl : Nat)
  | engine (core : Nat)
  | sleep (due : Nat)
  | commands (due : Nat)
  | sequencers (core mask : Nat)
  | bank (cl bank : Nat)
  | fault
  | publish (cid region : Nat)
  | fence
  | finish
  | line (cid line : Nat) (fetch : Bool)
  | trap
deriving DecidableEq, Repr

/-- An item handed to a waiting split, kept in its record until it issues again (R186, R391): `go` when
what it waited for is done, `records` when free split records are kept for it, `again` when the word issues once more from its start, `trap` a trap that it
takes instead (R279, R380, R383). -/
inductive Item where
  | go
  | again
  | records (n : Nat)
  | word (x : DWord)
  | entry (e : Entry)
  | task (c : Option Cont) (drained : Bool)
  | result (x : Word) (flags : Word)
  | trap (x : TrapInfo)
deriving DecidableEq, Repr

/-- A wait: its object, the instruction that waits, and its age in the linking order (R186). -/
structure Wait where
  obj   : WaitObj
  instr : Instr
  since : Nat
deriving DecidableEq, Repr

/-- The checkpoint of a speculative fence (R279, R280): where it continues, the registers at the fence, the
old values of those written since, the lines read, a held trap or page fault, rollbacks so far, a rollback that is due,
whether the fence releases, its scope, and the fence's own address and loop state. -/
structure Spec where
  pc        : DWord
  loop      : Loop
  fencePc   : DWord
  fenceLoop : Loop
  regs      : Regs
  written   : List RegWrite
  readSet   : List Nat
  held      : Option TrapInfo
  fault     : Option Parked
  rollbacks : Nat
  hit       : Bool
  release   : Bool
  scope     : Nat
deriving DecidableEq, Repr

/-- STATE of a split record (R161); a FREE record is one that the crew does not list. -/
inductive SplitState where
  | active | queued | waiting
deriving DecidableEq, Repr

/-- A split record (R161). -/
structure Split where
  pc       : DWord
  member   : DWord
  exited   : DWord
  tokens   : List (Nat × Nat)
  loop     : Loop
  run      : Run
  trapRegs : TrapRegs
  state    : SplitState
  wait     : Option Wait
  handed   : Option Item
  saved    : Option TrapSave
  parked   : Option Parked
  progress : Progress
  reached  : List Nat
  spec     : Option Spec
deriving DecidableEq, Repr

/-- The split record 0 of a thread that starts at `pc` with the given lanes (R162). -/
def Split.start (pc member : DWord) : Split :=
  { pc := pc, member := member, exited := 0, tokens := [], loop := Loop.start, run := Run.closed,
    trapRegs := TrapRegs.start, state := .active, wait := none, handed := none,
    saved := none, parked := none, progress := Progress.none, reached := [], spec := none }

/-- The issuers of R345. -/
inductive Kind where
  | crew | scout | mseq | cseq
deriving DecidableEq, Repr

/-- Where a thread is: on its core, halted and being saved, or saved in stash ways (R388, R390). A
thread that has ended is not listed. -/
inductive Place where
  | resident | halted | saved
deriving DecidableEq, Repr

/-- The answer to an adoption request (R217, R219). -/
inductive Answer where
  | pending
  | refused
  | adopted (alt : DWord) (v : List Word)
deriving DecidableEq, Repr

/-- An adoption request of one lane of a waiting ADOPTQ (R217). -/
structure AdoptReq where
  split  : Nat
  lane   : Nat
  donor  : Nat
  answer : Answer
deriving DecidableEq, Repr

/-- The resume record of a lane's UNIFY, with its pending pairs (R148, R150). -/
structure Resume where
  a     : DWord
  b     : DWord
  stack : List (DWord × DWord)
deriving DecidableEq, Repr

/-- A crew, a scout program or a sequencer program (R156 to R164, R176, R332); `tasks` are the records that its
lanes took last (R335), `slot` its place on its core (R157), `leaving` says that an urgent launch waits for its next boundary (R397), `thermal` that heat
moves it (R398), `bound` that its gang has held SIZE members
(R213). -/
structure Thread where
  kind      : Kind
  launch    : Nat
  crewid    : Nat
  width     : Nat
  vregs     : Nat
  core      : Nat
  homenum   : Nat
  circ      : Word
  regs      : Regs
  splits    : Sparse Split
  fragments : List Nat
  groups    : Sparse Nat
  nextGroup : Nat
  cursor    : Nat
  requests  : List AdoptReq
  resumes   : Sparse Resume
  tasks     : Sparse Cont
  arrivals  : Sparse Nat
  handler   : Option Nat
  place     : Place
  slot      : Nat
  placedAt  : Nat
  leaving   : Bool
  thermal   : Bool
  bound     : Bool
deriving DecidableEq, Repr

/-! ## Launches, circles, shares -/

/-- The fields of a launch record that a launch keeps (R413). -/
structure LaunchRec where
  image   : Nat
  imgsize : Nat
  entry   : Nat
  scout   : Nat
  width   : Nat
  vregs   : Nat
  spad    : Nat
  crews   : Nat
  circles : Nat
  args    : Nat
  reloc   : Nat
  flags   : Nat
  prio    : Nat
  udepth  : Nat
  cid     : Nat
  queue   : Nat
  diag    : Nat
  cpladdr : Nat
  cplval  : Nat
deriving DecidableEq, Repr

/-- A launch that the dispatcher has accepted (R413 to R417). `unplaced` are the crews not yet
started; `mapping` gives the physical core of each logical core (R159); `fresh` the relocated words of
its image by address (R60, R395); `slots` its slot number in each cluster (R225); `spad` its sets of
scratch banks, by cluster or, for a set that has moved, by a key that `foster` gives to logical cores (R230,
R393); `baked` the relocated words with their logical cores (R60); `held` are the crews that a fault's verdict will re-queue, by TOKEN
(R335). -/
structure Launch where
  record   : LaunchRec
  ident    : Nat
  part     : Nat
  phase    : Nat
  phaseAt  : Nat
  fifoAt   : Nat
  minWays  : Nat
  unplaced : List Nat
  mapping  : List Nat
  logical  : List Nat
  fresh    : Sparse Word
  slots    : List (Nat × Nat)
  spad     : Sparse (Nat × List Nat)
  foster   : List (Nat × Nat)
  baked    : List (Nat × Nat)
  retries  : Sparse Nat
  held     : List (Nat × Nat)
  requeued : Nat
  killed   : Nat
  poisoned : Bool
  suspended : Bool
deriving DecidableEq, Repr

/-- A circle's barrier state (R172), with the number of barriers completed. -/
structure Circle where
  members    : List (Nat × Nat)
  count      : Nat
  arrived    : List Nat
  retired    : List Nat
  generation : Nat
deriving DecidableEq, Repr

/-- A core share of a scouted launch and its decision queue (R176, R180). `base` entries have been
freed; cursors count from the share's start; `trap` are the trap registers of its scout, kept when it has stopped
(R179). -/
structure Share where
  crews   : List Nat
  trap    : TrapRegs
  entries : List DWord
  base    : Nat
  closed  : Bool
deriving DecidableEq, Repr

/-! ## Clusters -/

/-- MODE of a bank (R225). -/
inductive BankMode where
  | unallocated | cache | scratch | fifo
deriving DecidableEq, Repr

/-- PWR of a bank (R225, R226). -/
inductive BankPwr where
  | active | retention | deepOff | waking
deriving DecidableEq, Repr

/-- A bank: the fields of its map entry that are not counted from elsewhere (R225), its contents and
valid bits (R231), its entries (R232), and its timers (R226). -/
structure Bank where
  mode   : BankMode
  pwr    : BankPwr
  esz    : Nat
  owner  : Option Nat
  wakes  : Nat
  lastAt : Nat
  data   : Sparse Byte
  valid  : Sparse Bool
  fifo   : List Entry
deriving DecidableEq, Repr

/-- A bank after device reset (R225). -/
def Bank.reset : Bank :=
  { mode := .unallocated, pwr := .deepOff, esz := 0, owner := none, wakes := 0, lastAt := 0,
    data := [], valid := [], fifo := [] }

/-- A line of a cluster cache (R233, R236, R306): its page's W and X, which cores have dirtied it, which words have
been written since its fill, its sideband (the marks, or the eight scale records of a format window's line), and the
bank (way) that holds it; `stale` says that words not written since the fill are older than an acquire, `before` which
cores have acquired at core or cluster scope since it was dirtied (R308). -/
structure CLine where
  cid     : Nat
  line    : Nat
  bank    : Nat
  pline   : Nat
  data    : Sparse Byte
  w       : Bool
  x       : Bool
  isAlias : Bool
  shadow  : Bool
  host    : Bool
  win     : Bool
  records : Sparse Nat
  keep    : Bool
  dirty   : Nat
  written : Nat
  marks   : Sparse Nat
  poison  : Nat
  stale   : Bool
  before  : Nat
deriving DecidableEq, Repr

/-- A line of a cache that only reads (R269, R439, R91), or a record of a record cache (R338). -/
structure RLine where
  cid    : Nat
  line   : Nat
  data   : Sparse Byte
  poison : Nat
deriving DecidableEq, Repr

/-- A shape record (R57, R253). -/
structure Shape where
  base    : DWord
  rank    : Nat
  elem    : Nat
  flags   : Nat
  ext     : List Nat
  pad     : Nat
  stride  : List DWord
deriving DecidableEq, Repr

/-- A write of TST in a tile-layout unit's write buffer (R281, R297): its split, and whether the die held the tile's
write tenure, so that it goes to the L2 level; `pa` is where
it lay when it was issued. -/
structure LayoutWrite where
  tid   : Nat
  sid   : Nat
  own   : Bool
  pa    : Nat
  va    : DWord
  bytes : List Byte
deriving DecidableEq, Repr

/-- The kinds of copy command (R348). -/
inductive CopyKind where
  | copy | gather | collect
deriving DecidableEq, Repr

/-- A command of a copy engine (R318, R319, R350): what it read at acceptance, its promise, and how
far it has come; `accepted` gives the order of acceptances; `since` and `room` are its places among the pop- and push-waiters of a bank. `peers` are the devices of its collective and this one's rank; `inbox` holds the entries
popped for it, `outbox` bytes not yet a whole entry; `noted` says that its gather event is posted. -/
structure CopyCmd where
  kind    : CopyKind
  tid     : Nat
  launch  : Nat
  key     : Nat
  ssp     : Nat
  dsp     : Nat
  src     : Shape
  dst     : Shape
  index   : Option Shape
  peers   : Nat × Nat
  group   : Nat
  op      : Nat
  ovf     : Bool
  promise : Nat
  est     : Nat
  total   : Nat
  next    : Nat
  started : Bool
  startAt : Nat
  moved   : Bool
  inbox   : List Entry
  outbox  : List Byte
  outPoison : Bool
  noted   : Bool
  since   : Option Nat
  room    : Option Nat
  why     : Option Parked
  accepted : Nat
deriving DecidableEq, Repr

/-- A cluster: its banks, caches and copy engine. -/
structure Cluster where
  banks   : Sparse Bank
  cache   : List CLine
  sampler : List RLine
  layout  : List RLine
  buffer  : List LayoutWrite
  copyq   : List CopyCmd
deriving DecidableEq, Repr

/-- A cluster after device reset. -/
def Cluster.reset : Cluster :=
  { banks := [], cache := [], sampler := [], layout := [], buffer := [], copyq := [] }

/-! ## Cores -/

/-- A stationary plane (R325): element codes keyed by 128 · n + k, block records by 8 · n + t. -/
structure Plane where
  codes   : Sparse Nat
  records : Sparse Nat
deriving DecidableEq, Repr

/-- What an operation of the matrix engine does (R363). -/
inductive OpKind where
  | load (bg : Option (Nat × Nat)) (shape : Option Shape) (shapeVa : DWord)
  | swap
  | stream (tile arow rows ones : Nat) (bg : Nat × Nat)
  | drain (tile fmt : Nat) (clear : Bool) (bg : Option (Nat × Nat)) (shape : Option Shape)
  | zero (tiles : Nat)
  | save
  | restore
deriving DecidableEq, Repr

/-- An operation in the engine's queue (R362): whether it runs, and how far it has come. -/
structure EngineOp where
  kind    : OpKind
  xmode   : Word
  running : Bool
  done    : Nat
  flags   : Word
  since   : Option Nat
  parked  : Option Parked
deriving DecidableEq, Repr

/-- The owner of a sequencer (R333): a crew, a gang of a launch on the core, or a scout share. -/
inductive Owner where
  | crew (tid : Nat)
  | gang (launch tag : Nat)
  | share (launch share : Nat)
deriving DecidableEq, Repr

/-- A sequencer as its core sees it (R333, R334): its owner, its thread while it runs, its result once
it has ended, the chip time of its end (R344), the bank pair of its argument block, and its trap registers, kept when
it has stopped (R347). -/
structure Seq where
  owner   : Option Owner
  tid     : Option Nat
  ending  : Bool
  result  : Nat
  endedAt : Option Nat
  shbank  : Word
  trap    : TrapRegs
deriving DecidableEq, Repr

/-- A free sequencer. -/
def Seq.free : Seq := { owner := none, tid := none, ending := false, result := 0, endedAt := none, shbank := 0xFFFFFFFF,
                            trap := TrapRegs.start }

/-- A core: caches, matrix engine, sequencers and diode. -/
structure Core where
  icache  : List RLine
  const   : List RLine
  records : List RLine
  active  : Plane
  shadow  : Plane
  tiles   : Sparse Word
  mones   : Nat
  ops     : List EngineOp
  mseq    : Seq
  cseq    : Seq
  temp    : Word
  hot     : Bool
  slow    : Bool
deriving DecidableEq, Repr

/-- The saved image of an engine's owner (R390): its sequencers, planes, tiles, MONES selection and the operations
that had not started. -/
structure EngineImage where
  owner  : Owner
  number : Nat
  mseq   : Seq
  cseq   : Seq
  mprog  : Option Thread
  cprog  : Option Thread
  active : Plane
  shadow : Plane
  tiles  : Sparse Word
  mones  : Nat
  ops    : List EngineOp
deriving DecidableEq, Repr

/-- A core after reset (R325, R366, R429). -/
def Core.reset : Core :=
  { icache := [], const := [], records := [], active := { codes := [], records := [] },
    shadow := { codes := [], records := [] }, tiles := [], mones := 0, ops := [], mseq := Seq.free,
    cseq := Seq.free, temp := 0, hot := false, slow := false }

/-! ## The L2 level -/

/-- State of a die's copy of a unit, transients included (R250); I is not listed. -/
inductive DieState where
  | s | e | o | m | isD | imD | smA | miA
deriving DecidableEq, Repr

/-- An access of the host to device memory by physical address, of at most one line (R260, R421). -/
inductive HostOp where
  | read (pa n : Nat)
  | write (pa : Nat) (bytes : List Byte)
deriving DecidableEq, Repr

/-- A request to the home of a unit (R249): who asks (die 4 is the host), for what, when it arrived, the dies that
a recall or a snoop goes to, and the host's access to device memory that takes its turn (R260). -/
inductive HomeKind where
  | reqS | reqM | upg | recall | snoopS | snoopM | access
deriving DecidableEq, Repr

@[inherit_doc HomeKind]
structure HomeReq where
  die  : Nat
  kind : HomeKind
  at_  : Nat
  only : List Nat
  op   : Option HostOp
deriving DecidableEq, Repr

/-- The request a home slice is serving for a unit (R249): whether it is granted as an upgrade, the dies whose answers
it awaits, whether the owner sends the data itself, and a write-back absorbed meanwhile (R251). -/
structure Txn where
  req      : HomeReq
  upgrade  : Bool
  awaiting : List Nat
  forwarded : Bool
  absorbed : Bool
deriving DecidableEq, Repr

/-- A line of the L2 level (R235, R236, R249, R303): its physical line, its page's attributes, its
data, marks and poison, the bytes written since a granule's poison came (`cover`), the state of each die's copy (die 4
is the host, R251), the home's directory (the recorded owner and sharers), its transaction and waiting requests, and
the dies that an Inv reached before the data. -/
structure L2Line where
  cid     : Nat
  line    : Nat
  pline   : Nat
  data    : Sparse Byte
  marks   : Sparse Nat
  poison  : Nat
  cover   : Nat
  w       : Bool
  x       : Bool
  isAlias : Bool
  shadow  : Bool
  host    : Bool
  cp      : Nat
  win     : Bool
  dirty   : Nat
  copies  : Sparse DieState
  owner   : Option Nat
  sharers : List Nat
  txn     : Option Txn
  queue   : List HomeReq
  dropped : List Nat
  records : Sparse Nat
deriving DecidableEq, Repr

/-- A cached translation (R241), in the channel TLB of a die; 4 is the host interface. -/
structure TlbEntry where
  die  : Nat
  cid  : Nat
  page : Nat
  bits : Nat
  pte  : Nat
deriving DecidableEq, Repr

/-- A page that changes its bias (R261): its context, its number and bits, and its place in the order of acceptances:
copy commands accepted after it wait. -/
structure Flip where
  cid   : Nat
  page  : Nat
  bits  : Nat
  since : Nat
deriving DecidableEq, Repr

/-- A word of a cluster's line that waits at the channel for the end of a flip (R261): the die that carries it, its
address, the frame of its line's fill, its bytes, whether it is a release write, and its mark. -/
structure HeldWrite where
  die     : Nat
  cid     : Nat
  va      : Nat
  pline   : Nat
  bytes   : List Byte
  release : Bool
  mark    : Nat
deriving DecidableEq, Repr

/-- A prefetch that waits for a line which a Lantern core handles (R283). -/
structure Prefetch where
  cl   : Nat
  cid  : Nat
  line : Nat
  hint : Nat
deriving DecidableEq, Repr

/-- A fresh code image (R60, R395, R414): its context, launch, range, and the physical address of its first byte. -/
structure ImagePages where
  cid    : Nat
  launch : Nat
  va     : Nat
  size   : Nat
  pa     : Nat
deriving DecidableEq, Repr

/-- A pin window (R237, R284): its range, its fade counter and load, whether it was accessed in the
current tick, and the lines it pins. -/
structure Pin where
  cid     : Nat
  base    : Nat
  size    : Nat
  fade    : Nat
  load    : Nat
  touched : Bool
  lines   : List Nat
deriving DecidableEq, Repr

/-- A tile entry of a home slice (R252 to R257): tenure per die is 1 for read and 2 for write; `asking` are the splits
whose write acquires the home has accepted, in order, and not granted yet (R262, R298). -/
structure Tile where
  gen     : Nat
  isOpen  : Bool
  cid     : Nat
  shape   : Shape
  tenure  : Sparse Nat
  demoted : List Nat
  carved  : List Nat
  carves  : Nat
  asking  : List (Nat × Nat)
deriving DecidableEq, Repr

/-! ## Lantern cores -/

/-- A trigger record (R247, R340): TYPE, range, context, home number, dirty bit, address, sequence
number, and the message words or the line that come with it. -/
structure Trigger where
  kind  : Nat
  range : Nat
  cid   : Nat
  home  : Nat
  dirty : Bool
  va    : DWord
  seq   : Nat
  data  : List Byte
deriving DecidableEq, Repr

/-- A port operation of a handler (R342), while it waits for a page that changes its bias (R261): its code, width,
address, place, length, operand and destination, and the trigger it was started for. -/
structure PortCmd where
  op      : Nat
  wide    : Bool
  paddr   : Nat
  plocal  : Nat
  plen    : Nat
  operand : DWord
  rdest   : Nat
  trigger : Trigger
deriving DecidableEq, Repr

/-- A Lantern core (R248, R340, R341): queue, running handler, local memory, the pc and the registers x1 to x31 of its
program, the chip time of its next instruction, port registers, and a port operation that waits. -/
structure Lantern where
  queue   : List Trigger
  running : Option Trigger
  started : Nat
  budget  : Nat
  mem     : Sparse Byte
  pc      : DWord
  xs      : Sparse DWord
  nextAt  : Nat
  asking  : Option PortCmd
  paddr   : DWord
  plocal  : DWord
  plen    : DWord
  pcmd    : DWord
  pstat   : Nat
  popnd   : DWord
  pres    : DWord
  rdest   : DWord
  done    : Option Bool
  seq     : Nat
  full    : Nat
  dropped : Nat
  overruns : Nat
deriving DecidableEq, Repr

/-- A Lantern core after reset (R341, R429). -/
def Lantern.reset : Lantern :=
  { queue := [], running := none, started := 0, budget := 0, mem := [], pc := 0, xs := [], nextAt := 0, asking := none, paddr := 0, plocal := 0,
    plen := 0, pcmd := 0, pstat := 0, popnd := 0, pres := 0, rdest := 0, done := none, seq := 0,
    full := 0, dropped := 0, overruns := 0 }

/-- A handler range of a context at a slice (R339), with its recent overruns (R248). -/
structure HandlerRange where
  vbase    : Nat
  vsize    : Nat
  entry    : Nat
  budget   : Nat
  enabled  : Nat
  disabled : Bool
  overruns : List Nat
deriving DecidableEq, Repr

/-! ## Contexts, partitions, queues -/

/-- A fault waiting to be written to the fault ring, with the fields of R382. -/
structure FaultRec where
  va     : DWord
  mask   : DWord
  src    : Nat
  acc    : Nat
  why    : Nat
  token  : Nat
  launch : Nat
  who    : Nat
deriving DecidableEq, Repr

/-- A context (R239, R375, R382, R409, R410): its registers, its fault queue, its shadow selectors,
its task queues' drained marks, its handler ranges, its region of each slice's local memory (R339), its images, and
its checkpoint region. -/
structure Context where
  part     : Nat
  ptbase   : Nat
  tvec     : DWord
  qtbase   : Nat
  shtbase  : Nat
  fqbase   : Nat
  fqlog    : Nat
  fqtail   : Nat
  fqplaces : Sparse Nat
  faults   : List FaultRec
  nextTok  : Nat
  invbase  : Nat
  invstat  : Nat
  selector : Sparse Bool
  publish  : List Nat
  drained  : Sparse Bool
  ranges   : Sparse HandlerRange
  regions  : Sparse (Nat × Nat)
  images   : List (Nat × Nat)
  lastId   : Nat
  poisoned : Bool
  ckpt     : Option (Nat × Nat)
  groups   : Nat
deriving DecidableEq, Repr

/-- An event record (R419). -/
structure Event where
  seq    : Nat
  skind  : Nat
  flg    : Nat
  sidx   : Nat
  type   : Nat
  cid    : Nat
  launch : Nat
  who    : Nat
  arg0   : Nat
  arg1   : Nat
deriving DecidableEq, Repr

/-- A partition and its window registers (R406 to R410, R419); `reqblk` is the block that REQGO handed over last. -/
structure Partition where
  die      : Nat
  mask     : Nat
  lead     : Nat
  banks    : Nat
  reserve  : Nat
  evbase   : Nat
  evlog    : Nat
  evhead   : Nat
  evtail   : Nat
  evlost   : Nat
  csel     : Nat
  reqaddr  : Nat
  reqstat  : Nat
  reqblk   : Nat
  buffer   : List Event
  swapped  : Bool
  vacated  : List Nat
  stopped  : Bool
deriving DecidableEq, Repr

/-- A partition that holds no clusters (R406, R409). -/
def Partition.empty (die lead : Nat) : Partition :=
  { die := die, mask := 0, lead := lead, banks := 32, reserve := 0, evbase := 0, evlog := 0,
    evhead := 0, evtail := 0, evlost := 0, csel := 0, reqaddr := 0, reqstat := 0, reqblk := 0, buffer := [],
    swapped := false, vacated := [], stopped := false }

/-- A work queue's doorbell block (R411). -/
structure Queue where
  base     : Nat
  log      : Nat
  head     : Nat
  tail     : Nat
  part     : Nat
  assigned : Bool
  stall    : Bool
deriving DecidableEq, Repr

/-- A doorbell block after reset (R411). -/
def Queue.reset : Queue :=
  { base := 0, log := 0, head := 0, tail := 0, part := 0, assigned := false, stall := false }

/-! ## Station processor, links, monitors -/

/-- A Krazu port (R422): up, retraining, retries in a row, sequence numbers, unacknowledged flits, the flits that wait
for room among those, how many have been put on the link, the sequence number that the peer has been told is received,
and whether the peer is asked to resend. -/
structure Port where
  up      : Bool
  training : Bool
  retries : Nat
  tx      : Nat
  rx      : Nat
  replay  : List Flit
  waiting : List Flit
  sent    : Nat
  acked   : Option Nat
  asks    : Bool
deriving DecidableEq, Repr

/-- A port before it is trained (R429 step 5). -/
def Port.reset : Port :=
  { up := false, training := false, retries := 0, tx := 0, rx := 0, replay := [], waiting := [], sent := 0, acked := none, asks := false }

/-- An SPDM response (R427): its request, whether it carries the two signatures, and its contents. -/
structure SpdmReply where
  request : Nat
  signed  : Bool
  content : List DWord
deriving DecidableEq, Repr

/-- A backing on its way to the mirror of a buddy device (R424), or (`restore`) a mirror on its way to the spare that has
taken a failed device's number: the physical address and the bytes still to send. -/
structure Transfer where
  cid    : Nat
  region : Nat
  buddy  : Nat
  pa     : Nat
  left   : Nat
  restore : Bool
deriving DecidableEq, Repr

/-- A key pair of the device's identity and its certificate chain (R426). -/
structure Identity where
  secret : DWord
  key    : DWord
  chain  : List DWord
deriving DecidableEq, Repr

/-- A peer whose loss is being recovered (R424): the step reached, and when the next one falls due. -/
structure Recovery where
  device : Nat
  step   : Nat
  due    : Nat
deriving DecidableEq, Repr

/-- A firmware image (R425, R431): its version and its bytes. -/
structure Firmware where
  version : Word
  size    : Nat
  bytes   : Sparse Byte
deriving DecidableEq, Repr

/-- The station processor's own state (R425 to R431, R410 codes 12, 16, 17). `mirrors` holds the context of a source
device, the base and the size of each mirror kept here; `outgoing` the backings that go to a buddy's mirror; `loaded` the
recovery image that boots, and `flash` the one that the firmware has written to configuration flash; `identity` the key
pairs of slots 0 and 1, `measured` the digests of the handler images loaded for each context, `recovering` the lost peers,
`jobParts` the partitions that were halted with their job. -/
structure Station where
  stage    : Nat
  err      : Nat
  recok    : Bool
  fwver    : Word
  reclen   : Nat
  inReset  : Bool
  retry    : Bool
  buffer   : Sparse Byte
  replies  : List SpdmReply
  identity : List Identity
  measured : List (Nat × List DWord)
  mirrors  : List (Nat × Nat × Nat)
  outgoing : List Transfer
  loaded   : Option Firmware
  flash    : Option Firmware
  heartbeat : List Nat
  recovering : List Recovery
  jobParts : List Nat
  halted   : Bool
deriving DecidableEq, Repr

/-- Health of a cluster (R435, R436); `raise` says that its voltage rises at the next idle moment, `limit` is the clock that its temperature allows (R437), lowered last at `limitAt`. -/
structure ClusterHealth where
  droops   : Nat
  recent   : List Nat
  limit    : Nat
  limitAt  : Nat
  deep     : Nat
  ro       : Nat
  boot     : Nat
  vset     : Nat
  vboot    : Nat
  raise    : Bool
deriving DecidableEq, Repr

/-- Health of a cluster before any reading (R436). -/
def ClusterHealth.reset : ClusterHealth :=
  { droops := 0, recent := [], limit := 2700, limitAt := 0, deep := 0, ro := 0, boot := 0, vset := 0, vboot := 0, raise := false }

/-- Module and die readings (R433, R436): the last power samples, newest first, and the clock that they allow. -/
structure Monitors where
  samples  : List Nat
  cap      : Nat
  clusters : Sparse ClusterHealth
  tmax     : List Nat
  inlet    : Nat
  power    : Nat
  ecc      : Nat
  drops    : Nat
deriving DecidableEq, Repr

/-! ## The machine -/

/-- The whole machine. `chiptime` counts the cycles; the CHIPTIME that programs see is its low 64 bits (R4). `agenda` holds the events due now, `calendar` events with the chip time at
which they fall due (the device's own timers and the outside world's acts), `turn` the thread and
split that issue next, `abreast` the splits of its crew that issue after it in the same cycle (R187, R380), `passed` the turns that others have had, on any core and on its own, while a thread was ready
(R190), `scoutAt` the scout program that a core served last (R179), `fresh` counts the free values used, `links` the waits linked, `served` the
queue that was served last of each priority (R412), `reply` the bytes last returned to the host (`replyErr`: with an error, R323), `codes` the compression codes of CMP lines and `metadata` the lines whose
code a controller's metadata cache holds (R245), `windowCids` the contexts that the format windows serve (R410), `flips` the pages that change their bias and `writes` what waits for that (R261), `prefetches` the prefetches that wait for
a Lantern core, `imagePages` the fresh code images that are mapped, of which `imageGen` have been written (R395), `tries` the queue controllers' retry tables
(controller, frame, count; R335), `rewrites` the bytes of poisoned granules of inactive shadow backings written since
the last swap (R323, R387). -/
structure State where
  chiptime  : Nat
  agenda    : List Instr
  calendar  : List (Nat × Instr)
  turn      : Option (Nat × Nat)
  abreast   : List (Nat × Nat)
  passed    : Sparse (Nat × Nat)
  scoutAt   : Sparse Nat
  fresh     : Nat
  links     : Nat
  mem       : List Host.Cell
  marks     : Sparse Nat
  poison    : Sparse Bool
  rewrites  : Sparse Nat
  codes     : Sparse Nat
  metadata  : List Nat
  l2        : Sparse L2Line
  msgs      : List Instr
  flips     : List Flip
  writes    : List HeldWrite
  prefetches : List Prefetch
  imagePages : List ImagePages
  imageGen  : Nat
  tlb       : List TlbEntry
  revmap    : List (Nat × Nat)
  pins      : Sparse Pin
  stashWays : Sparse Nat
  tiles     : Sparse Tile
  windows   : Sparse FormatWindow
  windowCids : Sparse Nat
  frames    : Sparse Nat
  threads   : Sparse Thread
  launches  : Sparse Launch
  circles   : Sparse Circle
  shares    : Sparse Share
  engines   : List EngineImage
  tries     : List (Nat × Nat × Nat)
  clusters  : Sparse Cluster
  cores     : Sparse Core
  lanterns  : Sparse Lantern
  contexts  : Sparse Context
  parts     : Sparse Partition
  queues    : Sparse Queue
  served    : Sparse Nat
  sources   : Sparse Nat
  ports     : Sparse Port
  routes    : Sparse Nat
  station   : Station
  monitors  : Monitors
  reserveOn : Bool
  reply     : List Byte
  replyErr  : Bool
deriving DecidableEq, Repr

/-- Why the machine stops with a fault. -/
inductive Fault where
  /-- Raised by every instruction of R41 when no split is issuing (`turn` names none): there is no
  machine to act on. Safe: `step` never executes an instruction word without an issuing split. -/
  | noIssuer
deriving DecidableEq, Repr

/-- Why an instruction has no meaning. -/
inductive Refusal where
  /-- Raised by an arm of `exec` that is not written yet; none is left. Safe: the machine stops. -/
  | notModelled (mnemonic : String)
deriving DecidableEq, Repr

/-- The machine while PERST# is asserted, from which R429 starts: nothing runs, every SRAM bank is
deep-off and unallocated, memory holds zero (R429 step 3), partition 63 alone exists (R406). -/
def State.reset : State :=
  { chiptime := 0, agenda := [], calendar := [], turn := none, abreast := [], passed := [], scoutAt := [], fresh := 0, links := 0, mem := [],
    marks := [], poison := [], rewrites := [], codes := [], metadata := [], l2 := [], msgs := [], flips := [], writes := [], prefetches := [],
    imagePages := [], imageGen := 0, tlb := [], revmap := [], pins := [],
    stashWays := [], tiles := [], windows := [], windowCids := [], frames := [], threads := [], launches := [],
    circles := [], shares := [], engines := [], tries := [], clusters := [], cores := [], lanterns := [], contexts := [],
    parts := [(63, Partition.empty 0 63)], queues := [], served := [], sources := [], ports := [], routes := [],
    station := { stage := 0, err := 0, recok := false, fwver := 0, reclen := 0, inReset := true,
                 retry := true, buffer := [], replies := [], identity := [], measured := [], mirrors := [], outgoing := [], loaded := none, flash := none,
                 heartbeat := [], recovering := [], jobParts := [], halted := false },
    monitors := { samples := [], cap := 2700, clusters := [], tmax := [0, 0, 0, 0], inlet := 0, power := 0, ecc := 0, drops := 0 },
    reserveOn := true, reply := [], replyErr := false }

end Sys2Proof.Machine
end

