-- ==== Sys2Proof/Machine/Memory.lean ====
section
/-! DEFINITION. Memory below the threads: HBM by physical address, events and records that the device
writes there, translation at the channel (R239 to R242), the L2 level with its directory (R235 to
R251), tile tenure of an access (R257), format windows (R119, R243), the cluster caches (R233, R234)
and the scope actions (R265). Addresses are natural numbers. -/

namespace Sys2Proof.Machine

/-! ## Bits and bytes -/

/-- Bits [lo + n - 1 : lo] of a number. -/
def bits (x lo n : Nat) : Nat := x / 2 ^ lo % 2 ^ n

/-- Bit `i` of a number, as a truth value. -/
def bit (x i : Nat) : Bool := decide (x / 2 ^ i % 2 = 1)

/-- A number with bit `i` set. -/
def setBit (x i : Nat) : Nat := if bit x i then x else x + 2 ^ i

/-- A number with bit `i` clear. -/
def clearBit (x i : Nat) : Nat := if bit x i then x - 2 ^ i else x

/-- A number with `n` bits from bit `lo` on set. -/
def setBits (x lo n : Nat) : Nat := x + (2 ^ n - 1 - bits x lo n) * 2 ^ lo

/-- A natural number's bit for a truth value. -/
def ofBool (b : Bool) : Nat := if b then 1 else 0

/-- Bits [63:57] of a virtual address equal bit 56 (R26). -/
def canonicalVa (va : Nat) : Bool := decide (bits va 57 7 = if bit va 56 then 127 else 0)

/-! ## HBM by physical address -/

/-- What a byte that nothing has written reads as: R429 step 3 writes zero to every granule. -/
def Memory.unlisted : Byte := 0

/-- The canonical form of memory: rising addresses, no entry equal to what an unlisted address reads
as. -/
def Memory.wf (m : List Host.Cell) : Bool := Sparse.wf Memory.unlisted m

/-- One byte of memory. -/
def Memory.read (m : List Host.Cell) (a : Nat) : Byte := Sparse.get Memory.unlisted m a

/-- Write one byte of memory. -/
def Memory.write (m : List Host.Cell) (a : Nat) (x : Byte) : List Host.Cell :=
  Sparse.set Memory.unlisted m a x

/-- A little-endian number of `n` bytes of memory. -/
def Memory.num (m : List Host.Cell) (a n : Nat) : Nat := leNat ((List.range n).map (fun i => Memory.read m (a + i)))

/-- Write consecutive bytes of memory. -/
def Memory.writeAll (m : List Host.Cell) (a : Nat) (xs : List Byte) : List Host.Cell :=
  Sparse.setAll Memory.unlisted m a xs

/-- The L2 line that holds a physical line, if some copy is held. -/
def linesOf (s : State) (pline : Nat) : List (Nat × L2Line) :=
  s.l2.filter (fun kv => kv.2.pline == pline)

/-- One byte as the L2 level holds it, by physical address. -/
def physByte (s : State) (pa : Nat) : Byte :=
  match linesOf s (pa / 128) with
  | (_, l) :: _ => Sparse.get 0 l.data (pa % 128)
  | [] => Memory.read s.mem pa

/-- A little-endian number of `n` bytes by physical address. -/
def physNat (s : State) (pa : Nat) : Nat → Nat
  | 0 => 0
  | n + 1 => (physByte s pa).toNat + 256 * physNat s (pa + 1) n

/-- Write one byte at the L2 level by physical address, with mark 511 on its word (R305). -/
def physWriteByte (s : State) (pa : Nat) (x : Byte) : State :=
  if (linesOf s (pa / 128)).isEmpty then
    { s with mem := Memory.write s.mem pa x, marks := Sparse.set 0 s.marks (pa / 8) Config.noMark }
  else
    { s with l2 := s.l2.map (fun kv =>
        if kv.2.pline == pa / 128 then
          (kv.1, { kv.2 with data := Sparse.set 0 kv.2.data (pa % 128) x,
                             marks := Sparse.set 0 kv.2.marks (pa % 128 / 8) Config.noMark,
                             dirty := setBit kv.2.dirty (pa % 128 / 8) })
        else kv) }

/-- Write bytes at the L2 level by physical address. -/
def physWrite (s : State) (pa : Nat) : List Byte → State
  | [] => s
  | x :: xs => physWrite (physWriteByte s pa x) (pa + 1) xs

/-! ## Free values, agenda, calendar -/

/-- The next free number, and the state that has used it. -/
def freeNat (s : State) : Nat × State := (Config.freeNat s.fresh, { s with fresh := s.fresh + 1 })

/-- A free number of cycles from 0 to `bound`. -/
def freeDelay (s : State) (bound : Nat) : Nat × State :=
  (Config.freeNat s.fresh % (bound + 1), { s with fresh := s.fresh + 1 })

/-- Put events on the agenda, after those already due. -/
def due (es : List Instr) (s : State) : State := { s with agenda := s.agenda ++ es }

/-- Put an event on the calendar at a chip time, in order of time. -/
def calendarAt (t : Nat) (e : Instr) : List (Nat × Instr) → List (Nat × Instr)
  | [] => [(t, e)]
  | (u, x) :: xs => if u ≤ t then (u, x) :: calendarAt t e xs else (t, e) :: (u, x) :: xs

/-- An event falls due at a chip time. -/
def schedule (t : Nat) (e : Instr) (s : State) : State :=
  { s with calendar := calendarAt t e s.calendar }

/-- CHIPTIME: a 64-bit counter (R4). -/
def chipNow (s : State) : Nat := s.chiptime % 2 ^ 64

/-- An event falls due after some cycles. -/
def after (n : Nat) (e : Instr) (s : State) : State := schedule (s.chiptime + n) e s

/-! ## Events and records for the host -/

/-- The fields of an event record as 64 bytes (R419). -/
def Event.bytes (e : Event) : List Byte :=
  leBytes 8 e.seq ++ leBytes 1 e.skind ++ leBytes 1 e.flg ++ leBytes 2 e.sidx ++ leBytes 2 e.type
    ++ leBytes 2 e.cid ++ leBytes 4 e.launch ++ leBytes 4 e.who ++ leBytes 8 e.arg0
    ++ leBytes 8 e.arg1 ++ leBytes 24 0

/-- A ring has room while it holds fewer records than its size; no ring while EVLOG is 0 (R419). -/
def Partition.ringFree (p : Partition) : Bool :=
  decide (p.evlog ≠ 0) && decide (p.evtail - p.evhead < 2 ^ p.evlog)

/-- Move buffered records of a partition to its ring, in order, while it has room (R419). -/
def flushEvents (part : Nat) : Nat → State → State
  | 0, s => s
  | fuel + 1, s =>
    match Sparse.find? s.parts part with
    | none => s
    | some p =>
      match p.buffer with
      | [] => s
      | e :: es =>
        if p.ringFree then
          let s1 := physWrite s (p.evbase + 64 * (p.evtail % 2 ^ p.evlog)) e.bytes
          flushEvents part fuel
            { s1 with parts := Sparse.put s1.parts part { p with buffer := es, evtail := p.evtail + 1 } }
        else s

/-- Post an event to a partition (R314, R419): numbered by its source, buffered when there is no room,
counted as lost when the buffer is full; a record written after a loss says so in FLG. -/
def postTo (part : Nat) (e : Event) (s : State) : State :=
  match Sparse.find? s.parts part with
  | none => s
  | some p =>
    let src := 4096 * e.skind + e.sidx
    let seq := Sparse.get 0 s.sources src + 1
    let s := { s with sources := Sparse.set 0 s.sources src seq }
    if p.buffer.length < Config.eventBuffer ∨ (p.buffer.isEmpty ∧ p.ringFree) then
      let e := { e with seq := seq, flg := if p.evlost ≠ 0 ∧ (Sparse.find? s.sources (2 ^ 20 + part)).isSome then 1 else 0 }
      let s := { s with sources := Sparse.erase s.sources (2 ^ 20 + part) }
      flushEvents part (Config.eventBuffer + 1)
        { s with parts := Sparse.put s.parts part { p with buffer := p.buffer ++ [e] } }
    else
      { s with parts := Sparse.put s.parts part { p with evlost := Nat.min (p.evlost + 1) (2 ^ 64 - 1) },
               sources := Sparse.put s.sources (2 ^ 20 + part) 1 }

/-- An event of a context, posted to the partition it belongs to (R406). -/
def post (cid skind sidx type launch who arg0 arg1 : Nat) (s : State) : State :=
  match Sparse.find? s.contexts cid with
  | some c =>
    let lead := match Sparse.find? s.parts c.part with | some p => p.lead | none => c.part
    postTo lead { seq := 0, flg := 0, skind := skind, sidx := sidx, type := type, cid := cid,
                  launch := launch, who := who, arg0 := arg0, arg1 := arg1 } s
  | none => s

/-- Put a fault on its context's queue and try to write it to the ring (R382): the place at an index is
free once the record there has been answered. -/
def writeFaults (cid : Nat) : Nat → State → State
  | 0, s => s
  | fuel + 1, s =>
    match Sparse.find? s.contexts cid with
    | none => s
    | some c =>
      match c.faults with
      | [] => s
      | f :: fs =>
        if c.fqbase ≠ 0 ∧ 6 ≤ c.fqlog ∧ c.fqlog ≤ 16 ∧
            (Sparse.find? c.fqplaces (c.fqtail % 2 ^ c.fqlog)).isNone then
          let place := c.fqtail % 2 ^ c.fqlog
          let record := leBytes 8 f.va.toNat ++ leBytes 8 f.mask.toNat ++ leBytes 1 f.src
            ++ leBytes 1 f.acc ++ leBytes 1 f.why ++ leBytes 1 0 ++ leBytes 4 f.token
            ++ leBytes 4 f.launch ++ leBytes 4 f.who
          let s1 := physWrite s (c.fqbase + 32 * place) record
          writeFaults cid fuel
            { s1 with
              contexts := Sparse.put s1.contexts cid
                { c with faults := fs, fqtail := c.fqtail + 1, fqplaces := Sparse.put c.fqplaces place f.token } }
        else s

/-- A fresh TOKEN of a context, never 0 (R382). -/
def takeToken (cid : Nat) (s : State) : Nat × State :=
  match Sparse.find? s.contexts cid with
  | some c => (c.nextTok, { s with
      contexts := Sparse.put s.contexts cid
        { c with nextTok := if c.nextTok + 1 < 2 ^ 32 then c.nextTok + 1 else 1 } })
  | none => (1, s)

/-- Send a fault to its context's queue; FAULT_RECORD_WRITE writes it when its place is free. -/
def sendFault (cid : Nat) (f : FaultRec) (s : State) : State :=
  match Sparse.find? s.contexts cid with
  | some c => due [.faultRecordWrite cid]
      { s with contexts := Sparse.put s.contexts cid { c with faults := c.faults ++ [f] } }
  | none => s

/-! ## Translation -/

/-- A translation: the physical address, the page's attributes, and the shadow region, if any. -/
structure Xlat where
  pa     : Nat
  pte    : Nat
  region : Option Nat
deriving DecidableEq, Repr

/-- Attribute bits of a page table entry (R240). -/
def Xlat.w (x : Xlat) : Bool := bit x.pte 1
def Xlat.x (x : Xlat) : Bool := bit x.pte 2
def Xlat.host (x : Xlat) : Bool := bit x.pte 4
def Xlat.cmp (x : Xlat) : Bool := bit x.pte 5
def Xlat.isAlias (x : Xlat) : Bool := bit x.pte 6
def Xlat.shadow (x : Xlat) : Bool := bit x.pte 7
def Xlat.cp (x : Xlat) : Nat := bits x.pte 8 2

/-- The index bits of each level: lowest bit and count (R239). -/
def walkLevels : List (Nat × Nat) := [(48, 9), (39, 9), (30, 9), (21, 9), (16, 5)]

/-- A page table entry is well formed for its level (R240). -/
def pteOk (level pte lo : Nat) : Bool :=
  decide (bits pte 10 2 = 0) && decide (bits pte 52 12 = 0) &&
  (if bit pte 3 then
    decide (2 ≤ level) && decide (bits pte 8 2 ≠ 3) && decide (bits pte 12 40 * 4096 % 2 ^ lo = 0)
   else decide (level < 4) && decide (bits pte 4 6 = 0))

/-- The walk of R239 from a table, through the remaining levels: a leaf with its page's bits, or the
WHY code of R382. -/
def walkFrom (s : State) (va table level : Nat) : List (Nat × Nat) → Except Nat (Nat × Nat)
  | [] => .error 3
  | (lo, n) :: rest =>
    let pte := physNat s (table + 8 * bits va lo n) 8
    if !bit pte 0 then .error 0
    else if !pteOk level pte lo then .error 3
    else if bit pte 3 then .ok (pte, lo)
    else walkFrom s va (bits pte 12 40 * 4096) (level + 1) rest

/-- The leaf of an address and its page's bits, without the shadow rule; an address that breaks R26 has none. -/
def walk (s : State) (c : Context) (va : Nat) : Except Nat (Nat × Nat) :=
  if canonicalVa va then walkFrom s va c.ptbase 0 walkLevels else .error 0

/-- The physical address under a leaf. -/
def leafPa (pte lo va : Nat) : Nat := bits pte 12 40 * 4096 + va % 2 ^ lo

/-- Read a little-endian number of the shadow table through the page table; unmapped bytes read as zero. -/
def walkNat (s : State) (c : Context) (va : Nat) (n : Nat) : Nat :=
  match walk s c va with
  | .ok (pte, lo) => physNat s (leafPa pte lo va) n
  | .error _ => 0

/-- An entry of the shadow table: VBASE, SIZE, PA0, PA1 (R322). -/
def shadowEntry (s : State) (c : Context) (r : Nat) : Nat × Nat × Nat × Nat :=
  let a := c.shtbase + 32 * r
  (walkNat s c a 8, walkNat s c (a + 8) 8, walkNat s c (a + 16) 8, walkNat s c (a + 24) 8)

/-- The used shadow region that holds an address (R322). -/
def shadowRegion (s : State) (c : Context) (va : Nat) : Option (Nat × Nat × Nat) :=
  (List.range 64).findSome? (fun r =>
    match shadowEntry s c r with
    | (vb, size, p0, p1) =>
      if vb ≠ 0 ∧ vb ≤ va ∧ va < vb + size then
        some (r, p0 + (va - vb), p1 + (va - vb)) else none)

/-- The physical address of a byte of a fresh code image (R395). -/
def imagePa (s : State) (cid va : Nat) : Option Nat :=
  s.imagePages.findSome? (fun g => if g.cid = cid ∧ g.va ≤ va ∧ va < g.va + g.size then some (g.pa + (va - g.va)) else none)

/-- Add the shadow rule to a leaf (R240, R322): the active backing serves the access. -/
def leafXlat (s : State) (c : Context) (va pte lo : Nat) : Except Nat Xlat :=
  if bit pte 7 then
    match shadowRegion s c va with
    | none => .error 3
    | some (r, p0, p1) =>
      .ok { pa := if Sparse.get false c.selector r then p1 else p0, pte := pte, region := some r }
  else .ok { pa := leafPa pte lo va, pte := pte, region := none }

/-- A fresh code image is mapped in place of its source (R414). -/
def finishXlat (s : State) (cid : Nat) (c : Context) (va pte lo : Nat) : Except Nat Xlat :=
  match leafXlat s c va pte lo with
  | .ok x => .ok (if bit pte 7 then x else { x with pa := (imagePa s cid va).getD x.pa })
  | .error e => .error e

/-- The device's own translation of an address of a context, for tables and for a code image as the program has it. -/
def tableXlat (s : State) (c : Context) (va : Nat) : Except Nat Xlat :=
  match walk s c va with
  | .ok (pte, lo) => leafXlat s c va pte lo
  | .error e => .error e

/-- Read a little-endian number by virtual address, for the device's own tables; unmapped bytes read as zero. -/
def tableNat (s : State) (c : Context) (va : Nat) (n : Nat) : Nat :=
  match tableXlat s c va with
  | .ok x => physNat s x.pa n
  | .error _ => 0

/-- Whether a cache whose replacement the spec leaves open still holds an entry (R91, R241, R269,
R338): a free truth value. -/
def keeps (s : State) : Bool × State := (Config.freeBool s.fresh, { s with fresh := s.fresh + 1 })

/-- The die whose channel translates an access: the one that owns the physical line's HBM, or the host interface
(number 4). How HBM is spread over the dies is not said: by physical line (log 77). -/
def channelOf (pa : Nat) : Nat := if pa < Config.hbmBytes ∨ Config.imageFrames ≤ pa then pa / 128 % 4 else 4

/-- The HBM controller of a physical line: two per die (R1; log 77). -/
def controllerOf (pline : Nat) : Nat := 2 * (pline % 4) + pline / 4 % 2

/-- The first `n` entries of a die's TLB stay, with every entry of the others. -/
def keepTlb (die : Nat) : Nat → List TlbEntry → List TlbEntry
  | _, [] => []
  | n, t :: ts =>
    if t.die = die then (match n with | 0 => keepTlb die 0 ts | k + 1 => t :: keepTlb die k ts)
    else t :: keepTlb die n ts

/-- A translation enters its die's TLB of 8,192 entries. -/
def enterTlb (e : TlbEntry) (s : State) : State := { s with tlb := e :: keepTlb e.die (Config.tlbEntries - 1) s.tlb }

/-- A cached translation serves an address: it lies in the TLB of the die whose channel the access reaches. -/
def TlbEntry.serves (e : TlbEntry) (cid va : Nat) : Bool :=
  e.cid == cid && e.page == va / 2 ^ e.bits && e.die == channelOf (leafPa e.pte e.bits va)

/-- An entry is the last one that has entered its die's TLB: none has come after it that could have replaced it. -/
def lastEntered (tlb : List TlbEntry) (e : TlbEntry) : Bool := tlb.find? (fun x => x.die == e.die) == some e

/-- The channel TLBs of R241 over the walk of R239; the result names the WHY code of R382. -/
def translate (s : State) (cid va : Nat) : Except Nat Xlat × State :=
  match Sparse.find? s.contexts cid with
  | none => (.error 0, s)
  | some c =>
    let miss (s : State) : Except Nat Xlat × State :=
      match walk s c va with
      | .error e => (.error e, s)
      | .ok (pte, lo) =>
        (finishXlat s cid c va pte lo,
         enterTlb { die := channelOf (leafPa pte lo va), cid := cid, page := va / 2 ^ lo, bits := lo, pte := pte } s)
    match s.tlb.find? (fun e => e.serves cid va) with
    | none => miss s
    | some e =>
      if lastEntered s.tlb e then (finishXlat s cid c va e.pte e.bits, s)
      else
      let (k, s) := keeps s
      if k then (finishXlat s cid c va e.pte e.bits, s)
      else miss { s with tlb := s.tlb.filter (fun x => !(x.serves cid va)) }

/-! ## Places on the package -/

/-- Row and column of a core number on the 16 × 32 grid: PHYSCORE's layout (R16). -/
def coreRow (core : Nat) : Nat := core % 16
def coreCol (core : Nat) : Nat := core / 16

/-- Cluster of a core: number 8 · row + column on the 8 × 8 grid (R403). -/
def clusterOf (core : Nat) : Nat := 8 * (coreRow core / 2) + coreCol core / 4

/-- Die of a cluster and its index within the die (R403). -/
def dieOfCluster (cl : Nat) : Nat := 2 * (cl / 8 / 4) + cl % 8 / 4
def clusterIndex (cl : Nat) : Nat := 4 * (cl / 8 % 4) + cl % 8 % 4

/-- Die of a core. -/
def dieOf (core : Nat) : Nat := dieOfCluster (clusterOf core)

/-- Core within its cluster, 0 to 7: the dirty bit it sets (R233). -/
def coreInCluster (core : Nat) : Nat := 4 * (coreRow core % 2) + coreCol core % 4

/-- Index of a core within its die (R403), and its event number, package-wide (R419). -/
def coreIndex (core : Nat) : Nat := 16 * (coreRow core % 8) + coreCol core % 16
def coreSidx (core : Nat) : Nat := 128 * dieOf core + coreIndex core

/-- XOR of the seven 7-bit fields of R235. -/
def homeHash (cid va : Nat) : Nat :=
  ((List.range 7).map (fun i => bits va (7 + 7 * i) 7) ++ [bits cid 0 7, bits cid 7 5]).foldl Nat.xor 0

/-- The home slice of a line, package-wide: 32 · die + slice (R235, R252). -/
def homeSlice (cid va : Nat) : Nat := 32 * (homeHash cid va / 32) + homeHash cid va % 32

/-- The slice of a die that caches a line, package-wide (R235). -/
def dieSlice (die cid va : Nat) : Nat := 32 * die + homeHash cid va % 32

/-- The set of a line in its slice of a die, with the slice (R235). -/
def l2Set (cid va : Nat) : Nat × Nat := (homeHash cid va % 32, Nat.xor (bits va 7 10) (bits va 17 10))

/-- The event number of a slice of the 8 × 16 grid (R403). -/
def sliceOf (row col : Nat) : Nat := 32 * (2 * (row / 4) + col / 8) + 8 * (row % 4) + col % 8

/-- The key of an L2 line: its context and virtual line. -/
def lineKey (cid line : Nat) : Nat := line * 4096 + cid

/-- A cluster, core or Lantern core, listed or in its reset state. -/
def getCluster (s : State) (cl : Nat) : Cluster := (Sparse.find? s.clusters cl).getD Cluster.reset
def putCluster (cl : Nat) (c : Cluster) (s : State) : State :=
  { s with clusters := Sparse.put s.clusters cl c }
def getCore (s : State) (core : Nat) : Core := (Sparse.find? s.cores core).getD Core.reset
def putCore (core : Nat) (c : Core) (s : State) : State := { s with cores := Sparse.put s.cores core c }
def getLantern (s : State) (sl : Nat) : Lantern := (Sparse.find? s.lanterns sl).getD Lantern.reset
def putLantern (sl : Nat) (l : Lantern) (s : State) : State :=
  { s with lanterns := Sparse.put s.lanterns sl l }
def getBank (s : State) (cl b : Nat) : Bank :=
  (Sparse.find? (getCluster s cl).banks b).getD Bank.reset
def putBank (cl b : Nat) (k : Bank) (s : State) : State :=
  let c := getCluster s cl
  putCluster cl { c with banks := Sparse.put c.banks b k } s
def modCluster (cl : Nat) (f : Cluster → Cluster) (s : State) : State := putCluster cl (f (getCluster s cl)) s
def modCore (core : Nat) (f : Core → Core) (s : State) : State := putCore core (f (getCore s core)) s
def modBank (cl b : Nat) (f : Bank → Bank) (s : State) : State := putBank cl b (f (getBank s cl b)) s
def modContext (cid : Nat) (f : Context → Context) (s : State) : State :=
  { s with contexts := Sparse.alter s.contexts cid f }
def modPart (part : Nat) (f : Partition → Partition) (s : State) : State :=
  { s with parts := Sparse.alter s.parts part f }
def modLaunch (k : Nat) (f : Launch → Launch) (s : State) : State :=
  { s with launches := Sparse.alter s.launches k f }

/-! ## Format windows -/

/-- Magnitude bits of a window's or record's width code (R113, R243). -/
def widthBits (code : Nat) : Nat := match code with | 0 => 2 | 1 => 4 | 2 => 7 | _ => 0

/-- The window whose engine-form range holds a physical address, with the byte offset (R243). Whether a window governs
the lines of other controllers is not said: a window of any controller does (DESIGN CHOICE, log 99). -/
def windowAt (s : State) (pa : Nat) : Option (FormatWindow × Nat) :=
  (Sparse.values s.windows).findSome? (fun w =>
    let lo := w.ebase * 65536
    if w.fmt < 3 ∧ lo ≤ pa ∧ pa < lo + w.esize * 65536 then some (w, pa - lo) else none)

/-- Even parity of the low `n` bits: true when they hold an odd number of ones. -/
def oddOnes (x : Nat) : Nat → Bool
  | 0 => false
  | n + 1 => xor (bit x n) (oddOnes x n)

/-- Both parity bits of a scale record hold (R113). -/
def parityOk (r : Nat) : Bool :=
  (oddOnes (bits r 10 10) 10 == bit r 1) && (oddOnes (bits r 2 8) 8 == bit r 0)

/-- Element `i` of packed block `k`, as an engine-form byte (R118, R119). -/
def unpackElem (s : State) (w : FormatWindow) (k i : Nat) : Byte :=
  let n := widthBits w.fmt
  let base := w.dbase * 32 + k * 2 * (n + 1)
  let x := bits (Memory.num s.mem base (2 * (n + 1))) ((n + 1) * i) (n + 1)
  BitVec.ofNat 8 (bits x n 1 * 128 + bits x 0 n * 2 ^ (7 - n))

/-- The record of block `k` as a fill copies it: E becomes 0xFF when [31:20] are not zero (R119). -/
def windowRecord (s : State) (w : FormatWindow) (k : Nat) : Nat :=
  let r := Memory.num s.mem (w.sbase * 4 + 4 * k) 4
  if bits r 20 12 = 0 then r else 0xFF000 + r % 4096

/-- Fill of a line of a window: 128 engine-form bytes and eight records (R118, R119). -/
def windowFill (s : State) (w : FormatWindow) (off : Nat) : Sparse Byte × Sparse Nat :=
  (Sparse.setAll 0 [] 0 ((List.range 128).map (fun j => unpackElem s w ((off + j) / 16) ((off + j) % 16))),
   Sparse.setAll 0 [] 0 ((List.range 8).map (fun t => windowRecord s w (off / 16 + t))))

/-- Write back of one block of a window: the packed elements and the record (R119). -/
def windowStore (s : State) (w : FormatWindow) (k : Nat) (elems : List Byte) (record : Nat) : State :=
  let n := widthBits w.fmt
  let code (x : Byte) : Nat := x.toNat / 128 * 2 ^ n + x.toNat % 128 / 2 ^ (7 - n)
  let packed := ((List.range 16).zip elems).foldl (fun acc p => acc + code p.2 * 2 ^ ((n + 1) * p.1)) 0
  let s := { s with mem := Memory.writeAll s.mem (w.dbase * 32 + k * 2 * (n + 1)) (leBytes (2 * (n + 1)) packed) }
  { s with mem := Memory.writeAll s.mem (w.sbase * 4 + 4 * k) (leBytes 4 (record % 2 ^ 20)) }

/-- The granules of HBM that hold block k of a window: its packed elements and its record's slot (R119). -/
def windowGranules (w : FormatWindow) (k : Nat) : List Nat :=
  let n := 2 * (widthBits w.fmt + 1)
  let a := w.dbase * 32 + k * n
  [a / 32, (a + n - 1) / 32, (w.sbase * 4 + 4 * k) / 32].eraseDups

/-- Poison marks of a window's line: those of the granules that hold its blocks (R387). -/
def windowPoison (s : State) (w : FormatWindow) (off : Nat) : Nat :=
  (List.range 4).foldl (fun m g =>
    if ([2 * g, 2 * g + 1].flatMap (fun t => windowGranules w (off / 16 + t))).any (Sparse.get false s.poison)
    then m + 2 ^ g else m) 0

/-! ## The L2 level: fills and write-backs -/

/-- Poison mask of the four granules of a physical line (R387). -/
def poisonMask (s : State) (pline : Nat) : Nat :=
  (List.range 4).foldl (fun m g => if Sparse.get false s.poison (4 * pline + g) then m + 2 ^ g else m) 0

/-- The L2 line of a translation, as a fill makes it (R119, R236, R241, R244). -/
def freshLine (s : State) (cid va : Nat) (x : Xlat) : L2Line :=
  let pline := x.pa / 128
  let base : L2Line :=
    { cid := cid, line := va / 128, pline := pline, data := [], marks := [], poison := 0, cover := 0, w := x.w, x := x.x,
      isAlias := x.isAlias, shadow := x.shadow, host := x.host, cp := x.cp, win := false, dirty := 0,
      copies := [], owner := none, sharers := [], txn := none, queue := [], dropped := [], records := [] }
  match windowAt s (pline * 128) with
  | some (w, off) =>
    let (d, r) := windowFill s w off
    { base with data := d, records := r, win := true, poison := windowPoison s w off }
  | none =>
    { base with
      data := Sparse.slice s.mem (pline * 128) 128,
      marks := if x.host then Sparse.setAll 0 [] 0 (List.replicate 16 Config.noMark)
               else Sparse.slice s.marks (pline * 16) 16,
      poison := poisonMask s pline }

/-- Blocks of a window line whose record fails its parity post an event each, from the controller of the physical
scale slot that the event names (R244, R420). The record is judged as the fill stores it (log 78). -/
def parityEvents (l : L2Line) (s : State) : State :=
  match windowAt s (l.pline * 128) with
  | none => s
  | some (w, off) =>
    (List.range 8).foldl (fun s t =>
      let slot := w.sbase * 4 + 4 * (off / 16 + t)
      if !parityOk (Sparse.get 0 l.records t) then post l.cid 7 (controllerOf (slot / 128)) 11 0 0 slot 0 s else s) s

/-! ### Compressed lines and corrected errors (R245, R246) -/

/-- The code of a line of a CMP page outside every window: 0 a zero line, 1 one sector, 2 two, 3 four. How well a line
compresses is not said: a free number of sectors. -/
def lineCode (s : State) (pline : Nat) : Nat × State :=
  if (Sparse.slice s.mem (pline * 128) 128).isEmpty then (0, s)
  else ((freeNat s).1 % 3 + 1, (freeNat s).2)

/-- A controller's metadata cache holds the code of a line from now on: 1 MiB of 2-bit codes; which one a full cache
drops is not said (a free number). -/
def enterMeta (pline : Nat) (s : State) : State :=
  if s.metadata.contains pline then s
  else
    let mine := s.metadata.filter (fun p => controllerOf p == controllerOf pline)
    if mine.length < Config.metaCodes then { s with metadata := pline :: s.metadata }
    else
      let (n, s) := freeNat s
      { s with metadata := pline :: s.metadata.filter (fun p => some p != mine[n % mine.length]?) }

/-- A line outside every window is stored: its code is new. A code of a line of no CMP page is never looked up. -/
def recode (pline : Nat) (s : State) : State :=
  if (windowAt s (pline * 128)).isNone then
    let (c, s) := lineCode s pline
    { s with codes := Sparse.set 0 s.codes pline c }
  else s

/-- A line of a CMP page is stored under a translation: its code is new, and in the controller's metadata cache. -/
def storeCode (x : Xlat) (s : State) : State :=
  if x.cmp && (windowAt s (x.pa / 128 * 128)).isNone then enterMeta (x.pa / 128) (recode (x.pa / 128) s) else s

/-- A line of a CMP page is fetched: its code is looked up. -/
def loadCode (x : Xlat) (s : State) : State :=
  if x.cmp && (windowAt s (x.pa / 128 * 128)).isNone then enterMeta (x.pa / 128) s else s

/-- A read of HBM may meet an error within one symbol, which is corrected and counted (R246): whether is free. -/
def readEcc (s : State) : State :=
  { s with fresh := s.fresh + 1,
           monitors := { s.monitors with ecc := s.monitors.ecc + (if Config.freeBool s.fresh then 1 else 0) } }

/-- The host may have written a line of its own memory since it was read last (R310): whether, and what, is free. -/
def hostStores (x : Xlat) (s : State) : State :=
  if x.host && decide (Config.hbmBytes ≤ x.pa) && Config.freeBool s.fresh then
    { s with mem := Memory.writeAll s.mem (x.pa / 128 * 128)
               ((List.range 128).map (fun i => (Config.freeBits (s.fresh + 1 + i)).setWidth 8)),
             fresh := s.fresh + 129 }
  else s

/-- Bring a line to the L2 level under a translation, if it is not held. -/
def l2FillAt (s : State) (cid va : Nat) (x : Xlat) : L2Line × State :=
  match Sparse.find? s.l2 (lineKey cid (va / 128)) with
  | some l => (l, s)
  | none =>
    let s := hostStores x s
    let l := freshLine s cid va x
    (l, readEcc (loadCode x (parityEvents l { s with l2 := Sparse.put s.l2 (lineKey cid (va / 128)) l })))

/-! ## Lantern triggers (R247, R248, R340) -/

/-- Beside the WHY codes of R382: the line waits for a handler (R247), a write to a SHADOW page by a crew gets
ACCESS (R323), and a read of a poisoned granule gets POISON (R387). -/
def whyHandler : Nat := 4
def whyAccess : Nat := 5
def whyPoison : Nat := 6

/-- The lowest handler range of a context at a slice that holds an address. -/
def handlerRange (c : Context) (slice va : Nat) : Option (Nat × HandlerRange) :=
  (List.range 16).findSome? (fun i => (Sparse.find? c.ranges (16 * slice + i)).bind (fun r =>
    if r.vsize ≠ 0 ∧ r.vbase ≤ va ∧ va < r.vbase + r.vsize then some (i, r) else none))

/-- A trigger is enabled: 0 MISS, 1 FILL, 2 EVICT, 3 MSG. -/
def HandlerRange.takes (r : HandlerRange) (kind : Nat) : Bool := bit r.enabled kind && !r.disabled

/-- A trigger joins its slice's queue of 32, or is counted when the queue is full (R248). -/
def pushTrigger (slice : Nat) (t : Trigger) (s : State) : Bool × State :=
  let l := getLantern s slice
  if 32 ≤ l.queue.length then (false, putLantern slice { l with full := l.full + 1, seq := l.seq + 1 } s)
  else (true, due [.lanternHandlerStart slice]
    (putLantern slice { l with queue := l.queue ++ [{ t with seq := l.seq }], seq := l.seq + 1 } s))

/-- A slice handles a MISS or a FILL of a line, or has one queued. -/
def lineHandled (s : State) (slice cid line : Nat) : Bool :=
  let l := getLantern s slice
  (l.running.toList ++ l.queue).any (fun t => decide (t.kind < 2) && t.cid == cid && t.va.toNat / 128 == line)

/-- The trigger of a line: its kind, range, context, requester and bytes. -/
def lineTrigger (kind range cid home va : Nat) (dirty : Bool) (data : List Byte) : Trigger :=
  { kind := kind, range := range, cid := cid, home := home, dirty := dirty, va := BitVec.ofNat 64 (va / 128 * 128),
    seq := 0, data := data }

/-- Who asks for a line: a requester with its home number waits while it cannot have the line, and raises triggers
(R247); the device's own access does neither; a port operation raises none either, EVICT included (R342). -/
inductive Asker where
  | home (n : Nat)
  | device
  | port
deriving DecidableEq, Repr

/-- The asker waits for what cannot be served now. -/
def Asker.waits : Asker → Bool
  | .home _ => true
  | _ => false

/-- A request that misses in a die's slice raises MISS there for a line of a handler range; data that arrive from the
channel raise FILL when MISS is not enabled. The requester waits while the handler has the line (R247). -/
def missTrigger (a : Asker) (die cid va : Nat) (arrives : Option Xlat) (s : State) : Bool × State :=
  let slice := dieSlice die cid va
  match a with
  | .home home =>
    if lineHandled s slice cid (va / 128) then (true, s)
    else
      (match (Sparse.find? s.contexts cid).bind (fun c => handlerRange c slice (va / 128 * 128)), arrives with
       | none, _ => (false, s)
       | some (i, r), arrives =>
         if r.takes 0 then pushTrigger slice (lineTrigger 0 i cid home va false []) s
         else
           match arrives with
           | some x =>
             if r.takes 1 then
               pushTrigger slice (lineTrigger 1 i cid home va false (Sparse.getAll 0 (freshLine s cid va x).data 0 128)) s
             else (false, s)
           | none => (false, s))
  | _ => (false, s)

/-- The page of an address changes its bias (R261): what reaches the channel for it waits. -/
def flipping (s : State) (cid va : Nat) : Bool := s.flips.any (fun f => f.cid == cid && f.page == va / 2 ^ f.bits)

/-- Fill a line that the L2 level does not hold, under its translation. A line of a page with CP = 2 is read from the
channel and not kept (R241). -/
def fillUnder (a : Asker) (die cid va : Nat) (x : Xlat) (s : State) : Except Nat L2Line × State :=
  if a.waits && flipping s cid va then (.error whyHandler, s)
  else if x.cp = 2 then
    let s := hostStores x s
    (.ok (freshLine s cid va x), readEcc (loadCode x (parityEvents (freshLine s cid va x) s)))
  else
    match missTrigger a die cid va (some x) s with
    | (true, s) => (.error whyHandler, s)
    | (false, s) => match l2FillAt s cid va x with | (l, s) => (.ok l, s)

/-- The state of a die's copy; none is I. -/
def copyAt (l : L2Line) (die : Nat) : Option DieState := Sparse.find? l.copies die

/-- Bring a line to the L2 level for an asker of a die: held already, or filled through the channel. A request that
misses in the die's slice may be handled there first (R247). -/
def l2FillFor (a : Asker) (die : Nat) (s : State) (cid va : Nat) : Except Nat L2Line × State :=
  match Sparse.find? s.l2 (lineKey cid (va / 128)) with
  | some l =>
    if (copyAt l die).isSome then (.ok l, s)
    else (match missTrigger a die cid va none s with
      | (true, s) => (.error whyHandler, s)
      | (false, s) => (.ok l, s))
  | none =>
    match translate s cid (va - va % 128) with
    | (.error e, s) => (.error e, s)
    | (.ok x, s) => fillUnder a die cid va x s

/-- The asker that a split is: its home number is that of the thread whose turn it is. -/
def turnHome (s : State) : Asker :=
  .home (match s.turn.bind (fun t => Sparse.find? s.threads t.1) with | some t => t.homenum | none => Config.noMark)

/-- The fill of a split's access on a die. -/
def l2Fill (die : Nat) (s : State) (cid va : Nat) : Except Nat L2Line × State := l2FillFor (turnHome s) die s cid va

/-- A line's attributes without a fill: from the L2 level, or from the channel. -/
def lineLook (s : State) (cid va : Nat) : Except Nat L2Line × State :=
  match Sparse.find? s.l2 (lineKey cid (va / 128)) with
  | some l => (.ok l, s)
  | none =>
    match translate s cid (va - va % 128) with
    | (.error e, s) => (.error e, s)
    | (.ok x, s) => (.ok (freshLine s cid va x), s)

/-- Whether a write of the words in `mask` covers granule `g` whole (R387). -/
def wholeGranule (mask g : Nat) : Bool := decide (bits mask (4 * g) 4 = 15)

/-- Whether a mask of the bytes of a line covers granule `g` whole (R387). -/
def wholeBytes (mask g : Nat) : Bool := decide (bits mask (32 * g) 32 = 2 ^ 32 - 1)

/-- The poison mask after the granules written whole have lost their marks (R387). -/
def clearWhole (mask poison : Nat) : Nat :=
  (List.range 4).foldl (fun p g => if wholeGranule mask g then clearBit p g else p) poison

/-- Write one dirty word of a line to HBM with its mark. -/
def hbmWord (pline i : Nat) (l : L2Line) (s : State) : State :=
  { s with mem := Memory.writeAll s.mem (pline * 128 + 8 * i) (Sparse.getAll 0 l.data (8 * i) 8),
           marks := Sparse.set 0 s.marks (pline * 16 + i)
             (if l.host then Config.noMark else Sparse.get 0 l.marks i) }

/-- Block t of a line is carried whole by a write-back. -/
def L2Line.carries (l : L2Line) (t : Nat) : Bool := decide (bits l.dirty (2 * t) 2 = 3)

/-- A write-back of a window's line writes the whole of a granule: every byte of it belongs to a block that the
write-back carries. -/
def windowWhole (w : FormatWindow) (off : Nat) (l : L2Line) (g : Nat) : Bool :=
  let n := 2 * (widthBits w.fmt + 1)
  let within (lo size b : Nat) : Bool := decide (lo ≤ b) && decide (b < lo + 8 * size) && l.carries ((b - lo) / size)
  (List.range 32).all (fun i =>
    within (w.dbase * 32 + off / 16 * n) n (32 * g + i) || within (w.sbase * 4 + 4 * (off / 16)) 4 (32 * g + i))

/-- A part of a poisoned granule is dropped: it is counted, with an event of type 17 (R387). -/
def dropPart (cid g : Nat) (s : State) : State :=
  post cid 7 (controllerOf (g / 4)) 17 0 0 (32 * g) 0 { s with monitors := { s.monitors with drops := s.monitors.drops + 1 } }

/-- Write a window's line back (R119): blocks in granules that stay poisoned are dropped, granules written whole
lose their marks, and poison that the line has received goes with its blocks (R387). -/
def windowWriteBack (w : FormatWindow) (off : Nat) (l : L2Line) (s : State) : State :=
  let dirty (t : Nat) : Bool := decide (bits l.dirty (2 * t) 2 ≠ 0)
  let bad := ((((List.range 8).filter dirty).flatMap (fun t => windowGranules w (off / 16 + t))).eraseDups).filter
    (Sparse.get false s.poison)
  let stays := bad.filter (fun g => !windowWhole w off l g)
  let s := bad.foldl (fun s g => if windowWhole w off l g then { s with poison := Sparse.set false s.poison g false } else s) s
  let s := stays.foldl (fun s g => dropPart l.cid g s) s
  let kept (t : Nat) : Bool := (windowGranules w (off / 16 + t)).all (fun g => !(Sparse.get false s.poison g))
  let s := ((List.range 8).filter kept).foldl (fun s t =>
    windowStore s w (off / 16 + t) (Sparse.getAll 0 l.data (16 * t) 16) (Sparse.get 0 l.records t)) s
  let spoiled := (List.range 8).filter (fun t => dirty t && bit l.poison (t / 2))
  (spoiled.flatMap (fun t => windowGranules w (off / 16 + t))).foldl (fun s g =>
    { s with poison := Sparse.set false s.poison g true }) s

/-- Write the dirty words of one granule of a line to HBM (R387): a part of a poisoned granule is dropped, a granule
written whole is clean, and poison that the line has received goes with it. -/
def granuleBack (pline g : Nat) (l : L2Line) (s : State) : State :=
  let old := Sparse.get false s.poison (4 * pline + g)
  if bits l.dirty (4 * g) 4 = 0 then s
  else if bit l.poison g then
    (let s := if old && decide (bits l.cover (32 * g) 32 ≠ 0) then dropPart l.cid (4 * pline + g) s else s
     { s with poison := Sparse.set false s.poison (4 * pline + g) true })
  else if old && !wholeGranule l.dirty g then dropPart l.cid (4 * pline + g) s
  else
    (List.range 4).foldl (fun s j => if bit l.dirty (4 * g + j) then hbmWord pline (4 * g + j) l s else s)
      { s with poison := Sparse.set false s.poison (4 * pline + g) false }

/-- Write a line's dirty words back to its physical line (R387). The write-back is translated now (R241); where no
translation is left it goes to the frame of the fill (log 79). While the page changes its bias it waits (R261). -/
def l2WriteBack (key : Nat) (s : State) : State :=
  match Sparse.find? s.l2 key with
  | none => s
  | some l =>
    if l.dirty = 0 || flipping s l.cid (l.line * 128) then s else
    let (x, s) := translate s l.cid (l.line * 128)
    let pline := match x with | .ok x => x.pa / 128 | .error _ => l.pline
    let s := match windowAt s (pline * 128) with
      | some (w, off) => windowWriteBack w off l s
      | none => (List.range 4).foldl (fun s g => granuleBack pline g l s) s
    let s := match x with | .ok x => storeCode x s | .error _ => s
    { s with l2 := Sparse.put s.l2 key { l with dirty := 0, cover := 0, pline := pline } }

/-! ### Speculative fences (R280) -/

/-- The speculative fence of a split has the line in its read set, and no rollback is due (R280). -/
def Spec.lost (x : Spec) (key : Nat) : Bool := x.readSet.contains key && !x.hit

/-- Speculative fences of splits on a die that have read a line it loses roll back (R280). -/
def specHit (die cid line : Nat) (s : State) : State :=
  let hits := s.threads.flatMap (fun t =>
    if t.2.kind == .crew && dieOf t.2.core == die then
      t.2.splits.filterMap (fun sp => sp.2.spec.bind (fun x => if x.lost (lineKey cid line) then some (t.1, sp.1) else none))
    else [])
  due (hits.map (fun h => .specFenceComplete h.1 h.2))
    { s with threads := hits.foldl (fun ts h => Sparse.alter ts h.1 (fun t => { t with
        splits := Sparse.alter t.splits h.2 (fun sp => { sp with spec := sp.spec.map (fun x => { x with hit := true }) }) })) s.threads }

/-- Remove a line from the L2 level of every die, writing it back first; speculative fences that have read it roll
back (R280). Words that must wait at the channel stay (R261). -/
def l2Drop (key : Nat) (s : State) : State :=
  let s := match Sparse.find? s.l2 key with
    | some l => l.copies.foldl (fun s c => specHit c.1 l.cid l.line s) s
    | none => s
  let s := l2WriteBack key s
  let waits : Bool := match Sparse.find? s.l2 key with | some l => decide (l.dirty ≠ 0) | none => false
  { s with l2 := if waits then Sparse.alter s.l2 key (fun l => { l with copies := [], owner := none, sharers := [] })
                 else Sparse.erase s.l2 key,
           revmap := s.revmap.filter (fun e => e.2 != key) }

/-! ## Shapes (R57, R254, R350) -/

/-- The byte addresses of a shape's elements along one dimension after another. -/
def shapeAddrs (base : Nat) : List (Nat × Nat) → List Nat
  | [] => [base]
  | (n, st) :: dims => (List.range n).flatMap (fun i => shapeAddrs (base + i * st) dims)

/-- Bytes of an element code (R351). -/
def elemBytes (e : Nat) : Nat :=
  match e with
  | 0 | 1 | 2 => 4
  | 3 | 4 | 5 | 6 => 2
  | 9 | 10 => 8
  | _ => 1

/-- Extents and strides, innermost dimension last, so that `shapeAddrs` counts dimension 0 fastest. -/
def Shape.dims (sh : Shape) : List (Nat × Nat) :=
  ((sh.ext.zip (sh.stride.map BitVec.toNat)).take sh.rank).reverse

/-- The addresses of a shape's elements in linear order, dimension 0 fastest (R350). -/
def Shape.addrs (sh : Shape) : List Nat :=
  (shapeAddrs sh.base.toNat sh.dims).map (· % 2 ^ 64)

/-- The number of elements of a shape. -/
def Shape.count (sh : Shape) : Nat := (sh.ext.take sh.rank).foldl (· * ·) 1

/-- The lines a tile covers (R254). -/
def Shape.lines (sh : Shape) : List Nat :=
  (sh.addrs.flatMap (fun a => [a / 128, (a + elemBytes sh.elem - 1) / 128])).eraseDups

/-! ## Coherence between dies (R249 to R251) -/

/-- Change a line's record. -/
def modLine (key : Nat) (f : L2Line → L2Line) (s : State) : State :=
  { s with l2 := Sparse.alter s.l2 key f }

/-- Set a die's copy. -/
def setCopy (die : Nat) (st : DieState) (l : L2Line) : L2Line := { l with copies := Sparse.put l.copies die st }

/-- A die's copy becomes I. -/
def dropCopy (die : Nat) (l : L2Line) : L2Line := { l with copies := Sparse.erase l.copies die }

/-- A die loses its copy: a host-bias line leaves its reverse map (R260). -/
def loseCopy (die key : Nat) (s : State) : State :=
  let s := modLine key (dropCopy die) s
  { s with revmap := s.revmap.filter (fun e => e != (die, key)) }

/-- The dies whose copy is valid or on its way. -/
def L2Line.holders (l : L2Line) : List Nat := l.copies.map Prod.fst

/-- The number of the host among the sharers (R251). -/
def hostDie : Nat := 4

/-- A die's copy is dirty: it is the one that answers for words not yet in memory. -/
def L2Line.dirtyAt (l : L2Line) (die : Nat) : Bool :=
  decide (l.dirty ≠ 0) && (match copyAt l die with | some .m | some .o | some .miA => true | _ => false)

/-- Send a coherence message. -/
def send (i : Instr) (s : State) : State := { s with msgs := s.msgs ++ [i] }

/-! ### The host's accesses to device memory (R260, R313, R323, R421) -/

/-- Bytes are returned to the host. -/
def answer (xs : List Byte) (s : State) : State := { s with reply := xs, replyErr := false }

/-- An access of the host is completed with an error. -/
def answerErr (s : State) : State := { s with reply := [], replyErr := true }

/-- The backings of a shadow region that hold a physical address, with the active one's address (R322). -/
def shadowBacking (s : State) (pa : Nat) : Option Nat :=
  s.contexts.findSome? (fun kc => (List.range 64).findSome? (fun r =>
    match shadowEntry s kc.2 r with
    | (vb, size, p0, p1) =>
      let active := if Sparse.get false kc.2.selector r then p1 else p0
      if vb = 0 then none
      else if p0 ≤ pa ∧ pa < p0 + size then some (active + (pa - p0))
      else if p1 ≤ pa ∧ pa < p1 + size then some (active + (pa - p1))
      else none))

/-- A device-scope access of the host meets a line's copies: a read leaves them shared; a write ends them, but for those
on their way. -/
def hostMeets (write : Bool) (key : Nat) (s : State) : State :=
  if write then
    let valid (st : DieState) : Bool := st == .s || st == .e || st == .o || st == .m
    let s : State := match Sparse.find? s.l2 key with
      | some l => (l.copies.filter (fun c => valid c.2)).foldl (fun s c => specHit c.1 l.cid l.line s) s
      | none => s
    modLine key (fun (l : L2Line) =>
      { l with owner := none, sharers := []
               copies := (l.copies.filter (fun c => !valid c.2)).map (fun c => (c.1, if c.2 = .smA then .imD else c.2)) })
      (l2WriteBack key { s with revmap := s.revmap.filter (fun e => e.2 != key) })
  else modLine key (fun l => { l with
      owner := if (l.owner.bind (copyAt l)) = some .e then none else l.owner
      sharers := if (l.owner.bind (copyAt l)) = some .e then (l.owner.toList ++ l.sharers).eraseDups else l.sharers
      copies := l.copies.map (fun c => (c.1,
        match c.2 with
        | .e => .s
        | .m => .o
        | x => x)) }) s

/-- The access meets every line of its physical line. -/
def hostLines (pline : Nat) (write : Bool) (s : State) : State :=
  (linesOf s pline).foldl (fun s kl => hostMeets write kl.1 s) s

/-- A part of a poisoned granule that the host writes is dropped (R387): counted, with an event of type 17. The host's
write has no context of its own: the event goes to partition 63 with CID 0xFFFF (DESIGN CHOICE, log 102). -/
def dropHostPart (g : Nat) (s : State) : State :=
  postTo 63 { seq := 0, flg := 0, skind := 7, sidx := controllerOf (g / 4), type := 17, cid := 0xFFFF, launch := 0, who := 0,
              arg0 := 32 * g, arg1 := 0 } { s with monitors := { s.monitors with drops := s.monitors.drops + 1 } }

/-- Write the part of some bytes that lies in one granule: a poisoned granule takes only a write of the whole
(R387). -/
def granuleWrite (g lo : Nat) (xs : List Byte) (s : State) : State :=
  let part := ((List.range xs.length).zip xs).filter (fun p => decide ((lo + p.1) / 32 = g))
  if part.isEmpty then s
  else if Sparse.get false s.poison g && decide (part.length < 32) then dropHostPart g s
  else physWrite { s with poison := Sparse.set false s.poison g false } (lo + (part.headD (0, 0)).1) (part.map Prod.snd)

/-- An access of the host performs: the active backing serves a read of a shadow region, and a write there has no effect
and is completed with an error (R313, R323); a write carries mark 511 (R305). -/
def hostPerform (o : HostOp) (s : State) : State :=
  match o with
  | .read pa n =>
    let pa := (shadowBacking s pa).getD pa
    answer ((List.range n).map (fun i => physByte s (pa + i))) (hostLines (pa / 128) false s)
  | .write pa xs =>
    if (shadowBacking s pa).isSome then answerErr s
    else
      let s := hostLines (pa / 128) true s
      recode (pa / 128) ((List.range (xs.length / 32 + 2)).foldl (fun s i => granuleWrite (pa / 32 + i) pa xs s) (answer [] s))

/-! ### The home (R249, R251)

The home slice keeps the directory: the owner and the sharers that it has recorded. -/

/-- A request that the home serves as an upgrade: the home still records the die as a sharer or the owner. -/
def L2Line.upgrades (l : L2Line) (r : HomeReq) : Bool :=
  decide (r.kind = .upg) && (l.sharers.contains r.die || decide (l.owner = some r.die))

/-- The recorded owner that a request concerns. -/
def L2Line.ownerFor (l : L2Line) (r : HomeReq) : Option Nat :=
  match l.owner with
  | none => none
  | some o => if r.kind = .access || o = r.die || (!r.only.isEmpty && !r.only.contains o) then none else some o

/-- The recorded sharers whose copies a request ends. -/
def L2Line.sharersFor (l : L2Line) (r : HomeReq) : List Nat :=
  match r.kind with
  | .reqS | .snoopS | .access => []
  | _ => l.sharers.filter (fun d => d != r.die && (r.only.isEmpty || r.only.contains d) && some d != l.ownerFor r)

/-- The message to the owner: a forward, or a recall where the requester has the data or wants none. -/
def toOwner (r : HomeReq) (upgrade : Bool) (o cid line : Nat) : Instr :=
  match r.kind with
  | .reqS | .snoopS => .fwds o cid line r.die
  | .recall => .recall o cid line
  | _ => if upgrade then .recall o cid line else .fwdm o cid line r.die

/-- The directory once a request has been served. -/
def L2Line.served (l : L2Line) (r : HomeReq) (ex : Bool) : L2Line :=
  let gone := l.sharersFor r ++ (l.ownerFor r).toList
  match r.kind with
  | .reqS | .snoopS =>
    -- an owner that stays in O remains the owner; one that was in E is a sharer from now on
    let same : Bool := match l.ownerFor r with | some o => decide (copyAt l o = some .o) | none => true
    let sharers := (r.die :: (if same then [] else l.owner.toList) ++ l.sharers).eraseDups
    if ex then { l with owner := some r.die, sharers := [] }
    else { l with owner := if same then l.owner else none, sharers := sharers }
  | .access => l
  | .recall =>
    { l with owner := if (l.ownerFor r).isSome then none else l.owner, sharers := l.sharers.filter (fun d => !gone.contains d) }
  | .reqM | .upg | .snoopM => { l with owner := some r.die, sharers := [] }

/-- What the home sends to end a request: nothing after a recall, the data unless the owner has sent them. -/
def endReply (cid line : Nat) (r : HomeReq) (upgrade forwarded ex : Bool) (s : State) : State :=
  match r.kind with
  | .recall | .access => s
  | .reqS | .snoopS => if forwarded then s else send (.data r.die cid line (if ex then .exclusive else .shared)) s
  | _ => if upgrade then send (.upgack r.die cid line) s else if forwarded then s else send (.data r.die cid line .owned) s

/-- A request ends: the reply, and the directory. -/
def endReq (cid line : Nat) (r : HomeReq) (upgrade forwarded ex : Bool) (s : State) : State :=
  modLine (lineKey cid line) (fun l => { l.served r ex with txn := none }) (endReply cid line r upgrade forwarded ex s)

/-- The home starts to serve a request: a message to the owner, Inv to sharers, or an answer at once. An access of the
host has its turn: it performs before the home serves another request (R249, R260). -/
def homeServe (cid line : Nat) (r : HomeReq) (s : State) : State :=
  let key := lineKey cid line
  match Sparse.find? s.l2 key with
  | none => s
  | some l =>
    if r.kind = .access then (match r.op with | some o => hostPerform o s | none => s)
    else
    let upgrade := l.upgrades r
    let owner := l.ownerFor r
    let shar := l.sharersFor r
    if owner.isNone && shar.isEmpty then
      endReq cid line r upgrade false
        (decide (r.kind = .reqS) && l.owner.isNone && l.sharers.all (fun d => d == r.die)) s
    else
      let s := modLine key (fun l => { l with txn := some { req := r, upgrade := upgrade, awaiting := owner.toList ++ shar,
                                                            forwarded := owner.isSome && !upgrade && decide (r.kind ≠ .recall),
                                                            absorbed := false } }) s
      let s := match owner with | some o => send (toOwner r upgrade o cid line) s | none => s
      shar.foldl (fun s d => send (.inv d cid line) s) s

/-- The place of a request among those that wait: by arrival, and in one cycle by lower die, the host last (R249). -/
def queueReq (r : HomeReq) : List HomeReq → List HomeReq
  | [] => [r]
  | q :: qs => if r.at_ = q.at_ ∧ r.die < q.die then r :: q :: qs else q :: queueReq r qs

/-- A request reaches its home: served at once, or after the request being served (R249). -/
def homeRequest (cid line : Nat) (r : HomeReq) (s : State) : State :=
  match Sparse.find? s.l2 (lineKey cid line) with
  | none => s
  | some l =>
    if l.txn.isSome then modLine (lineKey cid line) (fun l => { l with queue := queueReq r l.queue }) s
    else homeServe cid line r s

/-- Serve the requests that wait, until one must wait for answers. -/
def homeNext (cid line : Nat) : Nat → State → State
  | 0, s => s
  | fuel + 1, s =>
    match Sparse.find? s.l2 (lineKey cid line) with
    | none => s
    | some l =>
      match l.txn, l.queue with
      | none, r :: q => homeNext cid line fuel (homeServe cid line r (modLine (lineKey cid line) (fun l => { l with queue := q }) s))
      | _, _ => s

/-- An answer of a die reaches the home; `taken` says that the die gave its data to the home and not to the requester
(R251). The last answer ends the request, and the next one is served. -/
def homeAnswer (die cid line : Nat) (taken : Bool) (s : State) : State :=
  let key := lineKey cid line
  match (Sparse.find? s.l2 key).bind (fun l => l.txn) with
  | none => s
  | some t =>
    let t := { t with awaiting := t.awaiting.filter (· != die), forwarded := t.forwarded && !taken }
    if t.awaiting.isEmpty then homeNext cid line 8 (endReq cid line t.req t.upgrade t.forwarded false s)
    else modLine key (fun l => { l with txn := some t }) s

/-- WB arrives at the home: its data are taken into memory; it is absorbed when it crosses a forward or a recall,
otherwise it is acknowledged (R251). -/
def homeWb (die cid line : Nat) (s : State) : State :=
  let key := lineKey cid line
  let s := l2WriteBack key s
  match Sparse.find? s.l2 key with
  | none => s
  | some l =>
    match l.txn with
    | some t =>
      if t.awaiting.contains die then modLine key (fun l => { l with txn := some { t with absorbed := true } }) s
      else send (.wback die cid line) (modLine key (fun l => { l with owner := if l.owner = some die then none else l.owner }) s)
    | none => send (.wback die cid line) (modLine key (fun l => { l with owner := if l.owner = some die then none else l.owner }) s)

/-- AlreadyWB arrives: the home serves the requester from memory and answers WBAck (R251). -/
def homeAlreadyWb (die cid line : Nat) (s : State) : State :=
  homeAnswer die cid line true (send (.wback die cid line) s)

/-! ### The dies (R250) -/

/-- The bytes of a line that the host gives up are the host's: free values. -/
def hostGives (die key : Nat) (s : State) : State :=
  if die = hostDie then
    let bs := (List.range 128).map (fun i => (Config.freeBits (s.fresh + i)).setWidth 8)
    modLine key (fun l => { l with data := Sparse.setAll 0 [] 0 bs, dirty := 65535,
                                   marks := Sparse.setAll 0 [] 0 (List.replicate 16 Config.noMark) })
      { s with fresh := s.fresh + 128 }
  else s

/-- Inv arrives at a die's copy; at a die that has dropped its copy silently it is acknowledged (log 80). -/
def dieInv (die cid line : Nat) (s : State) : State :=
  let key := lineKey cid line
  match (Sparse.find? s.l2 key).bind (fun l => copyAt l die) with
  | some .s => specHit die cid line (send (.ack die cid line) (loseCopy die key s))
  | some .smA => specHit die cid line (send (.ack die cid line) (modLine key (setCopy die .imD) s))
  | some .isD => send (.ack die cid line) (modLine key (fun l => { l with dropped := die :: l.dropped }) s)
  | _ => send (.ack die cid line) s

/-- FwdS arrives at the owner: a dirty copy stays the owner. -/
def dieFwdS (die cid line req : Nat) (s : State) : State :=
  let key := lineKey cid line
  match (Sparse.find? s.l2 key).bind (fun l => copyAt l die) with
  | some .e => send (.ack die cid line) (send (.data req cid line .shared) (modLine key (setCopy die .s) (hostGives die key s)))
  | some .m => send (.ack die cid line) (send (.data req cid line .shared) (modLine key (setCopy die .o) (hostGives die key s)))
  | some .o => send (.ack die cid line) (send (.data req cid line .shared) s)
  | some .miA => send (.alreadywb die cid line) s
  | _ => s

/-- FwdM arrives at the owner. -/
def dieFwdM (die cid line req : Nat) (s : State) : State :=
  let key := lineKey cid line
  match (Sparse.find? s.l2 key).bind (fun l => copyAt l die) with
  | some .e | some .m =>
    specHit die cid line (send (.ack die cid line)
      (send (.data req cid line .owned) (loseCopy die key (hostGives die key s))))
  | some .o =>
    specHit die cid line (send (.ack die cid line) (send (.data req cid line .owned) (loseCopy die key s)))
  | some .miA => send (.alreadywb die cid line) s
  | _ => s

/-- Recall arrives at the owner: its data reach the home. -/
def dieRecall (die cid line : Nat) (s : State) : State :=
  let key := lineKey cid line
  match (Sparse.find? s.l2 key).bind (fun l => copyAt l die) with
  | some .e | some .m =>
    specHit die cid line (send (.ack die cid line) (loseCopy die key (l2WriteBack key (hostGives die key s))))
  | some .o => specHit die cid line (send (.ack die cid line) (loseCopy die key (l2WriteBack key s)))
  | some .miA => send (.alreadywb die cid line) s
  | _ => s

/-- Data arrive at the requester. -/
def dieData (die cid line : Nat) (g : Grant) (s : State) : State :=
  let key := lineKey cid line
  match Sparse.find? s.l2 key with
  | none => s
  | some l =>
    match copyAt l die with
    | some .isD =>
      if l.dropped.contains die then
        loseCopy die key (modLine key (fun l => { l with dropped := l.dropped.filter (· != die) }) s)
      else modLine key (setCopy die (if g = .exclusive then .e else .s)) s
    | some .imD =>
      -- a copy filled again is the latest fill of the reverse map (R260)
      let back := s.revmap.filter (fun e => e == (die, key))
      modLine key (setCopy die .m) { s with revmap := s.revmap.filter (fun e => e != (die, key)) ++ back }
    | _ => s

/-- UpgAck arrives: the write is applied. -/
def dieUpgAck (die cid line : Nat) (s : State) : State :=
  match (Sparse.find? s.l2 (lineKey cid line)).bind (fun l => copyAt l die) with
  | some .smA => modLine (lineKey cid line) (setCopy die .m) s
  | _ => s

/-- A line that no die holds any longer, and no request waits for, leaves the L2 level; while its page changes its bias,
with words to write back, it stays (R261). -/
def settle (key : Nat) (s : State) : State :=
  match Sparse.find? s.l2 key with
  | some l => if l.copies.isEmpty && l.txn.isNone && l.queue.isEmpty then l2Drop key s else s
  | none => s

/-- WBAck arrives: the copy becomes I. -/
def dieWbAck (die cid line : Nat) (s : State) : State :=
  let key := lineKey cid line
  match (Sparse.find? s.l2 key).bind (fun l => copyAt l die) with
  | some .miA => settle key (loseCopy die key s)
  | _ => s

/-! ### Messages (R249, R250, R258) -/

/-- A matrix pass of a die reads a line (R258): a plane load that runs, from a shape in memory, or that a fault has
stopped and that starts again (R344). -/
def passReads (s : State) (die cid line : Nat) : Bool :=
  s.cores.any (fun kc => dieOf kc.1 == die && kc.2.ops.any (fun o => (o.running || o.done == 1) && (match o.kind with
    | .load _ (some sh) _ =>
      sh.lines.contains line && (match kc.2.mseq.tid.bind (Sparse.find? s.threads) with
        | some t => (match Sparse.find? s.launches t.launch with | some l => l.record.cid == cid | none => false)
        | none => false)
    | _ => false)))

/-- The home recalls a line: the Inv that its sharers get are recalls of their copies (R256, R257). -/
def recalling (s : State) (cid line : Nat) : Bool :=
  match (Sparse.find? s.l2 (lineKey cid line)).bind L2Line.txn with
  | some t => decide (t.req.kind = .recall)
  | none => false

/-- A recall of a line waits at a die that still reads it. -/
def recallPending (s : State) (die cid line : Nat) : Bool :=
  s.msgs.contains (.recall die cid line) || (s.msgs.contains (.inv die cid line) && recalling s cid line)

/-- A message can take effect: the die's copy is in a state that R250 lists for it, and no pass holds a recall. -/
def msgReady (s : State) (i : Instr) : Bool :=
  let at_ (die cid line : Nat) : Option DieState := (Sparse.find? s.l2 (lineKey cid line)).bind (fun l => copyAt l die)
  match i with
  | .inv d c l => (match at_ d c l with
      | some .s => !(recalling s c l && passReads s d c l)
      | some .smA | some .isD | none => true
      | _ => false)
  | .fwds d c l _ | .fwdm d c l _ => (match at_ d c l with | some .e | some .m | some .o | some .miA => true | _ => false)
  | .recall d c l => (match at_ d c l with
      | some .e | some .m | some .o => !passReads s d c l
      | some .miA => true
      | _ => false)
  | .data d c l _ => (match at_ d c l with | some .isD | some .imD => true | _ => false)
  | .upgack d c l => decide (at_ d c l = some .smA)
  | .wback d c l => decide (at_ d c l = some .miA)
  | .wb _ c l => !flipping s c (l * 128)
  | _ => true

/-- The die and the unit of a message, and its way: 0 to the home, 1 from the home, 2 data. Messages of one way keep
their order. -/
def msgWay : Instr → Nat × Nat × Nat × Nat
  | .reqs d c l | .reqm d c l | .upg d c l | .wb d c l | .ack d c l | .alreadywb d c l => (d, c, l, 0)
  | .inv d c l | .fwds d c l _ | .fwdm d c l _ | .recall d c l | .upgack d c l | .wback d c l => (d, c, l, 1)
  | .data d c l _ => (d, c, l, 2)
  | _ => (0, 0, 0, 0)

/-- The first message that can take effect, and those that stay. -/
def pickMsg (s : State) : List Instr → List Instr → Option (Instr × List Instr)
  | _, [] => none
  | seen, i :: is =>
    if msgReady s i && !(seen.any (fun j => msgWay j == msgWay i)) then some (i, seen ++ is)
    else pickMsg s (seen ++ [i]) is

/-- A request of a die. -/
def dieReq (die : Nat) (kind : HomeKind) (s : State) : HomeReq :=
  { die := die, kind := kind, at_ := s.chiptime, only := [], op := none }

/-- One coherence message takes effect. -/
def handleMsg : Instr → State → State
  | .reqs d c l, s => homeRequest c l (dieReq d .reqS s) s
  | .reqm d c l, s => homeRequest c l (dieReq d .reqM s) s
  | .upg d c l, s => homeRequest c l (dieReq d .upg s) s
  | .inv d c l, s => dieInv d c l s
  | .fwds d c l r, s => dieFwdS d c l r s
  | .fwdm d c l r, s => dieFwdM d c l r s
  | .recall d c l, s => dieRecall d c l s
  | .data d c l g, s => dieData d c l g s
  | .ack d c l, s => homeAnswer d c l false s
  | .upgack d c l, s => dieUpgAck d c l s
  | .wb d c l, s => homeWb d c l s
  | .wback d c l, s => dieWbAck d c l s
  | .alreadywb d c l, s => homeAlreadyWb d c l s
  | _, s => s

/-- The splits that wait for a line, or for a way of its set. -/
def lineWaiters (s : State) (cid line : Nat) : List Instr :=
  s.threads.flatMap (fun kt => kt.2.splits.filterMap (fun ks =>
    match Option.map Wait.obj ks.2.wait with
    | some (.line c l _) => if l2Set c (l * 128) = l2Set cid (line * 128) then some (.waiterRelease kt.1 ks.1) else none
    | _ => none))

/-- The copy commands that may have stopped at a line (R257, R373): each goes on, or stops there again. -/
def lineCopies (s : State) : List Instr :=
  s.clusters.filterMap (fun kc => match kc.2.copyq with
    | c :: _ => if c.started && !c.moved && c.why.isNone then some (.copyCommandStart kc.1) else none
    | [] => none)

/-- Messages take effect in the order sent (R249), those that must wait excepted; what waits for their lines is
examined. -/
def drainMsgs : Nat → State → State
  | 0, s => s
  | fuel + 1, s =>
    match pickMsg s [] s.msgs with
    | none => s
    | some (i, rest) =>
      let s := handleMsg i { s with msgs := rest }
      let w := msgWay i
      drainMsgs fuel (due (lineWaiters s w.2.1 w.2.2.1 ++ lineCopies s) s)

/-- Messages take effect until a condition holds. -/
def drainUntil (stop : State → Bool) : Nat → State → State
  | 0, s => s
  | fuel + 1, s =>
    if stop s then s
    else
      match pickMsg s [] s.msgs with
      | none => s
      | some (i, rest) =>
        let s := handleMsg i { s with msgs := rest }
        let w := msgWay i
        drainUntil stop fuel (due (lineWaiters s w.2.1 w.2.2.1) s)

/-- A message is sent, and what it brings about takes effect. -/
def deliver (i : Instr) (s : State) : State := drainMsgs 64 (send i s)

/-! ### Evictions (R235, R237, R247, R260) -/

/-- The EVICT trigger of a victim line of a die's slice, if its range takes one (R247). -/
def evictTrigger (die cid line : Nat) (s : State) : Bool × State :=
  match Sparse.find? s.l2 (lineKey cid line) with
  | none => (false, s)
  | some l =>
    let slice := dieSlice die cid (line * 128)
    match (Sparse.find? s.contexts cid).bind (fun c => handlerRange c slice (line * 128)) with
    | none => (false, s)
    | some (i, r) =>
      if r.takes 2 then
        pushTrigger slice (lineTrigger 2 i cid Config.noMark (line * 128) (l.dirtyAt die) (Sparse.getAll 0 l.data 0 128)) s
      else (false, s)

/-- A die's line is pinned there (R237). -/
def isPinned (s : State) (die cid line : Nat) : Bool :=
  s.pins.any (fun kp => kp.1 / 64 == die && kp.2.cid == cid && kp.2.lines.contains line)

/-- A die evicts its copy (R250): a shared one without a message, a pinned one never, another by a WB to the home.
A handler may have the victim first, but for a port operation (R247, R342); speculative fences that have read it roll
back (R280). -/
def evictFor (a : Asker) (die cid line : Nat) (s : State) : State :=
  let key := lineKey cid line
  let trigger (s : State) : Bool × State := if a = .port then (false, s) else evictTrigger die cid line s
  if isPinned s die cid line then s
  else
    match (Sparse.find? s.l2 key).bind (fun l => copyAt l die) with
    | some .s => settle key (specHit die cid line (loseCopy die key (trigger s).2))
    | some .e | some .m | some .o =>
      (match trigger (specHit die cid line (modLine key (setCopy die .miA) s)) with
       | (true, s) => s
       | (false, s) => deliver (.wb die cid line) s)
    | some .miA => deliver (.wb die cid line) s
    | _ => s

/-- An eviction that no port operation asks for. -/
def evictCopy (die cid line : Nat) (s : State) : State := evictFor .device die cid line s

/-- The ways of a set of a die that may hold lines: the stash ways hold none (R238). -/
def lineWays (s : State) (die : Nat) : Nat := Config.l2Ways - Sparse.get 0 s.stashWays die

/-- The lines of a set that a die holds. -/
def setLines (s : State) (die : Nat) (set : Nat × Nat) : List (Nat × Nat) :=
  (s.l2.filter (fun kl => (match copyAt kl.2 die with | none | some .miA => false | _ => true) &&
    l2Set kl.2.cid (kl.2.line * 128) == set)).map (fun kl => (kl.2.cid, kl.2.line))

/-- The lines of a set that may be chosen as victims: none that is pinned or in between states. -/
def victims (s : State) (die : Nat) (set : Nat × Nat) : List (Nat × Nat) :=
  (setLines s die set).filter (fun k => !isPinned s die k.1 k.2 &&
    (match (Sparse.find? s.l2 (lineKey k.1 k.2)).bind (fun l => copyAt l die) with
     | some .s | some .e | some .o | some .m => true
     | _ => false))

/-- The pinned lines of a die, each once. -/
def pinnedLines (s : State) (die : Nat) : List (Nat × Nat) :=
  ((s.pins.filter (fun kp => kp.1 / 64 == die)).flatMap (fun kp => kp.2.lines.map (fun l => (kp.2.cid, l)))).eraseDups

/-- The ways of a line's set that others take: lines held, and the reserved ways of pinned lines (R284). -/
def takenWays (s : State) (die cid line : Nat) : List (Nat × Nat) :=
  ((setLines s die (l2Set cid (line * 128)) ++
    (pinnedLines s die).filter (fun k => l2Set k.1 (k.2 * 128) == l2Set cid (line * 128))).eraseDups).filter (· != (cid, line))

/-- A way of a die's set is free for a line (R235). -/
def wayFree (s : State) (die cid line : Nat) : Bool := decide ((takenWays s die cid line).length < lineWays s die)

/-- A way for a line: a full set evicts a line first (R235); which one is not said (a free number, log 8). -/
def makeWay (a : Asker) (die cid line : Nat) (s : State) : State :=
  let set := l2Set cid (line * 128)
  if wayFree s die cid line then s
  else
    match victims s die set with
    | [] => s
    | k :: ks =>
      let (n, s) := freeNat s
      let v := (k :: ks).getD (n % (ks.length + 1)) k
      evictFor a die v.1 v.2 s

/-- A host-bias line enters a die's reverse map; a full one first evicts the line filled longest ago that is not
pinned, which is written back to the host (R260). -/
def enterReverse (a : Asker) (die key : Nat) (s : State) : State :=
  let mine := s.revmap.filter (fun e => e.1 == die)
  let s := if mine.length < Config.reverseEntries then s
    else
      match mine.find? (fun e => match Sparse.find? s.l2 e.2 with | some l => !isPinned s die l.cid l.line | none => true) with
      | some e =>
        let s := match Sparse.find? s.l2 e.2 with | some l => evictFor a die l.cid l.line s | none => s
        { s with revmap := s.revmap.filter (fun x => x != e) }
      | none => s
  { s with revmap := s.revmap ++ [(die, key)] }

/-! ### An access obtains a line (R250, R301) -/

/-- A die's copy serves an access; the data of a line that was not kept have served the read (R250). -/
def copyServes (s : State) (die key : Nat) (own : Bool) : Bool :=
  match Sparse.find? s.l2 key with
  | none => true
  | some l =>
    match copyAt l die with
    | some .m => true
    | some .e | some .s | some .o => !own
    | none => !own
    | _ => false

/-- A die obtains a line for reading or writing: the requests, forwards and answers run until its access is served, or
must wait. Where no way of its set can be had it gets no copy (log 8). -/
def obtainFor (a : Asker) (die key : Nat) (own : Bool) (s : State) : State :=
  match Sparse.find? s.l2 key with
  | none => s
  | some l =>
    let run (i : Instr) (s : State) : State := drainUntil (fun s => copyServes s die key own) 64 (send i s)
    match copyAt l die, own with
    | some .e, true => modLine key (setCopy die .m) s
    | some .s, true | some .o, true => run (.upg die l.cid l.line) (modLine key (setCopy die .smA) s)
    | none, _ =>
      let s := makeWay a die l.cid l.line s
      if !wayFree s die l.cid l.line then s
      else
      let s := if l.host && !(s.revmap.contains (die, key)) then enterReverse a die key s else s
      if own then run (.reqm die l.cid l.line) (modLine key (setCopy die .imD) s)
      else run (.reqs die l.cid l.line) (modLine key (setCopy die .isD) s)
    | _, _ => s

/-- A die obtains a line for the device's own access. -/
def obtain (die key : Nat) (own : Bool) (s : State) : State := obtainFor .device die key own s

/-! ## Tile tenure of an access (R254 to R257) -/

/-- Dissolve a tile at its 64th carve-out (R257): every remaining covered line is demoted, with an event. -/
def dissolve (key : Nat) (t : Tile) (s : State) : State :=
  post t.cid 2 (key / 4096) 10 0 0 (t.shape.base.toNat) 0
    { s with tiles := Sparse.put s.tiles key { t with
        demoted := (t.demoted ++ t.shape.lines.filter (fun l => !(t.carved.contains l))).eraseDups } }

/-- The home recalls a line's copies from some dies, for a die that asks (R256, R257). -/
def recallFrom (die cid line : Nat) (only : List Nat) (s : State) : State :=
  drainMsgs 64 (homeRequest cid line { die := die, kind := .recall, at_ := s.chiptime, only := only, op := none } s)

/-- The dies whose tenure on a tile conflicts with a die's access (R257). -/
def Tile.against (t : Tile) (die : Nat) (write : Bool) : List Nat :=
  (t.tenure.filter (fun dt => dt.1 != die && (dt.2 == 2 || write))).map Prod.fst

/-- A plain access by a die carves a line out of every tile on which another die holds conflicting
tenure (R257): the line is recalled from that die alone. -/
def carve (die cid line : Nat) (write : Bool) (s : State) : State :=
  s.tiles.foldl (fun s kt =>
    match Sparse.find? s.tiles kt.1 with
    | none => s
    | some t =>
      let others := t.against die write
      if t.isOpen && t.cid == cid && !others.isEmpty && t.shape.lines.contains line && !(t.demoted.contains line)
          && !(t.carved.contains line) then
        let s := recallFrom die cid line others s
        let t := { t with carved := line :: t.carved, carves := t.carves + 1 }
        if t.carves = Config.carveLimit then dissolve kt.1 t s
        else { s with tiles := Sparse.put s.tiles kt.1 t }
      else s) s

/-- A pin window's range holds a byte of a line. -/
def Pin.covers (p : Pin) (line : Nat) : Bool := (line + 2 ^ 57 - p.base / 128) % 2 ^ 57 ≤ (p.base % 128 + p.size - 1) / 128

/-- An access on a die reloads the fade counter of the die's pin windows whose range holds the line (R237). -/
def touchPins (die cid line : Nat) (s : State) : State :=
  { s with pins := s.pins.map (fun kp =>
      if kp.1 / 64 == die && kp.2.cid == cid && kp.2.covers line then
        (kp.1, { kp.2 with fade := kp.2.load, touched := true }) else kp) }

/-! ## Reads and writes at the L2 level -/

/-- Data read, with whether any byte lies in a poisoned granule. -/
structure Got where
  bytes  : List Byte
  poison : Bool
deriving DecidableEq, Repr

/-- Bytes [off, off + n) of a line. -/
def lineGot (data : Sparse Byte) (poison off n : Nat) : Got :=
  { bytes := Sparse.getAll 0 data off n,
    poison := (List.range 4).any (fun g => bit poison g && decide (off < 32 * g + 32) && decide (32 * g < off + n)) }

/-- The poison marks that readers of a cluster's line meet: a granule rewritten whole in the line is met no more (R387). -/
def CLine.bad (l : CLine) : Nat := clearWhole l.written l.poison

/-- The obtaining of a line by a die, with what an access to it brings about. -/
def l2Touch (a : Asker) (die cid line : Nat) (own : Bool) (s : State) : State :=
  touchPins die cid line (obtainFor a die (lineKey cid line) own (carve die cid line own s))

/-- Read at the L2 level on a die for a requester (R301): a requester waits while its die cannot serve it. -/
def l2ReadFor (a : Asker) (die cid va n : Nat) (s : State) : Except Nat Got × State :=
  match l2FillFor a die s cid va with
  | (.error e, s) => (.error e, s)
  | (.ok l, s) =>
    if l.cp = 2 then (.ok (lineGot l.data l.poison (va % 128) n), touchPins die cid (va / 128) (carve die cid (va / 128) false s))
    else
      let s := l2Touch a die cid (va / 128) false s
      let l := (Sparse.find? s.l2 (lineKey cid (va / 128))).getD l
      if a.waits && !(copyServes s die (lineKey cid (va / 128)) false) then (.error whyHandler, s)
      else (.ok (lineGot l.data l.poison (va % 128) n), settle (lineKey cid (va / 128)) (drainMsgs 64 s))

/-- A split's read at the L2 level, and a read of the device's own that raises no trigger. -/
def l2Read (die cid va n : Nat) (s : State) : Except Nat Got × State := l2ReadFor (turnHome s) die cid va n s
def l2ReadRaw (die cid va n : Nat) (s : State) : Except Nat Got × State := l2ReadFor .device die cid va n s

/-- How a write meets a writer mark (R305): a plain store of a home number, a plain write-back with
the mark the word carries, or a write that ignores and clears the mark. -/
inductive MarkMode where
  | plain (home : Nat)
  | clear
  | force (home : Nat)
deriving DecidableEq, Repr

/-- The mark after a write, or none when the write is discarded (R305). Marks of 511 and above are no
mark (R236). -/
def markAfter (old : Nat) : MarkMode → Option Nat
  | .plain h => if old < Config.noMark ∧ h < old then none else some h
  | .clear => some Config.noMark
  | .force h => some h

/-- Write bytes into a map of a line's bytes, if the word's mark lets them. -/
def markedWrite (data : Sparse Byte) (marks : Sparse Nat) (win : Bool) (off : Nat) (xs : List Byte)
    (mode : MarkMode) : Option (Sparse Byte × Sparse Nat) :=
  if win then some (Sparse.setAll 0 data off xs, marks)
  else
    match markAfter (Sparse.get 0 marks (off / 8)) mode with
    | none => none
    | some m => some (Sparse.setAll 0 data off xs, Sparse.set 0 marks (off / 8) m)

/-- Poison of a granule ends once all its bytes have been written since it came (R387, log 11); `n` bytes of one word
have been. -/
def L2Line.written (l : L2Line) (off n : Nat) : L2Line :=
  let cover := setBits l.cover off n
  let g := off / 32
  if wholeBytes cover g then { l with cover := cover - (2 ^ 32 - 1) * 2 ^ (32 * g), poison := clearBit l.poison g }
  else { l with cover := cover }

/-- Apply a write that lies in one aligned 8-byte word to a line of the L2 level. -/
def lineWrite (off : Nat) (xs : List Byte) (mode : MarkMode) (l : L2Line) : L2Line :=
  match markedWrite l.data l.marks l.win off xs mode with
  | none => l
  | some (d, m) =>
    L2Line.written { l with data := d, marks := m, dirty := setBit l.dirty (off / 8) } off xs.length

/-- Split a write into the parts that lie in one aligned 8-byte word each. -/
def wordParts (off : Nat) (xs : List Byte) : List (Nat × List Byte) :=
  if xs.length ≤ 8 then [(off, xs)] else [(off, xs.take 8), (off + 8, xs.drop 8)]

/-- Bytes are written into a line of the L2 level. -/
def lineWrites (off : Nat) (xs : List Byte) (mode : MarkMode) (l : L2Line) : L2Line :=
  (wordParts off xs).foldl (fun l p => lineWrite p.1 p.2 mode l) l

/-- Write at the L2 level on a die for a requester, whatever the page's W: the copy that takes the write is in E or M
(R301); a page with CP = 2 takes it at the channel (R241). -/
def l2Put (a : Asker) (die cid va : Nat) (xs : List Byte) (mode : MarkMode) (l : L2Line) (s : State) :
    Except Nat Unit × State :=
  let key := lineKey cid (va / 128)
  if l.cp = 2 then
    let s := touchPins die cid (va / 128) (carve die cid (va / 128) true s)
    (.ok (), l2Drop key { s with l2 := Sparse.put s.l2 key (lineWrites (va % 128) xs mode l) })
  else
    let s := l2Touch a die cid (va / 128) true s
    if a.waits && !(copyServes s die key true) then (.error whyHandler, s)
    else (.ok (), settle key (drainMsgs 64 (modLine key (lineWrites (va % 128) xs mode) s)))

/-- A line whose page has gained W since its fill takes writes from now on: the channel is asked again (R241). -/
def askW (cid va : Nat) (w : Bool) (s : State) : Except Nat Unit × State :=
  if w then (.ok (), s)
  else
    match translate s cid va with
    | (.error e, s) => (.error e, s)
    | (.ok x, s) =>
      if x.w then (.ok (), modLine (lineKey cid (va / 128)) (fun l => { l with w := true }) s) else (.error 1, s)

/-- Write at the L2 level on a die for a requester. A page without W faults. -/
def l2WriteFor (a : Asker) (die cid va : Nat) (xs : List Byte) (mode : MarkMode) (s : State) :
    Except Nat Unit × State :=
  match l2FillFor a die s cid va with
  | (.error e, s) => (.error e, s)
  | (.ok l, s) =>
    match askW cid va l.w s with
    | (.error e, s) => (.error e, s)
    | (.ok _, s) => l2Put a die cid va xs mode l s

/-- A split's write at the L2 level, and a write of the device's own that raises no trigger. -/
def l2Write (die cid va : Nat) (xs : List Byte) (mode : MarkMode) (s : State) : Except Nat Unit × State :=
  l2WriteFor (turnHome s) die cid va xs mode s
def l2WriteRaw (die cid va : Nat) (xs : List Byte) (mode : MarkMode) (s : State) : Except Nat Unit × State :=
  l2WriteFor .device die cid va xs mode s

/-- The backing of a shadow region that engine writes go to (R323): the inactive one. -/
def inactivePa (s : State) (c : Context) (va : Nat) : Option Nat :=
  (shadowRegion s c va).map (fun p => if Sparse.get false c.selector p.1 then p.2.1 else p.2.2)

/-- Write bytes of one word to the inactive backing of a shadow region (R323), through the format window that holds
it or as they are. A poisoned granule loses its mark once all its bytes have been written since the last swap
(R387). -/
def backingWrite (pa : Nat) (xs : List Byte) (s : State) : State :=
  match windowAt s (pa / 128 * 128) with
  | some (w, off) =>
    let (d, r) := windowFill s w off
    let t := pa % 128 / 16
    windowStore s w (off / 16 + t) (Sparse.getAll 0 (Sparse.setAll 0 d (pa % 128) xs) (16 * t) 16) (Sparse.get 0 r t)
  | none =>
    let s := { s with mem := Memory.writeAll s.mem pa xs, marks := Sparse.set 0 s.marks (pa / 8) Config.noMark }
    let g := pa / 32
    if !(Sparse.get false s.poison g) then s
    else
      let m := setBits (Sparse.get 0 s.rewrites g) (pa % 32) xs.length
      if wholeBytes m 0 then { s with poison := Sparse.set false s.poison g false, rewrites := Sparse.erase s.rewrites g }
      else { s with rewrites := Sparse.put s.rewrites g m }

/-- The record of the block at an address of the inactive backing. -/
def backingRecord (pa r : Nat) (s : State) : State :=
  match windowAt s (pa / 128 * 128) with
  | some (w, off) =>
    let t := pa % 128 / 16
    windowStore s w (off / 16 + t) (Sparse.getAll 0 (windowFill s w off).1 (16 * t) 16) r
  | none => s

/-- A write by the copy engine or a drain for a requester: at the L2 level with mark 511, into the inactive backing of
a SHADOW page (R305, R323); against another die's tenure it carves out the line (R373). -/
def engineWriteFor (a : Asker) (die cid va : Nat) (xs : List Byte) (s : State) : Except Nat Unit × State :=
  match Sparse.find? s.contexts cid with
  | none => (.error 0, s)
  | some c =>
    match translate s cid va with
    | (.error e, s) => (.error e, s)
    | (.ok x, s) =>
      if !x.w then (.error 1, s)
      else if x.region.isSome then
        match inactivePa s c va with
        | some pa => (.ok (), storeCode { x with pa := pa } (backingWrite pa xs (carve die cid (va / 128) true s)))
        | none => (.error 3, s)
      else l2WriteFor a die cid va xs .clear s

/-- A write of the matrix engine. -/
def engineWrite (die cid va : Nat) (xs : List Byte) (s : State) : Except Nat Unit × State :=
  engineWriteFor (.home Config.noMark) die cid va xs s

/-! ## Cluster caches (R233, R234) -/

/-- The banks of a cluster that are active in cache mode (R438). -/
def cacheBanks (s : State) (cl : Nat) : List Nat :=
  ((getCluster s cl).banks.filter (fun kb => kb.2.mode = .cache ∧ kb.2.pwr = .active)).map Prod.fst

/-- The set of a line (R233). -/
def cacheSet (cid line : Nat) : Nat := Nat.xor (line % 1024) (cid % 1024)

/-- A cluster's copy of a line. -/
def clFind (s : State) (cl cid line : Nat) : Option CLine :=
  (getCluster s cl).cache.find? (fun l => l.cid == cid && l.line == line)

/-- Change a cluster's copy of a line. -/
def clMod (cl cid line : Nat) (f : CLine → CLine) (s : State) : State :=
  modCluster cl (fun c => { c with cache := c.cache.map (fun l =>
    if l.cid == cid && l.line == line then f l else l) }) s

/-- Remove a cluster's copy of a line. -/
def clErase (cl cid line : Nat) (s : State) : State :=
  modCluster cl (fun c => { c with cache := c.cache.filter (fun l => !(l.cid == cid && l.line == line)) }) s

/-- A word of a cluster's line performs at the L2 level, as a plain write with its mark or as a release write (R305,
R306), whatever the page's W is by now (R241). Where no translation is left it goes to the frame of the fill (log 79). -/
def carryNow (w : HeldWrite) (s : State) : State :=
  let mode : MarkMode := if w.release then .clear else .plain w.mark
  match l2FillFor .device w.die s w.cid w.va with
  | (.ok k, s) => (l2Put .device w.die w.cid w.va w.bytes mode k s).2
  | (.error _, s) =>
    match Sparse.find? s.contexts w.cid with
    | some _ => physWrite s (w.pline * 128 + w.va % 128) w.bytes
    | none => s

/-- A word on its way to the L2 level; where it would reach the channel while its page changes its bias, it waits
there (R261). -/
def carry (w : HeldWrite) (s : State) : State :=
  if flipping s w.cid w.va && (Sparse.find? s.l2 (lineKey w.cid (w.va / 128))).isNone then { s with writes := s.writes ++ [w] }
  else carryNow w s

/-- The physical line of a line that a cluster holds: where the L2 level has it, or the frame of its fill. -/
def CLine.frame (s : State) (l : CLine) : Nat :=
  match Sparse.find? s.l2 (lineKey l.cid l.line) with | some k => k.pline | none => l.pline

/-- Carry one written word of a cluster's line to the L2 level; a part of a poisoned granule is dropped (R387). -/
def carryWord (die : Nat) (l : CLine) (release : Bool) (i : Nat) (s : State) : State :=
  let g := i / 4
  if bit l.poison g && !wholeGranule l.written g then
    (if i % 4 = 0 ∨ bits l.written (4 * g) (i % 4) = 0 then dropPart l.cid (4 * l.frame s + g) s else s)
  else
    carry { die := die, cid := l.cid, va := l.line * 128 + 8 * i, pline := l.pline, bytes := Sparse.getAll 0 l.data (8 * i) 8,
            release := release, mark := Sparse.get 0 l.marks i } s

/-- Write back a cluster's line (R234, R306): only the words written since its fill and not yet written back
(log 71), whole when any core has dirtied it; every dirty bit is cleared. -/
def clWriteBack (cl cid line : Nat) (release : Bool) (s : State) : State :=
  match clFind s cl cid line with
  | none => s
  | some l =>
    if l.dirty = 0 then s
    else
      let s := (List.range 16).foldl (fun s i =>
        if bit l.written i then carryWord (dieOfCluster cl) l release i s else s) s
      clMod cl cid line (fun l => { l with
        dirty := 0,
        before := 0,
        written := 0,
        poison := clearWhole l.written l.poison,
        marks := if release then (List.range 16).foldl (fun m i =>
          if bit l.written i then Sparse.set 0 m i Config.noMark else m) l.marks else l.marks }) s

/-- Write back and drop a cluster's line, as an eviction does. -/
def clEvict (cl cid line : Nat) (release : Bool) (s : State) : State :=
  clErase cl cid line (clWriteBack cl cid line release s)

/-- The victim of a full set: the least recently used line that no keep hint protects, else the least
recently used (R233). The cache lists the most recently used line first. -/
def victim (ls : List CLine) : Option CLine :=
  match (ls.filter (fun l => !l.keep)).getLast? with
  | some l => some l
  | none => ls.getLast?

/-- Make room in a line's set: at most one line per active cache bank (R233). -/
def makeRoom (cl cid line : Nat) (s : State) : State :=
  let inSet := (getCluster s cl).cache.filter (fun l => cacheSet l.cid l.line == cacheSet cid line)
  if inSet.length < (cacheBanks s cl).length then s
  else
    match victim inSet with
    | some v => clEvict cl v.cid v.line false s
    | none => s

/-- A bank whose way of the line's set is empty. -/
def freeWay (s : State) (cl cid line : Nat) : Nat :=
  let used := ((getCluster s cl).cache.filter (fun l => cacheSet l.cid l.line == cacheSet cid line)).map CLine.bank
  (((cacheBanks s cl).filter (fun b => !(used.contains b))).head?).getD 0

/-- Move a line to the head of the recency order. -/
def clTouch (cl cid line : Nat) (s : State) : State :=
  modCluster cl (fun c =>
    let hit := c.cache.filter (fun l => l.cid == cid && l.line == line)
    let rest := c.cache.filter (fun l => !(l.cid == cid && l.line == line))
    { c with cache := hit ++ rest }) s

/-- The words that have not been written since a line's fill, and the granules' poison, as the L2 level has them now. -/
def CLine.refresh (l2 : L2Line) (l : CLine) : CLine :=
  (List.range 16).foldl (fun l i =>
    if bit l.written i then l
    else { l with data := Sparse.setAll 0 l.data (8 * i) (Sparse.getAll 0 l2.data (8 * i) 8)
                  marks := Sparse.set 0 l.marks i (Sparse.get 0 l2.marks i) }) { l with stale := false, poison := l2.poison }

/-- A dirty line that an acquire found gets its unwritten words anew before it serves an access: an acquire lets no
older value be read (R234, R308, log 81). -/
def clRenew (cl cid va : Nat) (l : CLine) (s : State) : Except Nat CLine × State :=
  if !l.stale then (.ok l, s)
  else
    match l2Fill (dieOfCluster cl) s cid va with
    | (.error e, s) => (.error e, s)
    | (.ok l2, s) =>
      let s := l2Touch (turnHome s) (dieOfCluster cl) cid (va / 128) false s
      if !(copyServes s (dieOfCluster cl) (lineKey cid (va / 128)) false) then (.error whyHandler, s)
      else
        let l2 := (Sparse.find? s.l2 (lineKey cid (va / 128))).getD l2
        (.ok (l.refresh l2), clMod cl cid (va / 128) (CLine.refresh l2) s)

/-- Bring a line into the cluster cache from the L2 level, at the place its hint gives (R233). -/
def clFill (cl cid va hint : Nat) (s : State) : Except Nat CLine × State :=
  match clFind s cl cid (va / 128) with
  | some l => clRenew cl cid va l (touchPins (dieOfCluster cl) cid (va / 128) (clTouch cl cid (va / 128) s))
  | none =>
    match l2Fill (dieOfCluster cl) s cid va with
    | (.error e, s) => (.error e, s)
    | (.ok l2, s) =>
      let die := dieOfCluster cl
      let s := l2Touch (turnHome s) die cid (va / 128) false s
      if !(copyServes s die (lineKey cid (va / 128)) false) then (.error whyHandler, s)
      else
        let l2 := (Sparse.find? s.l2 (lineKey cid (va / 128))).getD l2
        let s := makeRoom cl cid (va / 128) (settle (lineKey cid (va / 128)) (drainMsgs 64 s))
        let l : CLine := { cid := cid, line := va / 128, bank := freeWay s cl cid (va / 128), pline := l2.pline, data := l2.data,
                           w := l2.w, x := l2.x, isAlias := l2.isAlias, shadow := l2.shadow, host := l2.host, win := l2.win,
                           records := l2.records, keep := decide (hint = 2), dirty := 0,
                           written := 0, marks := l2.marks, poison := l2.poison, stale := false, before := 0 }
        (.ok l, modCluster cl (fun c => { c with cache := if hint = 1 then c.cache ++ [l] else l :: c.cache }) s)

/-- The place of a plain access (R301): the cluster cache, or the L2 level for a page with CP not 0 or a
cluster without an active cache bank. -/
def atCluster (s : State) (cl cid va : Nat) : Except Nat Bool × State :=
  if (clFind s cl cid (va / 128)).isSome then (.ok true, s)
  else
    match lineLook s cid va with
    | (.error e, s) => (.error e, s)
    | (.ok l, s) => (.ok (decide (l.cp = 0) && !(cacheBanks s cl).isEmpty), s)

/-- A plain read of a core (R301). -/
def plainRead (core cid va n hint : Nat) (s : State) : Except Nat Got × State :=
  let cl := clusterOf core
  match atCluster s cl cid va with
  | (.error e, s) => (.error e, s)
  | (.ok false, s) => l2Read (dieOf core) cid va n s
  | (.ok true, s) =>
    match clFill cl cid va hint s with
    | (.error e, s) => (.error e, s)
    | (.ok l, s) => (.ok (lineGot l.data l.bad (va % 128) n), s)

/-- A write into a cluster's line: its core's dirty bit, the written word, the mark (R233, R305). -/
def clWrite (core off : Nat) (xs : List Byte) (mode : MarkMode) (l : CLine) : CLine :=
  (wordParts off xs).foldl (fun l p =>
    match markedWrite l.data l.marks l.win p.1 p.2 mode with
    | none => l
    | some (d, m) => { l with data := d, marks := m, written := setBit l.written (p.1 / 8),
                              dirty := setBit l.dirty (coreInCluster core) }) l

/-- A store that hits a cluster's line without W asks the channel again (R241); both levels hold W from then on. -/
def storeAllowed (cl cid va : Nat) (w : Bool) (s : State) : Except Nat Unit × State :=
  if w then (.ok (), s)
  else
    match askW cid va false s with
    | (.error e, s) => (.error e, s)
    | (.ok _, s) => (.ok (), clMod cl cid (va / 128) (fun l => { l with w := true }) s)

/-- A crew's write at the L2 level: a SHADOW page takes none (R323). -/
def crewL2Write (die cid va : Nat) (xs : List Byte) (mode : MarkMode) (s : State) : Except Nat Unit × State :=
  match l2Fill die s cid va with
  | (.error e, s) => (.error e, s)
  | (.ok l, s) =>
    match askW cid va l.w s with
    | (.error e, s) => (.error e, s)
    | (.ok _, s) => if l.shadow then (.error whyAccess, s) else l2Put (turnHome s) die cid va xs mode l s

/-- A plain write of a core, or a core- or cluster-scope write of the given mark mode (R301, R305). A
SHADOW page takes no store (R323). -/
def plainWrite (core cid va : Nat) (xs : List Byte) (mode : MarkMode) (hint : Nat) (s : State) :
    Except Nat Unit × State :=
  let cl := clusterOf core
  match atCluster s cl cid va with
  | (.error e, s) => (.error e, s)
  | (.ok false, s) => crewL2Write (dieOf core) cid va xs mode s
  | (.ok true, s) =>
    match clFill cl cid va hint s with
    | (.error e, s) => (.error e, s)
    | (.ok l, s) =>
      match storeAllowed cl cid va l.w s with
      | (.error e, s) => (.error e, s)
      | (.ok _, s) =>
        if l.shadow then (.error whyAccess, s)
        else (.ok (), clMod cl cid (va / 128) (clWrite core (va % 128) xs mode) s)

/-- Device- and system-scope accesses bypass the cluster cache: a copy there that any core has dirtied is
written back whole as plain writes, then invalidated; a clean one is invalidated (R276, R301). -/
def bypass (core cid va : Nat) (s : State) : State := clEvict (clusterOf core) cid (va / 128) false s

/-! ## Scope actions (R265) -/

/-- The lines of a cluster's cache that satisfy a test. -/
def clLines (s : State) (cl : Nat) (p : CLine → Bool) : List (Nat × Nat) :=
  ((getCluster s cl).cache.filter p).map (fun l => (l.cid, l.line))

/-- A release at a scope by a core: at device and system scope the lines its core has dirtied are written
back as release writes (R234, R265), and with them those that other cores dirtied before an acquire of this core at core
or cluster scope: happens-before is transitive (R308, log 100). -/
def release (core scope : Nat) (s : State) : State :=
  if scope < 2 then s
  else (clLines s (clusterOf core) (fun l => bit l.dirty (coreInCluster core) || bit l.before (coreInCluster core))).foldl
    (fun s k => clWriteBack (clusterOf core) k.1 k.2 true s) s

/-- An acquire at a scope: at device and system scope the cluster's clean lines of the context are
invalidated (R234, R265); the unwritten words of its dirty ones are fetched anew before they serve (R308, log 81). An
acquire at core or cluster scope orders what other cores have written in the cluster before what this core releases
later (R308, log 100). -/
def acquire (core cid scope : Nat) (s : State) : State :=
  if scope < 2 then modCluster (clusterOf core) (fun c =>
    { c with cache := c.cache.map (fun l =>
        if l.cid == cid && l.dirty != 0 then { l with before := setBit l.before (coreInCluster core) } else l) }) s
  else modCluster (clusterOf core) (fun c =>
    { c with cache := (c.cache.filter (fun l => !(l.cid == cid && l.dirty == 0))).map (fun l =>
        if l.cid = cid then { l with stale := true } else l) }) s

/-! ## Read-only caches -/

/-- The copy of a line in a cache of lines. -/
def roFind (ls : List RLine) (cid line : Nat) : Option RLine :=
  ls.find? (fun l => l.cid == cid && l.line == line)

/-- Put a line at the head of a read-only cache of at most `cap` lines. -/
def roPut (cap : Nat) (l : RLine) (ls : List RLine) : List RLine :=
  (l :: ls.filter (fun x => !(x.cid == l.cid && x.line == l.line))).take cap

/-- What fills a read-only cache: the cluster's copy, or the L2 level (R269, R281). -/
def roSource (core cid va : Nat) (s : State) : Except Nat RLine × State :=
  match clFind s (clusterOf core) cid (va / 128) with
  | some l =>
    (match clRenew (clusterOf core) cid va l (touchPins (dieOf core) cid (va / 128) s) with
     | (.ok l, s) => (.ok { cid := cid, line := va / 128, data := l.data, poison := l.bad }, s)
     | (.error e, s) => (.error e, s))
  | none =>
    match l2Fill (dieOf core) s cid va with
    | (.error e, s) => (.error e, s)
    | (.ok l, s) =>
      let s := if l.cp = 2 then touchPins (dieOf core) cid (va / 128) (carve (dieOf core) cid (va / 128) false s)
        else l2Touch (turnHome s) (dieOf core) cid (va / 128) false s
      if l.cp ≠ 2 ∧ !(copyServes s (dieOf core) (lineKey cid (va / 128)) false) then (.error whyHandler, s)
      else
        let l := (Sparse.find? s.l2 (lineKey cid (va / 128))).getD l
        (.ok { cid := cid, line := va / 128, data := l.data, poison := l.poison }, drainMsgs 64 s)

end Sys2Proof.Machine
end

