-- ==== Sys2Proof/Machine/Convert.lean ====
section
/-! DEFINITION. Conversions between formats (R125 to R128) and the shared-exponent formats SX2, SX4 and
SX7 (R112 to R120). -/

namespace Sys2Proof.Machine

/-! ## Codes without SX -/

/-- The integer codes of CVT: signedness and width (R125). -/
def intCode : Nat → Option (Bool × Nat)
  | 0 => some (true, 32)
  | 1 => some (false, 32)
  | 5 => some (true, 16)
  | 6 => some (false, 16)
  | 7 => some (true, 8)
  | 8 => some (false, 8)
  | 10 => some (true, 64)
  | _ => none

/-- Registers of a CVT operand (R127). -/
def codeRegs (c : Nat) : Nat := if c = 9 ∨ c = 10 then 2 else 1

/-- A narrow result as its register holds it: I16 and I8 sign-extended, the others zero-extended (R127). -/
def placeInt (signed : Bool) (b x : Nat) : Nat :=
  if b < 32 ∧ signed then wrapInt 32 (intVal true b x) else x

/-- Clamp an integer, with INV where it lies outside the range (R127). -/
def clampInv (signed : Bool) (b : Nat) (r : Int) (inexact : Bool) : Nat × Word :=
  if r < minInt signed b then (wrapInt b (minInt signed b), flagINV)
  else if maxInt signed b < r then (wrapInt b (maxInt signed b), flagINV)
  else (wrapInt b r, flagIf inexact flagNX)

/-- Float to integer (R127). -/
def floatToInt (rnd : Nat) (signed : Bool) (b : Nat) (x : FVal) : Nat × Word :=
  match x with
  | .nan _ => (0, flagINV)
  | .inf n => (wrapInt b (if n then minInt signed b else maxInt signed b), flagINV)
  | .fin n m e =>
    let (r, inexact) := roundToInt rnd n m e
    clampInv signed b r inexact

/-- Float to float (R127): NaN to the canonical NaN, infinities and zeros kept. -/
def floatToFloat (f : FloatFmt) (md : FMode) (x : FVal) : Nat × Word :=
  match x with
  | .nan _ => (f.nan, x.inv)
  | .inf n => (f.inf n, 0)
  | .fin n m e => roundFloat f md.rnd md.ftz md.ovf n m e false

/-- CVT of one value between codes that are not SX (R127), as its registers hold it. -/
def cvtValue (src dst : Nat) (md : FMode) (sat : Bool) (x : Nat) : Nat × Word :=
  match intCode src, intCode dst with
  | some (sg, b), some (sg', b') =>
    let (r, fl) := fitInt sg' sat b' (intVal sg b (x % 2 ^ b))
    (placeInt sg' b' r, fl)
  | some (sg, b), none =>
    let v := intVal sg b (x % 2 ^ b)
    roundFloat (floatFmt dst) md.rnd md.ftz md.ovf (decide (v < 0)) v.natAbs 0 false
  | none, some (sg', b') =>
    let f := floatFmt src
    let (r, fl) := floatToInt md.rnd sg' b' (decodeFloat f md.ftz (x % 2 ^ f.width))
    (placeInt sg' b' r, fl)
  | none, none =>
    let f := floatFmt src
    floatToFloat (floatFmt dst) md (decodeFloat f md.ftz (x % 2 ^ f.width))

/-! ## SX blocks -/

/-- Magnitude bits of an SX code (R112, R125). -/
def sxBits (c : Nat) : Nat := if c = 11 then 2 else if c = 12 then 4 else 7

/-- The W field of a record for w magnitude bits (R113). -/
def sxW (w : Nat) : Nat := if w = 2 then 0 else if w = 4 then 1 else 2

/-- Fields of a record (R113). -/
def recE (r : Nat) : Nat := bits r 12 8
def recQ (r j : Nat) : Nat := bits r (2 * j + 4) 2

/-- A record serves a reader that expects w bits (R115); parity alone sets SCF (R116). -/
def recOk (w r : Nat) : Bool :=
  decide (recE r ≠ 255) && decide (bits r 2 2 = sxW w) && parityOk r && decide (r < 2 ^ 20)

/-- The record of E, Q and W with its parities (R113). -/
def makeRecord (e : Nat) (q : List Nat) (w : Nat) : Nat :=
  let body := e * 4096 + ((List.range 4).foldl (fun acc j => acc + q.getD j 0 * 2 ^ (2 * j + 4)) 0) + sxW w * 4
  body + (if oddOnes (bits body 10 10) 10 then 2 else 0) + (if oddOnes (bits body 2 8) 8 then 1 else 0)

/-- The exponent of an element's unit: E − 127 − Q − (w − 1) (R112). -/
def sxUnit (w e q : Nat) : Int := (e : Int) - 127 - q - (w - 1)

/-- Element i of a block in engine form (R112, R114, R118): none is the reserved code. -/
def sxElem (w r i byte : Nat) : Option Dyadic :=
  let m := byte % 128 / 2 ^ (7 - w)
  let neg := bit byte 7
  if neg && decide (m = 0) then none
  else some ⟨if neg then -(m : Int) else m, sxUnit w (recE r) (recQ r (i / 4))⟩

/-- An element as the engine reads it (R115, R116, R122). -/
def sxEVal (w r i byte : Nat) : EVal × Word :=
  if recOk w r then
    (match sxElem w r i byte with
     | some x => (.num x, 0)
     | none => (.nan, flagINV))
  else (.nan, flagINV ||| flagIf (!parityOk r) flagSCF)

/-- Decode an element into a destination code: F32 exactly, F16 and BF16 rounded, I32 rounded and clamped
(R128). -/
def sxDecode (w dst r i byte : Nat) (md : FMode) : Nat × Word :=
  match sxEVal w r i byte with
  | (.num x, _) =>
    if dst = 0 then
      let (v, inexact) := roundToInt md.rnd (decide (x.m < 0)) x.m.natAbs x.e
      clampInv true 32 v inexact
    else roundDyadic (floatFmt dst) (if dst = 2 then { md with ftz := false } else md) false x
  | (_, fl) => (if dst = 0 then 0 else (floatFmt dst).nan, fl)

/-! ## Quantization (R120) -/

/-- A quotient x · 2^(w−1) / 2^(E−127−Q), rounded to an integer magnitude. -/
def quantRound (rnd w e q : Nat) (x : FVal) : Nat :=
  match x with
  | .fin n m ex => (roundToInt rnd n m (ex - sxUnit w e q)).1.natAbs
  | _ => 0

/-- A finite value lies below 2^k in magnitude. -/
def below (k : Int) (x : FVal) : Bool :=
  match x with
  | .fin _ m e => decide (m = 0) || decide (e + bitLen m ≤ k)
  | _ => true

/-- Shifts of the four quads: the largest that keeps every finite element below 2^(E−126−q). -/
def quantShifts (e : Nat) (xs : List FVal) : List Nat :=
  (List.range 4).map (fun j =>
    (([3, 2, 1].find? (fun (q : Nat) => ((xs.drop (4 * j)).take 4).all (below ((e : Int) - 126 - q)))).getD 0))

/-- The largest exponent floor(log2 |x|) of the finite non-zero elements. -/
def maxExp : List FVal → Option Int
  | [] => none
  | x :: xs =>
    match x, maxExp xs with
    | .fin _ m e, none => if m = 0 then none else some (e + bitLen m - 1)
    | .fin _ m e, some k => if m = 0 then some k else some (max k (e + bitLen m - 1))
    | _, r => r

/-- A quad whose rounding reached 2^w gives up one shift, again and again. -/
def quantGrid (rnd w e : Nat) (xs : List FVal) : Nat → List Nat → List Nat
  | 0, q => q
  | fuel + 1, q =>
    let full (j : Nat) : Bool := decide (0 < q.getD j 0) &&
      ((xs.drop (4 * j)).take 4).any (fun x => quantRound rnd w e (q.getD j 0) x == 2 ^ w)
    if (List.range 4).any full then
      quantGrid rnd w e xs fuel ((List.range 4).map (fun j => if full j then q.getD j 0 - 1 else q.getD j 0))
    else q

/-- E rises while an element still rounds to 2^w. -/
def quantScale (rnd w : Nat) (xs : List FVal) : Nat → Nat → Nat × List Nat
  | 0, e => (e, quantGrid rnd w e xs 16 (quantShifts e xs))
  | fuel + 1, e =>
    let q := quantGrid rnd w e xs 16 (quantShifts e xs)
    if decide (e < 254) && (List.range 16).any (fun i => quantRound rnd w e (q.getD (i / 4) 0) (xs.getD i (.inf false)) == 2 ^ w)
    then quantScale rnd w xs fuel (e + 1)
    else (e, q)

/-- The delivered sign, magnitude and flags of one element. -/
def quantElem (rnd w e q : Nat) (x : FVal) : Bool × Nat × Word :=
  match x with
  | .nan _ => (false, 0, flagINV)
  | .inf n => (n, 2 ^ w - 1, flagOF ||| flagNX)
  | .fin n m ex =>
    let r := quantRound rnd w e q x
    let big := decide (2 ^ w - 1 < r)
    let d := if big then 2 ^ w - 1 else r
    let u := sxUnit w e q
    let differs := decide (((dyOf false m ex).add ⟨-(d : Int), u⟩).m ≠ 0)
    (n && decide (d ≠ 0), d,
     flagIf big flagSATF ||| flagIf differs flagNX ||| flagIf (decide (m ≠ 0) && decide (d = 0)) flagUF)

/-- quantize: the record, the sixteen engine-form bytes, and the flags (R120). -/
def quantize (rnd w : Nat) (xs : List FVal) : Nat × List Nat × Word :=
  let start : Nat := match maxExp xs with
    | some k => (max 1 (min 254 (k + 127))).toNat
    | none => if xs.any (fun x => match x with | .inf _ => true | _ => false) then 254 else 0
  let (e, q) := quantScale rnd w xs 256 start
  let rs := (List.range 16).map (fun i => quantElem rnd w e (q.getD (i / 4) 0) (xs.getD i (.fin false 0 0)))
  (makeRecord e q w,
   rs.map (fun r => (if r.1 then 128 else 0) + r.2.1 * 2 ^ (7 - w)),
   rs.foldl (fun acc r => acc ||| r.2.2) 0)

end Sys2Proof.Machine
end

