-- ==== Sys2Proof/Machine/Elementary.lean ====
section
/-! DEFINITION. The correctly rounded functions of R77 and R78: exact where the value is exact, and
otherwise evaluated in fixed point with 640 fraction bits and rounded with a sticky bit (log 31). -/

namespace Sys2Proof.Machine

/-- Fraction bits of the fixed-point evaluation. -/
def fxBits : Nat := 640

/-- One in fixed point. -/
def fxOne : Nat := 2 ^ fxBits

/-- Σ z^(2i+1) / (2i+1) with z² given, from the term `t` = z^(2i+1): the series of atanh, or of atan with
alternating signs. -/
def oddSeries (alt : Bool) (zz : Nat) : Nat → Nat → Nat → Int
  | 0, _, _ => 0
  | n + 1, t, d =>
    let rest := oddSeries alt zz n (t * zz / fxOne) (d + 2)
    (t / d : Nat) + (if alt then -rest else rest)

/-- atanh z and atan z for 0 ≤ z ≤ 1/3. -/
def fxAtanh (z : Nat) : Int := oddSeries false (z * z / fxOne) 210 z 1
def fxAtan (z : Nat) : Int := oddSeries true (z * z / fxOne) 210 z 1

/-- ln 2 = 2 atanh(1/3), and π by Machin's formula. -/
def fxLn2 : Nat := (2 * fxAtanh (fxOne / 3)).toNat
def fxPi : Nat := (16 * fxAtan (fxOne / 5) - 4 * fxAtan (fxOne / 239)).toNat

/-- exp y for 0 ≤ y < 1: the terms y^k / k!. -/
def expTerms (y : Nat) : Nat → Nat → Nat → Nat
  | 0, _, _ => 0
  | n + 1, t, k => t + expTerms y n (t * y / fxOne / k) (k + 1)
def fxExp (y : Nat) : Nat := expTerms y 150 fxOne 1

/-- sin y for 0 ≤ y ≤ π/2: alternating terms y^(2k+1) / (2k+1)!. -/
def sinTerms (yy : Nat) : Nat → Nat → Nat → Int
  | 0, _, _ => 0
  | n + 1, t, k => (t : Int) - sinTerms yy n (t * yy / fxOne / ((k + 1) * (k + 2))) (k + 2)
def fxSin (y : Nat) : Nat := (sinTerms (y * y / fxOne) 90 y 1).toNat

/-- Round a fixed-point magnitude, known to be inexact, times 2^k. -/
def roundFx (f : FloatFmt) (md : FMode) (neg : Bool) (x : Nat) (k : Int) : Nat × Word :=
  roundFloat f md.rnd md.ftz md.ovf neg x (k - fxBits) true

/-- An exact integer result. -/
def roundExact (f : FloatFmt) (md : FMode) (x : Int) : Nat × Word := roundDyadic f md false ⟨x, 0⟩

/-- 2^x: exact for integers; beyond the widest exponents any value of the same side serves. -/
def fExp2 (f : FloatFmt) (md : FMode) (x : FVal) : Nat × Word :=
  match x with
  | .nan _ => (f.nan, x.inv)
  | .inf n => (if n then f.zero false else f.inf false, 0)
  | .fin n m e =>
    if m = 0 then roundDyadic f md false ⟨1, 0⟩
    else if 12 < e + bitLen m then
      (if n then roundFloat f md.rnd md.ftz md.ovf false (2 ^ 64) (-4096) true
       else roundFloat f md.rnd md.ftz md.ovf false (2 ^ 64) 4096 true)
    else if 0 ≤ e then
      roundFloat f md.rnd md.ftz md.ovf false 1 (if n then -((m * 2 ^ e.toNat : Nat) : Int) else ((m * 2 ^ e.toNat : Nat) : Int)) false
    else
      let k := (-e).toNat
      let v : Int := if n then -(m : Int) else m
      let whole := v / 2 ^ k
      let frac := (v % 2 ^ k).toNat
      if frac = 0 then roundFloat f md.rnd md.ftz md.ovf false 1 whole false
      else roundFx f md false (fxExp (frac * fxLn2 / 2 ^ k)) whole

/-- log2 x: exact for powers of two. -/
def fLog2 (f : FloatFmt) (md : FMode) (x : FVal) : Nat × Word :=
  match x with
  | .nan _ => (f.nan, x.inv)
  | .inf n => if n then (f.nan, flagINV) else (f.inf false, 0)
  | .fin n m e =>
    if m = 0 then (f.inf true, flagDZ)
    else if n then (f.nan, flagINV)
    else
      let k := bitLen m - 1
      let ex : Int := e + k
      if m = 2 ^ k then roundExact f md ex
      else
        let y := m * 2 ^ fxBits / 2 ^ k
        let z := (y - fxOne) * fxOne / (y + fxOne)
        let l : Int := 2 * fxAtanh z * fxOne / fxLn2
        let v : Int := ex * fxOne + l
        roundFx f md (decide (v < 0)) v.natAbs 0

/-- sin πr for a dyadic r = v / 2^k with 0 < r < 1 and r ≠ 1/2, in fixed point. -/
def fxSinPi (v k : Nat) : Nat :=
  let w := if 2 * v ≤ 2 ^ k then v else 2 ^ k - v
  fxSin (w * fxPi / 2 ^ k)

/-- sin πx (R78): exact at multiples of one half. -/
def fSinp (f : FloatFmt) (md : FMode) (x : FVal) : Nat × Word :=
  match x with
  | .nan _ => (f.nan, x.inv)
  | .inf _ => (f.nan, flagINV)
  | .fin n m e =>
    if m = 0 ∨ 0 ≤ e then (f.zero (n && decide (m ≠ 0)), 0)
    else
      let k := (-e).toNat
      let frac := m % 2 ^ k
      let odd := decide (m / 2 ^ k % 2 = 1)
      let neg := xor n odd
      if frac = 0 then (f.zero n, 0)
      else if 2 * frac = 2 ^ k then roundExact f md (if neg then -1 else 1)
      else roundFx f md neg (fxSinPi frac k) 0

/-- cos πx (R78): cos πx = sin π(x + 1/2), by symmetry in |x|. -/
def fCosp (f : FloatFmt) (md : FMode) (x : FVal) : Nat × Word :=
  match x with
  | .nan _ => (f.nan, x.inv)
  | .inf _ => (f.nan, flagINV)
  | .fin _ m e =>
    let k := if 0 ≤ e then 0 else (-e).toNat
    let whole := if 0 ≤ e then m * 2 ^ e.toNat else m / 2 ^ k
    let frac := if 0 ≤ e then 0 else m % 2 ^ k
    let odd := decide (whole % 2 = 1)
    if frac = 0 then roundExact f md (if odd then -1 else 1)
    else if 2 * frac = 2 ^ k then (f.zero false, 0)
    else if 2 * frac < 2 ^ k then
      -- cos πr = sin π(1/2 − r)
      roundFx f md odd (fxSinPi (2 ^ k - 2 * frac) (k + 1)) 0
    else roundFx f md (!odd) (fxSinPi (2 * frac - 2 ^ k) (k + 1)) 0

/-- tanh x: (e^2|x| − 1) / (e^2|x| + 1); beyond 64 the value lies just below 1. -/
def fTanh (f : FloatFmt) (md : FMode) (x : FVal) : Nat × Word :=
  match x with
  | .nan _ => (f.nan, x.inv)
  | .inf n => (roundExact f md (if n then -1 else 1))
  | .fin n m e =>
    if m = 0 then (f.zero n, 0)
    else if 6 < e + bitLen m then roundFx f md n (fxOne - 1) 0
    else
      let u := shiftInt (2 * m) (e + fxBits)
      let k := u / fxLn2
      let ex := fxExp (u % fxLn2) * 2 ^ k
      roundFx f md n ((ex - fxOne) * fxOne / (ex + fxOne)) 0

end Sys2Proof.Machine
end

