-- ==== Sys2Proof/Machine/Power.lean ====
section
/-! DEFINITION. Power of banks: the clusters of a launch (R287, R406), retention, deep-off and wakes (R226),
the minimum of ways and the phase of a launch (R227, R228, R290); and the core clock that scales durations (R434). -/

namespace Sys2Proof.Machine

/-! ## Launches and clusters -/

/-- The leading partition of a partition: that of its span (R406). -/
def leadOf (s : State) (part : Nat) : Nat :=
  match Sparse.find? s.parts part with | some p => p.lead | none => part

/-- A cluster lies in a partition. -/
def Partition.hasCluster (p : Partition) (cl : Nat) : Bool :=
  decide (dieOfCluster cl = p.die) && bit p.mask (clusterIndex cl)

/-- The clusters of a partition's span hold a cluster (R406). -/
def spanHas (s : State) (part cl : Nat) : Bool :=
  s.parts.any (fun kp => leadOf s kp.1 == leadOf s part && kp.2.hasCluster cl)

/-- A launch has crews in a cluster, resident or saved. -/
def hasCrews (s : State) (launch cl : Nat) : Bool :=
  s.threads.any (fun kt => kt.2.kind = .crew ∧ kt.2.launch = launch ∧ clusterOf kt.2.core = cl)

/-- The clusters of a launch (R287): its partition or span, and reserve clusters where it has crews. -/
def launchCluster (s : State) (launch cl : Nat) : Bool :=
  match Sparse.find? s.launches launch with
  | some l => spanHas s l.part cl || hasCrews s launch cl
  | none => false

/-- The launches with crews in a cluster. -/
def launchesIn (s : State) (cl : Nat) : List (Nat × Launch) := s.launches.filter (fun kl => hasCrews s kl.1 cl)

/-- The phase of a launch; an ended launch forbids nothing. -/
def phaseOf (s : State) (launch : Nat) : Nat :=
  match Sparse.find? s.launches launch with | some l => l.phase | none => 0

/-! ## Core clocks (R433, R434, R437) -/

/-- The health of a cluster. -/
def getHealth (s : State) (cl : Nat) : ClusterHealth := (Sparse.find? s.monitors.clusters cl).getD ClusterHealth.reset

/-- Change the health of a cluster. -/
def modHealth (cl : Nat) (f : ClusterHealth → ClusterHealth) (s : State) : State :=
  { s with monitors := { s.monitors with clusters := Sparse.put s.monitors.clusters cl (f (getHealth s cl)) } }

/-- The clock of a core: the lower of what the module's power and its cluster's temperature allow (R433, R437). -/
def coreClock (s : State) (core : Nat) : Nat := Nat.min s.monitors.cap (getHealth s (clusterOf core)).limit

/-- Chip cycles of a duration of a core-clocked unit: multiplied by 2.7 GHz ÷ f (R434), up to a whole cycle. The clock
at its start counts for all of it (log 98). -/
def coreCycles (s : State) (core n : Nat) : Nat :=
  let f := coreClock s core
  (n * 2700 + (f - 1)) / Nat.max 1 f

/-- An event falls due after a duration of a core-clocked unit. -/
def afterCore (core n : Nat) (e : Instr) (s : State) : State := after (coreCycles s core n) e s

/-! ## Power (R226 to R228) -/

/-- A cache bank that is powered. -/
def Bank.powered (b : Bank) : Bool := decide (b.mode = .cache) && (decide (b.pwr = .active) || decide (b.pwr = .retention))

/-- Powered cache banks of a cluster, and the minimum declared by the launches there (R227). -/
def poweredBanks (s : State) (cl : Nat) : List Nat :=
  ((getCluster s cl).banks.filter (fun kb => kb.2.powered)).map Prod.fst
def minimumWays (s : State) (cl : Nat) : Nat :=
  (launchesIn s cl).foldl (fun m kl => Nat.max m kl.2.minWays) 0

/-- The owner's phase permits retention of a bank (R227). -/
def mayRetain (s : State) (b : Bank) : Bool :=
  match b.owner, b.mode with
  | some l, .scratch => decide (phaseOf s l < 3)
  | some l, .fifo => decide (phaseOf s l = 0)
  | _, _ => false

/-- The moment from which R226 counts a bank's idle time. -/
def idleSince (s : State) (b : Bank) : Nat :=
  match b.owner.bind (Sparse.find? s.launches) with
  | some l => Nat.max b.lastAt (if b.mode = .fifo then l.fifoAt else l.phaseAt)
  | none => b.lastAt

/-- A timer event of a bank is on the calendar once. -/
def scheduleOnce (t : Nat) (i : Instr) (s : State) : State :=
  if s.calendar.any (fun c => c.2 == i) then s else schedule t i s

/-- A bank was accessed now: its idle time starts again. -/
def touchBank (cl b : Nat) (s : State) : State :=
  scheduleOnce (s.chiptime + Config.retentionIdle) (.bankRetentionEntry cl b)
    (modBank cl b (fun k => { k with lastAt := s.chiptime }) s)

/-- A bank starts to wake: from retention within 108 cycles, from deep-off in 5,400 (R226). An access that meets a wake
which a phase has begun in its cycle counts one wake (R262). -/
def startWake (cl b : Nat) (count : Bool) (s : State) : State :=
  match (getBank s cl b).pwr with
  | .retention =>
    let (n, s) := freeDelay s Config.retentionWake
    after n (.bankWakeComplete cl b) (modBank cl b (fun k => { k with
      pwr := .waking, wakes := if count then Nat.min (k.wakes + 1) 65535 else k.wakes,
      lastAt := if count then k.lastAt else s.chiptime }) s)
  | .waking =>
    modBank cl b (fun k => if count && k.owner.isSome && decide (k.lastAt = s.chiptime) then
      { k with wakes := Nat.min (k.wakes + 1) 65535, lastAt := 0 } else k) s
  | .deepOff =>
    after Config.deepOffWake (.bankWakeComplete cl b) (modBank cl b (fun k => { k with
      pwr := .waking, data := [], valid := [], fifo := [] }) s)
  | _ => s

/-- A bank is active for an engine; otherwise it starts to wake. -/
def bankActive (cl b : Nat) (s : State) : Bool × State :=
  if (getBank s cl b).pwr = .active then (true, touchBank cl b s) else (false, startWake cl b true s)

/-- The priority of the record at a queue's head (R412, R413). -/
def headPrio (s : State) (q : Queue) : Nat := physNat s (q.base + 128 * (q.head % 2 ^ q.log) + 66) 1

/-- Queues in turn, after the one that was served last. -/
def inTurn (last : Option Nat) (qs : List (Nat × Queue)) : List (Nat × Queue) :=
  match last with
  | none => qs
  | some n => qs.filter (fun kq => decide (n < kq.1)) ++ qs.filter (fun kq => decide (kq.1 ≤ n))

/-- The queues with a record that the dispatcher may read, urgent ones first, those of one priority in turn (R412). -/
def queueOrder (s : State) : List Nat :=
  let qs := s.queues.filter (fun kq => kq.2.assigned && !kq.2.stall && decide (kq.2.head ≠ kq.2.tail))
  let at_ (p : Nat) : List (Nat × Queue) := inTurn (Sparse.find? s.served p) (qs.filter (fun kq => headPrio s kq.2 == p))
  let rest := qs.filter (fun kq => decide (3 < headPrio s kq.2))
  (at_ 3 ++ at_ 2 ++ at_ 1 ++ at_ 0 ++ rest).map Prod.fst

/-- Their records are looked at in that order. -/
def waitingQueues (s : State) : List Instr := (queueOrder s).map Instr.launchRecordDispatch

/-- A bank becomes unallocated; its deep-off timer starts (R226). -/
def freeBank (cl b : Nat) (s : State) : State :=
  due (waitingQueues s) (scheduleOnce (s.chiptime + Config.deepOffIdle) (.bankDeepOffEntry cl b)
    (modBank cl b (fun k => { k with mode := .unallocated, owner := none, esz := 0, wakes := 0, valid := [], fifo := [],
                                     lastAt := s.chiptime }) s))

/-- The lines of a cache bank's way are written back as release writes and leave (R228). -/
def clearWay (cl b : Nat) (s : State) : State :=
  (((getCluster s cl).cache.filter (fun l => l.bank == b)).map (fun l => (l.cid, l.line))).foldl
    (fun s k => clEvict cl k.1 k.2 true s) s

/-- A cache bank may power off: beyond the minimum, and every launch there allows it (R227, R289). -/
def mayPowerOff (s : State) (cl b : Nat) : Bool :=
  (getBank s cl b).powered && decide (minimumWays s cl < (poweredBanks s cl).length)
    && (launchesIn s cl).all (fun kl => decide (kl.2.phase ≤ 1))

/-! ## Phases (R227, R228) -/

/-- What a phase or minimum that takes effect wakes: owned banks in retention that it forbids, and cache
banks that it requires (R227, R228). -/
def phaseWakes (launch : Nat) (s : State) : State :=
  s.clusters.foldl (fun s kc =>
    let owned := kc.2.banks.filter (fun kb => kb.2.owner == some launch && kb.2.pwr == .retention && !mayRetain s kb.2)
    let s := owned.foldl (fun s kb => startWake kc.1 kb.1 false s) s
    let short := if hasCrews s launch kc.1 then minimumWays s kc.1 - (poweredBanks s kc.1).length else 0
    let off := kc.2.banks.filter (fun kb => kb.2.mode == .cache && kb.2.pwr == .deepOff)
    let full := hasCrews s launch kc.1 && decide (2 ≤ phaseOf s launch)
    (if full then off else off.take short).foldl (fun s kb => startWake kc.1 kb.1 false s) s) s

/-- The timers of the owned banks that a phase permits to enter retention (R226). -/
def phaseTimers (launch : Nat) (s : State) : State :=
  s.clusters.foldl (fun s kc =>
    (kc.2.banks.filter (fun kb => kb.2.owner == some launch && kb.2.pwr == .active && mayRetain s kb.2)).foldl
      (fun s kb => scheduleOnce (Nat.max s.chiptime (idleSince s kb.2 + Config.retentionIdle))
        (.bankRetentionEntry kc.1 kb.1) s) s) s

/-- The phase and minimum of a launch; the moments at which its phase began to permit retention of scratch and of
FIFO banks are kept (R226, R227). -/
def setPhase (launch phase ways : Nat) (s : State) : State :=
  phaseTimers launch (phaseWakes launch (modLaunch launch (fun l =>
    { l with phase := phase, minWays := ways,
             phaseAt := if phase < 3 ∧ 3 ≤ l.phase then s.chiptime else l.phaseAt,
             fifoAt := if phase = 0 ∧ l.phase ≠ 0 then s.chiptime else l.fifoAt }) s))

end Sys2Proof.Machine
end

