-- ==== Sys2Proof/Machine/Ops.lean ====
section
/-! DEFINITION. The named operations over threads: registers and runs (R21 to R25), loops (R95 to
R97), splits and groups (R161 to R168), barrier arrivals (R172, R206), waiting (R186), taking a trap and
returning from it (R375 to R380), page faults (R381), retirement (R168), and `issue`, the frame in
which every instruction word acts. -/

namespace Sys2Proof.Machine

/-! ## Threads and splits by name -/

/-- A thread's split. -/
def getSplit (s : State) (tid sid : Nat) : Option Split :=
  (Sparse.find? s.threads tid).bind (fun t => Sparse.find? t.splits sid)

/-- Change a thread. -/
def modThread (tid : Nat) (f : Thread → Thread) (s : State) : State :=
  { s with threads := Sparse.alter s.threads tid f }

/-- Change a split. -/
def modSplit (tid sid : Nat) (f : Split → Split) (s : State) : State :=
  modThread tid (fun t => { t with splits := Sparse.alter t.splits sid f }) s

/-- Names of threads: a crew and a scout share of a launch, a sequencer of a core. -/
def crewTid (launch crew : Nat) : Nat := launch * 2 ^ 17 + crew
def scoutTid (launch share : Nat) : Nat := launch * 2 ^ 17 + 2 ^ 16 + share
def seqTid (core which : Nat) : Nat := 2 ^ 60 + 2 * core + which

/-- The key of a circle's state and of a share's queue. -/
def circleKey (launch c : Nat) : Nat := launch * 256 + c
def shareKey (launch share : Nat) : Nat := launch * 2 ^ 16 + share

/-- The context of a launch. -/
def cidOf (s : State) (launch : Nat) : Nat :=
  match Sparse.find? s.launches launch with | some l => l.record.cid | none => 0

/-- The launch identifier of R16. -/
def identOf (s : State) (launch : Nat) : Nat :=
  match Sparse.find? s.launches launch with | some l => l.ident | none => 0

/-! ## Reading registers -/

/-- A lane register, a scalar register, a predicate. -/
def Regs.vec (r : Regs) (lane n : Nat) : Word := Sparse.get 0 r.v (256 * lane + n)
def Regs.scal (r : Regs) (n : Nat) : Word := if n = 0 then 0 else Sparse.get 0 r.s n
def Regs.pred (r : Regs) (lane n : Nat) : Bool := if n = 0 then true else Sparse.get false r.p (256 * lane + n)

/-- The register a field names, as a lane reads it (R15, R34). -/
def Regs.field (r : Regs) (lane : Nat) (f : BitVec 8) : Word :=
  if f.toNat < 192 then r.vec lane f.toNat else r.scal (f.toNat - 192)

/-- The pair a field names (R12). -/
def Regs.pair (r : Regs) (lane : Nat) (f : BitVec 8) : DWord := r.field lane (f + 1) ++ r.field lane f

/-! ## Writing registers -/

/-- Replace the masked bits. -/
def mergeMask (mask old new : Word) : Word := (old &&& ~~~mask) ||| (new &&& mask)

/-- Write a special register of a thread (R16); fields marked zero stay zero (R17). -/
def Regs.setSpecial (r : Regs) (lane sr : Nat) (x : DWord) : Regs :=
  match sr with
  | 0x09 => { r with gang := x.setWidth 32 }
  | 0x13 => { r with xmode := x.setWidth 32 }
  | 0x30 => { r with hzn := Sparse.set 0 r.hzn lane (x.setWidth 32 &&& 0xFFFF) }
  | 0x31 => { r with birth := Sparse.set 0 r.birth lane (x.setWidth 32 &&& 0xFFFF) }
  | 0x32 => { r with cptop := Sparse.set 0 r.cptop lane x }
  | 0x33 => { r with trtop := Sparse.set 0 r.trtop lane x }
  | 0x34 => { r with heaptop := Sparse.set 0 r.heaptop lane x }
  | 0x35 => { r with vwbase := Sparse.set 0 r.vwbase lane x }
  | 0x36 => { r with vwsize := Sparse.set 0 r.vwsize lane (x.setWidth 32) }
  | 0x37 => { r with ubudget := x.setWidth 32 }
  | 0x40 => { r with promise := x }
  | _ => r

/-- Write a trap register of a split (R16, R376). -/
def TrapRegs.setSpecial (t : TrapRegs) (sr : Nat) (x : DWord) : TrapRegs :=
  match sr with
  | 0x20 => { t with cause := x.setWidth 32 &&& 0x1FFFF }
  | 0x21 => { t with pc := x }
  | 0x22 => { t with mask := x }
  | 0x23 => { t with faultva := x }
  | 0x24 => { t with faultmask := x }
  | _ => t

/-- One register result takes effect; s0 and p0 discard (R13, R14). -/
def Regs.apply (r : Regs) : RegWrite → Regs
  | .vec lane n x => { r with v := Sparse.set 0 r.v (256 * lane + n) x }
  | .scal n x => if n = 0 then r else { r with s := Sparse.set 0 r.s n x }
  | .pred lane n x => if n = 0 then r else { r with p := Sparse.set false r.p (256 * lane + n) x }
  | .cmode mask x => { r with cmode := mergeMask mask r.cmode x }
  | .mmode mask x => { r with mmode := mergeMask mask r.mmode x }
  | .special lane sr x => r.setSpecial lane sr x

/-- One result takes effect on a split's trap registers. -/
def TrapRegs.apply (t : TrapRegs) : RegWrite → TrapRegs
  | .special _ sr x => t.setSpecial sr x
  | _ => t

/-- FLAGS at a close first loses the cleared bits, then gains the raised ones (R22). -/
def Regs.applyFlags (r : Regs) (clr set : Word) : Regs :=
  { r with flags := ((r.flags &&& ~~~clr) ||| set) &&& 0x7F }

/-! ## Runs -/

/-- A register that a speculative fence's checkpoint counts, and its value in a register file (R279). -/
def specOld (r : Regs) : RegWrite → Option RegWrite
  | .vec lane n _ => some (.vec lane n (r.vec lane n))
  | .scal n _ => if n = 0 then none else some (.scal n (r.scal n))
  | .pred lane n _ => if n = 0 then none else some (.pred lane n (r.pred lane n))
  | _ => none

/-- Two results name one register. -/
def sameReg : RegWrite → RegWrite → Bool
  | .vec l n _, .vec l' n' _ => l == l' && n == n'
  | .scal n _, .scal n' _ => n == n'
  | .pred l n _, .pred l' n' _ => l == l' && n == n'
  | _, _ => false

/-- The checkpoint's registers after a run's results are written: each is counted once. -/
def Spec.note (x : Spec) (ws : List RegWrite) : Spec :=
  { x with written := ws.foldl (fun acc w =>
      match specOld x.regs w with
      | some o => if acc.any (sameReg o) then acc else acc ++ [o]
      | none => acc) x.written }

/-- The register that a write names, the same in every lane. -/
def regName : RegWrite → Option (Nat × Nat)
  | .vec _ n _ => some (0, n)
  | .scal n _ => some (1, n)
  | .pred _ n _ => some (2, n)
  | _ => none

/-- The registers that a checkpoint holds: each counts once (R279). -/
def Spec.count (x : Spec) : Nat := ((x.written.filterMap regName).eraseDups).length

/-- The run of a split opens: the image holds every register as it is now, with the core and its TEMP (R22). -/
def openRun (tid sid : Nat) (s : State) : State :=
  modThread tid (fun t => { t with splits := Sparse.alter t.splits sid (fun sp =>
    if sp.run.isOpen ∨ sp.handed.isSome then sp
    else { sp with run := { isOpen := true, count := 0, image := t.regs, lcImage := sp.loop.lc,
                            depth := sp.loop.levels.length, trImage := sp.trapRegs, temp := (getCore s t.core).temp,
                            phys := t.core, pend := [],
                            flagSet := 0, flagClr := 0 } }) }) s

/-- A closed run: nothing pending; the image stays until the next run opens. -/
def Run.shut (r : Run) : Run := { r with isOpen := false, count := 0, pend := [], flagSet := 0, flagClr := 0 }

/-- The launch's phase and minimum that a BWPHASE of the run sets (R290); 0x100 is no special register. -/
def phaseWrite : RegWrite → Option (Nat × Nat)
  | .special _ 0x100 x => some (x.toNat % 4, x.toNat / 4)
  | _ => none

/-- The phases of a run that closes. -/
def closePhases (tid sid : Nat) (s : State) : State :=
  match Sparse.find? s.threads tid, getSplit s tid sid with
  | some t, some sp => (sp.run.pend.filterMap phaseWrite).foldl (fun s p => setPhase t.launch p.1 p.2 s) s
  | _, _ => s

/-- The run of a split closes: its results are written in program order, then FLAGS (R22). -/
def closeRun (tid sid : Nat) (s0 : State) : State :=
  let s := closePhases tid sid s0
  modThread tid (fun t =>
    match Sparse.find? t.splits sid with
    | none => t
    | some sp =>
      if sp.run.isOpen then
        { t with
          regs := (sp.run.pend.foldl Regs.apply t.regs).applyFlags sp.run.flagClr sp.run.flagSet,
          splits := Sparse.put t.splits sid { sp with
            trapRegs := sp.run.pend.foldl TrapRegs.apply sp.trapRegs,
            spec := sp.spec.map (fun x => x.note sp.run.pend),
            run := sp.run.shut } }
      else t) s

/-- Results of an instruction: pending while its run is open, written at once when it has closed its
run (R22, R24). -/
def emitTo (tid sid : Nat) (ws : List RegWrite) (flags : Word) (s : State) : State :=
  modThread tid (fun t =>
    match Sparse.find? t.splits sid with
    | none => t
    | some sp =>
      if sp.run.isOpen then
        let run := { sp.run with pend := sp.run.pend ++ ws, flagSet := sp.run.flagSet ||| flags }
        { t with splits := Sparse.put t.splits sid { sp with run := run } }
      else
        { t with regs := (ws.foldl Regs.apply t.regs).applyFlags 0 flags,
                 splits := Sparse.put t.splits sid { sp with trapRegs := ws.foldl TrapRegs.apply sp.trapRegs } }) s

/-! ## Loops -/

/-- Address of a level's last word. -/
def Level.last (l : Level) : Nat := l.start + 4 * (l.len - 1)

/-- A word lies in a level's body. -/
def Level.holds (l : Level) (a : Nat) : Bool := decide (l.start ≤ a) && decide (a ≤ l.last)

/-- Counter k of a loop. -/
def Loop.lcAt (l : Loop) (k : Nat) : Word := l.lc.getD k 0

/-- Execution falls through the word at `a`: iterations finish innermost first (R96). The levels are
given innermost first; the result is the remaining levels, innermost first, and the next address. -/
def fallLevels (a : Nat) : List Level → List Word → List Level × List Word × Nat
  | [], lc => ([], lc, a + 4)
  | l :: outer, lc =>
    if l.last = a then
      let n := lc.getD outer.length 0 - 1
      let lc := lc.set outer.length n
      if n = 0 then fallLevels a outer lc else (l :: outer, lc, l.start)
    else (l :: outer, lc, a + 4)

/-- A split falls through the word at `a`. -/
def Loop.fall (l : Loop) (a : Nat) : Loop × Nat :=
  match fallLevels a l.levels.reverse l.lc with
  | (lv, lc, next) =>
    ({ l with lc := lc, levels := lv.reverse, body := if lv.isEmpty then [] else l.body }, next)

/-- A split continues at a transfer's target: the first level that does not hold it ends, and every
level inside it (R97). -/
def Loop.transfer (l : Loop) (a : Nat) : Loop :=
  let lv := l.levels.takeWhile (fun v => v.holds a)
  { l with levels := lv, body := if lv.isEmpty then [] else l.body }

/-! ## States of splits -/

/-- The lanes a split acts with: MEMBER less EXITED (R161). -/
def Split.active (sp : Split) : DWord := sp.member &&& ~~~sp.exited

/-- ACTIVE splits of a thread. -/
def Thread.activeCount (t : Thread) : Nat := (t.splits.filter (fun kv => kv.2.state = .active)).length

/-- Splits at the head of the fragment queue take free ACTIVE places (R163). -/
def Thread.fill (t : Thread) : Nat → Thread
  | 0 => t
  | n + 1 =>
    match t.fragments with
    | [] => t
    | sid :: rest =>
      if t.activeCount < 4 then
        Thread.fill { t with fragments := rest,
                             splits := Sparse.alter t.splits sid (fun sp => { sp with state := .active }) } n
      else t

/-- A split becomes ACTIVE if a place is free, and otherwise joins the fragment queue (R163). -/
def Thread.enqueue (t : Thread) (sid : Nat) : Thread :=
  if t.activeCount < 4 then { t with splits := Sparse.alter t.splits sid (fun sp => { sp with state := .active }) }
  else { t with splits := Sparse.alter t.splits sid (fun sp => { sp with state := .queued }),
                fragments := t.fragments ++ [sid] }

/-- The FREE record with the lowest SPLITID (R162). -/
def Thread.freeSid (t : Thread) : Option Nat := (List.range 16).find? (fun i => (Sparse.find? t.splits i).isNone)

/-- FREE records. -/
def Thread.freeCount (t : Thread) : Nat := 16 - t.splits.length

/-- FREE records that have been handed to waiting splits (R186). -/
def Thread.reserved (t : Thread) : Nat :=
  (t.splits.map (fun ks => match ks.2.handed with | some (.records n) => n | _ => 0)).foldl (· + ·) 0

/-- FREE records that a division may take: those that no waiter has been handed, and its own. -/
def Thread.spare (t : Thread) (sp : Split) : Nat :=
  t.freeCount - t.reserved + (match sp.handed with | some (.records n) => n | _ => 0)

/-- A new split takes a record (R162, R163). -/
def Thread.addSplit (t : Thread) (sid : Nat) (sp : Split) : Thread :=
  Thread.enqueue { t with splits := Sparse.put t.splits sid sp } sid

/-- Raise or lower the live count of a split's top group (R165, R195). -/
def Thread.raiseLive (t : Thread) (tokens : List (Nat × Nat)) (n : Nat) : Thread :=
  match tokens.getLast? with
  | some (_, g) => { t with groups := Sparse.put t.groups g (Sparse.get 0 t.groups g + n) }
  | none => t
def Thread.lowerLive (t : Thread) (tokens : List (Nat × Nat)) (n : Nat) : Thread :=
  match tokens.getLast? with
  | some (_, g) => { t with groups := Sparse.put t.groups g (Sparse.get 0 t.groups g - n) }
  | none => t

/-! ## Handing items to waiters (R186) -/

/-- An event examines a waiting split again. -/
def wake (tid sid : Nat) (s : State) : State := due [.waiterRelease tid sid] s

/-- Hand an item to a waiting split, and release it. -/
def hand (tid sid : Nat) (x : Item) (s : State) : State :=
  wake tid sid (modSplit tid sid (fun sp => { sp with handed := some x }) s)

/-- The waiting splits that nothing has been handed to, with their waits. -/
def waiters (s : State) (p : WaitObj → Bool) : List (Nat × Nat × Wait) :=
  s.threads.flatMap (fun kt => kt.2.splits.filterMap (fun ks =>
    match ks.2.wait with
    | some w => if ks.2.handed.isNone && p w.obj then some (kt.1, ks.1, w) else none
    | none => none))

/-- The oldest of some waiters. -/
def oldestOf : List (Nat × Nat × Wait) → Option (Nat × Nat × Wait)
  | [] => none
  | w :: ws =>
    match oldestOf ws with
    | none => some w
    | some v => if v.2.2.since < w.2.2.since then some v else some w

/-- The oldest waiter on an object. -/
def oldest (s : State) (p : WaitObj → Bool) : Option (Nat × Nat × Wait) := oldestOf (waiters s p)

/-- Insert a waiter by age, and sort waiters by age. -/
def insertAge (w : Nat × Nat × Wait) : List (Nat × Nat × Wait) → List (Nat × Nat × Wait)
  | [] => [w]
  | v :: vs => if w.2.2.since < v.2.2.since then w :: v :: vs else v :: insertAge w vs
def byAge (ws : List (Nat × Nat × Wait)) : List (Nat × Nat × Wait) := ws.foldl (fun acc w => insertAge w acc) []

/-- Examine again, oldest first, every split that waits on an object. -/
def wakeAll (p : WaitObj → Bool) (s : State) : State :=
  due ((byAge (waiters s p)).map (fun w => .waiterRelease w.1 w.2.1)) s

/-! ## Barriers (R172, R206) -/

/-- The circle in a slot of CIRC. -/
def circOf (circ : Word) (slot : Nat) : Nat := bits circ.toNat (8 * slot) 8

/-- COUNT members have arrived or retired. -/
def Circle.full (c : Circle) : Bool := decide (c.count ≤ (c.arrived ++ c.retired).eraseDups.length)

/-- Send a circle's completion when it is full. -/
def checkCircle (launch circ : Nat) (s : State) : State :=
  match Sparse.find? s.circles (circleKey launch circ) with
  | some c => if c.full then due [.barrierComplete launch circ] s else s
  | none => s

/-- A crew's arrival counts toward a barrier that has not completed: `arrivals` holds one more than the
number of that barrier. -/
def Thread.pendingArrival (t : Thread) (s : State) (slot : Nat) : Bool :=
  match Sparse.find? s.circles (circleKey t.launch (circOf t.circ slot)) with
  | some c => decide (c.generation < Sparse.get 0 t.arrivals slot)
  | none => false

/-! ## Halting (R388, R389) -/

/-- The registers of the checkpoint come back (R280). -/
def Spec.restore (x : Spec) (r : Regs) : Regs :=
  { x.written.foldl Regs.apply r with flags := x.regs.flags }

/-- The split rolls back: registers, PC and loop as at the fence, its run and held trap gone (R280). -/
def rollback (tid sid : Nat) (x : Spec) (s : State) : State :=
  wake tid sid (modThread tid (fun t => { t with
    regs := x.restore t.regs
    splits := Sparse.alter t.splits sid (fun sp => { sp with
      pc := x.pc, loop := x.loop, run := Run.closed, wait := none, handed := none, progress := Progress.none
      spec := some { x with written := [], readSet := [], held := none, fault := none, hit := false, rollbacks := x.rollbacks + 1 } }) }) s)

/-- The crews of an owner on a core, wherever they are kept (R333). -/
def ownerThreads (s : State) (core : Nat) (o : Owner) : List Thread :=
  Sparse.values (s.threads.filter (fun kt => decide (kt.2.kind = .crew) && decide (kt.2.core = core) &&
    (match o with
     | .crew tid => kt.1 == tid
     | .gang launch tag => kt.2.launch == launch && bits kt.2.regs.gang.toNat 0 4 != 0 && bits kt.2.regs.gang.toNat 8 8 == tag
     | .share launch share =>
       kt.2.launch == launch && (match Sparse.find? s.shares (shareKey launch share) with
         | some q => q.crews.contains kt.2.crewid
         | none => false))))

/-- Some crews have all left their core. -/
def allOff (ts : List Thread) : Bool := !ts.isEmpty && ts.all (fun t => decide (t.place ≠ .resident))

/-- A scout or a sequencer whose crews are all halted stops issuing (R388, R389). -/
def Thread.masterless (t : Thread) (tid : Nat) (s : State) : Bool :=
  let gone (o : Option Owner) : Bool := match o with | some o => allOff (ownerThreads s t.core o) | none => false
  match t.kind with
  | .crew => false
  | .scout => gone (some (.share t.launch (tid % 2 ^ 16)))
  | .mseq => gone (getCore s t.core).mseq.owner
  | .cseq => gone (getCore s t.core).cseq.owner

/-- The programs of a core that serve halted crews only stop. -/
def haltPrograms (core : Nat) (s : State) : State :=
  { s with threads := s.threads.map (fun kt =>
      if kt.2.place = .resident ∧ kt.2.core = core ∧ kt.2.masterless kt.1 s then (kt.1, { kt.2 with place := .halted }) else kt) }

/-- A speculative fence is saved as not issued (R280): registers as at the fence, the split at the fence. -/
def unissue (tid sid : Nat) (x : Spec) (s : State) : State :=
  modSplit tid sid (fun sp => { sp with pc := x.fencePc, loop := x.fenceLoop, spec := none })
    { rollback tid sid x s with calendar := s.calendar.filter (fun c => c.2 != .specFenceComplete tid sid) }

/-- A write of a tile-layout unit's buffer is performed; nothing that has changed since its issue loses it. -/
def layoutWrite (core cid home : Nat) (w : LayoutWrite) (s : State) : State :=
  let r := if w.own then crewL2Write (dieOf core) cid w.va.toNat w.bytes (.plain home) s
    else plainWrite core cid w.va.toNat w.bytes (.plain home) 0 s
  match r with
  | (.ok _, s) => s
  | (.error _, s) =>
    match l2WriteRaw (dieOf core) cid w.va.toNat w.bytes (.plain home) s with
    | (.ok _, s) => s
    | (.error _, s) => physWrite s w.pa w.bytes

/-- The writes of a crew that a unit's buffer holds and that satisfy a test are performed in order (R281, R302). -/
def drainSome (tid core cid home : Nat) (p : LayoutWrite → Bool) (s : State) : State :=
  let cl := clusterOf core
  let ws := (getCluster s cl).buffer.filter (fun w => w.tid == tid && p w)
  if ws.isEmpty then s
  else
    ws.foldl (fun s w => layoutWrite core cid home w s)
      (modCluster cl (fun c => { c with buffer := c.buffer.filter (fun w => !(w.tid == tid && p w)) }) s)

/-- The buffered writes of a split perform: they come before every access of the splits that it divides into or merges
into (R300). -/
def drainSplit (tid sid : Nat) (s : State) : State :=
  match Sparse.find? s.threads tid with
  | some t => drainSome tid t.core (cidOf s t.launch) t.homenum (fun w => w.sid == sid) s
  | none => s

/-- The write buffer of a crew drains. -/
def drainLayout (core cid tid home : Nat) (s : State) : State := drainSome tid core cid home (fun _ => true) s

/-- A crew halts: speculative fences roll back, its buffered writes and a release at device scope are performed, and it
is saved within its bounds (R388, R390). -/
def haltCrew (tid : Nat) (s : State) : State :=
  match Sparse.find? s.threads tid with
  | none => s
  | some t =>
    let s := t.splits.foldl (fun s ks => match ks.2.spec with | some x => unissue tid ks.1 x s | none => s) s
    let s := drainLayout t.core (cidOf s t.launch) tid t.homenum s
    let s := modThread tid (fun t => { t with place := .halted, leaving := false }) (release t.core 2 s)
    let (n, s) := freeDelay (haltPrograms t.core s) 18900
    after n (.crewSaveComplete tid) s

/-- A crew that an urgent launch wants out halts at its first boundary (R388, R397), each of a gang or share at its own:
they are restored as one (log 82). -/
def reachBoundary (tid : Nat) (s : State) : State :=
  match Sparse.find? s.threads tid with
  | some t => if t.leaving then haltCrew tid s else s
  | none => s

/-- The arrival of a crew whose splits have all reached a slot is sent (R172, R206): its reached marks
are cleared, splits that wait for that are released, and the circle's set is kept. -/
def sendArrival (tid slot : Nat) (s : State) : State :=
  match Sparse.find? s.threads tid with
  | none => s
  | some t =>
    let circ := circOf t.circ slot
    let key := circleKey t.launch circ
    match Sparse.find? s.circles key with
    | none => s
    | some c =>
      let s := modThread tid (fun t => { t with
        arrivals := Sparse.put t.arrivals slot (c.generation + 1),
        splits := t.splits.map (fun ks => (ks.1, { ks.2 with reached := ks.2.reached.filter (· != slot) })) }) s
      let s := { s with circles := Sparse.put s.circles key { c with arrived := t.crewid :: c.arrived } }
      let s := (s.threads.filter (fun kt => kt.1 = tid)).foldl (fun s kt =>
        kt.2.splits.foldl (fun s ks =>
          if (ks.2.wait.map Wait.obj) = some (.mark slot) then hand tid ks.1 .again s else s) s) s
      reachBoundary tid (checkCircle t.launch circ s)

/-- A split has reached a slot's barrier: it holds the mark, and it does not wait on anything but the barriers of
that circle (R172, R196, R207, R219; log 70). -/
def Split.hasReached (sp : Split) (slot circ : Nat) : Bool :=
  sp.reached.contains slot && (decide (sp.state ≠ .waiting) ||
    (match sp.wait.map Wait.obj with
     | some (.barrier _ c _) => c == circ
     | some (.mark k) => k == slot
     | _ => false))

/-- Every split that has not ended has reached the slot. -/
def Thread.allReached (t : Thread) (slot : Nat) : Bool :=
  !t.splits.isEmpty && t.splits.all (fun ks => ks.2.hasReached slot (circOf t.circ slot))

/-- Send the arrival on a slot when it has become complete; that of a saved crew stays absent (R391), and one that comes
before the barrier of the crew's last arrival completes stands until then (R172). -/
def checkArrival (tid slot : Nat) (s : State) : State :=
  match Sparse.find? s.threads tid with
  | some t => if t.allReached slot && decide (t.place = .resident) && !t.pendingArrival s slot then sendArrival tid slot s else s
  | none => s

/-- A split of the crew waits elsewhere no longer: arrivals may have become complete (R207). -/
def recheckArrivals (tid : Nat) (s : State) : State :=
  (List.range 4).foldl (fun s slot => checkArrival tid slot s) s

/-! ## Retirement (R168) -/

/-- Crews of a launch on a core at most (R157). -/
def perCore (r : LaunchRec) : Nat := Nat.min 64 (262144 / (r.vregs * r.width * 4))

/-- The logical core of a crew (R159). -/
def logicalCore (l : Launch) (crew : Nat) : Nat := crew / perCore l.record % l.mapping.length

/-- The physical core a crew is placed on. -/
def homeCore (l : Launch) (crew : Nat) : Nat := l.mapping.getD (logicalCore l crew) 0

/-- A crew joins those not yet started, in order of CREWID. -/
def insertCrew (c : Nat) : List Nat → List Nat
  | [] => [c]
  | x :: xs => if c < x then c :: x :: xs else x :: insertCrew c xs

/-- Crews of a launch in order, those that a verdict will re-queue among them (R157, R335). -/
def Launch.inLine (l : Launch) : List Nat := l.held.foldl (fun cs h => insertCrew h.2 cs) l.unplaced

/-- A crew is the first of its logical core that has not started; one that awaits a verdict keeps its turn (R157). -/
def Launch.firstInLine (l : Launch) (crew : Nat) : Bool :=
  decide (l.inLine.find? (fun c => logicalCore l c == logicalCore l crew) = some crew) && l.unplaced.contains crew

/-- The first unplaced crew, or share, of each launch that may start on a core (R157, R177). -/
def startsAt (s : State) (core : Nat) : List Instr :=
  s.launches.filterMap (fun kl =>
    (kl.2.unplaced.find? (fun c => homeCore kl.2 c == core && kl.2.firstInLine c)).map (fun c =>
      if kl.2.record.scout = 0xFFFFFFFF then Instr.crewStart kl.1 c
      else Instr.shareStart kl.1 (c / perCore kl.2.record)))

/-- Where a place has become free: saved crews may come back, unplaced ones may start, and records that wait are
read again (R157, R392, R412). -/
def placeFreed (core : Nat) (s : State) : State :=
  due ((s.threads.filter (fun kt => decide (kt.2.place = .saved) && decide (kt.2.kind = .crew))).map (fun kt =>
      Instr.crewRestore kt.1 core) ++ startsAt s core ++ waitingQueues s) s

/-- A sequencer still runs. -/
def Seq.isRunning (q : Seq) (s : State) : Bool :=
  match q.tid.bind (Sparse.find? s.threads) with
  | some t => q.ending || !t.splits.isEmpty
  | none => false

/-- A thread still runs: a sequencer that has ended stays listed until its next FORK. -/
def Thread.isRunning (t : Thread) (s : State) : Bool :=
  match t.kind with
  | .crew | .scout => true
  | .mseq => (getCore s t.core).mseq.isRunning s
  | .cseq => (getCore s t.core).cseq.isRunning s

/-- A launch has nothing left that runs (R417). -/
def launchDone (launch : Nat) (s : State) : Bool :=
  match Sparse.find? s.launches launch with
  | none => false
  | some l =>
    l.unplaced.isEmpty && l.held.isEmpty && s.threads.all (fun kt => kt.2.launch != launch || !kt.2.isRunning s)
      && s.clusters.all (fun kc => kc.2.copyq.all (fun c => c.launch != launch))

/-- The launch's end falls due once nothing of it runs. -/
def checkLaunch (launch : Nat) (s : State) : State :=
  if launchDone launch s then due [.launchEnd launch] s else s

/-- The share of a crew. -/
def shareOf (l : Launch) (crew : Nat) : Nat := crew / perCore l.record

/-- Entries of a decision queue that every crew of its share has passed are freed (R180). -/
def trimShare (launch share : Nat) (s : State) : State :=
  match Sparse.find? s.shares (shareKey launch share) with
  | none => s
  | some q =>
    let cursors := s.threads.filterMap (fun kt =>
      if kt.2.kind = .crew ∧ kt.2.launch = launch ∧ q.crews.contains kt.2.crewid then some kt.2.cursor else none)
    match cursors with
    | [] => s
    | c :: cs =>
      let low := cs.foldl Nat.min c
      let q := { q with entries := q.entries.drop (low - q.base), base := Nat.max q.base low }
      wakeAll (fun o => match o with | .dqPush l sh _ => l == launch && sh == share | _ => false)
        { s with shares := Sparse.put s.shares (shareKey launch share) q }

/-- A share whose last crew has retired ends with its scout program and queue (R177). -/
def checkShare (launch share : Nat) (s : State) : State :=
  match Sparse.find? s.shares (shareKey launch share) with
  | none => s
  | some q =>
    if s.threads.any (fun kt => kt.2.kind = .crew ∧ kt.2.launch = launch ∧ q.crews.contains kt.2.crewid) then
      trimShare launch share s
    else { s with shares := Sparse.erase s.shares (shareKey launch share),
                  threads := Sparse.erase s.threads (scoutTid launch share) }

/-- A crew retires: it counts as arrived at every later barrier of its circles, leaves its gang and its
share, and frees its place (R168); its buffered writes are performed. -/
def retire (tid : Nat) (s : State) : State :=
  match Sparse.find? s.threads tid with
  | none => s
  | some t =>
    let s := if t.kind = .crew then drainLayout t.core (cidOf s t.launch) tid t.homenum s else s
    let s := { s with threads := Sparse.erase s.threads tid }
    let s := (List.range 4).foldl (fun s slot =>
      let c := circOf t.circ slot
      match Sparse.find? s.circles (circleKey t.launch c) with
      | some k => if c = 0xFF then s else
          let k := { k with retired := if k.retired.contains t.crewid then k.retired else t.crewid :: k.retired }
          checkCircle t.launch c { s with circles := Sparse.put s.circles (circleKey t.launch c) k }
      | none => s) s
    let s := wakeAll (fun o => match o with
      | .latch core launch _ => core == t.core && launch == t.launch | _ => false) s
    let s := match Sparse.find? s.launches t.launch with
      | some l => if l.record.scout = 0xFFFFFFFF then s else checkShare t.launch (shareOf l t.crewid) s
      | none => s
    checkLaunch t.launch (placeFreed t.core s)

/-! ## Ends of splits, joins -/

/-- A record becomes FREE. -/
def Thread.drop (t : Thread) (sid : Nat) : Thread :=
  { t with splits := Sparse.erase t.splits sid, fragments := t.fragments.filter (· != sid) }

/-- Splits of a group that wait at its JOIN. -/
def Thread.atJoin (t : Thread) (g : Nat) : List (Nat × Split) :=
  t.splits.filter (fun ks => ks.2.wait.map Wait.obj = some (.join g))

/-- The splits of a group merge once as many wait as live (R166, R195): the lowest SPLITID takes the union
of the lanes that have not exited, and continues after the JOIN; an empty split is dropped. Splits that the fragment
queue holds take a free place first (R163). -/
def Thread.mergeGroup (t : Thread) (g : Nat) : Thread × Option Nat :=
  let ws := t.atJoin g
  match ws with
  | [] => (t, none)
  | (sid, sp) :: _ =>
    if ws.length ≠ Sparse.get 0 t.groups g then (t, none)
    else
      let tokens := sp.tokens.dropLast
      let (loop, next) := sp.loop.fall sp.pc.toNat
      let merged : Split := { sp with
        member := ws.foldl (fun m w => m ||| w.2.active) 0, exited := 0, tokens := tokens, loop := loop,
        pc := BitVec.ofNat 64 next, wait := none,
        reached := (ws.flatMap (fun w => w.2.reached)).eraseDups }
      let rest := t.splits.filter (fun ks => !(ws.any (fun w => w.1 == ks.1)))
      let t := { t with splits := rest, groups := Sparse.erase t.groups g }
      let t := Thread.lowerLive t tokens (ws.length - 1)
      ((t.fill 16).addSplit sid merged, some sid)

/-- What follows the end of a split, or a merge: its group's splits may merge, a merged split without
lanes ends in turn, waiters for records are examined, arrivals may become complete, and the crew may
retire. -/
def afterEnd (tid : Nat) (mode : Word) : Nat → Option Nat → State → State
  | 0, _, s => s
  | fuel + 1, g, s =>
    match Sparse.find? s.threads tid with
    | none => s
    | some t =>
      let (t1, merged) := match g with | some g => t.mergeGroup g | none => (t, none)
      let s := { s with threads := Sparse.put s.threads tid (t1.fill 16) }
      match merged.bind (fun sid => (Sparse.find? t1.splits sid).map (fun sp => (sid, sp))) with
      | some (sid, sp) =>
        if sp.member = 0 then
          let t2 := Thread.lowerLive (t1.drop sid) sp.tokens 1
          afterEnd tid mode fuel (sp.tokens.getLast?.map Prod.snd) { s with threads := Sparse.put s.threads tid t2 }
        else
          afterEnd tid mode fuel (sp.tokens.getLast?.map Prod.snd) s
      | none =>
        if t1.splits.isEmpty then retire tid s
        else
          let s := wakeAll (fun o => match o with | .records => true | _ => false) s
          (List.range 4).foldl (fun s slot =>
            if t1.allReached slot ∧ circOf t1.circ slot ≠ 0xFF then
              checkArrival tid slot (release t1.core (bits mode.toNat 0 2) s) else s) s

/-- The end of a split that is in a trap handler frees the crew's handler, and the modes it saved come
back (log 33). -/
def leaveHandler (tid sid : Nat) (sp : Split) (s : State) : State :=
  match sp.saved with
  | some sv => modThread tid (fun t => if t.handler = some sid then
      { t with handler := none, regs := { t.regs with cmode := sv.cmode, mmode := sv.mmode } } else t) s
  | none => s

/-- A split ends (R165, R168): its group's live count falls first (R191), then what follows. -/
def endSplit (tid sid : Nat) (s : State) : State :=
  match getSplit s tid sid with
  | some sp =>
    let s := leaveHandler tid sid sp s
    match Sparse.find? s.threads tid with
    | none => s
    | some t =>
      let s := modThread tid (fun t => Thread.lowerLive (t.drop sid) sp.tokens 1) s
      afterEnd tid t.regs.mmode 33 (sp.tokens.getLast?.map Prod.snd) s
  | none => s

/-! ## Kills and ends of programs -/

/-- A device-scope read-modify-write of the launch's diagnostic record, which clears the mark (R416). -/
def diagUpdate (launch off n : Nat) (f : Nat → Nat) (s : State) : State :=
  match Sparse.find? s.launches launch with
  | none => s
  | some l =>
    if l.record.diag = 0 then s
    else
      let va := l.record.diag + off
      let die := homeSlice l.record.cid va / 32
      match l2ReadRaw die l.record.cid va n s with
      | (.error _, s) => s
      | (.ok g, s) => (l2WriteRaw die l.record.cid va (leBytes n (f (leNat g.bytes))) .clear s).2

/-- Add one to a 4-byte count of the diagnostic record; a saturated count stays. -/
def diagCount (launch off : Nat) (s : State) : State :=
  diagUpdate launch off 4 (fun x => if x = 2 ^ 32 - 1 then x else x + 1) s

/-- A crew is killed (R378): counted, posted, retired; never re-queued. -/
def killCrew (tid cause sid : Nat) (s : State) : State :=
  match Sparse.find? s.threads tid with
  | none => s
  | some t =>
    let s := modLaunch t.launch (fun l => { l with killed := l.killed + 1 }) s
    let s := diagCount t.launch 16 s
    let s := post (cidOf s t.launch) 0 (coreSidx t.core) 4 (identOf s t.launch) (t.crewid + 65536 * sid) cause 0 s
    -- what waited for the crew's acquire of a tile is examined (R298)
    wakeAll (fun o => match o with | .line .. => true | _ => false) (retire tid s)

/-- The scout program of a share ends: the queue closes, and pops at its tail get the end marker
(R181). -/
def endScout (tid : Nat) (s : State) : State :=
  match Sparse.find? s.threads tid with
  | none => s
  | some t =>
    match Sparse.find? s.launches t.launch with
    | none => { s with threads := Sparse.erase s.threads tid }
    | some l =>
      let share := shareOf l t.crewid
      let s := { s with threads := Sparse.erase s.threads tid,
                        shares := Sparse.alter s.shares (shareKey t.launch share) (fun q => { q with closed := true }) }
      let s := (waiters s (fun o => match o with | .dqPop a b => a == t.launch && b == share | _ => false)).foldl
        (fun s w => hand w.1 w.2.1 (.word 0xFFFFFFFFFFFFFFFF) s) s
      checkLaunch t.launch s

/-- A sequencer of a core, matrix (0) or copy (1). -/
def Core.seq (c : Core) (which : Nat) : Seq := if which = 0 then c.mseq else c.cseq
def Core.setSeq (c : Core) (which : Nat) (q : Seq) : Core :=
  if which = 0 then { c with mseq := q } else { c with cseq := q }

/-- A sequencer stops issuing, at END or on a trap; it has ended once what it issued has ended (R347). -/
def stopSequencer (tid : Nat) (cause : Nat) (s : State) : State :=
  match Sparse.find? s.threads tid with
  | none => s
  | some t =>
    let which := if t.kind = .mseq then 0 else 1
    due [.sequencerEndComplete t.core which]
      (modThread tid (fun t => { t with splits := [] })
        (modCore t.core (fun c => c.setSeq which { c.seq which with ending := true, result := cause }) s))

/-! ## Taking a trap, and returning (R375 to R380) -/

/-- TVEC is usable (R375). -/
def tvecOk (tvec : DWord) : Bool := decide (tvec ≠ 0) && decide (tvec.toNat % 4 = 0)

/-- The trap registers that trap entry writes (R375, R376). -/
def TrapInfo.regs (x : TrapInfo) (old : TrapRegs) : TrapRegs :=
  { old with cause := BitVec.ofNat 32 (x.cause + 256 * x.code + 65536 * ofBool x.isOpen),
             pc := x.pc, mask := x.mask, faultva := x.faultva }

/-- The trapping split at its handler's first word: registers and status saved, CMODE and MMODE at reset,
loop depth 0, a fresh run (R375). -/
def Split.enterTrap (sp : Split) (x : TrapInfo) (cmode mmode : Word) (tvec : DWord) : Split :=
  { sp with
    trapRegs := x.regs sp.trapRegs
    saved := some { member := sp.member, exited := sp.exited, pc := sp.pc, loop := sp.loop, run := sp.run,
                    cmode := cmode, mmode := mmode, progress := sp.progress }
    loop := { sp.loop with levels := [], body := [] }
    run := Run.closed, pc := tvec, wait := none, handed := none, parked := none, state := .active
    progress := Progress.none }

/-- A split of a crew takes a trap: it enters the context's handler, or the crew is killed when it is in a
handler already or TVEC is unusable (R375, R378). -/
def takeTrap (tid sid : Nat) (x : TrapInfo) (s : State) : State :=
  match Sparse.find? s.threads tid with
  | none => s
  | some t =>
    let tvec := match Sparse.find? s.contexts (cidOf s t.launch) with | some c => c.tvec | none => 0
    if t.handler.isSome || !tvecOk tvec then killCrew tid x.cause sid s
    else
      modThread tid (fun t => { t with
        handler := some sid,
        regs := { t.regs with cmode := 0, mmode := 0 },
        splits := Sparse.alter t.splits sid (fun sp => sp.enterTrap x t.regs.cmode t.regs.mmode tvec) }) s

/-- The trap that a split's record holds until the split may raise it. -/
def Split.heldTrap (sp : Split) : Option TrapInfo :=
  match sp.handed with
  | some (.trap x) => if sp.state = .active then some x else none
  | _ => none

/-- The pending trap that is delivered next: of the lowest SPLITID that holds one (R379, R380). -/
def Thread.nextPending (t : Thread) : Option (Nat × TrapInfo) :=
  t.splits.findSome? (fun ks => ks.2.heldTrap.map (fun x => (ks.1, x)))

/-- A split that raises a trap is not alone in its cycle: another split of its crew still issues in it, or one of a lower
SPLITID has raised a trap (R380). -/
def trapJoins (s : State) (t : Thread) (tid sid : Nat) : Bool :=
  t.handler.isNone && (s.abreast.any (fun r => r.1 == tid) ||
    (match t.nextPending with | some (k, _) => decide (k < sid) | none => false))

/-- A trap waits in its split's record (R380). -/
def keepTrap (tid sid : Nat) (x : TrapInfo) (s : State) : State :=
  modSplit tid sid (fun sp => { sp with
    handed := some (.trap x), wait := some (sp.wait.getD { obj := .trap, instr := .nop 0, since := s.links }) }) s

/-- A trap raised by a thread (R179, R347, R375): a crew enters its handler, or keeps the trap for the end of the cycle
when splits of it raise in one (R380); a scout or a sequencer sets its trap registers, which its share or its sequencer's record keeps, posts an event and stops. -/
def raiseTrap (tid sid : Nat) (x : TrapInfo) (s : State) : State :=
  match Sparse.find? s.threads tid with
  | none => s
  | some t =>
    let postIt (s : State) : State :=
      post (cidOf s t.launch) 0 (coreSidx t.core) 5 (identOf s t.launch) (t.crewid + 65536 * sid) x.cause 0 s
    match t.kind with
    | .crew => if trapJoins s t tid sid then keepTrap tid sid x s else takeTrap tid sid x s
    | .scout =>
      let share := match Sparse.find? s.launches t.launch with | some l => shareOf l t.crewid | none => 0
      endScout tid (postIt { s with shares := Sparse.alter s.shares (shareKey t.launch share) (fun q => { q with trap := x.regs q.trap }) })
    | .mseq | .cseq =>
      let which := if t.kind = .mseq then 0 else 1
      let old := match Sparse.find? t.splits sid with | some sp => sp.trapRegs | none => TrapRegs.start
      stopSequencer tid x.cause (postIt (modCore t.core (fun c => c.setSeq which { c.seq which with trap := x.regs old }) s))

/-- The split returned to by TRET: mask and loop as at entry but for the lanes that exited in the
handler, the kept run, and the address in TRAPPC (R90, R197, R379). What the trapped word had performed is
kept when the split returns to it (R277). -/
def Split.leaveTrap (sp : Split) (sv : TrapSave) : Split :=
  { sp with member := sv.member, exited := sv.exited ||| sp.exited, loop := sv.loop, run := sv.run,
            pc := sp.trapRegs.pc, saved := none,
            progress := if sp.trapRegs.pc = sv.pc then sv.progress else Progress.none }

/-- The return from a trap handler (R90, R379). -/
def returnTrap (tid sid : Nat) (s : State) : State :=
  match getSplit s tid sid with
  | none => s
  | some sp =>
    match sp.saved with
    | none => s
    | some sv =>
      let s := modThread tid (fun t => { t with
        handler := none,
        regs := { t.regs with cmode := sv.cmode, mmode := sv.mmode },
        splits := Sparse.alter t.splits sid (fun sp => sp.leaveTrap sv) }) s
      match (Sparse.find? s.threads tid).bind Thread.nextPending with
      | some (k, x) => takeTrap tid k x s
      | none => s

/-! ## How an instruction ends early -/

/-- Why an instruction stops before it completes: a trap, a page fault, a wait, or the end of its split. -/
inductive Stop where
  | trap (x : TrapInfo)
  | park (p : Parked)
  | wait (o : WaitObj) (i : Instr)
  | gone
deriving DecidableEq, Repr

/-- The computations of meanings: a state, and an early end. -/
abbrev M := EStateM Stop State

/-- Apply a state change. -/
def act (f : State → State) : M Unit := fun s => .ok () (f s)

/-- Run a state change that answers a value. -/
def ask {α : Type} (f : State → α × State) : M α := fun s => match f s with | (x, s) => .ok x s

/-- SRC and WHO of a thread's fault record (R382). -/
def srcOf : Kind → Nat
  | .crew => 0
  | .scout => 1
  | .mseq => 2
  | .cseq => 3
def accCode : Acc → Nat
  | .read => 0
  | .write => 1
  | .atomic => 2
  | .fetch => 3

/-- A split parks on a page fault (R381): FAULTVA and FAULTMASK written, one record posted, the run
kept open, the ACTIVE place given up. -/
def parkSplit (tid sid : Nat) (p : Parked) (i : Instr) (s : State) : State :=
  match Sparse.find? s.threads tid with
  | none => s
  | some t =>
    let cid := cidOf s t.launch
    let (tok, s) := takeToken cid s
    let p := { p with token := tok }
    let s := modThread tid (fun t => (Thread.fill { t with splits := Sparse.alter t.splits sid (fun sp =>
      { sp with parked := some p, state := .waiting, handed := none,
                wait := some { obj := .fault, instr := i, since := s.links },
                trapRegs := { sp.trapRegs with faultva := p.va, faultmask := p.mask } }) } 16)) { s with links := s.links + 1 }
    sendFault cid { va := p.va, mask := p.mask, src := srcOf t.kind, acc := accCode p.acc, why := p.why,
                    token := tok, launch := identOf s t.launch,
                    who := t.crewid + 65536 * sid } s

/-- A split is linked at the tail of an object's waiter list and gives up its ACTIVE place (R186). -/
def linkWait (tid sid : Nat) (o : WaitObj) (i : Instr) (s : State) : State :=
  modThread tid (fun t => Thread.fill { t with splits := Sparse.alter t.splits sid (fun sp =>
    { sp with state := .waiting, handed := none, wait := some { obj := o, instr := i, since := s.links } }) } 16)
    { s with links := s.links + 1 }

/-! ## The frame of an instruction word -/

/-- What an issuing split sees: its thread and record at issue, and the registers its sources read. -/
structure Env where
  tid  : Nat
  sid  : Nat
  cid  : Nat
  th   : Thread
  sp   : Split
  regs : Regs
deriving DecidableEq, Repr

/-- How an instruction continues: at a target, or after its word (`skip` words on, for a LOOP of count
zero); and whether it ends its run whatever its S bit. -/
structure Flow where
  target : Option DWord
  skip   : Nat
  close  : Bool

/-- Continue at the next word. -/
def Flow.next : Flow := { target := none, skip := 0, close := false }

/-- Continue at the next word; the run ends here. -/
def Flow.nextClose : Flow := { target := none, skip := 0, close := true }

/-- Transfer to a target. -/
def Flow.jump (a : DWord) : Flow := { target := some a, skip := 0, close := false }

/-- A split that issues a word again from its start has been handed nothing for it. -/
def Split.anew (sp : Split) : Split := if sp.handed = some .again then { sp with handed := none } else sp

/-- The environment of the split named, its run as it stands. -/
def envOf (s : State) (tid sid : Nat) : Option Env :=
  match Sparse.find? s.threads tid, getSplit s tid sid with
  | some t, some sp => some { tid := tid, sid := sid, cid := cidOf s t.launch, th := t, sp := sp.anew, regs := sp.run.image }
  | _, _ => none

/-- The environment once the instruction has closed its run: sources read what the close wrote, modes stay
those of the run (R24, R192). -/
def closeFirst (e : Env) : M Env := do
  act (closeRun e.tid e.sid)
  let s ← get
  match Sparse.find? s.threads e.tid, getSplit s e.tid e.sid with
  | some t, some sp => pure { e with th := t, sp := sp.anew, regs := t.regs }
  | _, _ => throw .gone

/-- The split moves on: to the target, or through the word it has executed. -/
def Split.advance (sp : Split) (f : Flow) : Split :=
  match f.target with
  | some a => { sp with pc := a, loop := sp.loop.transfer a.toNat }
  | none =>
    match sp.loop.fall (sp.pc.toNat + 4 * f.skip) with
    | (loop, next) => { sp with pc := BitVec.ofNat 64 next, loop := loop }

/-- The run ends with this instruction: its S bit, the 64th place, or its own description (R21). -/
def endsRun (m : BitVec 1) (f : Flow) (count : Nat) : Bool :=
  decide (m = 1#1) || decide (Config.runLimit ≤ count) || f.close

/-- A close would pass the 32 registers of a speculative fence's checkpoint (R279). -/
def Split.specFull (sp : Split) : Bool :=
  match sp.spec with
  | some x => decide (32 < (x.note sp.run.pend).count)
  | none => false

/-- An instruction has completed. -/
def complete (tid sid : Nat) (m : BitVec 1) (i : Instr) (f : Flow) (s : State) : State :=
  match getSplit s tid sid with
  | none => s
  | some sp =>
    let close := endsRun m f (sp.run.count + 1)
    let s := modSplit tid sid (fun sp =>
      Split.advance { sp with run := { sp.run with count := sp.run.count + 1 }, wait := none, handed := none,
                              parked := none, progress := Progress.none } f) s
    if close then (if sp.specFull then linkWait tid sid .finish i s else closeRun tid sid s) else s

/-- The trap of a split under an incomplete speculative fence is held (R279): the split stops until the
fence completes. -/
def holdTrap (tid sid : Nat) (x : TrapInfo) (i : Instr) (s : State) : State :=
  linkWait tid sid .fence i (modSplit tid sid (fun sp => { sp with spec := sp.spec.map (fun y => { y with held := some x }) }) s)

/-- A page fault of a split under an incomplete speculative fence is held too (R280). -/
def holdFault (tid sid : Nat) (p : Parked) (i : Instr) (s : State) : State :=
  linkWait tid sid .fence i (modSplit tid sid (fun sp => { sp with spec := sp.spec.map (fun y => { y with fault := some p }) }) s)

/-- The context of a thread. -/
def cidOfThread (s : State) (tid : Nat) : Nat :=
  match Sparse.find? s.threads tid with | some t => cidOf s t.launch | none => 0

/-- The stop of an instruction takes effect; a line that a handler has is waited for (R247). -/
def finishStop (tid sid : Nat) (i : Instr) (x : Stop) (s : State) : State :=
  let spec := match getSplit s tid sid with | some sp => sp.spec.isSome | none => false
  match x with
  | .trap x => if spec then holdTrap tid sid x i s else raiseTrap tid sid x s
  | .park p =>
    if p.why = whyHandler then linkWait tid sid (.line (cidOfThread s tid) (p.va.toNat / 128) false) i s
    else if spec then holdFault tid sid p i s else parkSplit tid sid p i s
  | .wait o i => linkWait tid sid o i s
  | .gone => s

/-- What a body leaves: the split moves on, or its stop takes effect. -/
def settleBody (tid sid : Nat) (m : BitVec 1) (i : Instr) : EStateM.Result Stop State Flow → State
  | .ok f s => complete tid sid m i f s
  | .error x s => finishStop tid sid i x s

/-- The words that issue while a speculative fence is incomplete (R279). -/
def specAllowed : Instr → Bool
  | .add .. | .sub .. | .mul .. | .mulh .. | .fma .. | .div .. | .rem .. | .min .. | .max .. | .and .. | .or ..
  | .xor .. | .andn .. | .shl .. | .shr .. | .sra .. | .bfx .. | .bfi .. | .permb .. | .sel .. | .cmp ..
  | .pred .. | .addx .. | .mov .. | .not .. | .neg .. | .abs .. | .popc .. | .clz .. | .ctz .. | .brev ..
  | .frc .. | .rint .. | .rcp .. | .rsq .. | .sqrt .. | .exp2 .. | .log2 .. | .sinp .. | .cosp .. | .tanh ..
  | .cvt .. | .li .. | .lih .. | .br .. | .ldb .. | .ldh .. | .ldw .. | .ldd .. | .ldq .. | .ldc .. | .lds ..
  | .shfl .. | .shflx .. | .shflup .. | .shfldn .. | .voteall .. | .voteany .. | .ballot .. | .mbcnt ..
  | .firstlane .. => true
  | _ => false

/-- The split must stall at this word until its speculative fence completes (R279). -/
def Env.stalled (e : Env) (i : Instr) : Bool := e.sp.spec.isSome && !specAllowed i

/-- Every instruction word acts in this frame: the split's run opens if it is closed, the body runs, and
the split moves on, or the stop takes effect. Without an issuing split there is no machine to act on. -/
def issue (m : BitVec 1) (i : Instr) (body : Env → M Flow) (s : State) : Host.Outcome State Fault Refusal :=
  match s.turn with
  | none => .fault .noIssuer
  | some (tid, sid) =>
    match envOf (openRun tid sid s) tid sid with
    | none => .fault .noIssuer
    | some e =>
      .next (match e.sp.handed with
        | some (.trap x) => raiseTrap tid sid x s
        | _ =>
          if e.stalled i then linkWait tid sid .fence i (openRun tid sid s)
          else settleBody tid sid m i (body e (openRun tid sid s)))

end Sys2Proof.Machine
end

