-- ==== Sys2Proof/Machine/Operands.lean ====
section
/-! DEFINITION. Operand forms: modes, lanes and the guard (R18, R29), the checks 4 to 8 of R45 with the
lanes of R46, elements by TYPE (R61), and the writing of results (R15, R62). -/

namespace Sys2Proof.Machine

/-! ## Modes, lanes and the guard -/

/-- CMODE and MMODE of the run (R22, R24). -/
def Env.cmode (e : Env) : Nat := e.sp.run.image.cmode.toNat
def Env.mmode (e : Env) : Nat := e.sp.run.image.mmode.toNat

/-- The fields of CMODE (R18) and MMODE (R19). -/
def Env.guardReg (e : Env) : Nat := bits e.cmode 0 3
def Env.ginv (e : Env) : Bool := bit e.cmode 3
def Env.type (e : Env) : Nat := bits e.cmode 4 4
def Env.rnd (e : Env) : Nat := bits e.cmode 8 2
def Env.sat (e : Env) : Bool := bit e.cmode 10
def Env.ftz (e : Env) : Bool := bit e.cmode 11
def Env.ovf (e : Env) : Bool := bit e.cmode 12
def Env.spadchk (e : Env) : Bool := bit e.cmode 13
def Env.scope (e : Env) : Nat := bits e.mmode 0 2
def Env.hint (e : Env) : Nat := bits e.mmode 2 2

/-- A crew has its width; a scout or a sequencer acts as one lane (R176, R346). -/
def Env.width (e : Env) : Nat := if e.th.kind = .crew then e.th.width else 1

/-- The lanes of a mask, in ascending order. -/
def lanesOf (width : Nat) (mask : DWord) : List Nat := (List.range width).filter (fun l => mask.getLsbD l)

/-- The mask of some lanes. -/
def maskOf (ls : List Nat) : DWord := ls.foldl (fun m l => m ||| (1#64 <<< l)) 0

/-- The active lanes (R161). -/
def Env.active (e : Env) : List Nat := lanesOf e.width e.sp.active

/-- guard(l) of R29, read from the registers that the instruction reads. -/
def Env.guardAt (e : Env) (l : Nat) : Bool := xor (e.regs.pred l e.guardReg) e.ginv

/-- The active lanes whose guard is true. -/
def Env.lanes (e : Env) : List Nat := e.active.filter e.guardAt

/-! ## Traps and register results -/

/-- The run of the split is open now. -/
def Env.openNow (e : Env) (s : State) : Bool :=
  match getSplit s e.tid e.sid with | some sp => sp.run.isOpen | none => false

/-- Trap with a cause, a code, failing lanes and a fault address (R376, R377). -/
def trapWith {α : Type} (e : Env) (cause code : Nat) (ls : List Nat) (va : Nat) : M α := fun s =>
  .error (.trap { cause := cause, code := code, isOpen := e.openNow s, pc := e.sp.pc, mask := maskOf ls,
                  faultva := BitVec.ofNat 64 va }) s

/-- The cause codes of R377. -/
def causeIllegal : Nat := 1
def causeRegRange : Nat := 2
def causeAlign : Nat := 3
def causeAccess : Nat := 4
def causeSpadRange : Nat := 5
def causeSpadUninit : Nat := 6
def causePromise : Nat := 7
def causeBadHandle : Nat := 8
def causeTermTag : Nat := 9
def causeViewFull : Nat := 10
def causeLoopDepth : Nat := 11
def causeSplitOvf : Nat := 12
def causeFifoSize : Nat := 13
def causeEngineBusy : Nat := 14
def causePoison : Nat := 15
def causeSys : Nat := 16
def causeBrk : Nat := 17

/-- ILLEGAL at a step of R45. -/
def illegal {α : Type} (e : Env) (step : Nat) (ls : List Nat) : M α := trapWith e causeIllegal step ls 0

/-- Register results and raised flags of the instruction. -/
def emit (e : Env) (ws : List RegWrite) (flags : Word) : M Unit := act (emitTo e.tid e.sid ws flags)

/-! ## The checks of R45, steps 4 to 8 -/

/-- What a description requires of a register field. -/
inductive Req where
  | any | scal | vect
deriving DecidableEq, Repr

/-- A register operand: its field, what it must be, and how many registers it names. -/
structure Opnd where
  field : BitVec 8
  req   : Req
  n     : Nat
deriving DecidableEq, Repr

/-- A field names a vector register. -/
def isVec (f : BitVec 8) : Bool := decide (f.toNat < 192)

/-- Register number within its kind. -/
def regNum (f : BitVec 8) : Nat := if f.toNat < 192 then f.toNat else f.toNat - 192

/-- Step 4: a vector register where a scalar one is required, or in scout or sequencer code (R47). -/
def Opnd.bad4 (k : Kind) (o : Opnd) : Bool := isVec o.field && (decide (o.req = .scal) || decide (k ≠ .crew))

/-- Step 5: a misaligned pair or quad (R12). -/
def Opnd.bad5 (o : Opnd) : Bool := decide (1 < o.n) && decide (regNum o.field % Nat.min o.n 4 ≠ 0)

/-- Step 6: a register at or above `.vregs` (R11). -/
def Opnd.bad6 (vregs : Nat) (o : Opnd) : Bool := isVec o.field && decide (vregs < o.field.toNat + o.n)

/-- Step 8: a scalar register where the description requires a vector one. -/
def Opnd.bad8 (o : Opnd) : Bool := decide (o.req = .vect) && !isVec o.field

/-- The issuers that execute an instruction (R178, R345, R346). -/
def anyKind : List Kind := [.crew, .scout, .mseq, .cseq]
def crewOnly : List Kind := [.crew]

/-- The lanes that a fate names (R46). -/
def Env.fate (e : Env) (guarded : Bool) : List Nat := if guarded then e.lanes else e.active

/-- Steps 4 to 7 and the register forms of step 8, in the order of R45. -/
def checkOps (e : Env) (who : List Kind) (guarded : Bool) (ops : List Opnd) (modeBad : Bool) : M Unit :=
  if !who.contains e.th.kind || ops.any (Opnd.bad4 e.th.kind) then illegal e 4 (e.fate guarded)
  else if ops.any Opnd.bad5 then illegal e 5 (e.fate guarded)
  else if ops.any (Opnd.bad6 e.th.vregs) then trapWith e causeRegRange 0 (e.fate guarded) 0
  else if modeBad then illegal e 7 (e.fate guarded)
  else if ops.any Opnd.bad8 then illegal e 8 (e.fate guarded)
  else pure ()

/-- An instruction subject to the guard has no effect when no active lane's guard is true (R29, R46). -/
def whenLanes (e : Env) (guarded : Bool) (k : M Flow) : M Flow :=
  if guarded && e.lanes.isEmpty then pure Flow.next else k

/-! ## Elements by TYPE (R61) -/

/-- The kinds of element: signed, unsigned, and a float format by its CVT code (2 F32, 3 F16, 4 BF16,
9 F64). -/
inductive ElemKind where
  | sint | uint | flt (fmt : Nat)
deriving DecidableEq, Repr

/-- A TYPE: elements, element width, kind. -/
structure ElemType where
  n    : Nat
  b    : Nat
  kind : ElemKind
deriving DecidableEq, Repr

/-- The table of R61; codes 12 to 15 are reserved. -/
def elemType : Nat → Option ElemType
  | 0 => some ⟨1, 32, .sint⟩
  | 1 => some ⟨1, 32, .uint⟩
  | 2 => some ⟨1, 32, .flt 2⟩
  | 3 => some ⟨2, 16, .flt 3⟩
  | 4 => some ⟨2, 16, .flt 4⟩
  | 5 => some ⟨2, 16, .sint⟩
  | 6 => some ⟨2, 16, .uint⟩
  | 7 => some ⟨4, 8, .sint⟩
  | 8 => some ⟨4, 8, .uint⟩
  | 9 => some ⟨1, 64, .flt 9⟩
  | 10 => some ⟨1, 64, .sint⟩
  | 11 => some ⟨1, 64, .uint⟩
  | _ => none

/-- Registers per typed operand. -/
def ElemType.regs (t : ElemType) : Nat := if t.b = 64 then 2 else 1
def ElemType.isFloat (t : ElemType) : Bool := match t.kind with | .flt _ => true | _ => false
def ElemType.isSigned (t : ElemType) : Bool := decide (t.kind = .sint)

/-- Registers per typed operand under the run's TYPE; a reserved code fails at step 7. -/
def Env.typeRegs (e : Env) : Nat := match elemType e.type with | some t => t.regs | none => 1

/-- The value of an operand of one or two registers. -/
def Env.val (e : Env) (lane : Nat) (f : BitVec 8) (n : Nat) : Nat :=
  if n = 2 then (e.regs.pair lane f).toNat else (e.regs.field lane f).toNat

/-- Element i of a value. -/
def elemAt (b x i : Nat) : Nat := x / 2 ^ (b * i) % 2 ^ b

/-- A value from its elements, with the OR of their flags (R62). -/
def joinElems (b : Nat) (f : Nat → Nat × Word) : Nat → Nat × Word
  | 0 => (0, 0)
  | n + 1 =>
    match joinElems b f n, f n with
    | (x, fl), (y, fl') => (x + y % 2 ^ b * 2 ^ (b * n), fl ||| fl')

/-! ## Results -/

/-- The lanes that an instruction with this destination writes: its guarded lanes, or once for the split
(R15). -/
def Env.destLanes (e : Env) (d : BitVec 8) : List Nat := if isVec d then e.lanes else [0]

/-- Write one register. -/
def regWrite (lane : Nat) (d : BitVec 8) (x : Nat) : RegWrite :=
  if isVec d then .vec lane d.toNat (BitVec.ofNat 32 x) else .scal (d.toNat - 192) (BitVec.ofNat 32 x)

/-- Write n consecutive registers, the lowest word first (R12). -/
def regWrites (lane : Nat) (d : BitVec 8) (x : Nat) : Nat → List RegWrite
  | 0 => []
  | n + 1 => regWrite lane d x :: regWrites lane (d + 1) (x / 2 ^ 32) n

/-- A lane-wise result: for each lane its value and flags. -/
def laneResults (lanes : List Nat) (d : BitVec 8) (n : Nat) (f : Nat → Nat × Word) : List RegWrite × Word :=
  (lanes.flatMap (fun l => regWrites l d (f l).1 n), lanes.foldl (fun acc l => acc ||| (f l).2) 0)

/-- Emit a lane-wise result over the lanes a destination takes, and go on. -/
def emitLanes (e : Env) (d : BitVec 8) (n : Nat) (f : Nat → Nat × Word) : M Flow := do
  let r := laneResults (e.destLanes d) d n f
  emit e r.1 r.2
  pure Flow.next

/-- An operand of the typed form, one whose register kind must suit the destination (R15). -/
def srcFor (d a : BitVec 8) (n : Nat) : Opnd := ⟨a, if isVec d then .any else .scal, n⟩

end Sys2Proof.Machine
end

