-- ==== Sys2Proof/Machine/Arith.lean ====
section
/-! DEFINITION. Arithmetic, logic, shifts, bit fields, permute, select, compare, the UNARY family, CVT and
the immediates (R61 to R83, R125 to R129). -/

namespace Sys2Proof.Machine

/-! ## The typed pattern (R62) -/

/-- TYPE is reserved, or not one that the instruction accepts (R62): a mode check. -/
def Env.typeBad (e : Env) (ok : ElemType → Bool) : Bool :=
  match elemType e.type with | some t => !ok t | none => true

/-- A lane-wise typed instruction: `f` gives each lane's result under the TYPE of the run. -/
def typed (e : Env) (d : BitVec 8) (srcs : List Opnd) (ok : ElemType → Bool)
    (f : ElemType → Nat → Nat × Word) : M Flow :=
  whenLanes e (isVec d) do
    checkOps e anyKind (isVec d) (⟨d, .any, e.typeRegs⟩ :: srcs) (e.typeBad ok)
    let t := (elemType e.type).getD ⟨1, 32, .sint⟩
    emitLanes e d t.regs (f t)

/-- The float mode of an arithmetic instruction: OVF does not act (R64, R110). -/
def Env.fmode (e : Env) : FMode := { rnd := e.rnd, ftz := e.ftz, ovf := none }

/-- A typed operand's value. -/
def Env.typedVal (e : Env) (t : ElemType) (l : Nat) (f : BitVec 8) : Nat := e.val l f t.regs

/-- Element by element over two sources. -/
def elems2 (t : ElemType) (a b : Nat) (op : Nat → Nat → Nat × Word) : Nat × Word :=
  joinElems t.b (fun i => op (elemAt t.b a i) (elemAt t.b b i)) t.n

/-- Element by element over one source. -/
def elems1 (t : ElemType) (a : Nat) (op : Nat → Nat × Word) : Nat × Word :=
  joinElems t.b (fun i => op (elemAt t.b a i)) t.n

/-- An operation on elements: integer kinds by an exact integer, float kinds by a float function. -/
def kindOp2 (e : Env) (t : ElemType) (sat : Bool) (i : Int → Int → Int)
    (g : FloatFmt → FMode → FVal → FVal → Nat × Word) (x y : Nat) : Nat × Word :=
  match t.kind with
  | .flt c => g (floatFmt c) e.fmode (decodeFloat (floatFmt c) e.ftz x) (decodeFloat (floatFmt c) e.ftz y)
  | _ => fitInt t.isSigned sat t.b (i (intVal t.isSigned t.b x) (intVal t.isSigned t.b y))

/-- A two-source typed instruction. -/
def typed2 (e : Env) (d a b : BitVec 8) (ok : ElemType → Bool) (op : ElemType → Nat → Nat → Nat × Word) : M Flow :=
  typed e d [srcFor d a e.typeRegs, srcFor d b e.typeRegs] ok
    (fun t l => elems2 t (e.typedVal t l a) (e.typedVal t l b) (op t))

/-- Every kind, integer kinds, float kinds. -/
def allTypes (_ : ElemType) : Bool := true
def intTypes (t : ElemType) : Bool := !t.isFloat
def floatTypes (t : ElemType) : Bool := t.isFloat

/-! ## ADD to MAX (R65, R66) -/

/-- ADD (R65). -/
def execAdd (m : BitVec 1) (d a b : BitVec 8) (s : State) : Host.Outcome State Fault Refusal :=
  issue m (.add m d a b) (fun e => typed2 e d a b allTypes (fun t => kindOp2 e t e.sat (· + ·) fAdd)) s

/-- x − y for floats. -/
def fSub (f : FloatFmt) (md : FMode) (x y : FVal) : Nat × Word := fAdd f md x y.opp

/-- SUB (R65). -/
def execSub (m : BitVec 1) (d a b : BitVec 8) (s : State) : Host.Outcome State Fault Refusal :=
  issue m (.sub m d a b) (fun e => typed2 e d a b allTypes (fun t => kindOp2 e t e.sat (· - ·) fSub)) s

/-- MUL (R65). -/
def execMul (m : BitVec 1) (d a b : BitVec 8) (s : State) : Host.Outcome State Fault Refusal :=
  issue m (.mul m d a b) (fun e => typed2 e d a b allTypes (fun t => kindOp2 e t e.sat (· * ·) fMul)) s

/-- The high half of the product (R65). -/
def mulHigh (t : ElemType) (x y : Nat) : Nat × Word :=
  (wrapInt t.b (intVal t.isSigned t.b x * intVal t.isSigned t.b y / 2 ^ t.b), 0)

/-- MULH (R65). -/
def execMulh (m : BitVec 1) (d a b : BitVec 8) (s : State) : Host.Outcome State Fault Refusal :=
  issue m (.mulh m d a b) (fun e => typed2 e d a b intTypes mulHigh) s

/-- x · y + z by element (R65). -/
def fmaElem (e : Env) (t : ElemType) (x y z : Nat) : Nat × Word :=
  match t.kind with
  | .flt c =>
    let f := floatFmt c
    fFma f e.fmode (decodeFloat f e.ftz x) (decodeFloat f e.ftz y) (decodeFloat f e.ftz z)
  | _ => fitInt t.isSigned e.sat t.b
      (intVal t.isSigned t.b x * intVal t.isSigned t.b y + intVal t.isSigned t.b z)

/-- FMA: D is its third operand (R65). -/
def execFma (m : BitVec 1) (d a b : BitVec 8) (s : State) : Host.Outcome State Fault Refusal :=
  issue m (.fma m d a b) (fun e =>
    typed e d [srcFor d a e.typeRegs, srcFor d b e.typeRegs] allTypes (fun t l =>
      joinElems t.b (fun i => fmaElem e t (elemAt t.b (e.typedVal t l a) i) (elemAt t.b (e.typedVal t l b) i)
        (elemAt t.b (e.typedVal t l d) i)) t.n)) s

/-- x / y by element (R65, R66). -/
def divElem (e : Env) (t : ElemType) (x y : Nat) : Nat × Word :=
  match t.kind with
  | .flt c => fDiv (floatFmt c) e.fmode (decodeFloat (floatFmt c) e.ftz x) (decodeFloat (floatFmt c) e.ftz y)
  | _ => intDiv t.isSigned t.b (intVal t.isSigned t.b x) (intVal t.isSigned t.b y)

/-- DIV (R65, R66). -/
def execDiv (m : BitVec 1) (d a b : BitVec 8) (s : State) : Host.Outcome State Fault Refusal :=
  issue m (.div m d a b) (fun e => typed2 e d a b allTypes (divElem e)) s

/-- x − y · trunc(x / y) by element (R66). -/
def remElem (t : ElemType) (x y : Nat) : Nat × Word :=
  intRem t.isSigned t.b (intVal t.isSigned t.b x) (intVal t.isSigned t.b y)

/-- REM (R65, R66). -/
def execRem (m : BitVec 1) (d a b : BitVec 8) (s : State) : Host.Outcome State Fault Refusal :=
  issue m (.rem m d a b) (fun e => typed2 e d a b intTypes remElem) s

/-- Float MIN and MAX in the shape of a float operation. -/
def fMin (f : FloatFmt) (_ : FMode) (x y : FVal) : Nat × Word := fMinMax f false x y
def fMax (f : FloatFmt) (_ : FMode) (x y : FVal) : Nat × Word := fMinMax f true x y

/-- MIN (R65, R111). -/
def execMin (m : BitVec 1) (d a b : BitVec 8) (s : State) : Host.Outcome State Fault Refusal :=
  issue m (.min m d a b) (fun e => typed2 e d a b allTypes (fun t => kindOp2 e t false min fMin)) s

/-- MAX (R65, R111). -/
def execMax (m : BitVec 1) (d a b : BitVec 8) (s : State) : Host.Outcome State Fault Refusal :=
  issue m (.max m d a b) (fun e => typed2 e d a b allTypes (fun t => kindOp2 e t false max fMax)) s

/-! ## Logic, shifts, bit fields (R67 to R69) -/

/-- A bitwise instruction: TYPE gives the width only (R67). -/
def bitwise (e : Env) (d a b : BitVec 8) (op : Nat → Nat → Nat) : M Flow :=
  typed e d [srcFor d a e.typeRegs, srcFor d b e.typeRegs] allTypes
    (fun t l => (op (e.typedVal t l a) (e.typedVal t l b), 0))

/-- AND, OR, XOR, ANDN (R67). -/
def execAnd (m : BitVec 1) (d a b : BitVec 8) (s : State) : Host.Outcome State Fault Refusal :=
  issue m (.and m d a b) (fun e => bitwise e d a b Nat.land) s
def execOr (m : BitVec 1) (d a b : BitVec 8) (s : State) : Host.Outcome State Fault Refusal :=
  issue m (.or m d a b) (fun e => bitwise e d a b Nat.lor) s
def execXor (m : BitVec 1) (d a b : BitVec 8) (s : State) : Host.Outcome State Fault Refusal :=
  issue m (.xor m d a b) (fun e => bitwise e d a b Nat.xor) s
def execAndn (m : BitVec 1) (d a b : BitVec 8) (s : State) : Host.Outcome State Fault Refusal :=
  issue m (.andn m d a b) (fun e => bitwise e d a b (fun x y => Nat.land x (2 ^ 64 - 1 - y))) s

/-- Registers of a shift amount: an operand of elements, or one register under a 64-bit code (R68). -/
def shiftAmount (e : Env) (t : ElemType) (l : Nat) (b : BitVec 8) (i : Nat) : Nat :=
  if t.b = 64 then e.val l b 1 else elemAt t.b (e.val l b 1) i

/-- A shift of each element of A by the amount in B. -/
def shift (e : Env) (d a b : BitVec 8) (op : ElemType → Nat → Nat → Nat × Word) : M Flow :=
  typed e d [srcFor d a e.typeRegs, srcFor d b 1] intTypes (fun t l =>
    joinElems t.b (fun i => op t (elemAt t.b (e.typedVal t l a) i) (shiftAmount e t l b i)) t.n)

/-- Shift left; with SAT the exact product is clamped (R68). -/
def shlElem (sat : Bool) (t : ElemType) (x k : Nat) : Nat × Word :=
  fitInt t.isSigned sat t.b (intVal t.isSigned t.b x * 2 ^ Nat.min k t.b)

/-- Shift right, with zeros or with copies of the top bit (R68). -/
def shrElem (t : ElemType) (x k : Nat) : Nat × Word := (x / 2 ^ Nat.min k t.b, 0)
def sraElem (t : ElemType) (x k : Nat) : Nat × Word := (wrapInt t.b (intVal true t.b x / 2 ^ Nat.min k t.b), 0)

/-- SHL, SHR, SRA (R68). -/
def execShl (m : BitVec 1) (d a b : BitVec 8) (s : State) : Host.Outcome State Fault Refusal :=
  issue m (.shl m d a b) (fun e => shift e d a b (shlElem e.sat)) s
def execShr (m : BitVec 1) (d a b : BitVec 8) (s : State) : Host.Outcome State Fault Refusal :=
  issue m (.shr m d a b) (fun e => shift e d a b shrElem) s
def execSra (m : BitVec 1) (d a b : BitVec 8) (s : State) : Host.Outcome State Fault Refusal :=
  issue m (.sra m d a b) (fun e => shift e d a b sraElem) s

/-- The types of bit fields: I32, N32, I64, N64 (R69). -/
def wholeTypes (t : ElemType) : Bool := !t.isFloat && decide (t.n = 1)

/-- Position and length of a field, clipped at the element width (R69): none when pos ≥ b. -/
def fieldOf (b ctl : Nat) : Option (Nat × Nat) :=
  let pos := bits ctl 0 6
  if b ≤ pos then none else some (pos, Nat.min (pos + bits ctl 8 6 + 1) b - pos)

/-- BFX of an element (R69). -/
def bfxElem (t : ElemType) (x ctl : Nat) : Nat :=
  match fieldOf t.b ctl with
  | none => 0
  | some (pos, n) => wrapInt t.b (intVal t.isSigned n (bits x pos n))

/-- BFI of an element: D at run begin with the field replaced (R69). DESIGN CHOICE (log 83): where pos is at or above
the width, D gets its value at run begin, so that an earlier write of the same run to D does not stand. -/
def bfiElem (t : ElemType) (old x ctl : Nat) : Nat :=
  match fieldOf t.b ctl with
  | none => old
  | some (pos, n) => old - bits old pos n * 2 ^ pos + x % 2 ^ n * 2 ^ pos

/-- BFX (R69). -/
def execBfx (m : BitVec 1) (d a b : BitVec 8) (s : State) : Host.Outcome State Fault Refusal :=
  issue m (.bfx m d a b) (fun e =>
    typed e d [srcFor d a e.typeRegs, srcFor d b 1] wholeTypes (fun t l => (bfxElem t (e.typedVal t l a) (e.val l b 1), 0))) s

/-- BFI (R69). -/
def execBfi (m : BitVec 1) (d a b : BitVec 8) (s : State) : Host.Outcome State Fault Refusal :=
  issue m (.bfi m d a b) (fun e =>
    typed e d [srcFor d a e.typeRegs, srcFor d b 1] wholeTypes
      (fun t l => (bfiElem t (e.typedVal t l d) (e.typedVal t l a) (e.val l b 1), 0))) s

/-! ## PERMB, SEL, ADDX (R70 to R72) -/

/-- One result byte of PERMB (R70). -/
def permByte (x c k : Nat) : Nat :=
  let y := bits x (8 * bits c (5 * k) 3) 8
  match bits c (5 * k + 3) 2 with
  | 0 => y
  | 1 => if bit y 7 then 0xFF else 0
  | 2 => 0
  | _ => 0xFF

/-- PERMB of one lane (R70). -/
def permb (x c : Nat) : Nat × Word :=
  if bits c 20 12 ≠ 0 then (0, flagSCF)
  else (permByte x c 0 + 2 ^ 8 * permByte x c 1 + 2 ^ 16 * permByte x c 2 + 2 ^ 24 * permByte x c 3, 0)

/-- PERMB (R70); it does not use TYPE. -/
def execPermb (m : BitVec 1) (d a b : BitVec 8) (s : State) : Host.Outcome State Fault Refusal :=
  issue m (.permb m d a b) (fun e => whenLanes e (isVec d) do
    checkOps e anyKind (isVec d) [⟨d, .any, 1⟩, srcFor d a 2, srcFor d b 1] false
    emitLanes e d 1 (fun l => permb (e.val l a 2) (e.val l b 1))) s

/-- SEL: every active lane is written; the guard selects (R71). -/
def execSel (m : BitVec 1) (d a b : BitVec 8) (s : State) : Host.Outcome State Fault Refusal :=
  issue m (.sel m d a b) (fun e => do
    checkOps e anyKind false [⟨d, .vect, e.typeRegs⟩, ⟨a, .any, e.typeRegs⟩, ⟨b, .any, e.typeRegs⟩] (e.typeBad allTypes)
    let r := laneResults e.active d e.typeRegs (fun l => (e.val l (if e.guardAt l then a else b) e.typeRegs, 0))
    emit e r.1 r.2
    pure Flow.next) s

/-- Bytes of an element (R72). -/
def ElemType.size (t : ElemType) : Nat := t.b / 8

/-- ADDX (R72). -/
def execAddx (m : BitVec 1) (d a b : BitVec 8) (s : State) : Host.Outcome State Fault Refusal :=
  issue m (.addx m d a b) (fun e => whenLanes e (isVec d) do
    checkOps e anyKind (isVec d) [⟨d, .any, 2⟩, srcFor d a 2, srcFor d b 1] (e.typeBad allTypes)
    let t := (elemType e.type).getD ⟨1, 32, .sint⟩
    emitLanes e d 2 (fun l => (wrapInt 64 ((e.val l a 2 : Int) + intVal true 32 (e.val l b 1) * t.size), 0))) s

/-! ## Compare and predicates (R73, R74) -/

/-- The conditions of CMP (R35) from less, equal and unordered. -/
def condHolds (cond : Nat) (lt eq uno : Bool) : Bool :=
  match cond with
  | 0 => eq && !uno
  | 1 => !eq || uno
  | 2 => lt && !uno
  | 3 => (lt || eq) && !uno
  | 4 => !(lt || eq) && !uno
  | 5 => !lt && !uno
  | 6 => !uno
  | _ => uno

/-- CMP of one lane: the result and INV (R73). -/
def cmpElem (e : Env) (t : ElemType) (cond x y : Nat) : Bool × Word :=
  match t.kind with
  | .flt c =>
    let u := decodeFloat (floatFmt c) e.ftz x
    let v := decodeFloat (floatFmt c) e.ftz y
    let uno := u.isNan || v.isNan
    (condHolds cond (fLess u v) (fEqual u v) uno,
     u.inv ||| v.inv ||| flagIf (uno && decide (2 ≤ cond) && decide (cond ≤ 5)) flagINV)
  | _ =>
    let i := intVal t.isSigned t.b x
    let j := intVal t.isSigned t.b y
    (condHolds cond (decide (i < j)) (decide (i = j)) false, 0)

/-- CMP (R73): packed codes are not accepted. -/
def execCmp (m : BitVec 1) (c p : BitVec 3) (a b : BitVec 8) (s : State) : Host.Outcome State Fault Refusal :=
  issue m (.cmp m c p a b) (fun e => whenLanes e true do
    checkOps e anyKind true [⟨a, .any, e.typeRegs⟩, ⟨b, .any, e.typeRegs⟩] (e.typeBad (fun t => decide (t.n = 1)))
    let t := (elemType e.type).getD ⟨1, 32, .sint⟩
    let r (l : Nat) := cmpElem e t c.toNat (e.typedVal t l a) (e.typedVal t l b)
    emit e (e.lanes.map (fun l => .pred l p.toNat (r l).1)) (e.lanes.foldl (fun acc l => acc ||| (r l).2) 0)
    pure Flow.next) s

/-- The operations of PRED (R74). -/
def predOp (o : Nat) (x y : Bool) : Bool :=
  match o with
  | 0 => x && y
  | 1 => x || y
  | 2 => xor x y
  | _ => x && !y

/-- PRED (R74). -/
def execPred (m : BitVec 1) (o : BitVec 2) (d : BitVec 3) (i : BitVec 1) (a : BitVec 3) (j : BitVec 1) (b : BitVec 3)
    (s : State) : Host.Outcome State Fault Refusal :=
  issue m (.pred m o d i a j b) (fun e => whenLanes e true do
    checkOps e anyKind true [] false
    emit e (e.lanes.map (fun l => .pred l d.toNat (predOp o.toNat (xor (e.regs.pred l a.toNat) (decide (i = 1#1)))
      (xor (e.regs.pred l b.toNat) (decide (j = 1#1)))))) 0
    pure Flow.next) s

/-! ## The UNARY family (R75 to R78) -/

/-- A one-source typed instruction. -/
def typed1 (e : Env) (d a : BitVec 8) (ok : ElemType → Bool) (op : ElemType → Nat → Nat × Word) : M Flow :=
  typed e d [srcFor d a e.typeRegs] ok (fun t l => elems1 t (e.typedVal t l a) (op t))

/-- A float function of one element. -/
def floatElem (e : Env) (g : FloatFmt → FMode → FVal → Nat × Word) (t : ElemType) (x : Nat) : Nat × Word :=
  match t.kind with
  | .flt c => g (floatFmt c) e.fmode (decodeFloat (floatFmt c) e.ftz x)
  | _ => (0, 0)

/-- MOV (R76): bit for bit. -/
def execMov (m : BitVec 1) (d a : BitVec 8) (s : State) : Host.Outcome State Fault Refusal :=
  issue m (.mov m d a) (fun e => typed1 e d a allTypes (fun _ x => (x, 0))) s

/-- NOT (R76). -/
def execNot (m : BitVec 1) (d a : BitVec 8) (s : State) : Host.Outcome State Fault Refusal :=
  issue m (.not m d a) (fun e => typed1 e d a allTypes (fun t x => (2 ^ t.b - 1 - x, 0))) s

/-- NEG and ABS of an element (R76). -/
def negElem (e : Env) (t : ElemType) (x : Nat) : Nat × Word :=
  match t.kind with
  | .flt c => fSign (floatFmt c) false (decodeFloat (floatFmt c) e.ftz x)
  | _ => fitInt t.isSigned e.sat t.b (0 - intVal t.isSigned t.b x)
def absElem (e : Env) (t : ElemType) (x : Nat) : Nat × Word :=
  match t.kind with
  | .flt c => fSign (floatFmt c) true (decodeFloat (floatFmt c) e.ftz x)
  | _ => fitInt t.isSigned e.sat t.b (intVal t.isSigned t.b x).natAbs

/-- NEG, ABS (R76). -/
def execNeg (m : BitVec 1) (d a : BitVec 8) (s : State) : Host.Outcome State Fault Refusal :=
  issue m (.neg m d a) (fun e => typed1 e d a allTypes (negElem e)) s
def execAbs (m : BitVec 1) (d a : BitVec 8) (s : State) : Host.Outcome State Fault Refusal :=
  issue m (.abs m d a) (fun e => typed1 e d a allTypes (absElem e)) s

/-- One bits among the low n. -/
def popCount (x : Nat) : Nat → Nat
  | 0 => 0
  | n + 1 => popCount x n + ofBool (bit x n)

/-- Zeros below the lowest one bit, among n bits. -/
def trailing (x n : Nat) : Nat := ((List.range n).find? (fun i => bit x i)).getD n

/-- Bits in reverse order. -/
def reverseBits (x n : Nat) : Nat := (List.range n).foldl (fun acc i => acc * 2 + ofBool (bit x i)) 0

/-- POPC, CLZ, CTZ, BREV (R76). -/
def execPopc (m : BitVec 1) (d a : BitVec 8) (s : State) : Host.Outcome State Fault Refusal :=
  issue m (.popc m d a) (fun e => typed1 e d a intTypes (fun t x => (popCount x t.b, 0))) s
def execClz (m : BitVec 1) (d a : BitVec 8) (s : State) : Host.Outcome State Fault Refusal :=
  issue m (.clz m d a) (fun e => typed1 e d a intTypes (fun t x => (t.b - bitLen x, 0))) s
def execCtz (m : BitVec 1) (d a : BitVec 8) (s : State) : Host.Outcome State Fault Refusal :=
  issue m (.ctz m d a) (fun e => typed1 e d a intTypes (fun t x => (trailing x t.b, 0))) s
def execBrev (m : BitVec 1) (d a : BitVec 8) (s : State) : Host.Outcome State Fault Refusal :=
  issue m (.brev m d a) (fun e => typed1 e d a intTypes (fun t x => (reverseBits x t.b, 0))) s

/-- FRC, RINT (R76). -/
def execFrc (m : BitVec 1) (d a : BitVec 8) (s : State) : Host.Outcome State Fault Refusal :=
  issue m (.frc m d a) (fun e => typed1 e d a floatTypes (floatElem e fFrc)) s
def execRint (m : BitVec 1) (d a : BitVec 8) (s : State) : Host.Outcome State Fault Refusal :=
  issue m (.rint m d a) (fun e => typed1 e d a floatTypes (floatElem e fRint)) s

/-- The float types without F64 (R77). -/
def shortFloats (t : ElemType) : Bool := t.isFloat && decide (t.b ≠ 64)

/-- RCP, RSQ, SQRT, EXP2, LOG2, SINP, COSP, TANH (R77, R78). -/
def execRcp (m : BitVec 1) (d a : BitVec 8) (s : State) : Host.Outcome State Fault Refusal :=
  issue m (.rcp m d a) (fun e => typed1 e d a floatTypes (floatElem e fRcp)) s
def execRsq (m : BitVec 1) (d a : BitVec 8) (s : State) : Host.Outcome State Fault Refusal :=
  issue m (.rsq m d a) (fun e => typed1 e d a shortFloats (floatElem e fRsq)) s
def execSqrt (m : BitVec 1) (d a : BitVec 8) (s : State) : Host.Outcome State Fault Refusal :=
  issue m (.sqrt m d a) (fun e => typed1 e d a floatTypes (floatElem e fSqrt)) s
def execExp2 (m : BitVec 1) (d a : BitVec 8) (s : State) : Host.Outcome State Fault Refusal :=
  issue m (.exp2 m d a) (fun e => typed1 e d a shortFloats (floatElem e fExp2)) s
def execLog2 (m : BitVec 1) (d a : BitVec 8) (s : State) : Host.Outcome State Fault Refusal :=
  issue m (.log2 m d a) (fun e => typed1 e d a shortFloats (floatElem e fLog2)) s
def execSinp (m : BitVec 1) (d a : BitVec 8) (s : State) : Host.Outcome State Fault Refusal :=
  issue m (.sinp m d a) (fun e => typed1 e d a shortFloats (floatElem e fSinp)) s
def execCosp (m : BitVec 1) (d a : BitVec 8) (s : State) : Host.Outcome State Fault Refusal :=
  issue m (.cosp m d a) (fun e => typed1 e d a shortFloats (floatElem e fCosp)) s
def execTanh (m : BitVec 1) (d a : BitVec 8) (s : State) : Host.Outcome State Fault Refusal :=
  issue m (.tanh m d a) (fun e => typed1 e d a shortFloats (floatElem e fTanh)) s

/-! ## CVT (R125 to R129) -/

/-- The float mode of a conversion: OVF acts (R110). -/
def Env.cvtMode (e : Env) : FMode := { rnd := e.rnd, ftz := e.ftz, ovf := some e.ovf }

/-- A code names an SX format. -/
def isSx (c : Nat) : Bool := decide (11 ≤ c) && decide (c ≤ 13)

/-- The groups of 16 lanes that take part: lane 16g active with its guard true (R128). -/
def Env.groups (e : Env) : List Nat := (List.range (e.width / 16)).filter (fun g => e.lanes.contains (16 * g))

/-- The inputs of a block: a lane that is not active with its guard true supplies +0 (R128). -/
def blockInputs (e : Env) (src : Nat) (a : BitVec 8) (g : Nat) : List FVal :=
  (List.range 16).map (fun i =>
    let f := floatFmt src
    if e.lanes.contains (16 * g + i) then decodeFloat f e.ftz ((e.regs.field (16 * g + i) a).toNat % 2 ^ f.width)
    else .fin false 0 0)

/-- CVT to SX of one group (R117, R120, R128). -/
def cvtToSx (e : Env) (src dst : Nat) (d a : BitVec 8) (g : Nat) : List RegWrite × Word :=
  let (r, bytes, fl) := quantize e.rnd (sxBits dst) (blockInputs e src a g)
  (((List.range 16).filter (fun i => e.lanes.contains (16 * g + i))).map (fun i =>
      regWrite (16 * g + i) d (bytes.getD i 0 + (if i = 0 then r * 4096 else 0))), fl)

/-- CVT from SX of one group (R117, R128): the record stands in lane 16g of A at run begin. -/
def cvtFromSx (e : Env) (src dst : Nat) (d a : BitVec 8) (g : Nat) : List RegWrite × Word :=
  let r := bits (e.regs.field (16 * g) a).toNat 12 20
  let ls := (List.range 16).filter (fun i => e.lanes.contains (16 * g + i))
  let one (i : Nat) := sxDecode (sxBits src) dst r i ((e.regs.field (16 * g + i) a).toNat % 256) e.cvtMode
  (ls.map (fun i => regWrite (16 * g + i) d (one i).1), ls.foldl (fun acc i => acc ||| (one i).2) 0)

/-- CVT (R127, R128); a conversion with an SX code is a crew's (R178, R346). -/
def execCvt (m : BitVec 1) (d a : BitVec 8) (f g : BitVec 4) (s : State) : Host.Outcome State Fault Refusal :=
  issue m (.cvt m d a f g) (fun e =>
    if isSx f.toNat || isSx g.toNat then
      whenLanes e (isVec d) do
        checkOps e crewOnly (isVec d) [⟨d, .vect, 1⟩, ⟨a, .vect, 1⟩] false
        let rs := e.groups.map (fun k =>
          if isSx g.toNat then cvtToSx e f.toNat g.toNat d a k else cvtFromSx e f.toNat g.toNat d a k)
        emit e (rs.flatMap Prod.fst) (rs.foldl (fun acc r => acc ||| r.2) 0)
        pure Flow.next
    else
      whenLanes e (isVec d) do
        checkOps e anyKind (isVec d) [⟨d, .any, codeRegs g.toNat⟩, srcFor d a (codeRegs f.toNat)] false
        emitLanes e d (codeRegs g.toNat) (fun l =>
          cvtValue f.toNat g.toNat e.cvtMode e.sat (e.val l a (codeRegs f.toNat)))) s

/-! ## Immediates and modes (R79 to R83) -/

/-- LI (R79). -/
def execLi (m : BitVec 1) (d : BitVec 8) (i : BitVec 16) (s : State) : Host.Outcome State Fault Refusal :=
  issue m (.li m d i) (fun e => whenLanes e (isVec d) do
    checkOps e anyKind (isVec d) [⟨d, .any, 1⟩] false
    emitLanes e d 1 (fun _ => ((i.signExtend 32).toNat, 0))) s

/-- LIH: D[15:0] as held at run begin (R79). -/
def execLih (m : BitVec 1) (d : BitVec 8) (i : BitVec 16) (s : State) : Host.Outcome State Fault Refusal :=
  issue m (.lih m d i) (fun e => whenLanes e (isVec d) do
    checkOps e anyKind (isVec d) [⟨d, .any, 1⟩] false
    emitLanes e d 1 (fun l => (i.toNat * 65536 + e.val l d 1 % 65536, 0))) s

/-- The field a selector names: its register, lowest bit and width (R40). -/
def modeField : Nat → Option (Bool × Nat × Nat)
  | 0 => some (true, 0, 3)
  | 1 => some (true, 3, 1)
  | 2 => some (true, 4, 4)
  | 3 => some (true, 8, 2)
  | 4 => some (true, 10, 1)
  | 5 => some (true, 11, 1)
  | 6 => some (true, 12, 1)
  | 7 => some (true, 13, 1)
  | 8 => some (false, 0, 2)
  | 9 => some (false, 2, 2)
  | _ => none

/-- The write of a mode field (R81). -/
def modeWrite (f : Bool × Nat × Nat) (x : Nat) : RegWrite :=
  let mask := BitVec.ofNat 32 ((2 ^ f.2.2 - 1) * 2 ^ f.2.1)
  let v := BitVec.ofNat 32 (x * 2 ^ f.2.1)
  if f.1 then .cmode mask v else .mmode mask v

/-- SETMODE (R80): once for the split, not guarded. -/
def execSetmode (m : BitVec 1) (k : BitVec 8) (i : BitVec 16) (s : State) : Host.Outcome State Fault Refusal :=
  issue m (.setmode m k i) (fun e => do
    match modeField k.toNat with
    | some f => do
      checkOps e anyKind false [] false
      emit e [modeWrite f i.toNat] 0
      pure Flow.next
    | none => illegal e 2 e.active) s

/-- A value that CMODE, or MMODE, cannot hold (R18, R19, R82). -/
def cmodeBad (x : Nat) : Bool := decide (bits x 14 18 ≠ 0)
def mmodeBad (x : Nat) : Bool := decide (bits x 4 28 ≠ 0) || decide (bits x 2 2 = 3)

/-- SETMODER (R82). -/
def execSetmoder (m : BitVec 1) (k a : BitVec 8) (s : State) : Host.Outcome State Fault Refusal :=
  issue m (.setmoder m k a) (fun e => do
    checkOps e anyKind false [⟨a, .scal, if k.toNat = 2 then 2 else 1⟩] false
    let x := e.regs.field 0 a
    let y := if k.toNat = 2 then e.regs.field 0 (a + 1) else x
    let c := decide (k.toNat ≠ 1)
    let w := decide (k.toNat ≠ 0)
    if (c && cmodeBad x.toNat) || (w && mmodeBad y.toNat) then illegal e 8 e.active
    else do
      emit e ((if c then [.cmode 0xFFFFFFFF x] else []) ++ (if w then [.mmode 0xFFFFFFFF y] else [])) 0
      pure Flow.next) s

/-- GETMODE (R83): CMODE and MMODE as held at run begin. -/
def execGetmode (m : BitVec 1) (d : BitVec 8) (s : State) : Host.Outcome State Fault Refusal :=
  issue m (.getmode m d) (fun e => whenLanes e (isVec d) do
    checkOps e anyKind (isVec d) [⟨d, .any, 2⟩] false
    emitLanes e d 2 (fun _ => (e.cmode + e.mmode * 2 ^ 32, 0))) s

end Sys2Proof.Machine
end

