-- ==== Sys2Proof/Machine/Banks.lean ====
section
/-! DEFINITION. Banks: timers (R226), scratch words (R229 to R231), FIFO entries
and their waiters (R232, R272, R273), and the BANK family with BWPHASE (R287 to R290). -/

namespace Sys2Proof.Machine

/-! ## Banks that wake -/

/-- An access by a split waits until the bank is active (R226). -/
def needBank (cl b : Nat) (i : Instr) : M Unit := fun s =>
  if (getBank s cl b).pwr = .active then .ok () (touchBank cl b s)
  else .error (.wait (.bank cl b) i) (startWake cl b true s)

/-- BANK_RETENTION_ENTRY (R226, R227). -/
def execBankRetentionEntry (cl bank : Nat) (s : State) : Host.Outcome State Fault Refusal :=
  let b := getBank s cl bank
  .next (if b.pwr = .active ∧ mayRetain s b then
      (if idleSince s b + Config.retentionIdle ≤ s.chiptime then
        modBank cl bank (fun k => { k with pwr := .retention }) s
       else scheduleOnce (idleSince s b + Config.retentionIdle) (.bankRetentionEntry cl bank) s)
    else s)

/-- BANK_DEEP_OFF_ENTRY (R226): the contents are lost. A bank that wakes is left alone: it leaves waking when awake. -/
def execBankDeepOffEntry (cl bank : Nat) (s : State) : Host.Outcome State Fault Refusal :=
  let b := getBank s cl bank
  .next (if b.mode = .unallocated ∧ b.pwr ≠ .deepOff ∧ b.pwr ≠ .waking then
      (if b.lastAt + Config.deepOffIdle ≤ s.chiptime then
        modBank cl bank (fun k => { k with pwr := .deepOff, data := [], valid := [], fifo := [] }) s
       else scheduleOnce (b.lastAt + Config.deepOffIdle) (.bankDeepOffEntry cl bank) s)
    else s)

/-- The crews and shares of a bank's launch that may start once its banks are awake. -/
def ownerStarts (s : State) (owner : Option Nat) : List Instr :=
  match owner.bind (Sparse.find? s.launches) with
  | some l => l.mapping.eraseDups.flatMap (startsAt s)
  | none => []

/-- BANK_WAKE_COMPLETE (R226): the bank is active, and what waited for it issues again. -/
def execBankWakeComplete (cl bank : Nat) (s : State) : Host.Outcome State Fault Refusal :=
  .next (if (getBank s cl bank).pwr = .waking then
      let s := modBank cl bank (fun k => { k with pwr := .active }) s
      let s := touchBank cl bank s
      let s := if (getBank s cl bank).mode = .unallocated then
          scheduleOnce (s.chiptime + Config.deepOffIdle) (.bankDeepOffEntry cl bank) s else s
      let s := due (ownerStarts s (getBank s cl bank).owner) (wakeAll (fun o => o == .bank cl bank) s)
      due [.copyCommandStart cl] (due ((List.range 8).flatMap (fun i =>
        let core := 16 * (4 * (cl % 8) + i % 4) + 2 * (cl / 8) + i / 4
        if (getCore s core).ops.isEmpty then [] else [Instr.planeLoadStart core, .streamPassStart core, .drainStart core])) s)
    else s)

/-- CACHE_BANK_POWER_OFF (R227, R228): the lines of its way are written back and leave. -/
def execCacheBankPowerOff (cl bank : Nat) (s : State) : Host.Outcome State Fault Refusal :=
  .next (if mayPowerOff s cl bank then
      modBank cl bank (fun k => { k with pwr := .deepOff, data := [] }) (clearWay cl bank s)
    else s)

/-! ## Scratch (R229 to R231) -/

/-- The banks of a launch's scratch addresses, by the key of the set. -/
def scratchBanks (s : State) (launch key : Nat) : List Nat :=
  match Sparse.find? s.launches launch with | some l => (Sparse.get (0, []) l.spad key).2 | none => []

/-- The key of a thread's set of scratch banks: its cluster, or that of a set that has moved (R393). -/
def scratchKey (s : State) (t : Thread) : Nat :=
  match Sparse.find? s.launches t.launch with
  | some l =>
    ((l.foster.find? (fun f => f.1 == logicalCore l t.crewid && (Sparse.get (0, []) l.spad f.2).1 == clusterOf t.core)).map
      Prod.snd).getD (clusterOf t.core)
  | none => clusterOf t.core

/-- `.spad` of a launch. -/
def spadOf (s : State) (launch : Nat) : Nat :=
  match Sparse.find? s.launches launch with | some l => l.record.spad | none => 0

/-- The bank of a scratch address, and its offset there (R230). -/
def scratchPlace (s : State) (launch key a : Nat) : Nat × Nat :=
  let bs := scratchBanks s launch key
  (bs.getD (a / 16 % bs.length) 0, 16 * (a / (16 * bs.length)) + a % 16)

/-- A byte of a bank, and a word with whether every one of its bytes lies in a written word (R231). -/
def Bank.byte (b : Bank) (off : Nat) : Byte := Sparse.get 0 b.data off
def Bank.valid4 (b : Bank) (off : Nat) : Bool := Sparse.get false b.valid (off / 4)

/-- Write bytes into a bank and set the valid bits of the words they touch. -/
def Bank.store (b : Bank) (off : Nat) (xs : List Byte) : Bank :=
  { b with data := Sparse.setAll 0 b.data off xs,
           valid := (List.range xs.length).foldl (fun v i => Sparse.set false v ((off + i) / 4) true) b.valid }

/-- Clear the valid bits of the words that some bytes touch: they received poison (R352). -/
def Bank.spoil (b : Bank) (off n : Nat) : Bank :=
  { b with valid := (List.range n).foldl (fun v i => Sparse.set false v ((off + i) / 4) false) b.valid }

/-- A read byte: zero while its word is unwritten (R231). -/
def Bank.readByte (b : Bank) (off : Nat) : Byte := if b.valid4 off then b.byte off else 0

/-- Log the read of an unwritten scratch word (R231, R416): the first address only with a count of 0. -/
def logUnwritten (launch a : Nat) (s : State) : State :=
  match Sparse.find? s.launches launch with
  | none => s
  | some l =>
    let first := match l2ReadRaw (homeSlice l.record.cid l.record.diag / 32) l.record.cid l.record.diag 4 s with
      | (.ok g, _) => decide (leNat g.bytes = 0)
      | (.error _, _) => false
    let s := if first then diagUpdate launch 8 8 (fun _ => a) s else s
    diagCount launch 0 s

/-! ## FIFO entries and waiters (R186, R232, R273) -/

/-- Entry bytes and capacity of a FIFO bank (R225, R232). -/
def Bank.entryBytes (b : Bank) : Nat := 2 ^ (b.esz + 4)
def Bank.capacity (b : Bank) : Nat := Config.bankBytes / b.entryBytes

/-- A copy command pops from a bank, or pushes to it. -/
def CopyCmd.pops (c : CopyCmd) (b : Nat) : Bool := decide (c.ssp = 2) && decide (c.src.base.toNat = b)
def CopyCmd.pushes (c : CopyCmd) (b : Nat) : Bool := decide (c.dsp = 2) && decide (c.dst.base.toNat = b)

/-- The entries that a copy command pops in all. -/
def CopyCmd.entries (c : CopyCmd) (size : Nat) : Nat := c.src.count * elemBytes c.src.elem / size

/-- An entry is popped for a copy command, which stays linked until it has them all (R372). -/
def CopyCmd.take (size : Nat) (x : Entry) (c : CopyCmd) : CopyCmd :=
  { c with inbox := c.inbox ++ [x], since := if c.entries size ≤ c.inbox.length + 1 then none else c.since }

/-- The bank numbers BG of R328: first bank and count. -/
def bgHas (bg : Nat × Nat) (b : Nat) : Bool := decide (bg.1 ≤ b) && decide (b < bg.1 + bg.2)

/-- An operation of an engine waits to pop from a bank, or to push to it: a plane load and a drain go through their
banks in turn. A stream pass never waits at a bank: it starts once its banks hold every entry (R329, R363). -/
def EngineOp.pops (o : EngineOp) (b : Nat) : Bool :=
  match o.kind with
  | .load (some bg) _ _ => decide (bg.1 + o.done % bg.2 = b)
  | _ => false
def EngineOp.pushes (o : EngineOp) (b : Nat) : Bool :=
  match o.kind with
  | .drain _ _ _ (some bg) _ => decide (bg.1 + o.done % bg.2 = b)
  | _ => false

/-- The cores of a cluster. -/
def coresOf (cl : Nat) : List Nat :=
  (List.range 8).map (fun i => 16 * (4 * (cl % 8) + i % 4) + 2 * (cl / 8) + i / 4)

/-- A waiter on a FIFO bank: a split, a command of the cluster's copy engine by its place in the queue, or the matrix
engine of a core. -/
inductive FifoWho where
  | split (tid sid : Nat)
  | copy (i : Nat)
  | engine (core : Nat)
deriving DecidableEq, Repr

/-- The commands of a cluster's copy engine with their places in its queue. -/
def copyCmds (s : State) (cl : Nat) : List (Nat × CopyCmd) :=
  (List.range (getCluster s cl).copyq.length).zip (getCluster s cl).copyq

/-- Change the command at a place of a cluster's queue. -/
def modCopyAt (cl i : Nat) (f : CopyCmd → CopyCmd) (s : State) : State :=
  modCluster cl (fun c => { c with copyq := c.copyq.modify i f }) s

/-- The waiters of one side of a bank, with their ages. -/
def fifoWaiters (s : State) (cl b : Nat) (pop : Bool) : List (Nat × FifoWho) :=
  (waiters s (fun o => match o with
    | .fifoPop c k => pop && c == cl && k == b
    | .fifoPush c k _ => !pop && c == cl && k == b
    | _ => false)).map (fun w => (w.2.2.since, .split w.1 w.2.1))
  ++ (copyCmds s cl).filterMap (fun ic =>
      if (if pop then ic.2.pops b else ic.2.pushes b) then (if pop then ic.2.since else ic.2.room).map (fun n => (n, .copy ic.1))
      else none)
  ++ (coresOf cl).flatMap (fun core => (getCore s core).ops.filterMap (fun o => match o.since with
      | some n => if (if pop then o.pops b else o.pushes b) then some (n, .engine core) else none
      | none => none))

/-- The oldest of some waiters. -/
def firstWaiter : List (Nat × FifoWho) → Option (Nat × FifoWho)
  | [] => none
  | w :: ws =>
    match firstWaiter ws with
    | some v => if v.1 < w.1 then some v else some w
    | none => some w

/-- An engine that waited is examined again; it keeps its place among the waiters until it has what it waits for. -/
def pokeEngine (cl : Nat) (w : FifoWho) (s : State) : State :=
  match w with
  | .split tid sid => wake tid sid s
  | .copy _ => due [.copyCommandStart cl] s
  | .engine core => due [.planeLoadStart core, .streamPassStart core, .drainStart core] s

/-- Put an entry into a bank at its tail, or back at its head. -/
def bankPut (cl b : Nat) (x : Entry) (front : Bool) (s : State) : State :=
  modBank cl b (fun k => { k with fifo := if front then x :: k.fifo else k.fifo ++ [x] }) s

/-- An entry is popped for a linked copy command. -/
def copyTake (cl b i : Nat) (x : Entry) (s : State) : State :=
  due [.copyCommandStart cl] (modCopyAt cl i (CopyCmd.take (getBank s cl b).entryBytes x) s)

/-- Stream passes that read a bank are examined: its entries may make them ready (R363). -/
def pokeStreams (cl b : Nat) (s : State) : State :=
  let reads (o : EngineOp) : Bool := match o.kind with | .stream _ _ _ _ bg => bgHas bg b | _ => false
  due ((coresOf cl).filterMap (fun core => if (getCore s core).ops.any reads then some (.streamPassStart core) else none)) s

/-- An entry arrives: the oldest linked pop-waiter takes it, and the bank holds it only when none is linked
(R273). The matrix engine takes it from the bank, where no other pop reaches it before. -/
def giveEntry (cl b : Nat) (x : Entry) (front : Bool) (s : State) : State :=
  match firstWaiter (fifoWaiters s cl b true) with
  | some (_, .split tid sid) => hand tid sid (.entry x) s
  | some (_, .copy i) => copyTake cl b i x s
  | some (_, w) => pokeEngine cl w (bankPut cl b x front s)
  | none => pokeStreams cl b (bankPut cl b x front s)

/-- The push-waiters of a bank are served in order while it has room: a split's entry arrives; an engine is
examined, and those behind it wait for it (R232). -/
def servePushes (cl b : Nat) : Nat → State → State
  | 0, s => s
  | fuel + 1, s =>
    if (getBank s cl b).capacity ≤ (getBank s cl b).fifo.length then s
    else
      match firstWaiter (fifoWaiters s cl b false) with
      | some (_, .split tid sid) =>
        (match (getSplit s tid sid).bind (fun sp => sp.wait) with
         | some w =>
           (match w.obj with
            | .fifoPush _ _ e => servePushes cl b fuel (giveEntry cl b e false (hand tid sid .go s))
            | _ => s)
         | none => s)
      | some (_, w) => pokeEngine cl w s
      | none => s

/-- Room in a bank goes to its push-waiters. -/
def servePush (cl b : Nat) (s : State) : State := servePushes cl b 64 s

/-- The pop-waiters of a bank are served in order while it holds entries: a split and a copy command get the oldest
entry; the matrix engine is examined, and those behind it wait for it (R273). -/
def servePops (cl b : Nat) : Nat → State → State
  | 0, s => s
  | fuel + 1, s =>
    match (getBank s cl b).fifo, firstWaiter (fifoWaiters s cl b true) with
    | x :: xs, some (_, .split tid sid) =>
      servePops cl b fuel (hand tid sid (.entry x) (modBank cl b (fun k => { k with fifo := xs }) s))
    | x :: xs, some (_, .copy i) =>
      servePops cl b fuel (copyTake cl b i x (modBank cl b (fun k => { k with fifo := xs }) s))
    | _ :: _, some (_, w) => pokeEngine cl w s
    | _ :: _, none => pokeStreams cl b s
    | [], _ => s

/-- What a bank holds goes to those that wait for entries, and its room to those that wait for room. -/
def serveBank (cl b : Nat) (s : State) : State := servePush cl b (servePops cl b ((getBank s cl b).fifo.length + 1) s)

/-- An engine linked with an age, or not yet linked, is the first of a bank's waiters (R232). -/
def engineFirst (s : State) (cl b : Nat) (pop : Bool) (since : Option Nat) : Bool :=
  match firstWaiter (fifoWaiters s cl b pop) with
  | some (n, _) => decide (since = some n)
  | none => true

/-- Take the oldest entry of a bank; the room goes to the oldest push-waiter. -/
def takeEntry (cl b : Nat) (s : State) : Option Entry × State :=
  match (getBank s cl b).fifo with
  | [] => (none, s)
  | x :: xs => (some x, servePush cl b (modBank cl b (fun k => { k with fifo := xs }) s))

/-- Waiters of splits on one side of a bank; each list holds up to 64 (R232). -/
def splitWaiters (s : State) (cl b : Nat) (pop : Bool) : Nat :=
  (fifoWaiters s cl b pop).length

/-! ## The FIFO family (R272, R273) -/

/-- The checks of R272; the result is the bank. -/
def fifoBank (e : Env) (a : BitVec 8) : M Nat := do
  let x := (e.regs.field 0 a).toNat
  if bits x 6 26 ≠ 0 then illegal e 8 e.active
  else
    let s ← get
    let k := getBank s (clusterOf e.th.core) (x % 64)
    if k.mode ≠ .fifo ∨ k.owner ≠ some e.th.launch then trapWith e causeAccess 0 e.active 0
    else if k.entryBytes ≠ 4 * e.th.width then trapWith e causeFifoSize 0 e.active 0
    else pure (x % 64)

/-- Wait on an object of R186: a trap handler's split may not (R378). -/
def waitOn {α : Type} (e : Env) (o : WaitObj) (i : Instr) : M α :=
  if decide (e.th.handler = some e.sid) then illegal e 8 e.active else throw (.wait o i)

/-- The bytes of an FPUSH's entry: lane i's D in W, zero elsewhere. -/
def pushEntry (e : Env) (d : BitVec 8) : Entry :=
  { bytes := (List.range e.th.width).flatMap (fun l =>
      leBytes 4 (if e.lanes.contains l then (e.regs.field l d).toNat else 0)), poison := false }

/-- FPUSH (R273). -/
def execFpush (m : BitVec 1) (d a : BitVec 8) (s : State) : Host.Outcome State Fault Refusal :=
  issue m (.fpush m d a) (fun e => do
    checkOps e crewOnly false [⟨d, .vect, 1⟩, ⟨a, .scal, 1⟩] false
    if e.sp.handed.isSome then pure Flow.next
    else do
      let b ← fifoBank e a
      let cl := clusterOf e.th.core
      needBank cl b (.fpush m d a)
      let s ← get
      let k := getBank s cl b
      if k.fifo.length < k.capacity then do
        act (giveEntry cl b (pushEntry e d) false)
        pure Flow.next
      else if splitWaiters s cl b false < 64 then waitOn e (.fifoPush cl b (pushEntry e d)) (.fpush m d a)
      else do
        act (after Config.fifoRetry (.fifoWaiterRetry e.tid e.sid))
        waitOn e (.fifoFull cl b) (.fpush m d a)) s

/-- The oldest entry of a bank is poisoned: a pop of it traps, and it stays (R352). -/
def headPoison (s : State) (cl b : Nat) : Bool :=
  match (getBank s cl b).fifo with
  | x :: _ => x.poison && (fifoWaiters s cl b true).isEmpty
  | [] => false

/-- A popped entry reaches the lanes of W; a poisoned one traps and stays at the bank's head (R352). -/
def popTo (e : Env) (cl b : Nat) (d : BitVec 8) (x : Entry) : M Unit :=
  if x.poison then do
    act (giveEntry cl b x true)
    trapWith e causePoison 0 e.active 0
  else emit e (e.lanes.map (fun l => regWrite l d (leNat ((x.bytes.drop (4 * l)).take 4)))) 0

/-- What a pop by a split finds: the oldest entry, and nothing while an older pop is linked on the bank (R273). -/
def popEntry (cl b : Nat) (s : State) : Option Entry × State :=
  if (fifoWaiters s cl b true).isEmpty then takeEntry cl b s else (none, s)

/-- FPOP (R273). -/
def execFpop (m : BitVec 1) (d a : BitVec 8) (s : State) : Host.Outcome State Fault Refusal :=
  issue m (.fpop m d a) (fun e => do
    checkOps e crewOnly false [⟨d, .vect, 1⟩, ⟨a, .scal, 1⟩] false
    let cl := clusterOf e.th.core
    match e.sp.handed with
    | some (.entry x) => do
      popTo e cl ((e.regs.field 0 a).toNat % 64) d x
      pure Flow.next
    | _ => do
      let b ← fifoBank e a
      needBank cl b (.fpop m d a)
      let s ← get
      if headPoison s cl b then trapWith e causePoison 0 e.active 0
      else do
        let x ← ask (popEntry cl b)
        match x with
        | some x => do
          popTo e cl b d x
          pure Flow.next
        | none => do
          let s ← get
          if splitWaiters s cl b true < 64 then waitOn e (.fifoPop cl b) (.fpop m d a)
          else do
            act (after Config.fifoRetry (.fifoWaiterRetry e.tid e.sid))
            waitOn e (.fifoFull cl b) (.fpop m d a)) s

/-- FTRYPOP (R273): it never waits; the status goes to D+1, which like D is a vector register below `.vregs` (R11). -/
def execFtrypop (m : BitVec 1) (d a : BitVec 8) (s : State) : Host.Outcome State Fault Refusal :=
  issue m (.ftrypop m d a) (fun e => do
    checkOps e crewOnly false [⟨d, .vect, 1⟩, ⟨a, .scal, 1⟩] false
    if e.th.vregs < d.toNat + 2 then trapWith e causeRegRange 0 e.active 0
    let b ← fifoBank e a
    let cl := clusterOf e.th.core
    needBank cl b (.ftrypop m d a)
    let s ← get
    if headPoison s cl b then trapWith e causePoison 0 e.active 0
    else do
      let x ← ask (popEntry cl b)
      match x with
      | some x => do
        popTo e cl b d x
        emit e (e.lanes.map (fun l => regWrite l (d + 1) 0)) 0
      | none => emit e (e.lanes.map (fun l => regWrite l (d + 1) 1)) 0
      pure Flow.next) s

/-- FIFO_WAITER_RETRY (R232): a split that a full waiter list did not link tries again. -/
def execFifoWaiterRetry (tid split : Nat) (s : State) : Host.Outcome State Fault Refusal :=
  .next (match (getSplit s tid split).bind (fun sp => sp.wait) with
    | some w =>
      (match w.obj with
       | .fifoFull _ _ => wake tid split (modSplit tid split (fun sp => { sp with handed := none }) s)
       | _ => s)
    | none => s)

/-! ## BANKQ, BANKMODE, BANKPWR (R225, R287 to R289) -/

/-- The map entry of a bank (R225). -/
def mapEntry (s : State) (cl b : Nat) : Nat :=
  let k := getBank s cl b
  let mode := match k.mode with | .unallocated => 0 | .cache => 1 | .scratch => 2 | .fifo => 3
  let pwr := match k.pwr with | .active => 0 | .retention => 1 | .deepOff => 2 | .waking => 3
  let cmin := ((poweredBanks s cl).take (minimumWays s cl)).contains b
  let slot := match k.owner.bind (Sparse.find? s.launches) with
    | some l => ((l.slots.find? (fun p => p.1 == cl)).map Prod.snd).getD 0
    | none => 0
  mode + 4 * pwr + 16 * k.esz + 128 * ofBool cmin + 2 ^ 8 * slot + 2 ^ 14 * ofBool k.owner.isSome
    + 2 ^ 16 * k.fifo.length + 2 ^ 30 * ofBool (!(fifoWaiters s cl b false).isEmpty)
    + 2 ^ 31 * ofBool (!(fifoWaiters s cl b true).isEmpty) + 2 ^ 32 * k.wakes

/-- The cluster of a BANK word, checked (R287). -/
def bankCluster (e : Env) (r : BitVec 4) (c : BitVec 5) : M Nat := do
  let cl := 8 * r.toNat + c.toNat
  let s ← get
  if launchCluster s e.th.launch cl then pure cl else trapWith e causeAccess 0 e.active 0

/-- BANKQ. -/
def execBankq (m : BitVec 1) (a : BitVec 8) (r : BitVec 4) (c : BitVec 5) (s : State) :
    Host.Outcome State Fault Refusal :=
  issue m (.bankq m a r c) (fun e => do
    checkOps e crewOnly false [⟨a, .scal, 2⟩] false
    let cl ← bankCluster e r c
    let x := (e.regs.field 0 a).toNat
    if bits x 6 26 ≠ 0 then illegal e 8 e.active
    else do
      let s ← get
      emit e (regWrites 0 a (mapEntry s cl (x % 64)) 2) 0
      pure Flow.next) s

/-- MODE by its code. -/
def bankModeOf : Nat → BankMode
  | 0 => .unallocated
  | 1 => .cache
  | 2 => .scratch
  | _ => .fifo

/-- A FIFO bank holds nothing and nobody waits on it. -/
def fifoIdle (s : State) (cl b : Nat) : Bool :=
  (getBank s cl b).fifo.isEmpty && (fifoWaiters s cl b true).isEmpty && (fifoWaiters s cl b false).isEmpty

/-- A bank is not one of those that hold the launch's scratch addresses, and is the launch's. -/
def spareScratch (s : State) (launch cl b : Nat) : Bool :=
  (getBank s cl b).owner == some launch &&
    (match Sparse.find? s.launches launch with
     | some l => !(l.spad.any (fun k => k.2.1 == cl && k.2.2.contains b))
     | none => true)

/-- The status of a BANKMODE request (R288): 0 switched, 1 not permitted, 2 busy. -/
def bankmodeStatus (s : State) (launch cl b : Nat) (tgt : BankMode) : Nat :=
  let k := getBank s cl b
  match k.mode, tgt with
  | .cache, .cache | .scratch, .scratch | .unallocated, _ => 0
  | .cache, _ =>
    if minimumWays s cl ≤ (poweredBanks s cl).length - ofBool k.powered then 0 else 1
  | .scratch, .fifo => if spareScratch s launch cl b then 0 else 1
  | .scratch, _ => if k.owner.isNone || spareScratch s launch cl b then 0 else 1
  | .fifo, _ => if k.owner ≠ some launch then 1 else if fifoIdle s cl b then 0 else 2

/-- The effect of a granted switch (R288). -/
def switchBank (s : State) (launch cl b : Nat) (tgt : BankMode) (esz : Nat) : State :=
  let k := getBank s cl b
  if k.mode = tgt ∧ tgt ≠ .fifo then s
  else
    let s := if k.mode = .cache then clearWay cl b s else s
    match tgt with
    | .unallocated => freeBank cl b s
    | .cache => modBank cl b (fun k => { k with mode := .cache, owner := none, esz := 0, data := [], valid := [], fifo := [], wakes := 0 }) s
    | .scratch => touchBank cl b (modBank cl b (fun k => { k with mode := .scratch, owner := some launch, esz := 0, valid := [], fifo := [], wakes := if k.mode = .fifo then k.wakes else 0 }) s)
    | .fifo => touchBank cl b (modBank cl b (fun k => { k with mode := .fifo, owner := some launch, esz := esz, valid := [], fifo := [], wakes := if k.mode = .scratch ∨ k.mode = .fifo then k.wakes else 0 }) s)

/-- BANKMODE (R287, R288): a bank that must be active first wakes. -/
def execBankmode (m : BitVec 1) (a : BitVec 8) (r : BitVec 4) (c : BitVec 5) (s : State) :
    Host.Outcome State Fault Refusal :=
  issue m (.bankmode m a r c) (fun e => do
    checkOps e crewOnly false [⟨a, .scal, 2⟩] false
    let cl ← bankCluster e r c
    let x := (e.regs.field 0 a).toNat
    let tgt := bankModeOf (bits x 8 2)
    let esz := bits x 12 3
    if bits x 6 2 ≠ 0 ∨ bits x 10 2 ≠ 0 ∨ bits x 15 17 ≠ 0 ∨ (tgt = .fifo ∧ 6 ≤ esz) then illegal e 8 e.active
    else do
      let b := x % 64
      let s ← get
      let st := bankmodeStatus s e.th.launch cl b tgt
      let same := decide ((getBank s cl b).mode = tgt)
      if st = 0 ∧ tgt ≠ .unallocated ∧ !same ∧ (getBank s cl b).pwr ≠ .active then do
        act (startWake cl b false)
        throw (.wait (.bank cl b) (.bankmode m a r c))
      else do
        if st = 0 then act (fun s => switchBank s e.th.launch cl b tgt esz)
        emit e [regWrite 0 (a + 1) st] 0
        pure Flow.next) s

/-- BANKPWR (R287, R289). -/
def execBankpwr (m : BitVec 1) (a : BitVec 8) (r : BitVec 4) (c : BitVec 5) (s : State) :
    Host.Outcome State Fault Refusal :=
  issue m (.bankpwr m a r c) (fun e => do
    checkOps e crewOnly false [⟨a, .scal, 2⟩] false
    let cl ← bankCluster e r c
    let x := (e.regs.field 0 a).toNat
    let req := bits x 8 2
    if bits x 6 2 ≠ 0 ∨ bits x 10 22 ≠ 0 ∨ req = 3 then illegal e 8 e.active
    else do
      let b := x % 64
      let s ← get
      let k := getBank s cl b
      let put (st : Nat) : M Flow := do
        emit e [regWrite 0 (a + 1) st] 0
        pure Flow.next
      if k.pwr = .waking then throw (.wait (.bank cl b) (.bankpwr m a r c))
      else if req = 0 then
        (if k.pwr = .active then put 0
         else do
          act (startWake cl b false)
          throw (.wait (.bank cl b) (.bankpwr m a r c)))
      else if req = 1 then
        (if k.owner = some e.th.launch ∧ mayRetain s k then do
          act (modBank cl b (fun k => { k with pwr := .retention }))
          put 0
         else put 1)
      else if k.mode = .cache ∧ k.pwr = .deepOff then put 0
      else if k.mode = .unallocated then do
        act (modBank cl b (fun k => { k with pwr := .deepOff, data := [], valid := [], fifo := [] }))
        put 0
      else if mayPowerOff s cl b then do
        act (fun s => modBank cl b (fun k => { k with pwr := .deepOff, data := [] }) (clearWay cl b s))
        put 0
      else put 1) s

/-! ## BWPHASE (R227, R290) -/

/-- BWPHASE (R290): at run close; several of one launch stand by their close. -/
def execBwphase (m : BitVec 1) (n : BitVec 8) (h : BitVec 2) (s : State) : Host.Outcome State Fault Refusal :=
  issue m (.bwphase m n h) (fun e => do
    checkOps e crewOnly false [] false
    emit e [.special 0 0x100 (BitVec.ofNat 64 (h.toNat + 4 * n.toNat))] 0
    pure Flow.next) s

end Sys2Proof.Machine
end

