-- ==== Sys2Proof/Machine/Shapes.lean ====
section
/-! DEFINITION. Parts of an access with their faults (R101, R268, R277, R381, R387), the shape records of R57
and R253, and the record cache (R338). -/

namespace Sys2Proof.Machine

/-! ## Parts of an access -/

/-- One access of an instruction: the lanes it serves and its address. -/
structure Part where
  lanes : List Nat
  va    : Nat
deriving DecidableEq, Repr

/-- The mask of some parts. -/
def partsMask (ps : List Part) : DWord := maskOf (ps.flatMap Part.lanes)

/-- Trap in the lanes of some parts; FAULTVA is the address of the lowest. -/
def trapParts {α : Type} (e : Env) (cause : Nat) (ps : List Part) : M α :=
  trapWith e cause 0 (ps.flatMap Part.lanes) ((ps.head?.map Part.va).getD 0)

/-- The address checks of R101: the cause is ACCESS when a lane breaks R26, else ALIGN; the mask holds every failing
lane, and FAULTVA is the lowest one's address. DESIGN CHOICE (log 104): so too where some lanes break R26 and others are
only misaligned. -/
def checkAddrs (e : Env) (ps : List Part) (size : Nat) : M Unit := do
  let far := ps.filter (fun p => !canonicalVa p.va)
  let bad := ps.filter (fun p => !canonicalVa p.va || decide (p.va % size ≠ 0))
  if !far.isEmpty then trapParts e causeAccess bad
  else if !bad.isEmpty then trapParts e causeAlign bad
  else pure ()

/-- What the parts of an instruction have come to: what has been performed, and the parts that failed, each
with its code: a WHY of R382, `whyAccess`, or `whyPoison`. -/
structure Tally where
  prog : Progress
  bad  : List (Part × Nat)

/-- The result of one part: its register results and flags. -/
abbrev PartResult := Except Nat (List RegWrite × Word)

/-- Perform one part. -/
def stepPart (go : Part → State → PartResult × State) (acc : Tally × State) (p : Part) : Tally × State :=
  match go p acc.2 with
  | (.ok r, s) =>
    ({ acc.1 with prog := { acc.1.prog with lanes := acc.1.prog.lanes ||| maskOf p.lanes,
                                            results := acc.1.prog.results ++ r.1,
                                            flags := acc.1.prog.flags ||| r.2 } }, s)
  | (.error c, s) => ({ acc.1 with bad := acc.1.bad ++ [(p, c)] }, s)

/-- A part has been performed by an earlier issue of this word (R268, R277). -/
def Progress.did (p : Progress) (x : Part) : Bool := decide (maskOf x.lanes &&& p.lanes = maskOf x.lanes) && !x.lanes.isEmpty

/-- The failed parts of one class. -/
def Tally.failed (t : Tally) (f : Nat → Bool) : List Part := (t.bad.filter (fun b => f b.2)).map Prod.fst

/-- Perform the parts that remain, in order. Page faults park the split before anything traps (R381); then
ACCESS, then POISON. -/
def runParts (e : Env) (acc : Acc) (ps : List Part) (go : Part → State → PartResult × State) :
    M (List RegWrite × Word) := do
  let s ← get
  let (t, s) := (ps.filter (fun p => !e.sp.progress.did p)).foldl (stepPart go) (⟨e.sp.progress, []⟩, s)
  set (modSplit e.tid e.sid (fun sp => { sp with progress := t.prog }) s)
  match (t.bad.find? (fun b => b.2 == whyHandler)).or (t.bad.find? (fun b => decide (b.2 < whyAccess))) with
  | some (p, why) =>
    throw (.park { token := 0, va := BitVec.ofNat 64 p.va, mask := partsMask (t.failed (fun c => decide (c < whyAccess))),
                   acc := acc, why := why, verdict := none })
  | none =>
    if !(t.failed (· == whyAccess)).isEmpty then trapParts e causeAccess (t.failed (· == whyAccess))
    else if !(t.failed (· == whyPoison)).isEmpty then trapParts e causePoison (t.failed (· == whyPoison))
    else pure (t.prog.results, t.prog.flags)

/-- A read's data, or the code of its failure: poison fails. -/
def gotBytes (r : Except Nat Got × State) : Except Nat (List Byte) × State :=
  match r with
  | (.error c, s) => (.error c, s)
  | (.ok g, s) => (if g.poison then .error whyPoison else .ok g.bytes, s)

/-- A single access of the whole split that returns bytes, with faults and poison as for a part. -/
def oneRead (e : Env) (lanes : List Nat) (va : Nat) (go : State → Except Nat Got × State) : M (List Byte) := fun s =>
  match gotBytes (go s) with
  | (.ok bs, s) => .ok bs s
  | (.error c, s) =>
    if c < whyAccess then
      .error (.park { token := 0, va := BitVec.ofNat 64 va, mask := maskOf lanes, acc := .read, why := c, verdict := none }) s
    else trapWith e (if c = whyAccess then causeAccess else causePoison) 0 lanes va s

/-! ## Shape records (R57, R253) -/

/-- A field of a record. -/
def recField (bs : List Byte) (off n : Nat) : Nat := leNat ((bs.drop off).take n)

/-- A record from its 64 bytes. -/
def parseShape (bs : List Byte) : Shape :=
  { base := BitVec.ofNat 64 (recField bs 0 8), rank := recField bs 8 1, elem := recField bs 9 1, flags := recField bs 10 2,
    ext := (List.range 4).map (fun i => recField bs (12 + 4 * i) 4), pad := recField bs 28 4,
    stride := (List.range 4).map (fun i => BitVec.ofNat 64 (recField bs (32 + 8 * i) 8)) }

/-- WIN and EXCL of a record (R253). -/
def Shape.win (sh : Shape) : Bool := bit sh.flags 0
def Shape.excl (sh : Shape) : Bool := bit sh.flags 1

/-- The element code is one of the engine forms 11 to 13. -/
def engineForm (elem : Nat) : Bool := decide (11 ≤ elem) && decide (elem ≤ 13)

/-- A record is well formed (R57, R253). -/
def Shape.ok (sh : Shape) : Bool :=
  decide (1 ≤ sh.rank) && decide (sh.rank ≤ 4) && decide (sh.elem ≤ 13) && decide (sh.win = engineForm sh.elem)
    && decide (sh.flags / 4 = 0) && decide (sh.pad = 0)
    && (List.range 4).all (fun i => decide (i < sh.rank) ||
         (decide (sh.ext.getD i 0 = 1) && decide (sh.stride.getD i 0 = 0)))

/-- The address of the element with an index in each dimension, modulo 2^64. -/
def Shape.at (sh : Shape) (ix : List Int) : Nat :=
  (((sh.base.toNat : Int) + ((ix.zip sh.stride).map (fun p => p.1 * p.2.toInt)).foldl (· + ·) 0) % (2 ^ 64 : Int)).toNat

/-- The indices of a linear number, dimension 0 fastest. -/
def unravel (n : Nat) : List Nat → List Nat
  | [] => []
  | x :: xs => n % x :: unravel (n / x) xs

/-- The address of a linear element number. -/
def Shape.elemAddr (sh : Shape) (n : Nat) : Nat := sh.at ((unravel n (sh.ext.take sh.rank)).map Int.ofNat)

/-! ## The record cache (R338) -/

/-- The bytes of a record by the filling path of a read-only cache, line by line. -/
def recordSource (core cid va : Nat) (s : State) : Except Nat Got × State :=
  match roSource core cid va s with
  | (.error c, s) => (.error c, s)
  | (.ok l, s) =>
    let n := Nat.min 64 (128 - va % 128)
    let g := lineGot l.data l.poison (va % 128) n
    if n = 64 then (.ok g, s)
    else
      match roSource core cid (va + n) s with
      | (.error c, s) => (.error c, s)
      | (.ok k, s) =>
        let h := lineGot k.data k.poison 0 (64 - n)
        (.ok { bytes := g.bytes ++ h.bytes, poison := g.poison || h.poison }, s)

/-- Read a record through the core's record cache: 64 records, the least recently used leaves. -/
def recordRead (core cid va : Nat) (s : State) : Except Nat Got × State :=
  match roFind (getCore s core).records cid va with
  | some r =>
    (.ok { bytes := Sparse.getAll 0 r.data 0 64, poison := decide (r.poison ≠ 0) },
     modCore core (fun c => { c with records := roPut Config.recordEntries r c.records }) s)
  | none =>
    match recordSource core cid va s with
    | (.error c, s) => (.error c, s)
    | (.ok g, s) =>
      let r : RLine := { cid := cid, line := va, data := Sparse.setAll 0 [] 0 g.bytes, poison := ofBool g.poison }
      (.ok g, modCore core (fun c => { c with records := roPut Config.recordEntries r c.records }) s)

/-- An instruction reads a record at an address: R26, then page faults and poison, for the lanes given. -/
def readShape (e : Env) (lanes : List Nat) (va : Nat) : M Shape := do
  if !canonicalVa va then trapWith e causeAccess 0 lanes va
  else do
    let bs ← oneRead e lanes va (recordRead e.th.core e.cid va)
    pure (parseShape bs)

end Sys2Proof.Machine
end

