-- ==== Sys2Proof/Machine/Access.lean ====
section
/-! DEFINITION. Plain loads and stores (R100 to R104), LDA to STLD (R266 to R268), LDC (R269), scratch (R270,
R271), atomics (R274 to R277), fences with speculation (R278 to R280), path fences (R281), cache control and
pins (R282 to R285) and SAMPLE (R286). -/

namespace Sys2Proof.Machine

/-! ## Parts of a load and of a store -/

/-- The address a lane names: pair(A) + OFF8 × size (R100). -/
def Env.addr (e : Env) (l : Nat) (a : BitVec 8) (off : Nat) : Nat := ((e.regs.pair l a).toNat + off) % 2 ^ 64

/-- The parts of a load (R102): one for a scalar D or a scalar A, one per lane otherwise. -/
def loadParts (e : Env) (d a : BitVec 8) (off : Nat) : List Part :=
  if !isVec d then [⟨e.active, e.addr 0 a off⟩]
  else if !isVec a then [⟨e.lanes, e.addr 0 a off⟩]
  else e.lanes.map (fun l => ⟨[l], e.addr l a off⟩)

/-- The parts of a store (R103): one for a scalar A, one per lane otherwise. -/
def storeParts (e : Env) (a : BitVec 8) (off : Nat) : List Part :=
  if !isVec a then [⟨e.lanes, e.addr 0 a off⟩] else e.lanes.map (fun l => ⟨[l], e.addr l a off⟩)

/-- The bytes a part of a store writes: those of the highest lane of D that the part serves. -/
def storeBytes (e : Env) (d : BitVec 8) (n size : Nat) (p : Part) : List Byte :=
  let l := p.lanes.getLast?.getD 0
  leBytes size ((List.range n).foldl (fun x i => x + (e.regs.field l (d + BitVec.ofNat 8 i)).toNat * 2 ^ (32 * i)) 0)

/-- Results of a load for the lanes of a part. -/
def loadResults (d : BitVec 8) (n : Nat) (p : Part) (x : Nat) : List RegWrite :=
  if isVec d then p.lanes.flatMap (fun l => regWrites l d x n) else regWrites 0 d x n

/-- A part of a load: read, extend, deliver. -/
def loadPart (d : BitVec 8) (n : Nat) (ext : Nat → Nat) (read : Nat → State → Except Nat Got × State) (p : Part)
    (s : State) : PartResult × State :=
  match gotBytes (read p.va s) with
  | (.error c, s) => (.error c, s)
  | (.ok bs, s) => (.ok (loadResults d n p (ext (leNat bs)), 0), s)

/-- A part of a store. -/
def storePart (e : Env) (d : BitVec 8) (n size : Nat)
    (write : Nat → List Byte → State → Except Nat Unit × State) (p : Part) (s : State) : PartResult × State :=
  match write p.va (storeBytes e d n size p) s with
  | (.error c, s) => (.error c, s)
  | (.ok _, s) => (.ok ([], 0), s)

/-! ## Places (R301) -/

/-- The line that a split has read under a speculative fence enters its read set (R279). -/
def noteRead (e : Env) (va : Nat) (s : State) : State :=
  modSplit e.tid e.sid (fun sp => { sp with spec := sp.spec.map (fun x => { x with
    readSet := (lineKey e.cid (va / 128) :: x.readSet).eraseDups }) }) s

/-- Bytes at an address with those of a later write in their place. -/
def overlay (va : Nat) (bs : List Byte) (at_ : Nat) (xs : List Byte) : List Byte :=
  (List.range bs.length).map (fun i =>
    if at_ ≤ va + i ∧ va + i < at_ + xs.length then xs.getD (va + i - at_) 0 else bs.getD i 0)

/-- The words that the cluster has written and the L2 level does not have yet, over bytes of that level: a split reads
its own stores (R102, R315). -/
def overCluster (s : State) (core cid va : Nat) (bs : List Byte) : List Byte :=
  match clFind s (clusterOf core) cid (va / 128) with
  | some l =>
    (List.range 16).foldl (fun bs i =>
      if bit l.written i then overlay (va % 128) bs (8 * i) (Sparse.getAll 0 l.data (8 * i) 8) else bs) bs
  | none => bs

/-- A split's own writes that the tile-layout unit has not performed yet (R302). -/
def ownWrites (e : Env) (s : State) : List LayoutWrite :=
  (getCluster s (clusterOf e.th.core)).buffer.filter (fun w => w.tid == e.tid && w.sid == e.sid)

/-- Bytes read, with a split's own writes of the tile-layout unit in their place. -/
def overOwn (e : Env) (va : Nat) (r : Except Nat Got × State) : Except Nat Got × State :=
  match r with
  | (.ok g, s) => (.ok { g with bytes := (ownWrites e s).foldl (fun bs w => overlay va bs w.va.toNat w.bytes) g.bytes }, s)
  | r => r

/-- A write shares an 8-byte word with an access. -/
def LayoutWrite.meets (w : LayoutWrite) (va n : Nat) : Bool :=
  decide (va / 8 ≤ (w.va.toNat + w.bytes.length - 1) / 8) && decide (w.va.toNat / 8 ≤ (va + n - 1) / 8)

/-- A split's earlier writes to the words of an access are performed before it (R302). -/
def settleOwn (e : Env) (va n : Nat) (s : State) : State :=
  drainSome e.tid e.th.core e.cid e.th.homenum (fun w => w.sid == e.sid && w.meets va n) s

/-- A read of a split under a speculative fence: from the die's L2 (R279), with the cluster's own writes. DESIGN CHOICE
(log 106): a granule that is poisoned at L2 reads poisoned, although the cluster has rewritten all of it. -/
def specRead (e : Env) (n va : Nat) (s : State) : Except Nat Got × State :=
  match l2Read (dieOf e.th.core) e.cid va n s with
  | (.ok g, s) => (.ok { g with bytes := overCluster s e.th.core e.cid va g.bytes }, noteRead e va s)
  | (.error c, s) => (.error c, noteRead e va s)

/-- A plain read of a split (R102, R279). -/
def splitRead (e : Env) (n va : Nat) (s : State) : Except Nat Got × State :=
  overOwn e va (if e.sp.spec.isSome then specRead e n va s else plainRead e.th.core e.cid va n e.hint s)

/-- An acquire load's read at a scope. -/
def acquireRead (e : Env) (n va : Nat) (s : State) : Except Nat Got × State :=
  overOwn e va (if e.scope < 2 then plainRead e.th.core e.cid va n e.hint s
    else l2Read (dieOf e.th.core) e.cid va n (bypass e.th.core e.cid va s))

/-- A plain store's write, checked against marks with the crew's home number (R305). -/
def splitWrite (e : Env) (va : Nat) (xs : List Byte) (s : State) : Except Nat Unit × State :=
  plainWrite e.th.core e.cid va xs (.plain e.th.homenum) e.hint (settleOwn e va xs.length s)

/-- A release store's write at a scope (R267, R301). -/
def releaseWrite (e : Env) (va : Nat) (xs : List Byte) (s : State) : Except Nat Unit × State :=
  let s := settleOwn e va xs.length s
  if e.scope < 2 then plainWrite e.th.core e.cid va xs .clear e.hint s
  else crewL2Write (dieOf e.th.core) e.cid va xs .clear (bypass e.th.core e.cid va s)

/-! ## Plain loads and stores (R100 to R104) -/

/-- The shape of every load. -/
def loadWith (e : Env) (d a : BitVec 8) (off size n : Nat) (typeBad : Bool) (ext : Nat → Nat)
    (read : Nat → State → Except Nat Got × State) : M Flow :=
  whenLanes e (isVec d) do
    checkOps e anyKind (isVec d) [⟨d, .any, n⟩, ⟨a, if isVec d then .any else .scal, 2⟩] typeBad
    let ps := loadParts e d a off
    checkAddrs e ps size
    let r ← runParts e .read ps (loadPart d n ext read)
    emit e r.1 r.2
    pure Flow.next

/-- The issuers of stores (R178, R346). -/
def storeKinds : List Kind := [.crew, .mseq, .cseq]

/-- The shape of every store; `first` is what comes before any lane writes. -/
def storeWith (e : Env) (d a : BitVec 8) (off size n : Nat) (first : M Unit)
    (write : Nat → List Byte → State → Except Nat Unit × State) : M Flow :=
  whenLanes e true do
    checkOps e storeKinds true [⟨d, .any, n⟩, ⟨a, .any, 2⟩] false
    let ps := storeParts e a off
    checkAddrs e ps size
    first
    let r ← runParts e .write ps (storePart e d n size write)
    emit e r.1 r.2
    pure Flow.next

/-- TYPE is a reserved code. -/
def Env.typeReserved (e : Env) : Bool := (elemType e.type).isNone

/-- Extension of a narrow load by TYPE: I32, I16×2, I8×4 and I64 sign-extend (R102). -/
def Env.extend (e : Env) (b x : Nat) : Nat :=
  if decide (e.type = 0) || decide (e.type = 5) || decide (e.type = 7) || decide (e.type = 10) then
    wrapInt 32 (intVal true b x) else x

/-- LDB (R102). -/
def execLdb (m : BitVec 1) (d a o : BitVec 8) (s : State) : Host.Outcome State Fault Refusal :=
  issue m (.ldb m d a o) (fun e => loadWith e d a o.toNat 1 1 e.typeReserved (e.extend 8) (splitRead e 1)) s

/-- LDH (R102). -/
def execLdh (m : BitVec 1) (d a o : BitVec 8) (s : State) : Host.Outcome State Fault Refusal :=
  issue m (.ldh m d a o) (fun e => loadWith e d a (2 * o.toNat) 2 1 e.typeReserved (e.extend 16) (splitRead e 2)) s

/-- LDW (R102). -/
def execLdw (m : BitVec 1) (d a o : BitVec 8) (s : State) : Host.Outcome State Fault Refusal :=
  issue m (.ldw m d a o) (fun e => loadWith e d a (4 * o.toNat) 4 1 false id (splitRead e 4)) s

/-- LDD (R102). -/
def execLdd (m : BitVec 1) (d a o : BitVec 8) (s : State) : Host.Outcome State Fault Refusal :=
  issue m (.ldd m d a o) (fun e => loadWith e d a (8 * o.toNat) 8 2 false id (splitRead e 8)) s

/-- LDQ (R102). -/
def execLdq (m : BitVec 1) (d a o : BitVec 8) (s : State) : Host.Outcome State Fault Refusal :=
  issue m (.ldq m d a o) (fun e => loadWith e d a (16 * o.toNat) 16 4 false id (splitRead e 16)) s

/-- STB (R103). -/
def execStb (m : BitVec 1) (d a o : BitVec 8) (s : State) : Host.Outcome State Fault Refusal :=
  issue m (.stb m d a o) (fun e => storeWith e d a o.toNat 1 1 (pure ()) (splitWrite e)) s

/-- STH (R103). -/
def execSth (m : BitVec 1) (d a o : BitVec 8) (s : State) : Host.Outcome State Fault Refusal :=
  issue m (.sth m d a o) (fun e => storeWith e d a (2 * o.toNat) 2 1 (pure ()) (splitWrite e)) s

/-- STW (R103). -/
def execStw (m : BitVec 1) (d a o : BitVec 8) (s : State) : Host.Outcome State Fault Refusal :=
  issue m (.stw m d a o) (fun e => storeWith e d a (4 * o.toNat) 4 1 (pure ()) (splitWrite e)) s

/-- STD (R103). -/
def execStd (m : BitVec 1) (d a o : BitVec 8) (s : State) : Host.Outcome State Fault Refusal :=
  issue m (.std m d a o) (fun e => storeWith e d a (8 * o.toNat) 8 2 (pure ()) (splitWrite e)) s

/-- STQ (R103). -/
def execStq (m : BitVec 1) (d a o : BitVec 8) (s : State) : Host.Outcome State Fault Refusal :=
  issue m (.stq m d a o) (fun e => storeWith e d a (16 * o.toNat) 16 4 (pure ()) (splitWrite e)) s

/-! ## Acquire loads and release stores (R266 to R268) -/

/-- A load, then the acquire actions of its scope, once for the split; none when no lane accesses (R268). -/
def acquireLoad (e : Env) (d a : BitVec 8) (off size n : Nat) : M Flow := do
  let f ← loadWith e d a off size n false id (acquireRead e size)
  if isVec d && e.lanes.isEmpty then pure f
  else do
    act (acquire e.th.core e.cid e.scope)
    pure f

/-- The release before a release store, once (R267, R268). -/
def releaseFirst (e : Env) : M Unit :=
  if e.sp.progress.released then pure ()
  else act (fun s => modSplit e.tid e.sid (fun sp => { sp with progress := { sp.progress with released := true } })
    (release e.th.core e.scope s))

/-- The progress that `releaseFirst` has recorded. -/
def releaseStore (e : Env) (d a : BitVec 8) (off size n : Nat) : M Flow :=
  storeWith { e with sp := { e.sp with progress := { e.sp.progress with released := true } } } d a off size n
    (releaseFirst e) (releaseWrite e)

/-- LDA, LDAD, STL, STLD. -/
def execLda (m : BitVec 1) (d a o : BitVec 8) (s : State) : Host.Outcome State Fault Refusal :=
  issue m (.lda m d a o) (fun e => acquireLoad e d a (4 * o.toNat) 4 1) s
def execLdad (m : BitVec 1) (d a o : BitVec 8) (s : State) : Host.Outcome State Fault Refusal :=
  issue m (.ldad m d a o) (fun e => acquireLoad e d a (8 * o.toNat) 8 2) s
def execStl (m : BitVec 1) (d a o : BitVec 8) (s : State) : Host.Outcome State Fault Refusal :=
  issue m (.stl m d a o) (fun e => releaseStore e d a (4 * o.toNat) 4 1) s
def execStld (m : BitVec 1) (d a o : BitVec 8) (s : State) : Host.Outcome State Fault Refusal :=
  issue m (.stld m d a o) (fun e => releaseStore e d a (8 * o.toNat) 8 2) s

/-! ## LDC (R269) -/

/-- What fills the constant cache under a speculative fence: the die's L2, as for every load (R279). -/
def specLine (e : Env) (va : Nat) (s : State) : Except Nat RLine × State :=
  match l2Read (dieOf e.th.core) e.cid (va / 128 * 128) 128 s with
  | (.ok g, s) =>
    (.ok { cid := e.cid, line := va / 128,
           data := Sparse.setAll 0 [] 0 (overCluster s e.th.core e.cid (va / 128 * 128) g.bytes),
           poison := match Sparse.find? s.l2 (lineKey e.cid (va / 128)) with | some l => l.poison | none => 15 * ofBool g.poison }, s)
  | (.error c, s) => (.error c, s)

/-- A miss of the constant cache fills its line; under a speculative fence the line enters the read set. -/
def constFill (e : Env) (va : Nat) (s : State) : Except Nat Got × State :=
  match (if e.sp.spec.isSome then specLine e va s else roSource e.th.core e.cid va s) with
  | (.error c, s) => (.error c, s)
  | (.ok l, s) =>
    (.ok (lineGot l.data l.poison (va % 128) 4),
     noteRead e va (modCore e.th.core (fun c => { c with
       const := l :: c.const.filter (fun x => !(x.cid == l.cid && x.line == l.line)) }) s))

/-- A read through the core's constant cache; whether a line has been evicted is open. -/
def constRead (e : Env) (va : Nat) (s : State) : Except Nat Got × State :=
  match roFind (getCore s e.th.core).const e.cid (va / 128) with
  | none => constFill e va s
  | some l =>
    let (k, s) := keeps s
    if k then (.ok (lineGot l.data l.poison (va % 128) 4), s) else constFill e va s

/-- LDC. -/
def execLdc (m : BitVec 1) (d a o : BitVec 8) (s : State) : Host.Outcome State Fault Refusal :=
  issue m (.ldc m d a o) (fun e => loadWith e d a (4 * o.toNat) 4 1 false id (constRead e)) s

/-! ## Scratch (R270, R271) -/

/-- The scratch address of a lane: zext(A) + 4 × OFF8, without wrap. -/
def Env.scratchAddr (e : Env) (l : Nat) (a o : BitVec 8) : Nat := (e.regs.field l a).toNat + 4 * o.toNat

/-- The checks of R270, SPAD_RANGE first. -/
def checkScratch (e : Env) (ps : List Part) : M Unit := do
  let s ← get
  let far := ps.filter (fun p => decide (spadOf s e.th.launch ≤ p.va))
  let odd := ps.filter (fun p => decide (p.va % 4 ≠ 0))
  if !far.isEmpty then trapParts e causeSpadRange far
  else if !odd.isEmpty then trapParts e causeAlign odd
  else pure ()

/-- The place of a part's word. -/
def scratchOf (e : Env) (s : State) (p : Part) : Nat × Nat := scratchPlace s e.th.launch (scratchKey s e.th) p.va

/-- Every bank that some parts touch is active, or the split waits for one. -/
def needScratch (e : Env) (i : Instr) : List Part → M Unit
  | [] => pure ()
  | p :: ps => do
    let s ← get
    needBank (clusterOf e.th.core) (scratchOf e s p).1 i
    needScratch e i ps

/-- A word of scratch has been written. -/
def scratchValid (e : Env) (s : State) (p : Part) : Bool :=
  (getBank s (clusterOf e.th.core) (scratchOf e s p).1).valid4 (scratchOf e s p).2

/-- The word of a part. -/
def scratchWord (e : Env) (s : State) (p : Part) : Nat :=
  let k := getBank s (clusterOf e.th.core) (scratchOf e s p).1
  leNat ((List.range 4).map (fun i => k.readByte ((scratchOf e s p).2 + i)))

/-- LDS. -/
def execLds (m : BitVec 1) (d a o : BitVec 8) (s : State) : Host.Outcome State Fault Refusal :=
  issue m (.lds m d a o) (fun e => whenLanes e (isVec d) do
    checkOps e crewOnly (isVec d) [⟨d, .any, 1⟩, ⟨a, if isVec d then .any else .scal, 1⟩] false
    let ps := if !isVec d then [⟨e.active, e.scratchAddr 0 a o⟩]
      else if !isVec a then [⟨e.lanes, e.scratchAddr 0 a o⟩]
      else e.lanes.map (fun l => ⟨[l], e.scratchAddr l a o⟩)
    checkScratch e ps
    needScratch e (.lds m d a o) ps
    let s ← get
    let unwritten := ps.filter (fun p => !scratchValid e s p)
    if e.spadchk && !unwritten.isEmpty then trapParts e causeSpadUninit unwritten
    else do
      act (fun s => unwritten.foldl (fun s p => logUnwritten e.th.launch p.va s) s)
      emit e (ps.flatMap (fun p => loadResults d 1 p (scratchWord e s p))) 0
      pure Flow.next) s

/-- Write the word of a part. -/
def scratchStore (e : Env) (d : BitVec 8) (s : State) (p : Part) : State :=
  modBank (clusterOf e.th.core) (scratchOf e s p).1 (fun k => k.store (scratchOf e s p).2 (storeBytes e d 1 4 p)) s

/-- STS. -/
def execSts (m : BitVec 1) (d a o : BitVec 8) (s : State) : Host.Outcome State Fault Refusal :=
  issue m (.sts m d a o) (fun e => whenLanes e true do
    checkOps e crewOnly true [⟨d, .any, 1⟩, ⟨a, .any, 1⟩] false
    let ps := if !isVec a then [⟨e.lanes, e.scratchAddr 0 a o⟩]
      else e.lanes.map (fun l => ⟨[l], e.scratchAddr l a o⟩)
    checkScratch e ps
    needScratch e (.sts m d a o) ps
    act (fun s => ps.foldl (scratchStore e d) s)
    pure Flow.next) s

/-! ## Atomics (R274 to R277) -/

/-- The new value of a word, with the flags of the computation. -/
abbrev Update := Nat → Nat × Word

/-- An update on the die that holds the word for it (R276): read, then write with the mark cleared. A die that a recall
of the line has reached takes none until it has given the line up (R258). -/
def atomicL2 (die cid va size : Nat) (f : Update) (s : State) : Except Nat (Nat × Word) × State :=
  if recallPending s die cid (va / 128) then (.error whyHandler, s) else
  match gotBytes (l2Read die cid va size s) with
  | (.error c, s) => (.error c, s)
  | (.ok bs, s) =>
    match crewL2Write die cid va (leBytes size (f (leNat bs)).1) .clear s with
    | (.error c, s) => (.error c, s)
    | (.ok _, s) => (.ok (leNat bs, (f (leNat bs)).2), s)

/-- An update in the cluster cache: the line is filled if absent, the mark becomes the crew's. -/
def atomicCluster (core cid va size home : Nat) (f : Update) (s : State) : Except Nat (Nat × Word) × State :=
  match gotBytes (plainRead core cid va size 0 s) with
  | (.error c, s) => (.error c, s)
  | (.ok bs, s) =>
    match plainWrite core cid va (leBytes size (f (leNat bs)).1) (.force home) 0 s with
    | (.error c, s) => (.error c, s)
    | (.ok _, s) => (.ok (leNat bs, (f (leNat bs)).2), s)

/-- The attributes of a line that decide an atomic's place: CP, a window, a SHADOW page, host bias. -/
structure Attrs where
  cp     : Nat
  win    : Bool
  w      : Bool
  shadow : Bool
  host   : Bool
deriving DecidableEq, Repr

/-- The attributes of a line: from the cluster's copy, or from the L2 level. -/
def lineAttrs (core cid va : Nat) (s : State) : Except Nat Attrs × State :=
  match clFind s (clusterOf core) cid (va / 128) with
  | some l =>
    (match storeAllowed (clusterOf core) cid va l.w s with
     | (.error c, s) => (.error c, s)
     | (.ok _, s) => (.ok ⟨0, l.win, true, l.shadow, l.host⟩, s))
  | none =>
    match lineLook s cid va with
    | (.error c, s) => (.error c, s)
    | (.ok l, s) =>
      match askW cid va l.w s with
      | (.error c, s) => (.error c, s)
      | (.ok _, s) => (.ok ⟨l.cp, l.win, true, l.shadow, l.host⟩, s)

/-- The die where a device- or system-scope atomic executes (R276). -/
def atomicDie (e : Env) (x : Attrs) (va : Nat) : Nat :=
  if x.host && decide (e.scope = 3) then dieOf e.th.core else homeSlice e.cid va / 32

/-- One lane's atomic at the place that SCOPE selects (R275, R276). -/
def atomicAt (e : Env) (va size : Nat) (f : Update) (s : State) : Except Nat (Nat × Word) × State :=
  match lineAttrs e.th.core e.cid va (settleOwn e va size s) with
  | (.error c, s) => (.error c, s)
  | (.ok x, s) =>
    if x.win || x.shadow || (decide (x.cp = 2) && decide (e.scope < 2)) then (.error whyAccess, s)
    else if 2 ≤ e.scope then atomicL2 (atomicDie e x va) e.cid va size f (bypass e.th.core e.cid va s)
    else if decide (x.cp = 0) && !(cacheBanks s (clusterOf e.th.core)).isEmpty then
      atomicCluster e.th.core e.cid va size e.th.homenum f s
    else atomicL2 (homeSlice e.cid va / 32) e.cid va size f s

/-- Operands of an atomic in a lane: the value(s) of B, each of the width. -/
def atomicArg (e : Env) (l : Nat) (b : BitVec 8) (n : Nat) : Nat := e.val l b n

/-- A part of an atomic. -/
def atomicPart (e : Env) (d : BitVec 8) (n size : Nat) (f : Nat → Update) (p : Part) (s : State) : PartResult × State :=
  match atomicAt e p.va size (f (p.lanes.head?.getD 0)) s with
  | (.error c, s) => (.error c, s)
  | (.ok (old, fl), s) => (.ok (if d = 0xC0#8 then [] else loadResults d n p old, fl), s)

/-- A TYPE that an atomic accepts (R274). -/
def atomicInt (t : ElemType) : Bool := decide (t.n = 1) && !t.isFloat
def atomicFloat (t : ElemType) : Bool := decide (t.n = 1) && t.isFloat
def atomicAny (_ : ElemType) : Bool := true
def atomicUnsigned (t : ElemType) : Bool := atomicInt t && !t.isSigned

/-- The shape of every atomic: `nb` registers of B per register of D; D = s0 discards (R274, R275). -/
def atomic (e : Env) (d a b : BitVec 8) (nb : Nat) (ok : ElemType → Bool) (f : ElemType → Nat → Update) : M Flow :=
  let once := !isVec d && (decide (d ≠ 0xC0#8) || (!isVec a && !isVec b))
  let n := e.typeRegs
  let req : Req := if isVec d || decide (d = 0xC0#8) then .any else .scal
  whenLanes e (!once) do
    checkOps e crewOnly (!once) [⟨d, .any, n⟩, ⟨a, req, 2⟩, ⟨b, req, nb * n⟩] (e.typeBad ok)
    let t := (elemType e.type).getD ⟨1, 32, .sint⟩
    let ps : List Part := if once then [⟨e.active, e.addr 0 a 0⟩] else e.lanes.map (fun l => ⟨[l], e.addr l a 0⟩)
    checkAddrs e ps (4 * n)
    let r ← runParts e .atomic ps (atomicPart e d n (4 * n) (f t))
    emit e r.1 r.2
    pure Flow.next

/-- The width of an atomic in bits. -/
def ElemType.wide (t : ElemType) : Nat := 32 * t.regs

/-- An atomic whose new value depends on the old one and on B. -/
def atomic1 (e : Env) (d a b : BitVec 8) (ok : ElemType → Bool) (f : ElemType → Nat → Nat → Nat × Word) : M Flow :=
  atomic e d a b 1 ok (fun t l old => f t old (atomicArg e l b t.regs))

/-- The smaller or larger in the kind's signedness. -/
def pickInt (isMax : Bool) (t : ElemType) (x y : Nat) : Nat × Word :=
  if (decide (intVal t.isSigned t.b x ≤ intVal t.isSigned t.b y)) = isMax then (y, 0) else (x, 0)

/-- ATADD, ATMIN, ATMAX. -/
def execAtadd (m : BitVec 1) (d a b : BitVec 8) (s : State) : Host.Outcome State Fault Refusal :=
  issue m (.atadd m d a b) (fun e => atomic1 e d a b atomicInt (fun t x y => ((x + y) % 2 ^ t.b, 0))) s
def execAtmin (m : BitVec 1) (d a b : BitVec 8) (s : State) : Host.Outcome State Fault Refusal :=
  issue m (.atmin m d a b) (fun e => atomic1 e d a b atomicInt (pickInt false)) s
def execAtmax (m : BitVec 1) (d a b : BitVec 8) (s : State) : Host.Outcome State Fault Refusal :=
  issue m (.atmax m d a b) (fun e => atomic1 e d a b atomicInt (pickInt true)) s

/-- ATAND, ATOR, ATXOR, ATSWP. -/
def execAtand (m : BitVec 1) (d a b : BitVec 8) (s : State) : Host.Outcome State Fault Refusal :=
  issue m (.atand m d a b) (fun e => atomic1 e d a b atomicAny (fun _ x y => (Nat.land x y, 0))) s
def execAtor (m : BitVec 1) (d a b : BitVec 8) (s : State) : Host.Outcome State Fault Refusal :=
  issue m (.ator m d a b) (fun e => atomic1 e d a b atomicAny (fun _ x y => (Nat.lor x y, 0))) s
def execAtxor (m : BitVec 1) (d a b : BitVec 8) (s : State) : Host.Outcome State Fault Refusal :=
  issue m (.atxor m d a b) (fun e => atomic1 e d a b atomicAny (fun _ x y => (Nat.xor x y, 0))) s
def execAtswp (m : BitVec 1) (d a b : BitVec 8) (s : State) : Host.Outcome State Fault Refusal :=
  issue m (.atswp m d a b) (fun e => atomic1 e d a b atomicAny (fun _ _ y => (y, 0))) s

/-- ATCAS: the compare value, then the new value, in the registers of B (R274). -/
def execAtcas (m : BitVec 1) (d a b : BitVec 8) (s : State) : Host.Outcome State Fault Refusal :=
  issue m (.atcas m d a b) (fun e => atomic e d a b 2 atomicAny (fun t l old =>
    let cmp := atomicArg e l b t.regs
    let new := atomicArg e l (b + BitVec.ofNat 8 t.regs) t.regs
    (if old = cmp then new else old, 0))) s

/-- ATFADD: round(old + b, RND) with FTZ and the flags of R107 to R110. -/
def floatAdd (e : Env) (t : ElemType) (x y : Nat) : Nat × Word :=
  match t.kind with
  | .flt c => fAdd (floatFmt c) { rnd := e.rnd, ftz := e.ftz, ovf := none } (decodeFloat (floatFmt c) e.ftz x)
      (decodeFloat (floatFmt c) e.ftz y)
  | _ => (x, 0)
def execAtfadd (m : BitVec 1) (d a b : BitVec 8) (s : State) : Host.Outcome State Fault Refusal :=
  issue m (.atfadd m d a b) (fun e => atomic1 e d a b atomicFloat (floatAdd e)) s

/-- ATINC: 0 if old ≥ b, else old + 1. -/
def execAtinc (m : BitVec 1) (d a b : BitVec 8) (s : State) : Host.Outcome State Fault Refusal :=
  issue m (.atinc m d a b) (fun e => atomic1 e d a b atomicUnsigned (fun _ x y => (if y ≤ x then 0 else x + 1, 0))) s

/-! ## FENCE (R278 to R280) -/

/-- The release and acquire actions of a fence kind: 0 FULL, 1 ACQ, 2 REL. -/
def fenceActs (core cid scope kind : Nat) (s : State) : State :=
  let s := if kind = 1 then s else release core scope s
  if kind = 2 then s else acquire core cid scope s

/-- The checkpoint of a speculative fence, taken after it has closed its run (R279). A release is performed as the
fence issues: its writes reach the L2 level before the loads that are served there. -/
def openSpec (e : Env) (kind : Nat) (s : State) : State :=
  let s := if kind = 0 then release e.th.core e.scope s else s
  let (loop, next) := e.sp.loop.fall e.sp.pc.toNat
  let (n, s) := freeNat s
  after n (.specFenceComplete e.tid e.sid) (modThread e.tid (fun t => { t with
    splits := Sparse.alter t.splits e.sid (fun sp => { sp with spec := some {
      pc := BitVec.ofNat 64 next, loop := loop, fencePc := e.sp.pc, fenceLoop := e.sp.loop, regs := t.regs, written := [], readSet := [], held := none,
      fault := none, rollbacks := 0, hit := false, release := decide (kind = 0), scope := e.scope } }) }) s)

/-- FENCE: a speculative one closes its run and lets the split go on (R279). -/
def execFence (m : BitVec 1) (p : BitVec 1) (k : BitVec 2) (s : State) : Host.Outcome State Fault Refusal :=
  issue m (.fence m p k) (fun e => do
    checkOps e anyKind false [] false
    if p = 1#1 && decide (k.toNat < 2) && decide (2 ≤ e.scope) && decide (e.th.kind = .crew) then do
      let e ← closeFirst e
      act (openSpec e k.toNat)
      pure Flow.nextClose
    else do
      act (fenceActs e.th.core e.cid e.scope k.toNat)
      pure Flow.next) s

/-- The fence completes: its actions, the end of the checkpoint, the held trap or page fault (R278, R280). -/
def completeSpec (tid sid : Nat) (x : Spec) (s : State) : State :=
  match Sparse.find? s.threads tid with
  | none => s
  | some t =>
    let s := modSplit tid sid (fun sp => { sp with spec := none }) s
    let s := fenceActs t.core (cidOf s t.launch) x.scope (if x.release then 0 else 1) s
    match x.held, x.fault, (getSplit s tid sid).bind Split.wait with
    | some y, _, _ => hand tid sid (.trap y) s
    | none, some p, some w => parkSplit tid sid p w.instr s
    | none, _, _ => wake tid sid s

/-- SPEC_FENCE_COMPLETE (R280): a rollback that is due comes first; the fourth makes the fence complete before
the split goes on, as a non-speculative fence does. -/
def execSpecFenceComplete (tid split : Nat) (s : State) : Host.Outcome State Fault Refusal :=
  .next (match (getSplit s tid split).bind (fun sp => sp.spec) with
    | none => s
    | some x =>
      if !x.hit then completeSpec tid split x s
      else
        let s := rollback tid split x s
        if 4 ≤ x.rollbacks + 1 then completeSpec tid split { x with held := none, fault := none } s else s)

/-! ## PFENCE (R281) -/

/-- Keep the lines of other contexts. -/
def otherContexts (cid : Nat) (ls : List RLine) : List RLine := ls.filter (fun l => l.cid != cid)

/-- Write back every line of a cluster that satisfies a test, as plain writes. -/
def writeBackAll (cl : Nat) (p : CLine → Bool) (s : State) : State :=
  (clLines s cl p).foldl (fun s k => clWriteBack cl k.1 k.2 false s) s

/-- Invalidate the clean lines of a cluster that satisfy a test. -/
def dropClean (cl : Nat) (p : CLine → Bool) (s : State) : State :=
  modCluster cl (fun c => { c with cache := c.cache.filter (fun l => !(p l && decide (l.dirty = 0))) }) s

/-- A die gives up its copy of a line that holds nothing of its own (R242, R282): no message is needed, and the home
knows of it. -/
def dieLeaves (die key : Nat) (s : State) : State :=
  match Sparse.find? s.l2 key with
  | some l =>
    (match copyAt l die with
     | some .s | some .e | some .o | some .m =>
       settle key (specHit die l.cid l.line (loseCopy die key (modLine key (fun l => { l with
         owner := if l.owner = some die then none else l.owner, sharers := l.sharers.filter (· != die) }) s)))
     | _ => s)
  | none => s

/-- Clean lines of a die's L2 that satisfy a test leave it. -/
def l2Clean (die : Nat) (p : L2Line → Bool) (s : State) : State :=
  (s.l2.filter (fun kl => p kl.2 && !kl.2.dirtyAt die)).foldl (fun s kl => dieLeaves die kl.1 s) s

/-- A die writes a dirty line back to the channel: its copy stays, clean. An owner that shares becomes a sharer. -/
def l2WriteClean (die key : Nat) (s : State) : State :=
  match Sparse.find? s.l2 key with
  | some l =>
    if l.dirtyAt die then
      modLine key (fun l => match copyAt l die with
        | some .m => setCopy die .e l
        | some .o => { setCopy die .s l with owner := none, sharers := (die :: l.sharers).eraseDups }
        | _ => l) (l2WriteBack key s)
    else s
  | none => s

/-- A die's dirty lines that satisfy a test are written back. -/
def l2WriteAll (die : Nat) (p : L2Line → Bool) (s : State) : State :=
  (s.l2.filter (fun kl => p kl.2)).foldl (fun s kl => l2WriteClean die kl.1 s) s

/-- The action of one bit of PFENCE. -/
def pathFence (e : Env) (bitNo : Nat) (s : State) : State :=
  let core := e.th.core
  let cl := clusterOf core
  match bitNo with
  | 0 => dropClean cl (fun l => l.cid == e.cid)
      (writeBackAll cl (fun l => l.cid == e.cid && bit l.dirty (coreInCluster core)) s)
  | 1 => modCore core (fun c => { c with const := otherContexts e.cid c.const }) s
  | 2 => modCluster cl (fun c => { c with sampler := otherContexts e.cid c.sampler }) s
  | 3 => modCluster cl (fun c => { c with layout := otherContexts e.cid c.layout })
      (drainLayout core e.cid e.tid e.th.homenum s)
  | 4 => modCore core (fun c => { c with records := otherContexts e.cid c.records }) s
  | 5 => l2Clean (dieOf core) (fun l => l.isAlias)
      (dropClean cl (fun l => l.isAlias) (l2WriteAll (dieOf core) (fun l => l.isAlias) (writeBackAll cl (fun l => l.isAlias) s)))
  | _ => writeBackAll cl (fun l => bit l.dirty (coreInCluster core)) s

/-- PFENCE: each bit that is set, in ascending order. -/
def execPfence (m : BitVec 1) (p : BitVec 7) (s : State) : Host.Outcome State Fault Refusal :=
  issue m (.pfence m p) (fun e => do
    checkOps e crewOnly false [] false
    act (fun s => (List.range 7).foldl (fun s i => if p.getLsbD i then pathFence e i s else s) s)
    pure Flow.next) s

/-! ## CWB, CINV, CFLUSH, PREF (R282, R283) -/

/-- A line holds a byte of the range [va, va + n), modulo 2^64. -/
def inRange (va n line : Nat) : Bool := decide ((line + 2 ^ 57 - va / 128) % 2 ^ 57 ≤ (va % 128 + n - 1) / 128)

/-- A range lies in the canonical addresses (R26). -/
def rangeOk (va n : Nat) : Bool := canonicalVa va && canonicalVa ((va + n - 1) % 2 ^ 64)

/-- What CWB, CINV and CFLUSH do to lines. -/
structure CacheOp where
  wb  : Bool
  inv : Bool

/-- The action at the cluster cache. -/
def cacheCluster (op : CacheOp) (cl cid va n : Nat) (s : State) : State :=
  let p (l : CLine) : Bool := l.cid == cid && inRange va n l.line
  let s := if op.wb then writeBackAll cl p s else s
  if op.inv then dropClean cl p s else s

/-- The action at the die's L2: dirty host-bias lines go on to the host at system scope only. -/
def cacheL2 (op : CacheOp) (scope die cid va n : Nat) (s : State) : State :=
  let p (l : L2Line) : Bool := l.cid == cid && inRange va n l.line
  let s := if op.wb then l2WriteAll die (fun l => p l && (decide (3 ≤ scope) || !l.host)) s else s
  if op.inv then l2Clean die p s else s

/-- The shape of CWB, CINV and CFLUSH. -/
def cacheControl (e : Env) (op : CacheOp) (d a : BitVec 8) : M Flow := do
  checkOps e crewOnly false [⟨d, .scal, 1⟩, ⟨a, .scal, 2⟩] false
  let va := e.addr 0 a 0
  let n := Nat.max (e.regs.field 0 d).toNat 1
  if !rangeOk va n then trapWith e causeAccess 0 e.active va
  else do
    act (cacheCluster op (clusterOf e.th.core) e.cid va n)
    if 2 ≤ e.scope then act (cacheL2 op e.scope (dieOf e.th.core) e.cid va n)
    pure Flow.next

/-- CWB, CINV, CFLUSH. -/
def execCwb (m : BitVec 1) (d a : BitVec 8) (s : State) : Host.Outcome State Fault Refusal :=
  issue m (.cwb m d a) (fun e => cacheControl e ⟨true, false⟩ d a) s
def execCinv (m : BitVec 1) (d a : BitVec 8) (s : State) : Host.Outcome State Fault Refusal :=
  issue m (.cinv m d a) (fun e => cacheControl e ⟨false, true⟩ d a) s
def execCflush (m : BitVec 1) (d a : BitVec 8) (s : State) : Host.Outcome State Fault Refusal :=
  issue m (.cflush m d a) (fun e => cacheControl e ⟨true, true⟩ d a) s

/-- A prefetch waits for a line that a handler has. -/
def prefetchLater (cl cid va hint : Nat) (s : State) : State :=
  { s with prefetches := s.prefetches ++ [{ cl := cl, cid := cid, line := va / 128, hint := hint }] }

/-- A fill of a prefetch. -/
def prefetchFill (cl cid va hint : Nat) (s : State) : State :=
  match clFill cl cid va hint s with
  | (.ok _, s) => s
  | (.error c, s) => if c = whyHandler then prefetchLater cl cid va hint s else s

/-- A prefetch: dropped where it would fault, where the line is present, or where the cluster keeps none; a line that a
handler takes is filled once the handler has answered (R247, R283). -/
def prefetch (cl cid hint va : Nat) (s : State) : State :=
  if !canonicalVa va || (clFind s cl cid (va / 128)).isSome then s
  else
    match atCluster s cl cid va with
    | (.ok true, s) => prefetchFill cl cid va hint s
    | (.ok false, s) => s
    | (.error c, s) => if c = whyHandler then prefetchLater cl cid va hint s else s

/-- The prefetches that have waited for a line. -/
def prefetchAgain (cid line : Nat) (s : State) : State :=
  let ps := s.prefetches.filter (fun p => p.cid == cid && p.line == line)
  ps.foldl (fun s p => prefetch p.cl cid p.hint (line * 128) s)
    { s with prefetches := s.prefetches.filter (fun p => !(p.cid == cid && p.line == line)) }

/-- PREF: a vector A acts per lane of W, a scalar one once. -/
def execPref (m : BitVec 1) (a : BitVec 8) (s : State) : Host.Outcome State Fault Refusal :=
  issue m (.pref m a) (fun e => whenLanes e (isVec a) do
    checkOps e anyKind (isVec a) [⟨a, .any, 2⟩] false
    act (fun s => (if isVec a then e.lanes.map (fun l => e.addr l a 0) else [e.addr 0 a 0]).foldl
      (fun s va => prefetch (clusterOf e.th.core) e.cid e.hint va s) s)
    pure Flow.next) s

/-! ## PIN and UNPIN (R237, R284, R285) -/

/-- A set of a die has a way left for a pinned line. -/
def pinRoom (s : State) (die cid line : Nat) (new : List Nat) : Bool :=
  let held := (pinnedLines s die ++ new.map (fun l => (cid, l))).eraseDups
  held.contains (cid, line) ||
    decide ((held.filter (fun k => decide (l2Set k.1 (k.2 * 128) = l2Set cid (line * 128)))).length < 16)

/-- Fill and pin the lines of a range in order; a line that cannot be pinned is counted. -/
def pinLines (die cid : Nat) : List Nat → List Nat × Nat × State → List Nat × Nat × State
  | [], acc => acc
  | line :: rest, (held, lost, s) =>
    if !pinRoom s die cid line held then pinLines die cid rest (held, lost + 1, s)
    else
      match l2FillFor .device die s cid (line * 128) with
      | (.error _, s) => pinLines die cid rest (held, lost + 1, s)
      | (.ok l, s) =>
        if l.cp = 2 then pinLines die cid rest (held, lost + 1, s)
        else pinLines die cid rest (held ++ [line], lost, l2Touch .device die cid line false s)

/-- The fills that a PIN asks for: the first line that it must wait for, because a handler has it (R247) or another die
must answer. -/
def pinFills (die cid : Nat) : List Nat → List Nat → State → Option Nat × State
  | [], _, s => (none, s)
  | line :: rest, held, s =>
    if !pinRoom s die cid line held then pinFills die cid rest held s
    else
      match l2Read die cid (line * 128) 1 s with
      | (.ok _, s) => pinFills die cid rest (held ++ [line]) s
      | (.error c, s) => if c = whyHandler then (some line, s) else pinFills die cid rest held s

/-- The lines of a range. -/
def rangeLines (va n : Nat) : List Nat :=
  (List.range ((va % 128 + n - 1) / 128 + 1)).map (fun i => (va / 128 + i) % 2 ^ 57)

/-- A free pin window of a die. -/
def freePin (s : State) (die : Nat) : Option Nat :=
  (List.range 64).find? (fun w => (Sparse.find? s.pins (64 * die + w)).isNone)

/-- PIN. -/
def execPin (m : BitVec 1) (d a : BitVec 8) (s : State) : Host.Outcome State Fault Refusal :=
  issue m (.pin m d a) (fun e => do
    checkOps e crewOnly false [⟨d, .scal, 2⟩, ⟨a, .scal, 2⟩] false
    let va := e.addr 0 a 0
    let n := (e.regs.field 0 d).toNat
    let load := if (e.regs.field 0 (d + 1)).toNat % 256 = 0 then 255 else (e.regs.field 0 (d + 1)).toNat % 256
    let die := dieOf e.th.core
    if n = 0 then illegal e 8 e.active
    else if !rangeOk va n then trapWith e causeAccess 0 e.active va
    else do
      let s ← get
      match freePin s die with
      | none => emit e [regWrite 0 d (rangeLines va n).length, regWrite 0 (d + 1) 0xFFFFFFFF] 0
      | some w => do
        match ← ask (pinFills die e.cid (rangeLines va n) []) with
        | some line => throw (.park { token := 0, va := BitVec.ofNat 64 (line * 128), mask := maskOf e.active, acc := .read,
                                      why := whyHandler, verdict := none })
        | none => pure ()
        let s ← get
        let (held, lost, s1) := pinLines die e.cid (rangeLines va n) ([], 0, s)
        set (after Config.pinTick (.pinFadeTick die w) { s1 with
          pins := Sparse.put s1.pins (64 * die + w)
            { cid := e.cid, base := va, size := n, fade := load, load := load, touched := false, lines := held } })
        emit e [regWrite 0 d lost, regWrite 0 (d + 1) w] 0
      pure Flow.next) s

/-- A pin window is released, with its tick (R237): its lines become ordinary, and what waits for a way of their sets is
examined. -/
def dropPin (k : Nat) (s : State) : State :=
  let wake := match Sparse.find? s.pins k with | some p => (p.lines.flatMap (lineWaiters s p.cid)).eraseDups | none => []
  due wake { s with
    pins := Sparse.erase s.pins k
    calendar := s.calendar.filter (fun c => c.2 != .pinFadeTick (k / 64) (k % 64) && c.2 != .pinWindowFaded (k / 64) (k % 64)) }

/-- UNPIN. -/
def execUnpin (m : BitVec 1) (a : BitVec 8) (s : State) : Host.Outcome State Fault Refusal :=
  issue m (.unpin m a) (fun e => do
    checkOps e crewOnly false [⟨a, .scal, 2⟩] false
    act (fun s => match List.find? (fun (kp : Nat × Pin) => kp.1 / 64 == dieOf e.th.core && kp.2.cid == e.cid
          && kp.2.base == e.addr 0 a 0) s.pins with
      | some kp => dropPin kp.1 s
      | none => s)
    pure Flow.next) s

/-! ## SAMPLE (R286, R439) -/

/-- A read of a cluster's cache of lines: least recently used, filled from the cluster cache or L2. -/
def unitRead (get : Cluster → List RLine) (put : List RLine → Cluster → Cluster) (cap core cid va n : Nat) (s : State) :
    Except Nat Got × State :=
  let cl := clusterOf core
  match roFind (get (getCluster s cl)) cid (va / 128) with
  | some l => (.ok (lineGot l.data l.poison (va % 128) n), modCluster cl (fun c => put (roPut cap l (get c)) c) s)
  | none =>
    match roSource core cid va s with
    | (.error c, s) => (.error c, s)
    | (.ok l, s) =>
      (.ok (lineGot l.data l.poison (va % 128) n), modCluster cl (fun c => put (roPut cap l (get c)) c) s)

/-- The sampler cache. -/
def samplerRead (core cid va n : Nat) (s : State) : Except Nat Got × State :=
  unitRead Cluster.sampler (fun ls c => { c with sampler := ls }) Config.samplerLines core cid va n s

/-- A coordinate clamped into 0 to extent − 1. -/
def clampCoord (x : Word) (ext : Nat) : Int := max 0 (min x.toInt ((ext : Int) - 1))

/-- The address of the element that a lane's coordinates select. -/
def sampleAddr (e : Env) (sh : Shape) (b : BitVec 8) (l : Nat) : Nat :=
  sh.at [clampCoord (e.regs.field l b) (sh.ext.getD 0 0), clampCoord (e.regs.field l (b + 1)) (sh.ext.getD 1 0)]

/-- A sampled element as F32: unchanged, or as CVT converts. -/
def sampleValue (e : Env) (elem x : Nat) : Nat × Word :=
  if elem = 2 then (x, 0) else cvtValue elem 2 { rnd := e.rnd, ftz := e.ftz, ovf := some e.ovf } e.sat x

/-- A part of SAMPLE. An extent of zero leaves no element: the value is free. -/
def samplePart (e : Env) (d : BitVec 8) (sh : Shape) (p : Part) (s : State) : PartResult × State :=
  match gotBytes (samplerRead e.th.core e.cid p.va (elemBytes sh.elem) s) with
  | (.error c, s) => (.error c, s)
  | (.ok bs, s) =>
    if sh.count = 0 then
      (.ok (p.lanes.map (fun l => regWrite l d (Config.freeBits s.fresh).toNat), 0), { s with fresh := s.fresh + 1 })
    else
      let r := sampleValue e sh.elem (leNat bs)
      (.ok (p.lanes.map (fun l => regWrite l d r.1), r.2), s)

/-- SAMPLE. -/
def execSample (m : BitVec 1) (d a b : BitVec 8) (s : State) : Host.Outcome State Fault Refusal :=
  issue m (.sample m d a b) (fun e => whenLanes e true do
    checkOps e crewOnly true [⟨d, .vect, 1⟩, ⟨a, .scal, 2⟩, ⟨b, .any, 2⟩] false
    let va := e.addr 0 a 0
    let sh ← readShape e e.lanes va
    if !sh.ok || engineForm sh.elem then trapWith e causeAccess 0 e.lanes va
    else do
      let ps : List Part := e.lanes.map (fun l => ⟨[l], sampleAddr e sh b l⟩)
      checkAddrs e ps (elemBytes sh.elem)
      let r ← runParts e .read ps (samplePart e d sh)
      emit e r.1 r.2
      pure Flow.next) s

end Sys2Proof.Machine
end

