-- ==== Sys2Proof/Machine/Krazu.lean ====
section
/-! DEFINITION. Krazu Link (R422): ports, routes and flits, and the checkpoints that a PUBLISH sends to the mirror of a
buddy device (R424). -/

namespace Sys2Proof.Machine

/-! ## Ports and flits (R422) -/

/-- A port. -/
def getPort (s : State) (p : Nat) : Port := (Sparse.find? s.ports p).getD Port.reset
def modPort (p : Nat) (f : Port → Port) (s : State) : State := { s with ports := Sparse.put s.ports p (f (getPort s p)) }

/-- The mask of ports that the routing table gives a device. -/
def routeMask (s : State) (device : Nat) : Nat := (Sparse.find? s.routes device).getD 0

/-- The routing table is loaded from configuration flash (R422, R429): a mask for each of 32,768 numbers. -/
def loadRoutes (s : State) : State :=
  { s with routes := (List.range 32768).map (fun d => (d, Config.flashRoutes d % 65536)) }

/-- The ports that are up. -/
def upPorts (s : State) : List Nat := (List.range Config.ports).filter (fun p => (getPort s p).up && !(getPort s p).training)

/-- The port of a device: of its mask, or another one when those are down. -/
def routePort (s : State) (device : Nat) : Option Nat :=
  let up := upPorts s
  match up.filter (fun p => bit (routeMask s device) p) with
  | p :: _ => some p
  | [] => up.head?

/-- A port keeps as many flits as it can. -/
def Port.full (q : Port) : Bool := decide (128 ≤ q.replay.length)

/-- A flit takes the next sequence number, is put on the link, and is kept until it is acknowledged. -/
def putFlit (p : Nat) (f : Flit) (s : State) : State :=
  scheduleOnce (s.chiptime + 5400) (.krazuAckTimeout p) (modPort p (fun q => { q with
    tx := (q.tx + 1) % 65536, sent := q.sent + 1, replay := q.replay ++ [{ f with seq := q.tx, crcOk := true }] }) s)

/-- A flit is sent, or waits while the port keeps 128. -/
def sendFlit (p : Nat) (f : Flit) (s : State) : State :=
  if (getPort s p).full then modPort p (fun q => { q with waiting := q.waiting ++ [f] }) s else putFlit p f s

/-- Flits that wait are sent while there is room. -/
def refill (p : Nat) : Nat → State → State
  | 0, s => s
  | n + 1, s =>
    let q := getPort s p
    match q.waiting with
    | [] => s
    | f :: fs => if q.full then s else refill p n (putFlit p f (modPort p (fun q => { q with waiting := fs }) s))

/-! ## Checkpoints (R424) -/

/-- A port holds flits for a device that are not acknowledged. -/
def flitsTo (s : State) (device : Nat) : Bool :=
  s.ports.any (fun kp => (kp.2.replay ++ kp.2.waiting).any (fun f => f.dest == device))

/-- The next part of a backing goes out in a flit of 240 payload bytes; its type is free. -/
def sendPart (p : Nat) (x : Transfer) (xs : List Transfer) (s : State) : State :=
  let n := Nat.min 240 x.left
  let bs := (List.range n).map (fun i => physByte s (x.pa + i))
  sendFlit p { dest := x.buddy, src := Config.device % 32768, kind := Config.freeNat s.fresh % 256, seq := 0, payload := bs, crcOk := true }
    { s with fresh := s.fresh + 1,
             station := { s.station with outgoing := { x with pa := x.pa + n, left := x.left - n } :: xs } }

/-- The mirror has accepted a backing: the oldest PUBLISH of the region completes. -/
def mirrorAccepted (x : Transfer) (s : State) : State :=
  if x.restore then s else
  match oldest s (fun o => o == .publish x.cid x.region) with
  | some w => hand w.1 w.2.1 .go s
  | none => s

/-- Backings go out in their order, as far as the ports keep flits; one whose flits are all acknowledged is accepted. -/
def pumpMirrors : Nat → State → State
  | 0, s => s
  | n + 1, s =>
    match s.station.outgoing with
    | [] => s
    | x :: xs =>
      if x.left = 0 then
        if flitsTo s x.buddy then s
        else pumpMirrors n (mirrorAccepted x { s with station := { s.station with outgoing := xs } })
      else
        match routePort s x.buddy with
        | none => s
        | some p => if (getPort s p).full then s else pumpMirrors n (sendPart p x xs s)

/-- The most flits that one event sends: a port keeps 128. -/
def mirrorFuel : Nat := 256

/-- A PUBLISH whose region is the context's checkpoint region completes once the buddy's mirror has accepted the new
active backing, and never when the buddy has failed (R424, R428); any other one completes with its swap. -/
def finishPublish (cid region : Nat) (c : Context) (pa size : Nat) (s : State) : State :=
  let x (buddy : Nat) : Transfer := { cid := cid, region := region, buddy := buddy, pa := pa, left := size, restore := false }
  match c.ckpt with
  | some (r, buddy) =>
    if r ≠ region then mirrorAccepted (x 0) s
    else if s.station.heartbeat.contains buddy then s
    else pumpMirrors mirrorFuel { s with station := { s.station with outgoing := s.station.outgoing ++ [x buddy] } }
  | none => mirrorAccepted (x 0) s

/-- The places that a flit of a device may fill (R424): the mirrors kept for it, and, as a spare restores what its buddy
sends, the active backings of the checkpoint regions whose buddy it is. -/
def mirrorPlaces (s : State) (src : Nat) : List (Nat × Nat) :=
  (s.station.mirrors.filter (fun m => m.1 / 4096 == src)).map Prod.snd ++
  s.contexts.filterMap (fun kc => match kc.2.ckpt with
    | some (r, buddy) =>
      (match shadowEntry s kc.2 r with
       | (vb, size, p0, p1) =>
         if buddy = src ∧ vb ≠ 0 then some (if Sparse.get false kc.2.selector r then p1 else p0, size) else none)
    | none => none)

/-- A flit for this device from a device with such a place: whether it carries a part of a backing, and which, its type
and payload say, which the spec does not lay out: free values. -/
def takeMirror (f : Flit) (s : State) : State :=
  match mirrorPlaces s f.src with
  | [] => s
  | m :: ms =>
    let m := (m :: ms).getD (Config.freeNat (s.fresh + 2) % (ms.length + 1)) m
    let o := Config.freeNat (s.fresh + 1) % Nat.max 1 m.2
    let s1 := { s with fresh := s.fresh + 3 }
    if Config.freeBool s.fresh then physWrite s1 (m.1 + o) (f.payload.take (Nat.min 240 (m.2 - o))) else s1

end Sys2Proof.Machine
end

