-- ==== Sys2Proof/Machine/Fetch.lean ====
section
/-! DEFINITION. Fetching an instruction's word: a captured loop body (R99), and the instruction cache over the L2
level (R91, R281), where a launch's fresh image is mapped (R395). -/

namespace Sys2Proof.Machine

/-- Lines of an instruction cache of 64 KiB (R1). -/
def icLines : Nat := 512

/-- A little-endian word of a line. -/
def lineWord (data : Sparse Byte) (off : Nat) : Word := BitVec.ofNat 32 (leNat (Sparse.getAll 0 data off 4))

/-- The L2 line of an instruction fetch, whose page must have X: it had it at the fill, or the channel is asked
(R241). The WHY code of R382 otherwise. -/
def codeLine (die cid va : Nat) (s : State) : Except Nat L2Line × State :=
  let key := lineKey cid (va / 128)
  match Sparse.find? s.l2 key with
  | some l =>
    if l.x then (.ok l, s)
    else
      match translate s cid (va - va % 128) with
      | (.error e, s) => (.error e, s)
      | (.ok x, s) => if x.x then (.ok l, modLine key (fun l => { l with x := true }) s) else (.error 2, s)
  | none =>
    match translate s cid (va - va % 128) with
    | (.error e, s) => (.error e, s)
    | (.ok x, s) => if x.x then fillUnder (turnHome s) die cid va x s else (.error 2, s)

/-- Fill a line of an instruction cache from the L2 level. -/
def icFill (core cid va : Nat) (s : State) : Except Nat RLine × State :=
  match codeLine (dieOf core) cid va s with
  | (.error e, s) => (.error e, s)
  | (.ok l, s) =>
    let s := if l.cp = 2 then touchPins (dieOf core) cid (va / 128) (carve (dieOf core) cid (va / 128) false s)
      else l2Touch (turnHome s) (dieOf core) cid (va / 128) false s
    if l.cp ≠ 2 ∧ !(copyServes s (dieOf core) (lineKey cid (va / 128)) false) then (.error whyHandler, s)
    else
      let l := (Sparse.find? s.l2 (lineKey cid (va / 128))).getD l
      let r : RLine := { cid := cid, line := va / 128, data := l.data, poison := l.poison }
      (.ok r, modCore core (fun c => { c with icache := roPut icLines r c.icache })
        (settle (lineKey cid (va / 128)) (drainMsgs 64 s)))

/-- A word through the instruction cache. -/
def icWord (core cid va : Nat) (s : State) : Except Nat Word × State :=
  if !canonicalVa va then (.error 0, s)
  else
    let miss (s : State) : Except Nat Word × State :=
      match icFill core cid va s with
      | (.error e, s) => (.error e, s)
      | (.ok r, s) => (.ok (lineWord r.data (va % 128)), s)
    match roFind (getCore s core).icache cid (va / 128) with
    | none => miss s
    | some r =>
      let (k, s) := keeps s
      if k then (.ok (lineWord r.data (va % 128)), s) else miss s

/-- The captured word at an address, while level 0 is active there (R99). -/
def capturedWord (l : Loop) (va : Nat) : Option Word :=
  match l.levels with
  | v :: _ => if v.holds va then (l.body.getD ((va - v.start) / 4) none) else none
  | [] => none

/-- The word at a split's PC. -/
def fetchWord (t : Thread) (sp : Split) (s : State) : Except Nat Word × State :=
  match capturedWord sp.loop sp.pc.toNat with
  | some w => (.ok w, s)
  | none => icWord t.core (cidOf s t.launch) sp.pc.toNat s

/-- Capture the words of a body (R99): none where a word cannot be fetched now. -/
def captureBody (t : Thread) (va : Nat) : Nat → State → List (Option Word) × State
  | 0, s => ([], s)
  | n + 1, s =>
    match icWord t.core (cidOf s t.launch) va s with
    | (r, s) =>
      match captureBody t (va + 4) n s with
      | (ws, s) => ((match r with | .ok w => some w | .error _ => none) :: ws, s)

end Sys2Proof.Machine
end

