-- ==== Sys2Proof/Machine/Control.lean ====
section
/-! DEFINITION. System and control instructions: special registers (R16, R17, R84, R85), GETCYC to ICINV
(R86 to R91), branches, calls, loops (R92 to R99), division, JOIN and EXIT (R193 to R197). -/

namespace Sys2Proof.Machine

/-! ## Special registers -/

/-- Who holds a copy of a special register, and how it is written (R16). -/
inductive SrScope where
  | lane | split | crew
deriving DecidableEq, Repr

inductive SrAccess where
  | ro | set | rw | w1c
deriving DecidableEq, Repr

/-- A row of the table of R16. -/
structure SrRow where
  scope  : SrScope
  wide   : Bool
  access : SrAccess
deriving DecidableEq, Repr

/-- The table of R16. -/
def srRow : Nat → Option SrRow
  | 0x00 => some ⟨.lane, false, .ro⟩
  | 0x01 | 0x02 | 0x03 | 0x04 | 0x05 | 0x06 | 0x08 => some ⟨.crew, false, .ro⟩
  | 0x07 => some ⟨.split, false, .ro⟩
  | 0x09 | 0x11 | 0x12 | 0x13 => some ⟨.crew, false, .set⟩
  | 0x10 => some ⟨.crew, false, .w1c⟩
  | 0x18 | 0x19 | 0x1A | 0x1B => some ⟨.split, false, .ro⟩
  | 0x20 => some ⟨.split, false, .rw⟩
  | 0x21 | 0x22 | 0x23 | 0x24 => some ⟨.split, true, .rw⟩
  | 0x30 | 0x31 => some ⟨.lane, false, .rw⟩
  | 0x32 | 0x33 | 0x34 => some ⟨.lane, true, .rw⟩
  | 0x35 => some ⟨.lane, true, .set⟩
  | 0x36 => some ⟨.lane, false, .set⟩
  | 0x37 => some ⟨.crew, false, .rw⟩
  | 0x40 => some ⟨.crew, true, .ro⟩
  | 0x41 => some ⟨.crew, false, .ro⟩
  | _ => none

/-- The registers an issuer may name (R17, R346). -/
def srAllowed (k : Kind) (sr : Nat) : Bool :=
  match k with
  | .crew | .scout => decide (sr ≠ 0x13)
  | .mseq => decide (sr = 0x10) || decide (sr = 0x13) || (decide (0x18 ≤ sr) && decide (sr ≤ 0x24))
  | .cseq => decide (sr = 0x10) || (decide (0x18 ≤ sr) && decide (sr ≤ 0x24))

/-- Crews of a launch, as CREWS reads. -/
def crewsOf (s : State) (launch : Nat) : Nat :=
  match Sparse.find? s.launches launch with | some l => l.record.crews | none => 0

/-- WIDTH: the launch's, in a scout too (R178). -/
def widthOf (s : State) (e : Env) : Nat :=
  match e.th.kind, Sparse.find? s.launches e.th.launch with
  | .scout, some l => l.record.width
  | _, _ => e.th.width

/-- A special register as a lane reads it, as held at run begin (R16, R84); a scout's lane-scoped registers
read as zero (R178). -/
def readSr (e : Env) (s : State) (lane sr : Nat) : Nat :=
  let r := e.regs
  let k (x : Nat) : Nat := if e.th.kind = .crew then x else 0
  match sr with
  | 0x00 => k lane
  | 0x01 => e.th.crewid
  | 0x02 => crewsOf s e.th.launch
  | 0x03 => widthOf s e
  | 0x04 => e.th.homenum
  | 0x05 => e.sp.run.phys
  | 0x06 => identOf s e.th.launch
  | 0x07 => e.sid
  | 0x08 => e.th.circ.toNat
  | 0x09 => r.gang.toNat
  | 0x10 => r.flags.toNat
  | 0x11 => e.cmode
  | 0x12 => e.mmode
  | 0x13 => r.xmode.toNat % 1024
  | 0x18 => (e.sp.run.lcImage.getD 0 0).toNat
  | 0x19 => (e.sp.run.lcImage.getD 1 0).toNat
  | 0x1A => (e.sp.run.lcImage.getD 2 0).toNat
  | 0x1B => e.sp.run.depth
  | 0x20 => e.sp.run.trImage.cause.toNat
  | 0x21 => e.sp.run.trImage.pc.toNat
  | 0x22 => e.sp.run.trImage.mask.toNat
  | 0x23 => e.sp.run.trImage.faultva.toNat
  | 0x24 => e.sp.run.trImage.faultmask.toNat
  | 0x30 => k (Sparse.get 0 r.hzn lane).toNat
  | 0x31 => k (Sparse.get 0 r.birth lane).toNat
  | 0x32 => k (Sparse.get 0 r.cptop lane).toNat
  | 0x33 => k (Sparse.get 0 r.trtop lane).toNat
  | 0x34 => k (Sparse.get 0 r.heaptop lane).toNat
  | 0x35 => k (Sparse.get 0 r.vwbase lane).toNat
  | 0x36 => k (Sparse.get 0 r.vwsize lane).toNat
  | 0x37 => r.ubudget.toNat
  | 0x40 => r.promise.toNat
  | 0x41 => e.sp.run.temp.toNat
  | _ => 0

/-- Registers of an operand that a special register needs. -/
def srRegs (sr : Nat) : Nat := match srRow sr with | some r => if r.wide then 2 else 1 | none => 1

/-- RDSR: never guarded (R84). -/
def execRdsr (m : BitVec 1) (d a : BitVec 8) (s : State) : Host.Outcome State Fault Refusal :=
  issue m (.rdsr m d a) (fun e => do
    checkOps e anyKind false [⟨d, .any, srRegs a.toNat⟩] false
    match srRow a.toNat with
    | none => illegal e 8 e.active
    | some row =>
      if !srAllowed e.th.kind a.toNat || (decide (row.scope = .lane) && !isVec d && decide (e.th.kind = .crew)) then
        illegal e 8 e.active
      else do
        let s ← get
        let r := laneResults (if isVec d then e.active else [0]) d (srRegs a.toNat) (fun l => (readSr e s l a.toNat, 0))
        emit e r.1 r.2
        pure Flow.next) s

/-- WRSR of FLAGS: the bits set in the source are cleared at run close (R22, R85). -/
def clearFlags (e : Env) (x : Word) : M Unit :=
  act (modSplit e.tid e.sid (fun sp => { sp with run := { sp.run with flagClr := sp.run.flagClr ||| x } }))

/-- A register that WRSR may write (R17). -/
def srWritable (sr : Nat) : Bool :=
  match srRow sr with | some r => decide (r.access = .rw) || decide (r.access = .w1c) | none => false

/-- A lane-scoped register. -/
def srLane (sr : Nat) : Bool := match srRow sr with | some r => decide (r.scope = .lane) | none => false

/-- WRSR (R85): lane-scoped registers per lane under the guard, the others from a scalar D. In scout code one to a
lane-scoped register has no effect (R178). -/
def execWrsr (m : BitVec 1) (d a : BitVec 8) (s : State) : Host.Outcome State Fault Refusal :=
  issue m (.wrsr m d a) (fun e => whenLanes e (srLane a.toNat) do
    checkOps e anyKind (srLane a.toNat) [⟨d, if srLane a.toNat then .any else .scal, srRegs a.toNat⟩] false
    if e.th.kind = .scout ∧ srLane a.toNat then pure Flow.next
    else if !srWritable a.toNat || !srAllowed e.th.kind a.toNat then illegal e 8 (e.fate (srLane a.toNat))
    else if srLane a.toNat then do
      if e.th.kind = .crew then
        emit e (e.lanes.map (fun l => .special l a.toNat (BitVec.ofNat 64 (e.val l d (srRegs a.toNat))))) 0
      pure Flow.next
    else do
      if a.toNat = 0x10 then clearFlags e (e.regs.field 0 d)
      else emit e [.special 0 a.toNat (BitVec.ofNat 64 (e.val 0 d (srRegs a.toNat)))] 0
      pure Flow.next) s

/-! ## GETCYC to ICINV -/

/-- GETCYC (R86): CHIPTIME when it issues; a vector pair is written in every active lane. -/
def execGetcyc (m : BitVec 1) (d : BitVec 8) (s : State) : Host.Outcome State Fault Refusal :=
  issue m (.getcyc m d) (fun e => do
    checkOps e anyKind false [⟨d, .any, 2⟩] false
    let s ← get
    let r := laneResults (if isVec d then e.active else [0]) d 2 (fun _ => (chipNow s, 0))
    emit e r.1 r.2
    pure Flow.next) s

/-- NOP (R87). -/
def execNop (m : BitVec 1) (s : State) : Host.Outcome State Fault Refusal :=
  issue m (.nop m) (fun _ => pure Flow.next) s

/-- The adoption requests that name an exiting lane as donor are refused (R197, R217), and their splits
examined. -/
def refuseRequests (tid : Nat) (ls : List Nat) (s : State) : State :=
  match Sparse.find? s.threads tid with
  | none => s
  | some t =>
    let hit (r : AdoptReq) : Bool := decide (r.answer = .pending) && ls.contains r.donor
    if t.requests.any hit then
      let s := modThread tid (fun t => { t with
        requests := t.requests.map (fun r => if hit r then { r with answer := .refused } else r) }) s
      wakeAll (fun o => match o with | .adopt => true | _ => false) s
    else s

/-- Lanes exit (R168): their resume records go, requests to them are refused. -/
def exitLanes (tid sid : Nat) (ls : List Nat) (s : State) : State :=
  refuseRequests tid ls (modSplit tid sid (fun sp => { sp with exited := sp.exited ||| maskOf ls }) s)

/-- END (R28, R88, R181, R347): the split of a crew ends as if every member had executed EXIT; a scout or a sequencer stops. -/
def execEndI (m : BitVec 1) (s : State) : Host.Outcome State Fault Refusal :=
  issue m (.endI m) (fun e => do
    let e ← closeFirst e
    match e.th.kind with
    | .crew => do
      act (exitLanes e.tid e.sid (lanesOf e.width e.sp.member))
      act (endSplit e.tid e.sid)
    | .scout => act (endScout e.tid)
    | _ => act (stopSequencer e.tid 0)
    throw .gone) s

/-- SYS and BRK: the run closes, then the trap with TRAPPC at the next word (R89). DESIGN CHOICE (log 84): the next word
is the one at pc + 4, also where the word is the last of a loop body; no iteration is counted. -/
def softTrap (e : Env) (cause : Nat) (n : BitVec 8) : M Flow := do
  checkOps e crewOnly false [] false
  let e ← closeFirst e
  throw (.trap { cause := cause, code := n.toNat, isOpen := false, pc := e.sp.pc + 4, mask := maskOf e.active, faultva := 0 })

/-- SYS (R89). -/
def execSys (m : BitVec 1) (n : BitVec 8) (s : State) : Host.Outcome State Fault Refusal :=
  issue m (.sys m n) (fun e => softTrap e causeSys n) s

/-- BRK (R89). -/
def execBrk (m : BitVec 1) (n : BitVec 8) (s : State) : Host.Outcome State Fault Refusal :=
  issue m (.brk m n) (fun e => softTrap e causeBrk n) s

/-- TRET (R90, R379): ILLEGAL outside a handler; a misaligned TRAPPC is a misaligned transfer (R26). -/
def execTret (m : BitVec 1) (s : State) : Host.Outcome State Fault Refusal :=
  issue m (.tret m) (fun e => do
    checkOps e crewOnly false [] false
    if e.th.handler ≠ some e.sid then illegal e 8 e.active
    else do
      let e ← closeFirst e
      if e.sp.trapRegs.pc.toNat % 4 ≠ 0 then trapWith e causeAlign 0 e.active 0
      else do
        act (returnTrap e.tid e.sid)
        throw .gone) s

/-- ICINV (R91). -/
def execIcinv (m : BitVec 1) (s : State) : Host.Outcome State Fault Refusal :=
  issue m (.icinv m) (fun e => do
    checkOps e crewOnly false [] false
    act (modCore e.th.core (fun c => { c with icache := c.icache.filter (fun l => l.cid != e.cid) }))
    pure Flow.next) s

/-! ## Branches and calls -/

/-- The address of the next word, and a target of R36. -/
def Env.nextPc (e : Env) : DWord := e.sp.pc + 4
def Env.target (e : Env) (o : BitVec 20) : DWord := e.nextPc + 4 * o.signExtend 64

/-- A transfer to an address; bits [1:0] not zero trap ALIGN (R26). -/
def jumpTo (e : Env) (a : DWord) : M Flow :=
  if a.toNat % 4 ≠ 0 then trapWith e causeAlign 0 e.active 0 else pure (Flow.jump a)

/-- The condition of BR over the active lanes (R92). -/
def brTaken (e : Env) (c : Nat) : Bool :=
  match c with
  | 0 => true
  | 1 => e.active.all e.guardAt
  | 2 => e.active.any e.guardAt
  | _ => !e.active.any e.guardAt

/-- BR (R92). -/
def execBr (m : BitVec 1) (c : BitVec 4) (o : BitVec 20) (s : State) : Host.Outcome State Fault Refusal :=
  issue m (.br m c o) (fun e => do
    checkOps e anyKind false [] false
    if brTaken e c.toNat then jumpTo e (e.target o) else pure Flow.next) s

/-- A link pair receives the address of the next word (R31, R94). -/
def linkWrites (e : Env) (d : BitVec 8) : List RegWrite := regWrites 0 d e.nextPc.toNat 2

/-- CALL (R31, R93). -/
def execCall (m : BitVec 1) (o : BitVec 20) (s : State) : Host.Outcome State Fault Refusal :=
  issue m (.call m o) (fun e => do
    checkOps e anyKind false [] false
    let f ← jumpTo e (e.target o)
    emit e (linkWrites e 0xFE) 0
    pure f) s

/-- RET (R31, R93). -/
def execRet (m : BitVec 1) (s : State) : Host.Outcome State Fault Refusal :=
  issue m (.ret m) (fun e => do
    checkOps e anyKind false [] false
    jumpTo e (e.regs.pair 0 0xFE)) s

/-- JMPR (R94): D = s0 writes nothing. -/
def execJmpr (m : BitVec 1) (d a : BitVec 8) (s : State) : Host.Outcome State Fault Refusal :=
  issue m (.jmpr m d a) (fun e => do
    checkOps e anyKind false [⟨d, .scal, 2⟩, ⟨a, .scal, 2⟩] false
    let f ← jumpTo e (e.regs.pair 0 a)
    emit e (if d = 0xC0 then [] else linkWrites e d) 0
    pure f) s

/-! ## LOOP (R95 to R99) -/

/-- The body of a LOOP would end beyond the last word of an active level that contains it (R98). -/
def loopOverruns (l : Loop) (pc last : Nat) : Bool := l.levels.any (fun v => v.holds pc && decide (v.last < last))

/-- A level is entered; at depth 0 the body is captured (R95, R99). -/
def enterLevel (e : Env) (start len : Nat) (count : Word) : M Unit := do
  let k := e.sp.loop.levels.length
  let body ← (if k = 0 then ask (captureBody e.th start len) else pure e.sp.loop.body)
  act (modSplit e.tid e.sid (fun sp => { sp with
    loop := { lc := sp.loop.lc.set k count, levels := sp.loop.levels ++ [{ start := start, len := len }], body := body } }))

/-- LOOP (R95): the level is entered after the word, or a count of zero skips the body. -/
def execLoop (m : BitVec 1) (a l : BitVec 8) (s : State) : Host.Outcome State Fault Refusal :=
  issue m (.loop m a l) (fun e => do
    checkOps e anyKind false [⟨a, .scal, 1⟩] false
    let count := e.regs.field 0 a
    let len := l.toNat + 1
    let pc := e.sp.pc.toNat
    if count ≠ 0 ∧ e.sp.loop.levels.length = 3 then trapWith e causeLoopDepth 0 e.active 0
    else if loopOverruns e.sp.loop pc (pc + 4 * len) then illegal e 8 e.active
    else if count = 0 then pure { Flow.next with skip := len }
    else do
      enterLevel e (pc + 4) len count
      pure Flow.next) s

/-! ## BRD, JOIN, EXIT (R193 to R197) -/

/-- A trap handler's split may not divide, or wait on an object of R186 (R378). -/
def Env.inHandler (e : Env) : Bool := decide (e.th.handler = some e.sid)

/-- The new split of a division at `pc`: the parent's tokens and loop state, a closed run, the reached
marks copied (R164, R205). -/
def Split.branch (sp : Split) (pc : DWord) (member : DWord) (tokens : List (Nat × Nat)) : Split :=
  { sp with pc := pc, member := member, exited := 0, tokens := tokens, loop := sp.loop.transfer pc.toNat,
            run := Run.closed, trapRegs := TrapRegs.start, state := .active, wait := none, handed := none,
            saved := none, parked := none, progress := Progress.none, spec := none }

/-- BRD (R193 to R195). -/
def execBrd (m : BitVec 1) (k : BitVec 4) (o : BitVec 20) (s : State) : Host.Outcome State Fault Refusal :=
  issue m (.brd m k o) (fun e => do
    checkOps e crewOnly false [] false
    let e ← closeFirst e
    let taken := e.lanes
    let divides := !taken.isEmpty && decide (taken.length < e.active.length)
    let g := e.th.nextGroup
    let tokens := e.sp.tokens ++ [(k.toNat, g)]
    if divides && e.inHandler then illegal e 8 e.active
    else if 8 ≤ e.sp.tokens.length then trapWith e causeSplitOvf 0 e.active 0
    else
      match divides, (if e.th.spare e.sp = 0 then none else e.th.freeSid) with
      | true, none => trapWith e causeSplitOvf 0 e.active 0
      | true, some sid => do
        let t := maskOf taken
        act (drainSplit e.tid e.sid)
        act (modThread e.tid (fun th =>
          let th := th.raiseLive e.sp.tokens 1
          let th := { th with nextGroup := g + 1, groups := Sparse.put th.groups g 2 }
          let th := { th with splits := Sparse.alter th.splits e.sid (fun sp =>
            { sp with member := sp.member &&& ~~~t, tokens := tokens }) }
          th.addSplit sid (e.sp.branch (e.target o) t tokens)))
        pure Flow.nextClose
      | false, _ => do
        act (modThread e.tid (fun th =>
          { th with nextGroup := g + 1, groups := Sparse.put th.groups g 1,
                    splits := Sparse.alter th.splits e.sid (fun sp => { sp with tokens := tokens }) }))
        pure { target := if taken.isEmpty then none else some (e.target o), skip := 0, close := true }) s

/-- JOIN (R166, R196): the split waits for its group, and merges at once when it is the last. -/
def execJoin (m : BitVec 1) (k : BitVec 4) (s : State) : Host.Outcome State Fault Refusal :=
  issue m (.join m k) (fun e => do
    checkOps e crewOnly false [] false
    let e ← closeFirst e
    match e.sp.tokens.getLast? with
    | some (k', g) =>
      if k' = k.toNat ∧ !e.inHandler then do
        act (drainSplit e.tid e.sid)
        act (fun s => modSplit e.tid e.sid (fun sp => { sp with
          state := .waiting, wait := some { obj := .join g, instr := .join m k, since := s.links } })
          { s with links := s.links + 1 })
        act (afterEnd e.tid e.th.regs.mmode 33 (some g))
        throw .gone
      else pure Flow.nextClose
    | none => pure Flow.nextClose) s

/-- EXIT (R168, R197). -/
def execExit (m : BitVec 1) (s : State) : Host.Outcome State Fault Refusal :=
  issue m (.exit m) (fun e => do
    if !e.lanes.isEmpty then checkOps e crewOnly true [] false
    let e ← closeFirst e
    if e.lanes.isEmpty then pure Flow.nextClose
    else do
      checkOps e crewOnly true [] false
      act (exitLanes e.tid e.sid e.lanes)
      if e.lanes.length = e.active.length then do
        act (endSplit e.tid e.sid)
        throw .gone
      else pure Flow.nextClose) s

end Sys2Proof.Machine
end

