-- ==== Sys2Proof/Machine/Terms.lean ====
section
/-! DEFINITION. Tagged terms, unification and backtracking (R130 to R155), view windows (R214 to R216), and the
division of a split by address (R154). -/

namespace Sys2Proof.Machine

/-! ## Term words (R130, R131) -/

/-- The tag of a term word. -/
def tagOf (x : Nat) : Nat := bits x 61 3

/-- The address a pointer payload names, sign-extended from bit 56. -/
def termAddr (x : Nat) : Nat := bits x 0 57 + (if bit x 56 then 127 * 2 ^ 57 else 0)

/-- An UNB word, and its birth mark. -/
def isUnb (x : Nat) : Bool := decide (tagOf x = 1)
def birthOf (x : Nat) : Nat := bits x 32 16

/-- A REF word. -/
def isRef (x : Nat) : Bool := decide (tagOf x = 0)

/-- An ill-formed word (R131). -/
def illFormed (x : Nat) : Bool :=
  match tagOf x with
  | 0 | 4 | 6 => decide (bits x 57 4 ≠ 0) || decide (bits x 0 3 ≠ 0)
  | 1 => decide (bits x 48 13 ≠ 0)
  | 7 => true
  | _ => false

/-- The REF word of a cell. -/
def refTo (a : Nat) : Nat := a % 2 ^ 57

/-! ## One lane's accesses (R139, R141) -/

/-- Why a lane stops. -/
inductive LaneStop where
  | trap (cause va : Nat)
  | fault (acc : Acc) (why va : Nat)
  | poison (va : Nat)
deriving DecidableEq, Repr

/-- A lane's computation: the state, and the old words of what it has bound, newest first. -/
abbrev L := EStateM LaneStop (State × List (Nat × Nat))

/-- A lane's trap. -/
def laneTrap {α : Type} (cause va : Nat) : L α := throw (.trap cause va)

/-- R26 and the alignment of an address. -/
def laneAddr (va n : Nat) : L Unit :=
  if !canonicalVa va then laneTrap causeAccess va
  else if va % n ≠ 0 then laneTrap causeAlign va
  else pure ()

/-- A plain 8-byte load and store of a lane. -/
def ld64 (e : Env) (va : Nat) : L Nat := do
  laneAddr va 8
  let (s, u) ← get
  match gotBytes (splitRead e 8 va s) with
  | (.ok bs, s) => do
    set (s, u)
    pure (leNat bs)
  | (.error c, s) => do
    set (s, u)
    if c < whyAccess then throw (.fault .read c va)
    else if c = whyAccess then laneTrap causeAccess va else throw (.poison va)
def st64 (e : Env) (va x : Nat) : L Unit := do
  laneAddr va 8
  let (s, u) ← get
  match splitWrite e va (leBytes 8 x) s with
  | (.ok _, s) => set (s, u)
  | (.error c, s) => do
    set (s, u)
    if c < whyAccess then throw (.fault .write c va) else laneTrap causeAccess va

/-- A store of a binding: the old word is kept for R141. -/
def bind64 (e : Env) (va old x : Nat) : L Unit := do
  st64 e va x
  modify (fun p => (p.1, (va, old) :: p.2))

/-- What the lanes of an instruction have come to. -/
structure LaneAcc (α : Type) where
  outs : List (Nat × α)
  bad  : List (Nat × LaneStop)
  undo : List (Nat × Nat)

/-- Run one lane. -/
def runLane {α : Type} (f : Nat → L α) (acc : LaneAcc α × State) (l : Nat) : LaneAcc α × State :=
  match f l (acc.2, acc.1.undo) with
  | .ok x (s, u) => ({ acc.1 with outs := acc.1.outs ++ [(l, x)], undo := u }, s)
  | .error x (s, u) => ({ acc.1 with bad := acc.1.bad ++ [(l, x)], undo := u }, s)

/-- The bound cells and entries come back, newest first (R141). -/
def undoAll (e : Env) (us : List (Nat × Nat)) (s : State) : State :=
  us.foldl (fun s u => (splitWrite e u.1 (leBytes 8 u.2) s).2) s

/-- The traps of some lanes, lowest lane first. -/
def laneTraps (bad : List (Nat × LaneStop)) : List (Nat × Nat × Nat) :=
  bad.filterMap (fun b => match b.2 with | .trap c va => some (b.1, c, va) | _ => none)
def laneFaults (bad : List (Nat × LaneStop)) : List (Nat × Acc × Nat × Nat) :=
  bad.filterMap (fun b => match b.2 with | .fault a w va => some (b.1, a, w, va) | _ => none)
def lanePoisons (bad : List (Nat × LaneStop)) : List (Nat × Nat) :=
  bad.filterMap (fun b => match b.2 with | .poison va => some (b.1, va) | _ => none)

/-- The stop of an instruction whose lanes have failed: traps, the cause of the lowest lane; then page faults;
then poison (R381). -/
def raiseBad (e : Env) (bad : List (Nat × LaneStop)) : M Unit :=
  match laneTraps bad with
  | (_, c, va) :: _ => trapWith e c 0 (((laneTraps bad).filter (fun t => t.2.1 == c)).map Prod.fst) va
  | [] =>
    match ((laneFaults bad).find? (fun f => f.2.2.1 == whyHandler)).toList ++ laneFaults bad with
    | (_, a, w, va) :: _ =>
      throw (.park { token := 0, va := BitVec.ofNat 64 va, mask := maskOf ((laneFaults bad).map Prod.fst), acc := a,
                     why := w, verdict := none })
    | [] =>
      match lanePoisons bad with
      | (_, va) :: _ => trapWith e causePoison 0 ((lanePoisons bad).map Prod.fst) va
      | [] => pure ()

/-- Every lane in ascending order; if one stops, the bindings of every lane are undone. -/
def eachLane {α : Type} (e : Env) (ls : List Nat) (f : Nat → L α) : M (List (Nat × α)) := do
  let s ← get
  let (acc, s) := ls.foldl (runLane f) (⟨[], [], []⟩, s)
  set s
  if acc.bad.isEmpty then pure acc.outs
  else do
    act (undoAll e acc.undo)
    raiseBad e acc.bad
    pure acc.outs

/-! ## View windows (R214, R215) -/

/-- A view window; none while VWSIZE is 0. -/
structure Win where
  base : Nat
  size : Nat

/-- The window of a lane. -/
def Regs.win (r : Regs) (l : Nat) : Win := ⟨(Sparse.get 0 r.vwbase l).toNat, (Sparse.get 0 r.vwsize l).toNat⟩

/-- The entries of the probe sequence of a cell. -/
def Win.probe (w : Win) (a : Nat) : List Nat :=
  let h := Nat.xor (a / 8) (a / 2 ^ 13) % w.size
  (List.range w.size).map (fun k => (w.base + 16 * ((h + k) % w.size)) % 2 ^ 64)

/-- Lookup along a probe sequence: the entry that holds the key. -/
def lookEntry (e : Env) (a : Nat) : List Nat → L (Option Nat)
  | [] => pure none
  | x :: xs => do
    let k ← ld64 e x
    if k = a then pure (some x) else if k = 0 then pure none else lookEntry e a xs

/-- The first entry whose KEY is 0 or 1. -/
def freeEntry (e : Env) : List Nat → L (Option (Nat × Nat))
  | [] => pure none
  | x :: xs => do
    let k ← ld64 e x
    if k ≤ 1 then pure (some (x, k)) else freeEntry e xs

/-- Lookup: the address of the value bound to a cell. -/
def Win.look (e : Env) (w : Win) (a : Nat) : L (Option Nat) := do
  let r ← lookEntry e a (w.probe a)
  pure (r.map (fun x => (x + 8) % 2 ^ 64))

/-- Insert: VAL, then KEY; VIEW_FULL when there is no room. -/
def Win.insert (e : Env) (w : Win) (a x : Nat) : L Unit := do
  match ← freeEntry e (w.probe a) with
  | none => laneTrap causeViewFull w.base
  | some (p, k) => do
    let old ← ld64 e ((p + 8) % 2 ^ 64)
    bind64 e ((p + 8) % 2 ^ 64) old x
    bind64 e p k a

/-- Remove: KEY ← 1 in the entry that holds the key. -/
def Win.remove (e : Env) (w : Win) (a : Nat) : L Unit := do
  match ← lookEntry e a (w.probe a) with
  | none => pure ()
  | some p => st64 e p 1

/-- Store zero into some words. -/
def zeroWords (e : Env) : List Nat → L Unit
  | [] => pure ()
  | x :: xs => do
    st64 e x 0
    zeroWords e xs

/-- Every entry: KEY 0, VAL 0. -/
def Win.clear (e : Env) (w : Win) : L Unit :=
  zeroWords e ((List.range (2 * w.size)).map (fun i => (w.base + 8 * i) % 2 ^ 64))

/-! ## Words in registers (R142) -/

/-- The shape of TAGOF, PAYLD and MKTERM: lane-wise on registers, R15; TERM_TAG in the lanes without a result. -/
def termWords (e : Env) (d a : BitVec 8) (n : Nat) (f : Nat → Option (Nat × Word)) : M Flow :=
  whenLanes e (isVec d) do
    checkOps e crewOnly (isVec d) [⟨d, .any, n⟩, srcFor d a 2] false
    let x (l : Nat) := (e.regs.pair l a).toNat
    let bad := (e.destLanes d).filter (fun l => (f (x l)).isNone)
    if !bad.isEmpty then trapWith e causeTermTag 0 (if isVec d then bad else e.active) 0
    else emitLanes e d n (fun l => (f (x l)).getD (0, 0))

/-- TAGOF. -/
def execTagof (m : BitVec 1) (d a : BitVec 8) (s : State) : Host.Outcome State Fault Refusal :=
  issue m (.tagof m d a) (fun e => termWords e d a 1 (fun x => if illFormed x then none else some (tagOf x, 0))) s

/-- The payload of a word. -/
def payload (x : Nat) : Nat :=
  match tagOf x with
  | 0 | 4 | 6 => termAddr x
  | 1 => bits x 0 48
  | 3 => wrapInt 64 (intVal true 61 (bits x 0 61))
  | _ => bits x 0 61

/-- PAYLD. -/
def execPayld (m : BitVec 1) (d a : BitVec 8) (s : State) : Host.Outcome State Fault Refusal :=
  issue m (.payld m d a) (fun e => termWords e d a 2 (fun x => if illFormed x then none else some (payload x, 0))) s

/-- A word of a tag from a payload: none is TERM_TAG; OF when bits are lost. -/
def makeTerm (t x : Nat) : Option (Nat × Word) :=
  match t with
  | 0 | 4 | 6 => if canonicalVa x && decide (x % 8 = 0) then some (t * 2 ^ 61 + bits x 0 57, 0) else none
  | 1 => some (2 ^ 61 + bits x 0 48, 0)
  | 3 => some (3 * 2 ^ 61 + bits x 0 61, flagIf (decide (wrapInt 64 (intVal true 61 (bits x 0 61)) ≠ x)) flagOF)
  | 7 => none
  | _ => some (t * 2 ^ 61 + bits x 0 61, flagIf (decide (bits x 61 3 ≠ 0)) flagOF)

/-- MKTERM: the tag 7 is TERM_TAG (R42). -/
def execMkterm (m : BitVec 1) (d a : BitVec 8) (t : BitVec 3) (s : State) : Host.Outcome State Fault Refusal :=
  issue m (.mkterm m d a t) (fun e => termWords e d a 2 (makeTerm t.toNat)) s

/-! ## Heap cells (R143, R144) and marks (R146) -/

/-- Lane registers as numbers. -/
def Regs.heap (r : Regs) (l : Nat) : Nat := (Sparse.get 0 r.heaptop l).toNat
def Regs.trail (r : Regs) (l : Nat) : Nat := (Sparse.get 0 r.trtop l).toNat
def Regs.cairn (r : Regs) (l : Nat) : Nat := (Sparse.get 0 r.cptop l).toNat
def Regs.birthNow (r : Regs) (l : Nat) : Nat := (Sparse.get 0 r.birth l).toNat % 2 ^ 16
def Regs.horizon (r : Regs) (l : Nat) : Nat := (Sparse.get 0 r.hzn l).toNat % 2 ^ 16

/-- The numbers of the special registers that the term instructions write. -/
def srHzn : Nat := 0x30
def srBirth : Nat := 0x31
def srCptop : Nat := 0x32
def srTrtop : Nat := 0x33
def srHeaptop : Nat := 0x34
def srVwbase : Nat := 0x35
def srVwsize : Nat := 0x36

/-- A write of a lane's special register. -/
def laneSr (l sr x : Nat) : RegWrite := .special l sr (BitVec.ofNat 64 x)

/-- A guarded lane-wise instruction that ends its run (R140): nothing but the close when no lane takes part. -/
def lastOfRun (e : Env) (ops : List Opnd) (k : M Unit) : M Flow :=
  if e.lanes.isEmpty then pure Flow.nextClose
  else do
    checkOps e crewOnly true ops false
    k
    pure Flow.nextClose

/-- NEWVAR. -/
def execNewvar (m : BitVec 1) (d : BitVec 8) (s : State) : Host.Outcome State Fault Refusal :=
  issue m (.newvar m d) (fun e => lastOfRun e [⟨d, .vect, 2⟩] do
    let r ← eachLane e e.lanes (fun l => do
      st64 e (e.regs.heap l) (2 ^ 61 + e.regs.birthNow l * 2 ^ 32)
      pure (e.regs.heap l))
    emit e (r.flatMap (fun x => regWrites x.1 d (refTo x.2) 2 ++ [laneSr x.1 srHeaptop (x.2 + 8)])) 0) s

/-- HNEW. DESIGN CHOICE (log 88): it uses HEAPTOP, whose alignment and form are checked. -/
def execHnew (m : BitVec 1) (d a : BitVec 8) (s : State) : Host.Outcome State Fault Refusal :=
  issue m (.hnew m d a) (fun e => lastOfRun e [⟨d, .vect, 2⟩, ⟨a, .vect, 1⟩] do
    let r ← eachLane e e.lanes (fun l => do
      laneAddr (e.regs.heap l) 8
      pure (e.regs.heap l))
    emit e (r.flatMap (fun x => regWrites x.1 d x.2 2 ++
      [laneSr x.1 srHeaptop (x.2 + 8 * (e.regs.field x.1 a).toNat)])) 0) s

/-- GETCP and GETTR. DESIGN CHOICE (log 88): they copy CPTOP and TRTOP without using them as addresses: no check. -/
def getMark (e : Env) (d : BitVec 8) (f : Nat → Nat) : M Flow :=
  whenLanes e true do
    checkOps e crewOnly true [⟨d, .vect, 2⟩] false
    emitLanes e d 2 (fun l => (f l, 0))
def execGetcp (m : BitVec 1) (d : BitVec 8) (s : State) : Host.Outcome State Fault Refusal :=
  issue m (.getcp m d) (fun e => getMark e d e.regs.cairn) s
def execGettr (m : BitVec 1) (d : BitVec 8) (s : State) : Host.Outcome State Fault Refusal :=
  issue m (.gettr m d) (fun e => getMark e d e.regs.trail) s

/-! ## DEREF (R145) -/

/-- A word that is read as a term. -/
def readTerm (x va : Nat) : L Unit := if illFormed x then laneTrap causeTermTag va else pure ()

/-- The budget: 0 acts as 2^32. -/
def Env.budget (e : Env) : Nat := if e.regs.ubudget = 0 then 2 ^ 32 else e.regs.ubudget.toNat

/-- A followed chain: the word it led to, the links, whether it stopped at the budget, and the content of the
cell when the word is a variable. -/
structure Chain where
  word    : Nat
  links   : Nat
  stopped : Bool
  cell    : Option Nat

/-- Follow references from a word; `fuel` is what is left of the budget. A chain whose links have reached the budget
stops there, whatever the word that it has come to (R145, R148). DESIGN CHOICE (log 86): FAULTVA of an ill-formed value
in a view window is the address of its VAL word. -/
def derefFrom (e : Env) (l : Nat) : Nat → Nat → Nat → L Chain
  | 0, x, n => pure ⟨x, n, true, none⟩
  | fuel + 1, x, n =>
    if !isRef x then pure ⟨x, n, false, none⟩
    else do
      let c ← ld64 e (termAddr x)
      readTerm c (termAddr x)
      let w := e.regs.win l
      if isUnb c then do
        let hit ← (if decide (w.size ≠ 0) && decide (birthOf c < e.regs.horizon l) then w.look e (termAddr x) else pure none)
        match hit with
        | none => pure ⟨x, n, false, some c⟩
        | some p => do
          let v ← ld64 e p
          readTerm v p
          derefFrom e l fuel v (n + 1)
      else derefFrom e l fuel c (n + 1)

/-- DEREF. -/
def execDeref (m : BitVec 1) (d a : BitVec 8) (s : State) : Host.Outcome State Fault Refusal :=
  issue m (.deref m d a) (fun e => whenLanes e true do
    checkOps e crewOnly true [⟨d, .vect, 2⟩, ⟨a, .vect, 2⟩] false
    let r ← eachLane e e.lanes (fun l => do
      readTerm (e.regs.pair l a).toNat 0
      derefFrom e l e.budget (e.regs.pair l a).toNat 0)
    emit e (r.flatMap (fun x => regWrites x.1 d x.2.word 2)) 0
    pure Flow.next) s

/-! ## BIND (R147) -/

/-- Bind the variable at `a`, whose cell holds `c`, to `y`, with the trail at `t`: the status and the new trail
top. -/
def bindCell (e : Env) (l a c y t : Nat) : L (Nat × Nat) := do
  let w := e.regs.win l
  let isShared := decide (w.size ≠ 0) && decide (birthOf c < e.regs.horizon l)
  if isShared then do
    match ← w.look e a with
    | some _ => pure (2, t)
    | none => do
      match ← freeEntry e (w.probe a) with
      | none => laneTrap causeViewFull w.base
      | some _ => do
        laneAddr t 16
        st64 e t (a + 1)
        st64 e (t + 8) 0
        w.insert e a y
        pure (1, (t + 16) % 2 ^ 64)
  else do
    laneAddr t 16
    st64 e t a
    st64 e (t + 8) c
    bind64 e a c y
    pure (0, (t + 16) % 2 ^ 64)

/-- One lane's BIND. -/
def bindLane (e : Env) (a b : BitVec 8) (l : Nat) : L (Nat × Nat) := do
  let x := (e.regs.pair l a).toNat
  let y := (e.regs.pair l b).toNat
  let t := e.regs.trail l
  readTerm x 0
  readTerm y 0
  if !isRef x || isUnb y then pure (2, t)
  else do
    let c ← ld64 e (termAddr x)
    readTerm c (termAddr x)
    if !isUnb c then pure (2, t)
    else if y = x then pure (3, t)
    else bindCell e l (termAddr x) c y t

/-- BIND: the statuses 2 and 3 write nothing but D. -/
def execBind (m : BitVec 1) (d a b : BitVec 8) (s : State) : Host.Outcome State Fault Refusal :=
  issue m (.bind m d a b) (fun e => lastOfRun e [⟨d, .vect, 1⟩, ⟨a, .vect, 2⟩, ⟨b, .vect, 2⟩] do
    let r ← eachLane e e.lanes (bindLane e a b)
    emit e (r.flatMap (fun x => regWrite x.1 d x.2.1 :: (if x.2.1 < 2 then [laneSr x.1 srTrtop x.2.2] else []))) 0) s

/-! ## UNIFY (R148 to R151) -/

/-- How the pair on top of the stack ends: a mismatch, an overflow of the unify area, or the remaining stack
with the trail top. -/
inductive PairEnd where
  | mismatch
  | overflow (trail : Nat)
  | more (stack : List (Nat × Nat)) (trail : Nat)

/-- Push pairs in order; beyond `depth` the area overflows. -/
def pushPairs (depth trail : Nat) : List (Nat × Nat) → List (Nat × Nat) → PairEnd
  | [], stack => .more stack trail
  | p :: ps, stack => if depth ≤ stack.length then .overflow trail else pushPairs depth trail ps (p :: stack)

/-- Bind one variable within UNIFY. -/
def unifyBind (e : Env) (l a c y t : Nat) (stack : List (Nat × Nat)) : L PairEnd := do
  let (_, t) ← bindCell e l a c y t
  pure (.more stack t)

/-- The FUN cell of a STR word. -/
def loadFun (e : Env) (x : Nat) : L Nat := do
  let f ← ld64 e (termAddr x)
  readTerm f (termAddr x)
  if tagOf f ≠ 5 then laneTrap causeTermTag (termAddr x) else pure f

/-- The table of R149 on two words after dereference. -/
def unifyPair (e : Env) (l depth t : Nat) (p q : Chain) (stack : List (Nat × Nat)) : L PairEnd :=
  let x := p.word
  let y := q.word
  match p.cell, q.cell with
  | some c, some k =>
    if x = y then pure (.more stack t)
    else if birthOf k < birthOf c ∨ (birthOf k = birthOf c ∧ termAddr y < termAddr x) then
      unifyBind e l (termAddr x) c y t stack
    else unifyBind e l (termAddr y) k x t stack
  | some c, none => if isUnb y then pure .mismatch else unifyBind e l (termAddr x) c y t stack
  | none, some k => if isUnb x then pure .mismatch else unifyBind e l (termAddr y) k x t stack
  | none, none =>
    if tagOf x ≠ tagOf y then pure .mismatch
    else if x = y then pure (.more stack t)
    else if tagOf x = 4 then do
      let f ← loadFun e x
      let g ← loadFun e y
      if f ≠ g then pure .mismatch
      else pure (pushPairs depth t (((List.range (f % 256)).reverse).map (fun i =>
        (refTo (termAddr x + 8 * (i + 1)), refTo (termAddr y + 8 * (i + 1))))) stack)
    else if tagOf x = 6 then
      pure (pushPairs depth t [(refTo (termAddr x + 8), refTo (termAddr y + 8)),
        (refTo (termAddr x), refTo (termAddr y))] stack)
    else pure .mismatch

/-- The result of one lane's UNIFY: status, trail top, and what the resume record keeps. -/
structure Unified where
  status : Nat
  trail  : Nat
  saved  : Option (List (Nat × Nat))

/-- The pairs, one after another, while the budget lasts; `fuel` bounds the visits. -/
def unifyLoop (e : Env) (l depth : Nat) : Nat → Nat → Nat → List (Nat × Nat) → L Unified
  | _, _, t, [] => pure ⟨1, t, none⟩
  | 0, _, t, stack => pure ⟨2, t, some stack⟩
  | fuel + 1, visits, t, (x, y) :: stack => do
    if e.budget ≤ visits then pure ⟨2, t, some ((x, y) :: stack)⟩
    else do
      readTerm x 0
      readTerm y 0
      let p ← derefFrom e l e.budget x 0
      let q ← derefFrom e l e.budget y 0
      if p.stopped || q.stopped then pure ⟨2, t, some ((p.word, q.word) :: stack)⟩
      else do
        match ← unifyPair e l depth t p q stack with
        | .mismatch => pure ⟨0, t, none⟩
        | .overflow t => pure ⟨3, t, none⟩
        | .more stack t => unifyLoop e l depth fuel (visits + 1 + p.links + q.links) t stack

/-- The pairs from which a lane's UNIFY starts: the saved ones when its operands are those of the record. -/
def unifyStart (r : Option Resume) (x y : DWord) : List (Nat × Nat) :=
  match r with
  | some k => if k.a = x ∧ k.b = y then k.stack.map (fun p => (p.1.toNat, p.2.toNat)) else [(x.toNat, y.toNat)]
  | none => [(x.toNat, y.toNat)]

/-- One lane's UNIFY. -/
def unifyLane (e : Env) (a b : BitVec 8) (depth l : Nat) : L Unified :=
  unifyLoop e l depth (e.budget + 1) 0 (e.regs.trail l)
    (unifyStart (Sparse.find? e.th.resumes l) (e.regs.pair l a) (e.regs.pair l b))

/-- The resume record of a lane after its UNIFY. -/
def keepResume (x y : DWord) (u : Unified) (l : Nat) (m : Sparse Resume) : Sparse Resume :=
  match u.saved with
  | some st => Sparse.put m l { a := x, b := y, stack := st.map (fun p => (BitVec.ofNat 64 p.1, BitVec.ofNat 64 p.2)) }
  | none => Sparse.erase m l

/-- UDEPTH of a launch (R137). -/
def udepthOf (s : State) (launch : Nat) : Nat :=
  match Sparse.find? s.launches launch with | some l => l.record.udepth | none => 0

/-- The scratch addresses, 16 bytes apart, of a lane's unify area (R137, R230): the areas follow `.spad` in the order
core, crew place, lane. -/
def areaPlaces (e : Env) (s : State) (depth l : Nat) : List Nat :=
  let k := match Sparse.find? s.launches e.th.launch with | some x => perCore x.record | none => 1
  let n := 32 + 16 * depth
  let lane := (coreInCluster e.th.core * k + e.th.slot) * e.th.width + l
  (List.range (2 + depth)).map (fun i => (spadOf s e.th.launch + 15) / 16 * 16 + lane * n + 16 * i)

/-- The banks of the unify areas are active, or the split waits for one. Which of its words a UNIFY touches is not said:
it is taken to touch every bank of its area (log 87). -/
def needAreas (e : Env) (i : Instr) : List Nat → M Unit
  | [] => pure ()
  | a :: as => do
    let s ← get
    needBank (clusterOf e.th.core) (scratchPlace s e.th.launch (scratchKey s e.th) a).1 i
    needAreas e i as

/-- UNIFY. -/
def execUnify (m : BitVec 1) (d a b : BitVec 8) (s : State) : Host.Outcome State Fault Refusal :=
  issue m (.unify m d a b) (fun e => lastOfRun e [⟨d, .vect, 1⟩, ⟨a, .vect, 2⟩, ⟨b, .vect, 2⟩] do
    let s ← get
    let depth := udepthOf s e.th.launch
    if depth = 0 then illegal e 8 e.lanes
    else do
      needAreas e (.unify m d a b) (e.lanes.flatMap (areaPlaces e s depth))
      let r ← eachLane e e.lanes (unifyLane e a b depth)
      act (modThread e.tid (fun t => { t with resumes := r.foldl (fun m x =>
        keepResume (e.regs.pair x.1 a) (e.regs.pair x.1 b) x.2 x.1 m) t.resumes }))
      emit e (r.flatMap (fun x => regWrite x.1 d x.2.status ::
        (if x.2.trail = e.regs.trail x.1 then [] else [laneSr x.1 srTrtop x.2.trail]))) 0) s

/-! ## CHOICE and CUT (R152, R155) -/

/-- The words of a choice frame. -/
def frameWords (e : Env) (l : Nat) (target : DWord) : List Nat :=
  [target.toNat, e.regs.heap l, e.regs.trail l, e.regs.birthNow l]
    ++ (List.range 4).map (fun k => (e.regs.vec l (2 * k)).toNat + (e.regs.vec l (2 * k + 1)).toNat * 2 ^ 32)

/-- Store words upward from an address. -/
def storeWords (e : Env) : Nat → List Nat → L Unit
  | _, [] => pure ()
  | va, x :: xs => do
    st64 e va x
    storeWords e ((va + 8) % 2 ^ 64) xs

/-- CHOICE. DESIGN CHOICE (log 88): it copies HEAPTOP and TRTOP without using them as addresses: only CPTOP is
checked. -/
def execChoice (m : BitVec 1) (o : BitVec 20) (s : State) : Host.Outcome State Fault Refusal :=
  issue m (.choice m o) (fun e => lastOfRun e [] do
    let r ← eachLane e e.lanes (fun l => do
      laneAddr (e.regs.cairn l) 64
      storeWords e (e.regs.cairn l) (frameWords e l (e.target o)))
    emit e (r.flatMap (fun x => [laneSr x.1 srCptop (e.regs.cairn x.1 + 64),
      laneSr x.1 srBirth (Nat.min (e.regs.birthNow x.1 + 1) 65535)])) 0) s

/-- CUT. DESIGN CHOICE (log 88): it compares CPTOP without using it as an address: only the mark is checked. -/
def execCut (m : BitVec 1) (a : BitVec 8) (s : State) : Host.Outcome State Fault Refusal :=
  issue m (.cut m a) (fun e => lastOfRun e [⟨a, .vect, 2⟩] do
    let r ← eachLane e e.lanes (fun l => do
      let x := (e.regs.pair l a).toNat
      if x % 64 ≠ 0 then laneTrap causeAlign x else pure x)
    emit e (r.filterMap (fun x => if x.2 < e.regs.cairn x.1 then some (laneSr x.1 srCptop x.2) else none)) 0) s

/-! ## Division by address (R154) -/

/-- A part of a divided split: where it continues, with what loop state, and its lanes. -/
structure Branch where
  pc   : DWord
  loop : Loop
  mask : DWord

/-- Insert a lane into the part at its address, the parts in ascending order of address. DESIGN CHOICE (log 84): lanes
that fall through to an address and lanes that transfer to it form one split with the loop state of the former. -/
def addBranch (b : Branch) : List Branch → List Branch
  | [] => [b]
  | x :: xs =>
    if b.pc = x.pc then { x with mask := x.mask ||| b.mask } :: xs
    else if b.pc.toNat < x.pc.toNat then b :: x :: xs else x :: addBranch b xs

/-- The part of the lanes that go on after the word. -/
def Split.fallPart (sp : Split) (ls : List Nat) : List Branch :=
  if ls.isEmpty then []
  else match sp.loop.fall sp.pc.toNat with
    | (loop, next) => [{ pc := BitVec.ofNat 64 next, loop := loop, mask := maskOf ls }]

/-- The parts of a split whose lanes `rest` fall through and whose other lanes go to addresses. -/
def branches (sp : Split) (rest : List Nat) (gone : List (Nat × DWord)) : List Branch :=
  gone.foldl (fun bs g => addBranch { pc := g.2, loop := sp.loop.transfer g.2.toNat, mask := maskOf [g.1] } bs)
    (sp.fallPart rest)

/-- The parts beyond the first become new splits in turn; counts rise under R195. -/
def addParts (parent : Split) : List Branch → Thread → Thread
  | [], t => t
  | b :: bs, t =>
    match t.freeSid with
    | none => t
    | some sid =>
      let t := Thread.raiseLive t parent.tokens 1
      addParts parent bs (t.addSplit sid { (parent.branch b.pc b.mask parent.tokens) with loop := b.loop })

/-- The split divides: the part at the lowest address stays in its record with the exited lanes. -/
def divideSplit (tid sid : Nat) (bs : List Branch) (s : State) : State :=
  match bs, getSplit s tid sid with
  | b :: rest, some sp =>
    modThread tid (fun t => addParts sp rest { t with splits := Sparse.put t.splits sid { sp with
      pc := b.pc, loop := b.loop, member := b.mask ||| (sp.member &&& sp.exited), wait := none, handed := none,
      progress := Progress.none } }) (drainSplit tid sid s)
  | _, _ => s

/-! ## FAIL (R153) -/

/-- Where a lane's FAIL goes: none when its stack is empty. A non-canonical ALT is ACCESS with FAULTVA = ALT; a misaligned
ALT is a misaligned transfer, with FAULTVA 0 (R26, R153, R377). -/
def failTarget (e : Env) (l : Nat) : L (Option Nat) := do
  laneAddr (e.regs.cairn l) 64
  let alt ← ld64 e ((e.regs.cairn l + 2 ^ 64 - 64) % 2 ^ 64)
  if alt = 0 then pure none
  else if !canonicalVa alt then laneTrap causeAccess alt
  else if alt % 4 ≠ 0 then laneTrap causeAlign 0
  else pure (some alt)

/-- Undo trail entries from the top down to the mark that frame `f` holds at each test, newest first; `fuel` bounds
their number. DESIGN CHOICE (log 86): FAULTVA of a reserved KIND is the trail entry's address. -/
def undoTrail (e : Env) (l f : Nat) : Nat → Nat → L Unit
  | 0, _ => pure ()
  | fuel + 1, t => do
    let mark ← ld64 e ((f + 16) % 2 ^ 64)
    if t ≤ mark then pure ()
    else do
      let x ← ld64 e (t - 16)
      let cell := x / 8 * 8
      match x % 8 with
      | 0 => do
        let old ← ld64 e (t - 8)
        st64 e cell old
      | 1 => (e.regs.win l).remove e cell
      | _ => laneTrap causeTermTag (t - 16)
      undoTrail e l f fuel (t - 16)

/-- Load words upward from an address. -/
def loadWords (e : Env) : Nat → Nat → L (List Nat)
  | _, 0 => pure []
  | va, n + 1 => do
    let x ← ld64 e va
    let xs ← loadWords e ((va + 8) % 2 ^ 64) n
    pure (x :: xs)

/-- One lane's backtracking: the frame that it takes, or none when it exits. -/
def failLane (e : Env) (alts : List (Nat × Option Nat)) (l : Nat) : L (Option (Nat × List Nat)) :=
  match (alts.find? (fun x => x.1 == l)).bind Prod.snd with
  | none => pure none
  | some _ => do
    let f := (e.regs.cairn l + 2 ^ 64 - 64) % 2 ^ 64
    laneAddr (e.regs.trail l) 16
    undoTrail e l f (e.regs.trail l / 16 + 1) (e.regs.trail l)
    let ws ← loadWords e f 8
    pure (some (f, ws))

/-- The registers v0 to v7 of a frame's words. -/
def frameRegs (l : Nat) (ws : List Nat) : List RegWrite :=
  (List.range 8).map (fun i => .vec l i (BitVec.ofNat 32 ((ws.getD (4 + i / 2) 0) / 2 ^ (32 * (i % 2)))))

/-- The register results of a lane that has backtracked. -/
def failWrites (x : Nat × Option (Nat × List Nat)) : List RegWrite :=
  match x.2 with
  | none => []
  | some (f, ws) =>
    [laneSr x.1 srHeaptop (ws.getD 1 0), laneSr x.1 srTrtop (ws.getD 2 0), laneSr x.1 srCptop f,
     laneSr x.1 srBirth (ws.getD 3 0 % 2 ^ 16)] ++ frameRegs x.1 ws

/-- Discard the resume records of some lanes. -/
def dropResumes (tid : Nat) (ls : List Nat) (s : State) : State :=
  modThread tid (fun t => { t with resumes := ls.foldl (fun m l => Sparse.erase m l) t.resumes }) s

/-- A division into parts needs free records, and no handler divides (R154, R162, R378). -/
def checkDivide (e : Env) (ls : List Nat) (parts : List Branch) : M Unit :=
  if 2 ≤ parts.length && e.inHandler then illegal e 8 ls
  else if e.th.spare e.sp + 1 < parts.length then trapWith e causeSplitOvf 0 ls 0
  else pure ()

/-- FAIL. -/
def execFail (m : BitVec 1) (s : State) : Host.Outcome State Fault Refusal :=
  issue m (.fail m) (fun e =>
    if e.lanes.isEmpty then pure Flow.nextClose
    else do
      checkOps e crewOnly true [] false
      let alts ← eachLane e e.lanes (failTarget e)
      let rest := e.active.filter (fun l => !e.lanes.contains l)
      let parts := branches e.sp rest (alts.filterMap (fun x => x.2.map (fun a => (x.1, BitVec.ofNat 64 a))))
      checkDivide e e.lanes parts
      let r ← eachLane e e.lanes (failLane e alts)
      emit e (r.flatMap failWrites) 0
      act (closeRun e.tid e.sid)
      act (dropResumes e.tid e.lanes)
      act (exitLanes e.tid e.sid ((alts.filter (fun x => x.2.isNone)).map Prod.fst))
      if parts.isEmpty then act (endSplit e.tid e.sid) else act (divideSplit e.tid e.sid parts)
      throw .gone) s

/-! ## VWIN (R216) -/

/-- An instruction that closes its run first (R192): the checks of its operands, the close, and its lanes. DESIGN
CHOICE (log 89): steps 4 to 7 of R45 are judged with the guard at run begin, before the close, and with the guard after
it; a trap at the first leaves the run open. -/
def closing (e : Env) (who : List Kind) (guarded : Bool) (ops : List Opnd) (k : Env → M Flow) : M Flow := do
  if !(guarded && e.lanes.isEmpty) then checkOps e who guarded ops false
  let e ← closeFirst e
  if guarded && e.lanes.isEmpty then pure Flow.nextClose
  else do
    checkOps e who guarded ops false
    k e

/-- The size that VWIN names: none is ILLEGAL. -/
def windowSize (n : Nat) : Option Nat := if n = 0 then some 0 else if 4 ≤ n ∧ n ≤ 12 then some (2 ^ n) else none

/-- VWIN. -/
def execVwin (m : BitVec 1) (a b : BitVec 8) (s : State) : Host.Outcome State Fault Refusal :=
  issue m (.vwin m a b) (fun e => closing e crewOnly true [⟨a, .any, 2⟩, ⟨b, .any, 1⟩] (fun e => do
    let n (l : Nat) := (e.regs.field l b).toNat
    let base (l : Nat) := (e.regs.pair l a).toNat
    checkAddrs e ((e.lanes.filter (fun l => n l ≠ 0 && (windowSize (n l)).isSome)).map (fun l => ⟨[l], base l⟩)) 64
    let bad := e.lanes.filter (fun l => (windowSize (n l)).isNone)
    if !bad.isEmpty then illegal e 8 bad
    else do
      let r ← eachLane e e.lanes (fun l => do
        let w : Win := ⟨if n l = 0 then 0 else base l, (windowSize (n l)).getD 0⟩
        w.clear e
        pure w)
      emit e (r.flatMap (fun x => [laneSr x.1 srVwbase x.2.base, laneSr x.1 srVwsize x.2.size])) 0
      pure Flow.nextClose)) s

end Sys2Proof.Machine
end

