-- ==== Sys2Proof/Machine/Crews.lean ====
section
/-! DEFINITION. Shuffles, votes and reductions (R198 to R204), barriers (R205 to R207), the decision queue (R208,
R209), task queues (R182 to R184, R210 to R212), gangs (R213) and adoption (R217 to R219). -/

namespace Sys2Proof.Machine

/-! ## Shuffles (R198) -/

/-- The shape of the shuffles: lane l receives A of the lane that `j` names, or its own. -/
def shuffle (e : Env) (d a : BitVec 8) (ops : List Opnd) (j : Nat → Option Nat) : M Flow :=
  whenLanes e true do
    checkOps e crewOnly true ([⟨d, .vect, 1⟩, ⟨a, .vect, 1⟩] ++ ops) false
    emitLanes e d 1 (fun l => ((e.regs.vec (match j l with
      | some k => if e.active.contains k then k else l
      | none => l) a.toNat).toNat, 0))

/-- SHFL, SHFLX, SHFLUP, SHFLDN. -/
def execShfl (m : BitVec 1) (d a b : BitVec 8) (s : State) : Host.Outcome State Fault Refusal :=
  issue m (.shfl m d a b) (fun e => shuffle e d a [⟨b, .any, 1⟩] (fun l => some (e.regs.field l b).toNat)) s
def execShflx (m : BitVec 1) (d a b : BitVec 8) (s : State) : Host.Outcome State Fault Refusal :=
  issue m (.shflx m d a b) (fun e => shuffle e d a [⟨b, .any, 1⟩]
    (fun l => some (Nat.xor l ((e.regs.field l b).toNat % 64)))) s
def execShflup (m : BitVec 1) (d a : BitVec 8) (n : BitVec 6) (s : State) : Host.Outcome State Fault Refusal :=
  issue m (.shflup m d a n) (fun e => shuffle e d a [] (fun l => if n.toNat ≤ l then some (l - n.toNat) else none)) s
def execShfldn (m : BitVec 1) (d a : BitVec 8) (n : BitVec 6) (s : State) : Host.Outcome State Fault Refusal :=
  issue m (.shfldn m d a n) (fun e => shuffle e d a [] (fun l => some (l + n.toNat))) s

/-! ## Votes (R199) -/

/-- A predicate in every active lane. -/
def vote (e : Env) (p : BitVec 3) (x : Bool) : M Flow := do
  checkOps e crewOnly false [] false
  emit e (e.active.map (fun l => .pred l p.toNat x)) 0
  pure Flow.next

/-- VOTEALL and VOTEANY. -/
def execVoteall (m : BitVec 1) (p : BitVec 3) (s : State) : Host.Outcome State Fault Refusal :=
  issue m (.voteall m p) (fun e => vote e p (e.active.all e.guardAt)) s
def execVoteany (m : BitVec 1) (p : BitVec 3) (s : State) : Host.Outcome State Fault Refusal :=
  issue m (.voteany m p) (fun e => vote e p (e.active.any e.guardAt)) s

/-- The lanes an unguarded result reaches: every active lane, or once for a scalar D. -/
def Env.everyLane (e : Env) (d : BitVec 8) : List Nat := if isVec d then e.active else [0]

/-- One value of n registers in every active lane, or once. -/
def broadcast (e : Env) (d : BitVec 8) (n x : Nat) : M Unit :=
  emit e ((e.everyLane d).flatMap (fun l => regWrites l d x n)) 0

/-- BALLOT. -/
def execBallot (m : BitVec 1) (d : BitVec 8) (s : State) : Host.Outcome State Fault Refusal :=
  issue m (.ballot m d) (fun e => do
    checkOps e crewOnly false [⟨d, .any, 2⟩] false
    broadcast e d 2 (maskOf e.lanes).toNat
    pure Flow.next) s

/-- The number of ones in the low n bits. -/
def popLow (x : Nat) : Nat → Nat
  | 0 => 0
  | n + 1 => popLow x n + ofBool (bit x n)

/-- MBCNT. -/
def execMbcnt (m : BitVec 1) (d a : BitVec 8) (s : State) : Host.Outcome State Fault Refusal :=
  issue m (.mbcnt m d a) (fun e => whenLanes e true do
    checkOps e crewOnly true [⟨d, .vect, 1⟩, ⟨a, .any, 2⟩] false
    emitLanes e d 1 (fun l => (popLow (e.regs.pair l a).toNat l, 0))) s

/-- FIRSTLANE: nothing is written when no active lane's guard is true. -/
def execFirstlane (m : BitVec 1) (d a : BitVec 8) (s : State) : Host.Outcome State Fault Refusal :=
  issue m (.firstlane m d a) (fun e => do
    checkOps e crewOnly false [⟨d, .any, 1⟩, ⟨a, .vect, 1⟩] false
    match e.lanes with
    | [] => pure ()
    | l :: _ => broadcast e d 1 (e.regs.field l a).toNat
    pure Flow.next) s

/-! ## Reductions (R200 to R204) -/

/-- The types of RSUM and SCANS. -/
def reduceType (t : ElemType) : Bool :=
  decide (t = ⟨1, 32, .sint⟩) || decide (t = ⟨1, 32, .flt 2⟩) || decide (t = ⟨2, 16, .flt 3⟩) || decide (t = ⟨2, 16, .flt 4⟩)

/-- The element of a lane: +0 when it is inactive or its guard is false (R124). -/
def reduceElem (e : Env) (t : ElemType) (a : BitVec 8) (h k : Nat) : Nat :=
  if e.lanes.contains k then elemAt t.b (e.regs.field k a).toNat h else 0

/-- The products x × 1 of some lanes. -/
def timesOne (f : FloatFmt) (xs : List Nat) : List (EVal × EVal) :=
  xs.map (fun x => ((EVal.ofFloat f x).1, EVal.num ⟨1, 0⟩))

/-- The flags of reading some elements. -/
def readFlags (f : FloatFmt) (xs : List Nat) : Word := xs.foldl (fun fl x => fl ||| (EVal.ofFloat f x).2) 0

/-- The inclusive sums of one block of elements on an accumulator, with flags. -/
def scanBlock (f : FloatFmt) (ovf : Bool) (acc : Nat) (xs : List Nat) : List (Nat × Word) :=
  (List.range xs.length).map (fun i =>
    let ys := xs.take (i + 1)
    let (p, f1) := EVal.dot (timesOne f ys)
    let (r, f2) := accumulate ovf acc p
    (r, readFlags f ys ||| f1 ||| f2))

/-- The inclusive sums of R202 over blocks of 16; the last of each block is the accumulator of R121. -/
def scanFloat (f : FloatFmt) (ovf : Bool) : Nat → List (List Nat) → List (Nat × Word)
  | _, [] => []
  | acc, b :: bs =>
    let rs := scanBlock f ovf acc b
    rs ++ scanFloat f ovf ((rs.getLast?.map Prod.fst).getD acc) bs

/-- The blocks of 16 lanes of a crew. -/
def laneBlocks (e : Env) (t : ElemType) (a : BitVec 8) (h : Nat) : List (List Nat) :=
  (List.range (e.width / 16)).map (fun k => (List.range 16).map (fun i => reduceElem e t a h (16 * k + i)))

/-- An F32 result in the element format (R203). -/
def toElem (e : Env) (c : Nat) (x : Nat) : Nat × Word :=
  if c = 2 then (x, 0)
  else floatToFloat (floatFmt c) { rnd := 1, ftz := true, ovf := some e.ovf } (decodeFloat (floatFmt 2) false x)

/-- The reduction of R201: only the block sums count, with their flags. -/
def sumFloat (f : FloatFmt) (ovf : Bool) : Nat → List (List Nat) → Nat × Word
  | acc, [] => (acc, 0)
  | acc, b :: bs =>
    let (p, f1) := EVal.dot (timesOne f b)
    let (r, f2) := accumulate ovf acc p
    let (z, f3) := sumFloat f ovf r bs
    (z, readFlags f b ||| f1 ||| f2 ||| f3)

/-- Half h of RSUM's result. -/
def rsumHalf (e : Env) (t : ElemType) (a : BitVec 8) (h : Nat) : Nat × Word :=
  match t.kind with
  | .flt c =>
    let (x, f1) := sumFloat (floatFmt c) e.ovf 0 (laneBlocks e t a h)
    let (y, f2) := toElem e c x
    (y, f1 ||| f2)
  | _ => ((laneBlocks e t a h).foldl (fun acc b => b.foldl (· + ·) acc) 0 % 2 ^ 32, 0)

/-- The sums of the lanes up to each lane, modulo 2^32. -/
def scanInt : Nat → List Nat → List (Nat × Word)
  | _, [] => []
  | acc, x :: xs => ((acc + x) % 2 ^ 32, 0) :: scanInt ((acc + x) % 2 ^ 32) xs

/-- Half h of SCANS' results, one per lane, inclusive. -/
def scanHalf (e : Env) (t : ElemType) (a : BitVec 8) (h : Nat) : List (Nat × Word) :=
  match t.kind with
  | .flt c => (scanFloat (floatFmt c) e.ovf 0 (laneBlocks e t a h)).map (fun r =>
      ((toElem e c r.1).1, r.2 ||| (toElem e c r.1).2))
  | _ => scanInt 0 (laneBlocks e t a h).flatten

/-- The type of a reduction. -/
def Env.reduceTy (e : Env) : ElemType := (elemType e.type).getD ⟨1, 32, .sint⟩

/-- RSUM: FN 0 in every active lane, FN 1 in lane 0 if it is active; the flags in either case. -/
def execRsum (m : BitVec 1) (d a : BitVec 8) (f : BitVec 1) (s : State) : Host.Outcome State Fault Refusal :=
  issue m (.rsum m d a f) (fun e => do
    checkOps e crewOnly false [⟨d, .vect, 1⟩, ⟨a, .vect, 1⟩] (e.typeBad reduceType)
    let t := e.reduceTy
    let (x, fl) := joinElems t.b (rsumHalf e t a) t.n
    emit e ((e.active.filter (fun l => f = 0#1 || l = 0)).map (fun l => regWrite l d x)) fl
    pure Flow.next) s

/-- SCANS: inclusive, or exclusive with +0 in lane 0. -/
def execScans (m : BitVec 1) (d a : BitVec 8) (f : BitVec 1) (s : State) : Host.Outcome State Fault Refusal :=
  issue m (.scans m d a f) (fun e => do
    checkOps e crewOnly false [⟨d, .vect, 1⟩, ⟨a, .vect, 1⟩] (e.typeBad reduceType)
    let t := e.reduceTy
    let rs := (List.range t.n).map (scanHalf e t a)
    let at_ (h i : Nat) : Nat := if f = 0#1 then ((rs.getD h []).getD i (0, 0)).1
      else if i = 0 then 0 else ((rs.getD h []).getD (i - 1) (0, 0)).1
    emit e (e.active.map (fun l => regWrite l d (joinElems t.b (fun h => (at_ h l, 0)) t.n).1))
      (rs.flatten.foldl (fun fl r => fl ||| r.2) 0)
    pure Flow.next) s

/-! ## Barriers (R205 to R207) -/

/-- The shape of the barrier instructions: the slot's circle, then what they do. -/
def barrier (e : Env) (k : BitVec 2) (f : Env → Nat → Nat → M Flow) : M Flow :=
  closing e crewOnly false [] (fun e =>
    let c := circOf e.th.circ k.toNat
    if c = 0xFF then illegal e 8 e.active else f e k.toNat c)

/-- The barrier that the crew's next arrival on a slot counts toward. -/
def nextBarrier (e : Env) (slot c : Nat) (s : State) : Nat :=
  match Sparse.find? s.circles (circleKey e.th.launch c) with
  | some k => Nat.max k.generation (Sparse.get 0 e.th.arrivals slot)
  | none => 0

/-- Release, mark, and the arrival when it is complete. -/
def reachSlot (e : Env) (slot : Nat) (s : State) : State :=
  checkArrival e.tid slot (modSplit e.tid e.sid (fun sp => { sp with
    reached := if sp.reached.contains slot then sp.reached else slot :: sp.reached }) (release e.th.core e.scope s))

/-- The acquire after a barrier. -/
def afterBarrier (e : Env) : M Flow := do
  act (acquire e.th.core e.cid e.scope)
  pure Flow.nextClose

/-- BAR. -/
def execBar (m : BitVec 1) (k : BitVec 2) (s : State) : Host.Outcome State Fault Refusal :=
  issue m (.bar m k) (fun e => barrier e k (fun e slot c =>
    if e.sp.handed.isSome then afterBarrier e
    else if e.inHandler then illegal e 8 e.active
    else if e.sp.reached.contains slot then waitOn e (.mark slot) (.bar m k)
    else do
      let s ← get
      act (reachSlot e slot)
      waitOn e (.barrier e.th.launch c (nextBarrier e slot c s)) (.bar m k))) s

/-- The crew arrives again on a slot before the barrier of its last arrival completes (R172). -/
def arrivesAgain (tid slot : Nat) (s : State) : Bool :=
  match Sparse.find? s.threads tid with
  | some t => t.allReached slot && t.pendingArrival s slot
  | none => false

/-- BARA: the split goes on (R206), unless the crew now arrives again before the barrier of its last arrival completes:
then it waits for that one (R172). -/
def execBara (m : BitVec 1) (k : BitVec 2) (s : State) : Host.Outcome State Fault Refusal :=
  issue m (.bara m k) (fun e => barrier e k (fun e slot c =>
    if e.sp.handed.isSome then pure Flow.nextClose
    else if e.sp.reached.contains slot then waitOn e (.mark slot) (.bara m k)
    else do
      let s ← get
      let again := arrivesAgain e.tid slot (reachSlot e slot s)
      if again && e.inHandler then illegal e 8 e.active
      else do
        act (reachSlot e slot)
        if again then waitOn e (.barrier e.th.launch c (Sparse.get 0 e.th.arrivals slot - 1)) (.bara m k)
        else pure Flow.nextClose)) s

/-- BARW. -/
def execBarw (m : BitVec 1) (k : BitVec 2) (s : State) : Host.Outcome State Fault Refusal :=
  issue m (.barw m k) (fun e => barrier e k (fun e slot c =>
    if e.sp.handed.isSome then afterBarrier e
    else do
      let s ← get
      if e.th.pendingArrival s slot then
        waitOn e (.barrier e.th.launch c (Sparse.get 0 e.th.arrivals slot - 1)) (.barw m k)
      else pure Flow.nextClose)) s

/-! ## The decision queue (R208, R209) -/

/-- The end marker (R181). -/
def endMarker : DWord := 0xFFFFFFFFFFFFFFFF

/-- The entry at a crew's cursor. -/
def Share.entryAt (q : Share) (cursor : Nat) : Option DWord := q.entries[cursor - q.base]?

/-- A split that pops or peeks gets the entry at its crew's cursor; a pop advances the cursor. -/
def giveDq (launch share : Nat) (w : Nat × Nat × Wait) (s : State) : State :=
  match Sparse.find? s.shares (shareKey launch share), Sparse.find? s.threads w.1 with
  | some q, some t =>
    (match q.entryAt t.cursor with
     | some x =>
       let pops := match w.2.2.instr with | .dqpop .. => true | _ => false
       hand w.1 w.2.1 (.word x) (modThread w.1 (fun t => { t with cursor := if pops then t.cursor + 1 else t.cursor }) s)
     | none => s)
  | _, _ => s

/-- Append an entry; pops at the tail take it (R181). -/
def pushDq (launch share : Nat) (x : DWord) (s : State) : State :=
  let s := { s with shares := Sparse.alter s.shares (shareKey launch share) (fun q => { q with entries := q.entries ++ [x] }) }
  let ws := byAge (waiters s (fun o => match o with | .dqPop a b => a == launch && b == share | _ => false))
  trimShare launch share (ws.foldl (fun s w => giveDq launch share w s) s)

/-- Entries held by a share's queue. -/
def dqLength (s : State) (launch share : Nat) : Nat :=
  match Sparse.find? s.shares (shareKey launch share) with | some q => q.entries.length | none => 0

/-- The share number of a thread. -/
def Thread.share (t : Thread) (s : State) : Nat :=
  match Sparse.find? s.launches t.launch with | some l => shareOf l t.crewid | none => 0

/-- DQPUSH. -/
def execDqpush (m : BitVec 1) (a : BitVec 8) (s : State) : Host.Outcome State Fault Refusal :=
  issue m (.dqpush m a) (fun e => do
    checkOps e [.scout] false [⟨a, .scal, 2⟩] false
    if e.sp.handed.isSome then pure Flow.next
    else do
      let s ← get
      let share := e.th.share s
      if dqLength s e.th.launch share < Config.decisionQueue then do
        act (pushDq e.th.launch share (e.regs.pair 0 a))
        pure Flow.next
      else throw (.wait (.dqPush e.th.launch share (e.regs.pair 0 a)) (.dqpush m a))) s

/-- The launch names a scout. -/
def hasScout (s : State) (launch : Nat) : Bool :=
  match Sparse.find? s.launches launch with | some l => decide (l.record.scout ≠ 0xFFFFFFFF) | none => false

/-- What a pop or peek finds: an entry, the end marker, or none yet. -/
def dqFind (e : Env) (s : State) : Option DWord :=
  if !hasScout s e.th.launch then some endMarker
  else
    match Sparse.find? s.shares (shareKey e.th.launch (e.th.share s)) with
    | none => some endMarker
    | some q =>
      match q.entryAt e.th.cursor with
      | some x => some x
      | none => if q.closed then some endMarker else none

/-- The entry at the cursor exists: a pop moves the cursor past it. -/
def dqAdvance (e : Env) (s : State) : State :=
  match Sparse.find? s.shares (shareKey e.th.launch (e.th.share s)) with
  | none => s
  | some q =>
    if (q.entryAt e.th.cursor).isSome then
      trimShare e.th.launch (e.th.share s) (modThread e.tid (fun t => { t with cursor := t.cursor + 1 }) s)
    else s

/-- The shape of DQPOP and DQPEEK. -/
def dqRead (e : Env) (d : BitVec 8) (i : Instr) (pops : Bool) : M Flow := do
  checkOps e crewOnly false [⟨d, .any, 2⟩] false
  match e.sp.handed with
  | some (.word x) => do
    broadcast e d 2 x.toNat
    if pops then act (fun s => trimShare e.th.launch (e.th.share s) s)
    pure Flow.next
  | _ => do
    let s ← get
    match dqFind e s with
    | none => waitOn e (.dqPop e.th.launch (e.th.share s)) i
    | some x => do
      if pops then act (dqAdvance e)
      broadcast e d 2 x.toNat
      pure Flow.next

/-- DQPOP and DQPEEK. -/
def execDqpop (m : BitVec 1) (d : BitVec 8) (s : State) : Host.Outcome State Fault Refusal :=
  issue m (.dqpop m d) (fun e => dqRead e d (.dqpop m d) true) s
def execDqpeek (m : BitVec 1) (d : BitVec 8) (s : State) : Host.Outcome State Fault Refusal :=
  issue m (.dqpeek m d) (fun e => dqRead e d (.dqpeek m d) false) s

/-! ## Task queues (R182 to R184) -/

/-- The queue controller's accesses to a context's memory, on the die of the queue; an access without a
translation reads zero and writes nothing. -/
def ctlRead (die cid va n : Nat) (s : State) : Nat × State :=
  match l2ReadRaw die cid va n s with
  | (.ok g, s) => (leNat g.bytes, s)
  | (.error _, s) => (0, s)
def ctlWrite (die cid va n x : Nat) (s : State) : State := (l2WriteRaw die cid va (leBytes n x) .clear s).2

/-- A queue's descriptor (R183). -/
structure QDesc where
  at_  : Nat
  ring : Nat
  logn : Nat
  pad  : Nat
  head : Nat
  tail : Nat

/-- QTBASE of a context. -/
def qtbaseOf (s : State) (cid : Nat) : Nat := match Sparse.find? s.contexts cid with | some c => c.qtbase | none => 0

/-- Read a descriptor. -/
def readDesc (cid q : Nat) (s : State) : QDesc × State :=
  let a := qtbaseOf s cid + 32 * q
  let (ring, s) := ctlRead (q % 4) cid a 8 s
  let (logn, s) := ctlRead (q % 4) cid (a + 8) 1 s
  let (pad, s) := ctlRead (q % 4) cid (a + 9) 7 s
  let (hd, s) := ctlRead (q % 4) cid (a + 16) 8 s
  let (tl, s) := ctlRead (q % 4) cid (a + 24) 8 s
  (⟨a, ring, logn, pad, hd, tl⟩, s)

/-- A descriptor keeps R183. -/
def QDesc.ok (d : QDesc) : Bool :=
  decide (d.ring % 4096 = 0) && decide (4 ≤ d.logn) && decide (d.logn ≤ 20) && decide (d.pad = 0)

/-- Records held. -/
def QDesc.count (d : QDesc) : Nat := (d.tail + 2 ^ 64 - d.head) % 2 ^ 64

/-- The bytes of a record, and a record from its bytes. -/
def Cont.bytes (c : Cont) : List Byte :=
  leBytes 8 c.code.toNat ++ leBytes 8 c.frame.toNat ++ leBytes 4 c.queue ++ leBytes 4 0 ++ leBytes 8 c.arg.toNat

/-- Write a record's words into the ring. -/
def writeCont (die cid va : Nat) (c : Cont) (s : State) : State :=
  let s := ctlWrite die cid va 8 c.code.toNat s
  let s := ctlWrite die cid (va + 8) 8 c.frame.toNat s
  let s := ctlWrite die cid (va + 16) 8 c.queue s
  ctlWrite die cid (va + 24) 8 c.arg.toNat s

/-- Read a record. -/
def readCont (die cid va : Nat) (s : State) : Cont × State :=
  let (code, s) := ctlRead die cid va 8 s
  let (frame, s) := ctlRead die cid (va + 8) 8 s
  let (q, s) := ctlRead die cid (va + 16) 4 s
  let (arg, s) := ctlRead die cid (va + 24) 8 s
  ({ code := BitVec.ofNat 64 code, frame := BitVec.ofNat 64 frame, queue := q, arg := BitVec.ofNat 64 arg }, s)

/-- A queue is drained. -/
def isDrained (s : State) (cid q : Nat) : Bool :=
  match Sparse.find? s.contexts cid with | some c => Sparse.get false c.drained q | none => false

/-- The splits that wait to pop from a queue. -/
def taskPoppers (s : State) (cid q : Nat) : List (Nat × Nat × Wait) :=
  waiters s (fun o => match o with | .taskPop c k => c == cid && k == q | _ => false)

/-- A queue drains: every split that waits on it is released without a task (R184). -/
def drainQueue (cid q : Nat) (s : State) : State :=
  let s := modContext cid (fun c => { c with drained := Sparse.set false c.drained q true }) s
  (taskPoppers s cid q).foldl (fun s w => hand w.1 w.2.1 (.task none true) s) s

/-- Push a record: it drains its queue, goes to the oldest waiting pop, or is stored; false when the queue is
full. DESIGN CHOICE (log 108): the push that a JOIN of zero makes checks neither the queue's number nor its descriptor
against R183. -/
def pushTask (cid : Nat) (c : Cont) (s : State) : Bool × State :=
  if c.code = 0 then (true, drainQueue cid c.queue s)
  else
    match oldestOf (taskPoppers s cid c.queue) with
    | some w => (true, hand w.1 w.2.1 (.task (some c) (isDrained s cid c.queue)) s)
    | none =>
      let (d, s) := readDesc cid c.queue s
      if 2 ^ d.logn ≤ d.count then (false, s)
      else
        let die := c.queue % 4
        let s := writeCont die cid (d.ring + 32 * (d.tail % 2 ^ d.logn)) c s
        (true, ctlWrite die cid (d.at_ + 24) 8 ((d.tail + 1) % 2 ^ 64) s)

/-- Push records in order while there is room; the rest. -/
def pushTasks (cid : Nat) : List Cont → State → List Cont × State
  | [], s => ([], s)
  | c :: cs, s =>
    match pushTask cid c s with
    | (true, s) => pushTasks cid cs s
    | (false, s) => (c :: cs, s)

/-- A wait to push into this queue. -/
def WaitObj.pushesTo (o : WaitObj) (q : Nat) : Bool := match o with | .taskPush _ k _ => k == q | _ => false

/-- A split that waits to push is served: what fits is pushed; it is released when nothing is left, and joins the tail of
another queue's waiters when its next record meets that queue full (R186). -/
def servePusher (tid sid cid : Nat) (recs : List Cont) (s : State) : State :=
  match pushTasks cid recs s with
  | ([], s) => hand tid sid .go s
  | (c :: cs, s) => modSplit tid sid (fun sp => { sp with wait := sp.wait.map (fun w =>
      { w with obj := .taskPush cid c.queue (c :: cs), since := if w.obj.pushesTo c.queue then w.since else s.links }) })
      { s with links := s.links + 1 }

/-- The oldest split that waits to push into a queue that has room. -/
def serveTaskPush (cid q : Nat) (s : State) : State :=
  match oldest s (fun o => match o with | .taskPush c k _ => c == cid && k == q | _ => false) with
  | some w => (match w.2.2.obj with
      | .taskPush _ _ recs => servePusher w.1 w.2.1 cid recs s
      | _ => s)
  | none => s

/-- Take the oldest record of a queue; the room goes to the oldest pusher. DESIGN CHOICE (log 108): a descriptor that
breaks R183 is read as it stands. -/
def popTask (cid q : Nat) (s : State) : Option Cont × State :=
  let (d, s) := readDesc cid q s
  if d.count = 0 then (none, s)
  else
    let (c, s) := readCont (q % 4) cid (d.ring + 32 * (d.head % 2 ^ d.logn)) s
    (some c, serveTaskPush cid q (ctlWrite (q % 4) cid (d.at_ + 16) 8 ((d.head + 1) % 2 ^ 64) s))

/-! ## SPAWN, TDONE, QPOP (R210 to R212) -/

/-- The record that a lane spawns, with its zero word. -/
def spawnRecord (e : Env) (a b : BitVec 8) (l : Nat) : Cont × Word :=
  ({ code := e.regs.pair l a, frame := e.regs.pair l (a + 2), queue := (e.regs.field l b).toNat,
     arg := e.regs.pair l (b + 2) }, e.regs.field l (b + 1))

/-- The checks of R210: the lanes that break an alignment, then those that break ACCESS. -/
def spawnMisaligned (r : Cont × Word) : Bool := decide (r.1.code.toNat % 4 ≠ 0) || decide (r.1.frame.toNat % 8 ≠ 0)

/-- The misaligned address of the lowest failing lane: CODE, then FRAME. -/
def spawnAddr (rs : List (Nat × Cont × Word)) : Nat :=
  match rs.find? (fun r => spawnMisaligned r.2) with
  | some r => if r.2.1.code.toNat % 4 ≠ 0 then r.2.1.code.toNat else r.2.1.frame.toNat
  | none => 0

/-- Lanes whose queue or zero word is refused; the descriptors are read in lane order. -/
def spawnRefused (cid : Nat) : List (Nat × Cont × Word) → State → List Nat × State
  | [], s => ([], s)
  | (l, c, z) :: rs, s =>
    let (d, s) := readDesc cid c.queue s
    let (ls, s) := spawnRefused cid rs s
    (if 4096 ≤ c.queue || decide (z ≠ 0) || !d.ok then l :: ls else ls, s)

/-- SPAWN. -/
def execSpawn (m : BitVec 1) (a b : BitVec 8) (s : State) : Host.Outcome State Fault Refusal :=
  issue m (.spawn m a b) (fun e =>
    let guarded := isVec a || isVec b
    whenLanes e guarded do
      checkOps e crewOnly guarded [⟨a, .any, 4⟩, ⟨b, .any, 4⟩] false
      if e.sp.handed.isSome then pure Flow.next
      else do
        let ls := if guarded then e.lanes else [0]
        let rs := ls.map (fun l => (l, spawnRecord e a b l))
        let fate (bad : List Nat) := if guarded then bad else e.active
        let odd := (rs.filter (fun r => spawnMisaligned r.2)).map Prod.fst
        if !odd.isEmpty then trapWith e causeAlign 0 (fate odd) (spawnAddr rs)
        else do
          let bad ← ask (spawnRefused e.cid rs)
          if !bad.isEmpty then trapWith e causeAccess 0 (fate bad) 0
          else do
            act (release e.th.core 2)
            let rest ← ask (pushTasks e.cid (rs.map (fun r => r.2.1)))
            match rest with
            | [] => pure Flow.next
            | c :: cs => waitOn e (.taskPush e.cid c.queue (c :: cs)) (.spawn m a b)) s

/-- The continuation of a frame (R184). -/
def frameCont (cid frame : Nat) (s : State) : Cont × State :=
  let die := homeSlice cid frame / 32
  let (q, s) := ctlRead die cid (frame + 4) 4 s
  let (c, s) := ctlRead die cid (frame + 8) 8 s
  ({ code := BitVec.ofNat 64 c, frame := BitVec.ofNat 64 frame, queue := q, arg := 0 }, s)

/-- JOIN after a decrement: zero stays zero (R211). -/
def decJoin (x : Nat) : Nat × Word := (x - 1, 0)

/-- What follows a decrement: the continuation at zero, the event at a count that was zero. The result is a
continuation that found its queue full. -/
def afterJoin (e : Env) (frame old : Nat) (s : State) : Option Cont × State :=
  let (c, s) := frameCont e.cid frame s
  if old = 0 then
    (none, post e.cid 4 (c.queue % 4) 6 (identOf s e.th.launch) (e.th.crewid + 65536 * e.sid) frame 0 s)
  else if old ≠ 1 then (none, s)
  else
    match pushTask e.cid c s with
    | (true, s) => (none, s)
    | (false, s) => (some c, s)

/-- One decrement: a device-scope atomic at the frame's home slice. -/
def tdonePart (e : Env) (p : Part) (s : State) : Except Nat (Option Cont) × State :=
  match atomicAt { e with sp := { e.sp with run := { e.sp.run with image := { e.sp.run.image with mmode := 2 } } } }
      p.va 4 decJoin s with
  | (.error c, s) => (.error c, s)
  | (.ok (old, _), s) => match afterJoin e p.va old s with | (r, s) => (.ok r, s)

/-- The decrements that remain, in lane order; a full queue stops them until the continuation is stored. -/
def tdoneLoop (e : Env) (i : Instr) : List Part → List (Part × Nat) → M (List (Part × Nat))
  | [], bad => pure bad
  | p :: ps, bad => do
    let r ← ask (tdonePart e p)
    match r with
    | .error c => tdoneLoop e i ps (bad ++ [(p, c)])
    | .ok r => do
      act (modSplit e.tid e.sid (fun sp => { sp with progress := { sp.progress with
        lanes := sp.progress.lanes ||| maskOf p.lanes } }))
      match r with
      | some c => waitOn e (.taskPush e.cid c.queue [c]) i
      | none => tdoneLoop e i ps bad

/-- TDONE. -/
def execTdone (m : BitVec 1) (a : BitVec 8) (s : State) : Host.Outcome State Fault Refusal :=
  issue m (.tdone m a) (fun e => whenLanes e (isVec a) do
    checkOps e crewOnly (isVec a) [⟨a, .any, 2⟩] false
    let ps : List Part := if isVec a then e.lanes.map (fun l => ⟨[l], e.addr l a 0⟩) else [⟨e.active, e.addr 0 a 0⟩]
    checkAddrs e ps 8
    act (release e.th.core 2)
    let bad ← tdoneLoop e (.tdone m a) (ps.filter (fun p => !e.sp.progress.did p)) []
    let e' := { e with sp := { e.sp with progress := { e.sp.progress with
      lanes := e.sp.progress.lanes ||| partsMask (ps.filter (fun p => !(bad.any (fun b => b.1 == p)))) } } }
    let _ ← runParts e' .atomic ps (fun p s =>
      (.error (((bad.find? (fun b => b.1 == p)).map Prod.snd).getD 0), s))
    act (reachBoundary e.tid)
    pure Flow.next) s

/-- The registers that a lane receives with a record, or a status without one (R212). -/
def taskWrites (d : BitVec 8) (l : Nat) (c : Option Cont) (status : Nat) : List RegWrite :=
  match c with
  | some r => regWrites l d r.code.toNat 2 ++ regWrites l (d + 2) r.frame.toNat 2 ++ [regWrite l (d + 4) r.queue,
      regWrite l (d + 5) 0] ++ regWrites l (d + 6) r.arg.toNat 2
  | none => (List.range 8).map (fun i => regWrite l (d + BitVec.ofNat 8 i) (if i = 5 then status else 0))

/-- A record handed to a waiting split goes to its lowest lane; the others get none. -/
def handedTask (c : Option Cont) : List Nat → List (Nat × Option Cont)
  | [] => []
  | l :: ls => (l, c) :: ls.map (fun k => (k, none))

/-- The lanes' registers, and the records that they hold from now on (R212, R335). -/
def takeTasks (e : Env) (d : BitVec 8) (got : List (Nat × Option Cont)) (status : Nat) : M Unit := do
  emit e (got.flatMap (fun g => taskWrites d g.1 g.2 status)) 0
  let keep (m : Sparse Cont) (g : Nat × Option Cont) : Sparse Cont :=
    match g.2 with
    | some c => Sparse.put m g.1 c
    | none => Sparse.erase m g.1
  act (modThread e.tid (fun t => { t with tasks := got.foldl keep t.tasks }))

/-- Records for the lanes in ascending order, while there are any. -/
def popLanes (cid q : Nat) : List Nat → State → List (Nat × Option Cont) × State
  | [], s => ([], s)
  | l :: ls, s =>
    let (c, s) := popTask cid q s
    match popLanes cid q ls s with
    | (rest, s) => ((l, c) :: rest, s)

/-- A queue holds no record. -/
def queueEmpty (cid q : Nat) (s : State) : Bool × State :=
  match readDesc cid q s with | (d, s) => (decide (d.count = 0), s)

/-- QPOP. -/
def execQpop (m : BitVec 1) (d a : BitVec 8) (s : State) : Host.Outcome State Fault Refusal :=
  issue m (.qpop m d a) (fun e => whenLanes e true do
    checkOps e crewOnly true [⟨d, .vect, 8⟩, ⟨a, .scal, 1⟩] false
    let q := (e.regs.field 0 a).toNat
    if 4096 ≤ q then illegal e 8 e.lanes
    else do
      match e.sp.handed with
      | some (.task c drained) => takeTasks e d (handedTask c e.lanes) (if drained then 2 else 1)
      | _ => do
        let none_ ← ask (queueEmpty e.cid q)
        let s ← get
        if none_ && !isDrained s e.cid q then waitOn e (.taskPop e.cid q) (.qpop m d a)
        else do
          let got ← ask (popLanes e.cid q e.lanes)
          takeTasks e d got (if isDrained s e.cid q then 2 else 1)
      act (acquire e.th.core e.cid 2)
      act (reachBoundary e.tid)
      pure Flow.next) s

/-! ## SETGANG (R174, R213) -/

/-- SIZE and TAG of a GANG value. -/
def gangSize (x : Word) : Nat := bits x.toNat 0 4
def gangTag (x : Word) : Nat := bits x.toNat 8 8

/-- What the members of a gang have in common: TAG and SIZE (R175). -/
def gangKey (x : Word) : Nat := gangTag x + 256 * gangSize x

/-- The crews of a launch on a core that are in a gang; those that are being saved are still its members. -/
def gangCrews (s : State) (core launch : Nat) : List (Nat × Thread) :=
  s.threads.filter (fun kt => kt.2.kind = .crew ∧ kt.2.core = core ∧ kt.2.launch = launch ∧ gangSize kt.2.regs.gang ≠ 0)

/-- The members of a gang on a core. -/
def gangMembers (s : State) (core launch key : Nat) : List (Nat × Thread) :=
  (gangCrews s core launch).filter (fun kt => gangKey kt.2.regs.gang = key)

/-- A GANG value is refused; one of SIZE 0 too where its TAG names a gang (R213). -/
def gangRefused (s : State) (core launch : Nat) (x : Word) : Bool :=
  let n := gangSize x
  let ms := (gangCrews s core launch).filter (fun kt => gangTag kt.2.regs.gang = gangTag x)
  decide (n = 1) || decide (7 ≤ n) || decide (bits x.toNat 4 4 ≠ 0) || decide (bits x.toNat 16 16 ≠ 0) ||
    ms.any (fun kt => gangSize kt.2.regs.gang ≠ n) || (decide (n ≠ 0) && decide (n ≤ ms.length))

/-- A gang's latch is examined again. -/
def wakeLatch (core launch tag : Nat) (s : State) : State :=
  wakeAll (fun o => match o with | .latch c l t => c == core && l == launch && t == tag | _ => false) s

/-- A crew joins the gang of its new GANG value, or none; a gang that holds SIZE members has filled. -/
def joinGang (tid core launch : Nat) (x : Word) (s : State) : State :=
  let ms := if gangSize x = 0 then [] else (gangMembers s core launch (gangKey x)).filter (fun kt => kt.1 != tid)
  let full := ms.any (fun kt => kt.2.bound) || ms.length + 1 == gangSize x
  (tid :: ms.map Prod.fst).foldl (fun s k => modThread k (fun t => { t with bound := full }) s) s

/-- SETGANG. -/
def execSetgang (m : BitVec 1) (a : BitVec 8) (s : State) : Host.Outcome State Fault Refusal :=
  issue m (.setgang m a) (fun e => closing e crewOnly false [⟨a, .scal, 1⟩] (fun e => do
    let x := e.regs.field 0 a
    let s ← get
    if gangRefused s e.th.core e.th.launch x then illegal e 8 e.active
    else do
      emit e [.special 0 0x09 (x.setWidth 64)] 0
      act (joinGang e.tid e.th.core e.th.launch x)
      act (wakeLatch e.th.core e.th.launch (gangKey e.regs.gang))
      act (wakeLatch e.th.core e.th.launch (gangKey x))
      pure Flow.nextClose)) s

/-! ## ADOPTQ (R217, R219) -/

/-- A lane still belongs to some split and has not exited. -/
def Thread.laneLives (t : Thread) (l : Nat) : Bool := t.splits.any (fun ks => ks.2.active.getLsbD l)

/-- The request of a lane. -/
def adoptRequest (e : Env) (a : BitVec 8) (l : Nat) : AdoptReq :=
  let j := (e.regs.field l a).toNat
  { split := e.sid, lane := l, donor := j,
    answer := if decide (e.th.width ≤ j) || decide (j = l) || !e.th.laneLives j then .refused else .pending }

/-- Insert a request in lane order. -/
def addRequest (r : AdoptReq) : List AdoptReq → List AdoptReq
  | [] => [r]
  | x :: xs => if r.lane < x.lane then r :: x :: xs else x :: addRequest r xs

/-- The requests of a split, and whether each is answered. -/
def Thread.requestsOf (t : Thread) (sid : Nat) : List AdoptReq := t.requests.filter (fun r => r.split == sid)
def Thread.answered (t : Thread) (sid : Nat) : Bool := (t.requestsOf sid).all (fun r => decide (r.answer ≠ .pending))

/-- A split's requests are those of some lanes to their donors: they have been made by an earlier issue of its word. -/
def Thread.asked (t : Thread) (sid : Nat) (ls : List (Nat × Nat)) : Bool :=
  (t.requestsOf sid).map (fun r => (r.lane, r.donor)) == ls

/-- The addresses of the adopted lanes. -/
def adoptedLanes (rs : List AdoptReq) : List (Nat × DWord) :=
  rs.filterMap (fun r => match r.answer with | .adopted alt _ => some (r.lane, alt) | _ => none)

/-- The parts into which an answered ADOPTQ divides its split. -/
def Thread.adoptParts (t : Thread) (sid : Nat) (sp : Split) : List Branch :=
  let got := adoptedLanes (t.requestsOf sid)
  branches sp ((lanesOf t.width sp.active).filter (fun l => !(got.any (fun g => g.1 == l)))) got

/-- The register results of an answered request: the frame words, then the status (R219). -/
def adoptWrites (d : BitVec 8) (r : AdoptReq) : List RegWrite :=
  match r.answer with
  | .adopted _ v => (List.range 8).map (fun i => .vec r.lane i (v.getD i 0)) ++ [regWrite r.lane d 1]
  | _ => [regWrite r.lane d 0]

/-- Some other split of the crew waits for records. -/
def recordsWanted (s : State) (tid : Nat) : Bool :=
  (waiters s (fun o => o == .records)).any (fun w => w.1 == tid)

/-- ADOPTQ. The donors are those that its first issue read (R192); an adopted lane whose ALT is misaligned is a misaligned
transfer (R26). -/
def execAdoptq (m : BitVec 1) (d a : BitVec 8) (s : State) : Host.Outcome State Fault Refusal :=
  issue m (.adoptq m d a) (fun e => closing e crewOnly true [⟨d, .vect, 1⟩, ⟨a, .any, 1⟩] (fun e => do
    if !(e.sp.handed.isSome || e.th.asked e.sid (e.lanes.map (fun l => (l, (e.regs.field l a).toNat)))) then do
      let bad := e.lanes.filter (fun l => Sparse.get 0 e.regs.vwsize l = 0)
      if !bad.isEmpty then illegal e 8 bad
      act (modThread e.tid (fun t => { t with
        requests := e.lanes.foldl (fun rs l => addRequest (adoptRequest e a l) rs)
          (t.requests.filter (fun r => r.split != e.sid)) }))
    let s ← get
    match Sparse.find? s.threads e.tid with
    | none => throw .gone
    | some t =>
      if !t.answered e.sid then waitOn e .adopt (.adoptq m d a)
      else do
        let parts := t.adoptParts e.sid e.sp
        let odd := (adoptedLanes (t.requestsOf e.sid)).filter (fun g => decide (g.2.toNat % 4 ≠ 0))
        if !odd.isEmpty then trapWith e causeAlign 0 (odd.map Prod.fst) 0
        else if 2 ≤ parts.length && e.inHandler then illegal e 8 e.lanes
        else if 2 ≤ parts.length && (decide (t.spare e.sp + 1 < parts.length) ||
            (decide (e.sp.wait.map Wait.obj ≠ some .records) && recordsWanted s e.tid)) then
          throw (.wait .records (.adoptq m d a))
        else do
          emit e ((t.requestsOf e.sid).flatMap (adoptWrites d)) 0
          act (modThread e.tid (fun t => { t with requests := t.requests.filter (fun r => r.split != e.sid) }))
          act (divideSplit e.tid e.sid parts)
          throw .gone)) s

/-! ## OFFER (R218) -/

/-- The bottom frame of a lane's stack, from the frame at `f` downward. -/
def bottomFrame (e : Env) : Nat → Nat → Option Nat → L (Option Nat)
  | 0, _, c => pure c
  | fuel + 1, f, c => do
    let alt ← ld64 e f
    if alt = 0 then pure c else bottomFrame e fuel ((f + 2 ^ 64 - 64) % 2 ^ 64) (some f)

/-- A trail entry: its address and its words. -/
structure TrailEntry where
  at_  : Nat
  cell : Nat
  old  : Nat

/-- The trail entries from a mark up to a top; `fuel` bounds their number. -/
def trailFrom (e : Env) (top : Nat) : Nat → Nat → L (List TrailEntry)
  | 0, _ => pure []
  | fuel + 1, t =>
    if top ≤ t then pure []
    else do
      let c ← ld64 e t
      let o ← ld64 e (t + 8)
      let rest ← trailFrom e top fuel (t + 16)
      pure (⟨t, c, o⟩ :: rest)

/-- KIND and cell of an entry (R133). -/
def TrailEntry.kind (t : TrailEntry) : Nat := t.cell % 8
def TrailEntry.addr (t : TrailEntry) : Nat := t.cell / 8 * 8

/-- The entries of a window, in order. -/
def windowEntries (e : Env) : List Nat → L (List (Nat × Nat))
  | [] => pure []
  | p :: ps => do
    let k ← ld64 e p
    let x ← ld64 e ((p + 8) % 2 ^ 64)
    let rest ← windowEntries e ps
    pure ((k, x) :: rest)

/-- The addresses of a window's entries. -/
def Win.entries (w : Win) : List Nat := (List.range w.size).map (fun i => (w.base + 16 * i) % 2 ^ 64)

/-- Insert the copies into the requester's window. -/
def insertAll (e : Env) (w : Win) : List (Nat × Nat) → L Unit
  | [] => pure ()
  | (a, x) :: rest => do
    w.insert e a x
    insertAll e w rest

/-- Move bindings from their cells into the donor's window, newest first. -/
def moveAll (e : Env) (w : Win) : List TrailEntry → L Unit
  | [] => pure ()
  | t :: rest => do
    let x ← ld64 e t.addr
    w.insert e t.addr x
    bind64 e t.addr x t.old
    bind64 e t.at_ t.cell (t.addr + 1)
    bind64 e (t.at_ + 8) t.old 0
    moveAll e w rest

/-- What serving a request comes to. -/
inductive Service where
  | refuseAll
  | refuse
  | adopted (alt : Nat) (v : List Word) (b : Nat)

/-- The frame words v0 to v7. -/
def frameV (ws : List Nat) : List Word :=
  (List.range 8).map (fun i => BitVec.ofNat 32 ((ws.getD (i / 2) 0) / 2 ^ (32 * (i % 2))))

/-- Serve one requester of a donor lane. -/
def serveRequest (e : Env) (l r : Nat) : L Service := do
  let top := e.regs.cairn l
  laneAddr top 64
  match ← bottomFrame e (2 ^ 58) ((top + 2 ^ 64 - 64) % 2 ^ 64) none with
  | none => pure .refuseAll
  | some c => do
    let b := (← ld64 e ((c + 24) % 2 ^ 64)) % 2 ^ 16
    if b = 65535 then pure .refuseAll
    else do
      let mark ← ld64 e ((c + 16) % 2 ^ 64)
      laneAddr (e.regs.trail l) 16
      let ts ← trailFrom e (e.regs.trail l) (e.regs.trail l / 16 + 1) mark
      match ts.find? (fun t => decide (2 ≤ t.kind)) with
      | some t => laneTrap causeTermTag t.at_
      | none => do
        let moves := ts.filter (fun t => decide (t.kind = 0) && decide (birthOf t.old ≤ b))
        let w := e.regs.win l
        let es ← windowEntries e w.entries
        let copies := es.filter (fun x => decide (2 ≤ x.1) &&
          !(ts.any (fun t => decide (t.kind = 1) && decide (t.addr = x.1))))
        if (es.filter (fun x => decide (x.1 ≤ 1))).length < moves.length then laneTrap causeViewFull w.base
        else if (e.regs.win r).size ≤ copies.length then pure .refuse
        else do
          (e.regs.win r).clear e
          insertAll e (e.regs.win r) copies
          moveAll e w moves.reverse
          let alt ← ld64 e c
          let ws ← loadWords e ((c + 32) % 2 ^ 64) 4
          bind64 e c alt 0
          pure (.adopted alt (frameV ws) b)

/-- The answer to a request is recorded; an adopted lane and its donor get their horizon and birth (R218). -/
def answerRequest (l r : Nat) (x : Answer) (t : Thread) : Thread :=
  { t with requests := t.requests.map (fun q => if q.lane = r ∧ q.donor = l ∧ q.answer = .pending then { q with answer := x } else q) }

/-- The state that a completed service writes. -/
def adoptState (l r b : Nat) (t : Thread) : Thread :=
  let h (k x : Nat) (m : Sparse Word) : Sparse Word := Sparse.set 0 m k (BitVec.ofNat 32 x)
  { t with
    resumes := Sparse.erase t.resumes r
    regs := { t.regs with hzn := h l (Nat.max (t.regs.horizon l) (b + 1)) (h r (b + 1) t.regs.hzn),
                          birth := h r (b + 1) t.regs.birth } }

/-- The pending requests to a donor, in lane order. -/
def Thread.pendingTo (t : Thread) (l : Nat) : List Nat :=
  (t.requests.filter (fun r => decide (r.donor = l) && decide (r.answer = .pending))).map AdoptReq.lane

/-- Serve the requests of a donor in turn: the number adopted so far, and the stop of the last, if any. -/
def serveLane (e : Env) (l : Nat) : List Nat → Nat → State → Nat × Option LaneStop × State
  | [], n, s => (n, none, s)
  | r :: rs, n, s =>
    match serveRequest e l r (s, []) with
    | .error x (s, u) => (n, some x, undoAll e u s)
    | .ok .refuseAll (s, _) =>
      (n, none, modThread e.tid (fun t => (r :: rs).foldl (fun t r => answerRequest l r .refused t) t) s)
    | .ok .refuse (s, _) => serveLane e l rs n (modThread e.tid (answerRequest l r .refused) s)
    | .ok (.adopted alt v b) (s, _) =>
      serveLane e l rs (n + 1) (modThread e.tid (fun t =>
        adoptState l r b (answerRequest l r (.adopted (BitVec.ofNat 64 alt) v) t)) s)

/-- The splits whose requests are all answered are examined. -/
def wakeAdopters (tid : Nat) (s : State) : State :=
  due ((byAge (waiters s (fun o => o == .adopt))).filterMap (fun w =>
    if w.1 = tid then some (.waiterRelease w.1 w.2.1) else none)) s

/-- The count that an earlier attempt of this OFFER has reached in a lane. -/
def Progress.countOf (p : Progress) (l : Nat) : Nat :=
  (p.results.foldl (fun n w => match w with | .vec k _ x => if k = l then x.toNat else n | _ => n) 0)

/-- Serve the donor lanes in turn. -/
def serveLanes (e : Env) (d : BitVec 8) : List Nat → M Unit
  | [] => pure ()
  | l :: ls => do
    let s ← get
    let pend := match Sparse.find? s.threads e.tid with | some t => t.pendingTo l | none => []
    let (n, stop, s) := serveLane e l pend (e.sp.progress.countOf l) s
    set (modSplit e.tid e.sid (fun sp => { sp with progress := { sp.progress with
      results := sp.progress.results ++ [.vec l d.toNat (BitVec.ofNat 32 n)] } }) s)
    match stop with
    | some x => do
      act (wakeAdopters e.tid)
      -- a trap ends the OFFER without a result; only the replay of a parked one goes on counting
      if (laneFaults [(l, x)]).isEmpty then
        act (modSplit e.tid e.sid (fun sp => { sp with progress := Progress.none }))
      raiseBad e [(l, x)]
    | none => serveLanes e d ls

/-- OFFER. -/
def execOffer (m : BitVec 1) (d : BitVec 8) (s : State) : Host.Outcome State Fault Refusal :=
  issue m (.offer m d) (fun e => closing e crewOnly true [⟨d, .vect, 1⟩] (fun e => do
    serveLanes e d e.lanes
    act (wakeAdopters e.tid)
    let s ← get
    let got := match getSplit s e.tid e.sid with | some sp => sp.progress | none => Progress.none
    emit e (e.lanes.map (fun l => regWrite l d (got.countOf l))) 0
    pure Flow.nextClose)) s

end Sys2Proof.Machine
end

