-- ==== Sys2Proof/Machine/Tiles.lean ====
section
/-! DEFINITION. Tiles: TOPEN to TSPLIT (R252 to R257, R292 to R296), TLD and TST (R297), and messages to Lantern
cores (R247, R291). -/

namespace Sys2Proof.Machine

/-! ## Handles (R252) -/

/-- The slice of a handle, the key of its entry, and its generation. -/
def handleSlice (h : Nat) : Nat := bits h 0 7
def handleKey (h : Nat) : Nat := 4096 * handleSlice h + bits h 7 12
def handleGen (h : Nat) : Nat := bits h 20 12

/-- The handle of an entry. -/
def handleOf (key gen : Nat) : Nat := key / 4096 + 2 ^ 7 * (key % 4096) + 2 ^ 20 * gen

/-- The open tile of a handle: its generation matches and it belongs to the context (R252, R292). -/
def tileOf (s : State) (cid h : Nat) : Option Tile :=
  match Sparse.find? s.tiles (handleKey h) with
  | some t => if t.isOpen ∧ t.gen = handleGen h ∧ t.cid = cid ∧ bit h 19 = false then some t else none
  | none => none

/-- The tile that a word names, or BAD_HANDLE with the handle. -/
def needTile (e : Env) (ls : List Nat) (h : Nat) : M Tile := do
  let s ← get
  match tileOf s e.cid h with
  | some t => pure t
  | none => trapWith e causeBadHandle 0 ls h

/-- Change a tile. -/
def modTile (key : Nat) (f : Tile → Tile) (s : State) : State := { s with tiles := Sparse.alter s.tiles key f }

/-- The open tiles of a context that cover a line. -/
def coverers (s : State) (cid line : Nat) : List (Nat × Tile) :=
  s.tiles.filter (fun kt => kt.2.isOpen && kt.2.cid == cid && kt.2.shape.lines.contains line)

/-! ## Opening (R252 to R255) -/

/-- The free entry with the lowest number in a slice's table, other than those given. -/
def freeTile (s : State) (slice : Nat) (taken : List Nat) : Option Nat :=
  (List.range Config.tileEntries).find? (fun i =>
    !(taken.contains (4096 * slice + i)) &&
    (match Sparse.find? s.tiles (4096 * slice + i) with | some t => !t.isOpen | none => true))

/-- The generation of an entry at its next use: 1 first, then rising, 4,095 wraps to 1. -/
def nextGen (s : State) (key : Nat) : Nat :=
  match Sparse.find? s.tiles key with | some t => t.gen % 4095 + 1 | none => 1

/-- The slices that are home to a line of some lines. -/
def lineSlices (cid : Nat) (lines : List Nat) : List Nat := (lines.map (fun l => homeSlice cid (l * 128))).eraseDups

/-- The handles in a slice's coverage filter (R254). -/
def filterCount (s : State) (slice : Nat) : Nat :=
  (s.tiles.filter (fun kt => kt.2.isOpen && (lineSlices kt.2.cid kt.2.shape.lines).contains slice)).length

/-- A page with host bias, by the page table. -/
def hostBias (s : State) (cid va : Nat) : Bool :=
  match Sparse.find? s.contexts cid with
  | some c => (match walk s c va with | .ok (pte, _) => bit pte 4 | .error _ => false)
  | none => false

/-- Enter an open tile at a key: lines shared with other open tiles are demoted in both (R255). -/
def enterTile (cid key : Nat) (sh : Shape) (s : State) : State :=
  let lines := sh.lines
  let others := s.tiles.filter (fun kt => kt.2.isOpen && kt.2.cid == cid && kt.2.shape.lines.any lines.contains)
  let shared := lines.filter (fun l => others.any (fun kt => kt.2.shape.lines.contains l))
  let s1 := others.foldl (fun s kt => modTile kt.1 (fun t => { t with
    demoted := (t.demoted ++ t.shape.lines.filter lines.contains).eraseDups }) s) s
  let t : Tile := { gen := nextGen s key, isOpen := true, cid := cid, shape := sh, tenure := [],
                    demoted := if lines.any (fun l => hostBias s cid (l * 128)) then lines else shared,
                    carved := [], carves := 0, asking := [] }
  { s1 with tiles := Sparse.put s1.tiles key t }

/-- A tile closes: its tenure ends, its entry is free (R256). -/
def closeTile (key : Nat) (s : State) : State := modTile key (fun t => { t with isOpen := false, tenure := [] }) s

/-- What TOPEN finds: the key to open at, or none where R293 gives 0. -/
def openAt (s : State) (cid : Nat) (sh : Shape) : Option Nat :=
  let lines := sh.lines
  if sh.excl && lines.any (fun l => !(coverers s cid l).isEmpty) then none
  else if (lineSlices cid lines).any (fun sl => decide (Config.coverageEntries ≤ filterCount s sl)) then none
  else (freeTile s (homeSlice cid sh.base.toNat) []).map (fun i => 4096 * homeSlice cid sh.base.toNat + i)

/-- A record at an address, read through the record cache: R26, 64-byte alignment, page faults and poison, then
R253 (R293). -/
def tileRecord (e : Env) (va : Nat) : M Shape := do
  if canonicalVa va && decide (va % 64 ≠ 0) then trapWith e causeAlign 0 e.active va
  else do
    let sh ← readShape e e.active va
    if sh.ok then pure sh else trapWith e causeAccess 0 e.active va

/-- A split waits in a TACQW that its home has accepted. -/
def asks (s : State) (w : Nat × Nat) : Bool :=
  match (getSplit s w.1 w.2).bind Split.wait with
  | some w => (match w.instr with | .tacqw .. => true | _ => false)
  | none => false

/-- A write acquire of a tile that the home has accepted is under way, other than a split's own. -/
def Tile.asked (t : Tile) (s : State) (tid sid : Nat) : Bool := (t.asking.filter (· != (tid, sid))).any (asks s)

/-- A split waits at a line, until what holds the line up has passed. -/
def waitLine {α : Type} (e : Env) (line : Nat) (acc : Acc) : M α :=
  throw (.park { token := 0, va := BitVec.ofNat 64 (line * 128), mask := maskOf e.active, acc := acc, why := whyHandler, verdict := none })

/-- A tile's own line: where what its home orders behind an acquire waits. -/
def Tile.baseLine (t : Tile) : Nat := t.shape.base.toNat / 128

/-- An open tile that overlaps a record's lines, and that a die is acquiring: its acquire completes first (R262). -/
def beingAcquired (s : State) (e : Env) (sh : Shape) : Option Tile :=
  (List.find? (fun (kt : Nat × Tile) => kt.2.isOpen && kt.2.cid == e.cid && kt.2.asked s e.tid e.sid &&
    kt.2.shape.lines.any sh.lines.contains) s.tiles).map Prod.snd

/-- TOPEN (R293). -/
def execTopen (m : BitVec 1) (d a : BitVec 8) (s : State) : Host.Outcome State Fault Refusal :=
  issue m (.topen m d a) (fun e => do
    checkOps e crewOnly false [⟨d, .scal, 1⟩, ⟨a, .scal, 2⟩] false
    let sh ← tileRecord e (e.addr 0 a 0)
    let s ← get
    match beingAcquired s e sh with
    | some t => waitLine e t.baseLine .read
    | none => pure ()
    match openAt s e.cid sh with
    | some key => do
      act (enterTile e.cid key sh)
      emit e [regWrite 0 d (handleOf key (nextGen s key))] 0
    | none => emit e [regWrite 0 d 0] 0
    pure Flow.next) s

/-! ## Tenure (R255 to R257, R294) -/

/-- The shape of TCLOSE and TREL: an action on the entry of a valid handle. -/
def onTile (e : Env) (a : BitVec 8) (f : Nat → Tile → State → State) : M Flow := do
  checkOps e crewOnly false [⟨a, .scal, 1⟩] false
  let h := (e.regs.field 0 a).toNat
  let t ← needTile e e.active h
  act (f (handleKey h) t)
  pure Flow.next

/-- TCLOSE: a write acquire that the home has accepted before completes first (R298). -/
def execTclose (m : BitVec 1) (a : BitVec 8) (s : State) : Host.Outcome State Fault Refusal :=
  issue m (.tclose m a) (fun e => do
    checkOps e crewOnly false [⟨a, .scal, 1⟩] false
    let h := (e.regs.field 0 a).toNat
    let t ← needTile e e.active h
    let s ← get
    if t.asked s e.tid e.sid then waitLine e t.baseLine .write
    else do
      act (closeTile (handleKey h))
      pure Flow.next) s

/-- An acquire takes back the carved-out lines, and the demoted lines that no other open tile covers. -/
def regain (key : Nat) (t : Tile) (s : State) : State :=
  modTile key (fun x => { x with
    carved := []
    demoted := x.demoted.filter (fun l => decide (1 < (coverers s t.cid l).length)) }) s

/-- The home downgrades a die's copies of a tile's lines, as for FwdS: dirty data stay at the L2 level, and the
directory follows. -/
def downgrade (die cid : Nat) (lines : List Nat) (s : State) : State :=
  lines.foldl (fun s line => modLine (lineKey cid line) (fun l => match copyAt l die with
    | some .m => setCopy die .o l
    | some .e => { setCopy die .s l with owner := none, sharers := (die :: l.sharers).eraseDups }
    | _ => l) s) s

/-- The home recalls every other holder's copies of a tile's lines, the host's among them, unit by unit. -/
def recallOthers (die cid : Nat) (lines : List Nat) (s : State) : State :=
  lines.foldl (fun s line => recallFrom die cid line [] s) s

/-- A die obtains line tenure on the lines that a tile leaves at line level, unit by unit (R255): the first line that it
must wait for, because a handler has it (R247), its page changes its bias (R261) or another die must answer. -/
def obtainLines (die cid : Nat) (own : Bool) : List Nat → State → Option Nat × State
  | [], s => (none, s)
  | line :: rest, s =>
    match l2FillFor (turnHome s) die s cid (line * 128) with
    | (.ok l, s) =>
      if l.cp = 2 then obtainLines die cid own rest s
      else
        let s := drainMsgs 64 (l2Touch (turnHome s) die cid line own s)
        if copyServes s die (lineKey cid line) own then obtainLines die cid own rest s else (some line, s)
    | (.error c, s) => if c = whyHandler then (some line, s) else obtainLines die cid own rest s

/-- The lines of a tile that an acquire takes at line level. -/
def demotedNow (s : State) (key : Nat) : List Nat :=
  match Sparse.find? s.tiles key with | some t => t.demoted | none => []

/-- A read acquire: another die's write tenure is downgraded, and the demoted lines are taken at line level. -/
def askTileRead (die key : Nat) (t : Tile) (s : State) : Option Nat × State :=
  let writers := t.tenure.filter (fun kv => kv.2 = 2 && kv.1 ≠ die)
  let s := regain key t s
  let s := writers.foldl (fun s kv => downgrade kv.1 t.cid (t.shape.lines.filter (fun l => !((demotedNow s key).contains l))) s) s
  obtainLines die t.cid false (demotedNow s key) s

/-- Read tenure: another die's write tenure becomes read tenure; a die that holds write tenure keeps it. -/
def acquireTileRead (die key : Nat) (t : Tile) (s : State) : State :=
  let low := t.tenure.map (fun kv => if kv.1 = die then kv else (kv.1, 1))
  modTile key (fun x => { x with tenure := if (Sparse.find? low die).isSome then low else Sparse.put low die 1 }) s

/-- The recalls of a write acquire, and the demoted lines at line level. -/
def askTileWrite (die key : Nat) (t : Tile) (s : State) : Option Nat × State :=
  let s := regain key t s
  obtainLines die t.cid true (demotedNow s key)
    (recallOthers die t.cid (t.shape.lines.filter (fun l => !((demotedNow s key).contains l))) s)

/-- Write tenure: every other die has lost its own with its copies. What the home has ordered behind the acquire is
examined. -/
def acquireTileWrite (die key tid sid : Nat) (t : Tile) (s : State) : State :=
  let s := modTile key (fun x => { x with tenure := [(die, 2)], asking := x.asking.filter (· != (tid, sid)) }) s
  due (lineWaiters s t.cid t.baseLine) s

/-- A line that another holder has not given up yet: its recall waits (R258). -/
def awaited (s : State) (die cid : Nat) (lines : List Nat) : Option Nat :=
  lines.find? (fun line => match Sparse.find? s.l2 (lineKey cid line) with
    | some l => l.txn.isSome && l.holders.any (· != die)
    | none => false)

/-- TACQR. -/
def execTacqr (m : BitVec 1) (a : BitVec 8) (s : State) : Host.Outcome State Fault Refusal :=
  issue m (.tacqr m a) (fun e => do
    checkOps e crewOnly false [⟨a, .scal, 1⟩] false
    let h := (e.regs.field 0 a).toNat
    let t ← needTile e e.active h
    match ← ask (askTileRead (dieOf e.th.core) (handleKey h) t) with
    | some line => waitLine e line .read
    | none => do
      act (acquireTileRead (dieOf e.th.core) (handleKey h) t)
      pure Flow.next) s

/-- The home accepts a write acquire: it stands behind those accepted before (R249, R262). -/
def acceptAcquire (key tid sid : Nat) (s : State) : State :=
  modTile key (fun x => if x.asking.contains (tid, sid) then x else { x with asking := x.asking ++ [(tid, sid)] }) s

/-- Write acquires that the home has accepted before a split's own. -/
def asksBefore (s : State) (key tid sid : Nat) : Bool :=
  match Sparse.find? s.tiles key with
  | some t => (t.asking.takeWhile (· != (tid, sid))).any (asks s)
  | none => false

/-- TACQW: it waits for those before it, and for recalls that a pass holds up (R258, R262). -/
def execTacqw (m : BitVec 1) (a : BitVec 8) (s : State) : Host.Outcome State Fault Refusal :=
  issue m (.tacqw m a) (fun e => do
    checkOps e crewOnly false [⟨a, .scal, 1⟩] false
    let h := (e.regs.field 0 a).toNat
    let t ← needTile e e.active h
    act (acceptAcquire (handleKey h) e.tid e.sid)
    let s ← get
    if asksBefore s (handleKey h) e.tid e.sid then waitLine e t.baseLine .write
    else do
      match ← ask (askTileWrite (dieOf e.th.core) (handleKey h) t) with
      | some line => waitLine e line .write
      | none => do
        let s ← get
        match awaited s (dieOf e.th.core) e.cid t.shape.lines with
        | some line => waitLine e line .write
        | none => do
          act (acquireTileWrite (dieOf e.th.core) (handleKey h) e.tid e.sid t)
          pure Flow.next) s

/-- TREL: the die's tile tenure ends; its lines stay under line tenure. -/
def execTrel (m : BitVec 1) (a : BitVec 8) (s : State) : Host.Outcome State Fault Refusal :=
  issue m (.trel m a) (fun e => onTile e a (fun key _ s =>
    modTile key (fun x => { x with tenure := Sparse.erase x.tenure (dieOf e.th.core) }) s)) s

/-- What TQUERY reads of a tile on a die (R295). -/
def Tile.query (t : Tile) (die : Nat) : Nat :=
  let ten := Sparse.get 0 t.tenure die
  1 + 2 * ofBool (decide (1 ≤ ten)) + 4 * ofBool (decide (ten = 2)) + 16 * Nat.min t.carves 64
    + 2 ^ 11 * Nat.min t.demoted.length (2 ^ 21 - 1)

/-- TQUERY. -/
def execTquery (m : BitVec 1) (d a : BitVec 8) (s : State) : Host.Outcome State Fault Refusal :=
  issue m (.tquery m d a) (fun e => do
    checkOps e crewOnly false [⟨d, .scal, 1⟩, ⟨a, .scal, 1⟩] false
    let s ← get
    emit e [regWrite 0 d (match tileOf s e.cid (e.regs.field 0 a).toNat with
      | some t => t.query (dieOf e.th.core)
      | none => 0)] 0
    pure Flow.next) s

/-! ## TSPLIT (R296) -/

/-- A shape with one extent changed, and its base moved. -/
def Shape.cut (sh : Shape) (dim n by_ : Nat) : Shape :=
  { sh with ext := sh.ext.set dim n,
            base := sh.base + BitVec.ofNat 64 by_ * sh.stride.getD dim 0 }

/-- A child of a split tile: what it inherits of the lines it keeps. -/
def childOf (t : Tile) (key : Nat) (s : State) : State :=
  modTile key (fun x => { x with
    tenure := t.tenure, carves := t.carves,
    demoted := (x.demoted ++ t.demoted.filter x.shape.lines.contains).eraseDups,
    carved := t.carved.filter x.shape.lines.contains }) s

/-- The keys of the two children, if both tables have an entry. The coverage filters are not tested: their fate at a
TSPLIT is not said (DESIGN CHOICE, log 41). -/
def childKeys (s : State) (cid : Nat) (lo hi : Shape) : Option (Nat × Nat) :=
  let a := homeSlice cid lo.base.toNat
  let b := homeSlice cid hi.base.toNat
  match freeTile s a [] with
  | none => none
  | some i => (freeTile s b [4096 * a + i]).map (fun j => (4096 * a + i, 4096 * b + j))

/-- TSPLIT. -/
def execTsplit (m : BitVec 1) (d a b : BitVec 8) (s : State) : Host.Outcome State Fault Refusal :=
  issue m (.tsplit m d a b) (fun e => do
    checkOps e crewOnly false [⟨d, .scal, 2⟩, ⟨a, .scal, 1⟩, ⟨b, .scal, 2⟩] false
    let dim := (e.regs.field 0 b).toNat
    let x := (e.regs.field 0 (b + 1)).toNat
    if 4 ≤ dim then illegal e 8 e.active
    else do
      let h := (e.regs.field 0 a).toNat
      let t ← needTile e e.active h
      let n := t.shape.ext.getD dim 0
      if t.shape.rank ≤ dim ∨ x = 0 ∨ n ≤ x then illegal e 8 e.active
      else do
        let s ← get
        let lo := t.shape.cut dim x 0
        let hi := t.shape.cut dim (n - x) x
        match childKeys s e.cid lo hi with
        | none => emit e (regWrites 0 d 0 2) 0
        | some (i, j) => do
          let s1 := closeTile (handleKey h) s
          let s2 := childOf t i (enterTile e.cid i lo s1)
          set (childOf t j (enterTile e.cid j hi s2))
          emit e (regWrites 0 d (handleOf i (nextGen s i) + 2 ^ 32 * handleOf j (nextGen s j)) 2) 0
        pure Flow.next) s

/-! ## TLD and TST (R297, R439) -/

/-- The die's own tenure on a line of a tile; carved-out and demoted lines are at line level (R255, R257). -/
def Tile.owned (t : Tile) (die line : Nat) (write : Bool) : Bool :=
  decide ((if write then 2 else 1) ≤ Sparse.get 0 t.tenure die) && !(t.carved.contains line) && !(t.demoted.contains line)

/-- The unit's read buffers. -/
def layoutRead (core cid va n : Nat) (s : State) : Except Nat Got × State :=
  unitRead Cluster.layout (fun ls c => { c with layout := ls }) Config.layoutLines core cid va n s

/-- A read under own tenure is served in the die's L2; otherwise by the unit's read buffers. -/
def tileRead (e : Env) (own : Bool) (va n : Nat) (s : State) : Except Nat Got × State :=
  let cl := clusterOf e.th.core
  let r := if own then l2Read (dieOf e.th.core) e.cid va n s
    else layoutRead e.th.core e.cid va n s
  match r with
  | (.ok g, s) => (.ok { g with bytes := ((getCluster s cl).buffer.filter (fun w => w.tid == e.tid)).foldl (fun bs w =>
      overlay va bs w.va.toNat w.bytes) g.bytes }, s)
  | r => r

/-- Where an address lies now, or lay when its line was filled. -/
def frameOf (s : State) (core cid va : Nat) : Nat :=
  match (translate s cid va).1 with
  | .ok x => x.pa
  | .error _ =>
    match clFind s (clusterOf core) cid (va / 128), Sparse.find? s.l2 (lineKey cid (va / 128)) with
    | some l, _ => l.pline * 128 + va % 128
    | none, some l => l.pline * 128 + va % 128
    | none, none => va % 2 ^ 52

/-- A write enters the unit's write buffer once the page takes it; under own tenure it is for the die's L2, and other
paths see it after the fence either way (R281, R297). -/
def tileWrite (e : Env) (own : Bool) (va : Nat) (xs : List Byte) (s : State) : Except Nat Unit × State :=
  match lineAttrs e.th.core e.cid va s with
  | (.error c, s) => (.error c, s)
  | (.ok x, s) =>
    if x.shadow then (.error whyAccess, s)
    else (.ok (), modCluster (clusterOf e.th.core) (fun c => { c with
      buffer := c.buffer ++ [{ tid := e.tid, sid := e.sid, own := own, pa := frameOf s e.th.core e.cid va,
                               va := BitVec.ofNat 64 va, bytes := xs }] }) s)

/-- The registers of an element: two for the 64-bit codes. -/
def elemRegs (elem : Nat) : Nat := if elem = 9 ∨ elem = 10 then 2 else 1

/-- An element as R127 places it: I16 and I8 sign-extended, the others zero-extended. -/
def placeElem (elem x : Nat) : Nat :=
  if elem = 5 then wrapInt 32 (intVal true 16 x) else if elem = 7 then wrapInt 32 (intVal true 8 x) else x

/-- The shape of TLD and TST: the tile, the lanes' elements and the checks of R101. -/
def tileAccess (e : Env) (d a b : BitVec 8) (acc : Acc) (go : Tile → Part → State → PartResult × State) : M Flow :=
  whenLanes e true do
    checkOps e crewOnly true [⟨d, .vect, 1⟩, ⟨a, .scal, 1⟩, ⟨b, .vect, 1⟩] false
    let t ← needTile e e.lanes (e.regs.field 0 a).toNat
    checkOps e crewOnly true [⟨d, .vect, elemRegs t.shape.elem⟩] false
    let far := e.lanes.filter (fun l => decide (t.shape.count ≤ (e.regs.field l b).toNat))
    if !far.isEmpty then trapWith e causeAccess 0 far 0
    else do
      let ps : List Part := e.lanes.map (fun l => ⟨[l], t.shape.elemAddr (e.regs.field l b).toNat⟩)
      checkAddrs e ps (elemBytes t.shape.elem)
      let r ← runParts e acc ps (go t)
      emit e r.1 r.2
      pure Flow.next

/-- TLD. -/
def execTld (m : BitVec 1) (d a b : BitVec 8) (s : State) : Host.Outcome State Fault Refusal :=
  issue m (.tld m d a b) (fun e => tileAccess e d a b .read (fun t p s =>
    match gotBytes (tileRead e (t.owned (dieOf e.th.core) (p.va / 128) false) p.va (elemBytes t.shape.elem) s) with
    | (.error c, s) => (.error c, s)
    | (.ok bs, s) =>
      (.ok (loadResults d (elemRegs t.shape.elem) p (placeElem t.shape.elem (leNat bs)), 0), s))) s

/-- TST. -/
def execTst (m : BitVec 1) (d a b : BitVec 8) (s : State) : Host.Outcome State Fault Refusal :=
  issue m (.tst m d a b) (fun e => tileAccess e d a b .write (fun t p s =>
    match tileWrite e (t.owned (dieOf e.th.core) (p.va / 128) true) p.va
        (storeBytes e d (elemRegs t.shape.elem) (elemBytes t.shape.elem) p) s with
    | (.error c, s) => (.error c, s)
    | (.ok _, s) => (.ok ([], 0), s))) s

/-! ## LMSG (R291) -/

/-- The 16 words of a message: lane i's A when i is in W. -/
def messageWords (e : Env) (a : BitVec 8) : List Nat :=
  (List.range 16).map (fun i => if e.lanes.contains i then (e.regs.field i a).toNat else 0)

/-- Send a message to a slice: a message without a range, or that finds the queue full, is dropped and counted. -/
def sendMessage (e : Env) (slice : Nat) (ws : List Nat) (s : State) : State :=
  let va := ws.getD 0 0 + 2 ^ 32 * ws.getD 1 0
  let drop (s : State) : State := putLantern slice { getLantern s slice with dropped := (getLantern s slice).dropped + 1 } s
  match (Sparse.find? s.contexts e.cid).bind (fun c => handlerRange c slice va) with
  | none => drop s
  | some (i, r) =>
    if !r.takes 3 then s
    else
      match pushTrigger slice { kind := 3, range := i, cid := e.cid, home := e.th.homenum, dirty := false,
                                va := BitVec.ofNat 64 va, seq := 0, data := ws.flatMap (leBytes 4) } s with
      | (true, s) => s
      | (false, s) => drop s

/-- LMSG: earlier accesses perform at device scope first. -/
def execLmsg (m : BitVec 1) (a : BitVec 8) (r : BitVec 4) (c : BitVec 5) (s : State) : Host.Outcome State Fault Refusal :=
  issue m (.lmsg m a r c) (fun e => do
    checkOps e crewOnly false [⟨a, .vect, 1⟩] false
    act (release e.th.core 2)
    act (sendMessage e (sliceOf r.toNat c.toNat) (messageWords e a))
    pure Flow.next) s

end Sys2Proof.Machine
end

