-- ==== Sys2Proof/Machine/Copy.lean ====
section
/-! DEFINITION. Copy commands: COPY, COPYG and COLLECT (R318 to R320, R348 to R355), the copy engine's events,
WAITT (R321, R356, R357) and PUBLISH (R322 to R324, R361). -/

namespace Sys2Proof.Machine

/-! ## Spaces (R349) -/

/-- The shape of a tile in a bank: its BASE is the byte offset. -/
def Shape.inBank (sh : Shape) : Shape := { sh with base := BitVec.ofNat 64 (bits sh.base.toNat 6 17) }

/-- The bank of a FIFO or bank space. -/
def Shape.bank (sh : Shape) : Nat := sh.base.toNat % 64

/-- The place of a linear element in its space: a virtual or a scratch address, or an offset in the bank. -/
def placeOf (space : Nat) (sh : Shape) (i : Nat) : Nat := if space = 3 then sh.inBank.elemAddr i else sh.elemAddr i

/-- Bytes of a tile. -/
def Shape.size (sh : Shape) : Nat := sh.count * elemBytes sh.elem

/-! ## The checks at acceptance (R351, R353) -/

/-- A trap of a copy command at its issuer. -/
def copyTrap {α : Type} (e : Env) (cause va : Nat) : M α := trapWith e cause 0 e.active va

/-- Check 1: R26, then 64-byte alignment, for each record in turn. -/
def checkRecords (e : Env) : List Nat → M Unit
  | [] => pure ()
  | va :: vs =>
    if !canonicalVa va then copyTrap e causeAccess va
    else if va % 64 ≠ 0 then copyTrap e causeAlign va
    else checkRecords e vs

/-- A record and its address. -/
structure Named where
  shape : Shape
  va    : Nat

/-- The records of a command; a gather has an index record. -/
structure Records where
  src : Named
  idx : Option Named
  dst : Named

/-- The records in the order of R351 and R353. -/
def Records.all (r : Records) : List Named := r.src :: (r.idx.toList ++ [r.dst])

/-- An index record is rank 1 with ELEM N32. -/
def indexOk (n : Named) : Bool := n.shape.ok && decide (n.shape.rank = 1) && decide (n.shape.elem = 1)

/-- The number of elements to move. -/
def Records.count (r : Records) : Nat := match r.idx with | some n => n.shape.count | none => r.src.shape.count

/-- Check 2: the address of the record at fault. -/
def badForm (r : Records) : Option Nat :=
  if !r.src.shape.ok then some r.src.va
  else if r.idx.any (fun n => !indexOk n) then r.idx.map Named.va
  else if !r.dst.shape.ok then some r.dst.va
  else if r.all.any (fun n => decide (n.shape.count = 0)) then
    (r.all.find? (fun n => decide (n.shape.count = 0))).map Named.va
  else if r.src.shape.elem ≠ r.dst.shape.elem ∨ r.dst.shape.count ≠ r.count then some r.dst.va
  else if 2 ^ 32 < r.dst.shape.size then some r.src.va
  else none

/-- Check 2. -/
def checkForms (e : Env) (r : Records) : M Unit :=
  match badForm r with
  | some va => copyTrap e causeAccess va
  | none => pure ()

/-- BASE and the strides of a tile are multiples of its element size. -/
def Shape.aligned (sh : Shape) : Bool :=
  decide (sh.base.toNat % elemBytes sh.elem = 0) &&
    (sh.stride.take sh.rank).all (fun st => decide (st.toNat % elemBytes sh.elem = 0))

/-- Check 3, of the memory tiles among some records. -/
def checkStrides (e : Env) : List (Nat × Named) → M Unit
  | [] => pure ()
  | (space, n) :: rest =>
    if space = 0 && !n.shape.aligned then copyTrap e causeAlign n.va else checkStrides e rest

/-- Check 4: the first scratch address at or beyond `.spad`. -/
def checkSpad (e : Env) : List (Nat × Named) → M Unit
  | [] => pure ()
  | (space, n) :: rest => do
    let s ← get
    match n.shape.addrs.find? (fun a => decide (spadOf s e.th.launch < a + elemBytes n.shape.elem)) with
    | some a => if space = 1 then copyTrap e causeSpadRange a else checkSpad e rest
    | none => checkSpad e rest

/-- Check 5: the bank of a FIFO or bank space. -/
def bankSpaceOk (s : State) (e : Env) (space : Nat) (sh : Shape) : Bool :=
  let k := getBank s (clusterOf e.th.core) sh.bank
  match space with
  | 2 => decide (sh.base.toNat < 64) && decide (k.mode = .fifo) && decide (k.owner = some e.th.launch)
  | 3 => decide (sh.base.toNat < 2 ^ 23) && decide (k.mode = .scratch) && decide (k.owner = some e.th.launch)
      && sh.inBank.addrs.all (fun a => decide (a + elemBytes sh.elem ≤ Config.bankBytes))
  | _ => true

/-- Check 6: whole entries. -/
def fifoSizeOk (s : State) (e : Env) (space : Nat) (sh : Shape) : Bool :=
  decide (space ≠ 2) || decide (sh.size % (getBank s (clusterOf e.th.core) sh.bank).entryBytes = 0)

/-- Checks 2 to 6. -/
def checkCopy (e : Env) (r : Records) (ssp dsp : Nat) : M Unit := do
  checkForms e r
  let spaced := (ssp, r.src) :: ((r.idx.toList.map (fun n => (0, n))) ++ [(dsp, r.dst)])
  checkStrides e spaced
  checkSpad e spaced
  let s ← get
  if spaced.any (fun p => !bankSpaceOk s e p.1 p.2.shape) then copyTrap e causeAccess 0
  else if spaced.any (fun p => !fifoSizeOk s e p.1 p.2.shape) then copyTrap e causeFifoSize 0
  else pure ()

/-! ## Promises (R318, R319) -/

/-- What is left of a command's estimate. DESIGN CHOICE (log 110): its estimate less the time since its start, and at
least 1. -/
def CopyCmd.left (c : CopyCmd) (now : Nat) : Nat := if c.started then Nat.max 1 (c.startAt + c.est - now) else c.est

/-- The page of an address, by the page table; 64 KiB where there is none. -/
def pageOf (s : State) (cid va : Nat) : Nat × Nat :=
  match Sparse.find? s.contexts cid with
  | some c => (match walk s c va with | .ok (_, lo) => (lo, va / 2 ^ lo) | .error _ => (16, va / 2 ^ 16))
  | none => (16, va / 2 ^ 16)

/-- The pages of some memory tiles that the channel TLB does not hold. DESIGN CHOICE (log 109): a page is resident if the
TLB of any die holds it. -/
def missingPages (s : State) (cid : Nat) (shs : List Shape) : Nat :=
  let pages := ((shs.flatMap Shape.lines).map (fun l => pageOf s cid (l * 128))).eraseDups
  let held (p : Nat × Nat) : Bool := s.tlb.any (fun t => t.cid == cid && t.bits == p.1 && t.page == p.2)
  (pages.filter (fun p => !held p)).length

/-- The banks that a destination tile touches. -/
def destBanks (s : State) (launch key space : Nat) (sh : Shape) : List Nat :=
  match space with
  | 1 => (sh.addrs.flatMap (fun a => (List.range (elemBytes sh.elem)).map (fun i => (scratchPlace s launch key (a + i)).1))).eraseDups
  | 0 => []
  | _ => [sh.bank]

/-- The terms F, X, W and T of a promise, with L. -/
def copyEstimate (s : State) (e : Env) (ssp dsp link : Nat) (r : Records) : Nat :=
  let cl := clusterOf e.th.core
  let f := if ssp = 0 ∨ dsp = 0 ∨ r.idx.isSome then 400 else 60
  let x := (r.dst.shape.size + 127) / 128
  let sleepy (b : Nat) : Bool := decide ((getBank s cl b).pwr = .retention) || decide ((getBank s cl b).pwr = .waking)
  let w := if (destBanks s e.th.launch (scratchKey s e.th) dsp r.dst.shape).any sleepy then 108 else 0
  let known := (if ssp = 0 ∧ r.idx.isNone then [r.src.shape] else []) ++ (r.idx.toList.map Named.shape)
    ++ (if dsp = 0 then [r.dst.shape] else [])
  f + x + w + 540 * missingPages s e.cid known + link

/-- Splits that have been granted room in a copy engine's queue and have not issued yet. -/
def grantedRoom (s : State) (cl : Nat) (self : Nat × Nat) : Nat :=
  (s.threads.flatMap (fun kt => kt.2.splits.filter (fun ks =>
    ks.2.handed.isSome && (ks.2.wait.map Wait.obj) == some (.copyQueue cl) && !((kt.1, ks.1) == self)))).length

/-- The queue has room for a command of an issuer. -/
def copyRoom (s : State) (cl tid sid : Nat) : Bool :=
  let q := (getCluster s cl).copyq
  decide (q.length + grantedRoom s cl (tid, sid) < Config.copyQueue)
    && decide ((q.filter (fun c => c.tid == tid)).length < Config.copyPerIssuer)

/-- A command as it is accepted; one that pops is linked at once (R372). -/
def newCopy (s : State) (e : Env) (key : Nat) (kind : CopyKind) (ssp dsp est promise : Nat) (r : Records) (peers : Nat × Nat) (group op : Nat) : CopyCmd :=
  { kind := kind, tid := e.tid, launch := e.th.launch, key := key, ssp := ssp, dsp := dsp, src := r.src.shape, dst := r.dst.shape,
    index := r.idx.map Named.shape, peers := peers, group := group, op := op, ovf := e.ovf, promise := promise,
    est := est, total := r.dst.shape.count, next := 0, started := false, startAt := 0, moved := false, inbox := [],
    outbox := [], outPoison := false, noted := false,
    since := if ssp = 2 then some s.links else none, room := none, why := none, accepted := s.links }

/-- A command that pops is linked on its bank, and takes what an active bank holds for it (R372). -/
def linkCopy (cl ssp : Nat) (src : Shape) (s : State) : State :=
  if ssp = 2 ∧ (getBank s cl src.bank).pwr = .active then serveBank cl src.bank s else s

/-- A command is accepted: it joins the queue, and its promise goes to the issuer. -/
def acceptCopy (e : Env) (kind : CopyKind) (d : BitVec 8) (ssp dsp link : Nat) (r : Records) (peers : Nat × Nat)
    (group op : Nat) : M Flow := do
  let s ← get
  let cl := clusterOf e.th.core
  let est := copyEstimate s e ssp dsp link r
  let ahead := ((getCluster s cl).copyq.map (fun c => c.left s.chiptime)).foldl (· + ·) 0
  let p := s.chiptime + ahead + est
  act (fun s => due [.copyCommandStart cl] (linkCopy cl ssp r.src.shape { modCluster cl (fun c =>
    { c with copyq := c.copyq ++ [newCopy s e (scratchKey s e.th) kind ssp dsp est p r peers group op] }) s with links := s.links + 1 }))
  emit e (if d = 0xC0#8 then [] else regWrites 0 d p 2) 0
  pure Flow.next

/-- The control word of a command (R348). -/
def copyControl (e : Env) (d : BitVec 8) (collective : Bool) : M Nat :=
  let ctl := if d = 0xC0#8 then 0 else (e.regs.field 0 d).toNat
  if 16 ≤ ctl ∨ (collective ∧ (ctl % 4 = 3 ∨ ctl / 4 = 3)) then illegal e 8 e.active else pure ctl

/-- The shape of the copy instructions: operands, the control word, room in the queue. -/
def copyInstr (e : Env) (i : Instr) (who : List Kind) (d a b : BitVec 8) (collective : Bool) (f : Nat → M Flow) : M Flow := do
  checkOps e who false [⟨d, .scal, 2⟩, ⟨a, .scal, 2⟩, ⟨b, .scal, 2⟩] false
  let ctl ← copyControl e d collective
  let s ← get
  if copyRoom s (clusterOf e.th.core) e.tid e.sid then f ctl
  else throw (.wait (.copyQueue (clusterOf e.th.core)) i)

/-- A record read for a command. -/
def namedShape (e : Env) (va : Nat) : M Named := do
  let sh ← readShape e e.active va
  pure ⟨sh, va⟩

/-- COPY (R350, R351). -/
def execCopy (m : BitVec 1) (d a b : BitVec 8) (s : State) : Host.Outcome State Fault Refusal :=
  issue m (.copy m d a b) (fun e => copyInstr e (.copy m d a b) [.crew, .scout, .cseq] d a b false (fun ctl => do
    checkRecords e [e.addr 0 a 0, e.addr 0 b 0]
    let src ← namedShape e (e.addr 0 a 0)
    let dst ← namedShape e (e.addr 0 b 0)
    let r : Records := ⟨src, none, dst⟩
    checkCopy e r (ctl % 4) (ctl / 4)
    acceptCopy e .copy d (ctl % 4) (ctl / 4) 0 r (0, 0) 0 0)) s

/-- COPYG (R353). -/
def execCopyg (m : BitVec 1) (d a b : BitVec 8) (s : State) : Host.Outcome State Fault Refusal :=
  issue m (.copyg m d a b) (fun e => copyInstr e (.copyg m d a b) [.crew, .scout, .cseq] d a b false (fun ctl => do
    checkRecords e [e.addr 0 a 0, e.addr 0 b 0, e.addr 0 b 64]
    let src ← namedShape e (e.addr 0 a 0)
    let idx ← namedShape e (e.addr 0 b 0)
    let dst ← namedShape e (e.addr 0 b 64)
    let r : Records := ⟨src, some idx, dst⟩
    checkCopy e r (ctl % 4) (ctl / 4)
    acceptCopy e .gather d (ctl % 4) (ctl / 4) 0 r (0, 0) 0 0)) s

/-! ## COLLECT (R354, R355, R423) -/

/-- The shadow region of a context that holds a whole tile. -/
def tileRegion (s : State) (cid : Nat) (sh : Shape) : Option Nat :=
  match Sparse.find? s.contexts cid with
  | none => none
  | some c =>
    match sh.addrs with
    | [] => none
    | a :: rest =>
      let r := (shadowRegion s c a).map Prod.fst
      if r.isSome ∧ (a :: rest).all (fun x => (shadowRegion s c x).map Prod.fst = r ∧
          (shadowRegion s c (x + elemBytes sh.elem - 1)).map Prod.fst = r) then r else none

/-- A group's device count and this device's rank (R423). -/
def groupEntry (s : State) (cid g : Nat) : Nat × Nat :=
  match Sparse.find? s.contexts cid with
  | some c => (tableNat s c (c.groups + 32 * g) 4, tableNat s c (c.groups + 32 * g + 4) 4)
  | none => (0, 0)

/-- The other devices of a group, by the array of its entry (R423). -/
def groupDevices (s : State) (cid g : Nat) : List Nat :=
  match Sparse.find? s.contexts cid with
  | some c =>
    let (n, rank) := groupEntry s cid g
    let a := tableNat s c (c.groups + 32 * g + 8) 8
    ((List.range (Nat.min n 32768)).filter (· != rank)).map (fun i => tableNat s c (a + 4 * i) 4)
  | none => []

/-- The ports of some devices' routes that retrain. -/
def retraining (s : State) (devices : List Nat) : Nat :=
  (s.ports.filter (fun p => p.2.training && devices.any (fun d => bit (routeMask s d) p.1))).length

/-- The link term of R423 for a group of n devices. -/
def linkTerm (s : State) (devices : List Nat) (n op bytes : Nat) : Nat :=
  (if op = 0 then (n - 1) * (2700 + (bytes + 73) / 74) else 2 * (n - 1) * (2700 + (bytes + 74 * n - 1) / (74 * n)))
    + 270000 * retraining s devices

/-- The ELEM codes that a reduction takes. -/
def reduceElemOk (c : Nat) : Bool := decide (c ≤ 4)

/-- The descriptor of a COLLECT breaks R354. -/
def collectBad (s : State) (e : Env) (ctl : Nat) (bs : List Byte) (src dst : Shape) : Bool :=
  let op := recField bs 12 1
  let n := (groupEntry s e.cid (recField bs 8 4)).1
  decide (ctl ≠ 0) || decide (4 ≤ op) || decide (recField bs 13 51 ≠ 0) || (tileRegion s e.cid dst).isNone
    || decide (n < 2) || decide (32768 < n) || decide (dst.count ≠ if op = 0 then n * src.count else src.count)
    || (decide (op ≠ 0) && !reduceElemOk src.elem)

/-- Check 2 of R351 for a COLLECT: its counts are the descriptor's concern. -/
def checkCollectForms (e : Env) (src dst : Named) : M Unit :=
  let like : Shape := if dst.shape.ok && decide (dst.shape.count ≠ 0) then { src.shape with elem := dst.shape.elem } else dst.shape
  checkForms e ⟨src, none, ⟨like, dst.va⟩⟩

/-- COLLECT: its descriptor is no shape record, and is read past the record cache (R338). -/
def execCollect (m : BitVec 1) (d a b : BitVec 8) (s : State) : Host.Outcome State Fault Refusal :=
  issue m (.collect m d a b) (fun e => copyInstr e (.collect m d a b) [.crew, .cseq] d a b true (fun ctl => do
    let dva := e.addr 0 b 0
    checkRecords e [e.addr 0 a 0, dva]
    let bs ← oneRead e e.active dva (recordSource e.th.core e.cid dva)
    checkRecords e [recField bs 0 8]
    let src ← namedShape e (e.addr 0 a 0)
    let dst ← namedShape e (recField bs 0 8)
    checkCollectForms e src dst
    checkStrides e [(0, src), (0, dst)]
    let s ← get
    if collectBad s e ctl bs src.shape dst.shape then copyTrap e causeAccess dva
    else
      let g := recField bs 8 4
      let peers := groupEntry s e.cid g
      acceptCopy e .collect d 0 0 (linkTerm s (groupDevices s e.cid g) peers.1 (recField bs 12 1) src.shape.size) ⟨src, none, dst⟩ peers g
        (recField bs 12 1))) s

/-! ## Moving elements (R350, R352, R353, R355) -/

/-- Why a command stops before its end: something that an event will change, a FIFO bank without room, or a page
fault. -/
inductive CopyStop where
  | blocked
  | fifo
  | fault (va why : Nat) (acc : Acc)
deriving DecidableEq, Repr

/-- The engine's computations. -/
abbrev C := EStateM CopyStop State

/-- Apply a state change. -/
def cact (f : State → State) : C Unit := fun s => .ok () (f s)

/-- Change the command at the head of a cluster's queue. -/
def modCopy (cl : Nat) (f : CopyCmd → CopyCmd) (s : State) : State :=
  modCluster cl (fun c => { c with copyq := match c.copyq with | q :: qs => f q :: qs | [] => [] }) s

/-- A failed access of the engine. -/
def copyFault {α : Type} (va why : Nat) (acc : Acc) : C α :=
  if why = whyHandler then throw .blocked else throw (.fault va (Nat.min why 3) acc)

/-- A bank is active, or the engine wakes it and waits. -/
def copyBank (cl b : Nat) : C Unit := fun s =>
  match bankActive cl b s with
  | (true, s) => .ok () s
  | (false, s) => .error .blocked s

/-- The places of the bytes of an element in the scratch of the command that runs. -/
def scratchBytes (s : State) (launch cl a n : Nat) : List (Nat × Nat) :=
  let key := match (getCluster s cl).copyq with | c :: _ => c.key | [] => cl
  (List.range n).map (fun i => scratchPlace s launch key (a + i))

/-- Every bank of some places is active. -/
def copyBanks (cl : Nat) : List (Nat × Nat) → C Unit
  | [] => pure ()
  | p :: ps => do
    copyBank cl p.1
    copyBanks cl ps

/-- The command at the head holds `n` entries, or waits for them where it is linked: an active bank gives what it holds
to its waiters in turn. -/
def fillInbox (cl b n : Nat) : C Unit := do
  let held (s : State) : Bool := match (getCluster s cl).copyq with | c :: _ => decide (n ≤ c.inbox.length) | [] => false
  let s ← get
  if held s then pure ()
  else do
    copyBank cl b
    cact (serveBank cl b)
    let s ← get
    if held s then pure () else throw .blocked

/-- The bytes of a slice of popped entries, and whether one of them is poisoned. -/
def inboxSlice (xs : List Entry) (eb lo n : Nat) : List Byte × Bool :=
  (((xs.flatMap Entry.bytes).drop lo).take n,
   (List.range xs.length).any (fun i => decide (i * eb < lo + n) && decide (lo < i * eb + eb) &&
     (match xs[i]? with | some x => x.poison | none => false)))

/-- An element on its way: its bytes, its poison, and the scratch addresses of the unwritten words among them. -/
structure CopyElem where
  bytes     : List Byte
  poison    : Bool
  unwritten : List Nat := []

/-- A flip of an address's page holds back a command: one accepted after the flip's first step (R261, R262). -/
def flipHolds (s : State) (c : CopyCmd) (cid va : Nat) : Bool :=
  s.flips.any (fun f => f.cid == cid && f.page == va / 2 ^ f.bits && decide (f.since ≤ c.accepted))

/-- The requester of a command's accesses: a command accepted before a flip goes on under device bias. -/
def copyHome (s : State) (cid va : Nat) : Asker := if flipping s cid va then .device else .home Config.noMark

/-- The command at the head waits while a flip holds it back. -/
def checkFlip (cl cid va : Nat) : C Unit := do
  let s ← get
  match (getCluster s cl).copyq with
  | c :: _ => if flipHolds s c cid va then throw .blocked
  | [] => pure ()

/-- Read linear element j of a tile in a space. -/
def copyRead (cl cid launch space : Nat) (sh : Shape) (j : Nat) : C CopyElem := do
  let n := elemBytes sh.elem
  let a := placeOf space sh j
  match space with
  | 0 => do
    checkFlip cl cid a
    let s ← get
    match l2ReadFor (copyHome s cid a) (dieOfCluster cl) cid a n s with
    | (.ok g, s) => do
      set s
      pure ⟨g.bytes, g.poison, []⟩
    | (.error why, s) => do
      set s
      copyFault a why .read
  | 1 => do
    let s ← get
    let ps := scratchBytes s launch cl a n
    copyBanks cl ps
    pure ⟨ps.map (fun p => (getBank s cl p.1).readByte p.2), false,
      (((List.range n).zip ps).filterMap (fun ip =>
        if (getBank s cl ip.2.1).valid4 ip.2.2 then none else some (Nat.max a ((a + ip.1) / 4 * 4)))).eraseDups⟩
  | 2 => do
    let s ← get
    let eb := (getBank s cl sh.bank).entryBytes
    let need := ((j + 1) * n + eb - 1) / eb
    fillInbox cl sh.bank need
    let s ← get
    match (getCluster s cl).copyq with
    | c :: _ => do
      let x := inboxSlice c.inbox eb (j * n) n
      pure ⟨x.1, x.2, []⟩
    | [] => throw .blocked
  | _ => do
    copyBank cl sh.bank
    let s ← get
    pure ⟨(List.range n).map (fun i => (getBank s cl sh.bank).readByte (a + i)), false, []⟩

/-- The granules of HBM that hold a byte: those of its block in a format window. -/
def granulesOf (s : State) (pa : Nat) : List Nat :=
  match windowAt s (pa / 128 * 128) with
  | some (w, off) => windowGranules w (off / 16 + pa % 128 / 16)
  | none => [pa / 32]

/-- A byte of HBM lies in a poisoned granule from now on. -/
def spoilPhys (pa : Nat) (s : State) : State :=
  (granulesOf s pa).foldl (fun s g =>
    { s with poison := Sparse.set false s.poison g true, rewrites := Sparse.erase s.rewrites g }) s

/-- A granule of a line becomes poisoned: words written before it are no part of what would make it clean. -/
def L2Line.spoil (l : L2Line) (g : Nat) : L2Line :=
  { l with poison := setBit l.poison g, cover := l.cover - bits l.cover (4 * g) 4 * 2 ^ (4 * g) }

/-- A granule of memory becomes poisoned (R352): in the inactive backing of a shadow region, in the line, or in HBM
where no line is kept. -/
def poisonAt (cid va : Nat) (s : State) : State :=
  match (Sparse.find? s.contexts cid).bind (fun c => inactivePa s c va) with
  | some pa => spoilPhys pa s
  | none =>
    if (Sparse.find? s.l2 (lineKey cid (va / 128))).isSome then
      modLine (lineKey cid (va / 128)) (fun l => l.spoil (va % 128 / 32)) s
    else
      match translate s cid va with
      | (.ok x, s) => spoilPhys x.pa s
      | (.error _, s) => s

/-- An address lies in a region with a PUBLISH pending: the write waits (R324). -/
def publishing (s : State) (cid va : Nat) : Bool :=
  match Sparse.find? s.contexts cid with
  | some c => (match shadowRegion s c va with | some (r, _) => c.publish.contains r | none => false)
  | none => false

/-- The unit number of a cluster's copy engine in events. -/
def copySidx (cl : Nat) : Nat := 512 + 16 * dieOfCluster cl + clusterIndex cl

/-- Poison reaches words of a bank: their valid bits go, with an event (R352). -/
def spoilBank (cl cid launch b off n : Nat) (s : State) : State :=
  post cid 1 (copySidx cl) 9 (identOf s launch) 0 b 0 (modBank cl b (fun k => k.spoil off n) s)

/-- Write the bytes of an element to places of scratch or of a bank. -/
def putPlaces (cl : Nat) (ps : List (Nat × Nat)) (bs : List Byte) (s : State) : State :=
  (ps.zip bs).foldl (fun s p => modBank cl p.1.1 (fun k => k.store p.1.2 [p.2]) s) s

/-- Write linear element i of a tile in a space. -/
def copyWrite (cl cid launch space : Nat) (sh : Shape) (i : Nat) (bs : List Byte) (poison : Bool) : C Unit := do
  let n := elemBytes sh.elem
  let a := placeOf space sh i
  match space with
  | 0 => do
    checkFlip cl cid a
    let s ← get
    if publishing s cid a then throw .blocked
    else
      match engineWriteFor (copyHome s cid a) (dieOfCluster cl) cid a bs s with
      | (.ok _, s) => set (if poison then poisonAt cid a s else s)
      | (.error why, s) => do
        set s
        copyFault a why .write
  | 2 => do
    copyBank cl sh.bank
    let s ← get
    let k := getBank s cl sh.bank
    match (getCluster s cl).copyq with
    | [] => throw .blocked
    | c :: _ =>
      if c.outbox.length + n < k.entryBytes then
        cact (modCopy cl (fun c => { c with outbox := c.outbox ++ bs, outPoison := c.outPoison || poison }))
      else if k.fifo.length < k.capacity then
        cact (fun s => giveEntry cl sh.bank { bytes := c.outbox ++ bs, poison := c.outPoison || poison } false
          (modCopy cl (fun c => { c with outbox := [], outPoison := false, room := none }) s))
      else throw .fifo
  | _ => do
    let s ← get
    let ps := if space = 1 then scratchBytes s launch cl a n else (List.range n).map (fun k => (sh.bank, a + k))
    copyBanks cl ps
    let first := ps.headD (0, 0)
    cact (if poison then spoilBank cl cid launch first.1 first.2 n else putPlaces cl ps bs)

/-- The number of an issuer in an event's ARG0. -/
def issuerCode (tid : Nat) : Nat := if 2 ^ 60 ≤ tid then 2 ^ 17 + (tid - 2 ^ 60) else tid % 2 ^ 17

/-- A gather index out of range: zero bytes, and one event of the command. -/
def noteIndex (cl cid : Nat) (c : CopyCmd) (s : State) : State :=
  if c.noted then s
  else post cid 1 (copySidx cl) 8 (identOf s c.launch) 0 (issuerCode c.tid) 0 (modCopy cl (fun c => { c with noted := true }) s)

/-- Bytes that another device of the group supplies: a free value. -/
def peerBytes (n : Nat) : C (List Byte) := fun s =>
  .ok (leBytes n (Config.freeBits s.fresh).toNat) { s with fresh := s.fresh + 1 }

/-- The elements of the other devices. -/
def peerElems (n : Nat) : Nat → C (List Nat)
  | 0 => pure []
  | k + 1 => do
    let x ← peerBytes n
    let xs ← peerElems n k
    pure (leNat x :: xs)

/-- A code below the smallest normal magnitude becomes zero of its sign. -/
def FloatFmt.flush (f : FloatFmt) (x : Nat) : Nat :=
  match decodeFloat f true x with
  | .fin neg 0 _ => f.zero neg
  | _ => x

/-- The reduction of some float elements: the exact sum rounded once toward zero, or minima and maxima; a result below
the smallest normal magnitude is zero of its sign (R355). -/
def reduceFloat (f : FloatFmt) (ovf : Bool) (op : Nat) (xs : List Nat) : Nat :=
  if op = 1 then
    match (EVal.dot (xs.map (fun x => ((EVal.ofFloat f x).1, EVal.num ⟨1, 0⟩)))).1 with
    | .nan => f.nan
    | .inf neg => f.inf neg
    | .num x => (roundDyadic f { rnd := 1, ftz := true, ovf := some ovf } (decide (x.m < 0)) x).1
  else
    match xs with
    | [] => 0
    | x :: ys => f.flush (ys.foldl (fun r y => (fMinMax f (decide (op = 3)) (decodeFloat f false r) (decodeFloat f false y)).1) x)

/-- The reduction of some integer elements. -/
def reduceInt (signed : Bool) (op : Nat) (xs : List Nat) : Nat :=
  match op, xs with
  | 1, _ => xs.foldl (· + ·) 0 % 2 ^ 32
  | _, [] => 0
  | _, x :: ys => ys.foldl (fun r y =>
      if decide (intVal signed 32 r ≤ intVal signed 32 y) = decide (op = 3) then y else r) x

/-- The reduced element of a code. -/
def reduceCode (elem : Nat) (ovf : Bool) (op : Nat) (xs : List Nat) : Nat :=
  if elem < 2 then reduceInt (decide (elem = 0)) op xs else reduceFloat (floatFmt elem) ovf op xs

/-- Element i of a command's destination. -/
def copyElement (cl cid : Nat) (c : CopyCmd) (i : Nat) : C CopyElem := do
  let n := elemBytes c.dst.elem
  match c.kind with
  | .copy => copyRead cl cid c.launch c.ssp c.src i
  | .gather => do
    let ix ← copyRead cl cid c.launch 0 (c.index.getD c.src) i
    if ix.poison then pure ⟨List.replicate n 0, true, []⟩
    else if c.src.count ≤ leNat ix.bytes then do
      cact (noteIndex cl cid c)
      pure ⟨List.replicate n 0, false, []⟩
    else copyRead cl cid c.launch c.ssp c.src (leNat ix.bytes)
  | .collect =>
    if c.op = 0 then
      (if i / c.src.count = c.peers.2 then copyRead cl cid c.launch 0 c.src (i % c.src.count)
       else do
        let x ← peerBytes n
        pure ⟨x, false, []⟩)
    else do
      let own ← copyRead cl cid c.launch 0 c.src i
      let others ← peerElems n (c.peers.1 - 1)
      pure ⟨leBytes n (reduceCode c.src.elem c.ovf c.op (leNat own.bytes :: others)), own.poison, []⟩

/-- Move one element; once it has moved, the reads of unwritten scratch words are logged (R231, R350). -/
def copyStep (cl cid : Nat) (c : CopyCmd) : C Unit := do
  let x ← copyElement cl cid c c.next
  copyWrite cl cid c.launch c.dsp c.dst c.next x.bytes x.poison
  cact (fun s => x.unwritten.foldl (fun s a => logUnwritten c.launch a s) s)
  cact (modCopy cl (fun c => { c with next := c.next + 1 }))

/-! ## The engine's events -/

/-- The sequencers that wait for their commands may have ended. -/
def pokeSequencers (s : State) : State :=
  due (s.cores.flatMap (fun kc =>
    (if kc.2.mseq.ending then [Instr.sequencerEndComplete kc.1 0] else [])
    ++ (if kc.2.cseq.ending then [Instr.sequencerEndComplete kc.1 1] else []))) s

/-- The command at the head has ended: room, waiting programs, sequencers and the launch are examined. -/
def finishCopy (cl : Nat) (s : State) : State :=
  match (getCluster s cl).copyq with
  | [] => s
  | c :: _ =>
    let s := modCluster cl (fun k => { k with copyq := k.copyq.drop 1 }) s
    let s := due [.copyCommandAccept cl, .copyCommandStart cl] s
    let s := wakeAll (fun o => match o with | .commands _ => true | _ => false) s
    checkLaunch c.launch (pokeSequencers s)

/-- The command at the head is abandoned: it counts as complete, with an event (R352, R355). -/
def abandonCopy (cl type arg : Nat) (s : State) : State :=
  match (getCluster s cl).copyq with
  | [] => s
  | c :: _ => finishCopy cl (post (cidOf s c.launch) 1 (copySidx cl) type (identOf s c.launch) 0 arg 0 s)

/-- A page fault of a command goes to the fault queue, and the command pauses. -/
def pauseCopy (cl cid : Nat) (c : CopyCmd) (va why : Nat) (acc : Acc) (s : State) : State :=
  let (tok, s) := takeToken cid s
  let p : Parked := { token := tok, va := BitVec.ofNat 64 va, mask := 1, acc := acc, why := why, verdict := none }
  sendFault cid { va := p.va, mask := 1, src := 4, acc := accCode acc, why := why, token := tok,
                  launch := identOf s c.launch, who := 0 } (modCopy cl (fun c => { c with why := some p }) s)

/-- Every element has moved: the command completes within what is left of its estimate. -/
def copyMoved (cl : Nat) (s : State) : State :=
  match (getCluster s cl).copyq with
  | [] => s
  | c :: _ =>
    let (n, s) := freeDelay s (c.left s.chiptime)
    after n (.copyCommandComplete cl) (modCopy cl (fun c => { c with moved := true }) s)

/-- The command at the head moves its elements in ascending order until it stops. -/
def copyRun (cl : Nat) : Nat → State → State
  | 0, s => s
  | fuel + 1, s =>
    match (getCluster s cl).copyq with
    | [] => s
    | c :: _ =>
      let cid := cidOf s c.launch
      if c.total ≤ c.next then copyMoved cl s
      else
        match copyStep cl cid c s with
        | .ok _ s => copyRun cl fuel s
        | .error .blocked s => s
        | .error .fifo s =>
          if c.room.isSome then s else modCopy cl (fun c => { c with room := some s.links }) { s with links := s.links + 1 }
        | .error (.fault va why acc) s => pauseCopy cl cid c va why acc s

/-- The command at the head starts, or goes on where it stopped (R319, R350). Whether the partners of a
collective agree is their affair: a free truth value. -/
def continueCopy (cl : Nat) (c : CopyCmd) (s : State) : State :=
  if c.started then copyRun cl (c.total - c.next + 1) s
  else
    let s := modCopy cl (fun c => { c with started := true, startAt := s.chiptime }) s
    let (differ, s) := (if c.kind = .collect then Config.freeBool s.fresh else false, { s with fresh := s.fresh + 1 })
    if differ then abandonCopy cl 14 c.group s else copyRun cl (c.total - c.next + 1) s

/-- COPY_COMMAND_START. -/
def execCopyCommandStart (cl : Nat) (s : State) : Host.Outcome State Fault Refusal :=
  .next (match (getCluster s cl).copyq with
    | [] => s
    | c :: _ => if c.moved ∨ c.why.isSome then s else continueCopy cl c s)

/-- COPY_COMMAND_COMPLETE (R320). -/
def execCopyCommandComplete (cl : Nat) (s : State) : Host.Outcome State Fault Refusal :=
  .next (match (getCluster s cl).copyq with
    | [] => s
    | c :: _ => if c.moved then finishCopy cl s else s)

/-- COPY_COMMAND_ACCEPT (R319): waiting commands are accepted, oldest first, while there is room. -/
def execCopyCommandAccept (cl : Nat) (s : State) : Host.Outcome State Fault Refusal :=
  .next ((byAge (waiters s (fun o => o == .copyQueue cl))).foldl (fun s w =>
    if copyRoom s cl w.1 w.2.1 then hand w.1 w.2.1 .again s else s) s)

/-! ## WAITT (R321, R356, R357) -/

/-- What is left of the incomplete commands of an issuer with a promise at or below a time. -/
def lateCommands (s : State) (tid now : Nat) : List Nat :=
  s.clusters.flatMap (fun kc => (kc.2.copyq.filter (fun c => c.tid == tid && decide (c.promise ≤ now))).map (fun c => c.left now))

/-- The time of a WAITT: its operand, or PROMISE after its own PROMISE_MISS. -/
def waitTime (e : Env) (a : BitVec 8) : Nat :=
  if e.sp.progress.count = 1 then e.regs.promise.toNat else e.addr 0 a 0

/-- The wake of a crew's WAITT: PROMISE_MISS with the greatest revised estimate. -/
def wakeCrew (e : Env) : M Flow := do
  let s ← get
  match lateCommands s e.tid s.chiptime with
  | [] => pure Flow.nextClose
  | x :: xs => do
    let p := s.chiptime + Nat.max 1 (xs.foldl Nat.max x)
    act (modThread e.tid (fun t => { t with regs := { t.regs with promise := BitVec.ofNat 64 p } }))
    act (modSplit e.tid e.sid (fun sp => { sp with progress := { Progress.none with count := 1 } }))
    trapWith e causePromise 0 e.active 0

/-- The wake of a scout's or a sequencer's WAITT: it keeps waiting for those commands. -/
def wakeProgram (e : Env) (i : Instr) : M Flow := do
  let s ← get
  if (lateCommands s e.tid s.chiptime).isEmpty then pure Flow.nextClose else throw (.wait (.commands s.chiptime) i)

/-- WAITT. -/
def execWaitt (m : BitVec 1) (a : BitVec 8) (s : State) : Host.Outcome State Fault Refusal :=
  issue m (.waitt m a) (fun e => do
    checkOps e anyKind false [⟨a, .scal, 2⟩] false
    let t := waitTime e a
    let e ← closeFirst e
    let s ← get
    if e.sp.handed.isNone && decide (chipNow s < t) then do
      act (after (t - chipNow s) (.waittWake e.tid e.sid))
      throw (.wait (.sleep (s.chiptime + (t - chipNow s))) (.waitt m a))
    else if e.th.kind = .crew then wakeCrew e else wakeProgram e (.waitt m a)) s

/-- WAITT_WAKE. -/
def execWaittWake (tid split : Nat) (s : State) : Host.Outcome State Fault Refusal :=
  .next (match (getSplit s tid split).bind (fun sp => sp.wait) with
    | some w =>
      (match w.obj with
       | .sleep t => if t ≤ s.chiptime then hand tid split .go s else s
       | _ => s)
    | none => s)

/-! ## PUBLISH (R313, R324, R361) -/

/-- PUBLISH: the region is checked with the registers of the run's begin, and then the run closes (R361). -/
def execPublish (m : BitVec 1) (a : BitVec 8) (s : State) : Host.Outcome State Fault Refusal :=
  issue m (.publish m a) (fun e => do
    checkOps e [.crew, .cseq] false [⟨a, .scal, 1⟩] false
    if e.sp.handed.isSome then do
      let e ← closeFirst e
      act (acquire e.th.core e.cid 2)
      pure Flow.nextClose
    else do
      let r := (e.regs.field 0 a).toNat
      let s ← get
      let base := match Sparse.find? s.contexts e.cid with | some c => (shadowEntry s c r).1 | none => 0
      if 64 ≤ r then illegal e 8 e.active
      else if base = 0 then trapWith e causeAccess 0 e.active 0
      else do
        let e ← closeFirst e
        act (release e.th.core 2)
        act (modContext e.cid (fun c => { c with publish := c.publish ++ [r] }))
        let n ← ask (fun s => freeNat s)
        act (after n (.publishSwap e.cid r))
        throw (.wait (.publish e.cid r) (.publish m a))) s

/-- A line of the L2 level lies in a region. -/
def inRegion (s : State) (c : Context) (r : Nat) (l : L2Line) : Bool :=
  l.shadow && decide ((shadowRegion s c (l.line * 128)).map Prod.fst = some r)

/-- Poisoned granules of the backing that a swap shows, of which only a part has been written: that part was dropped
(R387). -/
def settleBacking (cid : Nat) (c : Context) (region : Nat) (s : State) : State :=
  match shadowEntry s c region with
  | (_, size, p0, p1) =>
    let lo := if Sparse.get false c.selector region then p0 else p1
    let part := (s.rewrites.map Prod.fst).filter (fun g => decide (lo ≤ 32 * g) && decide (32 * g < lo + size))
    part.foldl (fun s g => dropPart cid g { s with rewrites := Sparse.erase s.rewrites g }) s

/-- The physical base and the size of the backing that a swap makes active. -/
def newBacking (s : State) (c : Context) (region : Nat) : Nat × Nat :=
  match shadowEntry s c region with
  | (_, size, p0, p1) => (if Sparse.get false c.selector region then p0 else p1, size)

/-- PUBLISH_SWAP: the selector flips and the region's L2 lines go in one step; the oldest PUBLISH ends,
at once or with its mirror, and writes that waited go on. -/
def execPublishSwap (cid region : Nat) (s : State) : Host.Outcome State Fault Refusal :=
  .next (match Sparse.find? s.contexts cid with
    | none => s
    | some c =>
      if !c.publish.contains region then s
      else
        let s := settleBacking cid c region s
        let gone := s.l2.filter (fun kl => kl.2.cid == cid && inRegion s c region kl.2)
        let s1 := gone.foldl (fun s kl => kl.2.copies.foldl (fun s d => specHit d.1 cid kl.2.line s) s) s
        let s1 := { s1 with l2 := s1.l2.filter (fun kl => !(kl.2.cid == cid && inRegion s c region kl.2)),
                            revmap := s1.revmap.filter (fun e => !(gone.any (fun kl => kl.1 == e.2))) }
        let s1 := modContext cid (fun c => { c with
          selector := Sparse.set false c.selector region (!(Sparse.get false c.selector region))
          publish := c.publish.erase region }) s1
        let s1 := finishPublish cid region c (newBacking s c region).1 (newBacking s c region).2 s1
        due (s1.clusters.filterMap (fun kc => if kc.2.copyq.isEmpty then none else some (.copyCommandStart kc.1)) ++
          s1.cores.flatMap (fun kc => if kc.2.ops.isEmpty then [] else [Instr.drainStart kc.1])) s1)

end Sys2Proof.Machine
end

