-- ==== Sys2Proof/Machine/Sequencers.lean ====
section
/-! DEFINITION. The sequencers of a core: FORK and RDV with their rendezvous latches (R175, R332 to R334, R345 to
R347, R358 to R360), and the end of a sequencer. -/

namespace Sys2Proof.Machine

/-! ## Programs and owners -/

/-- A thread at the start of its program (R162, R176, R332). -/
def Thread.begin (kind : Kind) (launch crewid core homenum width vregs : Nat) (circ : Word) (now : Nat) (regs : Regs) (pc : Nat) :
    Thread :=
  { kind := kind, launch := launch, crewid := crewid, width := width, vregs := vregs, core := core, homenum := homenum,
    circ := circ, regs := regs, splits := [(0, Split.start (BitVec.ofNat 64 pc) (maskOf (List.range width)))], fragments := [],
    groups := [], nextGroup := 0, cursor := 0, requests := [], resumes := [], tasks := [], arrivals := [], handler := none,
    place := .resident, slot := 0, placedAt := now, leaving := false, thermal := false, bound := false }

/-- A crew's words are ganged (R175, R359). -/
def Env.ganged (e : Env) : Bool := decide (e.th.kind = .crew) && decide (gangSize e.regs.gang ≠ 0)

/-- The owner that an issuer stands for (R333). -/
def Env.owner (e : Env) (s : State) : Owner :=
  if e.th.kind = .scout then .share e.th.launch (e.th.share s)
  else if e.ganged then .gang e.th.launch (gangKey e.regs.gang)
  else .crew e.tid

/-- Wait in the gang's latch; the latch is examined at once. -/
def latchWait {α : Type} (e : Env) (i : Instr) : M α := do
  act (wake e.tid e.sid)
  waitOn e (.latch e.th.core e.th.launch (gangKey e.regs.gang)) i

/-! ## FORK (R358, R359) -/

/-- Both sequencers of a core that a word names. -/
def seqNamed (a b : BitVec 8) : List Nat := (if a ≠ 0xC0#8 then [0] else []) ++ (if b ≠ 0xC0#8 then [1] else [])

/-- The registers with which a sequencer starts. -/
def seqRegs (block : DWord) (xmode : Word) : Regs :=
  { Regs.start with
    s := Sparse.set 0 (Sparse.set 0 [] 2 (block.setWidth 32)) 3 ((block >>> 32).setWidth 32)
    xmode := xmode }

/-- A sequencer starts at its entry for an owner. -/
def startSeq (e : Env) (o : Owner) (block : DWord) (xmode shbank : Word) (which entry : Nat) (s : State) : State :=
  let tid := seqTid e.th.core which
  let kind : Kind := if which = 0 then .mseq else .cseq
  let t := Thread.begin kind e.th.launch e.th.crewid e.th.core e.th.homenum 1 0 0xFFFFFFFF s.chiptime (seqRegs block xmode) entry
  let q : Seq := { owner := some o, tid := some tid, ending := false, result := 0, endedAt := none, shbank := shbank,
                   trap := TrapRegs.start }
  wakeAll (fun w => match w with | .sequencers c _ => c == e.th.core | _ => false)
    (modCore e.th.core (fun c => c.setSeq which q) { s with threads := Sparse.put s.threads tid t })

/-- The addresses that FORK checks: the entries that it names, and the block. -/
def forkEntries (e : Env) (a b : BitVec 8) : List Nat :=
  (if a ≠ 0xC0#8 then [e.addr 0 a 0] else []) ++ (if b ≠ 0xC0#8 then [e.addr 0 b 0] else [])

/-- A sequencer runs, or ends in this cycle: a FORK of that cycle still meets it (R344). -/
def Seq.busy (q : Seq) (s : State) : Bool := q.isRunning s || decide (q.endedAt = some s.chiptime)

/-- The effect of FORK for an owner (R358): what a latch applies once (R359). -/
def forkEffect (e : Env) (d a b : BitVec 8) : M Unit := do
  let block := e.addr 0 d 0
  let entries := forkEntries e a b
  if a = 0xC0#8 ∧ b = 0xC0#8 then illegal e 8 e.active
  match (entries ++ [block]).find? (fun x => !canonicalVa x) with
  | some x => trapWith e causeAccess 0 e.active x
  | none => do
    if entries.any (fun x => decide (x % 4 ≠ 0)) then trapWith e causeAlign 0 e.active 0
    else if block % 8 ≠ 0 then trapWith e causeAlign 0 e.active block
    else do
      let s ← get
      if (seqNamed a b).any (fun w => ((getCore s e.th.core).seq w).busy s) then
        trapWith e causeEngineBusy 0 e.active 0
      else do
        act (release e.th.core 2)
        let bs ← (if a ≠ 0xC0#8 then oneRead e e.active block (plainRead e.th.core e.cid block 8 0) else pure [])
        let xmode := BitVec.ofNat 32 (recField bs 0 4)
        let shbank := BitVec.ofNat 32 (recField bs 4 4)
        let s ← get
        let o := e.owner s
        act (fun s => (seqNamed a b).foldl (fun s w =>
          startSeq e o (BitVec.ofNat 64 block) xmode shbank w (e.addr 0 (if w = 0 then a else b) 0) s) s)

/-- The checks of FORK on the issuer's own operands: R345's and R12's (R359). -/
def forkChecks (e : Env) (d a b : BitVec 8) : M Unit :=
  checkOps e [.crew, .scout] false [⟨d, .scal, 2⟩, ⟨a, .scal, 2⟩, ⟨b, .scal, 2⟩] false

/-- FORK. -/
def execFork (m : BitVec 1) (d a b : BitVec 8) (s : State) : Host.Outcome State Fault Refusal :=
  issue m (.fork m d a b) (fun e => do
    forkChecks e d a b
    if e.sp.handed.isSome then pure Flow.next
    else if e.ganged then latchWait e (.fork m d a b)
    else do
      forkEffect e d a b
      pure Flow.next) s

/-! ## RDV (R360) -/

/-- The sequencers that FN names. -/
def rdvNamed (f : BitVec 2) : List Nat := (List.range 2).filter (fun w => f.getLsbD w)

/-- A sequencer is an owner's. -/
def Seq.isFor (q : Seq) (o : Owner) : Bool := decide (q.owner = some o)

/-- A named sequencer still runs for the owner. -/
def rdvBusy (s : State) (core : Nat) (o : Owner) (f : BitVec 2) : Bool :=
  (rdvNamed f).any (fun w => ((getCore s core).seq w).isFor o && ((getCore s core).seq w).isRunning s)

/-- The result byte of a named sequencer. -/
def rdvByte (s : State) (core : Nat) (o : Owner) (w : Nat) : Nat :=
  let q := (getCore s core).seq w
  if q.isFor o then q.result % 256 else 255

/-- The flags of the matrix sequencer, when it is named and the owner's. -/
def rdvFlags (s : State) (core : Nat) (o : Owner) (f : BitVec 2) : Word :=
  let q := (getCore s core).mseq
  if f.getLsbD 0 && q.isFor o then
    (match q.tid.bind (Sparse.find? s.threads) with | some t => t.regs.flags | none => 0)
  else 0

/-- The result of an RDV, and the state in which the sequencers that it observed are out of ownership. -/
def rdvTake (s : State) (core : Nat) (o : Owner) (f : BitVec 2) : Word × Word × State :=
  let x := (rdvNamed f).foldl (fun x w => x + rdvByte s core o w * 256 ^ w) 0
  (BitVec.ofNat 32 x, rdvFlags s core o f,
   (rdvNamed f).foldl (fun s w => modCore core (fun c =>
     if (c.seq w).isFor o then c.setSeq w { c.seq w with owner := none } else c) s) s)

/-- The end of an RDV: D, the flags, the acquire. -/
def rdvEnd (e : Env) (d : BitVec 8) (x flags : Word) : M Flow := do
  emit e [regWrite 0 d x.toNat] flags
  act (acquire e.th.core e.cid 2)
  pure Flow.nextClose

/-- RDV. -/
def execRdv (m : BitVec 1) (d : BitVec 8) (f : BitVec 2) (s : State) : Host.Outcome State Fault Refusal :=
  issue m (.rdv m d f) (fun e => closing e [.crew, .scout] false [⟨d, .scal, 1⟩] (fun e => do
    match e.sp.handed with
    | some (.result x fl) => rdvEnd e d x fl
    | _ =>
      if e.ganged then latchWait e (.rdv m d f)
      else do
        let s ← get
        let o := e.owner s
        if rdvBusy s e.th.core o f then throw (.wait (.sequencers e.th.core f.toNat) (.rdv m d f))
        else do
          let (x, fl, s) := rdvTake s e.th.core o f
          set s
          rdvEnd e d x fl)) s

/-! ## Latches (R175) -/

/-- Two members have issued the same instruction. -/
def sameLatch : Instr → Instr → Bool
  | .fork .., .fork .. => true
  | .rdv _ _ f, .rdv _ _ g => f == g
  | _, _ => false

/-- The oldest issue of a member that matches an instruction. -/
def memberIssue (ws : List (Nat × Nat × Wait)) (i : Instr) (tid : Nat) : Option (Nat × Nat × Wait) :=
  oldestOf (ws.filter (fun w => w.1 == tid && sameLatch w.2.2.instr i))

/-- The issues of every live member of a gang, lowest CREWID first, once the latch is complete: the gang has filled
(R213) and every live member has issued (R175). -/
def latchIssues (s : State) (core launch tag : Nat) : Option (List (Nat × Nat × Wait)) :=
  let ws := waiters s (fun o => o == .latch core launch tag)
  match gangMembers s core launch tag with
  | [] => none
  | m :: ms =>
    match oldestOf (ws.filter (fun w => w.1 == m.1)) with
    | none => none
    | some w =>
      let all := (m :: ms).map (fun k => memberIssue ws w.2.2.instr k.1)
      if (m :: ms).any (fun k => k.2.bound) && all.all Option.isSome then some (all.filterMap id) else none

/-- A trap of the latch at one member's word. -/
def latchTrap (s : State) (w : Nat × Nat × Wait) (x : TrapInfo) : TrapInfo :=
  match Sparse.find? s.threads w.1, getSplit s w.1 w.2.1 with
  | some t, some sp => { x with pc := sp.pc, mask := maskOf (lanesOf t.width sp.active), isOpen := sp.run.isOpen }
  | _, _ => x

/-- A latch completes: the instruction takes effect once, with the operands of the lowest member. -/
def completeLatch (core launch tag : Nat) (s : State) : State :=
  match latchIssues s core launch tag with
  | none => s
  | some [] => s
  | some (w :: ws) =>
    let handAll (x : Item) (s : State) : State := (w :: ws).foldl (fun s v => hand v.1 v.2.1 x s) s
    match w.2.2.instr, envOf s w.1 w.2.1 with
    | .fork _ d a b, some e =>
      (match forkEffect e d a b s with
       | .ok _ s => handAll .go s
       | .error (.trap x) s => (w :: ws).foldl (fun s v => hand v.1 v.2.1 (.trap (latchTrap s v x)) s) s
       | .error (.park p) s => finishStop w.1 w.2.1 w.2.2.instr (.park p) s
       | .error _ s => s)
    | .rdv _ _ f, some _ =>
      let o := Owner.gang launch tag
      if rdvBusy s core o f then s
      else
        let (x, fl, s) := rdvTake s core o f
        handAll (.result x fl) s
    | _, _ => s

/-! ## The end of a sequencer (R347) -/

/-- What a sequencer has issued has ended: engine operations, and copy commands. -/
def seqDrained (s : State) (core which : Nat) : Bool :=
  (which = 1 || (getCore s core).ops.isEmpty) &&
    s.clusters.all (fun kc => kc.2.copyq.all (fun c => c.tid != seqTid core which))

/-- SEQUENCER_END_COMPLETE: a release of device scope, then the sequencer has ended. -/
def execSequencerEndComplete (core which : Nat) (s : State) : Host.Outcome State Fault Refusal :=
  .next (let q := (getCore s core).seq which
    if q.ending && seqDrained s core which then
      let s := modCore core (fun c => c.setSeq which { c.seq which with ending := false, endedAt := some s.chiptime })
        (release core 2 s)
      let s := wakeAll (fun o => match o with
        | .sequencers c _ => c == core
        | .latch c _ _ => c == core
        | _ => false) s
      (match q.tid.bind (Sparse.find? s.threads) with | some t => checkLaunch t.launch s | none => s)
    else s)

end Sys2Proof.Machine
end

