-- ==== Sys2Proof/Machine/Engine.lean ====
section
/-! DEFINITION. The matrix engine: its instructions (R362 to R371), planes and tiles (R325, R326), formats
(R327, R328), the order and the time of its operations (R329, R330, R363), and its faults (R335 to R337,
R440). -/

namespace Sys2Proof.Machine

/-! ## XMODE and bank groups (R327, R362) -/

/-- The fields of XMODE. -/
def xSfmt (x : Word) : Nat := bits x.toNat 0 4
def xQfmt (x : Word) : Nat := bits x.toNat 4 4
def xInt (x : Word) : Bool := bit x.toNat 8
def xOvf (x : Word) : Bool := bit x.toNat 9

/-- The legal settings. -/
def xLegal (x : Word) : Bool :=
  decide (bits x.toNat 10 22 = 0) &&
    ((isSx (xSfmt x) && isSx (xQfmt x) && !xInt x)
      || (decide (xSfmt x = xQfmt x) && decide (2 ≤ xSfmt x) && decide (xSfmt x ≤ 4) && !xInt x)
      || (decide (xSfmt x = 7) && decide (xQfmt x = 7) && xInt x))

/-- The issuer's XMODE is legal, or the word traps ILLEGAL. -/
def needXmode (e : Env) : M Unit := if xLegal e.regs.xmode then pure () else illegal e 8 e.active

/-- Entries of 256 bytes that a row or a column of a format takes (R328). -/
def rowEntries (fmt : Nat) : Nat := if fmt = 0 ∨ fmt = 2 then 2 else 1

/-- The bank group that a word names, with the checks of R362. -/
def bankGroup (e : Env) (f : BitVec 8) : M (Nat × Nat) := do
  let x := (e.regs.field 0 f).toNat
  let first := bits x 0 6
  let g := 2 ^ bits x 6 2
  let s ← get
  let ks := (List.range g).map (fun i => getBank s (clusterOf e.th.core) (first + i))
  if bits x 8 24 ≠ 0 ∨ 64 < first + g then illegal e 8 e.active
  else if ks.any (fun k => decide (k.mode ≠ .fifo) || decide (k.owner ≠ some e.th.launch)) then
    trapWith e causeAccess 0 e.active 0
  else if ks.any (fun k => decide (k.entryBytes ≠ 256)) then trapWith e causeFifoSize 0 e.active 0
  else pure (first, g)

/-- A record of a plane load or a drain: R26 and alignment, then the rules of R364 and R369. -/
def engineRecord (e : Env) (f : BitVec 8) (fmt : Nat) (drain : Bool) : M Shape := do
  let va := e.addr 0 f 0
  if canonicalVa va && decide (va % 64 ≠ 0) then trapWith e causeAlign 0 e.active va
  else do
    let sh ← readShape e e.active va
    let sx := !isSx fmt || (decide (sh.stride.getD 0 0 = 1) && decide (sh.base.toNat % 16 = 0)
      && (!drain || decide (sh.ext.getD 0 0 % 16 = 0)))
    if sh.ok && decide (sh.rank = 2) && decide (sh.ext.getD 0 0 ≤ 128) && decide (sh.ext.getD 1 0 ≤ 128)
        && decide (sh.elem = fmt) && sx then pure sh
    else trapWith e causeAccess 0 e.active va

/-! ## The queue of operations (R362, R363) -/

/-- An operation as it is queued. -/
def newOp (e : Env) (k : OpKind) : EngineOp :=
  { kind := k, xmode := e.regs.xmode, running := false, done := 0, flags := 0, since := none, parked := none }

/-- An operation reads or writes a tile. -/
def OpKind.usesTile (k : OpKind) (t : Nat) : Bool :=
  match k with
  | .stream tile _ _ _ _ => tile == t
  | .drain tile _ _ _ _ => tile == t
  | .zero ts => bit ts t
  | .save | .restore => true
  | _ => false

/-- An operation writes a tile. -/
def OpKind.writesTile (k : OpKind) (t : Nat) : Bool :=
  match k with
  | .stream tile _ _ _ _ => tile == t
  | .drain tile _ clear _ _ => clear && tile == t
  | .zero ts => bit ts t
  | .restore => true
  | _ => false

/-- The kinds of operation by name. -/
def OpKind.isLoad : OpKind → Bool
  | .load .. => true
  | _ => false
def OpKind.fromMemory : OpKind → Bool
  | .load none _ _ => true
  | _ => false
def OpKind.isSwap : OpKind → Bool
  | .swap => true
  | _ => false
def OpKind.isStream : OpKind → Bool
  | .stream .. => true
  | _ => false
def OpKind.isDrain : OpKind → Bool
  | .drain .. => true
  | _ => false
def OpKind.isZero : OpKind → Bool
  | .zero .. => true
  | _ => false
def OpKind.isShadow : OpKind → Bool
  | .save | .restore => true
  | _ => false

/-- The condition of R363 on the earlier operations; operations start in issue order. -/
def startOk (es : List OpKind) (k : OpKind) : Bool :=
  match k with
  | .load .. => es.all (fun x => !x.isLoad && !x.isSwap)
  | .swap => es.all (fun x => !x.isLoad && !x.isStream && !x.isSwap)
  | .stream t _ _ _ _ => es.all (fun x => !x.isStream && !x.isSwap && !x.writesTile t)
  | .drain t _ _ _ _ => es.all (fun x => !x.isDrain && !((x.isStream || x.isZero || x == .restore) && x.usesTile t))
  | .zero ts => es.all (fun x => (List.range 4).all (fun t => !(bit ts t && x.usesTile t)))
  | .save | .restore => es.all (fun x => (List.range 4).all (fun t => !x.usesTile t))

/-- The first operation that satisfies a test, with its index and the operations before it. -/
def findOp (ops : List EngineOp) (p : EngineOp → Bool) : Option (Nat × EngineOp × List EngineOp) :=
  match ops.findIdx? p with
  | some i => (ops[i]?).map (fun o => (i, o, ops.take i))
  | none => none

/-- The first operation of a kind runs, or may start now. -/
def readyOp (ops : List EngineOp) (p : OpKind → Bool) : Option (Nat × EngineOp) :=
  match findOp ops (fun o => p o.kind) with
  | some (i, o, es) =>
    if o.parked.isSome then none
    else if o.running || (es.all (fun x => x.running) && startOk (es.map EngineOp.kind) o.kind) then some (i, o) else none
  | none => none

/-- Change the operation at an index. -/
def modOp (core i : Nat) (f : EngineOp → EngineOp) (s : State) : State :=
  modCore core (fun c => { c with ops := c.ops.modify i f }) s

/-- The flags of an operation reach the matrix sequencer's FLAGS (R331). -/
def opFlags (core : Nat) (fl : Word) (s : State) : State :=
  modThread (seqTid core 0) (fun t => { t with regs := { t.regs with flags := (t.regs.flags ||| fl) &&& 0x7F } }) s

/-- The start events of a core's engine. -/
def startEvents (core : Nat) : List Instr := [.planeLoadStart core, .streamPassStart core, .drainStart core]

/-- The members of an owner. -/
def ownerCrews (s : State) (core : Nat) (o : Owner) : List Nat :=
  match o with
  | .crew tid => [tid]
  | .gang launch tag => (gangMembers s core launch tag).map Prod.fst
  | .share launch share =>
    (match Sparse.find? s.shares (shareKey launch share) with
     | some q => q.crews.map (crewTid launch)
     | none => [])

/-- An operation that waits on a bank is linked once, and keeps its place (R232). -/
def linkOp (core i : Nat) (since : Option Nat) (s : State) : State :=
  if since.isSome then s else modOp core i (fun o => { o with since := some s.links }) { s with links := s.links + 1 }

/-- The end of a pass of an engine is a boundary of its owner's crews (R397). -/
def passBoundary (core : Nat) (s : State) : State :=
  match (getCore s core).mseq.owner with
  | some ow => (ownerCrews s core ow).foldl (fun s tid => reachBoundary tid s) s
  | none => s

/-- The plane loads that wait for a line which a recall has taken are examined again (R258). -/
def pokeLoads (s : State) : State :=
  due (s.cores.flatMap (fun kc => if kc.2.ops.isEmpty then [] else [Instr.planeLoadStart kc.1])) s

/-- A plane load has ended: recalls of the lines that it read go on (R258). -/
def afterLoad (k : OpKind) (s : State) : State := if k.isLoad then pokeLoads (drainMsgs 64 s) else s

/-- An operation has ended: room in the queue, the sequencer's END; the end of a stream pass, a plane load or a drain
is a pass end (R330), and a boundary. -/
def endOp (core i : Nat) (s : State) : State :=
  match (getCore s core).ops[i]? with
  | none => s
  | some o =>
    let s := opFlags core o.flags (modCore core (fun c => { c with ops := c.ops.eraseIdx i }) s)
    let s := afterLoad o.kind (wakeAll (fun w => w == .engine core) s)
    let s := if o.kind.isLoad || o.kind.isStream || o.kind.isDrain then passBoundary core s else s
    due (startEvents core ++ (if (getCore s core).mseq.ending then [.sequencerEndComplete core 0] else [])) s

/-! ## The banks of the argument block (R334) -/

/-- SHBANK names two consecutive banks in scratch mode that the launch owns. -/
def shbankOk (s : State) (core launch : Nat) : Bool :=
  let b := (getCore s core).mseq.shbank.toNat
  let ok (k : Bank) : Bool := decide (k.mode = .scratch) && decide (k.owner = some launch)
  decide (b < 63) && ok (getBank s (clusterOf core) b) && ok (getBank s (clusterOf core) (b + 1))

/-- The two banks are active, or wake. -/
def shbankActive (core : Nat) (s : State) : Bool × State :=
  let b := (getCore s core).mseq.shbank.toNat
  let (x, s) := bankActive (clusterOf core) b s
  let (y, s) := bankActive (clusterOf core) (b + 1) s
  (x && y, s)

/-- The words of a tile that lie in one bank at an offset, from the tiles or to them. -/
def tileBytes (ts : Sparse Word) (j : Nat) : List Byte :=
  (List.range 16384).flatMap (fun i => leBytes 4 (Sparse.get 0 ts (16384 * j + i)).toNat)

/-- The four tiles are written to the banks. -/
def saveTiles (core : Nat) (s : State) : State :=
  let c := getCore s core
  (List.range 4).foldl (fun s j =>
    modBank (clusterOf core) (c.mseq.shbank.toNat + j / 2) (fun k => k.store (65536 * (j % 2)) (tileBytes c.tiles j)) s) s

/-- The four tiles as the banks hold them; unwritten words give +0 (R371). -/
def restoreTiles (core : Nat) (s : State) : State :=
  let b := (getCore s core).mseq.shbank.toNat
  let word (n : Nat) : Word :=
    let k := getBank s (clusterOf core) (b + n / 32768)
    BitVec.ofNat 32 (leNat ((List.range 4).map (fun i => k.readByte (4 * (n % 32768) + i))))
  modCore core (fun c => { c with tiles := (List.range 65536).foldl (fun m n => Sparse.set 0 m n (word n)) [] }) s

/-! ## MSWAP, MZERO and MSHADOW take effect -/

/-- Clear the tiles of a mask. -/
def zeroTiles (ts : Nat) (m : Sparse Word) : Sparse Word := m.filter (fun kv => !(bit ts (kv.1 / 16384)))

/-- Start an operation that has no start event of its own. -/
def startOther (core i : Nat) (o : EngineOp) (s : State) : State :=
  let run (s : State) : State := modOp core i (fun o => { o with running := true }) s
  match o.kind with
  | .swap => endOp core i (modCore core (fun c => { c with active := c.shadow, shadow := c.active }) s)
  | .zero _ => afterCore core 16 (.mzeroEnd core) (run s)
  | .save =>
    (match shbankActive core s with
     | (true, s) => afterCore core 2048 (.mshadowEnd core) (saveTiles core (run s))
     | (false, s) => s)
  | .restore =>
    (match shbankActive core s with
     | (true, s) => afterCore core 2048 (.mshadowEnd core) (restoreTiles core (run s))
     | (false, s) => s)
  | _ => s

/-- The owner of a core's matrix sequencer is halted: nothing that has not started may start (R389). -/
def engineHeld (s : State) (core : Nat) : Bool :=
  match (getCore s core).mseq.tid.bind (Sparse.find? s.threads) with
  | some t => decide (t.place ≠ .resident)
  | none => false

/-- Start the operations that may start and have no start event of their own. -/
def pumpOps (core : Nat) : Nat → State → State
  | 0, s => s
  | fuel + 1, s =>
    let ops := (getCore s core).ops
    let can := if engineHeld s core then none else (List.range ops.length).findSome? (fun i => (ops[i]?).bind (fun o =>
      if !o.running && (o.kind.isSwap || o.kind.isZero || o.kind.isShadow) && (ops.take i).all (fun x => x.running)
        && startOk ((ops.take i).map EngineOp.kind) o.kind then some (i, o) else none))
    match can with
    | some (i, o) => pumpOps core fuel (startOther core i o s)
    | none => s

/-- Queue an operation, or wait for room. -/
def placeOp (e : Env) (i : Instr) (k : OpKind) : M Flow := do
  let s ← get
  if Config.engineQueue ≤ (getCore s e.th.core).ops.length then throw (.wait (.engine e.th.core) i)
  else do
    act (fun s => pumpOps e.th.core 9 (modCore e.th.core (fun c => { c with ops := c.ops ++ [newOp e k] }) s))
    act (due (startEvents e.th.core))
    pure Flow.next

/-- MZERO_END. -/
def execMzeroEnd (core : Nat) (s : State) : Host.Outcome State Fault Refusal :=
  .next (match findOp (getCore s core).ops (fun o => o.running && o.kind.isZero) with
    | some (i, o, _) =>
      let ts := match o.kind with | .zero ts => ts | _ => 0
      pumpOps core 9 (endOp core i (modCore core (fun c => { c with tiles := zeroTiles ts c.tiles }) s))
    | none => s)

/-- MSHADOW_END. -/
def execMshadowEnd (core : Nat) (s : State) : Host.Outcome State Fault Refusal :=
  .next (match findOp (getCore s core).ops (fun o => o.running && o.kind.isShadow) with
    | some (i, _, _) => pumpOps core 9 (endOp core i s)
    | none => s)

/-! ## Operand faults (R335, R337) -/

/-- Every FIFO bank of a launch in a cluster is emptied (R335). -/
def scrubFifos (cl launch : Nat) (s : State) : State :=
  let bs := ((getCluster s cl).banks.filter (fun kb => kb.2.mode == .fifo && kb.2.owner == some launch)).map Prod.fst
  bs.foldl (fun s b => serveBank cl b (modBank cl b (fun k => { k with fifo := [] }) s)) s

/-- One more fault of a crew or of a frame: the count reached. -/
def countCrew (launch crew : Nat) (s : State) : Nat × State :=
  match Sparse.find? s.launches launch with
  | some l =>
    let n := Sparse.get 0 l.retries crew + 1
    (n, modLaunch launch (fun l => { l with retries := Sparse.put l.retries crew n }) s)
  | none => (0, s)

/-- The retry table of a queue controller holds 256 frames; a full one loses its oldest (R335). -/
def countFrame (ctl frame : Nat) (s : State) : Nat × State :=
  let old := (s.tries.find? (fun t => t.1 == ctl && t.2.1 == frame)).map (fun t => t.2.2)
  let n := old.getD 0 + 1
  let rest := s.tries.filter (fun t => !(t.1 == ctl && t.2.1 == frame))
  let mine := rest.filter (fun t => t.1 == ctl)
  let rest := if mine.length < 256 then rest else rest.erase (mine.headD (0, 0, 0))
  (n, { s with tries := rest ++ [(ctl, frame, n)] })

/-- A crew disappears from its place without having ended: it has arrived nowhere (R344, R372). What it has written
to memory stands (R336). -/
def removeCrew (tid : Nat) (s : State) : State :=
  match Sparse.find? s.threads tid with
  | none => s
  | some t =>
    let s := { s with threads := Sparse.erase s.threads tid,
                      circles := s.circles.map (fun kc => if kc.1 / 256 = t.launch then
                        (kc.1, { kc.2 with arrived := kc.2.arrived.filter (· != t.crewid) }) else kc) }
    wakeAll (fun o => match o with | .latch c l _ => c == t.core && l == t.launch | _ => false) s

/-- The event of R335 for a crew or a frame at its fourth fault. -/
def retryEvent (core launch arg : Nat) (s : State) : State :=
  post (cidOf s launch) 1 (coreSidx core) 7 (identOf s launch) 0 arg 0 s

/-- The records that a killed crew's lanes held go back to their queues, but for frames at their fourth fault. -/
def returnTasks (core launch : Nat) (cs : List Cont) (s : State) : State :=
  cs.foldl (fun s c =>
    let (n, s) := countFrame (c.queue % 4) c.frame.toNat s
    if Config.retryLimit ≤ n then retryEvent core launch c.frame.toNat s
    else
      match pushTask (cidOf s launch) c s with
      | (true, s) => s
      | (false, s) => retryEvent core launch c.frame.toNat s) s

/-- A crew is re-queued (counted, R416): at once, or once the verdict of a TOKEN is in. -/
def requeueCrew (launch crew : Nat) (token : Option Nat) (s : State) : State :=
  diagCount launch 20 (modLaunch launch (fun l => match token with
    | some t => { l with held := l.held ++ [(t, crew)], requeued := l.requeued + 1 }
    | none => { l with unplaced := insertCrew crew l.unplaced, requeued := l.requeued + 1 }) s)

/-- FLAGS of a launch record (R413). -/
def launchFlag (s : State) (launch i : Nat) : Bool :=
  match Sparse.find? s.launches launch with | some l => bit l.record.flags i | none => false

/-- The fate of one killed crew: its tasks go back, it is re-queued, or it stays dead; no write of it is undone
(R336). -/
def killForFault (core launch cause : Nat) (token : Option Nat) (last : Bool) (tid : Nat) (s : State) : State :=
  match Sparse.find? s.threads tid with
  | none => s
  | some t =>
    if launchFlag s launch 1 then
      killCrew tid cause 0 (returnTasks core launch (t.splits.flatMap (fun ks =>
        (lanesOf t.width ks.2.active).filterMap (Sparse.find? t.tasks))) s)
    else if last then killCrew tid cause 0 (retryEvent core launch t.crewid s)
    else requeueCrew launch t.crewid token (removeCrew tid s)

/-- A share ends with its scout program and its queue. -/
def dropShare (launch share : Nat) (s : State) : State :=
  { s with shares := Sparse.erase s.shares (shareKey launch share), threads := Sparse.erase s.threads (scoutTid launch share) }

/-- The crews that an operand fault kills: the owner's, or the whole share in a scouted launch. -/
def faultVictims (s : State) (core launch : Nat) (o : Owner) : List Nat :=
  let base := ownerCrews s core o
  match o with
  | .share .. => base
  | _ =>
    if !hasScout s launch then base
    else (base.flatMap (fun tid => match Sparse.find? s.threads tid with
      | some t => ownerCrews s core (.share launch (t.share s))
      | none => [])).eraseDups

/-- Count a fault of each crew, and say whether one of them has reached the limit. -/
def countCrews (launch : Nat) (tids : List Nat) (s : State) : Bool × State :=
  tids.foldl (fun acc tid => match countCrew launch (tid % 2 ^ 16) acc.2 with
    | (n, s) => (acc.1 || decide (Config.retryLimit ≤ n), s)) (false, s)

/-- The ends of an engine's operations are due no longer. -/
def dropEnds (core : Nat) (s : State) : State :=
  let ends (i : Instr) : Bool := i == .planeLoadEnd core || i == .streamPassEnd core || i == .drainEnd core
    || i == .mzeroEnd core || i == .mshadowEnd core
  { s with calendar := s.calendar.filter (fun c => !ends c.2), agenda := s.agenda.filter (fun i => !ends i) }

/-- The engine stops: no operation, its sequencer gone, its tiles clear (R335); drains that have written to memory
stand (R336). -/
def stopEngine (core launch : Nat) (s : State) : State :=
  let s := dropEnds core s
  let s := scrubFifos (clusterOf core) launch (modCore core (fun c => { c with ops := [], tiles := [], mseq := Seq.free })
    { s with threads := Sparse.erase s.threads (seqTid core 0) })
  pokeLoads (drainMsgs 64 s)

/-- The normal-service fate of an operand fault (R335). -/
def normalFault (core launch : Nat) (o : Owner) (cause : Nat) (token : Option Nat) (s : State) : State :=
  let victims := faultVictims s core launch o
  let s := stopEngine core launch s
  let scouted := hasScout s launch
  let (anyLast, s) := countCrews launch victims s
  let s := victims.foldl (fun s tid =>
    let last := if scouted then anyLast else decide (Config.retryLimit ≤ (match Sparse.find? s.launches launch with
      | some l => Sparse.get 0 l.retries (tid % 2 ^ 16)
      | none => 0))
    killForFault core launch cause token last tid s) s
  let s := if scouted then (match victims with
      | tid :: _ => (match Sparse.find? s.launches launch with
          | some l => dropShare launch (shareOf l (tid % 2 ^ 16)) s
          | none => s)
      | [] => s) else s
  checkLaunch launch (placeFreed core s)

/-- A page fault of matrix operand fetch goes to the fault queue (R382). -/
def sendOperandFault (launch src va why : Nat) (acc : Acc) (s : State) : Nat × State :=
  let cid := cidOf s launch
  let (tok, s) := takeToken cid s
  (tok, sendFault cid { va := BitVec.ofNat 64 va, mask := 1, src := src, acc := accCode acc, why := why, token := tok,
                        launch := identOf s launch, who := 0 } s)

/-- The operand that an operation cannot have: a page fault (its WHY) or poison. -/
structure BadOperand where
  va  : Nat
  why : Option Nat

/-- An operand fault of the operation at an index (R335, R337). -/
def operandFault (core i launch : Nat) (o : Owner) (x : BadOperand) (s : State) : State :=
  let recovery := launchFlag s launch 2 && shbankOk s core launch
  match recovery, x.why with
  | true, some why =>
    let (tok, s) := sendOperandFault launch 5 x.va why .read (restoreTiles core s)
    modOp core i (fun op => { op with
      running := false, done := if op.kind.fromMemory then 1 else 0, since := none
      parked := some { token := tok, va := BitVec.ofNat 64 x.va, mask := 1, acc := .read, why := why, verdict := none } }) s
  | true, none =>
    let s := modCore core (fun c => { c with ops := c.ops.eraseIdx i }) (restoreTiles core s)
    let pc := match getSplit s (seqTid core 0) 0 with | some sp => sp.pc | none => 0
    let s := raiseTrap (seqTid core 0) 0 { cause := causePoison, code := 0, isOpen := false, pc := pc, mask := 1, faultva := BitVec.ofNat 64 x.va } s
    -- the operations behind it run to their end (R347)
    due (startEvents core) (pumpOps core 9 (wakeAll (fun w => w == .engine core) s))
  | false, some why =>
    let (tok, s) := sendOperandFault launch 5 x.va why .read s
    normalFault core launch o causeAccess (some tok) s
  | false, none => normalFault core launch o causePoison none s

/-- The launch and the owner that a core's engine serves. -/
def engineLaunch (s : State) (core : Nat) : Option (Nat × Owner) :=
  let q := (getCore s core).mseq
  match q.tid.bind (Sparse.find? s.threads), q.owner with
  | some t, some o => some (t.launch, o)
  | _, _ => none

/-- The automatic copy of R337; it adds 2,048 cycles. False while a bank wakes. -/
def autoCopy (core launch : Nat) (s : State) : Bool × Nat × State :=
  if launchFlag s launch 2 && shbankOk s core launch then
    match shbankActive core s with
    | (true, s) => (true, 2048, saveTiles core s)
    | (false, s) => (false, 0, s)
  else (true, 0, s)

/-! ## Plane loads (R330, R364) -/

/-- Keys of an element and of a block record of a plane. -/
def planeKey (n k : Nat) : Nat := 128 * n + k
def recordKey (n t : Nat) : Nat := 8 * n + t

/-- The elements k of a part of a column in entry bytes, from its first k. -/
def entryCodes (fmt half : Nat) (bs : List Byte) : List (Nat × Nat) :=
  let w := if fmt = 2 then 4 else if fmt = 3 ∨ fmt = 4 then 2 else 1
  let n := if fmt = 2 then 64 else 128
  (List.range n).map (fun i => (64 * half * (if fmt = 2 then 1 else 0) + i, leNat ((bs.drop (w * i)).take w)))

/-- The record slots of an SX entry. -/
def entryRecord (bs : List Byte) (t : Nat) : Nat := leNat ((bs.drop (128 + 4 * t)).take 4)

/-- Put an entry of column n into a plane. -/
def Plane.putEntry (p : Plane) (fmt n half : Nat) (bs : List Byte) : Plane :=
  { codes := (entryCodes fmt half bs).foldl (fun m kx => Sparse.set 0 m (planeKey n kx.1) kx.2) p.codes,
    records := if isSx fmt then
      (List.range 8).foldl (fun m t => Sparse.set 0 m (recordKey n t) (entryRecord bs t)) p.records else p.records }

/-- An empty plane: zeros, and in SX the records of E = 0. -/
def Plane.empty (fmt : Nat) : Plane :=
  { codes := [], records := if isSx fmt then
      (List.range 1024).foldl (fun m i => Sparse.set 0 m i (makeRecord 0 [] (sxBits fmt))) [] else [] }

/-- Pop the entries of a load from FIFO banks as they come. -/
def loadEntries (core i : Nat) (bg : Nat × Nat) (fmt : Nat) : Nat → State → State × Option BadOperand
  | 0, s => (s, none)
  | fuel + 1, s =>
    let cl := clusterOf core
    match (getCore s core).ops[i]? with
    | none => (s, none)
    | some o =>
      let e := rowEntries fmt
      if 128 * e ≤ o.done then
        (afterCore core (16 + 128 * e * 4 / bg.2) (.planeLoadEnd core) (modOp core i (fun o => { o with since := none, done := 2 ^ 20 }) s), none)
      else
        let b := bg.1 + o.done % bg.2
        match bankActive cl b s with
        | (false, s) => (s, none)
        | (true, s) =>
          match (if engineFirst s cl b true o.since then takeEntry cl b s else (none, s)) with
          | (none, s) => (linkOp core i o.since s, none)
          | (some x, s) =>
            if x.poison then (s, some ⟨0, none⟩)
            else loadEntries core i bg fmt fuel (serveBank cl b <| modOp core i (fun o => { o with since := none, done := o.done + 1 })
              (modCore core (fun c => { c with shadow := c.shadow.putEntry fmt (o.done / e) (o.done % e) x.bytes }) s))

/-- The record of the block at an address of a format window, as the L2 level holds it, or the channel for a line that
is not kept there (R241). -/
def blockRecord (s : State) (cid va : Nat) : Nat :=
  match Sparse.find? s.l2 (lineKey cid (va / 128)) with
  | some l => Sparse.get 0 l.records (va % 128 / 16)
  | none =>
    match (translate s cid va).1 with
    | .ok x =>
      (match windowAt s (x.pa / 128 * 128) with
       | some (w, off) => windowRecord s w (off / 16 + x.pa % 128 / 16)
       | none => 0)
    | .error _ => 0

/-- Pieces of a span of bytes that lie in one aligned 8-byte word each. -/
def spanPieces : Nat → Nat → Nat → List (Nat × Nat)
  | 0, _, _ => []
  | fuel + 1, va, n =>
    if n = 0 then []
    else
      let k := Nat.min n (8 - va % 8)
      (va, k) :: spanPieces fuel ((va + k) % 2 ^ 64) (n - k)

/-- Read pieces at the L2 level in turn. -/
def readPieces (die cid : Nat) : List (Nat × Nat) → State → Except Nat Got × State
  | [], s => (.ok ⟨[], false⟩, s)
  | p :: ps, s =>
    match l2ReadFor (.home Config.noMark) die cid p.1 p.2 s with
    | (.error why, s) => (.error why, s)
    | (.ok g, s) =>
      match readPieces die cid ps s with
      | (.error why, s) => (.error why, s)
      | (.ok h, s) => (.ok ⟨g.bytes ++ h.bytes, g.poison || h.poison⟩, s)

/-- Write bytes in pieces. -/
def writePieces (die cid : Nat) : List (Nat × Nat) → List Byte → State → Except Nat Unit × State
  | [], _, s => (.ok (), s)
  | p :: ps, xs, s =>
    match engineWrite die cid p.1 (xs.take p.2) s with
    | (.error why, s) => (.error why, s)
    | (.ok _, s) => writePieces die cid ps (xs.drop p.2) s

/-- Read the elements of a load from memory, from a number on: done, a fault, or a line that a handler has. -/
def loadElems (core cid fmt : Nat) (sh : Shape) : Nat → Nat → State → State × Except (Option BadOperand) Unit
  | 0, _, s => (s, .ok ())
  | fuel + 1, j, s =>
    let k := j % sh.ext.getD 0 0
    let n := j / sh.ext.getD 0 0
    let va := sh.elemAddr j
    match readPieces (dieOf core) cid (spanPieces 4 va (elemBytes fmt)) s with
    | (.error why, s) => (s, .error (if why = whyHandler then none else some ⟨va, some (Nat.min why 3)⟩))
    | (.ok g, s) =>
      if g.poison then (s, .error (some ⟨va, none⟩))
      else
        let put (p : Plane) : Plane :=
          { codes := Sparse.set 0 p.codes (planeKey n k) (leNat g.bytes),
            records := if isSx fmt && decide (k % 16 = 0) then
              Sparse.set 0 p.records (recordKey n (k / 16)) (blockRecord s cid va) else p.records }
        loadElems core cid fmt sh fuel (j + 1) (modCore core (fun c => { c with shadow := put c.shadow }) s)

/-- A recall waits for a line of a shape: no new pass reads it (R258). -/
def shapeRecalled (s : State) (core cid : Nat) (sh : Shape) : Bool :=
  sh.lines.any (fun l => recallPending s (dieOf core) cid l)

/-- A load from memory, as a whole. -/
def loadMemory (core i launch : Nat) (o : Owner) (fmt extra : Nat) (sh : Shape) (s : State) : State :=
  let s := modCore core (fun c => { c with shadow := Plane.empty fmt }) s
  match loadElems core (cidOf s launch) fmt sh sh.count 0 s with
  | (s, .ok _) =>
    let (n, s) := freeDelay s (416 + sh.count * elemBytes fmt / 128)
    after (coreCycles s core (n + extra)) (.planeLoadEnd core) (modOp core i (fun o => { o with done := 2 ^ 20 }) s)
  | (s, .error none) => s
  | (s, .error (some x)) => operandFault core i launch o x s

/-- Go on with the plane load at an index. -/
def runLoad (core i launch : Nat) (ow : Owner) (o : EngineOp) (s : State) : State :=
  let fmt := xSfmt o.xmode
  match o.kind with
  | .load (some bg) _ _ =>
    let s := if o.running then s else modOp core i (fun o => { o with running := true })
      (modCore core (fun c => { c with shadow := Plane.empty fmt }) s)
    (match loadEntries core i bg fmt (128 * rowEntries fmt + 1) s with
     | (s, some x) => operandFault core i launch ow x s
     | (s, none) => s)
  | .load none (some sh) _ =>
    if !o.running && o.done = 0 && shapeRecalled s core (cidOf s launch) sh then s
    else
    (match (if o.running then (true, 0, s) else autoCopy core launch s) with
     | (false, _, s) => s
     | (true, extra, s) => loadMemory core i launch ow fmt extra sh (modOp core i (fun o => { o with running := true }) s))
  | _ => s

/-- PLANE_LOAD_START: a plane load starts, or goes on. -/
def execPlaneLoadStart (core : Nat) (s : State) : Host.Outcome State Fault Refusal :=
  .next (let s := pumpOps core 9 s
    match readyOp (getCore s core).ops OpKind.isLoad, engineLaunch s core with
    | some (i, o), some (launch, ow) =>
      if 2 ^ 20 ≤ o.done ∨ (engineHeld s core ∧ !o.running) then s else runLoad core i launch ow o s
    | _, _ => s)

/-- PLANE_LOAD_END. -/
def execPlaneLoadEnd (core : Nat) (s : State) : Host.Outcome State Fault Refusal :=
  .next (match findOp (getCore s core).ops (fun o => o.running && o.kind.isLoad && decide (2 ^ 20 ≤ o.done)) with
    | some (i, _, _) => pumpOps core 9 (endOp core i s)
    | none => s)

/-! ## Stream passes (R326, R329, R367) -/

/-- Element k of a streamed row in its entries' bytes. -/
def streamElem (fmt : Nat) (bs : List Byte) (k : Nat) : EVal × Word :=
  if isSx fmt then sxEVal (sxBits fmt) (entryRecord bs (k / 16)) (k % 16) (bs.getD k 0).toNat
  else if fmt = 2 then EVal.ofFloat (floatFmt 2) (leNat ((bs.drop (4 * k)).take 4))
  else EVal.ofFloat (floatFmt fmt) (leNat ((bs.drop (2 * k)).take 2))

/-- Element S[k][n] of a stationary plane. -/
def planeElem (p : Plane) (fmt n k : Nat) : EVal × Word :=
  let x := Sparse.get 0 p.codes (planeKey n k)
  if isSx fmt then sxEVal (sxBits fmt) (Sparse.get 0 p.records (recordKey n (k / 16))) (k % 16) x
  else EVal.ofFloat (floatFmt fmt) x

/-- Element S[k][n] of a ones plane: 1 column, 2 lower, 3 upper (R325). -/
def onesBit (sel n k : Nat) : Bool :=
  match sel with
  | 1 => decide (n = 0)
  | 2 => decide (k ≤ n)
  | _ => decide (n ≤ k)

/-- The stationary element that a pass multiplies. -/
def statElem (c : Core) (fmt sel n k : Nat) : EVal × Word :=
  if sel = 0 then planeElem c.active fmt n k else (.num ⟨if onesBit sel n k then 1 else 0, 0⟩, 0)

/-- One block of the reduction of R121 added to an accumulator. -/
def blockStep (c : Core) (x : Word) (sel n : Nat) (row : List Byte) (acc : Nat × Word) (t : Nat) : Nat × Word :=
  let ks := (List.range 16).map (fun i => 16 * t + i)
  let a := ks.map (streamElem (xQfmt x) row)
  let b := ks.map (statElem c (xSfmt x) sel n)
  let (p, f1) := EVal.dot ((a.map Prod.fst).zip (b.map Prod.fst))
  let (r, f2) := accumulate (xOvf x) acc.1 p
  (r, (a ++ b).foldl (fun f e => f ||| e.2) (acc.2 ||| f1 ||| f2))

/-- The accumulator word of column n after a row. -/
def columnStep (c : Core) (x : Word) (sel n acc : Nat) (row : List Byte) : Nat × Word :=
  if xInt x then
    let part (k : Nat) : Int :=
      intVal true 8 (row.getD k 0).toNat * (if sel = 0 then intVal true 8 (Sparse.get 0 c.active.codes (planeKey n k))
        else if onesBit sel n k then 1 else 0)
    (wrapInt 32 ((acc : Int) + ((List.range 128).map part).foldl (· + ·) 0), 0)
  else (List.range 8).foldl (blockStep c x sel n row) (acc, 0)

/-- The key of an accumulator word. -/
def accKey (tile row n : Nat) : Nat := 16384 * tile + 128 * row + n

/-- One row streams into an accumulator row. -/
def rowStep (c : Core) (x : Word) (sel tile row : Nat) (bs : List Byte) : Core × Word :=
  (List.range 128).foldl (fun acc n =>
    match columnStep c x sel n (Sparse.get 0 c.tiles (accKey tile row n)).toNat bs with
    | (r, fl) => ({ acc.1 with tiles := Sparse.set 0 acc.1.tiles (accKey tile row n) (BitVec.ofNat 32 r) }, acc.2 ||| fl)) (c, 0)

/-- Rows of one pass at most (R329). -/
def passRows (x : Word) : Nat := if xQfmt x = 2 then 32 else 128

/-- Entries of a pass in bank j of a group. -/
def perBank (total g j : Nat) : Nat := (total + g - 1 - j) / g

/-- Twice the cycles per row of R329. -/
def rate2 (x : Word) : Nat :=
  if isSx (xQfmt x) then
    (if xSfmt x = 13 ∨ xQfmt x = 13 then 4 else if xSfmt x = 11 ∧ xQfmt x = 11 then 1 else 2)
  else if xQfmt x = 7 then 4 else if xQfmt x = 2 then 128 else 8

/-- The cycles of a pass of R rows from g banks. -/
def passCycles (x : Word) (rows g : Nat) : Nat :=
  16 + Nat.max ((rows * rate2 x + 1) / 2) ((rows * 4 * rowEntries (xQfmt x) + g - 1) / g) + 128

/-- Entries that stay in bank j from earlier passes of an MSTREAM in recovery (R337). -/
def heldBack (keep : Bool) (x : Word) (doneRows g j : Nat) : Nat :=
  if keep then doneRows / passRows x * perBank (passRows x * rowEntries (xQfmt x)) g j else 0

/-- Remove the first entries of each bank of a group. -/
def popGroup (cl : Nat) (bg : Nat × Nat) (count : Nat → Nat) (s : State) : State :=
  (List.range bg.2).foldl (fun s j =>
    serveBank cl (bg.1 + j) (modBank cl (bg.1 + j) (fun k => { k with fifo := k.fifo.drop (count j) }) s)) s

/-- Every bank of a group is active, or wakes. -/
def groupActive (cl : Nat) (bg : Nat × Nat) (s : State) : Bool × State :=
  (List.range bg.2).foldl (fun acc j => match bankActive cl (bg.1 + j) acc.2 with | (b, s) => (acc.1 && b, s)) (true, s)

/-- The entry i of a pass. -/
def passEntry (s : State) (cl : Nat) (bg : Nat × Nat) (keep : Bool) (x : Word) (doneRows i : Nat) : Option Entry :=
  (getBank s cl (bg.1 + i % bg.2)).fifo[heldBack keep x doneRows bg.2 (i % bg.2) + i / bg.2]?

/-- Stream the rows of a pass, whose entries are all present. -/
def streamRows (core : Nat) (x : Word) (sel tile arow doneRows : Nat) (rows : List (List Byte)) (s : State) : State × Word :=
  let r := ((List.range rows.length).zip rows).foldl (fun (acc : Core × Word) p =>
    match rowStep acc.1 x sel tile ((arow + doneRows + p.1) % 128) p.2 with
    | (c, fl) => (c, acc.2 ||| fl)) (getCore s core, 0)
  (putCore core r.1 s, r.2)

/-- The rows of a list of entries. -/
def chunkRows (e : Nat) (xs : List Entry) : List (List Byte) :=
  (List.range (xs.length / e)).map (fun r => ((xs.drop (e * r)).take e).flatMap Entry.bytes)

/-- The pass that starts now at the stream at an index. -/
def runPass (core i launch : Nat) (ow : Owner) (op : EngineOp) (tile arow rows sel : Nat) (bg : Nat × Nat) (s0 : State) : State :=
  let cl := clusterOf core
  let x := op.xmode
  let e := rowEntries (xQfmt x)
  let n := Nat.min (passRows x) (rows - op.done)
  let keep := launchFlag s0 launch 2 && shbankOk s0 core launch
  match groupActive cl bg s0 with
  | (false, s) => s
  | (true, s) =>
    let xs := (List.range (n * e)).filterMap (passEntry s cl bg keep x op.done)
    if xs.length < n * e ∨ !((List.range bg.2).all (fun j => engineFirst s cl (bg.1 + j) true none)) then s
    else
      match (if op.done = 0 then autoCopy core launch s else (true, 0, s)) with
      | (false, _, s) => s
      | (true, extra, s) =>
        let s := modOp core i (fun o => { o with running := true }) s
        if xs.any (fun y => y.poison) then operandFault core i launch ow ⟨0, none⟩ s
        else
          let (s, fl) := streamRows core x sel tile arow op.done (chunkRows e xs) s
          let s := if keep then s else popGroup cl bg (perBank (n * e) bg.2) s
          after (coreCycles s core (passCycles x n bg.2 + extra)) (.streamPassEnd core) (modOp core i (fun o => { o with flags := o.flags ||| fl }) s)

/-- A pass of the stream runs: its end is on the calendar. -/
def passRunning (s : State) (core : Nat) : Bool := s.calendar.any (fun c => c.2 == .streamPassEnd core) || s.agenda.contains (.streamPassEnd core)

/-- STREAM_PASS_START. -/
def execStreamPassStart (core : Nat) (s : State) : Host.Outcome State Fault Refusal :=
  .next (let s := pumpOps core 9 s
    match readyOp (getCore s core).ops OpKind.isStream, engineLaunch s core with
    | some (i, o), some (launch, ow) =>
      if passRunning s core ∨ engineHeld s core then s
      else
        match o.kind with
        | .stream tile arow rows sel bg => runPass core i launch ow o tile arow rows sel bg s
        | _ => s
    | _, _ => s)

/-- The entries that a whole MSTREAM took from bank j. -/
def streamTotal (x : Word) (rows g j : Nat) : Nat :=
  let e := rowEntries (xQfmt x)
  rows / passRows x * perBank (passRows x * e) g j + perBank (rows % passRows x * e) g j

/-- STREAM_PASS_END: the next pass of the MSTREAM, or its end. -/
def execStreamPassEnd (core : Nat) (s : State) : Host.Outcome State Fault Refusal :=
  .next (match findOp (getCore s core).ops (fun o => o.running && o.kind.isStream), engineLaunch s core with
    | some (i, o, _), some (launch, _) =>
      (match o.kind with
       | .stream _ _ rows _ bg =>
         let d := Nat.min rows (o.done + passRows o.xmode)
         if d < rows then due [.streamPassStart core] (passBoundary core (modOp core i (fun o => { o with done := d }) s))
         else
           let keep := launchFlag s launch 2 && shbankOk s core launch
           let s := if keep then popGroup (clusterOf core) bg (streamTotal o.xmode rows bg.2) s else s
           pumpOps core 9 (endOp core i s)
       | _ => s)
    | _, _ => s)

/-! ## Drains (R330, R368, R369, R440) -/

/-- An accumulator word in the format of a drain, but for SX. -/
def drainElem (x : Word) (fmt : Nat) (w : Nat) : Nat × Word :=
  let md : FMode := { rnd := 1, ftz := true, ovf := some (xOvf x) }
  if xInt x then
    (if fmt = 0 then (w, 0) else roundDyadic (floatFmt 2) md false ⟨intVal true 32 w, 0⟩)
  else if fmt = 2 then (w, 0)
  else floatToFloat (floatFmt fmt) md (decodeFloat (floatFmt 2) false w)

/-- The words of an accumulator row from column n on. -/
def accWords (c : Core) (tile row n count : Nat) : List Nat :=
  (List.range count).map (fun i => (Sparse.get 0 c.tiles (accKey tile row (n + i))).toNat)

/-- Block t of a row, quantized: the record, the bytes and the flags. -/
def drainBlock (c : Core) (tile row t fmt : Nat) : Nat × List Nat × Word :=
  quantize 1 (sxBits fmt) ((accWords c tile row (16 * t) 16).map (decodeFloat (floatFmt 2) false))

/-- Half `half` of a row as an entry. -/
def drainEntry (c : Core) (x : Word) (tile row half fmt : Nat) : List Byte × Word :=
  if isSx fmt then
    let bs := (List.range 8).map (fun t => drainBlock c tile row t fmt)
    (bs.flatMap (fun b => b.2.1.map (BitVec.ofNat 8)) ++ bs.flatMap (fun b => leBytes 4 b.1) ++ List.replicate 96 0,
     bs.foldl (fun f b => f ||| b.2.2) 0)
  else
    let w := elemBytes fmt
    let rs := (accWords c tile row (half * (256 / w)) (Nat.min 128 (256 / w))).map (drainElem x fmt)
    (rs.flatMap (fun r => leBytes w r.1), rs.foldl (fun f r => f ||| r.2) 0)

/-- Push the entries of a drain while the banks have room. -/
def drainPush (core i : Nat) (bg : Nat × Nat) (tile fmt : Nat) : Nat → State → State
  | 0, s => s
  | fuel + 1, s =>
    let cl := clusterOf core
    match (getCore s core).ops[i]? with
    | none => s
    | some o =>
      let e := rowEntries fmt
      if 128 * e ≤ o.done then
        afterCore core (16 + 128 * 4 * e / bg.2) (.drainEnd core) (modOp core i (fun o => { o with done := 2 ^ 20 }) s)
      else
        let b := bg.1 + o.done % bg.2
        match bankActive cl b s with
        | (false, s) => s
        | (true, s) =>
          if (getBank s cl b).capacity ≤ (getBank s cl b).fifo.length ∨ !(engineFirst s cl b false o.since) then
            linkOp core i o.since s
          else
            let (bs, fl) := drainEntry (getCore s core) o.xmode tile (o.done / e) (o.done % e) fmt
            drainPush core i bg tile fmt fuel (servePush cl b (giveEntry cl b { bytes := bs, poison := false } false
              (modOp core i (fun o => { o with since := none, done := o.done + 1, flags := o.flags ||| fl }) s)))

/-- The units of a drain to memory: elements, or blocks of 16 in SX. -/
def drainUnits (fmt : Nat) (sh : Shape) : Nat := if isSx fmt then sh.count / 16 else sh.count

/-- The record of a block reaches the L2 level with its elements, the window's slot where no line is kept (R241), or the
inactive backing of a shadow region. -/
def putRecord (cid va r : Nat) (s : State) : State :=
  match (Sparse.find? s.contexts cid).bind (fun c => inactivePa s c va) with
  | some pa => backingRecord pa r s
  | none =>
    if (Sparse.find? s.l2 (lineKey cid (va / 128))).isSome then
      modLine (lineKey cid (va / 128)) (fun l => { l with records := Sparse.set 0 l.records (va % 128 / 16) r }) s
    else
      match translate s cid va with
      | (.ok x, s) => backingRecord x.pa r s
      | (.error _, s) => s

/-- The address, the bytes, the record and the flags of a unit. -/
def drainUnit (c : Core) (x : Word) (tile fmt : Nat) (sh : Shape) (j : Nat) : Nat × List Byte × Option Nat × Word :=
  if isSx fmt then
    let cols := sh.ext.getD 0 0 / 16
    let (r, bs, fl) := drainBlock c tile (j / cols) (j % cols) fmt
    (sh.elemAddr (16 * j), bs.map (BitVec.ofNat 8), some r, fl)
  else
    let n := j % sh.ext.getD 0 0
    let (y, fl) := drainElem x fmt (Sparse.get 0 c.tiles (accKey tile (j / sh.ext.getD 0 0) n)).toNat
    (sh.elemAddr j, leBytes (elemBytes fmt) y, none, fl)

/-- A page fault pauses a drain at its write (R440). -/
def pauseDrain (core i launch va why : Nat) (s : State) : State :=
  let (tok, s) := sendOperandFault launch 6 va why .write s
  modOp core i (fun o => { o with
    parked := some { token := tok, va := BitVec.ofNat 64 va, mask := 1, acc := .write, why := why, verdict := none } }) s

/-- Write the units of a drain to memory until it stops. -/
def drainStore (core i launch tile fmt : Nat) (sh : Shape) : Nat → State → State
  | 0, s => s
  | fuel + 1, s =>
    match (getCore s core).ops[i]? with
    | none => s
    | some o =>
      if drainUnits fmt sh ≤ o.done then
        let (n, s) := freeDelay s (416 + sh.count * elemBytes fmt / 128)
        afterCore core n (.drainEnd core) (modOp core i (fun o => { o with done := 2 ^ 20 }) s)
      else
        let cid := cidOf s launch
        let (va, bs, r, fl) := drainUnit (getCore s core) o.xmode tile fmt sh o.done
        if publishing s cid va then s
        else
          match writePieces (dieOf core) cid (spanPieces 4 va bs.length) bs s with
          | (.error why, s) => if why = whyHandler then s else pauseDrain core i launch va (Nat.min why 3) s
          | (.ok _, s) =>
            let s := match r with | some r => putRecord cid va r s | none => s
            drainStore core i launch tile fmt sh fuel (modOp core i (fun o => { o with done := o.done + 1, flags := o.flags ||| fl }) s)

/-- DRAIN_START: a drain starts, or goes on. -/
def execDrainStart (core : Nat) (s : State) : Host.Outcome State Fault Refusal :=
  .next (let s := pumpOps core 9 s
    match readyOp (getCore s core).ops OpKind.isDrain, engineLaunch s core with
    | some (i, o), some (launch, _) =>
      if 2 ^ 20 ≤ o.done ∨ (engineHeld s core ∧ !o.running) then s
      else
        let s := modOp core i (fun o => { o with running := true }) s
        (match o.kind with
         | .drain tile fmt _ (some bg) _ => drainPush core i bg tile fmt (128 * rowEntries fmt + 1) s
         | .drain tile fmt _ none (some sh) => drainStore core i launch tile fmt sh (drainUnits fmt sh + 1) s
         | _ => s)
    | _, _ => s)

/-- A drain ends: with CLR its tile holds +0. -/
def finishDrain (core i : Nat) (o : EngineOp) (s : State) : State :=
  let s := match o.kind with
    | .drain tile _ true _ _ => modCore core (fun c => { c with tiles := zeroTiles (2 ^ tile) c.tiles }) s
    | _ => s
  pumpOps core 9 (endOp core i s)

/-- DRAIN_END. -/
def execDrainEnd (core : Nat) (s : State) : Host.Outcome State Fault Refusal :=
  .next (match findOp (getCore s core).ops (fun o => o.running && o.kind.isDrain && decide (2 ^ 20 ≤ o.done)) with
    | some (i, o, _) => finishDrain core i o s
    | none => s)

/-! ## The instructions -/

/-- The issuer of the M instructions (R345). -/
def mseqOnly : List Kind := [.mseq]

/-- MLDS (R364). -/
def execMlds (m : BitVec 1) (a b : BitVec 8) (s : State) : Host.Outcome State Fault Refusal :=
  issue m (.mlds m a b) (fun e => do
    checkOps e mseqOnly false [⟨a, .scal, 1⟩, ⟨b, .scal, 2⟩] false
    if (a = 0xC0#8) = (b = 0xC0#8) then illegal e 8 e.active
    else do
      needXmode e
      if b = 0xC0#8 then do
        let bg ← bankGroup e a
        placeOp e (.mlds m a b) (.load (some bg) none 0)
      else do
        let sh ← engineRecord e b (xSfmt e.regs.xmode) false
        placeOp e (.mlds m a b) (.load none (some sh) (e.regs.pair 0 b))) s

/-- MONES (R365). -/
def execMones (m : BitVec 1) (k : BitVec 2) (s : State) : Host.Outcome State Fault Refusal :=
  issue m (.mones m k) (fun e => do
    checkOps e mseqOnly false [] false
    act (modCore e.th.core (fun c => { c with mones := k.toNat }))
    pure Flow.next) s

/-- MSWAP (R366). -/
def execMswap (m : BitVec 1) (s : State) : Host.Outcome State Fault Refusal :=
  issue m (.mswap m) (fun e => do
    checkOps e mseqOnly false [] false
    placeOp e (.mswap m) .swap) s

/-- MSTREAM (R365, R367). -/
def execMstream (m : BitVec 1) (d a b : BitVec 8) (s : State) : Host.Outcome State Fault Refusal :=
  issue m (.mstream m d a b) (fun e => do
    checkOps e mseqOnly false [⟨d, .scal, 1⟩, ⟨a, .scal, 1⟩, ⟨b, .scal, 1⟩] false
    let x := (e.regs.field 0 d).toNat
    let rows := (e.regs.field 0 b).toNat
    if bits x 9 23 ≠ 0 ∨ 4096 < rows then illegal e 8 e.active
    else do
      needXmode e
      let bg ← bankGroup e a
      let s ← get
      let sel := (getCore s e.th.core).mones
      if rows = 0 then pure Flow.next
      else if sel ≠ 0 ∧ passRows e.regs.xmode < rows then illegal e 8 e.active
      else do
        let f ← placeOp e (.mstream m d a b) (.stream (bits x 0 2) (bits x 2 7) rows sel bg)
        act (modCore e.th.core (fun c => { c with mones := 0 }))
        pure f) s

/-- The FMT values of a drain (R368). -/
def drainFmtOk (x : Word) (fmt : Nat) : Bool :=
  if xInt x then decide (fmt = 0) || decide (fmt = 2) else (decide (2 ≤ fmt) && decide (fmt ≤ 4)) || isSx fmt

/-- MDRAIN (R368, R369). -/
def execMdrain (m : BitVec 1) (d a b : BitVec 8) (s : State) : Host.Outcome State Fault Refusal :=
  issue m (.mdrain m d a b) (fun e => do
    checkOps e mseqOnly false [⟨d, .scal, 1⟩, ⟨a, .scal, 1⟩, ⟨b, .scal, 2⟩] false
    let x := (e.regs.field 0 d).toNat
    let fmt := bits x 2 4
    if bits x 7 25 ≠ 0 ∨ (a = 0xC0#8) = (b = 0xC0#8) then illegal e 8 e.active
    else do
      needXmode e
      if !drainFmtOk e.regs.xmode fmt then illegal e 8 e.active
      else if b = 0xC0#8 then do
        let bg ← bankGroup e a
        placeOp e (.mdrain m d a b) (.drain (bits x 0 2) fmt (bit x 6) (some bg) none)
      else do
        let sh ← engineRecord e b fmt true
        placeOp e (.mdrain m d a b) (.drain (bits x 0 2) fmt (bit x 6) none (some sh))) s

/-- MZERO (R370). -/
def execMzero (m : BitVec 1) (a : BitVec 8) (s : State) : Host.Outcome State Fault Refusal :=
  issue m (.mzero m a) (fun e => do
    checkOps e mseqOnly false [⟨a, .scal, 1⟩] false
    let x := (e.regs.field 0 a).toNat
    if 16 ≤ x then illegal e 8 e.active
    else if x = 0 then pure Flow.next
    else placeOp e (.mzero m a) (.zero x)) s

/-- MSHADOW (R334, R371). -/
def execMshadow (m : BitVec 1) (f : BitVec 1) (s : State) : Host.Outcome State Fault Refusal :=
  issue m (.mshadow m f) (fun e => do
    checkOps e mseqOnly false [] false
    let s ← get
    if !shbankOk s e.th.core e.th.launch then trapWith e causeAccess 0 e.active 0
    else placeOp e (.mshadow m f) (if f = 0#1 then .save else .restore)) s

end Sys2Proof.Machine
end

