-- ==== Sys2Proof/Machine/Schedule.lean ====
section
/-! DEFINITION. Who issues next: the release of waiting splits (R186), barriers (R172), words that are no
instruction (R44 to R46), and the fetch of the split whose turn it is. -/

namespace Sys2Proof.Machine

/-! ## Words that are no instruction -/

/-- ILLEGAL_INSTRUCTION (R44 to R46): a precise trap, in the lanes of the guard for a word that the guard
governs. -/
def execIllegalInstruction (check : Nat) (guarded : WordGuard) (s : State) : Host.Outcome State Fault Refusal :=
  issue guarded.marker (.illegalInstruction check guarded) (fun e =>
    whenLanes e guarded.guarded (illegal e check (e.fate guarded.guarded))) s

/-! ## Barriers (R172) -/

/-- The arrivals of a launch's crews that stood until a circle's barrier completed are sent (R172). -/
def sendStanding (launch circ : Nat) (s : State) : State :=
  (s.threads.filter (fun kt => decide (kt.2.launch = launch) && decide (kt.2.kind = .crew))).foldl (fun s kt =>
    ((List.range 4).filter (fun slot => decide (circOf kt.2.circ slot = circ))).foldl (fun s slot => checkArrival kt.1 slot s) s) s

/-- A circle's barrier completes: its number rises, the arrived set is cleared, the waiters are released, and the
arrivals that stood until now count toward the next barrier. -/
def completeBarrier (launch circ : Nat) (c : Circle) (s : State) : State :=
  let g := c.generation + 1
  let s := { s with
    circles := Sparse.put s.circles (circleKey launch circ) { c with generation := g, arrived := [] } }
  sendStanding launch circ ((byAge (waiters s (fun o => o == .barrier launch circ c.generation))).foldl
    (fun s w => hand w.1 w.2.1 .go s) s)

/-- BARRIER_COMPLETE. -/
def execBarrierComplete (launch circle : Nat) (s : State) : Host.Outcome State Fault Refusal :=
  .next (match Sparse.find? s.circles (circleKey launch circle) with
    | some c => if c.full then completeBarrier launch circle c s else s
    | none => s)

/-! ## Waiting splits (R186) -/

/-- A split that waits no longer is ACTIVE or queued, and issues its word again from the fetch. -/
def refetch (tid sid : Nat) (s : State) : State :=
  recheckArrivals tid (modThread tid (fun t => Thread.enqueue { t with splits := Sparse.alter t.splits sid (fun sp =>
    { sp with wait := none, handed := none, parked := none }) } sid) s)

/-- A split to which an item was handed is ACTIVE or queued. -/
def activate (tid sid : Nat) (s : State) : State :=
  recheckArrivals tid (modThread tid (fun t =>
    match Sparse.find? t.splits sid with
    | some sp => if sp.state = .waiting then t.enqueue sid else t
    | none => t) s)

/-- The trap of an unresolvable fault (R383); a word that could not be fetched would have opened its run
(R376). -/
def unresolved (sp : Split) (p : Parked) : TrapInfo :=
  { cause := causeAccess, code := 0, isOpen := sp.run.isOpen || decide (p.acc = .fetch), pc := sp.pc, mask := p.mask,
    faultva := p.va }

/-- The members of a gang whose ganged FORK this split has parked: their FORKs still wait in the latch (R359). -/
def forkMates (s : State) (tid : Nat) (sp : Split) : List (Nat × Nat × Wait) :=
  match sp.wait.map Wait.instr, Sparse.find? s.threads tid with
  | some (.fork m d a b), some t =>
    if t.kind = .crew ∧ gangSize t.regs.gang ≠ 0 then
      (gangMembers s t.core t.launch (gangKey t.regs.gang)).filterMap (fun k => memberIssue
        (waiters s (fun o => o == .latch t.core t.launch (gangKey t.regs.gang))) (.fork m d a b) k.1)
    else []
  | _, _ => []

/-- What a parked split keeps when its word traps: the trap ends an OFFER without a result (R25), so its counts go. -/
def Split.afterTrap (sp : Split) : Split :=
  match sp.wait.map Wait.instr with
  | some (.offer _ _) => { sp with parked := none, progress := Progress.none }
  | _ => { sp with parked := none }

/-- A parked split after its verdict: it replays, a fetch is repeated, or it takes ACCESS, at a ganged FORK with every
member (R359). -/
def afterVerdict (tid sid : Nat) (sp : Split) (s : State) : State :=
  match sp.parked with
  | none => s
  | some p =>
    match p.verdict with
    | none => s
    | some true =>
      if p.acc = .fetch then refetch tid sid s
      else hand tid sid .again (modSplit tid sid (fun sp => { sp with parked := none }) s)
    | some false =>
      let s := if p.acc = .fetch then openRun tid sid s
        else (forkMates s tid sp).foldl (fun s v => hand v.1 v.2.1 (.trap (latchTrap s v (unresolved sp p))) s) s
      hand tid sid (.trap (unresolved sp p)) (modSplit tid sid Split.afterTrap s)

/-- The records that the oldest ADOPTQ of its crew waits for, once so many are free that no waiter has been handed
(R186). -/
def recordsFree (s : State) (tid sid : Nat) (sp : Split) : Option Nat :=
  match Sparse.find? s.threads tid with
  | none => none
  | some t =>
    let n := (t.adoptParts sid sp).length - 1
    let first := match oldestOf ((waiters s (fun o => o == .records)).filter (fun w => w.1 == tid)) with
      | some w => w.2.1 == sid
      | none => true
    if n + t.reserved ≤ t.freeCount && first then some n else none

/-- A split on a die cannot have a line yet: a handler has it, its page changes its bias, the die's copy is on its way,
or a recall of it waits (R247, R250, R258, R261). -/
def lineBusy (s : State) (die cid line : Nat) : Bool :=
  (((Sparse.find? s.l2 (lineKey cid line)).bind (fun l => copyAt l die)).isNone &&
      lineHandled s (dieSlice die cid (line * 128)) cid line)
    || flipping s cid (line * 128) || recallPending s die cid line
    || (match (Sparse.find? s.l2 (lineKey cid line)).bind (fun l => copyAt l die) with
        | some .isD | some .imD | some .smA | some .miA => true
        | _ => false)

/-- The die of a thread. -/
def dieOfThread (s : State) (tid : Nat) : Nat :=
  match Sparse.find? s.threads tid with | some t => dieOf t.core | none => 0

/-- A waiting split is examined: what it waits for may have come. -/
def examine (tid sid : Nat) (sp : Split) (w : Wait) (s : State) : State :=
  let again (ok : Bool) : State := if ok then hand tid sid .again s else s
  let go (ok : Bool) : State := if ok then hand tid sid .go s else s
  match w.obj with
  | .dqPush launch share x =>
    if dqLength s launch share < Config.decisionQueue then hand tid sid .go (pushDq launch share x s) else s
  | .taskPush cid _ recs => servePusher tid sid cid recs s
  | .fifoFull _ _ => again true
  | .latch core launch tag => completeLatch core launch tag s
  | .records => (match recordsFree s tid sid sp with | some n => hand tid sid (.records n) s | none => s)
  | .adopt => go (match Sparse.find? s.threads tid with | some t => t.answered sid | none => false)
  | .copyQueue cl => again (copyRoom s cl tid sid)
  | .engine core => again (decide ((getCore s core).ops.length < Config.engineQueue))
  | .commands now => go (lateCommands s tid now).isEmpty
  | .sequencers core mask =>
    again (match envOf s tid sid with
      | some e => !rdvBusy s core (e.owner s) (BitVec.ofNat 2 mask)
      | none => false)
  | .bank cl b => again (decide ((getBank s cl b).pwr = .active))
  | .fault => afterVerdict tid sid sp s
  | .fence => if sp.spec.isNone then refetch tid sid s else s
  | .finish => if sp.spec.isNone then refetch tid sid (closeRun tid sid s) else s
  | .line cid line fetch =>
    if lineBusy s (dieOfThread s tid) cid line then s else if fetch then refetch tid sid s else hand tid sid .again s
  | .join _ | .barrier .. | .mark _ | .dqPop .. | .fifoPush .. | .fifoPop .. | .taskPop .. | .sleep _
  | .publish .. | .trap => s

/-- WAITER_RELEASE: a split that holds an item, or that waits for nothing any longer, is released to issue;
another is examined. -/
def execWaiterRelease (tid split : Nat) (s : State) : Host.Outcome State Fault Refusal :=
  .next (match getSplit s tid split with
    | none => s
    | some sp =>
      if sp.handed.isSome then activate tid split s
      else
        match sp.wait with
        | none => activate tid split s
        | some w => examine tid split sp w s)

/-! ## Whose turn it is -/

/-- A core's engine has stopped its matrix sequencer at a page fault of a load or a stream (R337). -/
def Core.seqParked (c : Core) : Bool := c.ops.any (fun o => o.parked.isSome && (o.kind.isLoad || o.kind.isStream))

/-- A thread may issue: it is on its core, the device and its partition run, and its engine does not hold
it. -/
def Thread.mayIssue (t : Thread) (s : State) : Bool :=
  decide (t.place = .resident) && !s.station.halted &&
    !(decide (t.kind = .mseq) && (getCore s t.core).seqParked)

/-- A split may issue: it is ACTIVE, no handler of another split holds it, and it waits for nothing. -/
def Split.mayIssue (sp : Split) (t : Thread) (sid : Nat) : Bool :=
  decide (sp.state = .active) && (sp.wait.isNone || sp.handed.isSome) &&
    (match t.handler with | some h => h == sid | none => true)

/-- The splits that may issue now. -/
def readySplits (s : State) : List (Nat × Nat) :=
  s.threads.flatMap (fun kt =>
    if kt.2.mayIssue s then
      kt.2.splits.filterMap (fun ks => if ks.2.mayIssue kt.2 ks.1 then some (kt.1, ks.1) else none)
    else [])

/-- A core takes its scout programs in round-robin order, and skips any that waits (R179): none that may issue lies
between the program served last and this one. -/
def scoutTurn (s : State) (core tid : Nat) (ready : List (Nat × Nat)) : Bool :=
  let last := Sparse.get 0 s.scoutAt core
  let rank (k : Nat) : Nat := if last < k then k else k + 2 ^ 61
  ready.all (fun r => match Sparse.find? s.threads r.1 with
    | some u => !(decide (u.kind = .scout) && decide (u.core = core)) || decide (rank tid ≤ rank r.1)
    | none => true)

/-- Traps that splits of a crew hold are delivered in ascending SPLITID order, before any other split of the crew issues
(R375, R380). -/
def trapTurn (t : Thread) (sid : Nat) : Bool :=
  match t.handler, t.nextPending with
  | none, some (k, _) => k == sid
  | _, _ => true

/-- A split that may issue is in turn (R179, R380). -/
def inTurnNow (s : State) (ready : List (Nat × Nat)) (r : Nat × Nat) : Bool :=
  match Sparse.find? s.threads r.1 with
  | some t => (decide (t.kind ≠ .scout) || scoutTurn s t.core r.1 ready) && trapTurn t r.2
  | none => true

/-- The ready crews of a core. -/
def readyCrews (s : State) (core : Nat) (ready : List (Nat × Nat)) : Nat :=
  (((ready.map Prod.fst).eraseDups).filter (fun k => match Sparse.find? s.threads k with
    | some t => decide (t.kind = .crew) && decide (t.core = core)
    | none => false)).length

/-- A crew of a co-resident launch has been passed over for 3·N issue cycles of its core, N being the ready crews
there: it issues within N more, as at most N crews of the core are so late and each then starts afresh (R190). -/
def coLate (s : State) (ready : List (Nat × Nat)) (tid : Nat) : Bool :=
  match Sparse.find? s.threads tid with
  | some t => decide (t.kind = .crew) && launchFlag s t.launch 0 && decide (3 * readyCrews s t.core ready ≤ (Sparse.get (0, 0) s.passed tid).2)
  | none => false

/-- Turns for which a thread has been passed over while it was ready. -/
def turnsPassed (s : State) (r : Nat × Nat) : Nat := (Sparse.get (0, 0) s.passed r.1).1

/-- Those that have been passed over longest. -/
def longest (s : State) (rs : List (Nat × Nat)) : List (Nat × Nat) :=
  rs.filter (fun r => rs.all (fun q => decide (turnsPassed s q ≤ turnsPassed s r)))

/-- The splits that must issue (R190): those of late crews of co-resident launches, else those of threads that any
order of issue has passed over too long. -/
def mustIssue (s : State) (ready fit : List (Nat × Nat)) : List (Nat × Nat) :=
  let co := fit.filter (fun r => coLate s ready r.1)
  longest s (if co.isEmpty then fit.filter (fun r => decide (Config.fairTurns ≤ turnsPassed s r)) else co)

/-- The splits that may issue and are in turn. -/
def fitSplits (s : State) : List (Nat × Nat) :=
  let ready := readySplits s
  ready.filter (inTurnNow s ready)

/-- The splits among which the next turn is free: those in turn, and of them first those that must issue. -/
def turnChoices (s : State) : List (Nat × Nat) :=
  let ready := readySplits s
  let fit := fitSplits s
  let must := mustIssue s ready fit
  if decide (fit.length ≤ 1) || must.isEmpty then fit else must

/-- The other splits of a crew that may issue in the same cycle as one of its splits: as many as two pipelines take
(R187). Which do is free (DESIGN CHOICE, log 113). -/
def cycleMates (s : State) (x : Nat × Nat) : List (Nat × Nat) :=
  match Sparse.find? s.threads x.1 with
  | some t => if t.kind = .crew then (fitSplits s).filter (fun r => r.1 == x.1 && r.2 != x.2) else []
  | none => []

/-- Instructions of a width that two pipelines take in one cycle (R187). -/
def cycleRoom (s : State) (tid : Nat) : Nat :=
  match Sparse.find? s.threads tid with
  | some t => 128 / Nat.max 1 t.width
  | none => 1

/-- The turn goes to some splits of one cycle, in ascending SPLITID order. -/
def giveTurn (s : State) : List (Nat × Nat) → State
  | [] => { s with turn := none, abreast := [] }
  | x :: xs => { s with turn := some x, abreast := xs }

/-- A split's cycle: it issues, and a free choice of the other splits of its crew that may. -/
def startCycle (x : Nat × Nat) (s : State) : State :=
  if (cycleMates s x).isEmpty then giveTurn s [x]
  else
    let mates := ((cycleMates s x).filter (fun r => bit (Config.freeNat s.fresh) r.2)).take (cycleRoom s x.1 - 1)
    giveTurn { s with fresh := s.fresh + 1 } ((fitSplits s).filter (fun r => r == x || mates.contains r))

/-- The split that issues next: free among the choices, since R1 leaves the issue order of splits open. -/
def pickTurn (s : State) : State :=
  match turnChoices s with
  | [] => giveTurn s []
  | [x] => startCycle x s
  | xs =>
    match xs[Config.freeNat s.fresh % xs.length]? with
    | some x => startCycle x { s with fresh := s.fresh + 1 }
    | none => giveTurn s []

/-- A turn has been had: the ready threads that it passed over are counted, and a core's scout program served last. -/
def countTurn (s : State) : State :=
  match s.turn with
  | none => s
  | some (tid, _) =>
    let core := (Sparse.find? s.threads tid).map Thread.core
    let next (k : Nat) : Nat × Nat :=
      let (all, own) := Sparse.get (0, 0) s.passed k
      if k = tid then (0, 0)
      else (all + 1, own + ofBool (core.isSome && (Sparse.find? s.threads k).map Thread.core == core))
    let ready := ((readySplits s).map Prod.fst).eraseDups
    let scouts := match Sparse.find? s.threads tid with
      | some t => if t.kind = .scout then Sparse.put s.scoutAt t.core tid else s.scoutAt
      | none => s.scoutAt
    { s with passed := ready.foldl (fun m k => Sparse.set (0, 0) m k (next k)) [], scoutAt := scouts }

/-! ## The word of the split whose turn it is -/

/-- A fetch that fails parks its split before the word (R381), or waits for a line that a handler has. -/
def fetchFails (tid sid : Nat) (t : Thread) (sp : Split) (why : Nat) (s : State) : State :=
  if why = whyHandler then
    linkWait tid sid (.line (cidOf s t.launch) (sp.pc.toNat / 128) true) (.nop 0) s
  else
    let mask : DWord := if t.kind = .crew then sp.active else 1
    finishStop tid sid (.nop 0)
      (.park { token := 0, va := sp.pc, mask := mask, acc := .fetch, why := why, verdict := none }) s

/-- The instruction of a word: one that is none traps (R44). -/
def instrOf (w : Word) : Instr :=
  match decodeWord w.toNat with
  | .ok i => i
  | .error r => .illegalInstruction r.why.check ⟨r.guarded, w.extractLsb' 31 1⟩

/-- What the split whose turn it is issues, with the state after its fetch; none when the fetch failed. -/
def nextInstr (tid sid : Nat) (s : State) : Option Instr × State :=
  match Sparse.find? s.threads tid, getSplit s tid sid with
  | some t, some sp =>
    match sp.wait with
    | some w => (some w.instr, s)
    | none =>
      match fetchWord t sp s with
      | (.ok w, s) => (some (instrOf w), s)
      | (.error why, s) => (none, fetchFails tid sid t sp why s)
  | _, _ => (none, s)

/-! ## Time -/

/-- The calendar's entries that have fallen due go to the agenda. -/
def fallDue (s : State) : State :=
  { s with agenda := s.agenda ++ (s.calendar.filter (fun c => decide (c.1 ≤ s.chiptime))).map Prod.snd,
           calendar := s.calendar.filter (fun c => !decide (c.1 ≤ s.chiptime)) }

/-- Time after an instruction: at least one cycle passes, and how many more is free (R4). -/
def passTime (s : State) : State :=
  let (n, s) := freeNat (countTurn s)
  fallDue { s with chiptime := s.chiptime + 1 + n }

/-- After a word: the next split of the same cycle that may still issue, or time and the choice of the next turn. -/
def nextTurn (s : State) : State :=
  match s.abreast.filter (readySplits s).contains with
  | [] => pickTurn (passTime s)
  | xs => giveTurn s xs

/-- Nothing issues: time passes to the next entry of the calendar. -/
def idle (s : State) : State :=
  match s.calendar with
  | [] => { s with chiptime := s.chiptime + 1 }
  | (t, _) :: _ => fallDue { s with chiptime := Nat.max s.chiptime t }

end Sys2Proof.Machine
end

