-- ==== Sys2Proof/Machine/Launches.lean ====
section
/-! DEFINITION. Launches: the cores of a partition (R159, R397, R403, R406, R407), the dispatcher and its checks (R157,
R170, R171, R229, R405, R411 to R416), relocation (R58 to R60), the start of crews and shares (R157, R176, R177), and
the end of a launch (R417). -/

namespace Sys2Proof.Machine

/-! ## Contexts and launches at their start -/

/-- A context after NEWCTX, with a page table. -/
def Context.fresh (part : Nat) : Context :=
  { part := part, ptbase := 0, tvec := 0, qtbase := 0, shtbase := 0, fqbase := 0, fqlog := 0, fqtail := 0,
    fqplaces := [], faults := [], nextTok := 1, invbase := 0, invstat := 0, selector := [], publish := [],
    drained := [], ranges := [], regions := [], images := [], lastId := 0, poisoned := false, ckpt := none, groups := 0 }

/-- A launch as the dispatcher accepts it. -/
def Launch.accepted (r : LaunchRec) (ident part now : Nat) (unplaced mapping : List Nat) : Launch :=
  { record := r, ident := ident, part := part, phase := 3, phaseAt := now, fifoAt := now, minWays := 0, unplaced := unplaced,
    mapping := mapping, logical := mapping, fresh := [], slots := [], spad := [], foster := [], baked := [], retries := [], held := [],
    requeued := 0, killed := 0, poisoned := false, suspended := false }

/-! ## Cores -/

/-- The core grid in row-major order. -/
def coreGrid : List Nat := (List.range 16).flatMap (fun r => (List.range 32).map (fun c => r + 16 * c))

/-- The partitions of a span (R406); a partition alone is its own. -/
def spanParts (s : State) (part : Nat) : List (Nat × Partition) :=
  s.parts.filter (fun kp => leadOf s kp.1 == leadOf s part)

/-- The cores of a partition, and of its span, in the order of R159. -/
def Partition.cores (p : Partition) : List Nat := coreGrid.filter (fun c => p.hasCluster (clusterOf c))
def spanCores (s : State) (part : Nat) : List Nat :=
  coreGrid.filter (fun c => (spanParts s part).any (fun kp => kp.2.hasCluster (clusterOf c)))

/-- The cores that a partition sets aside (R407): its last ones (log 22). -/
def Partition.reserved (p : Partition) : List Nat := p.cores.drop (p.cores.length - p.reserve)

/-- The cores that a span sets aside for urgent launches. -/
def reservedCores (s : State) (part : Nat) : List Nat := (spanParts s part).flatMap (fun kp => kp.2.reserved)

/-- The cores on which other launches may be placed: not set aside, and not vacated. -/
def openCores (s : State) (part : Nat) : List Nat :=
  (spanCores s part).filter (fun c => !((reservedCores s part).contains c) &&
    !((spanParts s part).any (fun kp => kp.2.vacated.contains c)))

/-- Cluster 15 of a die. -/
def basecamp (die : Nat) : Nat := 8 * (4 * (die / 2) + 3) + 4 * (die % 2) + 3

/-- The cores of the shared reserve of a span's dies (R397, R407). -/
def sharedCores (s : State) (part : Nat) : List Nat :=
  if s.reserveOn then
    coreGrid.filter (fun c => (spanParts s part).any (fun kp => decide (kp.2.mask ≠ 0) && clusterOf c == basecamp kp.2.die))
  else []

/-- Map logical cores onto available ones: a core keeps its own place, the others go round (R394, log 22). -/
def mapOnto (all avail : List Nat) : List Nat :=
  (List.range all.length).map (fun i =>
    let c := all.getD i 0
    if avail.contains c || avail.isEmpty then c else avail.getD (i % avail.length) c)

/-! ## Places (R157) -/

/-- The crews on a core that are not saved. -/
def crewsOn (s : State) (core : Nat) : List Thread :=
  Sparse.values (s.threads.filter (fun kt => decide (kt.2.kind = .crew) && decide (kt.2.core = core) && decide (kt.2.place ≠ .saved)))

/-- Bytes of a crew's register slice (R156). -/
def Thread.slice (t : Thread) : Nat := t.vregs * t.width * 4
def LaunchRec.slice (r : LaunchRec) : Nat := r.vregs * r.width * 4

/-- The crews of a launch that a core would hold, of some crews. -/
def assigned (l : Launch) (core : Nat) (crews : List Nat) : Nat := (crews.filter (fun c => homeCore l c == core)).length

/-- The places that co-resident launches have been promised on a core and have not taken yet, each with its launch and
the bytes of its crews: such a launch has all its places from its acceptance on (R190). -/
def promised (s : State) (core launch : Nat) : List (Nat × Nat) :=
  s.launches.flatMap (fun kl =>
    if kl.1 ≠ launch ∧ bit kl.2.record.flags 0 then
      List.replicate (assigned kl.2 core kl.2.unplaced) (kl.1, kl.2.record.slice)
    else [])

/-- Crews of a launch that a core can still take. -/
def freePlaces (s : State) (core launch : Nat) (r : LaunchRec) : Nat :=
  let ts := crewsOn s core
  let ps := promised s core launch
  let mine := (ts.filter (fun t => decide (t.launch = launch))).length
  let others := ((ts.filter (fun t => decide (t.launch ≠ launch))).map Thread.launch ++ ps.map Prod.fst).eraseDups.length
  let used := ts.foldl (fun n t => n + t.slice) 0 + ps.foldl (fun n p => n + p.2) 0
  if 8 ≤ others then 0
  else Nat.min (64 - (ts.length + ps.length)) (Nat.min (perCore r - mine) ((262144 - used) / Nat.max 1 r.slice))

/-- Every crew has a place at once. -/
def allFit (s : State) (key : Nat) (l : Launch) : Bool :=
  l.mapping.eraseDups.all (fun core => decide (assigned l core l.unplaced ≤ freePlaces s core key l.record))

/-- Some crew, or some share, has a place. -/
def someFit (s : State) (key : Nat) (l : Launch) : Bool :=
  l.mapping.eraseDups.any (fun core =>
    let n := assigned l core l.unplaced
    let need := if l.record.scout = 0xFFFFFFFF then 1 else Nat.min n (perCore l.record)
    decide (0 < n) && decide (need ≤ freePlaces s core key l.record))

/-! ## The launch record (R413) -/

/-- A field of the record at an address. -/
def recNat (s : State) (a off n : Nat) : Nat := physNat s (a + off) n

/-- The fields that a launch keeps. -/
def readRec (s : State) (a : Nat) : LaunchRec :=
  { image := recNat s a 0 8, imgsize := recNat s a 8 4, entry := recNat s a 12 4, scout := recNat s a 16 4,
    width := recNat s a 28 2, vregs := recNat s a 30 2, spad := recNat s a 32 4, crews := recNat s a 36 4,
    circles := recNat s a 40 8, args := recNat s a 48 8, reloc := recNat s a 56 8, flags := recNat s a 64 2,
    prio := recNat s a 66 1, udepth := recNat s a 68 2, cid := recNat s a 70 2, queue := recNat s a 72 4,
    diag := recNat s a 80 8, cpladdr := recNat s a 88 8, cplval := recNat s a 96 8 }

/-- An offset of the image: a multiple of 4, below its size; or none. -/
def offsetOk (size x : Nat) : Bool := decide (x = 0xFFFFFFFF) || (decide (x % 4 = 0) && decide (x < size))

/-- The fields keep R413. -/
def launchRecOk (s : State) (a : Nat) (r : LaunchRec) : Bool :=
  decide (r.image % 65536 = 0) && decide (r.imgsize % 4 = 0) && decide (r.entry % 4 = 0) && decide (r.entry < r.imgsize)
    && offsetOk r.imgsize r.scout && offsetOk r.imgsize (recNat s a 20 4) && offsetOk r.imgsize (recNat s a 24 4)
    && [16, 32, 64].contains r.width && decide (8 ≤ r.vregs) && decide (r.vregs ≤ 192) && decide (r.vregs % 8 = 0)
    && decide (r.spad ≤ 2 ^ 23) && decide (1 ≤ r.crews) && decide (r.crews ≤ 65536) && decide (r.flags < 8)
    && decide (r.prio < 4) && decide (recNat s a 67 1 = 0) && decide (r.udepth ≤ 256) && decide (r.cid < 4096)
    && decide (recNat s a 76 4 = 0) && decide (r.diag % 8 = 0) && decide (r.cpladdr % 8 = 0) && decide (recNat s a 104 24 = 0)

/-- The image lies in a range that IMAGE has reserved. -/
def imageOk (c : Context) (r : LaunchRec) : Bool := c.images.any (fun i => i.1 == r.image && decide (r.imgsize ≤ i.2))

/-! ## Tables in the context's memory -/

/-- Every page of a range of n bytes, not 0, is mapped for reading. -/
def mapped (s : State) (c : Context) (va n : Nat) : Bool :=
  canonicalVa va && canonicalVa (va + n - 1) &&
    (List.range (n / 65536 + 2)).all (fun i =>
      let a := if i = 0 then va else Nat.min (va / 65536 * 65536 + 65536 * i) (va + n - 1)
      match tableXlat s c a with
      | .ok _ => true
      | .error _ => false)

/-- A relocation entry: the word's address, the word, and its logical core. -/
structure Reloc where
  va      : Nat
  word    : Nat
  logical : Nat

/-- The logical core at a logical position (R58, R159). -/
def slotCore (logical : List Nat) (row col : Nat) : Option Nat :=
  let r0 := (logical.map coreRow).foldl Nat.min 15
  let c0 := (logical.map coreCol).foldl Nat.min 31
  let core := (row + r0) + 16 * (col + c0)
  if row + r0 < 16 ∧ col + c0 < 32 then logical.findIdx? (· == core) else none

/-- The places of the slots and of the entries of a relocation table (R59). -/
def slotAt (rel i : Nat) : Nat := rel + 8 + 4 * i
def entryAt (rel nslot j : Nat) : Nat := rel + (8 + 4 * nslot + 7) / 8 * 8 + 8 * j

/-- Entry j, if it keeps R59 and R60. -/
def readReloc (s : State) (c : Context) (r : LaunchRec) (logical : List Nat) (nslot j : Nat) : Option Reloc :=
  let a := entryAt r.reloc nslot j
  let off := tableNat s c a 4
  let slot := tableNat s c (a + 4) 2
  let word := tableNat s c (r.image + off) 4
  let major := bits word 24 7
  if tableNat s c (a + 6) 2 ≠ 0 ∨ off % 4 ≠ 0 ∨ r.imgsize ≤ off ∨ nslot ≤ slot ∨ (major ≠ 0x60 ∧ major ≠ 0x61) then none
  else if tableNat s c (slotAt r.reloc slot + 2) 2 ≠ 0 then none
  else (slotCore logical (tableNat s c (slotAt r.reloc slot) 1) (tableNat s c (slotAt r.reloc slot + 1) 1)).map (fun k =>
    ⟨r.image + off, word, k⟩)

/-- The relocation table, if it breaks no rule. A table with a must-be-zero byte that is not zero or with NSLOT above
256 is rejected like one that breaks R60, and the records of slots that no entry names are not examined: neither R60
nor R415 says (DESIGN CHOICE, log 90). -/
def readRelocs (s : State) (c : Context) (r : LaunchRec) (logical : List Nat) : Option (List Reloc) :=
  if r.reloc = 0 then some []
  else if !mapped s c r.reloc 8 then none
  else
    let nent := tableNat s c r.reloc 4
    let nslot := tableNat s c (r.reloc + 4) 2
    if tableNat s c (r.reloc + 6) 2 ≠ 0 ∨ 256 < nslot ∨ !mapped s c r.reloc (entryAt 0 nslot nent) then none
    else (List.range nent).mapM (readReloc s c r logical nslot)

/-- A relocated word (R60): ROW and COL of its core on the grid of its major. -/
def bakeWord (word core : Nat) : Nat :=
  let row := coreRow core / 2
  let col := if bits word 24 7 = 0x60 then coreCol core / 4 else coreCol core / 2
  word - bits word 7 9 * 128 + row * 4096 + col * 128

/-! ### The fresh code image (R60, R395, R414) -/

/-- The lines of a launch's image. -/
def imageLines (r : LaunchRec) : Nat := (r.imgsize + 127) / 128

/-- The bytes of the fresh image: the source's words, with the relocated ones. -/
def imageBytes (s : State) (c : Context) (l : Launch) : List Byte :=
  (List.range (32 * imageLines l.record)).flatMap (fun i =>
    let va := l.record.image + 4 * i
    leBytes 4 (match Sparse.find? l.fresh va with | some w => w.toNat | none => tableNat s c va 4))

/-- A line of a context leaves every cluster cache, the L2 level and every instruction cache. -/
def dropLine (cid line : Nat) (s : State) : State :=
  let s := (List.range 64).foldl (fun s cl => clEvict cl cid line false s) s
  let s := l2Drop (lineKey cid line) s
  { s with cores := s.cores.map (fun kc =>
      (kc.1, { kc.2 with icache := kc.2.icache.filter (fun r => !(r.cid == cid && r.line == line)) })) }

/-- The pages of an image range change: no cache holds a line of it. -/
def dropImageLines (r : LaunchRec) (s : State) : State :=
  (List.range (imageLines r)).foldl (fun s i => dropLine r.cid (r.image / 128 + i) s) s

/-- The source pages are mapped at an image range again. -/
def unmapImage (launch : Nat) (r : LaunchRec) (s : State) : State :=
  if s.imagePages.any (fun g => g.launch == launch) then
    (let s := dropImageLines r s
     { s with imagePages := s.imagePages.filter (fun g => g.launch != launch) })
  else s

/-- The fresh image of a launch with relocation entries is written to new physical pages, which are mapped at IMAGE for
it (R414). Which pages is not said: pages that no page table entry names (log 91). -/
def writeImage (launch : Nat) (s : State) : State :=
  match Sparse.find? s.launches launch with
  | none => s
  | some l =>
    match l.baked, Sparse.find? s.contexts l.record.cid with
    | _ :: _, some c =>
      let s := dropImageLines l.record s
      let pa := Config.imageFrames + s.imageGen * 2 ^ 32
      let page : ImagePages :=
        { cid := l.record.cid, launch := launch, va := l.record.image, size := 128 * imageLines l.record, pa := pa }
      { s with mem := Memory.writeAll s.mem pa (imageBytes s c l), imageGen := s.imageGen + 1,
               imagePages := page :: s.imagePages.filter (fun g => g.launch != launch) }
    | _, _ => s

/-- A circle of a group table: its ranges and its count (R170). -/
structure Group where
  id      : Nat
  members : List (Nat × Nat)
  count   : Nat

/-- The range list of a circle. -/
def readRanges (s : State) (c : Context) (a : Nat) : Nat → List (Nat × Nat)
  | 0 => []
  | n + 1 => (tableNat s c a 4, tableNat s c (a + 4) 4) :: readRanges s c (a + 8) n

/-- Ranges ascend, are disjoint, and lie below CREWS. -/
def rangesOk (crews : Nat) : Nat → List (Nat × Nat) → Bool
  | _, [] => true
  | lo, (f, l) :: rs => decide (lo ≤ f) && decide (f ≤ l) && decide (l < crews) && rangesOk crews (l + 1) rs

/-- The members of some ranges. -/
def rangeCount (rs : List (Nat × Nat)) : Nat := rs.foldl (fun n r => n + (r.2 + 1 - r.1)) 0

/-- Circle i of a group table: none when it breaks R170, `some none` when it is unused. DESIGN CHOICE (log 107): the
RANGEOFF and COUNT of an unused circle are not looked at. -/
def readGroup (s : State) (c : Context) (r : LaunchRec) (i : Nat) : Option (Option Group) :=
  let a := r.circles + 16 * i
  let n := tableNat s c a 2
  let off := tableNat s c (a + 4) 4
  let count := tableNat s c (a + 8) 4
  if tableNat s c (a + 2) 2 ≠ 0 ∨ tableNat s c (a + 12) 4 ≠ 0 then none
  else if n = 0 then some none
  else if off % 8 ≠ 0 ∨ !mapped s c (r.circles + off) (8 * n) then none
  else
    let rs := readRanges s c (r.circles + off) n
    if rangesOk r.crews 0 rs && decide (rangeCount rs = count) then some (some ⟨i, rs, count⟩) else none

/-- A crew belongs to a circle. -/
def Group.has (g : Group) (crew : Nat) : Bool := g.members.any (fun r => decide (r.1 ≤ crew) && decide (crew ≤ r.2))

/-- The group table, if it breaks no rule (R171). -/
def readGroups (s : State) (c : Context) (r : LaunchRec) : Option (List Group) :=
  if r.circles = 0 then some []
  else if !mapped s c r.circles 4096 then none
  else
    match (List.range 256).mapM (readGroup s c r) with
    | none => none
    | some gs =>
      let gs := gs.filterMap id
      if (List.range r.crews).all (fun k => decide ((gs.filter (fun g => g.has k)).length ≤ 4)) then some gs else none

/-- CIRC of a crew: its circles in ascending order, then 0xFF (R171). -/
def circOfCrew (ids : List Nat) : Word :=
  BitVec.ofNat 32 ((List.range 4).foldl (fun x k => x + (ids.getD k 0xFF) * 256 ^ k) 0)

/-! ## Banks (R229) -/

/-- Banks of a cluster that a launch takes. -/
def bankNeed (r : LaunchRec) : Nat :=
  let u := if r.udepth = 0 then 0 else 8 * perCore r * r.width * (32 + 16 * r.udepth)
  (r.spad + u + 131071) / 131072

/-- The unallocated banks of a cluster. -/
def idleBanks (s : State) (cl : Nat) : List Nat := (List.range 64).filter (fun b => decide ((getBank s cl b).mode = .unallocated))

/-- A bank becomes scratch of a launch; one in deep-off wakes. -/
def giveScratch (launch cl b : Nat) (s : State) : State :=
  let s := modBank cl b (fun k => { k with mode := .scratch, owner := some launch, esz := 0, valid := [], fifo := [],
                                           wakes := 0, lastAt := s.chiptime }) s
  if (getBank s cl b).pwr = .deepOff then startWake cl b false s else touchBank cl b s

/-- A launch takes its banks of a cluster: the lowest-numbered ones (log 22). -/
def takeBanks (launch : Nat) (r : LaunchRec) (s : State) (cl : Nat) : State :=
  let bs := (idleBanks s cl).take (bankNeed r)
  if bs.isEmpty then s
  else bs.foldl (fun s b => giveScratch launch cl b s) (modLaunch launch (fun l => { l with spad := Sparse.put l.spad cl (cl, bs) }) s)

/-- The launch's slot number in a cluster: the lowest free one. -/
def takeSlot (launch : Nat) (s : State) (cl : Nat) : State :=
  let used := s.launches.flatMap (fun kl => (kl.2.slots.filter (fun p => p.1 == cl)).map Prod.snd)
  let slot := ((List.range 64).find? (fun i => !used.contains i)).getD 0
  modLaunch launch (fun l => { l with slots := l.slots ++ [(cl, slot)] }) s

/-! ## The dispatcher (R412 to R416) -/

/-- What becomes of a record: it waits, it is rejected for a reason (R415), or it starts. -/
inductive Fate where
  | waits
  | rejected (reason : Nat)
  | starts (l : Launch) (groups : List Group)

/-- A cluster set of a launch. -/
def launchClusters (l : Launch) : List Nat := ((l.unplaced.map (homeCore l)).map clusterOf).eraseDups

/-- Where an urgent launch goes (R397, R407): the cores that its partition sets aside, the shared reserve, or the
partition's other cores; only the first while the shared reserve is off. -/
def urgentCores (s : State) (key part : Nat) (l : Launch) : List Nat :=
  let all := spanCores s part
  let fit (avail : List Nat) : Bool := !avail.isEmpty && allFit s key { l with mapping := mapOnto all avail }
  if fit (reservedCores s part) || !s.reserveOn then reservedCores s part
  else if fit (sharedCores s part) then sharedCores s part
  else openCores s part

/-- A launch as its record asks for it, with its cores. -/
def plan (s : State) (key part : Nat) (r : LaunchRec) (ident : Nat) : Launch :=
  let all := spanCores s part
  let l := Launch.accepted r ident part s.chiptime (List.range r.crews) all
  { l with mapping := mapOnto all (if r.prio = 3 then urgentCores s key part l else openCores s part) }

/-- A launch of the context runs from the image range (R414). -/
def imageBusy (s : State) (r : LaunchRec) : Bool :=
  s.launches.any (fun kl => decide (kl.2.record.cid = r.cid) && decide (kl.2.record.image = r.image))

/-- The banks, circle states, image range and places that a launch waits for. -/
def mustWait (s : State) (key : Nat) (l : Launch) (gs : List Group) : Bool :=
  (decide (l.record.prio = 3) && (urgentCores s key l.part l).isEmpty) || imageBusy s l.record || decide (Config.circleStates < s.circles.length + gs.length)
    || (launchClusters l).any (fun cl => decide ((idleBanks s cl).length < bankNeed l.record))
    || (if bit l.record.flags 0 then !allFit s key l else !someFit s key l && decide (l.record.prio ≠ 3))

/-- The fate of the record at an address for a queue of a partition. -/
def fateOf (s : State) (key part a : Nat) : Fate :=
  let r := readRec s a
  if !launchRecOk s a r then .rejected 1
  else
    match Sparse.find? s.contexts r.cid with
    | none => .rejected 2
    | some c =>
      if leadOf s c.part ≠ leadOf s part ∨ c.poisoned then .rejected 2
      else if !imageOk c r then .rejected 1
      else
        let l := plan s key c.part r (if c.lastId + 1 < 2 ^ 32 then c.lastId + 1 else 1)
        if l.logical.isEmpty then .waits
        else
          match readRelocs s c r l.logical, readGroups s c r with
          | none, _ => .rejected 3
          | _, none => .rejected 4
          | some rs, some gs =>
            let banks := match Sparse.find? s.parts (leadOf s part) with | some p => p.banks | none => 32
            if 64 - banks < bankNeed r then .rejected 5
            else if bit r.flags 0 ∧ l.logical.length * perCore r < r.crews then .rejected 6
            else if mustWait s key l gs then .waits
            else .starts { l with
              fresh := rs.foldl (fun m x => Sparse.put m x.va (BitVec.ofNat 32 (bakeWord x.word (l.mapping.getD x.logical 0)))) []
              baked := rs.map (fun x => (x.va, x.logical)) } gs

/-- The diagnostic record is zeroed (R416). -/
def clearDiag (r : LaunchRec) (s : State) : State :=
  if r.diag = 0 then s
  else (List.range 4).foldl (fun s i =>
    (l2WriteRaw (homeSlice r.cid (r.diag + 8 * i) / 32) r.cid (r.diag + 8 * i) (leBytes 8 0) .clear s).2) s

/-- The cores that an urgent launch wants and that lack the places. -/
def wantedCores (s : State) (key : Nat) (l : Launch) : List Nat :=
  l.mapping.eraseDups.filter (fun core => decide (freePlaces s core key l.record < assigned l core l.unplaced))

/-- A launch starts: its identifier, circles, banks and slots; its crews start where they have places; an urgent one
asks for the cores that it lacks (R397). -/
def startLaunch (key : Nat) (l : Launch) (gs : List Group) (s : State) : State :=
  let r := l.record
  let s := modContext r.cid (fun c => { c with lastId := l.ident }) { s with launches := Sparse.put s.launches key l }
  let s := { s with circles := gs.foldl (fun m g => Sparse.put m (circleKey key g.id)
    { members := g.members, count := g.count, arrived := [], retired := [], generation := 0 }) s.circles }
  let cls := launchClusters l
  let s := cls.foldl (takeSlot key) (cls.foldl (takeBanks key r) (clearDiag r s))
  let s := writeImage key (phaseWakes key s)
  let want := if r.prio = 3 then wantedCores s key l else []
  due (l.mapping.eraseDups.flatMap (startsAt s) ++ (if want.isEmpty then [] else [.narrowing l.part want .urgent])) s

/-- The device and a queue's partition take launches. -/
def dispatchOpen (s : State) (q : Queue) : Bool :=
  q.assigned && !q.stall && decide (q.head ≠ q.tail) && !s.station.halted &&
    (spanParts s q.part).all (fun kp => !kp.2.swapped && !kp.2.stopped)

/-- HEAD moves past a record; the queue has had its turn among those of the record's priority. -/
def consume (queue : Nat) (stall : Bool) (s : State) : State :=
  let served := match Sparse.find? s.queues queue with
    | some q => Sparse.put s.served (headPrio s q) queue
    | none => s.served
  { s with served := served,
           queues := Sparse.alter s.queues queue (fun q => { q with head := (q.head + 1) % 2 ^ 64, stall := stall }) }

/-- Where the record at a queue's head stands, and the key that its launch would take. -/
def headAt (q : Queue) : Nat := q.base + 128 * (q.head % 2 ^ q.log)
def nextLaunch (s : State) : Nat := Sparse.freshKey s.launches (s.launches.length + 1) 1

/-- A queue's head record need not wait. -/
def queueMoves (s : State) (queue : Nat) : Bool :=
  match Sparse.find? s.queues queue with
  | some q => dispatchOpen s q && (match fateOf s (nextLaunch s) q.part (headAt q) with | .waits => false | _ => true)
  | none => false

/-- The first queue ahead of this one in the dispatcher's order whose record need not wait (R412). -/
def queueAhead (s : State) (queue : Nat) : Option Nat :=
  ((queueOrder s).takeWhile (· != queue)).find? (queueMoves s)

/-- LAUNCH_RECORD_DISPATCH: the record at HEAD waits, is rejected, or its launch starts; the next record follows in
its turn. A queue ahead of this one goes first. -/
def execLaunchRecordDispatch (queue : Nat) (s : State) : Host.Outcome State Fault Refusal :=
  .next (match Sparse.find? s.queues queue with
    | none => s
    | some q =>
      if !dispatchOpen s q then s
      else match queueAhead s queue with
      | some k => due [.launchRecordDispatch k, .launchRecordDispatch queue] s
      | none =>
        let a := headAt q
        let key := nextLaunch s
        (match fateOf s key q.part a with
         | .waits => s
         | .rejected reason =>
           postTo (leadOf s q.part) { seq := 0, flg := 0, skind := 5, sidx := 0, type := 2, cid := recNat s a 70 2, launch := 0,
                                      who := 0, arg0 := reason, arg1 := 0 } (consume queue true s)
         | .starts l gs => due [.launchRecordDispatch queue] (startLaunch key l gs (consume queue false s))))

/-! ## Crews and shares start -/

/-- The registers of a crew or scout at its start (R27, R176, R185). -/
def startRegs (r : LaunchRec) (crew : Bool) : Regs :=
  let m := Sparse.set 0 (Sparse.set 0 [] 2 (BitVec.ofNat 32 r.args)) 3 (BitVec.ofNat 32 (r.args / 2 ^ 32))
  { Regs.start with s := if crew && bit r.flags 1 then Sparse.set 0 m 4 (BitVec.ofNat 32 r.queue) else m }

/-- HOMENUM of a crew (R160). -/
def homeNumber (l : Launch) (crew : Nat) : Nat := Nat.min (logicalCore l crew) 510

/-- The circles of a launch that a crew belongs to. -/
def crewCircles (s : State) (launch crew : Nat) : List Nat :=
  (s.circles.filter (fun kc => kc.1 / 256 == launch && kc.2.members.any (fun r => decide (r.1 ≤ crew) && decide (crew ≤ r.2)))).map
    (fun kc => kc.1 % 256)

/-- The lowest place of a launch on a core that none of its crews has (R157). -/
def freeSlot (s : State) (core launch : Nat) : Nat :=
  let used := ((crewsOn s core).filter (fun t => decide (t.launch = launch))).map Thread.slot
  ((List.range 64).find? (fun i => !used.contains i)).getD 0

/-- A crew at its start on its core. -/
def crewThread (launch : Nat) (l : Launch) (crew : Nat) (s : State) : Thread :=
  { Thread.begin .crew launch crew (homeCore l crew) (homeNumber l crew) l.record.width l.record.vregs
      (circOfCrew (crewCircles s launch crew)) s.chiptime (startRegs l.record true) (l.record.image + l.record.entry) with
    slot := freeSlot s (homeCore l crew) launch }

/-- A crew starts on its core; cache banks that the launch's phase or minimum requires there power on (R228). -/
def startCrew (launch : Nat) (l : Launch) (crew : Nat) (s : State) : State :=
  phaseWakes launch (modLaunch launch (fun l => { l with unplaced := l.unplaced.filter (· != crew) })
    { s with threads := Sparse.put s.threads (crewTid launch crew) (crewThread launch l crew s) })

/-- The launch's partition runs. -/
def partRuns (s : State) (part : Nat) : Bool := (spanParts s part).all (fun kp => !kp.2.swapped && !kp.2.stopped)

/-- A launch may start crews on a core: an urgent one anywhere, another one where no urgent launch has the core (R397). -/
def mayStart (s : State) (l : Launch) (core : Nat) : Bool := decide (l.record.prio = 3) || (openCores s l.part).contains core

/-! ### Crews that have not started are remapped (R394, R401) -/

/-- The cores of a launch: an urgent one keeps to its own and the reserves. -/
def availCores (s : State) (l : Launch) : List Nat :=
  if l.record.prio = 3 then (l.mapping ++ reservedCores s l.part ++ sharedCores s l.part).eraseDups else openCores s l.part

/-- A launch has a slot number in a cluster, and banks where they are free. -/
def equip (launch cl : Nat) (s : State) : State :=
  match Sparse.find? s.launches launch with
  | some l =>
    if l.slots.any (fun p => p.1 == cl) then s
    else
      let s := takeSlot launch s cl
      if bankNeed l.record ≤ (idleBanks s cl).length then takeBanks launch l.record s cl else s
  | none => s

/-- A relocated word names a logical core. -/
def Launch.names (l : Launch) (i : Nat) : Bool := l.baked.any (fun b => b.2 == i)

/-- The physical core of a logical core changes; a relocated word that names it needs a fresh image (R395, R401). -/
def mapLogical (launch i core : Nat) (s : State) : State :=
  match Sparse.find? s.launches launch with
  | some l =>
    if l.mapping.getD i core = core then s
    else
      let s := modLaunch launch (fun l => { l with mapping := l.mapping.set i core }) s
      if l.names i ∧ !(s.agenda.contains (.imageSwitch launch)) then due [.imageSwitch launch] s else s
  | none => s

/-- The core of the lowest resident started crew of a logical core (R401). -/
def lowestCore (s : State) (launch : Nat) (l : Launch) (i : Nat) : Option Nat :=
  (Sparse.values (s.threads.filter (fun kt => decide (kt.2.kind = .crew) && decide (kt.2.launch = launch) &&
    decide (kt.2.place = .resident) && logicalCore l kt.2.crewid == i))).head?.map Thread.core

/-- The logical cores of a launch follow their crews (R401). -/
def followCrews (launch : Nat) (is : List Nat) (s : State) : State :=
  is.foldl (fun s i => match Sparse.find? s.launches launch with
    | some l => (match lowestCore s launch l i with | some c => mapLogical launch i c s | none => s)
    | none => s) s

/-- A logical core has crews that have not started, and none that is resident. -/
def Launch.unstarted (l : Launch) (launch i : Nat) (s : State) : Bool :=
  l.unplaced.any (fun c => logicalCore l c == i) &&
    s.threads.all (fun kt => !(decide (kt.2.kind = .crew) && decide (kt.2.launch = launch) && decide (kt.2.place = .resident)
      && logicalCore l kt.2.crewid == i))

/-- The logical cores of a launch follow their crews (R401), and the unstarted crews move off some cores (R394). -/
def remapLaunch (cores : List Nat) (launch : Nat) (s : State) : State :=
  let s := match Sparse.find? s.launches launch with
    | some l => followCrews launch (List.range l.mapping.length) s
    | none => s
  match Sparse.find? s.launches launch with
  | none => s
  | some l =>
    let avail := (availCores s l).filter (fun c => !cores.contains c)
    let known := avail.filter (fun c => l.slots.any (fun p => p.1 == clusterOf c))
    let goal := if known.isEmpty then avail else known
    if goal.isEmpty then s
    else (List.range l.mapping.length).foldl (fun s i =>
      let c := l.mapping.getD i 0
      if cores.contains c ∧ l.unstarted launch i s then
        let core := goal.getD (i % goal.length) c
        due (startsAt s core) (mapLogical launch i core (equip launch (clusterOf core) s))
      else s) s

/-- The scratch banks that the launch took are awake: its allocation is complete (R226). -/
def banksAwake (s : State) (l : Launch) : Bool :=
  l.spad.all (fun kb => kb.2.2.all (fun b => decide ((getBank s kb.2.1 b).pwr ≠ .waking)))

/-- The first crews of a core that is not theirs any longer move off it, once its crews have left (R394). -/
def leaveCore (launch : Nat) (l : Launch) (core : Nat) (s : State) : State :=
  if mayStart s l core then s else remapLaunch [core] launch s

/-- CREW_START (R157). -/
def execCrewStart (launch crew : Nat) (s : State) : Host.Outcome State Fault Refusal :=
  .next (match Sparse.find? s.launches launch with
    | none => s
    | some l =>
      if l.firstInLine crew && decide (l.record.scout = 0xFFFFFFFF) && !l.suspended && partRuns s l.part
          && banksAwake s l && mayStart s l (homeCore l crew) && decide (1 ≤ freePlaces s (homeCore l crew) launch l.record) then
        let s := startCrew launch l crew s
        due (startsAt s (homeCore l crew)) s
      else leaveCore launch l (homeCore l crew) s)

/-- The crews of a share. -/
def shareCrews (l : Launch) (share : Nat) : List Nat :=
  let k := perCore l.record
  (List.range k).filterMap (fun i => if share * k + i < l.record.crews then some (share * k + i) else none)

/-- The crews of a share that have not started: all of them, or those that were killed (R177, R335). -/
def shareWaiting (l : Launch) (share : Nat) : List Nat := (shareCrews l share).filter (fun c => l.unplaced.contains c)

/-- A verdict is awaited for a crew of a share. -/
def shareHeld (l : Launch) (share : Nat) : Bool := l.held.any (fun h => (shareCrews l share).contains h.2)

/-- A scout program starts at the scout entry for its share (R176). -/
def startScout (launch share : Nat) (l : Launch) (crew : Nat) (crews : List Nat) (s : State) : State :=
  let t := Thread.begin .scout launch crew (homeCore l crew) (homeNumber l crew) 1 0 0xFFFFFFFF s.chiptime
    (startRegs l.record false) (l.record.image + l.record.scout)
  { s with threads := Sparse.put s.threads (scoutTid launch share) t,
           shares := Sparse.put s.shares (shareKey launch share) { crews := crews, trap := TrapRegs.start, entries := [], base := 0,
                                                                        closed := false } }

/-- A share of the same logical core has not ended. -/
def shareBusy (s : State) (launch : Nat) (l : Launch) (crew : Nat) : Bool :=
  s.threads.any (fun kt => decide (kt.2.kind = .crew) && decide (kt.2.launch = launch) && logicalCore l kt.2.crewid == logicalCore l crew)

/-- SHARE_START (R177). -/
def execShareStart (launch share : Nat) (s : State) : Host.Outcome State Fault Refusal :=
  .next (match Sparse.find? s.launches launch with
    | none => s
    | some l =>
      match shareWaiting l share with
      | [] => s
      | c :: cs =>
        if l.firstInLine c && !shareHeld l share && decide (l.record.scout ≠ 0xFFFFFFFF) && !l.suspended
            && partRuns s l.part && banksAwake s l && mayStart s l (homeCore l c) && !shareBusy s launch l c
            && decide ((c :: cs).length ≤ freePlaces s (homeCore l c) launch l.record) then
          startScout launch share l ((shareCrews l share).headD c) (c :: cs) ((c :: cs).foldl (fun s k => startCrew launch l k s) s)
        else leaveCore launch l (homeCore l c) s)

/-! ## The end of a launch (R417) -/

/-- What a launch holds is freed: its fresh image, banks, circle states, shares, engine images, and the sequencers that have ended. -/
def freeLaunch (launch : Nat) (s : State) : State :=
  let s := match Sparse.find? s.launches launch with | some l => unmapImage launch l.record s | none => s
  let s := s.clusters.foldl (fun s kc =>
    (kc.2.banks.filter (fun kb => kb.2.owner == some launch)).foldl (fun s kb => freeBank kc.1 kb.1 s) s) s
  let gone := (s.threads.filter (fun kt => decide (kt.2.launch = launch))).map Prod.fst
  { s with
    circles := s.circles.filter (fun kc => kc.1 / 256 != launch)
    shares := s.shares.filter (fun kc => kc.1 / 2 ^ 16 != launch)
    threads := s.threads.filter (fun kt => decide (kt.2.launch ≠ launch))
    cores := s.cores.map (fun kc => (kc.1, [0, 1].foldl (fun c w =>
      if (c.seq w).tid.any (fun t => gone.contains t) then c.setSeq w Seq.free else c) kc.2))
    launches := Sparse.erase s.launches launch }

/-- The written words of a context's lines in the cluster caches reach the L2 level (R417). -/
def flushContext (cid : Nat) (s : State) : State :=
  (List.range 64).foldl (fun s cl => writeBackAll cl (fun l => l.cid == cid) s) s

/-- The completion word: a release write of system scope; false when it cannot be written. -/
def completionWord (r : LaunchRec) (s : State) : Bool × State :=
  if r.cpladdr = 0 then (true, s)
  else
    match l2FillFor .device (homeSlice r.cid r.cpladdr / 32) s r.cid r.cpladdr with
    | (.error _, s) => (false, s)
    | (.ok l, s) =>
      if l.shadow then (false, s)
      else
        match l2WriteRaw (homeSlice r.cid r.cpladdr / 32) r.cid r.cpladdr (leBytes 8 r.cplval) .clear s with
        | (.ok _, s) => (true, s)
        | (.error _, s) => (false, s)

/-- An urgent launch that ends gives back the cores that it took. -/
def giveBack (l : Launch) (s : State) : State :=
  if l.record.prio = 3 then
    { s with parts := s.parts.map (fun kp => if leadOf s kp.1 = leadOf s l.part then (kp.1, { kp.2 with vacated := [] }) else kp) }
  else s

/-- The partition of a cluster is idle: no launch of it runs. -/
def clusterIdle (s : State) (cl : Nat) : Bool := s.launches.all (fun kl => !spanHas s kl.2.part cl)

/-- Clusters whose partition is idle now have the voltage raised that waited for it (R437). -/
def idleRaises (s : State) : State :=
  ((List.range Config.clusters).filter (fun cl => (getHealth s cl).raise && clusterIdle s cl)).foldl
    (fun s cl => modHealth cl (fun h => { h with vset := h.vset + 5, raise := false }) s) s

/-- LAUNCH_END. -/
def execLaunchEnd (launch : Nat) (s : State) : Host.Outcome State Fault Refusal :=
  .next (match Sparse.find? s.launches launch with
    | none => s
    | some l =>
      if !launchDone launch s then s
      else
        let (ok, s) := completionWord l.record (flushContext l.record.cid s)
        let s := post l.record.cid 5 0 1 l.ident 0 l.requeued (ofBool (!ok)) s
        let s := idleRaises (giveBack l (freeLaunch launch s))
        l.mapping.eraseDups.foldl (fun s core => placeFreed core s) (due (waitingQueues s) s))

end Sys2Proof.Machine
end

