-- ==== Sys2Proof/Machine/Faults.lean ====
section
/-! DEFINITION. The fault queue and its verdicts (R382 to R384, R440), and uncorrectable errors with their confinement
(R385, R386). -/

namespace Sys2Proof.Machine

/-! ## Records (R382) -/

/-- The TOKENs of a thread's parked splits. -/
def Thread.tokens (t : Thread) : List Nat := t.splits.filterMap (fun ks => ks.2.parked.map Parked.token)

/-- A saved engine is a context's. -/
def EngineImage.isOf (x : EngineImage) (s : State) (cid : Nat) : Bool :=
  (x.mprog.toList ++ x.cprog.toList).any (fun t => cidOf s t.launch == cid)

/-- The TOKENs of a context's agents that are parked, or whose crews wait for a verdict. -/
def parkedTokens (s : State) (cid : Nat) : List Nat :=
  (s.threads.flatMap (fun kt => if cidOf s kt.2.launch = cid then kt.2.tokens else []))
  ++ (s.clusters.flatMap (fun kc => kc.2.copyq.filterMap (fun c => if cidOf s c.launch = cid then c.why.map Parked.token else none)))
  ++ (s.cores.flatMap (fun kc => match engineLaunch s kc.1 with
      | some (launch, _) => if cidOf s launch = cid then kc.2.ops.filterMap (fun o => o.parked.map Parked.token) else []
      | none => []))
  ++ (s.engines.flatMap (fun x => if x.isOf s cid then
      (x.mprog.toList ++ x.cprog.toList).flatMap Thread.tokens ++ x.ops.filterMap (fun o => o.parked.map Parked.token) else []))
  ++ (s.launches.flatMap (fun kl => if kl.2.record.cid = cid then kl.2.held.map Prod.fst else []))

/-- Places whose agents are parked no longer are free (R382). -/
def freeFaultPlaces (cid : Nat) (s : State) : State :=
  modContext cid (fun c => { c with fqplaces := c.fqplaces.filter (fun p => (parkedTokens s cid).contains p.2) }) s

/-- FAULT_RECORD_WRITE: records go to the ring while their places are free; those that wait are tried again. -/
def execFaultRecordWrite (cid : Nat) (s : State) : Host.Outcome State Fault Refusal :=
  .next (let n := match Sparse.find? s.contexts cid with | some c => c.faults.length | none => 0
    let s := writeFaults cid (n + 1) (freeFaultPlaces cid s)
    match Sparse.find? s.contexts cid with
    | some c => if c.faults.isEmpty ∨ c.fqbase = 0 then s else scheduleOnce (s.chiptime + 64) (.faultRecordWrite cid) s
    | none => s)

/-! ## Verdicts (R383) -/

/-- A verdict for a TOKEN is stored in the split that is parked under it. -/
def Split.judge (token : Nat) (ok : Bool) (sp : Split) : Split :=
  if (sp.parked.map Parked.token) = some token then { sp with parked := sp.parked.map (fun p => { p with verdict := some ok }) } else sp

/-- A verdict is stored in a saved program (R384, R389). -/
def Thread.judge (token : Nat) (ok : Bool) (t : Thread) : Thread :=
  { t with splits := t.splits.map (fun ks => (ks.1, ks.2.judge token ok)) }

/-- The verdict reaches parked splits; it is kept in the record of one that is saved (R384). -/
def splitVerdict (cid token : Nat) (ok : Bool) (s : State) : State :=
  let hits := s.threads.flatMap (fun kt => if cidOf s kt.2.launch = cid then
    kt.2.splits.filterMap (fun ks => if (ks.2.parked.map Parked.token) = some token then some (kt.1, ks.1) else none) else [])
  hits.foldl (fun s h => wake h.1 h.2 (modSplit h.1 h.2 (Split.judge token ok) s)) s

/-- The verdict reaches a paused copy command: it goes on, or is abandoned (R352). -/
def copyVerdict (cid token : Nat) (ok : Bool) (s : State) : State :=
  s.clusters.foldl (fun s kc =>
    match kc.2.copyq with
    | [] => s
    | c :: _ =>
      if cidOf s c.launch = cid ∧ (c.why.map Parked.token) = some token then
        let s := modCopy kc.1 (fun c => { c with why := none }) s
        if ok then due [.copyCommandStart kc.1] s else abandonCopy kc.1 8 (issuerCode c.tid) s
      else s) s

/-- The fate of a parked operation of an engine (R337, R440): it replays or goes on; without its operand the
sequencer ends on a trap; a drain ends without its remaining writes. -/
def opVerdict (core i : Nat) (o : EngineOp) (ok : Bool) (s : State) : State :=
  let s := modOp core i (fun o => { o with parked := none }) s
  if ok then due (startEvents core) s
  else if o.kind.isDrain then
    match engineLaunch s core with
    | some (launch, _) =>
      finishDrain core i o (post (cidOf s launch) 1 (coreSidx core) 8 (identOf s launch) 0 (issuerCode (seqTid core 0)) 0 s)
    | none => finishDrain core i o s
  else
    let s := modCore core (fun c => { c with ops := c.ops.eraseIdx i }) s
    let pc := match getSplit s (seqTid core 0) 0 with | some sp => sp.pc | none => 0
    let va := match o.parked with | some p => p.va | none => 0
    let s := raiseTrap (seqTid core 0) 0 { cause := causeAccess, code := 0, isOpen := false, pc := pc, mask := 1, faultva := va } s
    -- the operations behind it run to their end (R347)
    due (startEvents core) (pumpOps core 9 (wakeAll (fun w => w == .engine core) s))

/-- The verdict reaches a parked operation of an engine, on its core or saved with its sequencers. -/
def engineVerdict (cid token : Nat) (ok : Bool) (s : State) : State :=
  let hit (o : EngineOp) : Bool := decide ((o.parked.map Parked.token) = some token)
  let s := s.cores.foldl (fun s kc =>
    match kc.2.ops.findIdx? hit with
    | some i =>
      (match kc.2.ops[i]?, engineLaunch s kc.1 with
       | some o, some (launch, _) => if cidOf s launch = cid then opVerdict kc.1 i o ok s else s
       | _, _ => s)
    | none => s) s
  { s with engines := s.engines.map (fun x => if x.isOf s cid then { x with
    mprog := x.mprog.map (Thread.judge token ok), cprog := x.cprog.map (Thread.judge token ok)
    ops := x.ops.map (fun o =>
      if hit o then { o with parked := o.parked.map (fun p => { p with verdict := some ok }) } else o) } else x) }

/-- The verdict lets the crews that wait for it start again, whatever it says (R335); what they have written to memory
stands (R336). -/
def heldVerdict (cid token : Nat) (s : State) : State :=
  s.launches.foldl (fun s kl =>
    let back := (kl.2.held.filter (fun h => h.1 == token)).map Prod.snd
    if kl.2.record.cid ≠ cid ∨ back.isEmpty then s
    else
      let s := modLaunch kl.1 (fun l => { l with held := l.held.filter (fun h => h.1 != token),
                                                 unplaced := back.foldl (fun u c => insertCrew c u) l.unplaced }) s
      ((back.map (homeCore kl.2)).eraseDups).foldl (fun s core => placeFreed core s) s) s

/-- A fault's record is not written yet: its agent stays parked whatever is written (R382). -/
def faultPending (s : State) (cid token : Nat) : Bool :=
  match Sparse.find? s.contexts cid with | some c => c.faults.any (fun f => f.token == token) | none => false

/-- A verdict for a TOKEN: its place in the ring is free; a TOKEN of no parked agent, or of one whose record is not
written, is ignored. -/
def resolveFault (cid token : Nat) (ok : Bool) (s : State) : State :=
  if faultPending s cid token then s
  else
  let s := modContext cid (fun c => { c with fqplaces := c.fqplaces.filter (fun p => p.2 != token) }) s
  let s := heldVerdict cid token (engineVerdict cid token ok (copyVerdict cid token ok (splitVerdict cid token ok s)))
  due [.faultRecordWrite cid] s

/-- FQRES_RETRY: the window accepts writes once step 6 has ended (R429). -/
def execFqresRetry (cid token : Nat) (s : State) : Host.Outcome State Fault Refusal :=
  .next (if s.station.stage = 6 then resolveFault cid token true s else s)

/-- FQRES_UNRESOLVABLE. -/
def execFqresUnresolvable (cid token : Nat) (s : State) : Host.Outcome State Fault Refusal :=
  .next (if s.station.stage = 6 then resolveFault cid token false s else s)

/-! ## Confinement (R386) -/

/-- The sequencers that serve a launch are gone, with what their engines have queued. -/
def dropSequencers (launch : Nat) (s : State) : State :=
  let gone := (s.threads.filter (fun kt => decide (kt.2.launch = launch) &&
    (decide (kt.2.kind = .mseq) || decide (kt.2.kind = .cseq)))).map Prod.fst
  let dead := (s.cores.filter (fun kc => kc.2.mseq.tid.any (fun t => gone.contains t))).map Prod.fst
  let s := dead.foldl (fun s core => dropEnds core s) s
  { s with
    threads := s.threads.filter (fun kt => !gone.contains kt.1)
    cores := s.cores.map (fun kc =>
      let c := kc.2
      let c := if c.mseq.tid.any (fun t => gone.contains t) then { c with mseq := Seq.free, ops := [] } else c
      (kc.1, if c.cseq.tid.any (fun t => gone.contains t) then { c with cseq := Seq.free } else c))
    engines := s.engines.filter (fun x => (match x.mprog with | some t => t.launch != launch | none => true) &&
      (match x.cprog with | some t => t.launch != launch | none => true)) }

/-- The crews of a launch that satisfy a test. -/
def crewsWith (s : State) (launch : Nat) (p : Thread → Bool) : List Nat :=
  (s.threads.filter (fun kt => decide (kt.2.kind = .crew) && decide (kt.2.launch = launch) && p kt.2)).map Prod.fst

/-- Every crew of a launch is killed, those that have not started among them (R386). -/
def killLaunchCrews (launch : Nat) (s : State) : State :=
  match Sparse.find? s.launches launch with
  | none => s
  | some l =>
    let s := modLaunch launch (fun l => { l with unplaced := [], held := [] }) s
    let s := { s with threads := l.inLine.foldl (fun ts c => Sparse.put ts (crewTid launch c) (crewThread launch l c s)) s.threads }
    (crewsWith s launch (fun _ => true)).foldl (fun s tid => killCrew tid 0 0 s) s

/-- A launch ends poisoned: its crews are killed, those that have not started among them, and none is re-queued. -/
def endPoisoned (launch : Nat) (s : State) : State :=
  checkLaunch launch (killLaunchCrews launch (dropSequencers launch (modLaunch launch (fun l => { l with poisoned := true }) s)))

/-- The launches that satisfy a test end poisoned. -/
def endLaunches (p : Launch → Bool) (s : State) : State :=
  ((s.launches.filter (fun kl => p kl.2)).map Prod.fst).foldl (fun s k => endPoisoned k s) s

/-- The event of a confinement: 0 context, 1 partition, 2 device. -/
def confineEvent (cid level : Nat) (s : State) : State := post cid 8 0 15 0 0 level 0 s

/-- Confinement to a context: it accepts no launch until it is cleared. -/
def confineContext (cid : Nat) (s : State) : State :=
  confineEvent cid 0 (modContext cid (fun c => { c with poisoned := true }) (endLaunches (fun l => l.record.cid == cid) s))

/-- Confinement to a partition, or its span: it waits for a partition reset. -/
def confinePartition (part : Nat) (s : State) : State :=
  let lead := leadOf s part
  let s := endLaunches (fun l => leadOf s l.part == lead) s
  let ps := s.parts.map (fun (kp : Nat × Partition) => if leadOf s kp.1 = lead then (kp.1, { kp.2 with stopped := true }) else kp)
  let s := { s with parts := ps }
  (s.contexts.filter (fun kc => leadOf s kc.2.part == lead)).foldl (fun s kc => confineEvent kc.1 1 s) s

/-- Confinement to the device: every partition stops, and a device reset is needed. -/
def confineDevice (s : State) : State :=
  let s := s.contexts.foldl (fun s kc => confineEvent kc.1 2 s) s
  { s with station := { s.station with halted := true },
           parts := s.parts.map (fun kp => (kp.1, { kp.2 with stopped := true })) }

/-- The owner class of a physical address: that of its 2 MiB frame; the pages of fresh code images are system (R385). -/
def ownerClass (s : State) (pa : Nat) : Nat :=
  if Config.imageFrames ≤ pa then 2 else Sparse.get 0 s.frames (pa / 2 ^ 21)

/-- Confinement by owner class, for a context. -/
def confineClass (cls cid : Nat) (s : State) : State :=
  match cls with
  | 0 => confineContext cid s
  | 1 => (match Sparse.find? s.contexts cid with | some c => confinePartition c.part s | none => s)
  | _ => confineDevice s

/-- A corrected or harmless error is counted. -/
def countEcc (s : State) : State := { s with monitors := { s.monitors with ecc := s.monitors.ecc + 1 } }

/-- A clean line is fetched again: no cache holds it any longer. -/
def refetchLine (cid line : Nat) (s : State) : State :=
  let s := { s with clusters := s.clusters.map (fun kc => (kc.1, { kc.2 with
    cache := kc.2.cache.filter (fun l => !(l.cid == cid && l.line == line && l.dirty == 0)) })) }
  match Sparse.find? s.l2 (lineKey cid line) with
  | some l => if l.dirty = 0 then l2Drop (lineKey cid line) s else s
  | none => s

/-- The class of a line that a cache holds: a host-bias page is private. -/
def lineClass (s : State) (cid line : Nat) : Nat :=
  match Sparse.find? s.l2 (lineKey cid line) with
  | some l => if l.host then 0 else ownerClass s (l.pline * 128)
  | none =>
    match Sparse.find? s.contexts cid with
    | some c => (match walk s c (line * 128) with
        | .ok (pte, lo) => if bit pte 4 then 0 else ownerClass s ((imagePa s cid (line * 128)).getD (leafPa pte lo (line * 128)))
        | .error _ => 0)
    | none => 0

/-- ECC_UNCORRECTABLE: the rows of R386. -/
def execEccUncorrectable (place : EccPlace) (s : State) : Host.Outcome State Fault Refusal :=
  .next (match place with
    | .hbm g => { s with poison := Sparse.set false s.poison g true }
    | .walker cid => confineContext cid s
    | .cacheClean cid line => countEcc (refetchLine cid line s)
    | .cacheDirty cid line => confineClass (lineClass s cid line) cid s
    | .subGranuleWrite cid g => confineClass (ownerClass s (32 * g)) cid { s with poison := Sparse.set false s.poison g true }
    | .crew tid => killCrew tid 0 0 s
    | .share launch share =>
      (match Sparse.find? s.launches launch with
       | some l => (crewsWith s launch (fun t => shareOf l t.crewid == share)).foldl (fun s tid => killCrew tid 0 0 s) s
       | none => s)
    | .engine core =>
      (match engineLaunch s core with
       | some (launch, o) => operandFault core 0 launch o ⟨0, none⟩ s
       | none => s)
    | .bankWord cl b =>
      (match (getBank s cl b).owner with
       | some launch => killLaunchCrews launch s
       | none => s)
    | .stash part => confinePartition part s)

/-- PARTITION_RESET: a partition that was stopped, or its span, accepts launches again. -/
def execPartitionReset (part : Nat) (s : State) : Host.Outcome State Fault Refusal :=
  .next (
    let lead := leadOf s part
    let ps := s.parts.map (fun (kp : Nat × Partition) =>
      if leadOf s kp.1 = lead then (kp.1, { kp.2 with stopped := false, vacated := [] }) else kp)
    let cs := s.contexts.map (fun (kc : Nat × Context) =>
      if leadOf s kc.2.part = lead then (kc.1, { kc.2 with poisoned := false }) else kc)
    let s := { s with parts := ps, contexts := cs }
    due (waitingQueues s) s)

end Sys2Proof.Machine
end

