-- ==== Sys2Proof/Machine/Preempt.lean ====
section
/-! DEFINITION. Pre-emption: narrowings (R388, R389, R397 to R399), saves (R390, R391), restores (R392, R393), the
remapping of logical cores (R394, R401), and the image switch (R395, R402). -/

namespace Sys2Proof.Machine

/-! ## Groups (R175, R388) -/

/-- The crews that move with a crew: its share in a scouted launch, its gang, or itself. -/
def groupOf (s : State) (tid : Nat) : List Nat :=
  match Sparse.find? s.threads tid with
  | none => []
  | some t =>
    match Sparse.find? s.launches t.launch with
    | none => [tid]
    | some l =>
      let mates (p : Thread → Bool) : List Nat :=
        (s.threads.filter (fun kt => decide (kt.2.kind = .crew) && decide (kt.2.launch = t.launch) && p kt.2)).map Prod.fst
      if l.record.scout ≠ 0xFFFFFFFF then mates (fun u => shareOf l u.crewid == shareOf l t.crewid)
      else if gangSize t.regs.gang ≠ 0 then
        mates (fun u => u.core == t.core && gangKey u.regs.gang == gangKey t.regs.gang)
      else [tid]

/-- The launches of a partition's span. -/
def spanLaunch (s : State) (part launch : Nat) : Bool :=
  match Sparse.find? s.launches launch with | some l => leadOf s l.part == leadOf s part | none => false

/-- The resident crews of a span that satisfy a test, with those that move with them. -/
def vacated (s : State) (part : Nat) (p : Thread → Bool) : List Nat :=
  let hit := s.threads.filter (fun kt => decide (kt.2.kind = .crew) && decide (kt.2.place = .resident) &&
    spanLaunch s part kt.2.launch && p kt.2)
  (hit.flatMap (fun kt => groupOf s kt.1)).eraseDups

/-- Some crews halt. -/
def haltAll (tids : List Nat) (s : State) : State :=
  tids.foldl (fun s tid => match Sparse.find? s.threads tid with
    | some t => if t.place = .resident then haltCrew tid s else s
    | none => s) s

/-- The launches of a span. -/
def spanLaunches (s : State) (part : Nat) : List Nat := (s.launches.map Prod.fst).filter (spanLaunch s part)

/-! ## Narrowing (R388, R397 to R399) -/

/-- A crew has been on its core for 500 µs (R398). -/
def Thread.settled (t : Thread) (now : Nat) : Bool := decide (t.placedAt + 1350000 ≤ now)

/-- Every crew of some has been on its core for 500 µs. -/
def allSettled (s : State) (tids : List Nat) : Bool :=
  tids.all (fun tid => match Sparse.find? s.threads tid with | some t => t.settled s.chiptime | none => true)

/-- A launch is urgent. -/
def isUrgent (s : State) (launch : Nat) : Bool :=
  match Sparse.find? s.launches launch with | some l => decide (l.record.prio = 3) | none => false

/-- The dirty lines of a cluster cache are written back as release writes. -/
def releaseCluster (cl : Nat) (s : State) : State :=
  (clLines s cl (fun _ => true)).foldl (fun s k => clWriteBack cl k.1 k.2 true s) s

/-- An urgent launch wants cores: their crews leave at their boundaries. -/
def narrowUrgent (part : Nat) (cores : List Nat) (s : State) : State :=
  let s := modPart part (fun p => { p with vacated := (p.vacated ++ cores).eraseDups }) s
  let tids := vacated s part (fun t => cores.contains t.core && !isUrgent s t.launch)
  tids.foldl (fun s tid => modThread tid (fun t => { t with leaving := true }) s) s

/-- Crews leave hot cores, and are marked for it; one that moved within 500 µs stays, with those that move with it. -/
def narrowThermal (part : Nat) (cores : List Nat) (s : State) : State :=
  let tids := (vacated s part (fun t => cores.contains t.core)).filter (fun tid => allSettled s (groupOf s tid))
  haltAll tids (tids.foldl (fun s tid => modThread tid (fun t => { t with thermal := true }) s) s)

/-- A partition loses cores: their crews leave, and whole clusters leave the partition. -/
def narrowPartition (part : Nat) (cores : List Nat) (s : State) : State :=
  let s := haltAll (vacated s part (fun t => cores.contains t.core)) s
  let gone (p : Partition) : List Nat := (List.range 64).filter (fun cl => p.hasCluster cl && (coresOf cl).all (fun c => cores.contains c))
  modPart part (fun p => { p with mask := (gone p).foldl (fun m cl => clearBit m (clusterIndex cl)) p.mask }) s

/-- A span is swapped out whole. -/
def narrowSwap (part : Nat) (s : State) : State :=
  let lead := leadOf s part
  let ps := s.parts.map (fun (kp : Nat × Partition) => if leadOf s kp.1 = lead then (kp.1, { kp.2 with swapped := true }) else kp)
  let cls := (List.range 64).filter (spanHas s part)
  let s := haltAll (vacated s part (fun _ => true)) { s with parts := ps }
  cls.foldl (fun s cl => releaseCluster cl s) s

/-- A cluster keeps no core for a launch (R393). -/
def clusterLost (s : State) (l : Launch) (cl : Nat) : Bool := (availCores s l).all (fun c => clusterOf c != cl)

/-- The clusters that keep crews of a launch. -/
def keepers (s : State) (launch : Nat) (l : Launch) : List Nat :=
  ((availCores s l).map clusterOf).eraseDups.filter (fun cl => s.threads.any (fun kt =>
    decide (kt.2.kind = .crew) && decide (kt.2.launch = launch) && decide (kt.2.place = .resident) && clusterOf kt.2.core == cl))

/-! ## Banks that move (R393) -/

/-- The banks of a cluster that a launch owns. -/
def ownedBanks (s : State) (cl launch : Nat) : List Nat :=
  ((getCluster s cl).banks.filter (fun kb => kb.2.owner == some launch)).map Prod.fst

/-- The numbers that some banks take in a cluster: their own when those are free, else the lowest free ones. -/
def newNumbers (s : State) (cl : Nat) (old : List Nat) : List Nat :=
  let idle := idleBanks s cl
  if old.all (fun b => idle.contains b) then old else idle.take old.length

/-- The new number of a bank. -/
def renumber (old new : List Nat) (b : Nat) : Nat := (((old.zip new).find? (fun p => p.1 == b)).map Prod.snd).getD b

/-- A wait on a bank follows it. -/
def WaitObj.moveBank (x y : Nat) (f : Nat → Nat) : WaitObj → WaitObj
  | .fifoPush cl b e => if cl = x then .fifoPush y (f b) e else .fifoPush cl b e
  | .fifoPop cl b => if cl = x then .fifoPop y (f b) else .fifoPop cl b
  | .fifoFull cl b => if cl = x then .fifoFull y (f b) else .fifoFull cl b
  | .bank cl b => if cl = x then .bank y (f b) else .bank cl b
  | o => o

/-- A wait on a core or its cluster follows the crew. -/
def WaitObj.moveCore (old new : Nat) : WaitObj → WaitObj
  | .latch c launch tag => .latch (if c = old then new else c) launch tag
  | .sequencers c mask => .sequencers (if c = old then new else c) mask
  | .engine c => .engine (if c = old then new else c)
  | .copyQueue cl => .copyQueue (if cl = clusterOf old then clusterOf new else cl)
  | o => o

/-- The waits of a thread change their objects. -/
def Thread.mapWaits (t : Thread) (f : WaitObj → WaitObj) : Thread :=
  { t with splits := t.splits.map (fun ks => (ks.1, { ks.2 with wait := ks.2.wait.map (fun w => { w with obj := f w.obj }) })) }

/-- Every program of a launch, on its core or saved. -/
def mapPrograms (launch : Nat) (f : Thread → Thread) (s : State) : State :=
  let g (t : Thread) : Thread := if t.launch = launch then f t else t
  { s with
    threads := s.threads.map (fun kt => (kt.1, g kt.2))
    engines := s.engines.map (fun x => { x with mprog := x.mprog.map g, cprog := x.cprog.map g }) }

/-- One bank goes to another cluster, with all that it holds; a bank there in deep-off wakes first (R226). -/
def moveBank (x y b c : Nat) (s : State) : State :=
  let k := getBank s x b
  match (getBank s y c).pwr with
  | .deepOff => after Config.deepOffWake (.bankWakeComplete y c) (putBank y c { k with pwr := .waking } (freeBank x b s))
  | .waking => putBank y c { k with pwr := .waking } (freeBank x b s)
  | _ => touchBank y c (putBank y c { k with pwr := .active } (freeBank x b s))

/-- The keys of the scratch sets that crews of a cluster use. -/
def fosterPairs (s : State) (launch : Nat) (l : Launch) (cl : Nat) : List (Nat × Nat) :=
  ((s.threads.filter (fun kt => decide (kt.2.launch = launch) && clusterOf kt.2.core == cl)).map (fun kt =>
    (logicalCore l kt.2.crewid, scratchKey s kt.2))).eraseDups

/-- The banks of a launch go from one cluster to another. -/
def moveBanks (launch x y : Nat) (s : State) : State :=
  match Sparse.find? s.launches launch with
  | none => s
  | some l =>
    let old := ownedBanks s x launch
    let f := renumber old (newNumbers s y old)
    let pairs := fosterPairs s launch l x
    let s := old.foldl (fun s b => moveBank x y b (f b) s) s
    let s := modLaunch launch (fun l => { l with
      spad := l.spad.map (fun k => if k.2.1 = x then (k.1, (y, k.2.2.map f)) else k)
      foster := pairs ++ l.foster.filter (fun p => !(pairs.any (fun q => q.1 == p.1))) }) s
    mapPrograms launch (fun t => t.mapWaits (WaitObj.moveBank x y f)) s

/-- The banks can move now: they fit, no crew of the launch runs there, and no copy command of it is left there. -/
def canMove (s : State) (launch x y : Nat) : Bool :=
  decide ((ownedBanks s x launch).length ≤ (idleBanks s y).length) &&
    s.threads.all (fun kt => !(decide (kt.2.launch = launch) && decide (kt.2.place = .resident) && clusterOf kt.2.core == x)) &&
    (getCluster s x).copyq.all (fun c => c.launch != launch)

/-- A launch that no longer fits is saved whole and suspended (R392, R393). -/
def suspendLaunch (launch : Nat) (s : State) : State :=
  haltAll (crewsWith s launch (fun t => decide (t.place = .resident))) (modLaunch launch (fun l => { l with suspended := true }) s)

/-- The banks of a launch in a vacated cluster in which no crew of it is left, saved ones included, go to a cluster that
keeps crews of it; where none has the banks free the launch is suspended (R393). Banks with saved crews go with them. -/
def evacuate (launch cl : Nat) (s : State) : State :=
  match Sparse.find? s.launches launch with
  | none => s
  | some l =>
    if (ownedBanks s cl launch).isEmpty || !clusterLost s l cl || hasCrews s launch cl || l.suspended then s
    else
      let ks := keepers s launch l
      match ks.find? (fun y => canMove s launch cl y) with
      | some y => moveBanks launch cl y s
      | none =>
        if ks.isEmpty || ks.any (fun y => decide ((ownedBanks s cl launch).length ≤ (idleBanks s y).length)) then s
        else suspendLaunch launch s

/-- The banks of the launches of a span leave the clusters that they have lost (R393). -/
def evacuateSpan (part : Nat) (s : State) : State :=
  (spanLaunches s part).foldl (fun s k => (List.range 64).foldl (fun s cl => evacuate k cl s) s) s

/-- NARROWING. -/
def execNarrowing (part : Nat) (cores : List Nat) (why : NarrowWhy) (s : State) : Host.Outcome State Fault Refusal :=
  .next (evacuateSpan part (match why with
    | .urgent =>
      let s := narrowUrgent part cores s
      ((spanLaunches s part).filter (fun k => !isUrgent s k)).foldl (fun s k => remapLaunch cores k s) s
    | .thermal =>
      let s := narrowThermal part cores s
      (spanLaunches s part).foldl (fun s k => remapLaunch cores k s) s
    | .partition =>
      let s := narrowPartition part cores s
      (spanLaunches s part).foldl (fun s k => remapLaunch cores k s) s
    | .swap => narrowSwap part s))

/-! ## Saving (R389 to R391) -/

/-- An operation of a core's engine runs to its end: its end is set, or a plane load or a drain has begun and waits for
entries, for room or for a line (R389); one that a fault has stopped is saved so. -/
def engineBusy (s : State) (core : Nat) : Bool :=
  (getCore s core).ops.any (fun o => o.running && (o.kind.isLoad || o.kind.isDrain) && o.parked.isNone) ||
  [Instr.planeLoadEnd core, .streamPassEnd core, .drainEnd core, .mzeroEnd core, .mshadowEnd core].any (fun i =>
    s.agenda.contains i || s.calendar.any (fun c => c.2 == i))

/-- The owners of a core's sequencers. -/
def engineOwners (c : Core) : List Owner := (c.mseq.owner.toList ++ c.cseq.owner.toList).eraseDups

/-- The owners of a core's engine whose crews have all left it. -/
def idleOwners (s : State) (core : Nat) : List Owner :=
  (engineOwners (getCore s core)).filter (fun o => allOff (ownerThreads s core o))

/-- The issuer number that a saved sequencer has in the copy engines (R389). -/
def savedTid (number which : Nat) : Nat := 2 ^ 61 + 2 * number + which

/-- The copy commands of an issuer go over to another number. -/
def retag (old new : Nat) (s : State) : State :=
  { s with clusters := s.clusters.map (fun kc => (kc.1, { kc.2 with
      copyq := kc.2.copyq.map (fun c => if c.tid = old then { c with tid := new } else c) })) }

/-- The program of a sequencer, as it is saved. -/
def savedProgram (s : State) (q : Seq) : Option Thread :=
  (q.tid.bind (Sparse.find? s.threads)).map (fun t => { t with place := .saved })

/-- The image of an engine's owner. -/
def engineImage (s : State) (core : Nat) (o : Owner) : EngineImage :=
  let c := getCore s core
  let m := c.mseq.isFor o
  let k := c.cseq.isFor o
  let bare : Plane := { codes := [], records := [] }
  { owner := o, number := s.links
    mseq := if m then c.mseq else Seq.free, cseq := if k then c.cseq else Seq.free
    mprog := if m then savedProgram s c.mseq else none, cprog := if k then savedProgram s c.cseq else none
    active := if m then c.active else bare, shadow := if m then c.shadow else bare
    tiles := if m then c.tiles else [], mones := if m then c.mones else 0, ops := if m then c.ops.map (fun op => { op with since := none }) else [] }

/-- A sequencer of an owner leaves its core. -/
def releaseSeq (core number : Nat) (o : Owner) (which : Nat) (s : State) : State :=
  if ((getCore s core).seq which).isFor o then
    retag (seqTid core which) (savedTid number which)
      (modCore core (fun c => c.setSeq which Seq.free) { s with threads := Sparse.erase s.threads (seqTid core which) })
  else s

/-- The engine of an owner is saved. -/
def saveEngine (core : Nat) (o : Owner) (s : State) : State :=
  let x := engineImage s core o
  let s := if x.mseq.isFor o then modCore core (fun c => { c with ops := [], mones := 0 }) s else s
  let s := releaseSeq core x.number o 1 (releaseSeq core x.number o 0 s)
  { s with engines := s.engines ++ [x], links := s.links + 1 }

/-- A scout whose crews are saved is saved with them. -/
def saveScouts (s : State) : State :=
  { s with threads := s.threads.map (fun kt =>
      if kt.2.kind = .scout ∧ kt.2.place = .halted ∧
          (ownerThreads s kt.2.core (.share kt.2.launch (kt.1 % 2 ^ 16))).all (fun t => decide (t.place = .saved)) then
        (kt.1, { kt.2 with place := .saved })
      else kt) }

/-- CREW_SAVE_COMPLETE: the save waits for the engine's pass end. -/
def execCrewSaveComplete (tid : Nat) (s : State) : Host.Outcome State Fault Refusal :=
  .next (match Sparse.find? s.threads tid with
    | none => s
    | some t =>
      if t.place ≠ .halted then s
      else
        let mine := (idleOwners s t.core).any (fun o => (ownerThreads s t.core o).any (fun u => u.crewid == t.crewid && u.launch == t.launch))
        if mine && engineBusy s t.core then after 64 (.crewSaveComplete tid) s
        else
          let s := modThread tid (fun t => { t with place := .saved }) s
          let full := (engineOwners (getCore s t.core)).filter (fun o =>
            allOff (ownerThreads s t.core o) && (ownerThreads s t.core o).all (fun u => decide (u.place = .saved)))
          let s := placeFreed t.core (saveScouts (full.foldl (fun s o => saveEngine t.core o s) s))
          match Sparse.find? s.launches t.launch with | some l => evacuateSpan l.part s | none => s)

/-! ## Where a crew is restored (R392) -/

/-- The cluster of a crew: that of its scratch banks when they have moved. -/
def ownCluster (s : State) (t : Thread) : Nat :=
  match Sparse.find? s.launches t.launch with
  | none => clusterOf t.core
  | some l =>
    match l.foster.find? (fun f => f.1 == logicalCore l t.crewid) with
    | some f => (Sparse.get (clusterOf t.core, []) l.spad f.2).1
    | none => (Sparse.get (clusterOf t.core, []) l.spad (clusterOf t.core)).1

/-- The saved engine images whose owner is among some crews. -/
def imagesOf (s : State) (group : List Nat) (core : Nat) : List EngineImage :=
  s.engines.filter (fun x => match x.owner with
    | .crew tid => group.contains tid
    | .gang launch tag => group.any (fun tid => match Sparse.find? s.threads tid with
        | some t => t.launch == launch && gangSize t.regs.gang != 0 && gangKey t.regs.gang == tag && t.core == core
        | none => false)
    | .share launch share => group.any (fun tid => match Sparse.find? s.threads tid with
        | some t => t.launch == launch && t.share s == share
        | none => false))

/-- Free places of a launch in a cluster's cores. -/
def placesIn (s : State) (launch : Nat) (l : Launch) (cores : List Nat) (cl : Nat) : Nat :=
  ((cores.filter (fun c => clusterOf c == cl)).map (fun c => freePlaces s c launch l.record)).foldl (· + ·) 0

/-- The greatest of some by a measure: the first of them. -/
def mostOf (f : Nat → Nat) : List Nat → Option Nat
  | [] => none
  | x :: xs =>
    match mostOf f xs with
    | some y => if f x < f y then some y else some x
    | none => some x

/-- The cores onto which a saved crew and those that move with it may be restored, the best first: in its own cluster
while cores of it remain, else where most places are free (R392), and where banks go with it in a cluster that keeps
crews of the launch, if one can (R393). A crew that heat moves goes to a cooler core (R398). DESIGN CHOICE (log 111): a
gang does not come onto a core where another gang of its launch has its TAG. -/
def restoreCores (s : State) (tid : Nat) : List Nat :=
  match Sparse.find? s.threads tid with
  | none => []
  | some t =>
    match Sparse.find? s.launches t.launch with
    | none => []
    | some l =>
      let group := groupOf s tid
      let all := (availCores s l).filter (fun c => (gangCrews s c t.launch).all (fun kt =>
        gangSize t.regs.gang == 0 || group.contains kt.1 || gangTag kt.2.regs.gang != gangTag t.regs.gang))
      let cool := all.filter (fun c => !(getCore s c).hot)
      let avail := if t.thermal && !cool.isEmpty then cool else all
      let home := ownCluster s t
      let here := avail.filter (fun c => clusterOf c == home)
      let bare := (ownedBanks s home t.launch).isEmpty
      let can := (avail.map clusterOf).eraseDups.filter (fun cl => bare || canMove s t.launch home cl)
      let kept := can.filter (fun cl => (keepers s t.launch l).contains cl)
      let there := if bare || kept.isEmpty then can else kept
      let pool :=
        if !here.isEmpty then here
        else match mostOf (placesIn s t.launch l avail) there with
          | some cl => avail.filter (fun c => clusterOf c == cl)
          | none => []
      let free := (imagesOf s group t.core).isEmpty
      let ok := pool.filter (fun c => decide (group.length ≤ freePlaces s c t.launch l.record) &&
        (free || (!(getCore s c).mseq.isRunning s && !(getCore s c).cseq.isRunning s)))
      let best := (mostOf (fun c => freePlaces s c t.launch l.record) ok).toList
      if ok.contains t.core then t.core :: best else best ++ ok

/-! ## Restoring -/

/-- An operation that was saved parked and has its verdict since (R384). -/
def savedVerdicts (core : Nat) : Nat → State → State
  | 0, s => s
  | fuel + 1, s =>
    let ops := (getCore s core).ops
    match ops.findIdx? (fun o => (o.parked.bind Parked.verdict).isSome) with
    | some i =>
      (match ops[i]? with
       | some o => savedVerdicts core fuel (opVerdict core i o ((o.parked.bind Parked.verdict).getD true) s)
       | none => s)
    | none => s

/-- A program that sleeps at a WAITT wakes at its time, whatever number it has now (R356, R388). -/
def resumeSleeps (tid : Nat) (t : Thread) (s : State) : State :=
  t.splits.foldl (fun s ks => match ks.2.wait.map Wait.obj with
    | some (.sleep at_) => schedule at_ (.waittWake tid ks.1) s
    | _ => s) s

/-- A sequencer of an image comes back. -/
def restoreSeq (core old number which : Nat) (q : Seq) (prog : Option Thread) (s : State) : State :=
  if q.owner = none then s
  else
    let tid := seqTid core which
    let s := modCore core (fun c => c.setSeq which { q with tid := q.tid.map (fun _ => tid) }) s
    let s := match prog with
      | some t =>
        let t := { t.mapWaits (WaitObj.moveCore old core) with core := core, place := .resident, placedAt := s.chiptime }
        resumeSleeps tid t (due (t.splits.map (fun ks => Instr.waiterRelease tid ks.1)) { s with threads := Sparse.put s.threads tid t })
      | none => s
    due (if q.ending then [.sequencerEndComplete core which] else []) (retag (savedTid number which) tid s)

/-- The engine of an owner comes back; its operations re-enter the queue in their order. -/
def restoreEngine (core old : Nat) (x : EngineImage) (s : State) : State :=
  let s := { s with engines := s.engines.filter (fun y => y.number != x.number) }
  let s := if x.mseq.owner = none then s
    else modCore core (fun c => { c with active := x.active, shadow := x.shadow, tiles := x.tiles, mones := x.mones, ops := x.ops }) s
  let s := restoreSeq core old x.number 1 x.cseq x.cprog (restoreSeq core old x.number 0 x.mseq x.mprog s)
  due (startEvents core) (savedVerdicts core 9 s)

/-- A thread stands on its new core, in a place of its launch there; an arrival that became complete while it was saved
is sent now (R391). -/
def settleThread (core tid : Nat) (s : State) : State :=
  match Sparse.find? s.threads tid with
  | none => s
  | some t =>
    let u := { t.mapWaits (WaitObj.moveCore t.core core) with
      core := core, place := .resident, slot := freeSlot s core t.launch, placedAt := s.chiptime, leaving := false, thermal := false }
    let s := recheckArrivals tid { s with threads := Sparse.put s.threads tid u }
    due (u.splits.map (fun ks => Instr.waiterRelease tid ks.1)) (acquire core (cidOf s t.launch) 2 s)

/-- A crew and those that move with it are restored onto a core, whose cluster wakes what their launch's phase requires
(R228); a move for heat posts an event (R398). -/
def restoreGroup (tid core : Nat) (s : State) : State :=
  match Sparse.find? s.threads tid with
  | none => s
  | some t =>
    match Sparse.find? s.launches t.launch with
    | none => s
    | some l =>
      let group := groupOf s tid
      let images := imagesOf s group t.core
      let home := ownCluster s t
      let s := if clusterOf core = home ∨ (ownedBanks s home t.launch).isEmpty then s else moveBanks t.launch home (clusterOf core) s
      let s := if l.slots.any (fun p => p.1 == clusterOf core) then s else takeSlot t.launch s (clusterOf core)
      let s := group.foldl (fun s k => settleThread core k s) s
      let s := if l.record.scout = 0xFFFFFFFF then s else settleThread core (scoutTid t.launch (shareOf l t.crewid)) s
      let s := images.foldl (fun s x => restoreEngine core t.core x s) s
      let s := phaseWakes t.launch (evacuateSpan l.part (followCrews t.launch (List.range l.mapping.length) s))
      if t.thermal ∧ t.core ≠ core then
        post l.record.cid 8 0 13 l.ident t.crewid core 0 s
      else s

/-- The saved crews of a launch. -/
def savedCrews (s : State) (launch : Nat) : List Nat :=
  (s.threads.filter (fun kt => decide (kt.2.kind = .crew) && decide (kt.2.launch = launch) && decide (kt.2.place = .saved))).map Prod.fst

/-- Every saved crew of some has a place: the state in which all are restored. -/
def restoreAll : List Nat → State → Option State
  | [], s => some s
  | tid :: rest, s =>
    match Sparse.find? s.threads tid with
    | none => restoreAll rest s
    | some t =>
      if t.place = .saved then
        match restoreCores s tid with
        | c :: _ => restoreAll rest (restoreGroup tid c s)
        | [] => none
      else restoreAll rest s

/-- No cluster of the partition has the banks that a crew's launch needs there. -/
def banksLack (s : State) (t : Thread) (l : Launch) : Bool :=
  let home := ownCluster s t
  let avail := availCores s l
  let owned := (ownedBanks s home t.launch).length
  avail.all (fun c => clusterOf c != home && decide ((idleBanks s (clusterOf c)).length < owned))

/-- A crew that finds no place is tried again. -/
def restoreLater (tid core : Nat) (s : State) : State := scheduleOnce (s.chiptime + 64) (.crewRestore tid core) s

/-- A suspended launch comes back whole, once all of it is saved and fits. -/
def resumeLaunch (launch tid core : Nat) (s : State) : State :=
  if (crewsWith s launch (fun t => decide (t.place ≠ .saved))).isEmpty then
    match restoreAll (savedCrews s launch) (modLaunch launch (fun l => { l with suspended := false }) s) with
    | some s => s
    | none => restoreLater tid core s
  else restoreLater tid core s

/-- CREW_RESTORE: onto the named core where R392 allows it, and otherwise where R392 sends the crew. -/
def execCrewRestore (tid core : Nat) (s : State) : Host.Outcome State Fault Refusal :=
  .next (match Sparse.find? s.threads tid with
    | none => s
    | some t =>
      match Sparse.find? s.launches t.launch with
      | none => s
      | some l =>
        if t.place ≠ .saved ∨ !partRuns s l.part ∨ s.station.halted then s
        else if l.suspended then resumeLaunch t.launch tid core s
        else if !(groupOf s tid).all (fun k => (savedCrews s t.launch).contains k) then restoreLater tid core s
        else if bit l.record.flags 0 ∧ (restoreAll (savedCrews s t.launch) s).isNone then suspendLaunch t.launch s
        else
          let cs := restoreCores s tid
          match (if cs.contains core then [core] else cs) with
          | c :: _ => restoreGroup tid c s
          | [] => if banksLack s t l then restoreLater tid core (suspendLaunch t.launch s) else restoreLater tid core s)

/-! ## The image switch (R395, R402) -/

/-- The relocated words of a launch for its mapping as it stands (R60, R401). -/
def rebake (l : Launch) : Sparse Word :=
  l.baked.foldl (fun m b => match Sparse.find? m b.1 with
    | some w => Sparse.put m b.1 (BitVec.ofNat 32 (bakeWord w.toNat (l.mapping.getD b.2 0)))
    | none => m) l.fresh

/-- A captured word takes ROW and COL from the fresh image (R395). -/
def freshCoords (w fresh : Word) : Word :=
  BitVec.ofNat 32 (w.toNat - bits w.toNat 7 9 * 128 + bits fresh.toNat 7 9 * 128)

/-- The relocated words of a captured body take their fresh coordinates (R99, R395). -/
def Loop.refresh (fresh : Sparse Word) (lp : Loop) : Loop :=
  match lp.levels with
  | [] => lp
  | v :: _ => { lp with body := (List.range lp.body.length).map (fun i =>
      match lp.body.getD i none, Sparse.find? fresh (v.start + 4 * i) with
      | some x, some w => some (freshCoords x w)
      | x, _ => x) }

/-- Every captured body of a thread. -/
def Thread.refresh (fresh : Sparse Word) (t : Thread) : Thread :=
  { t with splits := t.splits.map (fun ks => (ks.1, { ks.2 with
      loop := ks.2.loop.refresh fresh
      saved := ks.2.saved.map (fun v => { v with loop := v.loop.refresh fresh })
      spec := ks.2.spec.map (fun x => { x with loop := x.loop.refresh fresh, fenceLoop := x.fenceLoop.refresh fresh }) })) }

/-- IMAGE_SWITCH: the fresh image is written to new pages, no instruction cache holds the old one, and captured bodies
follow; no crew issues meanwhile (R395, R402). -/
def execImageSwitch (launch : Nat) (s : State) : Host.Outcome State Fault Refusal :=
  .next (match Sparse.find? s.launches launch with
    | none => s
    | some l =>
      let fresh := rebake l
      mapPrograms launch (Thread.refresh fresh) (writeImage launch (modLaunch launch (fun l => { l with fresh := fresh }) s)))

end Sys2Proof.Machine
end

