-- ==== Sys2Proof/Machine/Boot.lean ====
section
/-! DEFINITION. Bring-up (R429 to R431): PERST#, the six steps, a stopped boot and its recovery; and the samples
of the monitors (R433, R435). -/

namespace Sys2Proof.Machine

/-! ## The samples of the monitors (R433, R435)

What a sensor reads is free: each sample is put on the calendar with free readings. -/

/-- Cycles of some milliseconds. -/
def ms (n : Nat) : Nat := 2700000 * n

/-- A free reading of 16 bits. -/
def freeReading (n : Nat) : Nat := (Config.freeBits n).toNat % 65536

/-- Every 10 µs: each core's diode, the hottest sensor of each die, and the inlet. -/
def nextTemps (s : State) : State :=
  let diodes := (List.range Config.cores).map (fun c =>
    (c, (((Config.freeBits (s.fresh + c)).setWidth 16 : BitVec 16).signExtend 32 : BitVec 32)))
  let hottest := (List.range Config.dies).map (fun d => freeReading (s.fresh + 512 + d))
  after 27000 (.tempSample diodes hottest [freeReading (s.fresh + 516)]) { s with fresh := s.fresh + 517 }

/-- Every 100 µs: the module's power. -/
def nextPower (s : State) : State := after 270000 (.powerSample (freeReading s.fresh)) { s with fresh := s.fresh + 1 }

/-- Every 10 s: a cluster's process monitor. -/
def nextMonitor (cl : Nat) (s : State) : State :=
  after (ms 10000) (.processMonitorSample cl (freeReading s.fresh)) { s with fresh := s.fresh + 1 }

/-- The samples of power, of temperature, and of a cluster's process monitor. -/
def isPowerSample : Instr → Bool
  | .powerSample _ => true
  | _ => false
def isTempSample : Instr → Bool
  | .tempSample .. => true
  | _ => false
def isMonitorSample (cl : Nat) : Instr → Bool
  | .processMonitorSample c _ => c == cl
  | _ => false

/-- A sample that has been taken is followed by the next one, unless that stands on the calendar already. -/
def renewSample (same : Instr → Bool) (next : State → State) (s : State) : State :=
  if (decide (s.station.stage = 5) || decide (s.station.stage = 6)) && !(s.calendar.any (fun c => same c.2)) then next s else s

/-! ## The steps of R429 -/

/-- The firmware image is verified (R425): the cause of a failure, or none. -/
def verifyImage (b : BootInputs) : Option Nat :=
  if !b.present then some 6
  else if !b.ed25519 then some 1
  else if !b.mldsa then some 2
  else if !b.rollback then some 3
  else none

/-- The boot stops (R431). -/
def stopBoot (err : Nat) (s : State) : State :=
  { s with station := { s.station with stage := 15, err := err, recok := true } }

/-- Step 3: every granule and sideband of memory holds zero. -/
def clearMemory (s : State) : State := { s with mem := [], marks := [], poison := [], rewrites := [], codes := [] }

/-- Step 4, the zeroes: register files, accumulators, L2 ways and Lantern memory. -/
def clearArrays (s : State) : State :=
  { s with
    l2 := []
    cores := s.cores.map (fun kc => (kc.1, { kc.2 with
      active := { codes := [], records := [] }, shadow := { codes := [], records := [] }, tiles := [] }))
    station := { s.station with buffer := [] }
    lanterns := s.lanterns.map (fun kl => (kl.1, { kl.2 with mem := [] })) }

/-- Step 4, the monitors: a cluster's first reading and the voltage set for it are free values. -/
def readMonitor (s : State) (cl : Nat) : State :=
  let n := (Config.freeBits s.fresh).toNat % 65536
  let v := (Config.freeBits (s.fresh + 1)).toNat % 65536
  modHealth cl (fun h => { h with ro := n, boot := n, vset := v, vboot := v }) { s with fresh := s.fresh + 2 }

/-- Step 5: a port that trains is up; whether it trains is a free truth value. -/
def trainPort (s : State) (p : Nat) : State :=
  { s with fresh := s.fresh + 1, ports := Sparse.put s.ports p { Port.reset with up := Config.freeBool s.fresh } }

/-- The next step starts; it ends within the difference of the bounds of R429. -/
def enterStage (stage bound : Nat) (b : BootInputs) (s : State) : State :=
  let (n, s) := freeDelay { s with station := { s.station with stage := stage } } bound
  after n (.perstDeassert b) s

/-- The firmware of a recovery writes its image to configuration flash once its boot has reached step 6 (R431). -/
def storeImage (s : State) : State :=
  match s.station.loaded with
  | some f => { s with station := { s.station with flash := some f, loaded := none } }
  | none => s

/-- The image in configuration flash: one that the device has verified and written there itself passes again. -/
def fromFlash (s : State) (b : BootInputs) : BootInputs :=
  match s.station.flash with
  | some f => { b with present := true, ed25519 := true, mldsa := true, rollback := true, version := f.version }
  | none => b

/-- A failure at step 4 or 5 stops the boot (R431); R430 lists no cause for it: ERR is free. -/
def stopFree (s : State) : State := stopBoot (Config.freeNat s.fresh % 256) { s with fresh := s.fresh + 1 }

/-- The firmware that runs, as it is measured: its version and its code. -/
def firmwareWords (s : State) : List DWord :=
  let code (f : Firmware) : List DWord :=
    (List.range ((f.size + 7) / 8)).map (fun i => BitVec.ofNat 64 (leNat (Sparse.getAll 0 f.bytes (8 * i) 8)))
  s.station.fwver.setWidth 64 :: (match s.station.loaded, s.station.flash with
    | some f, _ => code f
    | none, some f => code f
    | none, none => Config.firmwareCode)

/-- Step 5: the identity keys are derived from a fused secret and the firmware's measurement (R426). -/
def deriveIdentity (s : State) : State :=
  { s with station := { s.station with identity := [0, 1].map (fun slot =>
      let k := Config.keyPair slot Config.fuses (Config.sha384 (firmwareWords s))
      { secret := k.1, key := k.2, chain := Config.certChain slot k.2 }) } }

/-- A step ends. -/
def endStage (b : BootInputs) (s : State) : State :=
  match s.station.stage with
  | 1 =>
    (match verifyImage (fromFlash s b) with
     | some err => stopBoot err s
     | none => enterStage 2 (ms 30) b { s with station := { s.station with fwver := (fromFlash s b).version } })
  | 2 => if b.dieLink then enterStage 3 (ms 310) b s else stopBoot 5 s
  | 3 => if b.hbm then enterStage 4 (ms 50) b (clearMemory s) else stopBoot 4 s
  | 4 =>
    if b.arrays then
      enterStage 5 (ms 250) b (nextPower (nextTemps ((List.range Config.clusters).foldl (fun s cl => nextMonitor cl (readMonitor s cl)) (clearArrays s))))
    else stopFree s
  | 5 =>
    if b.krazu then
      let s := (List.range Config.ports).foldl trainPort (loadRoutes (deriveIdentity s))
      storeImage { s with station := { s.station with stage := 6 } }
    else stopFree s
  | _ => s

/-- PERST_DEASSERT: step 1 starts, and configuration requests are retried for 20 ms; while the boot runs, the event is
the end of the step in progress. -/
def execPerstDeassert (boot : BootInputs) (s : State) : Host.Outcome State Fault Refusal :=
  .next (if s.station.inReset then
      let s := { s with station := { s.station with inReset := false, retry := true } }
      enterStage 1 (ms 60) boot (after (ms 20) .configRetryEnd s)
    else endStage boot s)

/-- CONFIG_RETRY_END. -/
def execConfigRetryEnd (s : State) : Host.Outcome State Fault Refusal :=
  .next { s with station := { s.station with retry := false } }

/-- PERST_ASSERT: every register and bank at its reset value; the free values used stay used, and configuration flash
keeps its image. -/
def execPerstAssert (s : State) : Host.Outcome State Fault Refusal :=
  .next { State.reset with fresh := s.fresh, station := { State.reset.station with flash := s.station.flash } }

/-! ## Recovery (R431) -/

/-- What the ROM finds in a recovery image is not the model's to say: free values. -/
def freeBoot (n : Nat) : BootInputs :=
  { present := Config.freeBool n, ed25519 := Config.freeBool (n + 1), mldsa := Config.freeBool (n + 2), rollback := Config.freeBool (n + 3),
    dieLink := Config.freeBool (n + 4), hbm := Config.freeBool (n + 5), arrays := Config.freeBool (n + 6),
    krazu := Config.freeBool (n + 7), version := (Config.freeBits n).setWidth 32 }

/-- The ROM verifies the recovery buffer; a verified image runs from step 2. -/
def recover (b : BootInputs) (s : State) : State :=
  if s.station.stage ≠ 15 ∨ s.station.inReset then s
  else
    match verifyImage { b with present := decide (1 ≤ s.station.reclen) } with
    | some err => stopBoot err s
    | none => enterStage 2 (ms 30) b { s with station := { s.station with
        fwver := b.version, err := 0, recok := false,
        loaded := some { version := b.version, size := s.station.reclen, bytes := s.station.buffer } } }

/-- RECGO. -/
def execRecgo (image : BootInputs) (s : State) : Host.Outcome State Fault Refusal := .next (recover image s)

end Sys2Proof.Machine
end

