-- ==== Sys2Proof/Machine/Registers.lean ====
section
/-! DEFINITION. The registers that the host reaches: partition windows (R409, R419, R436), the doorbell block (R411,
R412), BAR0 (R430, R431), and the invalidation of a range (R241). -/

namespace Sys2Proof.Machine

/-! ## Where the host reaches (R411, R429) -/

/-- Device memory and the doorbell block answer once step 6 has ended (R429). -/
def hostReady (s : State) : Bool := decide (s.station.stage = 6)

/-- The doorbell block (R411). -/
def doorbellBase : Nat := 0x6000000000
def inDoorbell (pa : Nat) : Bool := decide (doorbellBase ≤ pa) && decide (pa < doorbellBase + 131072)

/-- A register of a queue's block (R411). -/
def doorbellReg (q : Queue) (off : Nat) : Nat :=
  match off with
  | 0x00 => q.base
  | 0x08 => q.log
  | 0x10 => q.head
  | 0x18 => q.tail
  | 0x20 => q.part % 64 + 64 * ofBool q.assigned + 128 * ofBool q.stall
  | _ => 0

/-- A queue's block, listed or at reset. -/
def getQueue (s : State) (q : Nat) : Queue := (Sparse.find? s.queues q).getD Queue.reset

/-! ## The selected context (R409) -/

/-- The context that a window's CSEL selects: only the window of a span's lead partition selects one (R406). -/
def selected (s : State) (part : Nat) : Option (Nat × Context) :=
  match Sparse.find? s.parts part with
  | none => none
  | some p =>
    match Sparse.find? s.contexts p.csel with
    | some c => if leadOf s c.part = part then some (p.csel, c) else none
    | none => none

/-- A launch of a context runs. -/
def runsLaunch (s : State) (cid : Nat) : Bool := s.launches.any (fun kl => kl.2.record.cid == cid)

/-- A base that is 4 KiB aligned keeps its low bits zero. -/
def page4k (x : Nat) : Nat := x % 2 ^ 64 / 4096 * 4096

/-! ## Reads (R409, R430, R436) -/

/-- The clusters of a partition in ascending cluster index. -/
def Partition.clusterList (p : Partition) : List Nat :=
  (List.range 16).filterMap (fun i => if bit p.mask i then
    (List.range 64).find? (fun cl => dieOfCluster cl = p.die ∧ clusterIndex cl = i) else none)

/-- CTEMP of a core (R436): SLOW while the clock of its cluster is lowered under R437. -/
def coreHealth (s : State) (core : Nat) : Nat :=
  let c := getCore s core
  c.temp.toNat % 65536 + 65536 + 131072 * ofBool c.hot + 262144 * ofBool (decide ((getHealth s (clusterOf core)).limit < 2700))

/-- CLHLTH of a cluster. -/
def ClusterHealth.word (h : ClusterHealth) : Nat :=
  h.droops % 65536 + 65536 * (h.deep % 65536) + 2 ^ 32 * (h.ro % 65536) + 2 ^ 48 * (h.vset % 65536)

/-- The lowest core clock of a die. -/
def dieClock (s : State) (die : Nat) : Nat :=
  ((coreGrid.filter (fun c => dieOf c == die)).map (coreClock s)).foldl Nat.min 2700

/-- DIEHLTH of a die. -/
def dieHealth (s : State) (die : Nat) : Nat :=
  s.monitors.tmax.getD die 0 % 65536 + 65536 * (dieClock s die % 65536) + 2 ^ 32 * (s.monitors.power % 65536)
    + 2 ^ 48 * (s.monitors.inlet % 65536)

/-- The registers of the health monitors (R436). -/
def healthRead (s : State) (p : Partition) (off : Nat) : Nat :=
  if 0x200 ≤ off ∧ off < 0x400 ∧ off % 8 = 0 then
    (match (p.cores)[(off - 0x200) / 8]? with | some c => coreHealth s c | none => 0)
  else if 0x400 ≤ off ∧ off < 0x440 ∧ off % 8 = 0 then
    (match (p.clusterList)[(off - 0x400) / 8]? with | some cl => (getHealth s cl).word | none => 0)
  else if off = 0x440 then dieHealth s p.die
  else 0

/-- A register of a context. -/
def contextRead (c : Context) (off : Nat) : Nat :=
  match off with
  | 0x88 => c.ptbase
  | 0x90 => c.tvec.toNat
  | 0x98 => c.qtbase
  | 0xA0 => c.shtbase
  | 0xA8 => c.fqbase
  | 0xB0 => c.fqlog
  | 0xC0 => c.invbase
  | 0xD8 => c.fqtail
  | _ => 0

/-- INVSTAT of a window: an invalidation that was started through it runs, whatever CSEL names now (R409). -/
def invRuns (s : State) (part : Nat) : Bool :=
  s.contexts.any (fun kc => leadOf s kc.2.part == part && decide (kc.2.invstat = 1))

/-- A read of a partition window (R409); everything reads as zero until step 6 of R429 has ended. -/
def windowRead (s : State) (part off : Nat) : Nat :=
  match Sparse.find? s.parts part with
  | none => 0
  | some p =>
    if !hostReady s then 0
    else
      match off with
      | 0x00 => p.mask % 65536 + 65536 * (p.die % 4) + 2 ^ 24 * part + 2 ^ 32 * (p.lead % 64)
      | 0x20 => p.evbase
      | 0x28 => p.evlog
      | 0x30 => p.evhead
      | 0x38 => p.evtail
      | 0x40 => p.evlost
      | 0x80 => p.csel
      | 0x100 => p.reqaddr
      | 0xD0 => ofBool (invRuns s part)
      | 0x110 => p.reqstat
      | _ => (match selected s part with | some kc => contextRead kc.2 off | none => 0) + healthRead s p off

/-- DEVSTAT (R430). -/
def devstat (s : State) : Nat :=
  s.station.stage % 16 + 256 * (s.station.err % 256) + 65536 * ofBool s.station.recok + 2 ^ 32 * s.station.fwver.toNat

/-- A read of BAR0 below the windows (R430, R431). -/
def bar0Read (s : State) (off : Nat) : Nat :=
  if off = 0 then devstat s
  else if off = 0x10 then s.station.reclen
  else if 0x800000 ≤ off ∧ off < 0x1000000 ∧ s.station.stage = 15 then leNat (Sparse.getAll 0 s.station.buffer (off - 0x800000) 8)
  else 0

/-! ## Registers with behaviour of their own -/

/-- The event of a bad doorbell: to the queue's partition, or to partition 63 when it has none. -/
def badDoorbell (queue : Nat) (q : Queue) (s : State) : State :=
  postTo (if q.assigned then leadOf s q.part else 63)
    { seq := 0, flg := 0, skind := 5, sidx := 0, type := 3, cid := 0xFFFF, launch := 0, who := 0, arg0 := queue, arg1 := 0 } s

/-- A TAIL write that R412 accepts. -/
def tailOk (q : Queue) (value : Nat) : Bool :=
  q.assigned && decide (q.head ≤ value) && decide (value ≤ q.head + 2 ^ q.log) && decide (q.tail ≤ value)

/-- A CXL.mem write of the host has not been accepted at its home slice yet. -/
def hostWriteWaits (s : State) : Bool :=
  let waits (r : HomeReq) : Bool := match r.op with | some (.write ..) => true | _ => false
  s.l2.any (fun kl => kl.2.queue.any waits)

/-- A TAIL write: it waits for the host's earlier writes (R412). -/
def ringDoorbell (queue value : Nat) (s : State) : State :=
  let q := getQueue s queue
  if hostWriteWaits s then after 1 (.hostCxlMemWrite (doorbellBase + 64 * queue + 24) (leBytes 8 value)) s
  else if tailOk q value then
    due [.launchRecordDispatch queue] { s with queues := Sparse.put s.queues queue { q with tail := value } }
  else badDoorbell queue q s

/-- DOORBELL. -/
def execDoorbell (queue value : Nat) (s : State) : Host.Outcome State Fault Refusal :=
  .next (if hostReady s then ringDoorbell queue value s else s)

/-- STALL is cleared: the dispatcher reads the queue's records again. -/
def clearStall (queue : Nat) (s : State) : State :=
  due [.launchRecordDispatch queue] { s with queues := Sparse.alter s.queues queue (fun q => { q with stall := false }) }

/-- QCTL_STALL_CLEAR. -/
def execQctlStallClear (queue : Nat) (s : State) : Host.Outcome State Fault Refusal :=
  .next (if hostReady s then clearStall queue s else s)

/-- Buffered records go to a ring while it has room. -/
def drainEvents (part : Nat) (s : State) : State := flushEvents part (Config.eventBuffer + 1) s

/-- The host has read records: places of the ring are free. -/
def moveHead (part value : Nat) (s : State) : State :=
  drainEvents part (modPart part (fun p => { p with evhead := value % 2 ^ 64 }) s)

/-- EVHEAD_WRITE. -/
def execEvheadWrite (part value : Nat) (s : State) : Host.Outcome State Fault Refusal :=
  .next (if hostReady s then moveHead part value s else s)

/-- The ring of a partition is set; a size out of range is ignored. -/
def setRing (part base log : Nat) (s : State) : State :=
  if log = 0 ∨ (6 ≤ log ∧ log ≤ 20) then
    drainEvents part (modPart part (fun p => { p with evbase := page4k base, evlog := log }) s)
  else s

/-- EVLOG_WRITE: with a base. -/
def execEvlogWrite (part base log : Nat) (s : State) : Host.Outcome State Fault Refusal :=
  .next (if hostReady s then setRing part base log s else s)

/-- The fault ring starts again at its first place, unless a launch of the selected context runs. -/
def setFaultRing (part value : Nat) (s : State) : State :=
  match selected s part with
  | some (cid, _) =>
    if runsLaunch s cid then s
    else due [.faultRecordWrite cid] (modContext cid (fun c => { c with fqbase := page4k value, fqtail := 0, fqplaces := [] }) s)
  | none => s

/-- FQBASE_WRITE. -/
def execFqbaseWrite (part value : Nat) (s : State) : Host.Outcome State Fault Refusal :=
  .next (if hostReady s then setFaultRing part value s else s)

/-! ## Invalidation of a range (R241) -/

/-- The invalidation of a range runs. -/
def startInvalidation (part len : Nat) (s : State) : State :=
  match selected s part with
  | some (cid, c) =>
    let (n, s) := freeNat s
    after n (.invalidationComplete cid c.invbase len) (modContext cid (fun c => { c with invstat := 1 }) s)
  | none => s

/-- INVLEN. -/
def execInvlen (part len : Nat) (s : State) : Host.Outcome State Fault Refusal :=
  .next (if hostReady s then startInvalidation part len s else s)

/-- Read-only lines of a range leave a cache. -/
def dropRange (cid base len : Nat) (ls : List RLine) : List RLine :=
  ls.filter (fun l => !(l.cid == cid && inRange base len l.line))

/-- The dirty lines of a range reach the channel as plain writes. -/
def invWriteBack (cid base len : Nat) (s : State) : State :=
  let s := (List.range 64).foldl (fun s cl => writeBackAll cl (fun l => l.cid == cid && inRange base len l.line) s) s
  ((s.l2.filter (fun kl => kl.2.cid == cid && inRange base len kl.2.line)).map Prod.fst).foldl (fun s k => l2WriteBack k s) s

/-- The lines and translations of a range leave every cache of a context; record caches are dropped by nothing but
PFENCE and the context's end (R338). -/
def invDrop (cid base len : Nat) (s : State) : State :=
  let hit (l : Nat) : Bool := inRange base len l
  let cls := s.clusters.map (fun (kc : Nat × Cluster) => (kc.1, { kc.2 with
    cache := kc.2.cache.filter (fun l => !(l.cid == cid && hit l.line))
    sampler := dropRange cid base len kc.2.sampler
    layout := dropRange cid base len kc.2.layout }))
  let cores := s.cores.map (fun (kc : Nat × Core) => (kc.1, { kc.2 with
    icache := dropRange cid base len kc.2.icache
    const := dropRange cid base len kc.2.const }))
  let s : State := { s with
    clusters := cls
    cores := cores
    tlb := s.tlb.filter (fun t => !(t.cid == cid && decide (t.page * 2 ^ t.bits < base + len) && decide (base < (t.page + 1) * 2 ^ t.bits))) }
  let keys := (s.l2.filter (fun kl => kl.2.cid == cid && hit kl.2.line)).map Prod.fst
  keys.foldl (fun s k => l2Drop k s) s

/-- INVALIDATION_COMPLETE: INVSTAT reads 0 once no other invalidation of the context runs. -/
def execInvalidationComplete (cid base len : Nat) (s : State) : Host.Outcome State Fault Refusal :=
  .next (
    let other (i : Instr) : Bool := match i with | .invalidationComplete c _ _ => c == cid | _ => false
    let s := invDrop cid base len (invWriteBack cid base len s)
    if s.agenda.any other || s.calendar.any (fun c => other c.2) then s
    else modContext cid (fun c => { c with invstat := 0 }) s)

/-! ## Request blocks (R410) -/

/-- STATUS is written, and REQSTAT reads 0. -/
def finishRequest (part status : Nat) (s : State) : State :=
  match Sparse.find? s.parts part with
  | some p => modPart part (fun p => { p with reqstat := 0 }) (physWrite s (p.reqblk + 4) (leBytes 4 status))
  | none => s

/-- A request is done. -/
def granted (part : Nat) (s : State) : State := finishRequest part 0 s

/-- A request is refused, with a code that is not zero: which one is free. -/
def refuse (part : Nat) (s : State) : State :=
  let (n, s) := freeNat s
  finishRequest part (1 + n % (2 ^ 32 - 1)) s

/-- The partition of a request holds a context. -/
def ownsContext (s : State) (part cid : Nat) : Bool :=
  match Sparse.find? s.contexts cid with | some c => leadOf s c.part == leadOf s part | none => false

/-- Argument i of a request block: 8 bytes each from offset 8. -/
def reqArg (s : State) (a i : Nat) : Nat := physNat s (a + 8 + 8 * i) 8

/-- The context that a request without a CID acts for: the selected one. -/
def reqContext (s : State) (part : Nat) (f : Nat → Instr) : Option Instr := (selected s part).map (fun kc => f kc.1)

/-- The request of a block whose first argument is a CID, and one without. -/
def cidRequest (part code a : Nat) (s : State) : Instr :=
  let x := reqArg s a
  match code with
  | 2 => .endctx part (x 0)
  | 3 => .mapframe part (x 0) (x 1) (x 2) (x 3) (x 4)
  | 5 => .biasflip part (x 0) (x 1) (decide (x 2 ≠ 0))
  | 6 => .lantern part (x 0) (x 1 + 2 ^ 64 * x 2) (x 3) (x 4) (x 5)
  | 7 => .image part (x 0) (x 1)
  | 14 => .clearctx part (x 0)
  | _ => .checkpoint part (x 0) (x 1 % 2 ^ 32) (x 2) (Config.freeBool s.fresh)
def plainRequest (part code a : Nat) (s : State) : Option Instr :=
  let x := reqArg s a
  match code with
  | 1 => some (.newctx part)
  | 4 => some (.setwindow part (x 0) (x 1) { ebase := x 2, esize := x 3, dbase := x 4, sbase := x 5, fmt := x 6 })
  | 8 => some (.assignq part (x 0))
  | 9 => some (.setcache part (x 0))
  | 10 => some (.setreserve part (x 0))
  | 11 => some (.stash part (x 0))
  | 12 => reqContext s part (fun cid => .groups part cid (x 0))
  | 13 => some (.swap part (decide (x 0 ≠ 0)))
  | 15 => some (.span part (x 0))
  | 17 => some (.mirror part (x 0) (x 1) (x 2) (x 3))
  | _ => none

/-- The request that a block holds; none for codes 0 and 18 and above, and a CID of another partition: refused. -/
def requestOf (part a : Nat) (s : State) : Option Instr :=
  let code := physNat s a 4
  if [2, 3, 5, 6, 7, 14, 16].contains code then
    (if ownsContext s part (reqArg s a 0) then some (cidRequest part code a s) else none)
  else plainRequest part code a s

/-- REQGO: the station processor takes the block, one at a time for each partition. -/
def requestGo (part : Nat) (s : State) : State :=
  match Sparse.find? s.parts part with
  | some p =>
    if p.reqstat = 1 then s
    else
      let t := modPart part (fun p => { p with reqstat := 1, reqblk := p.reqaddr }) { s with fresh := s.fresh + 1 }
      match requestOf part p.reqaddr s with
      | some i => due [i] t
      | none => refuse part t
  | none => s

/-! ## Registers without behaviour of their own -/

/-- A register of the selected context; those of R409 wait for no launch. -/
def contextWrite (cid off value : Nat) (s : State) : State :=
  let set (f : Context → Context) : State := if runsLaunch s cid then s else modContext cid f s
  match off with
  | 0x88 => set (fun c => { c with ptbase := page4k value })
  | 0x90 => set (fun c => { c with tvec := BitVec.ofNat 64 value })
  | 0x98 => set (fun c => { c with qtbase := value % 2 ^ 64 })
  | 0xA0 => set (fun c => { c with shtbase := value % 2 ^ 64 })
  | 0xB0 => if 6 ≤ value ∧ value ≤ 16 then due [.faultRecordWrite cid] (set (fun c => { c with fqlog := value })) else s
  | 0xB8 =>
    let tok := value % 2 ^ 32
    resolveFault cid tok (!bit value 32) s
  | 0xC0 => modContext cid (fun c => { c with invbase := value % 2 ^ 64 }) s
  | _ => s

/-- A write of a partition window. -/
def windowWrite (part off value : Nat) (s : State) : State :=
  match Sparse.find? s.parts part with
  | none => s
  | some p =>
    match off with
    | 0x20 => modPart part (fun p => { p with evbase := page4k value }) s
    | 0x28 => setRing part p.evbase value s
    | 0x30 => moveHead part value s
    | 0x80 => modPart part (fun p => { p with csel := value % 4096 }) s
    | 0xA8 => setFaultRing part value s
    | 0xC8 => startInvalidation part value s
    | 0x100 => modPart part (fun p => { p with reqaddr := value % 2 ^ 64 }) s
    | 0x108 => if value = 1 then requestGo part s else s
    | _ => (match selected s part with | some kc => contextWrite kc.1 off value s | none => s)

/-- A write of a queue's block. -/
def queueWrite (queue off value : Nat) (s : State) : State :=
  let q := getQueue s queue
  let put (q : Queue) : State := { s with queues := Sparse.put s.queues queue q }
  match off with
  | 0x00 => if q.head = q.tail then put { q with base := page4k value } else s
  | 0x08 => if q.head = q.tail ∧ 4 ≤ value ∧ value ≤ 16 then put { q with log := value } else s
  | 0x18 => ringDoorbell queue value s
  | 0x20 => if bit value 7 then clearStall queue s else s
  | _ => s

/-- A write of BAR0 below the windows (R431): only with STAGE 15. -/
def bar0Write (off value : Nat) (s : State) : State :=
  if s.station.stage ≠ 15 then s
  else if off = 0x10 then
    (if 1 ≤ value ∧ value ≤ 2 ^ 23 then { s with station := { s.station with reclen := value } } else s)
  else if off = 0x18 then
    (if value = 1 then recover (freeBoot s.fresh) { s with fresh := s.fresh + 8 } else s)
  else if 0x800000 ≤ off ∧ off < 0x1000000 then
    { s with station := { s.station with buffer := Sparse.setAll 0 s.station.buffer (off - 0x800000) (leBytes 8 value) } }
  else s

end Sys2Proof.Machine
end

