-- ==== Sys2Proof/Machine/Coherence.lean ====
section
/-! DEFINITION. The messages of the L2 level as events (R249 to R251), the host's snoops and its accesses to device
memory (R260, R411, R421), and the fade of pin windows (R237). -/

namespace Sys2Proof.Machine

/-! ## Coherence messages (R249 to R251)

An access runs the messages it needs (`obtain`); an event is a message that is sent by itself. What it brings about
takes effect too, as far as nothing must wait. -/

/-- A die has, or is given, a way for a line that it asks for; where none can be had it asks for nothing (log 8). -/
def wayFor (die cid line : Nat) (s : State) : Bool × State :=
  match Sparse.find? s.l2 (lineKey cid line) with
  | some l =>
    if (copyAt l die).isSome then (true, s)
    else
      let s := makeWay .device die cid line s
      (wayFree s die cid line, if l.host then enterReverse .device die (lineKey cid line) s else s)
  | none => (false, s)

/-- A die's copy enters the transient state of a request that it sends: a read or a write of a line that it does not
hold, or a write of one that it shares. -/
def askCopy (die key : Nat) (own : Bool) (s : State) : State :=
  modLine key (fun l => match copyAt l die, own with
    | none, false => setCopy die .isD l
    | none, true => setCopy die .imD l
    | some .s, true | some .o, true => setCopy die .smA l
    | _, _ => l) s

/-- A die sends a request, once it has a way for the line. -/
def askHome (die cid line : Nat) (own : Bool) (i : Instr) (s : State) : State :=
  match wayFor die cid line s with
  | (true, s) => deliver i (askCopy die (lineKey cid line) own s)
  | (false, s) => s

/-- REQS: a die asks to read. -/
def execReqs (die cid line : Nat) (s : State) : Host.Outcome State Fault Refusal :=
  .next (askHome die cid line false (.reqs die cid line) s)

/-- REQM: a die asks for ownership. -/
def execReqm (die cid line : Nat) (s : State) : Host.Outcome State Fault Refusal :=
  .next (askHome die cid line true (.reqm die cid line) s)

/-- UPG: a sharer asks for ownership; from a die that is no sharer any longer it is a ReqM (R251). -/
def execUpg (die cid line : Nat) (s : State) : Host.Outcome State Fault Refusal :=
  .next (askHome die cid line true (.upg die cid line) s)

/-- WB: a die evicts its copy, and its write-back reaches the home. -/
def execWb (die cid line : Nat) (s : State) : Host.Outcome State Fault Refusal := .next (evictCopy die cid line s)

/-- INV: an invalidation arrives at a die. -/
def execInv (die cid line : Nat) (s : State) : Host.Outcome State Fault Refusal := .next (deliver (.inv die cid line) s)

/-- FWDS: a forward for sharing arrives at the owner. -/
def execFwds (die cid line req : Nat) (s : State) : Host.Outcome State Fault Refusal := .next (deliver (.fwds die cid line req) s)

/-- FWDM: a forward for ownership arrives at the owner. -/
def execFwdm (die cid line req : Nat) (s : State) : Host.Outcome State Fault Refusal := .next (deliver (.fwdm die cid line req) s)

/-- RECALL: a recall arrives at the holder; while a pass reads the line it waits (R258). -/
def execRecall (die cid line : Nat) (s : State) : Host.Outcome State Fault Refusal := .next (deliver (.recall die cid line) s)

/-- DATA: line data arrive at a requester. -/
def execData (die cid line : Nat) (grant : Grant) (s : State) : Host.Outcome State Fault Refusal :=
  .next (deliver (.data die cid line grant) s)

/-- ACK: an acknowledgement arrives at the home. -/
def execAck (die cid line : Nat) (s : State) : Host.Outcome State Fault Refusal := .next (deliver (.ack die cid line) s)

/-- UPGACK: an upgrade is granted to a die that waits for it. -/
def execUpgack (die cid line : Nat) (s : State) : Host.Outcome State Fault Refusal := .next (deliver (.upgack die cid line) s)

/-- WBACK: a die's write-back is acknowledged. -/
def execWback (die cid line : Nat) (s : State) : Host.Outcome State Fault Refusal := .next (deliver (.wback die cid line) s)

/-- ALREADYWB: the home serves its requester from memory. -/
def execAlreadywb (die cid line : Nat) (s : State) : Host.Outcome State Fault Refusal := .next (deliver (.alreadywb die cid line) s)

/-! ## The host (R260, R421) -/

/-- The lines of a physical line in a die's reverse map (R260). -/
def reverseLines (s : State) (die pline : Nat) : List Nat :=
  (s.revmap.filter (fun e => e.1 == die)).filterMap (fun e =>
    match Sparse.find? s.l2 e.2 with
    | some l => if l.pline = pline ∧ (copyAt l die).isSome then some e.2 else none
    | none => none)

/-- The host asks the home of a line for a copy, as a fifth sharer (R251). -/
def hostAsks (key : Nat) (own : Bool) (s : State) : State :=
  match Sparse.find? s.l2 key with
  | none => s
  | some l =>
    let r : HomeReq := { die := hostDie, kind := if own then .snoopM else .snoopS, at_ := s.chiptime, only := [], op := none }
    match copyAt l hostDie, own with
    | none, _ | some .s, true | some .o, true =>
      drainMsgs 64 (homeRequest l.cid l.line r (modLine key (setCopy hostDie (if own then .imD else .isD)) s))
    | some .e, true => modLine key (setCopy hostDie .m) s
    | _, _ => s

/-- A snoop at one line of a die: a write-back of the line that is on its way answers AlreadyWB (reply 2), and the host
absorbs it (R262); otherwise the host gets its copy (reply 1). -/
def snoopLine (die key : Nat) (own : Bool) (s : State) : State :=
  match Sparse.find? s.l2 key with
  | none => s
  | some l =>
    if copyAt l die = some .miA then answer [2] (deliver (.wb die l.cid l.line) s)
    else hostAsks key own (answer [1] s)

/-- HOST_SNOOP (R260): a line that the reverse map does not hold is "not cached" (reply 0). Whether the host asks to
share or to own is its affair: a free truth value. -/
def execHostSnoop (die pline : Nat) (s : State) : Host.Outcome State Fault Refusal :=
  .next (match reverseLines s die pline with
    | [] => answer [0] s
    | ks =>
      let own := Config.freeBool s.fresh
      ks.foldl (fun s k => snoopLine die k own s) { s with fresh := s.fresh + 1 })

/-- Where an access of the host lies: a read of a SHADOW region's backing is of the active one (R322). -/
def hostPlace (s : State) : HostOp → Nat
  | .read pa _ => (shadowBacking s pa).getD pa
  | .write pa _ => pa

/-- An access of the host reaches the home of its line: in the order of arrival, last of its cycle, while the home serves
another request (R249, R260). -/
def hostAccess (o : HostOp) (s : State) : State :=
  match (linesOf s (hostPlace s o / 128)).find? (fun kl => kl.2.txn.isSome) with
  | some kl => homeRequest kl.2.cid kl.2.line { die := hostDie, kind := .access, at_ := s.chiptime, only := [], op := some o } s
  | none => hostPerform o s

/-- HOST_CXL_MEM_READ: at most one line. -/
def execHostCxlMemRead (pa n : Nat) (s : State) : Host.Outcome State Fault Refusal :=
  .next (if !hostReady s || decide (Config.hbmBytes ≤ pa) then
      (if hostReady s && inDoorbell pa && decide (n = 8) && decide (pa % 8 = 0) then
        answer (leBytes 8 (doorbellReg (getQueue s ((pa - doorbellBase) / 64)) (pa % 64))) s
       else answer (List.replicate n 0) s)
    else hostAccess (.read pa n) s)

/-- HOST_CXL_MEM_WRITE: at most one line, or one register. -/
def execHostCxlMemWrite (pa : Nat) (bytes : List Byte) (s : State) : Host.Outcome State Fault Refusal :=
  .next (if !hostReady s then s
    else if pa < Config.hbmBytes then
      hostAccess (.write pa bytes) s
    else if inDoorbell pa && decide (bytes.length = 8) && decide (pa % 8 = 0) then
      queueWrite ((pa - doorbellBase) / 64) (pa % 64) (leNat bytes) s
    else s)

/-! ## Pin windows (R237) -/

/-- PIN_WINDOW_FADED: the window is released, with an event of its slice, which is the home slice of the window's base
(DESIGN CHOICE, log 103: a window spans slices); an access in the last cycle has reloaded the
counter, and it goes on (R262, R298). -/
def execPinWindowFaded (die win : Nat) (s : State) : Host.Outcome State Fault Refusal :=
  .next (match Sparse.find? s.pins (64 * die + win) with
    | some p =>
      if p.fade = 0 then
        post p.cid 2 (homeSlice p.cid p.base) 10 0 0 p.base 0 (dropPin (64 * die + win) s)
      else after (Config.pinTick - 1) (.pinFadeTick die win) s
    | none => s)

/-- PIN_FADE_TICK: 100 µs without an access lower the counter; an access in that time has reloaded it. A counter that
reaches 0 releases the window at the end of the cycle (R262). -/
def execPinFadeTick (die win : Nat) (s : State) : Host.Outcome State Fault Refusal :=
  .next (match Sparse.find? s.pins (64 * die + win) with
    | none => s
    | some p =>
      let fade := if p.touched then p.fade else p.fade - 1
      let s := { s with pins := Sparse.put s.pins (64 * die + win) { p with fade := fade, touched := false } }
      if fade = 0 then after 1 (.pinWindowFaded die win) s else after Config.pinTick (.pinFadeTick die win) s)

end Sys2Proof.Machine
end

