-- ==== Sys2Proof/Machine/RiscV.lean ====
section
/-! DEFINITION. The instructions of a Lantern core, which is RV64IMC (R340): decoding, and what they compute. The
spec names that instruction set and does not give it; it is taken from the RISC-V unprivileged specification (log 20). -/

namespace Sys2Proof.Machine

/-- The operations between two values. -/
inductive RvAlu where
  | add | sub | sll | slt | sltu | xor | srl | sra | or | and
  | mul | mulh | mulhsu | mulhu | div | divu | rem | remu
deriving DecidableEq, Repr

/-- The conditions of branches. -/
inductive RvCond where
  | eq | ne | lt | ge | ltu | geu
deriving DecidableEq, Repr

/-- An instruction, with its register numbers and its immediate as it is used; `word` is the 32-bit form. -/
inductive Rv where
  | alu (op : RvAlu) (word : Bool) (rd rs1 rs2 : Nat)
  | imm (op : RvAlu) (word : Bool) (rd rs1 : Nat) (x : DWord)
  | lui (rd : Nat) (x : DWord)
  | auipc (rd : Nat) (x : DWord)
  | jal (rd : Nat) (x : DWord)
  | jalr (rd rs1 : Nat) (x : DWord)
  | branch (c : RvCond) (rs1 rs2 : Nat) (x : DWord)
  | load (n : Nat) (signed : Bool) (rd rs1 : Nat) (x : DWord)
  | store (n : Nat) (rs2 rs1 : Nat) (x : DWord)
  | fence
deriving DecidableEq, Repr

/-! ## Decoding -/

/-- A field of `n` bits, sign-extended. -/
def rvSigned (n x : Nat) : DWord := (BitVec.ofNat n x).signExtend 64

/-- The immediates of the I, S, B, U and J forms. -/
def rvImmI (w : Nat) : DWord := rvSigned 12 (bits w 20 12)
def rvImmS (w : Nat) : DWord := rvSigned 12 (bits w 7 5 + 32 * bits w 25 7)
def rvImmB (w : Nat) : DWord :=
  rvSigned 13 (2 * bits w 8 4 + 32 * bits w 25 6 + 2048 * bits w 7 1 + 4096 * bits w 31 1)
def rvImmU (w : Nat) : DWord := rvSigned 32 (4096 * bits w 12 20)
def rvImmJ (w : Nat) : DWord :=
  rvSigned 21 (2 * bits w 21 10 + 2048 * bits w 20 1 + 4096 * bits w 12 8 + 2 ^ 20 * bits w 31 1)

/-- The operation of the base set that a funct3 selects; `alt` is bit 30. -/
def rvBase (f : Nat) (alt : Bool) : Option RvAlu :=
  match f, alt with
  | 0, false => some .add
  | 0, true => some .sub
  | 1, false => some .sll
  | 2, false => some .slt
  | 3, false => some .sltu
  | 4, false => some .xor
  | 5, false => some .srl
  | 5, true => some .sra
  | 6, false => some .or
  | 7, false => some .and
  | _, _ => none

/-- The operation of the M set that a funct3 selects. -/
def rvMul (f : Nat) : Option RvAlu :=
  [RvAlu.mul, .mulh, .mulhsu, .mulhu, .div, .divu, .rem, .remu][f]?

/-- The operations that have a 32-bit form. -/
def RvAlu.hasWord : RvAlu → Bool
  | .add | .sub | .sll | .srl | .sra | .mul | .div | .divu | .rem | .remu => true
  | _ => false

/-- The operation of a register form. -/
def rvRegOp (f3 f7 : Nat) : Option RvAlu :=
  if f7 = 1 then rvMul f3 else if f7 = 0 then rvBase f3 false else if f7 = 32 then rvBase f3 true else none

/-- An immediate form: a shift takes its amount from the low bits, under the funct bits above them. -/
def rvImmForm (word : Bool) (w : Nat) : Option Rv :=
  let f3 := bits w 12 3
  let k := if word then 5 else 6
  if f3 = 1 ∨ f3 = 5 then
    let top := bits w (20 + k) (12 - k)
    let alt : Bool := decide (top = 2 ^ (10 - k))
    if top = 0 ∨ alt then (rvBase f3 alt).map (fun op => .imm op word (bits w 7 5) (bits w 15 5) (BitVec.ofNat 64 (bits w 20 k)))
    else none
  else if word && f3 != 0 then none
  else (rvBase f3 false).map (fun op => .imm op word (bits w 7 5) (bits w 15 5) (rvImmI w))

/-- The condition of a branch. -/
def rvCond (f3 : Nat) : Option RvCond :=
  match f3 with
  | 0 => some .eq | 1 => some .ne | 4 => some .lt | 5 => some .ge | 6 => some .ltu | 7 => some .geu
  | _ => none

/-- A 32-bit instruction; none raises an illegal-instruction, environment-call or breakpoint exception. -/
def rvDecode32 (w : Nat) : Option Rv :=
  let rd := bits w 7 5
  let f3 := bits w 12 3
  let rs1 := bits w 15 5
  let rs2 := bits w 20 5
  match bits w 0 7 with
  | 0x37 => some (.lui rd (rvImmU w))
  | 0x17 => some (.auipc rd (rvImmU w))
  | 0x6F => some (.jal rd (rvImmJ w))
  | 0x67 => if f3 = 0 then some (.jalr rd rs1 (rvImmI w)) else none
  | 0x63 => (rvCond f3).map (fun c => .branch c rs1 rs2 (rvImmB w))
  | 0x03 => if f3 = 7 then none else some (.load (2 ^ (f3 % 4)) (decide (f3 < 4)) rd rs1 (rvImmI w))
  | 0x23 => if f3 < 4 then some (.store (2 ^ f3) rs2 rs1 (rvImmS w)) else none
  | 0x13 => rvImmForm false w
  | 0x1B => rvImmForm true w
  | 0x33 => (rvRegOp f3 (bits w 25 7)).map (fun op => .alu op false rd rs1 rs2)
  | 0x3B => (rvRegOp f3 (bits w 25 7)).bind (fun op => if op.hasWord then some (.alu op true rd rs1 rs2) else none)
  | 0x0F => if f3 = 0 then some .fence else none
  | _ => none

/-- The offsets of C.J, and of C.BEQZ and C.BNEZ. -/
def rvImmCJ (w : Nat) : DWord :=
  rvSigned 12 (2 * bits w 3 3 + 16 * bits w 11 1 + 32 * bits w 2 1 + 64 * bits w 7 1 + 128 * bits w 6 1
    + 256 * bits w 9 2 + 1024 * bits w 8 1 + 2048 * bits w 12 1)
def rvImmCB (w : Nat) : DWord :=
  rvSigned 9 (2 * bits w 3 2 + 8 * bits w 10 2 + 32 * bits w 2 1 + 64 * bits w 5 2 + 256 * bits w 12 1)

/-- The offsets of compressed accesses of 4 and 8 bytes from a register, and from the stack pointer. -/
def rvOffW (w : Nat) : DWord := BitVec.ofNat 64 (4 * bits w 6 1 + 8 * bits w 10 3 + 64 * bits w 5 1)
def rvOffD (w : Nat) : DWord := BitVec.ofNat 64 (8 * bits w 10 3 + 64 * bits w 5 2)
def rvSpLoadW (w : Nat) : DWord := BitVec.ofNat 64 (4 * bits w 4 3 + 32 * bits w 12 1 + 64 * bits w 2 2)
def rvSpLoadD (w : Nat) : DWord := BitVec.ofNat 64 (8 * bits w 5 2 + 32 * bits w 12 1 + 64 * bits w 2 3)
def rvSpStoreW (w : Nat) : DWord := BitVec.ofNat 64 (4 * bits w 9 4 + 64 * bits w 7 2)
def rvSpStoreD (w : Nat) : DWord := BitVec.ofNat 64 (8 * bits w 10 3 + 64 * bits w 7 3)

/-- The compressed instructions of quadrant 0. -/
def rvQuad0 (w : Nat) : Option Rv :=
  let rd := 8 + bits w 2 3
  let rs1 := 8 + bits w 7 3
  match bits w 13 3 with
  | 0 =>
    let x := 4 * bits w 6 1 + 8 * bits w 5 1 + 16 * bits w 11 2 + 64 * bits w 7 4
    if x = 0 then none else some (.imm .add false rd 2 (BitVec.ofNat 64 x))
  | 2 => some (.load 4 true rd rs1 (rvOffW w))
  | 3 => some (.load 8 true rd rs1 (rvOffD w))
  | 6 => some (.store 4 rd rs1 (rvOffW w))
  | 7 => some (.store 8 rd rs1 (rvOffD w))
  | _ => none

/-- The arithmetic of quadrant 1 on the eight registers x8 to x15. -/
def rvQuad1Alu (w : Nat) : Option Rv :=
  let rd := 8 + bits w 7 3
  let rs2 := 8 + bits w 2 3
  let shamt := BitVec.ofNat 64 (bits w 2 5 + 32 * bits w 12 1)
  match bits w 10 2, bits w 12 1, bits w 5 2 with
  | 0, _, _ => some (.imm .srl false rd rd shamt)
  | 1, _, _ => some (.imm .sra false rd rd shamt)
  | 2, _, _ => some (.imm .and false rd rd (rvSigned 6 (bits w 2 5 + 32 * bits w 12 1)))
  | _, 0, 0 => some (.alu .sub false rd rd rs2)
  | _, 0, 1 => some (.alu .xor false rd rd rs2)
  | _, 0, 2 => some (.alu .or false rd rd rs2)
  | _, 0, _ => some (.alu .and false rd rd rs2)
  | _, _, 0 => some (.alu .sub true rd rd rs2)
  | _, _, 1 => some (.alu .add true rd rd rs2)
  | _, _, _ => none

/-- The compressed instructions of quadrant 1. -/
def rvQuad1 (w : Nat) : Option Rv :=
  let rd := bits w 7 5
  let x := rvSigned 6 (bits w 2 5 + 32 * bits w 12 1)
  match bits w 13 3 with
  | 0 => some (.imm .add false rd rd x)
  | 1 => if rd = 0 then none else some (.imm .add true rd rd x)
  | 2 => some (.imm .add false rd 0 x)
  | 3 =>
    if x = 0 then none
    else if rd = 2 then
      some (.imm .add false 2 2 (rvSigned 10 (16 * bits w 6 1 + 32 * bits w 2 1 + 64 * bits w 5 1 + 128 * bits w 3 2
        + 512 * bits w 12 1)))
    else some (.lui rd (rvSigned 18 (4096 * (bits w 2 5 + 32 * bits w 12 1))))
  | 4 => rvQuad1Alu w
  | 5 => some (.jal 0 (rvImmCJ w))
  | 6 => some (.branch .eq (8 + bits w 7 3) 0 (rvImmCB w))
  | _ => some (.branch .ne (8 + bits w 7 3) 0 (rvImmCB w))

/-- The compressed instructions of quadrant 2. -/
def rvQuad2 (w : Nat) : Option Rv :=
  let rd := bits w 7 5
  let rs2 := bits w 2 5
  match bits w 13 3 with
  | 0 => some (.imm .sll false rd rd (BitVec.ofNat 64 (bits w 2 5 + 32 * bits w 12 1)))
  | 2 => if rd = 0 then none else some (.load 4 true rd 2 (rvSpLoadW w))
  | 3 => if rd = 0 then none else some (.load 8 true rd 2 (rvSpLoadD w))
  | 4 =>
    if bits w 12 1 = 0 then
      if rs2 = 0 then (if rd = 0 then none else some (.jalr 0 rd 0)) else some (.alu .add false rd 0 rs2)
    else if rs2 = 0 then (if rd = 0 then none else some (.jalr 1 rd 0))
    else some (.alu .add false rd rd rs2)
  | 6 => some (.store 4 rs2 2 (rvSpStoreW w))
  | 7 => some (.store 8 rs2 2 (rvSpStoreD w))
  | _ => none

/-- A compressed instruction. -/
def rvDecode16 (w : Nat) : Option Rv :=
  match w % 4 with
  | 0 => rvQuad0 w
  | 1 => rvQuad1 w
  | _ => rvQuad2 w

/-! ## Computing -/

/-- An operation on values of a width. Division by zero gives all ones, its remainder the dividend; the quotient of the
most negative value by -1 is that value. -/
def rvCompute {n : Nat} (op : RvAlu) (x y : BitVec n) (shift : Nat) : BitVec n :=
  match op with
  | .add => x + y
  | .sub => x - y
  | .sll => x <<< shift
  | .slt => BitVec.ofNat n (ofBool (BitVec.slt x y))
  | .sltu => BitVec.ofNat n (ofBool (BitVec.ult x y))
  | .xor => x ^^^ y
  | .srl => x >>> shift
  | .sra => BitVec.sshiftRight x shift
  | .or => x ||| y
  | .and => x &&& y
  | .mul => x * y
  | .mulh => BitVec.ofInt n (x.toInt * y.toInt / 2 ^ n)
  | .mulhsu => BitVec.ofInt n (x.toInt * (y.toNat : Int) / 2 ^ n)
  | .mulhu => BitVec.ofNat n (x.toNat * y.toNat / 2 ^ n)
  | .div => if y = 0 then BitVec.allOnes n else BitVec.ofInt n (Int.tdiv x.toInt y.toInt)
  | .divu => if y = 0 then BitVec.allOnes n else BitVec.ofNat n (x.toNat / y.toNat)
  | .rem => if y = 0 then x else BitVec.ofInt n (Int.tmod x.toInt y.toInt)
  | .remu => if y = 0 then x else BitVec.ofNat n (x.toNat % y.toNat)

/-- An operation; its 32-bit form takes the low halves and sign-extends the result. -/
def rvAlu (op : RvAlu) (word : Bool) (x y : DWord) : DWord :=
  if word then (rvCompute op (x.setWidth 32) (y.setWidth 32) (y.toNat % 32)).signExtend 64
  else rvCompute op x y (y.toNat % 64)

/-- A branch is taken. -/
def rvTaken (c : RvCond) (x y : DWord) : Bool :=
  match c with
  | .eq => x == y
  | .ne => x != y
  | .lt => BitVec.slt x y
  | .ge => !BitVec.slt x y
  | .ltu => BitVec.ult x y
  | .geu => !BitVec.ult x y

/-- Register x0 reads as zero and discards writes. -/
def Lantern.reg (l : Lantern) (r : Nat) : DWord := if r = 0 then 0 else Sparse.get 0 l.xs r
def Lantern.setReg (r : Nat) (x : DWord) (l : Lantern) : Lantern := if r = 0 then l else { l with xs := Sparse.set 0 l.xs r x }

/-- A loaded value, extended to 64 bits. -/
def rvExtend (n : Nat) (signed : Bool) (x : Nat) : DWord := if signed then rvSigned (8 * n) x else BitVec.ofNat 64 x

/-- An instruction that reaches no memory, with the pc of the next word after it: the registers and the pc it leaves. -/
def rvPure (i : Rv) (next : DWord) (l : Lantern) : Lantern :=
  match i with
  | .alu op word rd a b => { l.setReg rd (rvAlu op word (l.reg a) (l.reg b)) with pc := next }
  | .imm op word rd a x => { l.setReg rd (rvAlu op word (l.reg a) x) with pc := next }
  | .lui rd x => { l.setReg rd x with pc := next }
  | .auipc rd x => { l.setReg rd (l.pc + x) with pc := next }
  | .jal rd x => { l.setReg rd next with pc := l.pc + x }
  | .jalr rd a x => { l.setReg rd next with pc := BitVec.ofNat 64 ((l.reg a + x).toNat / 2 * 2) }
  | .branch c a b x => { l with pc := if rvTaken c (l.reg a) (l.reg b) then l.pc + x else next }
  | .load .. | .store .. | .fence => { l with pc := next }

end Sys2Proof.Machine
end

