-- ==== Sys2Proof/Machine/Lanterns.lean ====
section
/-! DEFINITION. The Lantern cores (R247, R248, R339 to R343): handlers start, run their program, end, overrun and
fail; their port registers and port operations. -/

namespace Sys2Proof.Machine

/-- Change a Lantern core. -/
def modLantern (slice : Nat) (f : Lantern → Lantern) (s : State) : State := putLantern slice (f (getLantern s slice)) s

/-- The handler range of a trigger. -/
def triggerRange (s : State) (slice : Nat) (t : Trigger) : Option HandlerRange :=
  (Sparse.find? s.contexts t.cid).bind (fun c => Sparse.find? c.ranges (16 * slice + t.range))

/-! ## What a completed trigger does (R343) -/

/-- Install a line with given bytes, clean, at the L2 level: a handler's own, which carries mark 511, or the one that
has arrived from the channel. -/
def putInstalled (cid va : Nat) (data : List Byte) (own : Bool) (s : State) : State :=
  match translate s cid va with
  | (.error _, s) => s
  | (.ok x, s) =>
    if (Sparse.find? s.l2 (lineKey cid (va / 128))).isSome then s
    else
      let l := freshLine s cid va x
      let l : L2Line := { l with data := Sparse.setAll 0 [] 0 data,
                                 marks := if own then Sparse.setAll 0 [] 0 (List.replicate 16 Config.noMark) else l.marks,
                                 poison := if own then 0 else l.poison }
      let u : State := { s with l2 := Sparse.put s.l2 (lineKey cid (va / 128)) l }
      if own then u else readEcc (loadCode x (parityEvents l u))

/-- The slice's die takes its copy of a line. -/
def takeCopy (slice cid va : Nat) (s : State) : State :=
  drainMsgs 64 (obtain (slice / 32) (lineKey cid (va / 128)) false s)

/-- A line is installed in the slice. The handler's own line takes the place of the copies that other dies hold, which
are written back first (log 101). -/
def installLine (slice cid va : Nat) (data : List Byte) (own : Bool) (s : State) : State :=
  let quiet : Bool := match Sparse.find? s.l2 (lineKey cid (va / 128)) with | some l => l.txn.isNone | none => true
  takeCopy slice cid va (putInstalled cid va data own (if own && quiet then l2Drop (lineKey cid (va / 128)) s else s))

/-- The fill of a MISS proceeds: data that arrive from the channel may raise FILL in turn (R247). -/
def proceedFill (slice : Nat) (t : Trigger) (s : State) : State :=
  let va := t.va.toNat
  if (Sparse.find? s.l2 (lineKey t.cid (va / 128))).isSome then takeCopy slice t.cid va s
  else
    match translate s t.cid va with
    | (.error _, s) => s
    | (.ok x, s) =>
      match triggerRange s slice t with
      | some r =>
        if r.takes 1 then
          (match pushTrigger slice { t with kind := 1, data := Sparse.getAll 0 (freshLine s t.cid va x).data 0 128 } s with
           | (true, s) => s
           | (false, s) => takeCopy slice t.cid va (l2FillAt s t.cid va x).2)
        else takeCopy slice t.cid va (l2FillAt s t.cid va x).2
      | none => takeCopy slice t.cid va (l2FillAt s t.cid va x).2

/-- A die evicts a line, and its write-back has not reached the home. -/
def evicting (s : State) (die cid line : Nat) : Bool :=
  decide ((Sparse.find? s.l2 (lineKey cid line)).bind (fun l => copyAt l die) = some .miA)

/-- Write bytes of a word at the level beyond the slice, with mark 511. -/
def beyondWrite (cid va : Nat) (xs : List Byte) (s : State) : State :=
  match translate s cid va with
  | (.error _, s) => s
  | (.ok x, s) => backingWrite x.pa xs s

/-- Split bytes at the ends of aligned words. -/
def wordChunks : Nat → Nat → List Byte → List (Nat × List Byte)
  | 0, _, _ => []
  | fuel + 1, va, xs =>
    if xs.isEmpty then []
    else
      let k := 8 - va % 8
      (va, xs.take k) :: wordChunks fuel (va + k) (xs.drop k)

/-- The victim's write-back goes to the home, with the handler's bytes in its place if it substitutes. A victim that
was clean and shared has no write-back of its own: the handler's bytes go to memory. -/
def finishEvict (slice : Nat) (t : Trigger) (sub : Option (List Byte)) (s : State) : State :=
  let line := t.va.toNat / 128
  let key := lineKey t.cid line
  match evicting s (slice / 32) t.cid line, sub with
  | false, some xs => (wordChunks 16 (line * 128) xs).foldl (fun s p => beyondWrite t.cid p.1 p.2 s) s
  | false, none => s
  | true, sub =>
    let s := match sub with
      | some xs => modLine key (fun l => { l with data := Sparse.setAll 0 [] 0 xs, dirty := 65535,
                                                  marks := Sparse.setAll 0 [] 0 (List.replicate 16 Config.noMark) }) s
      | none => s
    deliver (.wb (slice / 32) t.cid line) s

/-- The action that ends a trigger: the default, or the line at 0x0080. -/
def triggerAction (slice : Nat) (t : Trigger) (sub : Option (List Byte)) (s : State) : State :=
  match t.kind, sub with
  | 0, none => proceedFill slice t s
  | 0, some xs => installLine slice t.cid t.va.toNat xs true s
  | 1, none => installLine slice t.cid t.va.toNat t.data false s
  | 1, some xs => installLine slice t.cid t.va.toNat xs true s
  | 2, sub => finishEvict slice t sub s
  | _, _ => s

/-- Requesters that waited for lines go on: splits, copy commands, engine operations, and prefetches (R283). -/
def linesFree (p : Nat → Nat → Bool) (s : State) : State :=
  let s := (s.prefetches.filter (fun q => p q.cid q.line)).foldl (fun s q => prefetchAgain q.cid q.line s) s
  let s := wakeAll (fun o => match o with | .line c l _ => p c l | _ => false) s
  due (s.clusters.filterMap (fun kc => if kc.2.copyq.isEmpty then none else some (.copyCommandStart kc.1)) ++
    s.cores.flatMap (fun kc => if kc.2.ops.isEmpty then [] else startEvents kc.1)) s

/-- Requesters that waited for a trigger's line go on. -/
def lineDone (t : Trigger) (s : State) : State := linesFree (fun c l => c == t.cid && l == t.va.toNat / 128) s

/-- The budget's end of a slice is off the calendar. -/
def dropBudget (slice : Nat) (s : State) : State :=
  { s with calendar := s.calendar.filter (fun c => c.2 != .lanternBudgetExpiry slice) }

/-- A handler ends with an action; the next trigger may start. -/
def endHandler (slice : Nat) (t : Trigger) (sub : Option (List Byte)) (s : State) : State :=
  let s := modLantern slice (fun l => { l with running := none }) (dropBudget slice s)
  let s := lineDone t (triggerAction slice t sub s)
  if (getLantern s slice).queue.isEmpty then s else due [.lanternHandlerStart slice] s

/-! ## The end of a handler (R248, R340, R343) -/

/-- A port operation has not completed yet. -/
def portBusy (s : State) (slice : Nat) : Bool :=
  let ends (i : Instr) : Bool := match i with | .lanternPortComplete sl _ => sl == slice | _ => false
  (getLantern s slice).asking.isSome || s.calendar.any (fun c => ends c.2) || s.agenda.any ends

/-- What ends a trigger waits while the page of its line changes its bias (R261). -/
def endWaits (s : State) (t : Trigger) : Bool := decide (t.kind < 3) && flipping s t.cid t.va.toNat

/-- A handler that has written DONE, or that was aborted, ends once its port operations have completed. -/
def finishHandler (slice : Nat) (s : State) : State :=
  let l := getLantern s slice
  match l.running, l.done with
  | some t, some sub =>
    if portBusy s slice || endWaits s t then s
    else endHandler slice t (if sub && decide (t.kind < 3) then some (Sparse.getAll 0 l.mem 0x80 128) else none) s
  | _, _ => s

/-- An overrun is counted; the third of a range within 1 ms disables it, with an event. -/
def overrun (slice : Nat) (t : Trigger) (s : State) : State :=
  let s := modLantern slice (fun l => { l with overruns := l.overruns + 1 }) s
  match triggerRange s slice t with
  | none => s
  | some r =>
    let recent := r.overruns.filter (fun x => decide (s.chiptime < x + 2700000))
    let r := { r with overruns := s.chiptime :: recent, disabled := r.disabled || decide (2 ≤ recent.length) }
    let s := modContext t.cid (fun c => { c with ranges := Sparse.put c.ranges (16 * slice + t.range) r }) s
    if recent.length = 2 then post t.cid 2 slice 10 0 0 r.vbase 0 s else s

/-- A handler is aborted: an overrun, and the default action. One that has written DONE is not (R344). -/
def abortHandler (slice : Nat) (s : State) : State :=
  let l := getLantern s slice
  match l.running, l.done with
  | some t, none =>
    let s := overrun slice t s
    if endWaits s t then modLantern slice (fun l => { l with done := some false }) (dropBudget slice s)
    else endHandler slice t none s
  | _, _ => s

/-- LANTERN_BUDGET_EXPIRY. -/
def execLanternBudgetExpiry (slice : Nat) (s : State) : Host.Outcome State Fault Refusal :=
  .next (let l := getLantern s slice
    if l.started + 2 * l.budget ≤ s.chiptime then abortHandler slice s else s)

/-- LANTERN_HANDLER_EXCEPTION. -/
def execLanternHandlerException (slice : Nat) (s : State) : Host.Outcome State Fault Refusal :=
  .next (abortHandler slice s)

/-- A handler writes DONE: once its port operations have completed, it completes. -/
def handlerDone (slice : Nat) (substitute : Bool) (s : State) : State :=
  let l := getLantern s slice
  match l.running, l.done with
  | some _, none => finishHandler slice (modLantern slice (fun l => { l with done := some substitute }) (dropBudget slice s))
  | _, _ => s

/-- LANTERN_DONE_DEFAULT. -/
def execLanternDoneDefault (slice : Nat) (s : State) : Host.Outcome State Fault Refusal := .next (handlerDone slice false s)

/-- LANTERN_DONE_SUBSTITUTE. -/
def execLanternDoneSubstitute (slice : Nat) (s : State) : Host.Outcome State Fault Refusal := .next (handlerDone slice true s)

/-! ## Local memory and port registers (R340, R341) -/

/-- A byte of local memory that a handler of a context may read and write: 0x0000 to 0x00FF, and the context's region. -/
def localByte (s : State) (slice cid a : Nat) : Bool :=
  decide (a < 256) ||
    (match (Sparse.find? s.contexts cid).bind (fun c => Sparse.find? c.regions slice) with
     | some (lo, size) => decide (lo ≤ a) && decide (a < lo + size)
     | none => false)

/-- Bytes of local memory that a handler of a context may read and write. -/
def localOk (s : State) (slice cid off n : Nat) : Bool := (List.range n).all (fun i => localByte s slice cid (off + i))

/-- What an 8-byte load of a port register reads: the budget left counts Lantern cycles, half the chip clock. A
register that is only written reads as a free value (log 20); where there is no register there is nothing to read. -/
def portReg (s : State) (slice off : Nat) : Option Nat :=
  let l := getLantern s slice
  match off with
  | 0x00 => some l.paddr.toNat
  | 0x08 => some l.plocal.toNat
  | 0x10 => some l.plen.toNat
  | 0x18 | 0x40 => some (Config.freeBits s.fresh).toNat
  | 0x20 => some l.pstat
  | 0x28 => some l.popnd.toNat
  | 0x30 => some l.pres.toNat
  | 0x38 => some l.rdest.toNat
  | 0x48 => some (l.budget - (s.chiptime - l.started) / 2)
  | 0x50 => some (chipNow s)
  | _ => none

/-! ## Port operations (R342) -/

/-- A port operation ends after a free delay with a status; until then PSTAT is busy. -/
def portEnds (slice status : Nat) (s : State) : State :=
  let (n, s) := freeNat s
  after n (.lanternPortComplete slice status) (modLantern slice (fun l => { l with pstat := 1 }) s)

/-- The line is the one whose MISS or FILL is being handled: an access reaches the level beyond the slice. -/
def beyondSlice (t : Trigger) (cid va : Nat) : Bool := decide (t.kind < 2) && t.cid == cid && t.va.toNat / 128 == va / 128

/-- Split a byte range at the ends of lines. -/
def lineParts : Nat → Nat → Nat → List (Nat × Nat)
  | 0, _, _ => []
  | fuel + 1, va, n =>
    if n = 0 then []
    else
      let k := Nat.min n (128 - va % 128)
      (va, k) :: lineParts fuel (va + k) (n - k)

/-- Read beyond the slice: from the channel (R342). -/
def beyondRead (cid va n : Nat) (s : State) : Except Nat Got × State :=
  match translate s cid va with
  | (.error e, s) => (.error e, s)
  | (.ok x, s) => let l := freshLine s cid va x; (.ok (lineGot l.data l.poison (va % 128) n), s)

/-- Read one part, at the L2 level of a die or beyond the slice. -/
def portReadPart (die : Nat) (t : Trigger) (p : Nat × Nat) (s : State) : Option (List Byte) × State :=
  match (if beyondSlice t t.cid p.1 then beyondRead t.cid p.1 p.2 s else l2ReadFor .port die t.cid p.1 p.2 s) with
  | (.ok g, s) => (if g.poison then none else some g.bytes, s)
  | (.error _, s) => (none, s)

/-- Read the parts; none when one of them cannot be had. -/
def portReadAll (die : Nat) (t : Trigger) : List (Nat × Nat) → State → Option (List Byte) × State
  | [], s => (some [], s)
  | p :: ps, s =>
    match portReadPart die t p s with
    | (none, s) => (none, s)
    | (some xs, s) =>
      match portReadAll die t ps s with
      | (none, s) => (none, s)
      | (some ys, s) => (some (xs ++ ys), s)

/-- A page takes a port write: mapped, with W, not SHADOW, and no poisoned granule is written. -/
def portWritable (cid va n : Nat) (s : State) : Bool × State :=
  match translate s cid va with
  | (.error _, s) => (false, s)
  | (.ok x, s) =>
    let l := (Sparse.find? s.l2 (lineKey cid (va / 128))).getD (freshLine s cid va x)
    (x.w && !x.shadow && !(lineGot [] l.poison (va % 128) n).poison, s)

/-- The pages of all parts take a port write. -/
def allWritable (cid : Nat) (ps : List (Nat × Nat)) (s : State) : Bool × State :=
  ps.foldl (fun (acc : Bool × State) p => match portWritable cid p.1 p.2 acc.2 with | (b, s) => (acc.1 && b, s)) (true, s)

/-- Write one word's part for a port. -/
def portWritePart (die : Nat) (t : Trigger) (p : Nat × List Byte) (s : State) : State :=
  if beyondSlice t t.cid p.1 then beyondWrite t.cid p.1 p.2 s else (l2WriteFor .port die t.cid p.1 p.2 .clear s).2

/-- Write bytes for a port. -/
def portWriteAll (die : Nat) (t : Trigger) (va : Nat) (xs : List Byte) (s : State) : State :=
  (wordChunks 34 va xs).foldl (fun s p => portWritePart die t p s) s

/-- A read moves bytes into local memory. -/
def portRead (slice : Nat) (c : PortCmd) (s : State) : Nat × State :=
  match portReadAll (slice / 32) c.trigger (lineParts 4 c.paddr c.plen) s with
  | (none, _) => (2, s)
  | (some xs, s) => (0, modLantern slice (fun l => { l with mem := Sparse.setAll 0 l.mem c.plocal xs }) s)

/-- A write moves bytes out of local memory, with mark 511. -/
def portWrite (slice : Nat) (c : PortCmd) (s : State) : Nat × State :=
  match allWritable c.trigger.cid (lineParts 4 c.paddr c.plen) s with
  | (true, s) =>
    (0, portWriteAll (slice / 32) c.trigger c.paddr (Sparse.getAll 0 (getLantern s slice).mem c.plocal c.plen) s)
  | (false, s) => (2, s)

/-- A prefetch fills a line into the slice. -/
def portPrefetch (slice : Nat) (c : PortCmd) (s : State) : Nat × State :=
  let t := c.trigger
  if beyondSlice t t.cid c.paddr then (0, s)
  else
    match l2FillFor .port (slice / 32) s t.cid c.paddr with
    | (.ok _, s) => (0, drainMsgs 64 (obtainFor .port (slice / 32) (lineKey t.cid (c.paddr / 128)) false s))
    | (.error _, s) => (2, s)

/-- The function of a read-modify-write. -/
def rmwFun (op x y : Nat) : Nat :=
  match op with
  | 3 => x + y
  | 4 => Nat.land x y
  | 5 => Nat.lor x y
  | 6 => Nat.xor x y
  | _ => y

/-- The bytes of a read-modify-write. -/
def PortCmd.width (c : PortCmd) : Nat := if c.wide then 8 else 4

/-- The near-cache read-modify-writes: device-scope atomics at the line's home slice (R276). -/
def portRmw (slice : Nat) (c : PortCmd) (s : State) : Nat × State :=
  let t := c.trigger
  let home := homeSlice t.cid c.paddr / 32
  match portWritable t.cid c.paddr c.width s with
  | (false, s) => (2, s)
  | (true, s) =>
    match portReadPart home t (c.paddr, c.width) s with
    | (none, s) => (2, s)
    | (some xs, s) =>
      let new := leBytes c.width (rmwFun c.op (leNat xs) (c.operand.toNat % 256 ^ c.width))
      (0, modLantern slice (fun l => { l with pres := BitVec.ofNat 64 (leNat xs) }) (portWritePart home t (c.paddr, new) s))

/-- A bank takes a reply: FIFO mode, entries of 256 bytes, owned by a launch of the context. -/
def replyBank (s : State) (cl b cid : Nat) : Bool :=
  let k := getBank s cl b
  decide (k.mode = .fifo) && decide (k.entryBytes = 256) &&
    (match k.owner.bind (Sparse.find? s.launches) with | some l => l.record.cid == cid | none => false)

/-- A reply sends 256 bytes as one entry; a full bank gives status 1, with nothing sent. -/
def portReply (slice : Nat) (c : PortCmd) (s : State) : Nat × State :=
  let cl := 8 * bits c.rdest 0 3 + bits c.rdest 3 3
  let b := bits c.rdest 6 6
  if !replyBank s cl b c.trigger.cid then (3, s)
  else if (getBank s cl b).capacity ≤ (getBank s cl b).fifo.length then (1, s)
  else
    let x : Entry := { bytes := Sparse.getAll 0 (getLantern s slice).mem c.plocal 256, poison := false }
    (0, giveEntry cl b x false (bankActive cl b s).2)

/-- What a port operation does: the status it ends with, and the state. -/
def portAct (slice : Nat) (c : PortCmd) (s : State) : Nat × State :=
  match c.op with
  | 0 => portRead slice c s
  | 1 => portWrite slice c s
  | 2 => portPrefetch slice c s
  | 8 => portReply slice c s
  | _ => portRmw slice c s

/-- A length of 1 to 256, or an address aligned to the width. -/
def PortCmd.fine (c : PortCmd) : Bool :=
  match c.op with
  | 0 | 1 => decide (1 ≤ c.plen) && decide (c.plen ≤ 256)
  | 2 | 8 => true
  | _ => decide (c.paddr % c.width = 0)

/-- The bytes of local memory that an operation reads or writes. -/
def PortCmd.span (c : PortCmd) : Nat :=
  match c.op with
  | 0 | 1 => c.plen
  | 8 => 256
  | _ => 0

/-- The parts of memory that an operation reaches. -/
def PortCmd.parts (c : PortCmd) : List (Nat × Nat) :=
  match c.op with
  | 0 | 1 => lineParts 4 c.paddr c.plen
  | 8 => []
  | _ => [(c.paddr, 1)]

/-- An operation performs, or waits for a page that changes its bias (R261). -/
def portPerform (slice : Nat) (c : PortCmd) (s : State) : State :=
  if c.parts.any (fun p => flipping s c.trigger.cid p.1) then modLantern slice (fun l => { l with asking := some c, pstat := 1 }) s
  else
    match portAct slice c s with
    | (st, s) => portEnds slice st s

/-- An operation that waits tries again. -/
def retryAsked (slice : Nat) (s : State) : State :=
  match (getLantern s slice).asking with
  | some c => portPerform slice c (modLantern slice (fun l => { l with asking := none }) s)
  | none => s

/-- The operation that the port registers name, for the trigger that is handled. -/
def Lantern.command (l : Lantern) (t : Trigger) : PortCmd :=
  { op := l.pcmd.toNat % 16, wide := bit l.pcmd.toNat 4, paddr := l.paddr.toNat, plocal := l.plocal.toNat,
    plen := l.plen.toNat, operand := l.popnd, rdest := l.rdest.toNat, trigger := t }

/-- PCMD holds an operation of R342, with its reserved bits zero. -/
def Lantern.codeOk (l : Lantern) : Bool := decide (l.pcmd.toNat < 32) && decide (l.pcmd.toNat % 16 ≤ 8)

/-- PCMD has been written: the operation starts, or is refused; a handler that reaches beyond its local memory is
aborted (R340). -/
def portStart (slice : Nat) (s : State) : State :=
  let l := getLantern s slice
  match l.running with
  | none => s
  | some t =>
    let c := l.command t
    if portBusy s slice || !l.codeOk || !c.fine then modLantern slice (fun l => { l with pstat := 3 }) s
    else if !localOk s slice t.cid c.plocal c.span then abortHandler slice s
    else portPerform slice c s

/-- The registers of a read or a write, with its command word. -/
def setPort (paddr plocal plen cmd : Nat) (l : Lantern) : Lantern :=
  { l with paddr := BitVec.ofNat 64 paddr, plocal := BitVec.ofNat 64 (plocal % 65536),
           plen := BitVec.ofNat 64 (plen % 512), pcmd := BitVec.ofNat 64 cmd }

/-- The registers of a read-modify-write, with its command word. -/
def setRmw (paddr cmd : Nat) (wide : Bool) (operand : BitVec 64) (l : Lantern) : Lantern :=
  { l with paddr := BitVec.ofNat 64 paddr, popnd := operand, pcmd := BitVec.ofNat 64 (cmd + 16 * ofBool wide) }

/-- The registers of a reply, with its command word. -/
def setReply (plocal rdest : Nat) (l : Lantern) : Lantern :=
  { l with plocal := BitVec.ofNat 64 (plocal % 65536), rdest := BitVec.ofNat 64 rdest, pcmd := 8 }

/-- LANTERN_PORT_READ. -/
def execLanternPortRead (slice paddr plocal plen : Nat) (s : State) : Host.Outcome State Fault Refusal :=
  .next (portStart slice (modLantern slice (setPort paddr plocal plen 0) s))

/-- LANTERN_PORT_WRITE. -/
def execLanternPortWrite (slice paddr plocal plen : Nat) (s : State) : Host.Outcome State Fault Refusal :=
  .next (portStart slice (modLantern slice (setPort paddr plocal plen 1) s))

/-- LANTERN_PORT_PREFETCH. -/
def execLanternPortPrefetch (slice paddr : Nat) (s : State) : Host.Outcome State Fault Refusal :=
  .next (portStart slice (modLantern slice (fun l => { l with paddr := BitVec.ofNat 64 paddr, pcmd := 2 }) s))

/-- LANTERN_PORT_ADD. -/
def execLanternPortAdd (slice paddr : Nat) (wide : Bool) (operand : BitVec 64) (s : State) : Host.Outcome State Fault Refusal :=
  .next (portStart slice (modLantern slice (setRmw paddr 3 wide operand) s))

/-- LANTERN_PORT_AND. -/
def execLanternPortAnd (slice paddr : Nat) (wide : Bool) (operand : BitVec 64) (s : State) : Host.Outcome State Fault Refusal :=
  .next (portStart slice (modLantern slice (setRmw paddr 4 wide operand) s))

/-- LANTERN_PORT_OR. -/
def execLanternPortOr (slice paddr : Nat) (wide : Bool) (operand : BitVec 64) (s : State) : Host.Outcome State Fault Refusal :=
  .next (portStart slice (modLantern slice (setRmw paddr 5 wide operand) s))

/-- LANTERN_PORT_XOR. -/
def execLanternPortXor (slice paddr : Nat) (wide : Bool) (operand : BitVec 64) (s : State) : Host.Outcome State Fault Refusal :=
  .next (portStart slice (modLantern slice (setRmw paddr 6 wide operand) s))

/-- LANTERN_PORT_SWAP. -/
def execLanternPortSwap (slice paddr : Nat) (wide : Bool) (operand : BitVec 64) (s : State) : Host.Outcome State Fault Refusal :=
  .next (portStart slice (modLantern slice (setRmw paddr 7 wide operand) s))

/-- LANTERN_PORT_REPLY. -/
def execLanternPortReply (slice plocal rdest : Nat) (s : State) : Host.Outcome State Fault Refusal :=
  .next (portStart slice (modLantern slice (setReply plocal rdest) s))

/-- LANTERN_PORT_REFUSED. -/
def execLanternPortRefused (slice : Nat) (s : State) : Host.Outcome State Fault Refusal :=
  .next (modLantern slice (fun l => { l with pstat := 3 }) s)

/-- LANTERN_PORT_COMPLETE: PSTAT shows the status; a handler that has written DONE may have waited for it. -/
def execLanternPortComplete (slice status : Nat) (s : State) : Host.Outcome State Fault Refusal :=
  .next (finishHandler slice (modLantern slice (fun l => { l with pstat := status % 4 }) s))

/-! ## The program of a handler (R340, R341; log 20) -/

/-- The next instruction of a handler follows after a free number of Lantern cycles, at least one. -/
def instrAfter (slice : Nat) (s : State) : State :=
  let (n, s) := freeNat s
  after (2 * (n + 1)) (.lanternHandlerStart slice) (modLantern slice (fun l => { l with nextAt := s.chiptime + 2 * (n + 1) }) s)

/-- A handler that still runs goes on to its next instruction. -/
def goOn (slice : Nat) (s : State) : State :=
  let l := getLantern s slice
  if l.running.isSome && l.done.isNone then instrAfter slice s else s

/-- A misaligned access of local memory raises an exception only if the core is so made. -/
def rvAligned (n a : Nat) : Bool := decide (a % n = 0) || !Config.lanternAligns

/-- A load of `n` bytes; none raises an exception. -/
def rvLoad (slice cid n a : Nat) (s : State) : Option Nat × State :=
  if 0x10000 ≤ a then
    (if n = 8 ∧ a % 8 = 0 then portReg s slice (a - 0x10000) else none, { s with fresh := s.fresh + 1 })
  else if localOk s slice cid a n && rvAligned n a then (some (leNat (Sparse.getAll 0 (getLantern s slice).mem a n)), s)
  else (none, s)

/-- An 8-byte store to a port register; none raises an exception. A register that is only read takes no write. -/
def portStore (slice off : Nat) (x : DWord) (s : State) : Option State :=
  let put (f : Lantern → Lantern) : Option State := some (modLantern slice f s)
  match off with
  | 0x00 => put (fun l => { l with paddr := x })
  | 0x08 => put (fun l => { l with plocal := BitVec.ofNat 64 (x.toNat % 65536) })
  | 0x10 => put (fun l => { l with plen := BitVec.ofNat 64 (x.toNat % 512) })
  | 0x18 => some (portStart slice (modLantern slice (fun l => { l with pcmd := x }) s))
  | 0x28 => put (fun l => { l with popnd := x })
  | 0x38 => put (fun l => { l with rdest := x })
  | 0x40 => some (handlerDone slice (decide (x = 1)) s)
  | 0x20 | 0x30 | 0x48 | 0x50 => some s
  | _ => none

/-- A store of `n` bytes; none raises an exception. -/
def rvStore (slice cid n a : Nat) (x : DWord) (s : State) : Option State :=
  if 0x10000 ≤ a then (if n = 8 ∧ a % 8 = 0 then portStore slice (a - 0x10000) x s else none)
  else if localOk s slice cid a n && rvAligned n a then
    some (modLantern slice (fun l => { l with mem := Sparse.setAll 0 l.mem a (leBytes n x.toNat) }) s)
  else none

/-- An instruction of a handler, with the pc of the next word after it. -/
def rvExec (slice cid : Nat) (i : Rv) (next : DWord) (s : State) : State :=
  let l := getLantern s slice
  match i with
  | .load n signed rd a x =>
    (match rvLoad slice cid n (l.reg a + x).toNat s with
     | (none, s) => abortHandler slice s
     | (some v, s) => goOn slice (modLantern slice (fun l => rvPure i next (l.setReg rd (rvExtend n signed v))) s))
  | .store n b a x =>
    (match rvStore slice cid n (l.reg a + x).toNat (l.reg b) (modLantern slice (rvPure i next) s) with
     | none => abortHandler slice s
     | some s => goOn slice s)
  | i => goOn slice (modLantern slice (rvPure i next) s)

/-- A handler runs its next instruction; one that cannot be fetched or decoded raises an exception. -/
def rvStep (slice cid : Nat) (s : State) : State :=
  let l := getLantern s slice
  let word (n : Nat) : Nat := leNat (Sparse.getAll 0 l.mem l.pc.toNat n)
  if !localOk s slice cid l.pc.toNat 2 then abortHandler slice s
  else if word 2 % 4 = 3 then
    (if !localOk s slice cid l.pc.toNat 4 then abortHandler slice s
     else match rvDecode32 (word 4) with
       | some i => rvExec slice cid i (l.pc + 4) s
       | none => abortHandler slice s)
  else
    match rvDecode16 (word 2) with
    | some i => rvExec slice cid i (l.pc + 2) s
    | none => abortHandler slice s

/-! ## The start of a handler (R248, R340) -/

/-- The bytes of a trigger record. -/
def Trigger.bytes (t : Trigger) : List Byte :=
  leBytes 1 t.kind ++ leBytes 1 t.range ++ leBytes 2 t.cid ++ leBytes 2 t.home ++ leBytes 2 (ofBool t.dirty)
    ++ leBytes 8 t.va.toNat ++ leBytes 8 t.seq ++ leBytes 40 0

/-- What the core writes into its local memory before a handler starts. -/
def triggerMem (t : Trigger) (m : Sparse Byte) : Sparse Byte :=
  let m := Sparse.setAll 0 m 0 t.bytes
  match t.kind with
  | 0 => m
  | 3 => Sparse.setAll 0 m 0x40 t.data
  | _ => Sparse.setAll 0 m 0x80 t.data

/-- A handler starts at its entry; its budget is counted at 1.35 GHz, half the chip clock. -/
def runHandler (slice : Nat) (t : Trigger) (r : HandlerRange) (s : State) : State :=
  instrAfter slice (after (2 * r.budget) (.lanternBudgetExpiry slice) (modLantern slice (fun l => { l with
    running := some t, started := s.chiptime, budget := r.budget, done := none, mem := triggerMem t l.mem,
    pc := BitVec.ofNat 64 (bits r.entry (16 * t.kind) 16) }) s))

/-- The next trigger starts its handler; one that its range no longer takes gets its default action. -/
def startTrigger (slice : Nat) (t : Trigger) (ts : List Trigger) (s : State) : State :=
  let u := modLantern slice (fun l => { l with queue := ts }) s
  match (triggerRange s slice t).filter (fun r => r.takes t.kind) with
  | some r => runHandler slice t r u
  | none => if endWaits s t then s else endHandler slice t none u

/-- LANTERN_HANDLER_START: the core starts the next trigger's handler, or goes on: with the next instruction of the one
that runs, once its time has come, with its end, and with a port operation that waits. -/
def execLanternHandlerStart (slice : Nat) (s : State) : Host.Outcome State Fault Refusal :=
  .next (let s := retryAsked slice s
    let l := getLantern s slice
    match l.running, l.queue with
    | some t, _ =>
      if l.done.isSome then finishHandler slice s else if l.nextAt ≤ s.chiptime then rvStep slice t.cid s else s
    | none, t :: ts => startTrigger slice t ts s
    | none, [] => s)

/-- Cores that a page's change of bias has held up go on (R261). -/
def lanternsFree (s : State) : State :=
  due ((s.lanterns.filter (fun kl => kl.2.asking.isSome || kl.2.done.isSome || !kl.2.queue.isEmpty)).map
    (fun kl => .lanternHandlerStart kl.1)) s

end Sys2Proof.Machine
end

