-- ==== Sys2Proof/Machine/Requests.lean ====
section
/-! DEFINITION. The requests of a partition's mailbox (R410), with what each brings about (R238, R243, R259, R261, R339,
R385, R399, R406 to R408, R413, R424). -/

namespace Sys2Proof.Machine

/-- The mailboxes accept requests once step 6 has ended (R429). -/
def whenReady (s t : State) : State := if hostReady s then t else s

/-! ## The end of a request -/

/-- A request on a context of its partition. -/
def onContext (part cid : Nat) (f : Context → State → State) (s : State) : State :=
  match Sparse.find? s.contexts cid with
  | some c => if ownsContext s part cid then f c s else refuse part s
  | none => refuse part s

/-- REQUEST_REFUSED. -/
def execRequestRefused (part _code : Nat) (s : State) : Host.Outcome State Fault Refusal := .next (whenReady s <| refuse part s)

/-! ## Contexts -/

/-- A CID that no context has: the first from a free one upward. -/
def freshCid (s : State) (start : Nat) : Option Nat :=
  ((List.range 4096).map (fun i => (start + i) % 4096)).find? (fun cid => (Sparse.find? s.contexts cid).isNone)

/-- NEWCTX: STATUS returns the CID in [27:16]. -/
def execNewctx (part : Nat) (s : State) : Host.Outcome State Fault Refusal :=
  .next (whenReady s <| let (n, s) := freeNat s
    match freshCid s n with
    | some cid => finishRequest part (65536 * cid) { s with contexts := Sparse.put s.contexts cid (Context.fresh part) }
    | none => refuse part s)

/-- The read-only lines that a context's caches hold until it ends leave (R269, R338, R439); so do its fetched words. -/
def dropReadOnly (cid : Nat) (s : State) : State :=
  { s with
    cores := s.cores.map (fun (kc : Nat × Core) => (kc.1, { kc.2 with
      icache := otherContexts cid kc.2.icache
      const := otherContexts cid kc.2.const
      records := otherContexts cid kc.2.records }))
    clusters := s.clusters.map (fun (kc : Nat × Cluster) => (kc.1, { kc.2 with
      sampler := otherContexts cid kc.2.sampler
      layout := otherContexts cid kc.2.layout })) }

/-- The words that have waited at the channel perform, those of a line first that no die holds any longer. -/
def performHeld (p : Nat → Nat → Bool) (s : State) : State :=
  let ws := s.writes.filter (fun w => p w.cid (w.va / 128))
  let s := (s.l2.filter (fun kl => p kl.2.cid kl.2.line)).foldl (fun s kl => settle kl.1 s) s
  ws.foldl (fun s w => carryNow w s) { s with writes := s.writes.filter (fun w => !p w.cid (w.va / 128)) }

/-- What a context holds is given up: its handles close without a write-back, its pin windows are released (R237,
R259), and its read-only lines leave (R269, R338, R439). -/
def endContext (cid : Nat) (s : State) : State :=
  let pins := (s.pins.filter (fun kp => kp.2.cid == cid)).map Prod.fst
  let s := dropReadOnly cid (pins.foldl (fun s k => dropPin k s) s)
  let s := performHeld (fun c _ => c == cid) { s with flips := s.flips.filter (fun f => f.cid != cid) }
  { s with
    contexts := Sparse.erase s.contexts cid
    windowCids := s.windowCids.filter (fun kw => kw.2 != cid)
    tiles := s.tiles.map (fun kt => if kt.2.cid = cid then (kt.1, { kt.2 with isOpen := false, tenure := [] }) else kt)
    prefetches := s.prefetches.filter (fun p => p.cid != cid)
    station := { s.station with outgoing := s.station.outgoing.filter (fun x => x.cid != cid) }
    tlb := s.tlb.filter (fun t => t.cid != cid) }

/-- ENDCTX: once the context's launches have ended. -/
def execEndctx (part cid : Nat) (s : State) : Host.Outcome State Fault Refusal :=
  .next (whenReady s <| onContext part cid (fun _ s =>
    if runsLaunch s cid then after 64 (.endctx part cid) s else granted part (endContext cid s)) s)

/-- CLEARCTX: the context accepts launches again. -/
def execClearctx (part cid : Nat) (s : State) : Host.Outcome State Fault Refusal :=
  .next (whenReady s <| onContext part cid (fun _ s =>
    let s := modContext cid (fun c => { c with poisoned := false }) s
    granted part (due (waitingQueues s) s)) s)

/-- The owner class of some 2 MiB frames (R385). -/
def setFrames (base frames cls : Nat) (s : State) : State :=
  { s with frames := (List.range frames).foldl (fun m i => Sparse.set 0 m (base / 2 ^ 21 + i) cls) s.frames }

/-- MAPFRAME: the frames' owner class. -/
def execMapframe (part cid _vbase pbase frames cls : Nat) (s : State) : Host.Outcome State Fault Refusal :=
  .next (whenReady s <| onContext part cid (fun _ s =>
    if cls < 3 ∧ pbase + 2 ^ 21 * frames ≤ Config.hbmBytes then granted part (setFrames pbase frames cls s) else refuse part s) s)

/-- The lowest base above every image range of a context. -/
def imageTop (c : Context) : Nat := c.images.foldl (fun m i => Nat.max m (i.1 + (i.2 + 65535) / 65536 * 65536)) 65536

/-- IMAGE: STATUS returns the base of the range in units of 64 KiB; which range is free. -/
def execImage (part cid size : Nat) (s : State) : Host.Outcome State Fault Refusal :=
  .next (whenReady s <| onContext part cid (fun c s =>
    let (n, s) := freeNat s
    let base := imageTop c + 65536 * (n % 65536)
    if base + size < 2 ^ 48 then
      finishRequest part (base / 65536) (modContext cid (fun c => { c with images := c.images ++ [(base, size)] }) s)
    else refuse part s) s)

/-- GROUPS. -/
def execGroups (part cid addr : Nat) (s : State) : Host.Outcome State Fault Refusal :=
  .next (whenReady s <| onContext part cid (fun _ s => granted part (modContext cid (fun c => { c with groups := addr }) s)) s)

/-- CHECKPOINT: once the buddy has confirmed a matching MIRROR (R424). -/
def execCheckpoint (part cid region buddy : Nat) (confirmed : Bool) (s : State) : Host.Outcome State Fault Refusal :=
  .next (whenReady s <| onContext part cid (fun _ s =>
    if region = 0xFFFFFFFF then granted part (modContext cid (fun c => { c with ckpt := none }) s)
    else if region < 64 ∧ buddy < 32768 ∧ confirmed then
      granted part (modContext cid (fun c => { c with ckpt := some (region, buddy) }) s)
    else refuse part s) s)

/-- MIRROR: the frames are of class system. -/
def execMirror (part device cid size base : Nat) (s : State) : Host.Outcome State Fault Refusal :=
  .next (whenReady s <| if device < 32768 ∧ cid < 4096 ∧ base + size ≤ Config.hbmBytes then
      let s := setFrames base ((base % 2 ^ 21 + size + 2 ^ 21 - 1) / 2 ^ 21) 2 s
      granted part { s with station := { s.station with mirrors := s.station.mirrors ++ [(4096 * device + cid, base, size)] } }
    else refuse part s)

/-! ## Format windows (R243) -/

/-- SETWINDOW: for the selected context; refused while a launch of that context, or of the one that the window serves,
runs (log 14). -/
def execSetwindow (part ctrl win : Nat) (w : FormatWindow) (s : State) : Host.Outcome State Fault Refusal :=
  .next (whenReady s <|
    let cid := (selected s part).map Prod.fst
    let busy : Bool := (cid.toList ++ (Sparse.find? s.windowCids (16 * ctrl + win)).toList).any (runsLaunch s)
    if busy ∨ 8 ≤ ctrl ∨ 16 ≤ win ∨ 4 ≤ w.fmt then refuse part s
    else
      let w : FormatWindow := { ebase := w.ebase % 2 ^ 36, esize := w.esize % 2 ^ 36, dbase := w.dbase % 2 ^ 47,
                                sbase := w.sbase % 2 ^ 50, fmt := w.fmt }
      let cids := match cid with
        | some k => Sparse.put s.windowCids (16 * ctrl + win) k
        | none => Sparse.erase s.windowCids (16 * ctrl + win)
      granted part { s with windows := Sparse.put s.windows (16 * ctrl + win) w, windowCids := cids })

/-! ## Bias (R261) -/

/-- The leaf entry of an address: where it lies, and its page's bits. -/
def leafFrom (s : State) (va table level : Nat) : List (Nat × Nat) → Option (Nat × Nat)
  | [] => none
  | (lo, n) :: rest =>
    let a := table + 8 * bits va lo n
    let pte := physNat s a 8
    if !bit pte 0 || !pteOk level pte lo then none
    else if bit pte 3 then some (a, lo)
    else leafFrom s va (bits pte 12 40 * 4096) (level + 1) rest

/-- A line lies in a page. -/
def inPage (lo va line : Nat) : Bool := line * 128 / 2 ^ lo == va / 2 ^ lo

/-- A copy command of a context reaches a page. -/
def CopyCmd.reaches (c : CopyCmd) (lo va : Nat) : Bool :=
  let shapes := (if c.ssp = 0 ∨ c.index.isSome then [c.src] else []) ++ c.index.toList ++ (if c.dsp = 0 then [c.dst] else [])
  shapes.any (fun sh => sh.lines.any (inPage lo va))

/-- A copy command of the context that was accepted before a flip's first step reaches the page (R261). -/
def copiesPage (s : State) (f : Flip) : Bool :=
  s.clusters.any (fun kc => kc.2.copyq.any (fun c =>
    cidOf s c.launch == f.cid && decide (c.accepted < f.since) && c.reaches f.bits (f.page * 2 ^ f.bits)))

/-- The mark of a page that changes its bias. -/
def findFlip (s : State) (cid lo va : Nat) : Option Flip := s.flips.find? (fun f => f.cid == cid && f.bits == lo && f.page == va / 2 ^ lo)

/-- The lines of a page that the L2 level holds. -/
def pageLines (s : State) (cid lo va : Nat) : List (Nat × L2Line) := s.l2.filter (fun kl => kl.2.cid == cid && inPage lo va kl.2.line)

/-- Every host copy of a page is recalled (R261). -/
def recallHost (cid lo va : Nat) (s : State) : State :=
  ((pageLines s cid lo va).filter (fun kl => (copyAt kl.2 hostDie).isSome)).foldl
    (fun s kl => recallFrom (homeSlice cid (kl.2.line * 128) / 32) cid kl.2.line [hostDie] s) s

/-- Step 1 of a flip: the page is marked; a flip to device bias first recalls the host's copies. -/
def startFlip (cid lo va : Nat) (host : Bool) (s : State) : Flip × State :=
  let s := if host then s else recallHost cid lo va s
  let f : Flip := { cid := cid, page := va / 2 ^ lo, bits := lo, since := s.links }
  (f, { s with flips := s.flips ++ [f], links := s.links + 1 })

/-- A line goes back to memory as a release write: its written words carry no mark. -/
def releaseLine (key : Nat) (s : State) : State :=
  l2Drop key (modLine key (fun l => { l with
    marks := (List.range 16).foldl (fun m i => if bit l.dirty i then Sparse.set 0 m i Config.noMark else m) l.marks }) s)

/-- Every cache writes back and drops its lines of a page; step 3's own write-backs do not wait for the mark (R261). -/
def releasePage (cid lo va : Nat) (s : State) : State :=
  let marks := s.flips
  let s : State := { s with flips := s.flips.filter (fun f => !(f.cid == cid && f.bits == lo && f.page == va / 2 ^ lo)) }
  let s := (List.range 64).foldl (fun s cl =>
    (clLines s cl (fun l => l.cid == cid && inPage lo va l.line)).foldl (fun s k => clEvict cl k.1 k.2 true s) s) s
  let s := ((pageLines s cid lo va).map Prod.fst).foldl (fun s k => releaseLine k s) s
  { s with flips := marks }

/-- BIASFLIP: the page is marked; the copy commands accepted before complete; every cache gives the page up; the
commit is then the next event (R261). -/
def execBiasflip (part cid vpage : Nat) (host : Bool) (s : State) : Host.Outcome State Fault Refusal :=
  .next (whenReady s <| onContext part cid (fun c s =>
    match leafFrom s vpage c.ptbase 0 walkLevels with
    | none => refuse part s
    | some (_, lo) =>
      match (match findFlip s cid lo vpage with | some f => (f, s) | none => startFlip cid lo vpage host s) with
      | (f, s) =>
        if copiesPage s f then after 64 (.biasflip part cid vpage host) s
        else
          let s := granted part (releasePage cid lo vpage s)
          { s with agenda := .biasFlipComplete cid vpage host :: s.agenda }) s)

/-- BIAS of an entry. -/
def withBias (pte : Nat) (host : Bool) : Nat := if host then setBit pte 4 else clearBit pte 4

/-- The mark of a page is cleared: what waited for it goes on. -/
def endFlip (cid lo va : Nat) (s : State) : State :=
  let p (c l : Nat) : Bool := c == cid && inPage lo va l
  lanternsFree (linesFree p (performHeld p (drainMsgs 64
    { s with flips := s.flips.filter (fun f => !(f.cid == cid && f.bits == lo && f.page == va / 2 ^ lo)) })))

/-- BIAS_FLIP_COMPLETE: BIAS in the page table entry and the TLB, no reverse-map entry, the mark's end, the event. -/
def execBiasFlipComplete (cid vpage : Nat) (host : Bool) (s : State) : Host.Outcome State Fault Refusal :=
  .next (match Sparse.find? s.contexts cid with
    | none => s
    | some c =>
      match leafFrom s vpage c.ptbase 0 walkLevels with
      | none => s
      | some (a, lo) =>
        let pte := withBias (physNat s a 8) host
        let keys := (pageLines s cid lo vpage).map Prod.fst
        let s := physWrite s a (leBytes 8 pte)
        let tlb := s.tlb.map (fun (t : TlbEntry) =>
          if t.cid = cid ∧ t.bits = lo ∧ t.page = vpage / 2 ^ lo then { t with pte := withBias t.pte host } else t)
        let s : State := { s with tlb := tlb, revmap := s.revmap.filter (fun e => !keys.contains e.2) }
        post cid 6 (leafPa pte lo vpage / 128 % 4) 12 0 0 vpage 0 (endFlip cid lo vpage s))

/-! ## Handlers (R339) -/

/-- An entry of a handler table: none when it breaks R339. -/
def readRange (s : State) (c : Context) (a : Nat) : Option HandlerRange :=
  let x (off n : Nat) : Nat := tableNat s c (a + off) n
  if x 0 8 % 128 ≠ 0 ∨ x 8 8 % 128 ≠ 0 ∨ 16 ≤ x 26 2 ∨ x 28 4 ≠ 0 then none
  else some { vbase := x 0 8, vsize := x 8 8, entry := x 16 8, budget := if x 24 2 = 0 then 1024 else x 24 2, enabled := x 26 2,
              disabled := false, overruns := [] }

/-- The handler table, if no entry breaks R339. -/
def readHandlers (s : State) (c : Context) (table : Nat) : Option (List HandlerRange) :=
  if mapped s c table 512 then (List.range 16).mapM (fun i => readRange s c (table + 32 * i)) else none

/-- The regions of other contexts in some slices (R339). -/
def othersRegions (s : State) (cid mask : Nat) : List (Nat × Nat) :=
  (s.contexts.filter (fun kc => kc.1 != cid)).flatMap (fun kc =>
    (kc.2.regions.filter (fun r => bit mask r.1)).map Prod.snd)

/-- The places of 0x0100 to 0xFFFF for a region of some bytes, beside the regions of others: each with the room from
there on. -/
def regionPlaces (rs : List (Nat × Nat)) (size : Nat) : List (Nat × Nat) :=
  (256 :: rs.map (fun r => r.1 + r.2)).filterMap (fun a =>
    let top := (rs.filter (fun r => decide (a < r.1 + r.2))).foldl (fun m r => Nat.min m r.1) 65536
    if a + size ≤ top then some (a, top - a) else none)

/-- A slice takes a context's image at its region, and the context's ranges. -/
def bindSlice (cid base room : Nat) (bs : List Byte) (rs : List HandlerRange) (s : State) (slice : Nat) : State :=
  let s := modLantern slice (fun l => { l with mem := Sparse.setAll 0 l.mem base bs }) s
  let bind (m : Sparse HandlerRange) (i : Nat) : Sparse HandlerRange :=
    match rs[i]? with
    | some r => if r.vsize = 0 then Sparse.erase m (16 * slice + i) else Sparse.put m (16 * slice + i) r
    | none => m
  modContext cid (fun c => { c with ranges := (List.range 16).foldl bind c.ranges, regions := Sparse.put c.regions slice (base, room) }) s

/-- Bytes as 8-byte words, for a digest. -/
def dwords (bs : List Byte) : List DWord :=
  (List.range ((bs.length + 7) / 8)).map (fun i => BitVec.ofNat 64 (leNat ((bs.drop (8 * i)).take 8)))

/-- LANTERN: gives the context a region of the slices' local memory, loads the image there, measures it (R427),
and binds the ranges. Which of the free places the region takes, and how far beyond the image it reaches, is free
(log 50). -/
def execLantern (part cid mask image size table : Nat) (s : State) : Host.Outcome State Fault Refusal :=
  .next (whenReady s <| onContext part cid (fun c s =>
    let places := regionPlaces (othersRegions s cid mask) size
    if places.isEmpty ∨ (size ≠ 0 ∧ !mapped s c image size) then refuse part s
    else
      match readHandlers s c table with
      | none => refuse part s
      | some rs =>
        let (n, s) := freeNat s
        let (n', s) := freeNat s
        let at_ := places.getD (n % places.length) (256, size)
        let bs := (List.range size).map (fun i => BitVec.ofNat 8 (tableNat s c (image + i) 1))
        let s := ((List.range Config.slices).filter (fun sl => bit mask sl)).foldl
          (bindSlice cid at_.1 (size + n' % (at_.2 - size + 1)) bs rs) s
        let log := s.station.measured ++ [(cid, Config.sha384 (dwords bs))]
        granted part { s with station := { s.station with measured := log } }) s)

/-! ## Partitions -/

/-- ASSIGNQ. -/
def execAssignq (part queue : Nat) (s : State) : Host.Outcome State Fault Refusal :=
  .next (whenReady s <| if Config.queues ≤ queue then refuse part s
    else granted part { s with queues := Sparse.put s.queues queue { getQueue s queue with part := part, assigned := true } })

/-- The cache banks of a cluster are its n lowest-numbered ones. -/
def assignCache (n cl : Nat) (s : State) : State :=
  (List.range Config.banks).foldl (fun s b =>
    let k := getBank s cl b
    if b < n then
      if k.mode = .cache then s
      else
        let s := modBank cl b (fun k => { k with mode := .cache, owner := none, esz := 0, wakes := 0, valid := [], fifo := [], lastAt := s.chiptime }) s
        if k.pwr = .deepOff then startWake cl b false s else s
    else if k.mode = .cache then freeBank cl b (clearWay cl b s)
    else if k.mode = .unallocated then s
    else freeBank cl b s) s

/-- The cache banks of a cluster that leaves a partition are unallocated; banks of launches move off it (R393). -/
def clearCluster (s : State) (cl : Nat) : State :=
  (List.range Config.banks).foldl (fun s b =>
    if (getBank s cl b).mode = .cache then freeBank cl b (clearWay cl b s) else s) s

/-- The clusters of a mask on a die. -/
def maskClusters (die mask : Nat) : List Nat := ({ Partition.empty die 0 with mask := mask } : Partition).clusterList

/-- A partition may hold some clusters of a die (R406, R407): 1 to 8, none of another partition, and not those of the
shared reserve. -/
def mayHold (s : State) (part die mask : Nat) : Bool :=
  let cls := maskClusters die mask
  decide (part < 63) && decide (die < Config.dies) && decide (mask < 2 ^ 16) && decide (1 ≤ cls.length) && decide (cls.length ≤ 8)
    && s.parts.all (fun kp => kp.1 == part || cls.all (fun cl => !kp.2.hasCluster cl))
    && !(s.reserveOn && cls.contains (basecamp die))

/-- The crews of running launches leave some clusters of a partition (R388, R394). -/
def leaveClusters (part : Nat) (cls : List Nat) (s : State) : State :=
  if cls.isEmpty then s
  else
    let cores := cls.flatMap coresOf
    let s := narrowPartition part cores s
    evacuateSpan part ((spanLaunches s part).foldl (fun s k => remapLaunch cores k s) s)

/-- The clusters of a partition become those of a mask: it is created, or changed, running launches are narrowed, and its
cache banks are assigned (R388, R406, R408). -/
def formPartition (part die mask : Nat) (s : State) : State :=
  let p := (Sparse.find? s.parts part).getD (Partition.empty die part)
  let cls := maskClusters die mask
  let gone := p.clusterList.filter (fun cl => !cls.contains cl)
  let s := gone.foldl clearCluster (leaveClusters part gone s)
  let p := (Sparse.find? s.parts part).getD (Partition.empty die part)
  let s := { s with parts := Sparse.put s.parts part { p with die := die, mask := mask, reserve := Nat.min p.reserve (8 * cls.length) } }
  idleRaises (cls.foldl (fun s cl => assignCache p.banks cl s) s)

/-- The device owner's request (R406), with its STATUS in the block that REQADDR names: the station processor runs one
request of partition 63 at a time (R410). -/
def ownerRequest (part die mask : Nat) (s : State) : State :=
  match Sparse.find? s.parts 63 with
  | none => s
  | some p =>
    if p.reqstat = 1 then s
    else
    let s := modPart 63 (fun p => { p with reqblk := p.reqaddr }) s
    if mayHold s part die mask then granted 63 (formPartition part die mask s)
    else refuse 63 s

/-- SETCACHE: 4 to 64 banks, while the partition has no running launch (R408). -/
def execSetcache (part banks : Nat) (s : State) : Host.Outcome State Fault Refusal :=
  .next (whenReady s <| match Sparse.find? s.parts part with
    | none => refuse part s
    | some p =>
      if banks < 4 ∨ 64 < banks ∨ s.launches.any (fun kl => leadOf s kl.2.part == leadOf s part) then refuse part s
      else
        let s := p.clusterList.foldl (fun s cl => assignCache banks cl s) s
        granted part (modPart part (fun p => { p with banks := banks }) s))

/-- Cluster 15 of some die belongs to a partition. -/
def basecampTaken (s : State) : Bool :=
  (List.range Config.dies).any (fun d => s.parts.any (fun kp => kp.2.hasCluster (basecamp d)))

/-- SETRESERVE: cores of the partition, or the shared reserve off or on (R407). -/
def execSetreserve (part cores : Nat) (s : State) : Host.Outcome State Fault Refusal :=
  .next (whenReady s <| match Sparse.find? s.parts part with
    | none => refuse part s
    | some p =>
      if part = 63 then
        if cores = 0 then granted part { s with reserveOn := false }
        else if cores = 1 ∧ !basecampTaken s then granted part { s with reserveOn := true }
        else refuse part s
      else if cores ≤ 64 ∧ cores ≤ p.cores.length then granted part (modPart part (fun p => { p with reserve := cores }) s)
      else refuse part s)

/-- A die evicts the lines in the ways that are reserved or returned: which lines lie there is free, and no set keeps
more than it has ways (R238). -/
def evictSome (die : Nat) (s : State) : State :=
  s.l2.foldl (fun s kl =>
    let full : Bool := decide (lineWays s die < (setLines s die (l2Set kl.2.cid (kl.2.line * 128))).length)
    let s1 := { s with fresh := s.fresh + 1 }
    if Config.freeBool s.fresh || full then evictCopy die kl.2.cid kl.2.line s1 else s1) s

/-- STASH: 0 to 10 ways of every slice (R238). -/
def execStash (part ways : Nat) (s : State) : Host.Outcome State Fault Refusal :=
  .next (whenReady s <| if 10 < ways then refuse part s
    else
      granted part ((List.range Config.dies).foldl (fun s d =>
        evictSome d { s with stashWays := Sparse.set 0 s.stashWays d ways })
        (wakeAll (fun o => match o with | .line .. => true | _ => false) s)))

/-- The members of a mask. -/
def maskParts (mask : Nat) : List Nat := (List.range 64).filter (fun i => bit mask i)

/-- The lead of a partition after a SPAN request: the lowest of its span; those that stay behind keep together. -/
def newLead (s : State) (ms : List Nat) (i : Nat) : Nat :=
  let same := if ms.contains i then ms
    else (s.parts.map Prod.fst).filter (fun j => leadOf s j == leadOf s i && !ms.contains j)
  same.foldl Nat.min i

/-- SPAN: through partition 63's mailbox; refused while one of the partitions holds a context (R410). -/
def execSpan (part mask : Nat) (s : State) : Host.Outcome State Fault Refusal :=
  .next (whenReady s <| let ms := maskParts mask
    let held := s.contexts.any (fun kc => ms.any (fun i => leadOf s kc.2.part == leadOf s i))
    if part ≠ 63 ∨ ms.isEmpty ∨ held ∨ ms.any (fun i => (Sparse.find? s.parts i).isNone) then refuse part s
    else granted part { s with parts := s.parts.map (fun kp => (kp.1, { kp.2 with lead := newLead s ms kp.1 })) })

/-! ## Swap (R399) -/

/-- A crew of a span's launches is on its core or being saved. -/
def crewsOut (s : State) (part : Nat) : Bool :=
  s.threads.any (fun kt => decide (kt.2.kind = .crew) && decide (kt.2.place ≠ .saved) && spanLaunch s part kt.2.launch)

/-- The span is swapped out already. -/
def isSwapped (s : State) (part : Nat) : Bool := (spanParts s part).any (fun kp => kp.2.swapped)

/-- Swap out: the span is halted whole, and the request is done once every crew is saved. -/
def swapOut (part : Nat) (s : State) : State :=
  if !isSwapped s part then due [.narrowing (leadOf s part) [] .swap, .swap part false] s
  else if crewsOut s part then after 64 (.swap part false) s
  else granted part s

/-- A span that was swapped out goes on: saved crews come back, and what waited goes on. -/
def resumeSpan (part : Nat) (s : State) : State :=
  let lead := leadOf s part
  let ps := s.parts.map (fun (kp : Nat × Partition) => if leadOf s kp.1 = lead then (kp.1, { kp.2 with swapped := false }) else kp)
  let s : State := { s with parts := ps }
  let back := (s.threads.filter (fun kt => decide (kt.2.kind = .crew) && decide (kt.2.place = .saved) && spanLaunch s part kt.2.launch)).map
    (fun kt => Instr.crewRestore kt.1 kt.2.core)
  due (back ++ (spanCores s part).flatMap (startsAt s) ++ waitingQueues s) s

/-- Swap in. -/
def swapBack (part : Nat) (s : State) : State := granted part (resumeSpan part s)

/-- SWAP. -/
def execSwap (part : Nat) (swapIn : Bool) (s : State) : Host.Outcome State Fault Refusal :=
  .next (whenReady s <| if (Sparse.find? s.parts part).isNone then s else if swapIn then swapBack part s else swapOut part s)

/-! ## Register writes (R409, R411, R429, R431) -/

/-- REGISTER_WRITE: aligned 8-byte writes; windows, doorbells and the device owner's request once step 6 has ended, BAR0
once configuration requests are answered (R429). -/
def execRegisterWrite (reg : HostReg) (value : Nat) (s : State) : Host.Outcome State Fault Refusal :=
  .next (match reg with
    | .window part off => if hostReady s then windowWrite part off value s else s
    | .doorbell queue off => if hostReady s then queueWrite queue off value s else s
    | .owner part die => if hostReady s then ownerRequest part die value s else s
    | .bar0 off => if s.station.retry || decide (off % 8 ≠ 0) then s else bar0Write off value s)

end Sys2Proof.Machine
end

