-- ==== Sys2Proof/Machine/Station.lean ====
section
/-! DEFINITION. Krazu ports and the loss of a peer (R422, R424), attestation (R427), and the actions of the station
processor on its readings (R433 to R437). -/

namespace Sys2Proof.Machine

/-! ## Krazu Link (R422) -/

/-- The event of a port's change of state: 0 down, 1 up, 2 retraining; no context is concerned, and partition 63 takes it. -/
def portEvent (p state : Nat) (s : State) : State :=
  postTo 63 { seq := 0, flg := 0, skind := 8, sidx := 0, type := 16, cid := 0xFFFF, launch := 0, who := 0, arg0 := p + 65536 * state, arg1 := 0 } s

/-- Flits up to a sequence number are acknowledged: there is room for those that wait and for more of a backing, or its
mirror has it whole. -/
def acknowledge (p seq : Nat) (s : State) : State :=
  pumpMirrors mirrorFuel (refill p 128 (modPort p (fun q => { q with
    replay := q.replay.filter (fun f => decide (32768 ≤ (seq + 65536 - f.seq) % 65536))
    retries := 0 }) s))

/-- The sender puts every flit from the first unacknowledged one on the link again; the sixteenth retry in a row retrains
the port. -/
def retryPort (port : Nat) (s : State) : State :=
  let q := getPort s port
  if q.replay.isEmpty then s
  else if 16 ≤ q.retries + 1 then
    let s := portEvent port 2 (modPort port (fun q => { q with training := true, retries := 0 }) s)
    let (n, s) := freeDelay s 270000
    after n (.krazuRetrainComplete port (Config.freeBool s.fresh)) { s with fresh := s.fresh + 1 }
  else scheduleOnce (s.chiptime + 5400) (.krazuAckTimeout port)
    (modPort port (fun q => { q with retries := q.retries + 1, sent := q.sent + q.replay.length }) s)

/-- A flit of data is taken in its sequence and acknowledged; another is not. Whether it is for this device its number
says, which the spec does not give: a free truth value; one for another device goes on by its route. -/
def takeFlit (port : Nat) (flit : Flit) (s : State) : State :=
  if flit.seq ≠ (getPort s port).rx then s
  else
    let s1 := modPort port (fun q => { q with rx := (q.rx + 1) % 65536, acked := some flit.seq, asks := false })
      { s with fresh := s.fresh + 1 }
    if Config.freeBool s.fresh then takeMirror flit s1
    else match routePort s1 flit.dest with
      | some p => sendFlit p flit s1
      | none => s1

/-- KRAZU_FLIT_RECEIVE: a flit whose CRC fails is dropped, and the peer is asked to resend. Whether a good one
acknowledges, or asks for a resend after a CRC that failed there, its type says, which the spec does not list: free truth
values. -/
def execKrazuFlitReceive (port : Nat) (flit : Flit) (s : State) : Host.Outcome State Fault Refusal :=
  .next (let q := getPort s port
    if !q.up || q.training then s
    else if !flit.crcOk then modPort port (fun q => { q with asks := true }) s
    else
      let s1 := { s with fresh := s.fresh + 2 }
      if Config.freeBool s.fresh then acknowledge port flit.seq s1
      else if Config.freeBool (s.fresh + 1) then retryPort port s1
      else takeFlit port flit s1)

/-- KRAZU_ACK_TIMEOUT. -/
def execKrazuAckTimeout (port : Nat) (s : State) : Host.Outcome State Fault Refusal :=
  .next (let q := getPort s port
    if !q.up || q.training then s else retryPort port s)

/-- Flits whose port is down go out by other routes, in their order. -/
def reroute (flits : List Flit) (s : State) : State :=
  flits.foldl (fun s f => match routePort s f.dest with | some p => sendFlit p f s | none => s) s

/-- A port is up again, or down: its flits go to other ports. -/
def endTraining (port : Nat) (trained : Bool) (s : State) : State :=
  let q := getPort s port
  let s := portEvent port (ofBool trained) (modPort port (fun q => { q with training := false, up := trained, retries := 0 }) s)
  if trained then
    pumpMirrors mirrorFuel (if q.replay.isEmpty then s else scheduleOnce (s.chiptime + 5400) (.krazuAckTimeout port) s)
  else reroute (q.replay ++ q.waiting) (modPort port (fun q => { q with replay := [], waiting := [] }) s)

/-- KRAZU_RETRAIN_COMPLETE. -/
def execKrazuRetrainComplete (port : Nat) (trained : Bool) (s : State) : Host.Outcome State Fault Refusal :=
  .next (if (getPort s port).training then endTraining port trained s else s)

/-- The ports to a device that are not down. -/
def portsTo (s : State) (device : Nat) : List Nat :=
  (List.range Config.ports).filter (fun p => (getPort s p).up && bit (routeMask s device) p)

/-- A port is marked down, with its event. -/
def portDown (p : Nat) (s : State) : State :=
  portEvent p 0 (modPort p (fun q => { q with up := false, training := false, retries := 0, replay := [], waiting := [] }) s)

/-- Every port to a failed device is marked down; what they held for other devices goes out by other routes. -/
def closePorts (device : Nat) (s : State) : State :=
  let flits := (portsTo s device).flatMap (fun p => (getPort s p).replay ++ (getPort s p).waiting)
  reroute (flits.filter (fun f => f.dest != device)) ((portsTo s device).foldl (fun s p => portDown p s) s)

/-- A context's buddy is one of the failed devices. -/
def buddyFailed (s : State) : Bool :=
  s.contexts.any (fun kc => match kc.2.ckpt with | some (_, b) => s.station.heartbeat.contains b | none => false)

/-- A job has lost a device and its buddy: two devices have failed, and one of them is the buddy of a context here. -/
def jobLost (s : State) : Bool := buddyFailed s && decide (2 ≤ s.station.heartbeat.length)

/-- The loss of a device is noted, and nothing more goes to its mirror: a PUBLISH that waits for it does not complete
(R428). A job that is lost is not recovered, with an event. -/
def noteLoss (device : Nat) (s : State) : State :=
  let failed := s.station.heartbeat
  let s := { s with station := { s.station with
    heartbeat := if failed.contains device then failed else failed ++ [device]
    outgoing := s.station.outgoing.filter (fun x => x.buddy != device) } }
  if jobLost s then portEvent 0xFFFF 0 { s with station := { s.station with recovering := [] } } else s

/-- The partitions, by their lead, of the contexts of the job (those with a checkpoint region) that are not halted yet. -/
def jobLeads (s : State) : List Nat :=
  (((s.contexts.filter (fun kc => kc.2.ckpt.isSome)).map (fun kc => leadOf s kc.2.part)).eraseDups).filter (fun l => !isSwapped s l)

/-- The next step of a recovery falls due within some cycles. -/
def nextRecovery (device step bound : Nat) (s : State) : State :=
  let (n, s) := freeDelay s bound
  let rest := s.station.recovering.filter (fun r => r.device != device)
  after n (.krazuHeartbeatTimeout device) { s with station := { s.station with
    recovering := rest ++ [{ device := device, step := step, due := s.chiptime + n }] } }

/-- The first step: the ports to the device go down, and the contexts of its job, those with a checkpoint region, are
halted; when their buddy has failed too, the job is not recovered. -/
def losePeer (device : Nat) (s : State) : State :=
  let s := noteLoss device (closePorts device s)
  let leads := jobLeads s
  let s := { s with station := { s.station with jobParts := s.station.jobParts ++ leads } }
  due (leads.map (fun l => Instr.narrowing l [] .swap)) (if jobLost s then s else nextRecovery device 1 (ms 2000) s)

/-- A spare takes the failed device's number: the routing table leads to it, by a mask that is free. -/
def spareTakes (device : Nat) (s : State) : State :=
  nextRecovery device 2 (ms 8500) { s with
    fresh := s.fresh + 1
    routes := Sparse.put s.routes device (freeReading s.fresh)
    station := { s.station with heartbeat := s.station.heartbeat.filter (· != device) } }

/-- The mirrors kept for a device go to the spare that has its number. -/
def sendMirrors (device : Nat) (s : State) : State :=
  let xs := (s.station.mirrors.filter (fun m => m.1 / 4096 == device)).map (fun m =>
    ({ cid := m.1 % 4096, region := 0, buddy := device, pa := m.2.1, left := m.2.2, restore := true } : Transfer))
  nextRecovery device 3 (ms 3000) (pumpMirrors mirrorFuel { s with station := { s.station with outgoing := s.station.outgoing ++ xs } })

/-- The job resumes once no peer is being recovered any longer: the partitions that were halted with it go on. What a
restart from the last published checkpoint does with their crews is not said: they come back as they were saved (DESIGN
CHOICE, log 112). -/
def resumeJob (device : Nat) (s : State) : State :=
  let rest := s.station.recovering.filter (fun r => r.device != device)
  let s := { s with station := { s.station with recovering := rest } }
  if rest.isEmpty then
    s.station.jobParts.foldl (fun s l => resumeSpan l s) { s with station := { s.station with jobParts := [] } }
  else s

/-- KRAZU_HEARTBEAT_TIMEOUT (R424): the loss of a device, and, while it is being recovered, the next step once that is
due. -/
def execKrazuHeartbeatTimeout (device : Nat) (s : State) : Host.Outcome State Fault Refusal :=
  .next (match s.station.recovering.find? (fun r => r.device == device) with
    | none => losePeer device s
    | some r =>
      if s.chiptime < r.due then s
      else if r.step = 1 then spareTakes device s
      else if r.step = 2 then sendMirrors device s
      else resumeJob device s)

/-! ## Attestation (R425 to R427) -/

/-- An answer over DOE. -/
def spdmReply (request : Nat) (signed : Bool) (content : List DWord) (s : State) : State :=
  { s with station := { s.station with replies := s.station.replies ++ [{ request := request, signed := signed, content := content }] } }

/-- The signatures of both keys over the transcript: the answers so far, and this one (R427). -/
def signatures (s : State) (content : List DWord) : List DWord :=
  let transcript := s.station.replies.flatMap SpdmReply.content ++ content
  s.station.identity.flatMap (fun k => Config.signature k.secret transcript)

/-- An answer that is given only once step 6 has ended (R425, R429). -/
def spdmAnswer (request : Nat) (signed : Bool) (content : List DWord) (s : State) : State :=
  if hostReady s then spdmReply request signed (content ++ (if signed then signatures s content else [])) s else s

/-- GET_VERSION: SPDM 1.3; answered at every time that configuration requests are. -/
def execGetVersion (s : State) : Host.Outcome State Fault Refusal :=
  .next (if s.station.inReset || s.station.retry then s else spdmReply 1 false [0x13] s)

/-- GET_CAPABILITIES: which capabilities it names is free. -/
def execGetCapabilities (s : State) : Host.Outcome State Fault Refusal :=
  .next (if hostReady s then spdmReply 2 false [Config.freeBits s.fresh] { s with fresh := s.fresh + 1 } else s)

/-- NEGOTIATE_ALGORITHMS: the measurement hash is SHA-384. -/
def execNegotiateAlgorithms (s : State) : Host.Outcome State Fault Refusal := .next (spdmAnswer 3 false [384] s)

/-- The certificate chain of a slot: slot 0 holds the Ed25519 chain, slot 1 the ML-DSA-65 chain; another slot none. -/
def chainOf (s : State) (slot : Nat) : List DWord := ((s.station.identity[slot]?).map Identity.chain).getD []

/-- GET_DIGESTS: of slots 0 and 1. -/
def execGetDigests (s : State) : Host.Outcome State Fault Refusal :=
  .next (spdmAnswer 4 false ([0, 1] ++ Config.sha384 (chainOf s 0) ++ Config.sha384 (chainOf s 1)) s)

/-- GET_CERTIFICATE. -/
def execGetCertificate (slot : Nat) (s : State) : Host.Outcome State Fault Refusal :=
  .next (spdmAnswer 5 false (if slot < 2 then BitVec.ofNat 64 slot :: chainOf s slot else []) s)

/-- CHALLENGE: both signatures. -/
def execChallenge (slot nonce : Nat) (s : State) : Host.Outcome State Fault Refusal :=
  .next (spdmAnswer 6 true [BitVec.ofNat 64 slot, BitVec.ofNat 64 nonce] s)

/-- What the measurement of an index is taken of (R427): the firmware, its configuration and the fuses, the partitions,
the digests of the handler images in order of loading. -/
def measuredWords (s : State) (index : Nat) : Option (List DWord) :=
  let w (n : Nat) : DWord := BitVec.ofNat 64 n
  match index with
  | 1 => some (firmwareWords s)
  | 2 => some (Config.firmwareConfig ++ Config.fuses)
  | 3 => some (s.parts.flatMap (fun kp => [w kp.1, w kp.2.die, w kp.2.mask, w kp.2.banks, w kp.2.reserve]))
  | 4 => some (s.station.measured.flatMap (fun m => w m.1 :: m.2))
  | _ => none

/-- A measurement: the SHA-384 digest. -/
def measurement (s : State) (index : Nat) : List DWord := ((measuredWords s index).map Config.sha384).getD []

/-- GET_MEASUREMENTS: signed. -/
def execGetMeasurements (index nonce : Nat) (s : State) : Host.Outcome State Fault Refusal :=
  .next (spdmAnswer 7 true ([BitVec.ofNat 64 index, BitVec.ofNat 64 nonce] ++ measurement s index) s)

/-! ## Power (R433) -/

/-- The clock that the module's power allows after an average, the sum of `n` samples over `n`. -/
def stepCap (cap sum n : Nat) : Nat :=
  if 2400 * n < sum then Nat.max 1800 (cap - 100)
  else if sum < 2300 * n then Nat.min 2700 (cap + 100)
  else cap

/-- POWER_SAMPLE, every 100 µs: the average of the samples of 1 ms. -/
def execPowerSample (watts : Nat) (s : State) : Host.Outcome State Fault Refusal :=
  .next (
    let xs := (watts :: s.monitors.samples).take 10
    let sum := xs.foldl (· + ·) 0
    renewSample isPowerSample nextPower
      { s with monitors := { s.monitors with samples := xs, power := sum / xs.length, cap := stepCap s.monitors.cap sum xs.length } })

/-! ## Temperature (R435, R437) -/

/-- A temperature in units of 0.125 °C. -/
def tempOf (x : Word) : Int := (x.setWidth 16 : BitVec 16).toInt

/-- A core's sample is held. -/
def sampleCore (s : State) (x : Nat × Word) : State :=
  modCore x.1 (fun c => { c with temp := x.2, hot := decide (800 < tempOf x.2), slow := c.slow && decide (800 ≤ tempOf x.2) }) s

/-- The crews on a core. -/
def residents (s : State) (core : Nat) : List Nat :=
  (s.threads.filter (fun kt => decide (kt.2.kind = .crew) && decide (kt.2.place = .resident) && kt.2.core == core)).map Prod.fst

/-- A crew can be moved now: 500 µs have passed for its group, and its launch has a core that is not hot (R398). -/
def movable (s : State) (tid : Nat) : Bool :=
  allSettled s (groupOf s tid) && (match Sparse.find? s.threads tid with
    | some t => (match Sparse.find? s.launches t.launch with
        | some l => (availCores s l).any (fun c => !(getCore s c).hot)
        | none => false)
    | none => false)

/-- The thermal narrowings of some hot cores, one for each span. -/
def thermalMoves (s : State) (cores : List Nat) : List Instr :=
  let hot := cores.filter (fun c => (residents s c).any (movable s))
  let spans := ((hot.flatMap (residents s)).filterMap (fun tid => (Sparse.find? s.threads tid).bind (fun t =>
    (Sparse.find? s.launches t.launch).map (fun l => leadOf s l.part)))).eraseDups
  spans.map (fun p => Instr.narrowing p hot .thermal)

/-- A cluster with a core above 105 °C that cannot be relieved is slowed, by 100 MHz each 100 µs, and a core that is
being slowed goes on until it is below 100 °C. -/
def slowCore (s : State) (core : Nat) : State :=
  let c := getCore s core
  let stuck := decide (840 < tempOf c.temp) && !(residents s core).isEmpty && !(residents s core).any (movable s)
  if !(stuck || c.slow) then s
  else
    let cl := clusterOf core
    let h := getHealth s cl
    let s := modCore core (fun c => { c with slow := true }) s
    if h.limit = 2700 ∨ h.limitAt + 270000 ≤ s.chiptime then
      modHealth cl (fun h => { h with limit := Nat.max 1800 (h.limit - 100), limitAt := s.chiptime }) s
    else s

/-- A cluster without a slowed core has its clock back. -/
def easeCluster (s : State) (cl : Nat) : State :=
  if (getHealth s cl).limit < 2700 ∧ !(coresOf cl).any (fun c => (getCore s c).slow) then
    modHealth cl (fun h => { h with limit := 2700 }) s
  else s

/-- The hottest sensor of a die: its own sensors and its cores' diodes. -/
def hottestOf (s : State) (hottest : List Nat) (die : Nat) : Nat :=
  ((List.range Config.cores).filter (fun c => decide (dieOf c = die))).foldl
    (fun m c => Nat.max m (tempOf (getCore s c).temp).toNat) (hottest.getD die 0)

/-- The dies with a sensor above 115 °C; all of them when the inlet is above 50 °C. -/
def tooHot (s : State) : List Nat :=
  (List.range Config.dies).filter (fun d => decide (920 < s.monitors.tmax.getD d 0) || decide (400 < s.monitors.inlet))

/-- A sample of the temperatures is held and acted on (R437). -/
def takeTemps (temps : List (Nat × BitVec 32)) (hottest inlet : List Nat) (s : State) : State :=
    let s := temps.foldl sampleCore s
    let s := { s with monitors := { s.monitors with tmax := (List.range Config.dies).map (hottestOf s hottest), inlet := inlet.headD s.monitors.inlet } }
    let cores := temps.map Prod.fst
    let moves := thermalMoves s (cores.filter (fun c => (getCore s c).hot))
    let s := ((cores.map clusterOf).eraseDups).foldl easeCluster (cores.foldl slowCore s)
    let parts := ((s.parts.filter (fun kp => decide (kp.2.mask ≠ 0) && (tooHot s).contains kp.2.die && !kp.2.stopped)).map
      (fun kp => leadOf s kp.1)).eraseDups
    due moves (parts.foldl (fun s p => confinePartition p s) s)

/-- TEMP_SAMPLE, every 10 µs: every core's diode, the hottest sensor of each die, and the coolant inlet. -/
def execTempSample (temps : List (Nat × BitVec 32)) (hottest inlet : List Nat) (s : State) : Host.Outcome State Fault Refusal :=
  .next (renewSample isTempSample nextTemps (takeTemps temps hottest inlet s))

/-! ## Voltage (R435, R437) -/

/-- DROOP_DETECT: the droop is counted; the sixteenth of a cluster within 1 ms raises its voltage. -/
def execDroopDetect (cl millivolts : Nat) (s : State) : Host.Outcome State Fault Refusal :=
  .next (modHealth cl (fun h =>
    let recent := s.chiptime :: h.recent.filter (fun t => decide (s.chiptime < t + ms 1))
    let h := { h with droops := Nat.min 65535 (h.droops + 1), deep := Nat.max h.deep millivolts, recent := recent }
    if 16 ≤ recent.length then { h with recent := [], vset := Nat.max h.vset (Nat.min (h.vset + 5) (h.vboot + 30)) } else h) s)

/-- PROCESS_MONITOR_SAMPLE, every 10 s: a reading 3 % below that of the boot raises the voltage at the partition's next
idle moment. -/
def execProcessMonitorSample (cl mhz : Nat) (s : State) : Host.Outcome State Fault Refusal :=
  .next (
    let low := decide (mhz * 100 ≤ (getHealth s cl).boot * 97)
    renewSample (isMonitorSample cl) (nextMonitor cl) (idleRaises (modHealth cl (fun h => { h with ro := mhz, raise := h.raise || low }) s)))

end Sys2Proof.Machine
end

