-- ==== Sys2Proof/Machine/Dispatch.lean ====
section
/-! DEFINITION. The dispatch: one arm per constructor of Instr, each a direct call of its meaning. -/

namespace Sys2Proof.Machine

/-- One instruction or event takes effect. -/
def exec (i : Instr) (s : State) : Host.Outcome State Fault Refusal :=
  match i with
  | .add m d a b => Sys2Proof.Machine.execAdd m d a b s
  | .sub m d a b => Sys2Proof.Machine.execSub m d a b s
  | .mul m d a b => Sys2Proof.Machine.execMul m d a b s
  | .mulh m d a b => Sys2Proof.Machine.execMulh m d a b s
  | .fma m d a b => Sys2Proof.Machine.execFma m d a b s
  | .div m d a b => Sys2Proof.Machine.execDiv m d a b s
  | .rem m d a b => Sys2Proof.Machine.execRem m d a b s
  | .min m d a b => Sys2Proof.Machine.execMin m d a b s
  | .max m d a b => Sys2Proof.Machine.execMax m d a b s
  | .and m d a b => Sys2Proof.Machine.execAnd m d a b s
  | .or m d a b => Sys2Proof.Machine.execOr m d a b s
  | .xor m d a b => Sys2Proof.Machine.execXor m d a b s
  | .andn m d a b => Sys2Proof.Machine.execAndn m d a b s
  | .shl m d a b => Sys2Proof.Machine.execShl m d a b s
  | .shr m d a b => Sys2Proof.Machine.execShr m d a b s
  | .sra m d a b => Sys2Proof.Machine.execSra m d a b s
  | .bfx m d a b => Sys2Proof.Machine.execBfx m d a b s
  | .bfi m d a b => Sys2Proof.Machine.execBfi m d a b s
  | .permb m d a b => Sys2Proof.Machine.execPermb m d a b s
  | .sel m d a b => Sys2Proof.Machine.execSel m d a b s
  | .cmp m c p a b => Sys2Proof.Machine.execCmp m c p a b s
  | .pred m o d neg a j b => Sys2Proof.Machine.execPred m o d neg a j b s
  | .addx m d a b => Sys2Proof.Machine.execAddx m d a b s
  | .mov m d a => Sys2Proof.Machine.execMov m d a s
  | .not m d a => Sys2Proof.Machine.execNot m d a s
  | .neg m d a => Sys2Proof.Machine.execNeg m d a s
  | .abs m d a => Sys2Proof.Machine.execAbs m d a s
  | .popc m d a => Sys2Proof.Machine.execPopc m d a s
  | .clz m d a => Sys2Proof.Machine.execClz m d a s
  | .ctz m d a => Sys2Proof.Machine.execCtz m d a s
  | .brev m d a => Sys2Proof.Machine.execBrev m d a s
  | .frc m d a => Sys2Proof.Machine.execFrc m d a s
  | .rint m d a => Sys2Proof.Machine.execRint m d a s
  | .rcp m d a => Sys2Proof.Machine.execRcp m d a s
  | .rsq m d a => Sys2Proof.Machine.execRsq m d a s
  | .sqrt m d a => Sys2Proof.Machine.execSqrt m d a s
  | .exp2 m d a => Sys2Proof.Machine.execExp2 m d a s
  | .log2 m d a => Sys2Proof.Machine.execLog2 m d a s
  | .sinp m d a => Sys2Proof.Machine.execSinp m d a s
  | .cosp m d a => Sys2Proof.Machine.execCosp m d a s
  | .tanh m d a => Sys2Proof.Machine.execTanh m d a s
  | .cvt m d a f g => Sys2Proof.Machine.execCvt m d a f g s
  | .li m d neg => Sys2Proof.Machine.execLi m d neg s
  | .lih m d neg => Sys2Proof.Machine.execLih m d neg s
  | .setmode m k neg => Sys2Proof.Machine.execSetmode m k neg s
  | .br m c o => Sys2Proof.Machine.execBr m c o s
  | .call m o => Sys2Proof.Machine.execCall m o s
  | .brd m k o => Sys2Proof.Machine.execBrd m k o s
  | .join m k => Sys2Proof.Machine.execJoin m k s
  | .loop m a l => Sys2Proof.Machine.execLoop m a l s
  | .choice m o => Sys2Proof.Machine.execChoice m o s
  | .jmpr m d a => Sys2Proof.Machine.execJmpr m d a s
  | .nop m => Sys2Proof.Machine.execNop m s
  | .endI m => Sys2Proof.Machine.execEndI m s
  | .sys m n => Sys2Proof.Machine.execSys m n s
  | .tret m => Sys2Proof.Machine.execTret m s
  | .rdsr m d a => Sys2Proof.Machine.execRdsr m d a s
  | .wrsr m d a => Sys2Proof.Machine.execWrsr m d a s
  | .getcyc m d => Sys2Proof.Machine.execGetcyc m d s
  | .icinv m => Sys2Proof.Machine.execIcinv m s
  | .exit m => Sys2Proof.Machine.execExit m s
  | .ret m => Sys2Proof.Machine.execRet m s
  | .setmoder m k a => Sys2Proof.Machine.execSetmoder m k a s
  | .getmode m d => Sys2Proof.Machine.execGetmode m d s
  | .waitt m a => Sys2Proof.Machine.execWaitt m a s
  | .brk m n => Sys2Proof.Machine.execBrk m n s
  | .shfl m d a b => Sys2Proof.Machine.execShfl m d a b s
  | .shflx m d a b => Sys2Proof.Machine.execShflx m d a b s
  | .shflup m d a n => Sys2Proof.Machine.execShflup m d a n s
  | .shfldn m d a n => Sys2Proof.Machine.execShfldn m d a n s
  | .voteall m p => Sys2Proof.Machine.execVoteall m p s
  | .voteany m p => Sys2Proof.Machine.execVoteany m p s
  | .ballot m d => Sys2Proof.Machine.execBallot m d s
  | .mbcnt m d a => Sys2Proof.Machine.execMbcnt m d a s
  | .firstlane m d a => Sys2Proof.Machine.execFirstlane m d a s
  | .rsum m d a f => Sys2Proof.Machine.execRsum m d a f s
  | .scans m d a f => Sys2Proof.Machine.execScans m d a f s
  | .bar m k => Sys2Proof.Machine.execBar m k s
  | .bara m k => Sys2Proof.Machine.execBara m k s
  | .barw m k => Sys2Proof.Machine.execBarw m k s
  | .dqpush m a => Sys2Proof.Machine.execDqpush m a s
  | .dqpop m d => Sys2Proof.Machine.execDqpop m d s
  | .dqpeek m d => Sys2Proof.Machine.execDqpeek m d s
  | .spawn m a b => Sys2Proof.Machine.execSpawn m a b s
  | .tdone m a => Sys2Proof.Machine.execTdone m a s
  | .qpop m d a => Sys2Proof.Machine.execQpop m d a s
  | .setgang m a => Sys2Proof.Machine.execSetgang m a s
  | .adoptq m d a => Sys2Proof.Machine.execAdoptq m d a s
  | .offer m d => Sys2Proof.Machine.execOffer m d s
  | .vwin m a b => Sys2Proof.Machine.execVwin m a b s
  | .tagof m d a => Sys2Proof.Machine.execTagof m d a s
  | .payld m d a => Sys2Proof.Machine.execPayld m d a s
  | .mkterm m d a t => Sys2Proof.Machine.execMkterm m d a t s
  | .deref m d a => Sys2Proof.Machine.execDeref m d a s
  | .getcp m d => Sys2Proof.Machine.execGetcp m d s
  | .gettr m d => Sys2Proof.Machine.execGettr m d s
  | .unify m d a b => Sys2Proof.Machine.execUnify m d a b s
  | .bind m d a b => Sys2Proof.Machine.execBind m d a b s
  | .fail m => Sys2Proof.Machine.execFail m s
  | .cut m a => Sys2Proof.Machine.execCut m a s
  | .hnew m d a => Sys2Proof.Machine.execHnew m d a s
  | .newvar m d => Sys2Proof.Machine.execNewvar m d s
  | .ldb m d a o => Sys2Proof.Machine.execLdb m d a o s
  | .ldh m d a o => Sys2Proof.Machine.execLdh m d a o s
  | .ldw m d a o => Sys2Proof.Machine.execLdw m d a o s
  | .ldd m d a o => Sys2Proof.Machine.execLdd m d a o s
  | .ldq m d a o => Sys2Proof.Machine.execLdq m d a o s
  | .stb m d a o => Sys2Proof.Machine.execStb m d a o s
  | .sth m d a o => Sys2Proof.Machine.execSth m d a o s
  | .stw m d a o => Sys2Proof.Machine.execStw m d a o s
  | .std m d a o => Sys2Proof.Machine.execStd m d a o s
  | .stq m d a o => Sys2Proof.Machine.execStq m d a o s
  | .lda m d a o => Sys2Proof.Machine.execLda m d a o s
  | .ldad m d a o => Sys2Proof.Machine.execLdad m d a o s
  | .stl m d a o => Sys2Proof.Machine.execStl m d a o s
  | .stld m d a o => Sys2Proof.Machine.execStld m d a o s
  | .ldc m d a o => Sys2Proof.Machine.execLdc m d a o s
  | .lds m d a o => Sys2Proof.Machine.execLds m d a o s
  | .sts m d a o => Sys2Proof.Machine.execSts m d a o s
  | .fpush m d a => Sys2Proof.Machine.execFpush m d a s
  | .fpop m d a => Sys2Proof.Machine.execFpop m d a s
  | .ftrypop m d a => Sys2Proof.Machine.execFtrypop m d a s
  | .atadd m d a b => Sys2Proof.Machine.execAtadd m d a b s
  | .atmin m d a b => Sys2Proof.Machine.execAtmin m d a b s
  | .atmax m d a b => Sys2Proof.Machine.execAtmax m d a b s
  | .atand m d a b => Sys2Proof.Machine.execAtand m d a b s
  | .ator m d a b => Sys2Proof.Machine.execAtor m d a b s
  | .atxor m d a b => Sys2Proof.Machine.execAtxor m d a b s
  | .atswp m d a b => Sys2Proof.Machine.execAtswp m d a b s
  | .atcas m d a b => Sys2Proof.Machine.execAtcas m d a b s
  | .atfadd m d a b => Sys2Proof.Machine.execAtfadd m d a b s
  | .atinc m d a b => Sys2Proof.Machine.execAtinc m d a b s
  | .fence m p k => Sys2Proof.Machine.execFence m p k s
  | .pfence m p => Sys2Proof.Machine.execPfence m p s
  | .cwb m d a => Sys2Proof.Machine.execCwb m d a s
  | .cinv m d a => Sys2Proof.Machine.execCinv m d a s
  | .cflush m d a => Sys2Proof.Machine.execCflush m d a s
  | .pref m a => Sys2Proof.Machine.execPref m a s
  | .pin m d a => Sys2Proof.Machine.execPin m d a s
  | .unpin m a => Sys2Proof.Machine.execUnpin m a s
  | .sample m d a b => Sys2Proof.Machine.execSample m d a b s
  | .bankmode m a r c => Sys2Proof.Machine.execBankmode m a r c s
  | .bankpwr m a r c => Sys2Proof.Machine.execBankpwr m a r c s
  | .bankq m a r c => Sys2Proof.Machine.execBankq m a r c s
  | .lmsg m a r c => Sys2Proof.Machine.execLmsg m a r c s
  | .bwphase m n h => Sys2Proof.Machine.execBwphase m n h s
  | .topen m d a => Sys2Proof.Machine.execTopen m d a s
  | .tclose m a => Sys2Proof.Machine.execTclose m a s
  | .tacqr m a => Sys2Proof.Machine.execTacqr m a s
  | .tacqw m a => Sys2Proof.Machine.execTacqw m a s
  | .trel m a => Sys2Proof.Machine.execTrel m a s
  | .tquery m d a => Sys2Proof.Machine.execTquery m d a s
  | .tsplit m d a b => Sys2Proof.Machine.execTsplit m d a b s
  | .tld m d a b => Sys2Proof.Machine.execTld m d a b s
  | .tst m d a b => Sys2Proof.Machine.execTst m d a b s
  | .copy m d a b => Sys2Proof.Machine.execCopy m d a b s
  | .copyg m d a b => Sys2Proof.Machine.execCopyg m d a b s
  | .collect m d a b => Sys2Proof.Machine.execCollect m d a b s
  | .fork m d a b => Sys2Proof.Machine.execFork m d a b s
  | .rdv m d f => Sys2Proof.Machine.execRdv m d f s
  | .publish m a => Sys2Proof.Machine.execPublish m a s
  | .mlds m a b => Sys2Proof.Machine.execMlds m a b s
  | .mones m k => Sys2Proof.Machine.execMones m k s
  | .mswap m => Sys2Proof.Machine.execMswap m s
  | .mstream m d a b => Sys2Proof.Machine.execMstream m d a b s
  | .mdrain m d a b => Sys2Proof.Machine.execMdrain m d a b s
  | .mzero m a => Sys2Proof.Machine.execMzero m a s
  | .mshadow m f => Sys2Proof.Machine.execMshadow m f s
  | .illegalInstruction check guarded => Sys2Proof.Machine.execIllegalInstruction check guarded s
  | .crewStart launch crew => Sys2Proof.Machine.execCrewStart launch crew s
  | .shareStart launch share => Sys2Proof.Machine.execShareStart launch share s
  | .barrierComplete launch circle => Sys2Proof.Machine.execBarrierComplete launch circle s
  | .waiterRelease tid split => Sys2Proof.Machine.execWaiterRelease tid split s
  | .bankRetentionEntry cl bank => Sys2Proof.Machine.execBankRetentionEntry cl bank s
  | .bankDeepOffEntry cl bank => Sys2Proof.Machine.execBankDeepOffEntry cl bank s
  | .bankWakeComplete cl bank => Sys2Proof.Machine.execBankWakeComplete cl bank s
  | .fifoWaiterRetry tid split => Sys2Proof.Machine.execFifoWaiterRetry tid split s
  | .reqs die cid line => Sys2Proof.Machine.execReqs die cid line s
  | .reqm die cid line => Sys2Proof.Machine.execReqm die cid line s
  | .upg die cid line => Sys2Proof.Machine.execUpg die cid line s
  | .wb die cid line => Sys2Proof.Machine.execWb die cid line s
  | .inv die cid line => Sys2Proof.Machine.execInv die cid line s
  | .fwds die cid line req => Sys2Proof.Machine.execFwds die cid line req s
  | .fwdm die cid line req => Sys2Proof.Machine.execFwdm die cid line req s
  | .recall die cid line => Sys2Proof.Machine.execRecall die cid line s
  | .data die cid line grant => Sys2Proof.Machine.execData die cid line grant s
  | .ack die cid line => Sys2Proof.Machine.execAck die cid line s
  | .upgack die cid line => Sys2Proof.Machine.execUpgack die cid line s
  | .wback die cid line => Sys2Proof.Machine.execWback die cid line s
  | .alreadywb die cid line => Sys2Proof.Machine.execAlreadywb die cid line s
  | .pinFadeTick die win => Sys2Proof.Machine.execPinFadeTick die win s
  | .pinWindowFaded die win => Sys2Proof.Machine.execPinWindowFaded die win s
  | .lanternHandlerStart slice => Sys2Proof.Machine.execLanternHandlerStart slice s
  | .lanternBudgetExpiry slice => Sys2Proof.Machine.execLanternBudgetExpiry slice s
  | .lanternPortComplete slice status => Sys2Proof.Machine.execLanternPortComplete slice status s
  | .lanternDoneDefault slice => Sys2Proof.Machine.execLanternDoneDefault slice s
  | .lanternDoneSubstitute slice => Sys2Proof.Machine.execLanternDoneSubstitute slice s
  | .specFenceComplete tid split => Sys2Proof.Machine.execSpecFenceComplete tid split s
  | .copyCommandAccept cl => Sys2Proof.Machine.execCopyCommandAccept cl s
  | .copyCommandStart cl => Sys2Proof.Machine.execCopyCommandStart cl s
  | .copyCommandComplete cl => Sys2Proof.Machine.execCopyCommandComplete cl s
  | .waittWake tid split => Sys2Proof.Machine.execWaittWake tid split s
  | .publishSwap cid region => Sys2Proof.Machine.execPublishSwap cid region s
  | .planeLoadStart core => Sys2Proof.Machine.execPlaneLoadStart core s
  | .planeLoadEnd core => Sys2Proof.Machine.execPlaneLoadEnd core s
  | .streamPassStart core => Sys2Proof.Machine.execStreamPassStart core s
  | .streamPassEnd core => Sys2Proof.Machine.execStreamPassEnd core s
  | .drainStart core => Sys2Proof.Machine.execDrainStart core s
  | .drainEnd core => Sys2Proof.Machine.execDrainEnd core s
  | .mzeroEnd core => Sys2Proof.Machine.execMzeroEnd core s
  | .mshadowEnd core => Sys2Proof.Machine.execMshadowEnd core s
  | .sequencerEndComplete core which => Sys2Proof.Machine.execSequencerEndComplete core which s
  | .faultRecordWrite cid => Sys2Proof.Machine.execFaultRecordWrite cid s
  | .narrowing part cores why => Sys2Proof.Machine.execNarrowing part cores why s
  | .crewSaveComplete tid => Sys2Proof.Machine.execCrewSaveComplete tid s
  | .crewRestore tid core => Sys2Proof.Machine.execCrewRestore tid core s
  | .imageSwitch launch => Sys2Proof.Machine.execImageSwitch launch s
  | .launchRecordDispatch queue => Sys2Proof.Machine.execLaunchRecordDispatch queue s
  | .launchEnd launch => Sys2Proof.Machine.execLaunchEnd launch s
  | .invalidationComplete cid base len => Sys2Proof.Machine.execInvalidationComplete cid base len s
  | .newctx part => Sys2Proof.Machine.execNewctx part s
  | .endctx part cid => Sys2Proof.Machine.execEndctx part cid s
  | .mapframe part cid vbase pbase frames cls => Sys2Proof.Machine.execMapframe part cid vbase pbase frames cls s
  | .setwindow part ctrl win w => Sys2Proof.Machine.execSetwindow part ctrl win w s
  | .biasflip part cid vpage host => Sys2Proof.Machine.execBiasflip part cid vpage host s
  | .biasFlipComplete cid vpage host => Sys2Proof.Machine.execBiasFlipComplete cid vpage host s
  | .lantern part cid mask image size table => Sys2Proof.Machine.execLantern part cid mask image size table s
  | .image part cid size => Sys2Proof.Machine.execImage part cid size s
  | .assignq part queue => Sys2Proof.Machine.execAssignq part queue s
  | .setcache part banks => Sys2Proof.Machine.execSetcache part banks s
  | .setreserve part cores => Sys2Proof.Machine.execSetreserve part cores s
  | .stash part ways => Sys2Proof.Machine.execStash part ways s
  | .groups part cid addr => Sys2Proof.Machine.execGroups part cid addr s
  | .swap part swapIn => Sys2Proof.Machine.execSwap part swapIn s
  | .clearctx part cid => Sys2Proof.Machine.execClearctx part cid s
  | .span part mask => Sys2Proof.Machine.execSpan part mask s
  | .checkpoint part cid region buddy confirmed => Sys2Proof.Machine.execCheckpoint part cid region buddy confirmed s
  | .mirror part device cid size base => Sys2Proof.Machine.execMirror part device cid size base s
  | .requestRefused part code => Sys2Proof.Machine.execRequestRefused part code s
  | .krazuAckTimeout port => Sys2Proof.Machine.execKrazuAckTimeout port s
  | .krazuRetrainComplete port trained => Sys2Proof.Machine.execKrazuRetrainComplete port trained s
  | .krazuHeartbeatTimeout device => Sys2Proof.Machine.execKrazuHeartbeatTimeout device s
  | .perstDeassert boot => Sys2Proof.Machine.execPerstDeassert boot s
  | .processMonitorSample cl mhz => Sys2Proof.Machine.execProcessMonitorSample cl mhz s
  | .cacheBankPowerOff cl bank => Sys2Proof.Machine.execCacheBankPowerOff cl bank s
  | .hostSnoop die pline => Sys2Proof.Machine.execHostSnoop die pline s
  | .hostCxlMemRead pa n => Sys2Proof.Machine.execHostCxlMemRead pa n s
  | .hostCxlMemWrite pa bytes => Sys2Proof.Machine.execHostCxlMemWrite pa bytes s
  | .lanternPortRead slice paddr plocal plen => Sys2Proof.Machine.execLanternPortRead slice paddr plocal plen s
  | .lanternPortWrite slice paddr plocal plen => Sys2Proof.Machine.execLanternPortWrite slice paddr plocal plen s
  | .lanternPortPrefetch slice paddr => Sys2Proof.Machine.execLanternPortPrefetch slice paddr s
  | .lanternPortAdd slice paddr wide operand => Sys2Proof.Machine.execLanternPortAdd slice paddr wide operand s
  | .lanternPortAnd slice paddr wide operand => Sys2Proof.Machine.execLanternPortAnd slice paddr wide operand s
  | .lanternPortOr slice paddr wide operand => Sys2Proof.Machine.execLanternPortOr slice paddr wide operand s
  | .lanternPortXor slice paddr wide operand => Sys2Proof.Machine.execLanternPortXor slice paddr wide operand s
  | .lanternPortSwap slice paddr wide operand => Sys2Proof.Machine.execLanternPortSwap slice paddr wide operand s
  | .lanternPortReply slice plocal rdest => Sys2Proof.Machine.execLanternPortReply slice plocal rdest s
  | .lanternPortRefused slice => Sys2Proof.Machine.execLanternPortRefused slice s
  | .fqresRetry cid token => Sys2Proof.Machine.execFqresRetry cid token s
  | .fqresUnresolvable cid token => Sys2Proof.Machine.execFqresUnresolvable cid token s
  | .eccUncorrectable place => Sys2Proof.Machine.execEccUncorrectable place s
  | .doorbell queue value => Sys2Proof.Machine.execDoorbell queue value s
  | .qctlStallClear queue => Sys2Proof.Machine.execQctlStallClear queue s
  | .evheadWrite part value => Sys2Proof.Machine.execEvheadWrite part value s
  | .fqbaseWrite part value => Sys2Proof.Machine.execFqbaseWrite part value s
  | .invlen part len => Sys2Proof.Machine.execInvlen part len s
  | .registerWrite reg value => Sys2Proof.Machine.execRegisterWrite reg value s
  | .krazuFlitReceive port flit => Sys2Proof.Machine.execKrazuFlitReceive port flit s
  | .getVersion => Sys2Proof.Machine.execGetVersion s
  | .getCapabilities => Sys2Proof.Machine.execGetCapabilities s
  | .negotiateAlgorithms => Sys2Proof.Machine.execNegotiateAlgorithms s
  | .getDigests => Sys2Proof.Machine.execGetDigests s
  | .getCertificate slot => Sys2Proof.Machine.execGetCertificate slot s
  | .challenge slot nonce => Sys2Proof.Machine.execChallenge slot nonce s
  | .getMeasurements index nonce => Sys2Proof.Machine.execGetMeasurements index nonce s
  | .configRetryEnd => Sys2Proof.Machine.execConfigRetryEnd s
  | .recgo image => Sys2Proof.Machine.execRecgo image s
  | .powerSample watts => Sys2Proof.Machine.execPowerSample watts s
  | .tempSample temps hottest inlet => Sys2Proof.Machine.execTempSample temps hottest inlet s
  | .droopDetect cl millivolts => Sys2Proof.Machine.execDroopDetect cl millivolts s
  | .perstAssert => Sys2Proof.Machine.execPerstAssert s
  | .partitionReset part => Sys2Proof.Machine.execPartitionReset part s
  | .evlogWrite part base log => Sys2Proof.Machine.execEvlogWrite part base log s
  | .lanternHandlerException slice => Sys2Proof.Machine.execLanternHandlerException slice s

end Sys2Proof.Machine
end

