-- ==== Sys2Proof/Machine/Loader.lean ====
section
/-! DEFINITION. How one instruction word is placed where the machine fetches next: a program comes from outside the
machine, by a launch record (R413), and these definitions stand for that load (log 7). -/

namespace Sys2Proof.Machine

/-- The context, the launch and the physical places of the word that is loaded. -/
def loadCid : Nat := 4095
def loadLaunch : Nat := 2 ^ 32
def loadTables : Nat := 0x5FFFFE0000
def loadPage : Nat := 0x5FFFFF0000

/-- Page tables that map the one 64 KiB page at virtual address 0, readable, writable and executable (R239,
R240). -/
def loadMem (w : Nat) (m : List Host.Cell) : List Host.Cell :=
  let m := (List.range 4).foldl (fun m k =>
    Memory.writeAll m (loadTables + 4096 * k) (leBytes 8 (loadTables + 4096 * (k + 1) + 1))) m
  Memory.writeAll (Memory.writeAll m (loadTables + 16384) (leBytes 8 (loadPage + 15))) loadPage (leBytes 4 w)

/-- The launch of the loaded word: one crew of 32 lanes. -/
def loadRec : LaunchRec :=
  { image := 0, imgsize := 4, entry := 0, scout := 0xFFFFFFFF, width := 32, vregs := 64, spad := 0, crews := 1, circles := 0,
    args := 0, reloc := 0, flags := 0, prio := 1, udepth := 0, cid := loadCid, queue := 0, diag := 0, cpladdr := 0,
    cplval := 0 }

/-- The issuer that a word needs (R345): the matrix sequencer, the scout, or a crew. -/
def loadKind : Instr → Kind
  | .mlds .. | .mones .. | .mswap .. | .mstream .. | .mdrain .. | .mzero .. | .mshadow .. => .mseq
  | .dqpush .. => .scout
  | _ => .crew

/-- The name and the thread of that issuer on core 0. -/
def loadTid : Kind → Nat
  | .crew => crewTid loadLaunch 0
  | .scout => scoutTid loadLaunch 0
  | .mseq => seqTid 0 0
  | .cseq => seqTid 0 1
def loadThread (k : Kind) (now : Nat) : Thread :=
  Thread.begin k loadLaunch 0 0 0 (if k = .crew then 32 else 1) (if k = .crew then 64 else 0) 0xFFFFFFFF now Regs.start 0

/-- The matrix sequencer of core 0 runs the word for the crew. -/
def loadSeq (s : State) : State :=
  modCore 0 (fun c => { c with mseq := { Seq.free with owner := some (.crew (crewTid loadLaunch 0)), tid := some (seqTid 0 0) } }) s

/-- A word loaded at virtual address 0 of its own context, for the issuer that it needs, whose turn it is. -/
def placeWord (w : Nat) (s : State) : State :=
  let k := match decodeWord w with | .ok i => loadKind i | .error _ => .crew
  let s := if k = .mseq then loadSeq s else s
  { s with
    agenda := []
    turn := some (loadTid k, 0)
    mem := loadMem w s.mem
    l2 := s.l2.filter (fun l => decide (l.2.cid ≠ loadCid) && decide (l.2.pline < loadTables / 128))
    tlb := s.tlb.filter (fun e => decide (e.cid ≠ loadCid))
    cores := s.cores.map (fun c => (c.1, { c.2 with icache := c.2.icache.filter (fun l => decide (l.cid ≠ loadCid)) }))
    contexts := Sparse.put s.contexts loadCid { Context.fresh 63 with ptbase := loadTables }
    launches := Sparse.put s.launches loadLaunch (Launch.accepted loadRec 1 63 s.chiptime [] [0])
    threads := Sparse.put s.threads (loadTid k) (loadThread k s.chiptime) }

end Sys2Proof.Machine
end

