-- ==== Sys2Proof/Machine/Step.lean ====
section
/-! DEFINITION. One step: an event that is due, the instruction of the split whose turn it is, or time that
passes while nothing issues (log 6). -/

namespace Sys2Proof.Machine

/-- Continue with the next state of an outcome. -/
def andThen (f : State → State) : Host.Outcome State Fault Refusal → Host.Outcome State Fault Refusal
  | .next s => .next (f s)
  | .fault r => .fault r
  | .refused r => .refused r

/-- An event that is due takes effect; then it is decided who issues next. -/
def stepEvent (i : Instr) (rest : List Instr) (s : State) : Host.Outcome State Fault Refusal :=
  andThen pickTurn (exec i { s with agenda := rest })

/-- The split whose turn it is fetches and executes; then time passes and it is decided who issues next. -/
def stepIssue (tid sid : Nat) (s : State) : Host.Outcome State Fault Refusal :=
  match nextInstr tid sid s with
  | (some i, s) => andThen nextTurn (exec i s)
  | (none, s) => .next (nextTurn s)

/-- One step of the machine. -/
def step (s : State) : Host.Outcome State Fault Refusal :=
  match s.agenda with
  | i :: rest => stepEvent i rest s
  | [] =>
    match s.turn with
    | some (tid, sid) => stepIssue tid sid s
    | none => .next (pickTurn (idle s))

/-- The machine with one instruction word placed where it fetches next. -/
def State.withFetchWord (s : State) (nbits w : Nat) : State := placeWord (w % 2 ^ nbits) s

end Sys2Proof.Machine
end

