-- ==== Sys2Proof/Safety.lean ====
section
/-! DEFINITION. What the claims call a sound state, a safe run, an issuing split, operands that pass the checks of
R45, and a word that has taken its effect. -/

namespace Sys2Proof.Machine

/-- The memory keeps its canonical form: rising addresses, and no entry that holds what an unlisted address reads
as. -/
def State.memOk (s : State) : Prop := Memory.wf s.mem = true

/-- A run is safe when no step of it ends in a fault or a refusal. -/
def safeFor : Nat → State → Prop
  | 0, _ => True
  | n + 1, s => ∃ t, step s = .next t ∧ safeFor n t

/-! ## A word that issues -/

/-- The state with the run of the split open whose turn it is (R22). -/
def opened (s : State) : State :=
  match s.turn with
  | some x => openRun x.1 x.2 s
  | none => s

/-- What the split whose turn it is sees. -/
def issuer (s : State) : Option Env :=
  match s.turn with
  | some x => envOf (opened s) x.1 x.2
  | none => none

/-- The split whose turn it is issues a word from its start: nothing has been handed to it, and no speculative fence
of it is incomplete (R279). -/
abbrev Issues (s : State) (e : Env) : Prop :=
  issuer s = some e ∧ e.sp.handed = none ∧ e.sp.spec = none

/-- The split whose turn it is goes on with a word that has waited: an item has been handed to it (R186). -/
abbrev Resumes (s : State) (e : Env) (x : Item) : Prop :=
  issuer s = some e ∧ e.sp.handed = some x ∧ e.sp.spec = none

/-- A word proceeds: its split holds no trap, and no speculative fence of it is incomplete. -/
abbrev Proceeds (s : State) (e : Env) : Prop :=
  issuer s = some e ∧ (∀ x, e.sp.handed ≠ some (.trap x)) ∧ e.sp.spec = none

/-- The state once a word has closed the run it stands in (R24, R192). -/
def closed (s : State) (e : Env) : State := closeRun e.tid e.sid (opened s)

/-- What a split sees once its word has closed the run: the registers as the close has written them. -/
def Env.afterClose (e : Env) (s : State) : Env :=
  match Sparse.find? (closed s e).threads e.tid, getSplit (closed s e) e.tid e.sid with
  | some t, some sp => { e with th := t, sp := sp.anew, regs := t.regs }
  | _, _ => e

/-- The operands pass steps 4, 5, 6 and 8 of R45 for an issuer that executes the instruction. -/
abbrev OpsOk (e : Env) (who : List Kind) (ops : List Opnd) : Prop :=
  e.th.kind ∈ who ∧ ∀ o ∈ ops, o.bad4 e.th.kind = false ∧ o.bad5 = false ∧ o.bad6 e.th.vregs = false ∧ o.bad8 = false

/-- The word has been executed: its split moves on, and its run closes where R21 says so. -/
def Env.done (e : Env) (m : BitVec 1) (i : Instr) (f : Flow) (s : State) : State := complete e.tid e.sid m i f s

/-- The word has been executed with these register results and raised flags, which take effect at the close of the
run (R22). -/
def Env.wrote (e : Env) (m : BitVec 1) (i : Instr) (ws : List RegWrite) (flags : Word) (s : State) : State :=
  e.done m i Flow.next (emitTo e.tid e.sid ws flags s)

/-- The word has been executed with these register results, and ends its run. -/
def Env.wroteLast (e : Env) (m : BitVec 1) (i : Instr) (ws : List RegWrite) (s : State) : State :=
  e.done m i Flow.nextClose (emitTo e.tid e.sid ws 0 s)

/-- The word has been executed with the results of the parts of its access. -/
def Env.accessed (e : Env) (m : BitVec 1) (i : Instr) (prog : Progress) (s : State) : State :=
  e.wrote m i prog.results prog.flags (modSplit e.tid e.sid (fun sp => { sp with progress := prog }) s)

/-- The word has been executed with a value and flags for each lane of its destination. -/
def Env.wroteLanes (e : Env) (m : BitVec 1) (i : Instr) (d : BitVec 8) (n : Nat) (f : Nat → Nat × Word) (s : State) : State :=
  e.wrote m i (laneResults (e.destLanes d) d n f).1 (laneResults (e.destLanes d) d n f).2 s

/-- The lanes that the destination takes: a scalar register takes its value in any case, a vector register where an
active lane's guard is true (R15, R29). -/
abbrev Env.takes (e : Env) (d : BitVec 8) : Prop := isVec d = true → e.lanes ≠ []

/-- The address of a part passes R26 and is aligned (R101). -/
def goodAddr (size : Nat) (p : Part) : Bool := canonicalVa p.va && decide (p.va % size = 0)

/-- Every part of an access that its word has not performed yet answers: what it has come to, and the state. -/
def PartsAnswer (e : Env) (ps : List Part) (go : Part → State → PartResult × State) (s : State) (prog : Progress)
    (t : State) : Prop :=
  (ps.filter (fun p => !e.sp.progress.did p)).foldl (stepPart go) (⟨e.sp.progress, []⟩, s) = (⟨prog, []⟩, t)

end Sys2Proof.Machine
end

