-- ==== Sys2Proof/Certificates/Slice0/Obligations.lean ====
section
/-! DEFINITION. The statements for the provers. -/

namespace Sys2Proof.Claims
open Sys2Proof.Machine

/-! ## Words over elements -/

/-- An instruction word completes with these lane results in its destination. -/
def Gives (e : Env) (s : State) (i : Instr) (m : BitVec 1) (d : BitVec 8) (n : Nat) (f : Nat → Nat × Word) : Prop :=
  exec i s = .next (e.wroteLanes m i d n f (opened s))

/-- A typed word under an accepted TYPE, whose operands pass R45 and whose destination takes a result (R62). -/
abbrev TypedReady (s : State) (e : Env) (ty : ElemType) (d : BitVec 8) (srcs : List Opnd) : Prop :=
  Issues s e ∧ elemType e.type = some ty ∧ OpsOk e anyKind (⟨d, .any, ty.regs⟩ :: srcs) ∧ e.takes d

/-- Element by element over A and B: integers by an exact integer narrowed by `fitInt`, floats by a float function of
the decoded elements. -/
def byKind (e : Env) (ty : ElemType) (sat : Bool) (i : Int → Int → Int)
    (g : FloatFmt → FMode → FVal → FVal → Nat × Word) (x y : Nat) : Nat × Word :=
  match ty.kind with
  | .flt c => g (floatFmt c) e.fmode (decodeFloat (floatFmt c) e.ftz x) (decodeFloat (floatFmt c) e.ftz y)
  | _ => fitInt ty.isSigned sat ty.b (i (intVal ty.isSigned ty.b x) (intVal ty.isSigned ty.b y))

/-- The lane results of a two-source typed word. -/
def over2 (e : Env) (ty : ElemType) (a b : BitVec 8) (op : Nat → Nat → Nat × Word) (l : Nat) : Nat × Word :=
  elems2 ty (e.val l a ty.regs) (e.val l b ty.regs) op

/-- The lane results of a one-source typed word. -/
def over1 (e : Env) (ty : ElemType) (a : BitVec 8) (op : Nat → Nat × Word) (l : Nat) : Nat × Word :=
  elems1 ty (e.val l a ty.regs) op

end Sys2Proof.Claims

open Sys2Proof Sys2Proof.Machine Sys2Proof.Claims

/-- R62, R65, R66, R111: ADD, SUB, MUL, MIN, MAX and DIV under every TYPE, MULH and REM under the integer ones. -/
def Sys2Proof.Claims.AddToMaxComplete : Prop :=
  ∀ (s : State) (e : Env) (ty : ElemType) (m : BitVec 1) (d a b : BitVec 8),
    TypedReady s e ty d [srcFor d a ty.regs, srcFor d b ty.regs] →
    Gives e s (.add m d a b) m d ty.regs (over2 e ty a b (byKind e ty e.sat (· + ·) fAdd)) ∧
    Gives e s (.sub m d a b) m d ty.regs (over2 e ty a b (byKind e ty e.sat (· - ·) fSub)) ∧
    Gives e s (.mul m d a b) m d ty.regs (over2 e ty a b (byKind e ty e.sat (· * ·) fMul)) ∧
    Gives e s (.min m d a b) m d ty.regs (over2 e ty a b (byKind e ty false min fMin)) ∧
    Gives e s (.max m d a b) m d ty.regs (over2 e ty a b (byKind e ty false max fMax)) ∧
    Gives e s (.div m d a b) m d ty.regs (over2 e ty a b (divElem e ty)) ∧
    (ty.isFloat = false →
      Gives e s (.mulh m d a b) m d ty.regs (over2 e ty a b (fun x y =>
        (wrapInt ty.b (intVal ty.isSigned ty.b x * intVal ty.isSigned ty.b y / 2 ^ ty.b), 0))) ∧
      Gives e s (.rem m d a b) m d ty.regs (over2 e ty a b (fun x y =>
        intRem ty.isSigned ty.b (intVal ty.isSigned ty.b x) (intVal ty.isSigned ty.b y))))

/-- R65: FMA, whose third operand is D as it stood at run begin. -/
def Sys2Proof.Claims.FmaCompletes : Prop :=
  ∀ (s : State) (e : Env) (ty : ElemType) (m : BitVec 1) (d a b : BitVec 8),
    TypedReady s e ty d [srcFor d a ty.regs, srcFor d b ty.regs] →
    Gives e s (.fma m d a b) m d ty.regs (fun l => joinElems ty.b (fun i =>
      fmaElem e ty (elemAt ty.b (e.val l a ty.regs) i) (elemAt ty.b (e.val l b ty.regs) i)
        (elemAt ty.b (e.val l d ty.regs) i)) ty.n)

/-- R62 to R66, R111: ADD, SUB, MUL, MULH, FMA, DIV, REM, MIN and MAX complete with their results. -/
def Obligations.ArithmeticCompletes : Prop := AddToMaxComplete ∧ FmaCompletes

/-- R67: AND, OR, XOR and ANDN act bit by bit on a pair under a 64-bit TYPE and on one register under any other, and
raise no flag. -/
def Obligations.LogicCompletes : Prop :=
  ∀ (s : State) (e : Env) (ty : ElemType) (m : BitVec 1) (d a b : BitVec 8),
    TypedReady s e ty d [srcFor d a ty.regs, srcFor d b ty.regs] →
    Gives e s (.and m d a b) m d ty.regs (fun l => (e.val l a ty.regs &&& e.val l b ty.regs, 0)) ∧
    Gives e s (.or m d a b) m d ty.regs (fun l => (e.val l a ty.regs ||| e.val l b ty.regs, 0)) ∧
    Gives e s (.xor m d a b) m d ty.regs (fun l => (e.val l a ty.regs ^^^ e.val l b ty.regs, 0)) ∧
    Gives e s (.andn m d a b) m d ty.regs (fun l =>
      (e.val l a ty.regs &&& (2 ^ 64 - 1 - e.val l b ty.regs), 0)) ∧
    ty.regs = if ty.b = 64 then 2 else 1

/-- R68: SHL, SHR, SRA under the integer TYPEs; amounts above the element width act as the width. -/
def Sys2Proof.Claims.ShiftsComplete : Prop :=
  ∀ (s : State) (e : Env) (ty : ElemType) (m : BitVec 1) (d a b : BitVec 8),
    TypedReady s e ty d [srcFor d a ty.regs, srcFor d b 1] → ty.isFloat = false →
    let by_ (op : Nat → Nat → Nat × Word) (l : Nat) : Nat × Word :=
      joinElems ty.b (fun i => op (elemAt ty.b (e.val l a ty.regs) i)
        (if ty.b = 64 then e.val l b 1 else elemAt ty.b (e.val l b 1) i)) ty.n
    Gives e s (.shl m d a b) m d ty.regs (by_ (fun x k =>
      fitInt ty.isSigned e.sat ty.b (intVal ty.isSigned ty.b x * 2 ^ min k ty.b))) ∧
    Gives e s (.shr m d a b) m d ty.regs (by_ (fun x k => (x / 2 ^ min k ty.b, 0))) ∧
    Gives e s (.sra m d a b) m d ty.regs (by_ (fun x k =>
      (wrapInt ty.b (intVal true ty.b x / 2 ^ min k ty.b), 0)))

/-- R69: BFX and BFI under I32, N32, I64 and N64. -/
def Sys2Proof.Claims.BitFieldsComplete : Prop :=
  ∀ (s : State) (e : Env) (ty : ElemType) (m : BitVec 1) (d a b : BitVec 8),
    TypedReady s e ty d [srcFor d a ty.regs, srcFor d b 1] → ty.isFloat = false → ty.n = 1 →
    Gives e s (.bfx m d a b) m d ty.regs (fun l => (bfxElem ty (e.val l a ty.regs) (e.val l b 1), 0)) ∧
    Gives e s (.bfi m d a b) m d ty.regs (fun l =>
      (bfiElem ty (e.val l d ty.regs) (e.val l a ty.regs) (e.val l b 1), 0))

/-- R68, R69: SHL, SHR, SRA, BFX and BFI complete with their results. -/
def Obligations.ShiftsAndBitFieldsComplete : Prop := ShiftsComplete ∧ BitFieldsComplete

/-- R70, R71, R72: PERMB, SEL and ADDX. -/
def Sys2Proof.Claims.PermuteSelectAddressComplete : Prop :=
  (∀ (s : State) (e : Env) (m : BitVec 1) (d a b : BitVec 8),
    Issues s e → OpsOk e anyKind [⟨d, .any, 1⟩, srcFor d a 2, srcFor d b 1] → e.takes d →
    Gives e s (.permb m d a b) m d 1 (fun l => permb (e.val l a 2) (e.val l b 1))) ∧
  (∀ (s : State) (e : Env) (ty : ElemType) (m : BitVec 1) (d a b : BitVec 8),
    Issues s e → elemType e.type = some ty →
    OpsOk e anyKind [⟨d, .vect, ty.regs⟩, ⟨a, .any, ty.regs⟩, ⟨b, .any, ty.regs⟩] →
    exec (.sel m d a b) s = .next (e.wrote m (.sel m d a b)
      (e.active.flatMap (fun l => regWrites l d (e.val l (if e.guardAt l then a else b) ty.regs) ty.regs)) 0 (opened s))) ∧
  (∀ (s : State) (e : Env) (ty : ElemType) (m : BitVec 1) (d a b : BitVec 8),
    Issues s e → elemType e.type = some ty → OpsOk e anyKind [⟨d, .any, 2⟩, srcFor d a 2, srcFor d b 1] → e.takes d →
    Gives e s (.addx m d a b) m d 2 (fun l =>
      (wrapInt 64 ((e.val l a 2 : Int) + intVal true 32 (e.val l b 1) * (ty.b / 8 : Nat)), 0)))

/-- R73, R74: CMP under the unpacked TYPEs and PRED write a predicate in each active lane whose guard is true. -/
def Sys2Proof.Claims.PredicatesComplete : Prop :=
  (∀ (s : State) (e : Env) (ty : ElemType) (m : BitVec 1) (c p : BitVec 3) (a b : BitVec 8),
    Issues s e → elemType e.type = some ty → ty.n = 1 → OpsOk e anyKind [⟨a, .any, ty.regs⟩, ⟨b, .any, ty.regs⟩] →
    e.lanes ≠ [] →
    let r (l : Nat) : Bool × Word := cmpElem e ty c.toNat (e.val l a ty.regs) (e.val l b ty.regs)
    exec (.cmp m c p a b) s = .next (e.wrote m (.cmp m c p a b)
      (e.lanes.map (fun l => .pred l p.toNat (r l).1)) (e.lanes.foldl (fun acc l => acc ||| (r l).2) 0) (opened s))) ∧
  (∀ (s : State) (e : Env) (m : BitVec 1) (o : BitVec 2) (d : BitVec 3) (i : BitVec 1) (a : BitVec 3) (j : BitVec 1)
      (b : BitVec 3), Issues s e → OpsOk e anyKind [] → e.lanes ≠ [] →
    exec (.pred m o d i a j b) s = .next (e.wrote m (.pred m o d i a j b)
      (e.lanes.map (fun l => .pred l d.toNat (predOp o.toNat (xor (e.regs.pred l a.toNat) (decide (i = 1#1)))
        (xor (e.regs.pred l b.toNat) (decide (j = 1#1)))))) 0 (opened s)))

/-- R70 to R74: PERMB, SEL, ADDX, CMP and PRED complete with their results. -/
def Obligations.SelectionsAndPredicatesComplete : Prop := PermuteSelectAddressComplete ∧ PredicatesComplete

/-- R76, R77, R78: the UNARY family, each under the TYPEs that it accepts. -/
def Obligations.UnaryCompletes : Prop :=
  ∀ (s : State) (e : Env) (ty : ElemType) (m : BitVec 1) (d a : BitVec 8),
    TypedReady s e ty d [srcFor d a ty.regs] →
    let flt (g : FloatFmt → FMode → FVal → Nat × Word) (x : Nat) : Nat × Word :=
      match ty.kind with
      | .flt c => g (floatFmt c) e.fmode (decodeFloat (floatFmt c) e.ftz x)
      | _ => (0, 0)
    (Gives e s (.mov m d a) m d ty.regs (over1 e ty a (fun x => (x, 0))) ∧
     Gives e s (.not m d a) m d ty.regs (over1 e ty a (fun x => (2 ^ ty.b - 1 - x, 0))) ∧
     Gives e s (.neg m d a) m d ty.regs (over1 e ty a (negElem e ty)) ∧
     Gives e s (.abs m d a) m d ty.regs (over1 e ty a (absElem e ty))) ∧
    (ty.isFloat = false →
     Gives e s (.popc m d a) m d ty.regs (over1 e ty a (fun x => (popCount x ty.b, 0))) ∧
     Gives e s (.clz m d a) m d ty.regs (over1 e ty a (fun x => (ty.b - bitLen x, 0))) ∧
     Gives e s (.ctz m d a) m d ty.regs (over1 e ty a (fun x => (trailing x ty.b, 0))) ∧
     Gives e s (.brev m d a) m d ty.regs (over1 e ty a (fun x => (reverseBits x ty.b, 0)))) ∧
    (ty.isFloat = true →
     Gives e s (.frc m d a) m d ty.regs (over1 e ty a (flt fFrc)) ∧
     Gives e s (.rint m d a) m d ty.regs (over1 e ty a (flt fRint)) ∧
     Gives e s (.rcp m d a) m d ty.regs (over1 e ty a (flt fRcp)) ∧
     Gives e s (.sqrt m d a) m d ty.regs (over1 e ty a (flt fSqrt))) ∧
    (ty.isFloat = true → ty.b ≠ 64 →
     Gives e s (.rsq m d a) m d ty.regs (over1 e ty a (flt fRsq)) ∧
     Gives e s (.exp2 m d a) m d ty.regs (over1 e ty a (flt fExp2)) ∧
     Gives e s (.log2 m d a) m d ty.regs (over1 e ty a (flt fLog2)) ∧
     Gives e s (.sinp m d a) m d ty.regs (over1 e ty a (flt fSinp)) ∧
     Gives e s (.cosp m d a) m d ty.regs (over1 e ty a (flt fCosp)) ∧
     Gives e s (.tanh m d a) m d ty.regs (over1 e ty a (flt fTanh)))

/-- R127, R128: CVT between plain formats, and to and from the SX formats in groups of 16 lanes. -/
def Obligations.ConversionsComplete : Prop :=
  ∀ (s : State) (e : Env) (m : BitVec 1) (d a : BitVec 8) (f g : BitVec 4), Issues s e → e.takes d →
    (isSx f.toNat = false → isSx g.toNat = false →
      OpsOk e anyKind [⟨d, .any, codeRegs g.toNat⟩, srcFor d a (codeRegs f.toNat)] →
      Gives e s (.cvt m d a f g) m d (codeRegs g.toNat) (fun l =>
        cvtValue f.toNat g.toNat e.cvtMode e.sat (e.val l a (codeRegs f.toNat)))) ∧
    ((isSx f.toNat || isSx g.toNat) = true → OpsOk e crewOnly [⟨d, .vect, 1⟩, ⟨a, .vect, 1⟩] →
      let rs : List (List RegWrite × Word) := e.groups.map (fun k =>
        if isSx g.toNat then cvtToSx e f.toNat g.toNat d a k else cvtFromSx e f.toNat g.toNat d a k)
      exec (.cvt m d a f g) s = .next (e.wrote m (.cvt m d a f g) (rs.flatMap Prod.fst)
        (rs.foldl (fun acc r => acc ||| r.2) 0) (opened s)))

/-- R79 to R83: LI, LIH, SETMODE, SETMODER and GETMODE. -/
def Obligations.ImmediatesAndModesComplete : Prop :=
  ∀ (s : State) (e : Env) (m : BitVec 1), Issues s e →
    (∀ (d : BitVec 8) (k : BitVec 16), OpsOk e anyKind [⟨d, .any, 1⟩] → e.takes d →
      Gives e s (.li m d k) m d 1 (fun _ => ((k.signExtend 32).toNat, 0)) ∧
      Gives e s (.lih m d k) m d 1 (fun l => (k.toNat * 65536 + e.val l d 1 % 65536, 0))) ∧
    (∀ (d : BitVec 8), OpsOk e anyKind [⟨d, .any, 2⟩] → e.takes d →
      Gives e s (.getmode m d) m d 2 (fun _ => (e.cmode + e.mmode * 2 ^ 32, 0))) ∧
    (∀ (k : BitVec 8) (x : BitVec 16) (f : Bool × Nat × Nat), modeField k.toNat = some f → OpsOk e anyKind [] →
      exec (.setmode m k x) s = .next (e.wrote m (.setmode m k x) [modeWrite f x.toNat] 0 (opened s))) ∧
    (∀ (a : BitVec 8), OpsOk e anyKind [⟨a, .scal, 1⟩] → cmodeBad (e.regs.field 0 a).toNat = false →
      exec (.setmoder m 0 a) s = .next (e.wrote m (.setmoder m 0 a) [.cmode 0xFFFFFFFF (e.regs.field 0 a)] 0 (opened s))) ∧
    (∀ (a : BitVec 8), OpsOk e anyKind [⟨a, .scal, 1⟩] → mmodeBad (e.regs.field 0 a).toNat = false →
      exec (.setmoder m 1 a) s = .next (e.wrote m (.setmoder m 1 a) [.mmode 0xFFFFFFFF (e.regs.field 0 a)] 0 (opened s))) ∧
    (∀ (a : BitVec 8), OpsOk e anyKind [⟨a, .scal, 2⟩] → cmodeBad (e.regs.field 0 a).toNat = false →
      mmodeBad (e.regs.field 0 (a + 1)).toNat = false →
      exec (.setmoder m 2 a) s = .next (e.wrote m (.setmoder m 2 a)
        [.cmode 0xFFFFFFFF (e.regs.field 0 a), .mmode 0xFFFFFFFF (e.regs.field 0 (a + 1))] 0 (opened s)))

/-! ## System and control words -/

namespace Sys2Proof.Claims
open Sys2Proof.Machine

/-- The trap of a word that has not closed its run: cause, code, lanes, FAULTVA; bit 16 of TRAPCAUSE says whether the
run is open, and TRAPPC is the word's own address (R376). -/
def openTrap (s : State) (e : Env) (cause code : Nat) (ls : List Nat) (va : Nat) : TrapInfo :=
  { cause := cause, code := code, isOpen := e.openNow (opened s), pc := e.sp.pc, mask := maskOf ls, faultva := BitVec.ofNat 64 va }

end Sys2Proof.Claims

/-- R84 to R87, R91: RDSR, WRSR, GETCYC, NOP and ICINV. -/
def Obligations.SystemWordsComplete : Prop :=
  ∀ (s : State) (e : Env) (m : BitVec 1), Issues s e →
    exec (.nop m) s = .next (e.done m (.nop m) Flow.next (opened s)) ∧
    (∀ d : BitVec 8, OpsOk e anyKind [⟨d, .any, 2⟩] →
      exec (.getcyc m d) s = .next (e.wrote m (.getcyc m d)
        ((if isVec d then e.active else [0]).flatMap (fun l => regWrites l d ((opened s).chiptime % 2 ^ 64) 2)) 0 (opened s))) ∧
    (e.th.kind = .crew →
      exec (.icinv m) s = .next (e.done m (.icinv m) Flow.next
        (modCore e.th.core (fun c => { c with icache := c.icache.filter (fun l => l.cid != e.cid) }) (opened s)))) ∧
    (∀ (d a : BitVec 8) (row : SrRow), srRow a.toNat = some row → srAllowed e.th.kind a.toNat = true →
      (row.scope = .lane → isVec d = false → e.th.kind ≠ .crew) →
      OpsOk e anyKind [⟨d, .any, srRegs a.toNat⟩] →
      exec (.rdsr m d a) s = .next (e.wrote m (.rdsr m d a)
        ((if isVec d then e.active else [0]).flatMap (fun l => regWrites l d (readSr e (opened s) l a.toNat) (srRegs a.toNat)))
        0 (opened s))) ∧
    (∀ d a : BitVec 8, srWritable a.toNat = true → srAllowed e.th.kind a.toNat = true → srLane a.toNat = true →
      e.th.kind = .crew → e.lanes ≠ [] → OpsOk e anyKind [⟨d, .any, srRegs a.toNat⟩] →
      exec (.wrsr m d a) s = .next (e.wrote m (.wrsr m d a)
        (e.lanes.map (fun l => .special l a.toNat (BitVec.ofNat 64 (e.val l d (srRegs a.toNat))))) 0 (opened s))) ∧
    (∀ d a : BitVec 8, srWritable a.toNat = true → srAllowed e.th.kind a.toNat = true → srLane a.toNat = false →
      a.toNat ≠ 0x10 → OpsOk e anyKind [⟨d, .scal, srRegs a.toNat⟩] →
      exec (.wrsr m d a) s = .next (e.wrote m (.wrsr m d a)
        [.special 0 a.toNat (BitVec.ofNat 64 (e.val 0 d (srRegs a.toNat)))] 0 (opened s))) ∧
    (∀ d : BitVec 8, OpsOk e anyKind [⟨d, .scal, 1⟩] →
      exec (.wrsr m d 0x10) s = .next (e.done m (.wrsr m d 0x10) Flow.next
        (modSplit e.tid e.sid (fun sp => { sp with run := { sp.run with flagClr := sp.run.flagClr ||| e.regs.field 0 d } })
          (opened s))))

/-- R26, R31, R36, R92 to R94: BR, CALL, RET and JMPR transfer to an aligned target, or BR falls through. -/
def Sys2Proof.Claims.TransfersComplete : Prop :=
  ∀ (s : State) (e : Env) (m : BitVec 1), Issues s e →
    (∀ (c : BitVec 4) (o : BitVec 20), brTaken e c.toNat = true → (e.target o).toNat % 4 = 0 →
      exec (.br m c o) s = .next (e.done m (.br m c o) (Flow.jump (e.target o)) (opened s))) ∧
    (∀ (c : BitVec 4) (o : BitVec 20), brTaken e c.toNat = false →
      exec (.br m c o) s = .next (e.done m (.br m c o) Flow.next (opened s))) ∧
    (∀ o : BitVec 20, (e.target o).toNat % 4 = 0 →
      exec (.call m o) s = .next (e.done m (.call m o) (Flow.jump (e.target o))
        (emitTo e.tid e.sid (regWrites 0 0xFE (e.sp.pc + 4).toNat 2) 0 (opened s)))) ∧
    ((e.regs.pair 0 0xFE).toNat % 4 = 0 →
      exec (.ret m) s = .next (e.done m (.ret m) (Flow.jump (e.regs.pair 0 0xFE)) (opened s))) ∧
    (∀ d a : BitVec 8, OpsOk e anyKind [⟨d, .scal, 2⟩, ⟨a, .scal, 2⟩] → (e.regs.pair 0 a).toNat % 4 = 0 →
      exec (.jmpr m d a) s = .next (e.done m (.jmpr m d a) (Flow.jump (e.regs.pair 0 a))
        (emitTo e.tid e.sid (if d = 0xC0 then [] else regWrites 0 d (e.sp.pc + 4).toNat 2) 0 (opened s))))

/-- R26: a transfer of BR, CALL, RET or JMPR whose target's low bits are not zero traps ALIGN in every active lane. -/
def Sys2Proof.Claims.MisalignedTransfersTrap : Prop :=
  ∀ (s : State) (e : Env) (m : BitVec 1), Issues s e →
    (∀ (c : BitVec 4) (o : BitVec 20), brTaken e c.toNat = true → (e.target o).toNat % 4 ≠ 0 →
      exec (.br m c o) s = .next (raiseTrap e.tid e.sid (openTrap s e causeAlign 0 e.active 0) (opened s))) ∧
    (∀ o : BitVec 20, (e.target o).toNat % 4 ≠ 0 →
      exec (.call m o) s = .next (raiseTrap e.tid e.sid (openTrap s e causeAlign 0 e.active 0) (opened s))) ∧
    ((e.regs.pair 0 0xFE).toNat % 4 ≠ 0 →
      exec (.ret m) s = .next (raiseTrap e.tid e.sid (openTrap s e causeAlign 0 e.active 0) (opened s))) ∧
    (∀ d a : BitVec 8, OpsOk e anyKind [⟨d, .scal, 2⟩, ⟨a, .scal, 2⟩] → (e.regs.pair 0 a).toNat % 4 ≠ 0 →
      exec (.jmpr m d a) s = .next (raiseTrap e.tid e.sid (openTrap s e causeAlign 0 e.active 0) (opened s)))

/-- R26, R31, R36, R92 to R94: BR, CALL, RET and JMPR transfer to an aligned target, BR falls through, and a
misaligned target traps ALIGN. -/
def Obligations.TransfersAndTheirTraps : Prop := TransfersComplete ∧ MisalignedTransfersTrap

/-- R95, R98, R99: LOOP enters a level whose counter holds A, with the body captured at depth 0, or skips the body
when the count is zero; at depth 3 it traps LOOP_DEPTH. -/
def Obligations.LoopCompletes : Prop :=
  ∀ (s : State) (e : Env) (m : BitVec 1) (a l : BitVec 8), Issues s e → OpsOk e anyKind [⟨a, .scal, 1⟩] →
    (e.regs.field 0 a ≠ 0 → e.sp.loop.levels.length = 3 →
      exec (.loop m a l) s = .next (raiseTrap e.tid e.sid (openTrap s e causeLoopDepth 0 e.active 0) (opened s))) ∧
    (loopOverruns e.sp.loop e.sp.pc.toNat (e.sp.pc.toNat + 4 * (l.toNat + 1)) = false →
      (e.regs.field 0 a = 0 →
        exec (.loop m a l) s = .next (e.done m (.loop m a l) { target := none, skip := l.toNat + 1, close := false } (opened s))) ∧
      (e.regs.field 0 a ≠ 0 → e.sp.loop.levels.length ≠ 3 →
        let k := e.sp.loop.levels.length
        let got := if k = 0 then captureBody e.th (e.sp.pc.toNat + 4) (l.toNat + 1) (opened s) else (e.sp.loop.body, opened s)
        exec (.loop m a l) s = .next (e.done m (.loop m a l) Flow.next (modSplit e.tid e.sid (fun sp => { sp with
          loop := { lc := sp.loop.lc.set k (e.regs.field 0 a),
                    levels := sp.loop.levels ++ [{ start := e.sp.pc.toNat + 4, len := l.toNat + 1 }], body := got.1 } }) got.2))))

/-- R28, R88, R181, R347: END closes the run; every lane of a crew's split exits and the split ends, or the scout program
ends, or the sequencer's. -/
def Sys2Proof.Claims.EndCompletes : Prop :=
  ∀ (s : State) (e : Env) (m : BitVec 1), Issues s e →
    exec (.endI m) s = .next (match e.th.kind with
      | .crew => endSplit e.tid e.sid (exitLanes e.tid e.sid (lanesOf e.width e.sp.member) (closed s e))
      | .scout => endScout e.tid (closed s e)
      | .mseq | .cseq => stopSequencer e.tid 0 (closed s e))

/-- R89, R380: SYS and BRK close the run and trap with TRAPPC at the next word and CODE the immediate; when splits of the
crew raise traps in one cycle, the trap waits in the split's record. -/
def Sys2Proof.Claims.SoftwareTrapsComplete : Prop :=
  ∀ (s : State) (e : Env) (m : BitVec 1) (n : BitVec 8), Issues s e → e.th.kind = .crew →
    let x (cause : Nat) : TrapInfo :=
      { cause := cause, code := n.toNat, isOpen := false, pc := e.sp.pc + 4, mask := maskOf e.active, faultva := 0 }
    let joins := trapJoins (closed s e) (e.afterClose s).th e.tid e.sid
    (joins = false →
      exec (.sys m n) s = .next (takeTrap e.tid e.sid (x 16) (closed s e)) ∧
      exec (.brk m n) s = .next (takeTrap e.tid e.sid (x 17) (closed s e))) ∧
    (joins = true →
      exec (.sys m n) s = .next (keepTrap e.tid e.sid (x 16) (closed s e)) ∧
      exec (.brk m n) s = .next (keepTrap e.tid e.sid (x 17) (closed s e)))

/-- R90, R379: TRET of the split in the handler closes the run and returns to an aligned TRAPPC. -/
def Sys2Proof.Claims.TrapReturnCompletes : Prop :=
  ∀ (s : State) (e : Env) (m : BitVec 1), Issues s e → e.th.kind = .crew → e.th.handler = some e.sid →
    (e.afterClose s).sp.trapRegs.pc.toNat % 4 = 0 →
    exec (.tret m) s = .next (returnTrap e.tid e.sid (closed s e))

/-- R90: TRET outside a trap handler traps ILLEGAL. -/
def Sys2Proof.Claims.TrapReturnOutsideTraps : Prop :=
  ∀ (s : State) (e : Env) (m : BitVec 1), Issues s e → e.th.kind = .crew → e.th.handler ≠ some e.sid →
    let x := openTrap s e causeIllegal 8 e.active 0
    exec (.tret m) s = .next (if trapJoins (opened s) e.th e.tid e.sid then keepTrap e.tid e.sid x (opened s)
      else takeTrap e.tid e.sid x (opened s))

/-- R193 to R195: BRD closes the run; it divides the split when its guard differs among the active lanes, and
otherwise continues whole; each part holds one token more. -/
def Sys2Proof.Claims.DivergeCompletes : Prop :=
  ∀ (s : State) (e : Env) (m : BitVec 1) (k : BitVec 4) (o : BitVec 20), Issues s e → e.th.kind = .crew →
    let c := e.afterClose s
    let g := c.th.nextGroup
    let tokens := c.sp.tokens ++ [(k.toNat, g)]
    c.sp.tokens.length < 8 →
    (∀ sid, c.lanes ≠ [] → c.lanes.length < c.active.length → c.inHandler = false → c.th.spare c.sp ≠ 0 →
      c.th.freeSid = some sid →
      exec (.brd m k o) s = .next (e.done m (.brd m k o) Flow.nextClose (modThread e.tid (fun th =>
        let th := th.raiseLive c.sp.tokens 1
        let th := { th with nextGroup := g + 1, groups := Sparse.put th.groups g 2 }
        let th := { th with splits := Sparse.alter th.splits e.sid (fun sp =>
          { sp with member := sp.member &&& ~~~(maskOf c.lanes), tokens := tokens }) }
        th.addSplit sid (c.sp.branch (e.target o) (maskOf c.lanes) tokens)) (drainSplit e.tid e.sid (closed s e))))) ∧
    ((c.lanes = [] ∨ ¬ c.lanes.length < c.active.length) →
      exec (.brd m k o) s = .next (e.done m (.brd m k o)
        { target := if c.lanes = [] then none else some (e.target o), skip := 0, close := true }
        (modThread e.tid (fun th => { th with
          nextGroup := g + 1, groups := Sparse.put th.groups g 1,
          splits := Sparse.alter th.splits e.sid (fun sp => { sp with tokens := tokens }) }) (closed s e))))

/-- R166, R196: JOIN of the group on top waits for the group, which merges at once when its last split arrives; any
other JOIN has no effect. -/
def Sys2Proof.Claims.JoinCompletes : Prop :=
  ∀ (s : State) (e : Env) (m : BitVec 1) (k : BitVec 4), Issues s e → e.th.kind = .crew →
    let c := e.afterClose s
    let u := drainSplit e.tid e.sid (closed s e)
    (∀ g, c.sp.tokens.getLast? = some (k.toNat, g) → c.inHandler = false →
      exec (.join m k) s = .next (afterEnd e.tid c.th.regs.mmode 33 (some g)
        (modSplit e.tid e.sid (fun sp => { sp with
          state := .waiting, wait := some { obj := .join g, instr := .join m k, since := u.links } })
          { u with links := u.links + 1 }))) ∧
    ((c.sp.tokens.getLast?.map Prod.fst) ≠ some k.toNat ∨ c.inHandler = true →
      exec (.join m k) s = .next (e.done m (.join m k) Flow.nextClose (closed s e)))

/-- R166, R193 to R196: BRD and JOIN. -/
def Obligations.DivergeAndJoinComplete : Prop := DivergeCompletes ∧ JoinCompletes

/-- R168, R197: EXIT closes the run and the active lanes whose guard is true exit; the split ends when no active lane is
left. -/
def Sys2Proof.Claims.ExitCompletes : Prop :=
  ∀ (s : State) (e : Env) (m : BitVec 1), Issues s e → e.th.kind = .crew →
    let c := e.afterClose s
    let t := exitLanes e.tid e.sid c.lanes (closed s e)
    (c.lanes = [] → exec (.exit m) s = .next (e.done m (.exit m) Flow.nextClose (closed s e))) ∧
    (c.lanes ≠ [] → c.lanes.length = c.active.length → exec (.exit m) s = .next (endSplit e.tid e.sid t)) ∧
    (c.lanes ≠ [] → c.lanes.length ≠ c.active.length → exec (.exit m) s = .next (e.done m (.exit m) Flow.nextClose t))

/-- R28, R88, R168, R181, R197, R347: END and EXIT. -/
def Obligations.EndAndExitComplete : Prop := EndCompletes ∧ ExitCompletes

/-- R321, R356: a WAITT whose time has come completes when no command that it promised is late. -/
def Sys2Proof.Claims.WaitCompletes : Prop :=
  ∀ (s : State) (e : Env) (m : BitVec 1) (a : BitVec 8), Proceeds s e → OpsOk e anyKind [⟨a, .scal, 2⟩] →
    (e.sp.handed.isSome = true ∨ waitTime e a ≤ chipNow (closed s e)) →
    lateCommands (closed s e) e.tid (closed s e).chiptime = [] →
    exec (.waitt m a) s = .next (e.done m (.waitt m a) Flow.nextClose (closed s e))

/-- R89, R321, R356: SYS, BRK, and a WAITT whose time has come. -/
def Obligations.SoftwareTrapsAndWaitsComplete : Prop := SoftwareTrapsComplete ∧ WaitCompletes

/-! ## Words between lanes and crews -/

namespace Sys2Proof.Claims
open Sys2Proof.Machine

/-- The lane that a shuffle reads: the one named when it is active, else the lane itself. -/
def heard (e : Env) (l j : Nat) : Nat := if e.active.contains j then j else l

/-- A crew issues a word that its guard governs, with operands that pass. -/
abbrev CrewReady (s : State) (e : Env) (ops : List Opnd) : Prop := Issues s e ∧ OpsOk e crewOnly ops

/-- Every lane of some lanes runs to its end: the values in lane order, and the state they leave. -/
def LanesRun {α : Type} (ls : List Nat) (f : Nat → L α) (s : State) (outs : List (Nat × α)) (t : State) : Prop :=
  ∃ undo, ls.foldl (runLane f) (⟨[], [], []⟩, s) = (⟨outs, [], undo⟩, t)

end Sys2Proof.Claims

/-- R198: SHFL, SHFLX, SHFLUP and SHFLDN give each lane the A of the lane that it names, when that lane is active. -/
def Sys2Proof.Claims.ShufflesComplete : Prop :=
  ∀ (s : State) (e : Env) (m : BitVec 1) (d a : BitVec 8), e.lanes ≠ [] → isVec d = true →
    (∀ b : BitVec 8, CrewReady s e [⟨d, .vect, 1⟩, ⟨a, .vect, 1⟩, ⟨b, .any, 1⟩] →
      Gives e s (.shfl m d a b) m d 1 (fun l => ((e.regs.vec (heard e l (e.regs.field l b).toNat) a.toNat).toNat, 0)) ∧
      Gives e s (.shflx m d a b) m d 1 (fun l =>
        ((e.regs.vec (heard e l (l ^^^ (e.regs.field l b).toNat % 64)) a.toNat).toNat, 0))) ∧
    (∀ n : BitVec 6, CrewReady s e [⟨d, .vect, 1⟩, ⟨a, .vect, 1⟩] →
      Gives e s (.shflup m d a n) m d 1 (fun l =>
        ((e.regs.vec (if n.toNat ≤ l then heard e l (l - n.toNat) else l) a.toNat).toNat, 0)) ∧
      Gives e s (.shfldn m d a n) m d 1 (fun l => ((e.regs.vec (heard e l (l + n.toNat)) a.toNat).toNat, 0)))

/-- R199: VOTEALL, VOTEANY, BALLOT and FIRSTLANE reach every active lane whatever its guard; MBCNT counts the ones
below a lane. -/
def Sys2Proof.Claims.VotesComplete : Prop :=
  ∀ (s : State) (e : Env) (m : BitVec 1), Issues s e → e.th.kind = .crew →
    (∀ p : BitVec 3,
      exec (.voteall m p) s = .next (e.wrote m (.voteall m p)
        (e.active.map (fun l => .pred l p.toNat (e.active.all e.guardAt))) 0 (opened s)) ∧
      exec (.voteany m p) s = .next (e.wrote m (.voteany m p)
        (e.active.map (fun l => .pred l p.toNat (e.active.any e.guardAt))) 0 (opened s))) ∧
    (∀ d : BitVec 8, OpsOk e crewOnly [⟨d, .any, 2⟩] →
      exec (.ballot m d) s = .next (e.wrote m (.ballot m d)
        ((if isVec d then e.active else [0]).flatMap (fun l => regWrites l d (maskOf e.lanes).toNat 2)) 0 (opened s))) ∧
    (∀ d a : BitVec 8, OpsOk e crewOnly [⟨d, .any, 1⟩, ⟨a, .vect, 1⟩] →
      (e.lanes = [] → exec (.firstlane m d a) s = .next (e.done m (.firstlane m d a) Flow.next (opened s))) ∧
      (∀ l ls, e.lanes = l :: ls →
        exec (.firstlane m d a) s = .next (e.wrote m (.firstlane m d a)
          ((if isVec d then e.active else [0]).flatMap (fun k => regWrites k d (e.regs.field l a).toNat 1)) 0 (opened s)))) ∧
    (∀ d a : BitVec 8, OpsOk e crewOnly [⟨d, .vect, 1⟩, ⟨a, .any, 2⟩] → e.lanes ≠ [] →
      Gives e s (.mbcnt m d a) m d 1 (fun l => (popLow (e.regs.pair l a).toNat l, 0)))

/-- R200 to R204: RSUM and SCANS under I32, F32, F16X2 and BF16X2. -/
def Sys2Proof.Claims.ReductionsComplete : Prop :=
  ∀ (s : State) (e : Env) (ty : ElemType) (m : BitVec 1) (d a : BitVec 8) (f : BitVec 1), Issues s e →
    elemType e.type = some ty → reduceType ty = true → OpsOk e crewOnly [⟨d, .vect, 1⟩, ⟨a, .vect, 1⟩] →
    exec (.rsum m d a f) s = .next (e.wrote m (.rsum m d a f)
      ((e.active.filter (fun l => f = 0#1 || l = 0)).map (fun l => regWrite l d (joinElems ty.b (rsumHalf e ty a) ty.n).1))
      (joinElems ty.b (rsumHalf e ty a) ty.n).2 (opened s)) ∧
    (let rs := (List.range ty.n).map (scanHalf e ty a)
     let at_ (h i : Nat) : Nat := if f = 0#1 then ((rs.getD h []).getD i (0, 0)).1
       else if i = 0 then 0 else ((rs.getD h []).getD (i - 1) (0, 0)).1
     exec (.scans m d a f) s = .next (e.wrote m (.scans m d a f)
       (e.active.map (fun l => regWrite l d (joinElems ty.b (fun h => (at_ h l, 0)) ty.n).1))
       (rs.flatten.foldl (fun fl r => fl ||| r.2) 0) (opened s)))

/-- R198 to R204: the shuffles, the votes, BALLOT, FIRSTLANE, MBCNT, RSUM and SCANS. -/
def Obligations.ShufflesVotesReductionsComplete : Prop := ShufflesComplete ∧ VotesComplete ∧ ReductionsComplete

/-- R172, R205 to R207: BAR releases, arrives and waits for its barrier, and acquires when it is released; BARA arrives
and goes on, but waits while an earlier arrival of its crew is pending; BARW waits while its crew's arrival is pending, and
goes on when none is. -/
def Obligations.BarriersComplete : Prop :=
  ∀ (s : State) (e : Env) (m : BitVec 1) (k : BitVec 2), e.th.kind = .crew → circOf e.th.circ k.toNat ≠ 0xFF →
    let c := e.afterClose s
    (Resumes s e .go →
      exec (.bar m k) s = .next (e.done m (.bar m k) Flow.nextClose (acquire e.th.core e.cid c.scope (closed s e))) ∧
      exec (.barw m k) s = .next (e.done m (.barw m k) Flow.nextClose (acquire e.th.core e.cid c.scope (closed s e)))) ∧
    (Resumes s e .go → exec (.bara m k) s = .next (e.done m (.bara m k) Flow.nextClose (closed s e))) ∧
    (Issues s e → c.sp.reached.contains k.toNat = false →
      (let u := reachSlot c k.toNat (closed s e)
       (arrivesAgain e.tid k.toNat u = false → exec (.bara m k) s = .next (e.done m (.bara m k) Flow.nextClose u)) ∧
       (arrivesAgain e.tid k.toNat u = true → e.th.handler ≠ some e.sid → exec (.bara m k) s = .next (linkWait e.tid e.sid
         (.barrier e.th.launch (circOf e.th.circ k.toNat) (Sparse.get 0 c.th.arrivals k.toNat - 1)) (.bara m k) u))) ∧
      (e.th.handler ≠ some e.sid →
        exec (.bar m k) s = .next (linkWait e.tid e.sid (.barrier e.th.launch (circOf e.th.circ k.toNat)
          (nextBarrier c k.toNat (circOf e.th.circ k.toNat) (closed s e))) (.bar m k) (reachSlot c k.toNat (closed s e))))) ∧
    (Issues s e → c.th.pendingArrival (closed s e) k.toNat = false →
      exec (.barw m k) s = .next (e.done m (.barw m k) Flow.nextClose (closed s e)))

/-- R181, R208, R209: DQPUSH of a scout into a queue with room, DQPOP and DQPEEK where an entry or the end marker is
there. -/
def Sys2Proof.Claims.DecisionQueueCompletes : Prop :=
  ∀ (s : State) (e : Env) (m : BitVec 1), Issues s e →
    (∀ a : BitVec 8, OpsOk e [.scout] [⟨a, .scal, 2⟩] →
      dqLength (opened s) e.th.launch (e.th.share (opened s)) < 64 →
      exec (.dqpush m a) s = .next (e.done m (.dqpush m a) Flow.next
        (pushDq e.th.launch (e.th.share (opened s)) (e.regs.pair 0 a) (opened s)))) ∧
    (∀ (d : BitVec 8) (x : DWord), OpsOk e crewOnly [⟨d, .any, 2⟩] → dqFind e (opened s) = some x →
      let ws : List RegWrite := (if isVec d then e.active else [0]).flatMap (fun l => regWrites l d x.toNat 2)
      exec (.dqpop m d) s = .next (e.wrote m (.dqpop m d) ws 0 (dqAdvance e (opened s))) ∧
      exec (.dqpeek m d) s = .next (e.wrote m (.dqpeek m d) ws 0 (opened s)))

/-- R183, R184, R210 to R212: SPAWN whose records are in order and all stored, TDONE whose decrements all answer, QPOP
of a queue that holds a record or has drained. -/
def Sys2Proof.Claims.TaskWordsComplete : Prop :=
  ∀ (s : State) (e : Env) (m : BitVec 1), Issues s e →
    (∀ a b : BitVec 8, OpsOk e crewOnly [⟨a, .any, 4⟩, ⟨b, .any, 4⟩] → ((isVec a || isVec b) = true → e.lanes ≠ []) →
      let rs := (if isVec a || isVec b then e.lanes else [0]).map (fun l => (l, spawnRecord e a b l))
      rs.all (fun r => !spawnMisaligned r.2) = true → (spawnRefused e.cid rs (opened s)).1 = [] →
      let r := pushTasks e.cid (rs.map (fun r => r.2.1)) (release e.th.core 2 (spawnRefused e.cid rs (opened s)).2)
      r.1 = [] → exec (.spawn m a b) s = .next (e.done m (.spawn m a b) Flow.next r.2)) ∧
    (∀ (d a : BitVec 8), OpsOk e crewOnly [⟨d, .vect, 8⟩, ⟨a, .scal, 1⟩] → e.lanes ≠ [] →
      let q := (e.regs.field 0 a).toNat
      q < 4096 →
      let t := (queueEmpty e.cid q (opened s)).2
      ((queueEmpty e.cid q (opened s)).1 = false ∨ isDrained t e.cid q = true) →
      let r := popLanes e.cid q e.lanes t
      let ws := r.1.flatMap (fun g => taskWrites d g.1 g.2 (if isDrained t e.cid q then 2 else 1))
      let keep (m : Sparse Cont) (g : Nat × Option Cont) : Sparse Cont :=
        match g.2 with
        | some c => Sparse.put m g.1 c
        | none => Sparse.erase m g.1
      exec (.qpop m d a) s = .next (e.done m (.qpop m d a) Flow.next (reachBoundary e.tid (acquire e.th.core e.cid 2
        (modThread e.tid (fun t => { t with tasks := r.1.foldl keep t.tasks }) (emitTo e.tid e.sid ws 0 r.2)))))) ∧
    (∀ (a : BitVec 8) (t : State), OpsOk e crewOnly [⟨a, .any, 2⟩] → (isVec a = true → e.lanes ≠ []) → e.active ≠ [] →
      e.sp.progress = Progress.none →
      let ps : List Part := if isVec a then e.lanes.map (fun l => ⟨[l], e.addr l a 0⟩) else [⟨e.active, e.addr 0 a 0⟩]
      ps.all (goodAddr 8) = true →
      tdoneLoop e (.tdone m a) ps [] (release e.th.core 2 (opened s)) = .ok [] t →
      exec (.tdone m a) s = .next (e.done m (.tdone m a) Flow.next (reachBoundary e.tid (modSplit e.tid e.sid (fun sp =>
        { sp with progress := { Progress.none with lanes := partsMask ps } }) t))))

/-- R181, R183, R184, R208 to R212: DQPUSH, DQPOP, DQPEEK, SPAWN, TDONE and QPOP. -/
def Obligations.DecisionQueueAndTaskWordsComplete : Prop := DecisionQueueCompletes ∧ TaskWordsComplete

/-- R174, R213: SETGANG with a value that is not refused closes the run, joins the gang and wakes latches. -/
def Sys2Proof.Claims.GangCompletes : Prop :=
  ∀ (s : State) (e : Env) (m : BitVec 1) (a : BitVec 8), Issues s e → OpsOk e crewOnly [⟨a, .scal, 1⟩] →
    let c := e.afterClose s
    let x := c.regs.field 0 a
    gangRefused (closed s e) e.th.core e.th.launch x = false →
    exec (.setgang m a) s = .next (e.done m (.setgang m a) Flow.nextClose
      (wakeLatch e.th.core e.th.launch (gangKey x) (wakeLatch e.th.core e.th.launch (gangKey c.regs.gang)
        (joinGang e.tid e.th.core e.th.launch x
          (emitTo e.tid e.sid [.special 0 0x09 (x.setWidth 64)] 0 (closed s e))))))

/-- R217 to R219: OFFER whose services all run to their end, and ADOPTQ whose requests are all answered, with the
records that its parts need. -/
def Sys2Proof.Claims.AdoptionCompletes : Prop :=
  ∀ (s : State) (e : Env) (m : BitVec 1),
    (∀ (d : BitVec 8) (t : State), Issues s e → OpsOk e crewOnly [⟨d, .vect, 1⟩] →
      let c := e.afterClose s
      c.lanes ≠ [] → serveLanes c d c.lanes (closed s e) = .ok () t →
      let u := wakeAdopters e.tid t
      let got := match getSplit u e.tid e.sid with | some sp => sp.progress | none => Progress.none
      exec (.offer m d) s = .next (e.done m (.offer m d) Flow.nextClose
        (emitTo e.tid e.sid (c.lanes.map (fun l => regWrite l d (got.countOf l))) 0 u))) ∧
    (∀ (d a : BitVec 8), Resumes s e .go → OpsOk e crewOnly [⟨d, .vect, 1⟩, ⟨a, .any, 1⟩] →
      let c := e.afterClose s
      c.lanes ≠ [] → c.th.answered e.sid = true →
      let parts := c.th.adoptParts e.sid c.sp
      (∀ g ∈ adoptedLanes (c.th.requestsOf e.sid), g.2.toNat % 4 = 0) →
      (2 ≤ parts.length → c.inHandler = false ∧ parts.length ≤ c.th.spare c.sp + 1 ∧
        (c.sp.wait.map Wait.obj = some .records ∨ recordsWanted (closed s e) e.tid = false)) →
      exec (.adoptq m d a) s = .next (divideSplit e.tid e.sid parts
        (modThread e.tid (fun t => { t with requests := t.requests.filter (fun r => r.split != e.sid) })
          (emitTo e.tid e.sid ((c.th.requestsOf e.sid).flatMap (adoptWrites d)) 0 (closed s e)))))

/-- R174, R213, R217 to R219: SETGANG, OFFER and ADOPTQ. -/
def Obligations.GangAndAdoptionComplete : Prop := GangCompletes ∧ AdoptionCompletes

/-! ## Term words -/

/-- R130, R131, R142: TAGOF and PAYLD of words that are well formed, MKTERM of payloads that its tag takes. -/
def Sys2Proof.Claims.TermRegisterWordsComplete : Prop :=
  ∀ (s : State) (e : Env) (m : BitVec 1) (d a : BitVec 8), Issues s e → e.takes d →
    let x (l : Nat) : Nat := (e.regs.pair l a).toNat
    ((∀ l ∈ e.destLanes d, illFormed (x l) = false) → OpsOk e crewOnly [⟨d, .any, 1⟩, srcFor d a 2] →
      Gives e s (.tagof m d a) m d 1 (fun l => if illFormed (x l) then (0, 0) else (tagOf (x l), 0))) ∧
    ((∀ l ∈ e.destLanes d, illFormed (x l) = false) → OpsOk e crewOnly [⟨d, .any, 2⟩, srcFor d a 2] →
      Gives e s (.payld m d a) m d 2 (fun l => if illFormed (x l) then (0, 0) else (payload (x l), 0))) ∧
    (∀ t : BitVec 3, (∀ l ∈ e.destLanes d, (makeTerm t.toNat (x l)).isSome = true) →
      OpsOk e crewOnly [⟨d, .any, 2⟩, srcFor d a 2] →
      Gives e s (.mkterm m d a t) m d 2 (fun l => (makeTerm t.toNat (x l)).getD (0, 0)))

/-- R143, R144, R146, R155: NEWVAR, HNEW, GETCP, GETTR and CUT in the lanes that take part. -/
def Sys2Proof.Claims.HeapAndMarkWordsComplete : Prop :=
  ∀ (s : State) (e : Env) (m : BitVec 1), Issues s e → e.lanes ≠ [] →
    (∀ d : BitVec 8, OpsOk e crewOnly [⟨d, .vect, 2⟩] →
      Gives e s (.getcp m d) m d 2 (fun l => (e.regs.cairn l, 0)) ∧
      Gives e s (.gettr m d) m d 2 (fun l => (e.regs.trail l, 0))) ∧
    (∀ (d : BitVec 8) (t : State) (outs : List (Nat × Nat)), OpsOk e crewOnly [⟨d, .vect, 2⟩] →
      LanesRun e.lanes (fun l => do
        st64 e (e.regs.heap l) (2 ^ 61 + e.regs.birthNow l * 2 ^ 32)
        pure (e.regs.heap l)) (opened s) outs t →
      exec (.newvar m d) s = .next (e.wroteLast m (.newvar m d) (outs.flatMap (fun x =>
        regWrites x.1 d (refTo x.2) 2 ++ [laneSr x.1 srHeaptop (x.2 + 8)])) t)) ∧
    (∀ d a : BitVec 8, OpsOk e crewOnly [⟨d, .vect, 2⟩, ⟨a, .vect, 1⟩] →
      (∀ l ∈ e.lanes, canonicalVa (e.regs.heap l) = true ∧ e.regs.heap l % 8 = 0) →
      exec (.hnew m d a) s = .next (e.wroteLast m (.hnew m d a) (e.lanes.flatMap (fun l =>
        regWrites l d (e.regs.heap l) 2 ++ [laneSr l srHeaptop (e.regs.heap l + 8 * (e.regs.field l a).toNat)])) (opened s))) ∧
    (∀ a : BitVec 8, OpsOk e crewOnly [⟨a, .vect, 2⟩] → (∀ l ∈ e.lanes, (e.regs.pair l a).toNat % 64 = 0) →
      exec (.cut m a) s = .next (e.wroteLast m (.cut m a) (e.lanes.filterMap (fun l =>
        if (e.regs.pair l a).toNat < e.regs.cairn l then some (laneSr l srCptop (e.regs.pair l a).toNat) else none))
        (opened s)))

/-- R130, R131, R142 to R144, R146, R155: TAGOF, PAYLD, MKTERM, NEWVAR, HNEW, GETCP, GETTR and CUT. -/
def Obligations.TermRegisterAndHeapWordsComplete : Prop := TermRegisterWordsComplete ∧ HeapAndMarkWordsComplete

/-- R145, R147 to R152: DEREF, BIND, UNIFY and CHOICE whose lanes all run to their end. -/
def Sys2Proof.Claims.UnificationCompletes : Prop :=
  ∀ (s : State) (e : Env) (m : BitVec 1) (t : State), Issues s e → e.lanes ≠ [] →
    (∀ (d a : BitVec 8) (outs : List (Nat × Chain)), OpsOk e crewOnly [⟨d, .vect, 2⟩, ⟨a, .vect, 2⟩] →
      LanesRun e.lanes (fun l => do
        readTerm (e.regs.pair l a).toNat 0
        derefFrom e l e.budget (e.regs.pair l a).toNat 0) (opened s) outs t →
      exec (.deref m d a) s = .next (e.wrote m (.deref m d a) (outs.flatMap (fun x => regWrites x.1 d x.2.word 2)) 0 t)) ∧
    (∀ (d a b : BitVec 8) (outs : List (Nat × Nat × Nat)), OpsOk e crewOnly [⟨d, .vect, 1⟩, ⟨a, .vect, 2⟩, ⟨b, .vect, 2⟩] →
      LanesRun e.lanes (bindLane e a b) (opened s) outs t →
      exec (.bind m d a b) s = .next (e.wroteLast m (.bind m d a b)
        (outs.flatMap (fun x => regWrite x.1 d x.2.1 :: (if x.2.1 < 2 then [laneSr x.1 srTrtop x.2.2] else []))) t)) ∧
    (∀ (d a b : BitVec 8) (u : State) (outs : List (Nat × Unified)), OpsOk e crewOnly [⟨d, .vect, 1⟩, ⟨a, .vect, 2⟩, ⟨b, .vect, 2⟩] →
      let depth := udepthOf (opened s) e.th.launch
      depth ≠ 0 →
      needAreas e (.unify m d a b) (e.lanes.flatMap (areaPlaces e (opened s) depth)) (opened s) = .ok () u →
      LanesRun e.lanes (unifyLane e a b depth) u outs t →
      exec (.unify m d a b) s = .next (e.wroteLast m (.unify m d a b)
        (outs.flatMap (fun x => regWrite x.1 d x.2.status ::
          (if x.2.trail = e.regs.trail x.1 then [] else [laneSr x.1 srTrtop x.2.trail])))
        (modThread e.tid (fun th => { th with resumes := outs.foldl (fun m x =>
          keepResume (e.regs.pair x.1 a) (e.regs.pair x.1 b) x.2 x.1 m) th.resumes }) t))) ∧
    (∀ (o : BitVec 20) (outs : List (Nat × Unit)),
      OpsOk e crewOnly [] →
      LanesRun e.lanes (fun l => do
        laneAddr (e.regs.cairn l) 64
        storeWords e (e.regs.cairn l) (frameWords e l (e.target o))) (opened s) outs t →
      exec (.choice m o) s = .next (e.wroteLast m (.choice m o) (outs.flatMap (fun x =>
        [laneSr x.1 srCptop (e.regs.cairn x.1 + 64), laneSr x.1 srBirth (Nat.min (e.regs.birthNow x.1 + 1) 65535)])) t))

/-- R153, R154: FAIL restores the lanes that have a frame, exits those that have none, and divides the split by the
frames' addresses. -/
def Sys2Proof.Claims.BacktrackingCompletes : Prop :=
  ∀ (s : State) (e : Env) (m : BitVec 1) (t u : State) (alts : List (Nat × Option Nat))
      (outs : List (Nat × Option (Nat × List Nat))), Issues s e → e.th.kind = .crew → e.lanes ≠ [] →
    LanesRun e.lanes (failTarget e) (opened s) alts t →
    let parts := branches e.sp (e.active.filter (fun l => !e.lanes.contains l))
      (alts.filterMap (fun x => x.2.map (fun a => (x.1, BitVec.ofNat 64 a))))
    (2 ≤ parts.length → e.inHandler = false) → parts.length ≤ e.th.spare e.sp + 1 →
    LanesRun e.lanes (failLane e alts) t outs u →
    let v := exitLanes e.tid e.sid ((alts.filter (fun x => x.2.isNone)).map Prod.fst) (dropResumes e.tid e.lanes
      (closeRun e.tid e.sid (emitTo e.tid e.sid (outs.flatMap failWrites) 0 u)))
    exec (.fail m) s = .next (if parts.isEmpty then endSplit e.tid e.sid v else divideSplit e.tid e.sid parts v)

/-- R214 to R216: VWIN with sizes and bases in order clears the windows and sets VWBASE and VWSIZE. -/
def Sys2Proof.Claims.ViewWindowCompletes : Prop :=
  ∀ (s : State) (e : Env) (m : BitVec 1) (a b : BitVec 8) (t : State) (outs : List (Nat × Win)), Issues s e →
    OpsOk e crewOnly [⟨a, .any, 2⟩, ⟨b, .any, 1⟩] →
    let c := e.afterClose s
    let n (l : Nat) : Nat := (c.regs.field l b).toNat
    let base (l : Nat) : Nat := (c.regs.pair l a).toNat
    c.lanes ≠ [] → (∀ l ∈ c.lanes, (windowSize (n l)).isSome = true) →
    ((c.lanes.filter (fun l => n l ≠ 0)).map (fun l => (⟨[l], base l⟩ : Part))).all (goodAddr 64) = true →
    LanesRun c.lanes (fun l => do
      let w : Win := ⟨if n l = 0 then 0 else base l, (windowSize (n l)).getD 0⟩
      w.clear c
      pure w) (closed s e) outs t →
    exec (.vwin m a b) s = .next (e.wroteLast m (.vwin m a b)
      (outs.flatMap (fun x => [laneSr x.1 srVwbase x.2.base, laneSr x.1 srVwsize x.2.size])) t)

/-- R145, R147 to R154, R214 to R216: DEREF, BIND, UNIFY, CHOICE, FAIL and VWIN. -/
def Obligations.UnificationWordsComplete : Prop := UnificationCompletes ∧ BacktrackingCompletes ∧ ViewWindowCompletes

/-! ## Memory words -/

namespace Sys2Proof.Claims
open Sys2Proof.Machine

/-- A load that issues, with operands and addresses in order (R100 to R102). -/
abbrev LoadReady (s : State) (e : Env) (d a : BitVec 8) (off size n : Nat) : Prop :=
  Issues s e ∧ e.takes d ∧ OpsOk e anyKind [⟨d, .any, n⟩, ⟨a, if isVec d then .any else .scal, 2⟩] ∧
  (loadParts e d a off).all (goodAddr size) = true

/-- A load completes: every part that remains has answered. -/
def Loads (s : State) (e : Env) (i : Instr) (m : BitVec 1) (d a : BitVec 8) (off n : Nat) (ext : Nat → Nat)
    (read : Nat → State → Except Nat Got × State) : Prop :=
  ∀ prog t, PartsAnswer e (loadParts e d a off) (loadPart d n ext read) (opened s) prog t →
    exec i s = .next (e.accessed m i prog t)

/-- A store that issues, with operands and addresses in order (R100, R101, R103). -/
abbrev StoreReady (s : State) (e : Env) (d a : BitVec 8) (off size n : Nat) : Prop :=
  Issues s e ∧ e.lanes ≠ [] ∧ OpsOk e storeKinds [⟨d, .any, n⟩, ⟨a, .any, 2⟩] ∧ (storeParts e a off).all (goodAddr size) = true

/-- A store completes: every part that remains has been written. -/
def Stores (s : State) (e : Env) (i : Instr) (m : BitVec 1) (d a : BitVec 8) (off size n : Nat) : Prop :=
  ∀ prog t, PartsAnswer e (storeParts e a off) (storePart e d n size (splitWrite e)) (opened s) prog t →
    exec i s = .next (e.accessed m i prog t)

/-- A release store once its release has been performed. -/
def releasedEnv (e : Env) : Env :=
  { e with sp := { e.sp with progress := { e.sp.progress with released := true } } }

/-- The state once the release of a release store has been performed, in this issue or an earlier one (R267, R268). -/
def afterRelease (s : State) (e : Env) : State :=
  if e.sp.progress.released then opened s
  else modSplit e.tid e.sid (fun sp => { sp with progress := { sp.progress with released := true } })
    (release e.th.core e.scope (opened s))

/-- An atomic that issues: operands, TYPE and addresses in order (R274). -/
abbrev AtomicReady (s : State) (e : Env) (ty : ElemType) (d a b : BitVec 8) (nb : Nat) : Prop :=
  let once := !isVec d && (decide (d ≠ 0xC0#8) || (!isVec a && !isVec b))
  let req : Req := if isVec d || decide (d = 0xC0#8) then .any else .scal
  Issues s e ∧ elemType e.type = some ty ∧ (once = false → e.lanes ≠ []) ∧
  OpsOk e crewOnly [⟨d, .any, ty.regs⟩, ⟨a, req, 2⟩, ⟨b, req, nb * ty.regs⟩] ∧
  (if once then [⟨e.active, e.addr 0 a 0⟩] else e.lanes.map (fun l => (⟨[l], e.addr l a 0⟩ : Part))).all (goodAddr (4 * ty.regs)) = true

/-- An atomic completes: every part that remains has updated its word with `f lane old`. -/
def Updates (s : State) (e : Env) (i : Instr) (m : BitVec 1) (ty : ElemType) (d a b : BitVec 8) (f : Nat → Update) : Prop :=
  ∀ prog t, PartsAnswer e (if !isVec d && (decide (d ≠ 0xC0#8) || (!isVec a && !isVec b)) then [⟨e.active, e.addr 0 a 0⟩]
      else e.lanes.map (fun l => (⟨[l], e.addr l a 0⟩ : Part))) (atomicPart e d ty.regs (4 * ty.regs) f) (opened s) prog t →
    exec i s = .next (e.accessed m i prog t)

end Sys2Proof.Claims

/-- R100 to R102: LDB and LDH extend by TYPE, LDW, LDD and LDQ deliver one, two and four words. -/
def Sys2Proof.Claims.LoadsComplete : Prop :=
  ∀ (s : State) (e : Env) (m : BitVec 1) (d a o : BitVec 8),
    (LoadReady s e d a o.toNat 1 1 → e.typeReserved = false →
      Loads s e (.ldb m d a o) m d a o.toNat 1 (e.extend 8) (splitRead e 1)) ∧
    (LoadReady s e d a (2 * o.toNat) 2 1 → e.typeReserved = false →
      Loads s e (.ldh m d a o) m d a (2 * o.toNat) 1 (e.extend 16) (splitRead e 2)) ∧
    (LoadReady s e d a (4 * o.toNat) 4 1 → Loads s e (.ldw m d a o) m d a (4 * o.toNat) 1 id (splitRead e 4)) ∧
    (LoadReady s e d a (8 * o.toNat) 8 2 → Loads s e (.ldd m d a o) m d a (8 * o.toNat) 2 id (splitRead e 8)) ∧
    (LoadReady s e d a (16 * o.toNat) 16 4 → Loads s e (.ldq m d a o) m d a (16 * o.toNat) 4 id (splitRead e 16))

/-- R103: STB, STH, STW, STD and STQ write 1, 2, 4, 8 and 16 bytes per part. -/
def Sys2Proof.Claims.StoresComplete : Prop :=
  ∀ (s : State) (e : Env) (m : BitVec 1) (d a o : BitVec 8),
    (StoreReady s e d a o.toNat 1 1 → Stores s e (.stb m d a o) m d a o.toNat 1 1) ∧
    (StoreReady s e d a (2 * o.toNat) 2 1 → Stores s e (.sth m d a o) m d a (2 * o.toNat) 2 1) ∧
    (StoreReady s e d a (4 * o.toNat) 4 1 → Stores s e (.stw m d a o) m d a (4 * o.toNat) 4 1) ∧
    (StoreReady s e d a (8 * o.toNat) 8 2 → Stores s e (.std m d a o) m d a (8 * o.toNat) 8 2) ∧
    (StoreReady s e d a (16 * o.toNat) 16 4 → Stores s e (.stq m d a o) m d a (16 * o.toNat) 16 4)

/-- R100 to R103: LDB, LDH, LDW, LDD, LDQ, STB, STH, STW, STD and STQ. -/
def Obligations.LoadsAndStoresComplete : Prop := LoadsComplete ∧ StoresComplete

/-- R266 to R269: LDA and LDAD acquire after they have loaded, STL and STLD release before they store, LDC loads through
the constant cache. -/
def Obligations.OrderedAccessesComplete : Prop :=
  ∀ (s : State) (e : Env) (m : BitVec 1) (d a o : BitVec 8) (prog : Progress) (t : State),
    (LoadReady s e d a (4 * o.toNat) 4 1 →
      PartsAnswer e (loadParts e d a (4 * o.toNat)) (loadPart d 1 id (acquireRead e 4)) (opened s) prog t →
      exec (.lda m d a o) s = .next (e.done m (.lda m d a o) Flow.next (acquire e.th.core e.cid e.scope
        (emitTo e.tid e.sid prog.results prog.flags (modSplit e.tid e.sid (fun sp => { sp with progress := prog }) t))))) ∧
    (LoadReady s e d a (8 * o.toNat) 8 2 →
      PartsAnswer e (loadParts e d a (8 * o.toNat)) (loadPart d 2 id (acquireRead e 8)) (opened s) prog t →
      exec (.ldad m d a o) s = .next (e.done m (.ldad m d a o) Flow.next (acquire e.th.core e.cid e.scope
        (emitTo e.tid e.sid prog.results prog.flags (modSplit e.tid e.sid (fun sp => { sp with progress := prog }) t))))) ∧
    (StoreReady s e d a (4 * o.toNat) 4 1 →
      PartsAnswer (releasedEnv e) (storeParts e a (4 * o.toNat)) (storePart e d 1 4 (releaseWrite e)) (afterRelease s e) prog t →
      exec (.stl m d a o) s = .next (e.accessed m (.stl m d a o) prog t)) ∧
    (StoreReady s e d a (8 * o.toNat) 8 2 →
      PartsAnswer (releasedEnv e) (storeParts e a (8 * o.toNat)) (storePart e d 2 8 (releaseWrite e)) (afterRelease s e) prog t →
      exec (.stld m d a o) s = .next (e.accessed m (.stld m d a o) prog t)) ∧
    (LoadReady s e d a (4 * o.toNat) 4 1 → Loads s e (.ldc m d a o) m d a (4 * o.toNat) 1 id (constRead e))

/-- R229 to R231, R270, R271: LDS and STS within `.spad`, once their banks are active; an unwritten word reads zero and
is logged, unless SPADCHK turns it into a trap. -/
def Obligations.ScratchAccessesComplete : Prop :=
  ∀ (s : State) (e : Env) (m : BitVec 1) (d a o : BitVec 8) (t : State), Issues s e →
    let inSpad (ps : List Part) : Prop := ∀ p ∈ ps, p.va < spadOf (opened s) e.th.launch ∧ p.va % 4 = 0
    (e.takes d → OpsOk e crewOnly [⟨d, .any, 1⟩, ⟨a, if isVec d then .any else .scal, 1⟩] →
      let ps : List Part := if !isVec d then [⟨e.active, e.scratchAddr 0 a o⟩]
        else if !isVec a then [⟨e.lanes, e.scratchAddr 0 a o⟩]
        else e.lanes.map (fun l => ⟨[l], e.scratchAddr l a o⟩)
      inSpad ps → needScratch e (.lds m d a o) ps (opened s) = .ok () t →
      let unwritten := ps.filter (fun p => !scratchValid e t p)
      (e.spadchk = false ∨ unwritten = []) →
      let u := unwritten.foldl (fun s p => logUnwritten e.th.launch p.va s) t
      exec (.lds m d a o) s = .next (e.wrote m (.lds m d a o)
        (ps.flatMap (fun p => loadResults d 1 p (scratchWord e t p))) 0 u)) ∧
    (e.lanes ≠ [] → OpsOk e crewOnly [⟨d, .any, 1⟩, ⟨a, .any, 1⟩] →
      let ps : List Part := if !isVec a then [⟨e.lanes, e.scratchAddr 0 a o⟩]
        else e.lanes.map (fun l => ⟨[l], e.scratchAddr l a o⟩)
      inSpad ps → needScratch e (.sts m d a o) ps (opened s) = .ok () t →
      exec (.sts m d a o) s = .next (e.done m (.sts m d a o) Flow.next (ps.foldl (scratchStore e d) t)))

/-- R274, R275: the atomics, each under the TYPEs that it accepts, with the new value that the table gives it. -/
def Obligations.AtomicsComplete : Prop :=
  ∀ (s : State) (e : Env) (ty : ElemType) (m : BitVec 1) (d a b : BitVec 8),
    (AtomicReady s e ty d a b 1 → ty.n = 1 → ty.isFloat = false →
      Updates s e (.atadd m d a b) m ty d a b (fun l old => ((old + e.val l b ty.regs) % 2 ^ ty.b, 0)) ∧
      Updates s e (.atmin m d a b) m ty d a b (fun l old => pickInt false ty old (e.val l b ty.regs)) ∧
      Updates s e (.atmax m d a b) m ty d a b (fun l old => pickInt true ty old (e.val l b ty.regs)) ∧
      (ty.isSigned = false →
        Updates s e (.atinc m d a b) m ty d a b (fun l old => (if e.val l b ty.regs ≤ old then 0 else old + 1, 0)))) ∧
    (AtomicReady s e ty d a b 1 → ty.n = 1 → ty.isFloat = true →
      Updates s e (.atfadd m d a b) m ty d a b (fun l old => floatAdd e ty old (e.val l b ty.regs))) ∧
    (AtomicReady s e ty d a b 1 →
      Updates s e (.atand m d a b) m ty d a b (fun l old => (old &&& e.val l b ty.regs, 0)) ∧
      Updates s e (.ator m d a b) m ty d a b (fun l old => (old ||| e.val l b ty.regs, 0)) ∧
      Updates s e (.atxor m d a b) m ty d a b (fun l old => (old ^^^ e.val l b ty.regs, 0)) ∧
      Updates s e (.atswp m d a b) m ty d a b (fun l _ => (e.val l b ty.regs, 0))) ∧
    (AtomicReady s e ty d a b 2 →
      Updates s e (.atcas m d a b) m ty d a b (fun l old =>
        (if old = e.val l b ty.regs then e.val l (b + BitVec.ofNat 8 ty.regs) ty.regs else old, 0)))

/-- R278 to R283: FENCE acts at once or opens a checkpoint, PFENCE does the bits that are set in ascending order, CWB,
CINV and CFLUSH act on a range, PREF fills what is absent. -/
def Sys2Proof.Claims.FencesAndCachesComplete : Prop :=
  ∀ (s : State) (e : Env) (m : BitVec 1), Issues s e →
    (∀ (p : BitVec 1) (k : BitVec 2), (p = 0#1 ∨ 2 ≤ k.toNat ∨ e.scope < 2 ∨ e.th.kind ≠ .crew) →
      exec (.fence m p k) s = .next (e.done m (.fence m p k) Flow.next (fenceActs e.th.core e.cid e.scope k.toNat (opened s)))) ∧
    (∀ k : BitVec 2, k.toNat < 2 → 2 ≤ e.scope → e.th.kind = .crew →
      exec (.fence m 1#1 k) s = .next (e.done m (.fence m 1#1 k) Flow.nextClose
        (openSpec (e.afterClose s) k.toNat (closed s e)))) ∧
    (∀ p : BitVec 7, e.th.kind = .crew →
      exec (.pfence m p) s = .next (e.done m (.pfence m p) Flow.next
        ((List.range 7).foldl (fun s i => if p.getLsbD i then pathFence e i s else s) (opened s)))) ∧
    (∀ d a : BitVec 8, OpsOk e crewOnly [⟨d, .scal, 1⟩, ⟨a, .scal, 2⟩] →
      let va := e.addr 0 a 0
      let n := max (e.regs.field 0 d).toNat 1
      rangeOk va n = true →
      let acts (op : CacheOp) : State :=
        let t := cacheCluster op (clusterOf e.th.core) e.cid va n (opened s)
        if 2 ≤ e.scope then cacheL2 op e.scope (dieOf e.th.core) e.cid va n t else t
      exec (.cwb m d a) s = .next (e.done m (.cwb m d a) Flow.next (acts ⟨true, false⟩)) ∧
      exec (.cinv m d a) s = .next (e.done m (.cinv m d a) Flow.next (acts ⟨false, true⟩)) ∧
      exec (.cflush m d a) s = .next (e.done m (.cflush m d a) Flow.next (acts ⟨true, true⟩))) ∧
    (∀ a : BitVec 8, OpsOk e anyKind [⟨a, .any, 2⟩] →
      exec (.pref m a) s = .next (e.done m (.pref m a) Flow.next
        ((if isVec a then e.lanes.map (fun l => e.addr l a 0) else [e.addr 0 a 0]).foldl
          (fun s va => prefetch (clusterOf e.th.core) e.cid e.hint va s) (opened s))))

/-- R237, R284, R285: PIN takes a free window and pins the lines that have room, or says that none is free; UNPIN
releases the window that begins at the address. -/
def Sys2Proof.Claims.PinsComplete : Prop :=
  ∀ (s : State) (e : Env) (m : BitVec 1), Issues s e →
    (∀ d a : BitVec 8, OpsOk e crewOnly [⟨d, .scal, 2⟩, ⟨a, .scal, 2⟩] →
      let va := e.addr 0 a 0
      let n := (e.regs.field 0 d).toNat
      let load := if (e.regs.field 0 (d + 1)).toNat % 256 = 0 then 255 else (e.regs.field 0 (d + 1)).toNat % 256
      let die := dieOf e.th.core
      n ≠ 0 → rangeOk va n = true →
      (freePin (opened s) die = none →
        exec (.pin m d a) s = .next (e.wrote m (.pin m d a)
          [regWrite 0 d (rangeLines va n).length, regWrite 0 (d + 1) 0xFFFFFFFF] 0 (opened s))) ∧
      (∀ w held lost u t, freePin (opened s) die = some w →
        pinFills die e.cid (rangeLines va n) [] (opened s) = (none, u) →
        pinLines die e.cid (rangeLines va n) ([], 0, u) = (held, lost, t) →
        exec (.pin m d a) s = .next (e.wrote m (.pin m d a) [regWrite 0 d lost, regWrite 0 (d + 1) w] 0
          (after 270000 (.pinFadeTick die w) { t with
            pins := Sparse.put t.pins (64 * die + w)
              { cid := e.cid, base := va, size := n, fade := load, load := load, touched := false, lines := held } })))) ∧
    (∀ a : BitVec 8, OpsOk e crewOnly [⟨a, .scal, 2⟩] →
      exec (.unpin m a) s = .next (e.done m (.unpin m a) Flow.next
        (match List.find? (fun (kp : Nat × Pin) => kp.1 / 64 == dieOf e.th.core && kp.2.cid == e.cid
            && kp.2.base == e.addr 0 a 0) (opened s).pins with
         | some kp => dropPin kp.1 (opened s)
         | none => opened s)))

/-- R237, R278 to R285: FENCE, PFENCE, CWB, CINV, CFLUSH, PREF, PIN and UNPIN. -/
def Obligations.FencesCachesPinsComplete : Prop := FencesAndCachesComplete ∧ PinsComplete

/-- R286: SAMPLE through a well formed record whose element is no engine form. -/
def Sys2Proof.Claims.SampleCompletes : Prop :=
  ∀ (s : State) (e : Env) (m : BitVec 1) (d a b : BitVec 8) (sh : Shape) (t u : State) (prog : Progress), Issues s e →
    e.lanes ≠ [] → OpsOk e crewOnly [⟨d, .vect, 1⟩, ⟨a, .scal, 2⟩, ⟨b, .any, 2⟩] →
    readShape e e.lanes (e.addr 0 a 0) (opened s) = .ok sh t → sh.ok = true → engineForm sh.elem = false →
    (e.lanes.map (fun l => (⟨[l], sampleAddr e sh b l⟩ : Part))).all (goodAddr (elemBytes sh.elem)) = true →
    PartsAnswer e (e.lanes.map (fun l => (⟨[l], sampleAddr e sh b l⟩ : Part))) (samplePart e d sh) t prog u →
    exec (.sample m d a b) s = .next (e.accessed m (.sample m d a b) prog u)

/-- R272, R273: FPUSH into a bank with room, FPOP and FTRYPOP of an entry, FTRYPOP of an empty bank, of the launch's own
FIFO bank whose entries fit the crew and which is active. -/
def Sys2Proof.Claims.FifoWordsComplete : Prop :=
  ∀ (s : State) (e : Env) (m : BitVec 1) (d a : BitVec 8), Issues s e →
    let x := (e.regs.field 0 a).toNat
    let cl := clusterOf e.th.core
    let k := getBank (opened s) cl (x % 64)
    x < 64 → k.mode = .fifo → k.owner = some e.th.launch → k.entryBytes = 4 * e.th.width → k.pwr = .active →
    let t := touchBank cl x (opened s)
    (OpsOk e crewOnly [⟨d, .vect, 1⟩, ⟨a, .scal, 1⟩] → k.fifo.length < k.capacity →
      exec (.fpush m d a) s = .next (e.done m (.fpush m d a) Flow.next (giveEntry cl x (pushEntry e d) false t))) ∧
    (∀ y u, OpsOk e crewOnly [⟨d, .vect, 1⟩, ⟨a, .scal, 1⟩] → popEntry cl x t = (some y, u) → y.poison = false →
      exec (.fpop m d a) s = .next (e.wrote m (.fpop m d a)
        (e.lanes.map (fun l => regWrite l d (leNat ((y.bytes.drop (4 * l)).take 4)))) 0 u)) ∧
    (OpsOk e crewOnly [⟨d, .vect, 1⟩, ⟨a, .scal, 1⟩] → d.toNat + 2 ≤ e.th.vregs →
      (∀ y u, popEntry cl x t = (some y, u) → y.poison = false →
        exec (.ftrypop m d a) s = .next (e.wrote m (.ftrypop m d a) (e.lanes.map (fun l => regWrite l (d + 1) 0)) 0
          (emitTo e.tid e.sid (e.lanes.map (fun l => regWrite l d (leNat ((y.bytes.drop (4 * l)).take 4)))) 0 u))) ∧
      (∀ u, popEntry cl x t = (none, u) →
        exec (.ftrypop m d a) s = .next (e.wrote m (.ftrypop m d a) (e.lanes.map (fun l => regWrite l (d + 1) 1)) 0 u)))

/-- R225, R287 to R290: BANKQ, BANKMODE and BANKPWR of a cluster of the launch, and BWPHASE. -/
def Sys2Proof.Claims.BankWordsComplete : Prop :=
  ∀ (s : State) (e : Env) (m : BitVec 1) (a : BitVec 8) (r : BitVec 4) (c : BitVec 5), Issues s e → e.th.kind = .crew →
    (∀ (n : BitVec 8) (h : BitVec 2),
      exec (.bwphase m n h) s = .next (e.wrote m (.bwphase m n h)
        [.special 0 0x100 (BitVec.ofNat 64 (h.toNat + 4 * n.toNat))] 0 (opened s))) ∧
    (let cl := 8 * r.toNat + c.toNat
     let x := (e.regs.field 0 a).toNat
     let b := x % 64
     let k := getBank (opened s) cl b
     OpsOk e crewOnly [⟨a, .scal, 2⟩] → launchCluster (opened s) e.th.launch cl = true →
     (x < 64 → exec (.bankq m a r c) s = .next (e.wrote m (.bankq m a r c) (regWrites 0 a (mapEntry (opened s) cl b) 2) 0 (opened s))) ∧
     (let tgt := bankModeOf (bits x 8 2)
      let st := bankmodeStatus (opened s) e.th.launch cl b tgt
      bits x 6 2 = 0 → bits x 10 2 = 0 → bits x 15 17 = 0 → (tgt = .fifo → bits x 12 3 < 6) →
      (st ≠ 0 ∨ tgt = .unallocated ∨ k.mode = tgt ∨ k.pwr = .active) →
      exec (.bankmode m a r c) s = .next (e.wrote m (.bankmode m a r c) [regWrite 0 (a + 1) st] 0
        (if st = 0 then switchBank (opened s) e.th.launch cl b tgt (bits x 12 3) else opened s))) ∧
     (bits x 6 2 = 0 → bits x 10 22 = 0 → k.pwr ≠ .waking →
      let put (st : Nat) (t : State) : Prop :=
        exec (.bankpwr m a r c) s = .next (e.wrote m (.bankpwr m a r c) [regWrite 0 (a + 1) st] 0 t)
      (bits x 8 2 = 0 → k.pwr = .active → put 0 (opened s)) ∧
      (bits x 8 2 = 1 → k.owner = some e.th.launch → mayRetain (opened s) k = true →
        put 0 (modBank cl b (fun k => { k with pwr := .retention }) (opened s))) ∧
      (bits x 8 2 = 1 → (k.owner ≠ some e.th.launch ∨ mayRetain (opened s) k = false) → put 1 (opened s)) ∧
      (bits x 8 2 = 2 → k.mode = .unallocated →
        put 0 (modBank cl b (fun k => { k with pwr := .deepOff, data := [], valid := [], fifo := [] }) (opened s))) ∧
      (bits x 8 2 = 2 → k.mode = .cache ∧ k.pwr = .deepOff → put 0 (opened s)) ∧
      (bits x 8 2 = 2 → ¬ (k.mode = .cache ∧ k.pwr = .deepOff) → k.mode ≠ .unallocated →
        mayPowerOff (opened s) cl b = true → put 0 (modBank cl b (fun k => { k with pwr := .deepOff, data := [] }) (clearWay cl b (opened s)))) ∧
      (bits x 8 2 = 2 → ¬ (k.mode = .cache ∧ k.pwr = .deepOff) → k.mode ≠ .unallocated →
        mayPowerOff (opened s) cl b = false → put 1 (opened s))))

/-- R225, R272, R273, R286 to R290: SAMPLE, FPUSH, FPOP, FTRYPOP, BANKQ, BANKMODE, BANKPWR and BWPHASE. -/
def Obligations.SampleFifoBankWordsComplete : Prop := SampleCompletes ∧ FifoWordsComplete ∧ BankWordsComplete

/-! ## Tiles, copies, sequencers and the matrix engine -/

namespace Sys2Proof.Claims
open Sys2Proof.Machine

/-- A tile access finds its tile, and every lane's element lies in it at an aligned address (R101, R297). -/
abbrev TileReady (s : State) (e : Env) (d a b : BitVec 8) (t : Tile) : Prop :=
  Issues s e ∧ e.lanes ≠ [] ∧ tileOf (opened s) e.cid (e.regs.field 0 a).toNat = some t ∧
  OpsOk e crewOnly [⟨d, .vect, 1⟩, ⟨a, .scal, 1⟩, ⟨b, .vect, 1⟩] ∧ OpsOk e crewOnly [⟨d, .vect, elemRegs t.shape.elem⟩] ∧
  (∀ l ∈ e.lanes, (e.regs.field l b).toNat < t.shape.count) ∧
  (e.lanes.map (fun l => (⟨[l], t.shape.elemAddr (e.regs.field l b).toNat⟩ : Part))).all (goodAddr (elemBytes t.shape.elem)) = true

/-- The parts of a tile access: one per lane, at the lane's element. -/
def tileParts (e : Env) (b : BitVec 8) (t : Tile) : List Part :=
  e.lanes.map (fun l => ⟨[l], t.shape.elemAddr (e.regs.field l b).toNat⟩)

/-- The control word of a copy command. -/
def control (e : Env) (d : BitVec 8) : Nat := if d = 0xC0#8 then 0 else (e.regs.field 0 d).toNat

/-- A copy word issues with operands that pass, a legal control word, and room in its cluster's queue. -/
abbrev CopyReady (s : State) (e : Env) (who : List Kind) (d a b : BitVec 8) : Prop :=
  Issues s e ∧ OpsOk e who [⟨d, .scal, 2⟩, ⟨a, .scal, 2⟩, ⟨b, .scal, 2⟩] ∧ control e d < 16 ∧
  copyRoom (opened s) (clusterOf e.th.core) e.tid e.sid = true

/-- The promise of a command: the estimates still to run in the queue, and its own (R319). -/
def promised (s : State) (e : Env) (est : Nat) : Nat :=
  s.chiptime + ((getCluster s (clusterOf e.th.core)).copyq.map (fun c => c.left s.chiptime)).foldl (· + ·) 0 + est

/-- The state in which a command has joined its queue, and D receives its promise unless D is CZ. -/
def accepted (s : State) (e : Env) (d : BitVec 8) (kind : CopyKind) (ssp dsp link : Nat) (r : Records) (peers : Nat × Nat)
    (group op : Nat) : State :=
  let cl := clusterOf e.th.core
  let est := copyEstimate s e ssp dsp link r
  emitTo e.tid e.sid (if d = 0xC0#8 then [] else regWrites 0 d (promised s e est) 2) 0
    (due [.copyCommandStart cl] (linkCopy cl ssp r.src.shape { modCluster cl (fun c => { c with
      copyq := c.copyq ++ [newCopy s e (scratchKey s e.th) kind ssp dsp est (promised s e est) r peers group op] }) s with
        links := s.links + 1 }))

/-- The state in which an operation has joined the queue of a core's engine. -/
def queued (e : Env) (k : OpKind) (s : State) : State :=
  due (startEvents e.th.core) (pumpOps e.th.core 9 (modCore e.th.core (fun c => { c with ops := c.ops ++ [newOp e k] }) s))

/-- The queue of a core's engine has room. -/
abbrev EngineRoom (s : State) (e : Env) : Prop := (getCore s e.th.core).ops.length < Config.engineQueue

/-- A register names a bank group that passes R362. -/
abbrev GroupOk (s : State) (e : Env) (f : BitVec 8) : Prop :=
  let x := (e.regs.field 0 f).toNat
  bits x 8 24 = 0 ∧ bits x 0 6 + 2 ^ bits x 6 2 ≤ 64 ∧ ∀ i, i < 2 ^ bits x 6 2 →
    let k := getBank s (clusterOf e.th.core) (bits x 0 6 + i)
    k.mode = .fifo ∧ k.owner = some e.th.launch ∧ k.entryBytes = 256

/-- The first bank and the number of banks of a group. -/
def groupOf (e : Env) (f : BitVec 8) : Nat × Nat :=
  (bits (e.regs.field 0 f).toNat 0 6, 2 ^ bits (e.regs.field 0 f).toNat 6 2)

end Sys2Proof.Claims

/-- R252 to R257, R291 to R296: TOPEN, TCLOSE, TACQR, TACQW, TREL, TQUERY, TSPLIT and LMSG. -/
def Sys2Proof.Claims.TileWordsComplete : Prop :=
  ∀ (s : State) (e : Env) (m : BitVec 1), Issues s e →
    (∀ (d a : BitVec 8) (sh : Shape) (t : State), OpsOk e crewOnly [⟨d, .scal, 1⟩, ⟨a, .scal, 2⟩] →
      tileRecord e (e.addr 0 a 0) (opened s) = .ok sh t → beingAcquired t e sh = none →
      exec (.topen m d a) s = .next (match openAt t e.cid sh with
        | some key => e.wrote m (.topen m d a) [regWrite 0 d (handleOf key (nextGen t key))] 0 (enterTile e.cid key sh t)
        | none => e.wrote m (.topen m d a) [regWrite 0 d 0] 0 t)) ∧
    (∀ (a : BitVec 8) (t : Tile), OpsOk e crewOnly [⟨a, .scal, 1⟩] →
      tileOf (opened s) e.cid (e.regs.field 0 a).toNat = some t →
      let key := handleKey (e.regs.field 0 a).toNat
      (t.asked (opened s) e.tid e.sid = false →
       exec (.tclose m a) s = .next (e.done m (.tclose m a) Flow.next (closeTile key (opened s)))) ∧
      (∀ u : State, askTileRead (dieOf e.th.core) key t (opened s) = (none, u) →
       exec (.tacqr m a) s = .next (e.done m (.tacqr m a) Flow.next (acquireTileRead (dieOf e.th.core) key t u))) ∧
      (let v := acceptAcquire key e.tid e.sid (opened s)
       ∀ u : State, asksBefore v key e.tid e.sid = false → askTileWrite (dieOf e.th.core) key t v = (none, u) →
       awaited u (dieOf e.th.core) e.cid t.shape.lines = none →
       exec (.tacqw m a) s = .next (e.done m (.tacqw m a) Flow.next (acquireTileWrite (dieOf e.th.core) key e.tid e.sid t u))) ∧
      exec (.trel m a) s = .next (e.done m (.trel m a) Flow.next (modTile key (fun x =>
        { x with tenure := Sparse.erase x.tenure (dieOf e.th.core) }) (opened s)))) ∧
    (∀ d a : BitVec 8, OpsOk e crewOnly [⟨d, .scal, 1⟩, ⟨a, .scal, 1⟩] →
      exec (.tquery m d a) s = .next (e.wrote m (.tquery m d a)
        [regWrite 0 d (match tileOf (opened s) e.cid (e.regs.field 0 a).toNat with
          | some t => t.query (dieOf e.th.core)
          | none => 0)] 0 (opened s))) ∧
    (∀ (d a b : BitVec 8) (t : Tile), OpsOk e crewOnly [⟨d, .scal, 2⟩, ⟨a, .scal, 1⟩, ⟨b, .scal, 2⟩] →
      tileOf (opened s) e.cid (e.regs.field 0 a).toNat = some t →
      let dim := (e.regs.field 0 b).toNat
      let x := (e.regs.field 0 (b + 1)).toNat
      let n := t.shape.ext.getD dim 0
      dim < 4 → dim < t.shape.rank → 0 < x → x < n →
      let lo := t.shape.cut dim x 0
      let hi := t.shape.cut dim (n - x) x
      exec (.tsplit m d a b) s = .next (match childKeys (opened s) e.cid lo hi with
        | none => e.wrote m (.tsplit m d a b) (regWrites 0 d 0 2) 0 (opened s)
        | some (i, j) =>
          let s1 := closeTile (handleKey (e.regs.field 0 a).toNat) (opened s)
          e.wrote m (.tsplit m d a b)
            (regWrites 0 d (handleOf i (nextGen (opened s) i) + 2 ^ 32 * handleOf j (nextGen (opened s) j)) 2) 0
            (childOf t j (enterTile e.cid j hi (childOf t i (enterTile e.cid i lo s1)))))) ∧
    (∀ (a : BitVec 8) (r : BitVec 4) (c : BitVec 5), OpsOk e crewOnly [⟨a, .vect, 1⟩] →
      exec (.lmsg m a r c) s = .next (e.done m (.lmsg m a r c) Flow.next
        (sendMessage e (sliceOf r.toNat c.toNat) (messageWords e a) (release e.th.core 2 (opened s)))))

/-- R297, R439: TLD and TST, once every part that remains has answered. -/
def Sys2Proof.Claims.TileAccessesComplete : Prop :=
  ∀ (s : State) (e : Env) (m : BitVec 1) (d a b : BitVec 8) (t : Tile) (prog : Progress) (u : State), TileReady s e d a b t →
    (PartsAnswer e (tileParts e b t) (fun p s =>
        match gotBytes (tileRead e (t.owned (dieOf e.th.core) (p.va / 128) false) p.va (elemBytes t.shape.elem) s) with
        | (.error c, s) => (.error c, s)
        | (.ok bs, s) => (.ok (loadResults d (elemRegs t.shape.elem) p (placeElem t.shape.elem (leNat bs)), 0), s))
        (opened s) prog u →
      exec (.tld m d a b) s = .next (e.accessed m (.tld m d a b) prog u)) ∧
    (PartsAnswer e (tileParts e b t) (fun p s =>
        match tileWrite e (t.owned (dieOf e.th.core) (p.va / 128) true) p.va
            (storeBytes e d (elemRegs t.shape.elem) (elemBytes t.shape.elem) p) s with
        | (.error c, s) => (.error c, s)
        | (.ok _, s) => (.ok ([], 0), s)) (opened s) prog u →
      exec (.tst m d a b) s = .next (e.accessed m (.tst m d a b) prog u))

/-- R252 to R256, R291 to R296: the tile words and the tile accesses. -/
def Obligations.TileWordsAndAccessesComplete : Prop := TileWordsComplete ∧ TileAccessesComplete

/-- R318, R319, R348 to R351, R353, R354, R361: COPY, COPYG and COLLECT join the queue of their cluster's copy engine
once their records pass; PUBLISH goes on, with an acquire, once the selector has flipped. -/
def Obligations.CopyWordsComplete : Prop :=
  ∀ (s : State) (e : Env) (m : BitVec 1) (d a b : BitVec 8),
    (CopyReady s e [.crew, .scout, .cseq] d a b →
      (∀ (src dst : Named) (t1 t2 t3 t4 : State),
        checkRecords e [e.addr 0 a 0, e.addr 0 b 0] (opened s) = .ok () t1 →
        namedShape e (e.addr 0 a 0) t1 = .ok src t2 → namedShape e (e.addr 0 b 0) t2 = .ok dst t3 →
        checkCopy e ⟨src, none, dst⟩ (control e d % 4) (control e d / 4) t3 = .ok () t4 →
        exec (.copy m d a b) s = .next (e.done m (.copy m d a b) Flow.next
          (accepted t4 e d .copy (control e d % 4) (control e d / 4) 0 ⟨src, none, dst⟩ (0, 0) 0 0))) ∧
      (∀ (src idx dst : Named) (t1 t2 t3 t4 t5 : State),
        checkRecords e [e.addr 0 a 0, e.addr 0 b 0, e.addr 0 b 64] (opened s) = .ok () t1 →
        namedShape e (e.addr 0 a 0) t1 = .ok src t2 → namedShape e (e.addr 0 b 0) t2 = .ok idx t3 →
        namedShape e (e.addr 0 b 64) t3 = .ok dst t4 →
        checkCopy e ⟨src, some idx, dst⟩ (control e d % 4) (control e d / 4) t4 = .ok () t5 →
        exec (.copyg m d a b) s = .next (e.done m (.copyg m d a b) Flow.next
          (accepted t5 e d .gather (control e d % 4) (control e d / 4) 0 ⟨src, some idx, dst⟩ (0, 0) 0 0)))) ∧
    (CopyReady s e [.crew, .cseq] d a b → control e d % 4 ≠ 3 → control e d / 4 ≠ 3 →
      ∀ (bs : List Byte) (src dst : Named) (t1 t2 t3 t4 t5 t6 t7 : State),
        checkRecords e [e.addr 0 a 0, e.addr 0 b 0] (opened s) = .ok () t1 →
        oneRead e e.active (e.addr 0 b 0) (recordSource e.th.core e.cid (e.addr 0 b 0)) t1 = .ok bs t2 →
        checkRecords e [recField bs 0 8] t2 = .ok () t3 →
        namedShape e (e.addr 0 a 0) t3 = .ok src t4 → namedShape e (recField bs 0 8) t4 = .ok dst t5 →
        checkCollectForms e src dst t5 = .ok () t6 → checkStrides e [(0, src), (0, dst)] t6 = .ok () t7 →
        collectBad t7 e (control e d) bs src.shape dst.shape = false →
        let peers := groupEntry t7 e.cid (recField bs 8 4)
        exec (.collect m d a b) s = .next (e.done m (.collect m d a b) Flow.next
          (accepted t7 e d .collect 0 0 (linkTerm t7 (groupDevices t7 e.cid (recField bs 8 4)) peers.1 (recField bs 12 1) src.shape.size) ⟨src, none, dst⟩ peers
            (recField bs 8 4) (recField bs 12 1)))) ∧
    (Resumes s e .go → OpsOk e [.crew, .cseq] [⟨a, .scal, 1⟩] →
      exec (.publish m a) s = .next (e.done m (.publish m a) Flow.nextClose (acquire e.th.core e.cid 2 (closed s e))))

/-- R332 to R334, R345, R358 to R360: FORK starts the sequencers that it names when they are free, RDV takes their
results when they have ended; both go on where the gang's latch has done so. -/
def Obligations.SequencerWordsComplete : Prop :=
  ∀ (s : State) (e : Env) (m : BitVec 1),
    (∀ d a b : BitVec 8, OpsOk e [.crew, .scout] [⟨d, .scal, 2⟩, ⟨a, .scal, 2⟩, ⟨b, .scal, 2⟩] →
      (Resumes s e .go → exec (.fork m d a b) s = .next (e.done m (.fork m d a b) Flow.next (opened s))) ∧
      (∀ t : State, Issues s e → e.ganged = false → forkEffect e d a b (opened s) = .ok () t →
        exec (.fork m d a b) s = .next (e.done m (.fork m d a b) Flow.next t))) ∧
    (∀ (d : BitVec 8) (f : BitVec 2), OpsOk e [.crew, .scout] [⟨d, .scal, 1⟩] →
      let c := e.afterClose s
      let ends (x fl : Word) (t : State) : State := e.done m (.rdv m d f) Flow.nextClose
        (acquire e.th.core e.cid 2 (emitTo e.tid e.sid [regWrite 0 d x.toNat] fl t))
      (∀ x fl : Word, Resumes s e (.result x fl) → exec (.rdv m d f) s = .next (ends x fl (closed s e))) ∧
      (Issues s e → c.ganged = false → rdvBusy (closed s e) e.th.core (c.owner (closed s e)) f = false →
        let r := rdvTake (closed s e) e.th.core (c.owner (closed s e)) f
        exec (.rdv m d f) s = .next (ends r.1 r.2.1 r.2.2)))

/-- R362 to R371: MLDS, MONES, MSWAP, MSTREAM, MDRAIN, MZERO and MSHADOW of the matrix sequencer, with room in the
engine's queue. -/
def Obligations.EngineWordsComplete : Prop :=
  ∀ (s : State) (e : Env) (m : BitVec 1), Issues s e → e.th.kind = .mseq →
    let mode := e.regs.xmode
    (∀ k : BitVec 2, exec (.mones m k) s = .next (e.done m (.mones m k) Flow.next
      (modCore e.th.core (fun c => { c with mones := k.toNat }) (opened s)))) ∧
    (EngineRoom (opened s) e → exec (.mswap m) s = .next (e.done m (.mswap m) Flow.next (queued e .swap (opened s)))) ∧
    (∀ a : BitVec 8, OpsOk e mseqOnly [⟨a, .scal, 1⟩] →
      (e.regs.field 0 a = 0 → exec (.mzero m a) s = .next (e.done m (.mzero m a) Flow.next (opened s))) ∧
      (0 < (e.regs.field 0 a).toNat → (e.regs.field 0 a).toNat < 16 → EngineRoom (opened s) e →
        exec (.mzero m a) s = .next (e.done m (.mzero m a) Flow.next
          (queued e (.zero (e.regs.field 0 a).toNat) (opened s))))) ∧
    (∀ f : BitVec 1, shbankOk (opened s) e.th.core e.th.launch = true → EngineRoom (opened s) e →
      exec (.mshadow m f) s = .next (e.done m (.mshadow m f) Flow.next
        (queued e (if f = 0#1 then .save else .restore) (opened s)))) ∧
    (∀ a b : BitVec 8, OpsOk e mseqOnly [⟨a, .scal, 1⟩, ⟨b, .scal, 2⟩] → xLegal mode = true →
      (b = 0xC0#8 → a ≠ 0xC0#8 → GroupOk (opened s) e a → EngineRoom (opened s) e →
        exec (.mlds m a b) s = .next (e.done m (.mlds m a b) Flow.next
          (queued e (.load (some (groupOf e a)) none 0) (opened s)))) ∧
      (∀ (sh : Shape) (t : State), b ≠ 0xC0#8 → a = 0xC0#8 →
        engineRecord e b (xSfmt mode) false (opened s) = .ok sh t → EngineRoom t e →
        exec (.mlds m a b) s = .next (e.done m (.mlds m a b) Flow.next
          (queued e (.load none (some sh) (e.regs.pair 0 b)) t)))) ∧
    (∀ d a b : BitVec 8, OpsOk e mseqOnly [⟨d, .scal, 1⟩, ⟨a, .scal, 1⟩, ⟨b, .scal, 1⟩] → xLegal mode = true →
      let x := (e.regs.field 0 d).toNat
      let rows := (e.regs.field 0 b).toNat
      let sel := (getCore (opened s) e.th.core).mones
      bits x 9 23 = 0 → rows ≤ 4096 → GroupOk (opened s) e a →
      (rows = 0 → exec (.mstream m d a b) s = .next (e.done m (.mstream m d a b) Flow.next (opened s))) ∧
      (rows ≠ 0 → (sel = 0 ∨ rows ≤ passRows mode) → EngineRoom (opened s) e →
        exec (.mstream m d a b) s = .next (e.done m (.mstream m d a b) Flow.next
          (modCore e.th.core (fun c => { c with mones := 0 })
            (queued e (.stream (bits x 0 2) (bits x 2 7) rows sel (groupOf e a)) (opened s)))))) ∧
    (∀ d a b : BitVec 8, OpsOk e mseqOnly [⟨d, .scal, 1⟩, ⟨a, .scal, 1⟩, ⟨b, .scal, 2⟩] → xLegal mode = true →
      let x := (e.regs.field 0 d).toNat
      let fmt := bits x 2 4
      bits x 7 25 = 0 → drainFmtOk mode fmt = true →
      (b = 0xC0#8 → a ≠ 0xC0#8 → GroupOk (opened s) e a → EngineRoom (opened s) e →
        exec (.mdrain m d a b) s = .next (e.done m (.mdrain m d a b) Flow.next
          (queued e (.drain (bits x 0 2) fmt (bit x 6) (some (groupOf e a)) none) (opened s)))) ∧
      (∀ (sh : Shape) (t : State), b ≠ 0xC0#8 → a = 0xC0#8 → engineRecord e b fmt true (opened s) = .ok sh t →
        EngineRoom t e →
        exec (.mdrain m d a b) s = .next (e.done m (.mdrain m d a b) Flow.next
          (queued e (.drain (bits x 0 2) fmt (bit x 6) none (some sh)) t))))

/-! ## Events -/

/-- R44 to R46, R376: a word without a meaning traps ILLEGAL, in the lanes of its guard when one governs it; where that
leaves it no lane it has no effect. -/
def Obligations.IllegalWordsTrap : Prop :=
  ∀ (s : State) (e : Env) (check : Nat) (g : WordGuard), Issues s e →
    (g.guarded = true → e.lanes ≠ [] →
      exec (.illegalInstruction check g) s = .next (raiseTrap e.tid e.sid (openTrap s e causeIllegal check e.lanes 0) (opened s))) ∧
    (g.guarded = false →
      exec (.illegalInstruction check g) s = .next (raiseTrap e.tid e.sid (openTrap s e causeIllegal check e.active 0) (opened s))) ∧
    (g.guarded = true → e.lanes = [] →
      exec (.illegalInstruction check g) s = .next (e.done g.marker (.illegalInstruction check g) Flow.next (opened s)))

/-- R157, R177, R205 to R207, R217, R393, R395, R413 to R416: CREW_START, SHARE_START, BARRIER_COMPLETE, WAITER_RELEASE,
LAUNCH_RECORD_DISPATCH, LAUNCH_END and IMAGE_SWITCH. -/
def Obligations.LaunchEventsComplete : Prop :=
  ∀ s : State,
    (∀ (k crew : Nat) (l : Launch), Sparse.find? s.launches k = some l → l.firstInLine crew = true → l.record.scout = 0xFFFFFFFF →
      l.suspended = false → partRuns s l.part = true → banksAwake s l = true → mayStart s l (homeCore l crew) = true →
      1 ≤ freePlaces s (homeCore l crew) k l.record →
      exec (.crewStart k crew) s = .next (due (startsAt (startCrew k l crew s) (homeCore l crew)) (startCrew k l crew s))) ∧
    (∀ (k share c : Nat) (cs : List Nat) (l : Launch), Sparse.find? s.launches k = some l → shareWaiting l share = c :: cs →
      l.firstInLine c = true → shareHeld l share = false → l.record.scout ≠ 0xFFFFFFFF →
      l.suspended = false → partRuns s l.part = true → banksAwake s l = true → mayStart s l (homeCore l c) = true →
      shareBusy s k l c = false → (c :: cs).length ≤ freePlaces s (homeCore l c) k l.record →
      exec (.shareStart k share) s = .next (startScout k share l ((shareCrews l share).headD c) (c :: cs)
        ((c :: cs).foldl (fun s x => startCrew k l x s) s))) ∧
    (∀ (k circle : Nat) (c : Machine.Circle), Sparse.find? s.circles (circleKey k circle) = some c → c.full = true →
      exec (.barrierComplete k circle) s = .next (completeBarrier k circle c s)) ∧
    (∀ (tid sid : Nat) (sp : Split), getSplit s tid sid = some sp →
      (sp.handed.isSome = true ∨ sp.wait = none → exec (.waiterRelease tid sid) s = .next (activate tid sid s)) ∧
      (∀ w, sp.handed = none → sp.wait = some w → exec (.waiterRelease tid sid) s = .next (examine tid sid sp w s))) ∧
    (∀ (k : Nat) (q : Queue), Sparse.find? s.queues k = some q → dispatchOpen s q = true →
      let a := q.base + 128 * (q.head % 2 ^ q.log)
      let key := Sparse.freshKey s.launches (s.launches.length + 1) 1
      (∀ j, queueAhead s k = some j →
        exec (.launchRecordDispatch k) s = .next (due [.launchRecordDispatch j, .launchRecordDispatch k] s)) ∧
      (queueAhead s k = none → fateOf s key q.part a = .waits → exec (.launchRecordDispatch k) s = .next s) ∧
      (∀ l gs, queueAhead s k = none → fateOf s key q.part a = .starts l gs →
        exec (.launchRecordDispatch k) s = .next (due [.launchRecordDispatch k] (startLaunch key l gs (consume k false s)))) ∧
      (∀ reason, queueAhead s k = none → fateOf s key q.part a = .rejected reason →
        exec (.launchRecordDispatch k) s = .next (postTo (leadOf s q.part)
          { seq := 0, flg := 0, skind := 5, sidx := 0, type := 2, cid := recNat s a 70 2, launch := 0, who := 0,
            arg0 := reason, arg1 := 0 } (consume k true s)))) ∧
    (∀ (k : Nat) (l : Launch), Sparse.find? s.launches k = some l → launchDone k s = true →
      let r := completionWord l.record (flushContext l.record.cid s)
      let t := idleRaises (giveBack l (freeLaunch k (post l.record.cid 5 0 1 l.ident 0 l.requeued (ofBool (!r.1)) r.2)))
      exec (.launchEnd k) s = .next (l.mapping.eraseDups.foldl (fun s core => placeFreed core s) (due (waitingQueues t) t))) ∧
    (∀ (k : Nat) (l : Launch), Sparse.find? s.launches k = some l →
      exec (.imageSwitch k) s = .next (mapPrograms k (Thread.refresh (rebake l))
        (writeImage k (modLaunch k (fun x => { x with fresh := rebake l }) s))))

/-- R226 to R228, R232, R284: BANK_RETENTION_ENTRY, BANK_DEEP_OFF_ENTRY, BANK_WAKE_COMPLETE, CACHE_BANK_POWER_OFF,
FIFO_WAITER_RETRY, PIN_FADE_TICK, PIN_WINDOW_FADED. -/
def Obligations.BankAndPinEventsComplete : Prop :=
  ∀ (s : State) (cl b : Nat),
    ((getBank s cl b).pwr = .active → mayRetain s (getBank s cl b) = true →
      idleSince s (getBank s cl b) + Config.retentionIdle ≤ s.chiptime →
      exec (.bankRetentionEntry cl b) s = .next (modBank cl b (fun k => { k with pwr := .retention }) s)) ∧
    ((getBank s cl b).mode = .unallocated → (getBank s cl b).pwr ≠ .deepOff → (getBank s cl b).pwr ≠ .waking →
      (getBank s cl b).lastAt + Config.deepOffIdle ≤ s.chiptime →
      exec (.bankDeepOffEntry cl b) s =
        .next (modBank cl b (fun k => { k with pwr := .deepOff, data := [], valid := [], fifo := [] }) s)) ∧
    ((getBank s cl b).pwr = .waking →
      ∃ t, exec (.bankWakeComplete cl b) s = .next t ∧ (getBank t cl b).pwr = .active ∧ (getBank t cl b).data = (getBank s cl b).data ∧
        (getBank t cl b).fifo = (getBank s cl b).fifo ∧ t.mem = s.mem) ∧
    (mayPowerOff s cl b = true →
      exec (.cacheBankPowerOff cl b) s = .next (modBank cl b (fun k => { k with pwr := .deepOff, data := [] }) (clearWay cl b s))) ∧
    (∀ (tid sid x y : Nat) (sp : Split) (w : Wait), getSplit s tid sid = some sp → sp.wait = some w → w.obj = .fifoFull x y →
      exec (.fifoWaiterRetry tid sid) s = .next (wake tid sid (modSplit tid sid (fun sp => { sp with handed := none }) s))) ∧
    (∀ (die win : Nat) (p : Pin), Sparse.find? s.pins (64 * die + win) = some p →
      let fade := if p.touched then p.fade else p.fade - 1
      let t := { s with pins := Sparse.put s.pins (64 * die + win) { p with fade := fade, touched := false } }
      (fade ≠ 0 → exec (.pinFadeTick die win) s = .next (after Config.pinTick (.pinFadeTick die win) t)) ∧
      (fade = 0 → exec (.pinFadeTick die win) s = .next (after 1 (.pinWindowFaded die win) t)) ∧
      (p.fade = 0 → exec (.pinWindowFaded die win) s =
        .next (post p.cid 2 (homeSlice p.cid p.base) 10 0 0 p.base 0 (dropPin (64 * die + win) s))) ∧
      (p.fade ≠ 0 → exec (.pinWindowFaded die win) s = .next (after (Config.pinTick - 1) (.pinFadeTick die win) s)))

/-- R249 to R251, R258 to R260, R280: the coherence messages (a die asks for a line once it has a way for it), HOST_SNOOP,
the host's loads and stores of memory, and SPEC_FENCE_COMPLETE. -/
def Obligations.CoherenceEventsComplete : Prop :=
  ∀ (s : State) (die cid line : Nat),
    (∀ t, wayFor die cid line s = (true, t) →
      exec (.reqs die cid line) s = .next (deliver (.reqs die cid line) (askCopy die (lineKey cid line) false t)) ∧
      exec (.reqm die cid line) s = .next (deliver (.reqm die cid line) (askCopy die (lineKey cid line) true t)) ∧
      exec (.upg die cid line) s = .next (deliver (.upg die cid line) (askCopy die (lineKey cid line) true t))) ∧
    (∀ t, wayFor die cid line s = (false, t) →
      ∀ i ∈ [Instr.reqs die cid line, .reqm die cid line, .upg die cid line], exec i s = .next t) ∧
    exec (.wb die cid line) s = .next (evictCopy die cid line s) ∧
    exec (.inv die cid line) s = .next (deliver (.inv die cid line) s) ∧
    (∀ req, exec (.fwds die cid line req) s = .next (deliver (.fwds die cid line req) s)) ∧
    (∀ req, exec (.fwdm die cid line req) s = .next (deliver (.fwdm die cid line req) s)) ∧
    exec (.recall die cid line) s = .next (deliver (.recall die cid line) s) ∧
    (∀ g, exec (.data die cid line g) s = .next (deliver (.data die cid line g) s)) ∧
    exec (.ack die cid line) s = .next (deliver (.ack die cid line) s) ∧
    exec (.upgack die cid line) s = .next (deliver (.upgack die cid line) s) ∧
    exec (.wback die cid line) s = .next (deliver (.wback die cid line) s) ∧
    exec (.alreadywb die cid line) s = .next (deliver (.alreadywb die cid line) s) ∧
    (∀ p, reverseLines s die p = [] → exec (.hostSnoop die p) s = .next (answer [0] s)) ∧
    (∀ p, reverseLines s die p ≠ [] → exec (.hostSnoop die p) s = .next
      ((reverseLines s die p).foldl (fun t k => snoopLine die k (Config.freeBool s.fresh) t) { s with fresh := s.fresh + 1 })) ∧
    (hostReady s = true →
      (∀ pa n, pa < Config.hbmBytes → exec (.hostCxlMemRead pa n) s = .next (hostAccess (.read pa n) s)) ∧
      (∀ pa bs, pa < Config.hbmBytes → exec (.hostCxlMemWrite pa bs) s = .next (hostAccess (.write pa bs) s)) ∧
      (∀ o : HostOp, (∀ kl ∈ linesOf s (hostPlace s o / 128), kl.2.txn = none) → hostAccess o s = hostPerform o s)) ∧
    (∀ (tid sid : Nat) (sp : Split) (x : Spec), getSplit s tid sid = some sp → sp.spec = some x →
      (x.hit = false → exec (.specFenceComplete tid sid) s = .next (completeSpec tid sid x s)) ∧
      (x.hit = true → x.rollbacks + 1 < 4 → exec (.specFenceComplete tid sid) s = .next (rollback tid sid x s)) ∧
      (x.hit = true → 4 ≤ x.rollbacks + 1 → exec (.specFenceComplete tid sid) s =
        .next (completeSpec tid sid { x with held := none, fault := none } (rollback tid sid x s))))

/-- R247, R248, R339 to R344: the Lantern cores: a handler starts, runs an instruction, ends, or is aborted unless it has
written DONE; PCMD starts the operation that the port registers name, or is refused; an operation whose pages do not change
their bias performs, and its end shows its status and lets a handler that has written DONE end. -/
def Obligations.LanternEventsComplete : Prop :=
  ∀ (s : State) (slice : Nat),
    let l := getLantern s slice
    (∀ (t : Trigger) (ts : List Trigger), l.asking = none → l.running = none → l.queue = t :: ts →
      exec (.lanternHandlerStart slice) s = .next (startTrigger slice t ts s)) ∧
    (∀ t : Trigger, l.asking = none → l.running = some t → l.done = none → l.nextAt ≤ s.chiptime →
      exec (.lanternHandlerStart slice) s = .next (rvStep slice t.cid s)) ∧
    (∀ t : Trigger, l.running = some t → l.done = none → endWaits (overrun slice t s) t = false →
      exec (.lanternHandlerException slice) s = .next (endHandler slice t none (overrun slice t s)) ∧
      (l.started + 2 * l.budget ≤ s.chiptime →
        exec (.lanternBudgetExpiry slice) s = .next (endHandler slice t none (overrun slice t s)))) ∧
    (l.done.isSome = true → exec (.lanternBudgetExpiry slice) s = .next s) ∧
    (∀ t : Trigger, l.running = some t → l.done = none →
      let u (x : Bool) : State := modLantern slice (fun l => { l with done := some x }) (dropBudget slice s)
      (portBusy (u false) slice = false → endWaits (u false) t = false →
        exec (.lanternDoneDefault slice) s = .next (endHandler slice t none (u false))) ∧
      (portBusy (u true) slice = false → endWaits (u true) t = false →
        exec (.lanternDoneSubstitute slice) s = .next (endHandler slice t
          (if t.kind < 3 then some (Sparse.getAll 0 l.mem 0x80 128) else none) (u true)))) ∧
    (∀ status : Nat, exec (.lanternPortComplete slice status) s =
      .next (finishHandler slice (modLantern slice (fun l => { l with pstat := status % 4 }) s))) ∧
    exec (.lanternPortRefused slice) s = .next (modLantern slice (fun l => { l with pstat := 3 }) s) ∧
    (let starts (i : Instr) (f : Lantern → Lantern) : Prop := ∀ t : Trigger, l.running = some t →
       let c := (f l).command t
       let u := modLantern slice f s
       (portBusy u slice = true ∨ c.fine = false → exec i s = .next (modLantern slice (fun l => { l with pstat := 3 }) u)) ∧
       (portBusy u slice = false → c.fine = true → localOk u slice t.cid c.plocal c.span = false →
         exec i s = .next (abortHandler slice u)) ∧
       (portBusy u slice = false → c.fine = true → localOk u slice t.cid c.plocal c.span = true →
         (∀ p ∈ c.parts, flipping u t.cid p.1 = false) →
         exec i s = .next (portEnds slice (portAct slice c u).1 (portAct slice c u).2))
     (∀ pa lo n, starts (.lanternPortRead slice pa lo n) (setPort pa lo n 0)) ∧
     (∀ pa lo n, starts (.lanternPortWrite slice pa lo n) (setPort pa lo n 1)) ∧
     (∀ pa, starts (.lanternPortPrefetch slice pa) (fun l => { l with paddr := BitVec.ofNat 64 pa, pcmd := 2 })) ∧
     (∀ pa wide x, starts (.lanternPortAdd slice pa wide x) (setRmw pa 3 wide x)) ∧
     (∀ pa wide x, starts (.lanternPortAnd slice pa wide x) (setRmw pa 4 wide x)) ∧
     (∀ pa wide x, starts (.lanternPortOr slice pa wide x) (setRmw pa 5 wide x)) ∧
     (∀ pa wide x, starts (.lanternPortXor slice pa wide x) (setRmw pa 6 wide x)) ∧
     (∀ pa wide x, starts (.lanternPortSwap slice pa wide x) (setRmw pa 7 wide x)) ∧
     (∀ lo r, starts (.lanternPortReply slice lo r) (setReply lo r)))

/-- R319 to R324, R329, R330, R347, R350, R356, R363 to R371: the events of copy engines, matrix engines and
sequencers. -/
def Obligations.EngineEventsComplete : Prop :=
  ∀ (s : State) (cl core : Nat),
    exec (.copyCommandAccept cl) s = .next ((byAge (waiters s (fun o => o == .copyQueue cl))).foldl (fun s w =>
      if copyRoom s cl w.1 w.2.1 then hand w.1 w.2.1 .again s else s) s) ∧
    (∀ (c : CopyCmd) (cs : List CopyCmd), (getCluster s cl).copyq = c :: cs →
      (c.moved = false → c.why = none →
        exec (.copyCommandStart cl) s = .next (continueCopy cl c s)) ∧
      (c.moved = true → exec (.copyCommandComplete cl) s = .next (finishCopy cl s))) ∧
    (∀ (tid sid t : Nat) (sp : Split) (w : Wait), getSplit s tid sid = some sp → sp.wait = some w → w.obj = .sleep t →
      t ≤ s.chiptime → exec (.waittWake tid sid) s = .next (hand tid sid .go s)) ∧
    (∀ (cid r : Nat) (c : Context), Sparse.find? s.contexts cid = some c → c.publish.contains r = true →
      ∃ t x, exec (.publishSwap cid r) s = .next t ∧ Sparse.find? t.contexts cid = some x ∧
        x.selector = Sparse.set false c.selector r (!(Sparse.get false c.selector r)) ∧ x.publish = c.publish.erase r ∧
        t.mem = (settleBacking cid c r s).mem ∧
        ∀ kl ∈ t.l2, kl.2.cid = cid → inRegion (settleBacking cid c r s) c r kl.2 = false) ∧
    (let u := pumpOps core 9 s
     ∀ (i launch : Nat) (o : EngineOp) (ow : Owner), engineLaunch u core = some (launch, ow) → engineHeld u core = false →
      (readyOp (getCore u core).ops OpKind.isLoad = some (i, o) → o.done < 2 ^ 20 →
        exec (.planeLoadStart core) s = .next (runLoad core i launch ow o u)) ∧
      (∀ tile arow rows sel bg, readyOp (getCore u core).ops OpKind.isStream = some (i, o) → passRunning u core = false →
        o.kind = .stream tile arow rows sel bg →
        exec (.streamPassStart core) s =
          .next (runPass core i launch ow o tile arow rows sel bg u)) ∧
      (readyOp (getCore u core).ops OpKind.isDrain = some (i, o) → o.done < 2 ^ 20 →
        let v := modOp core i (fun o => { o with running := true }) u
        (∀ tile fmt clr bg, o.kind = .drain tile fmt clr (some bg) none →
          exec (.drainStart core) s = .next (drainPush core i bg tile fmt (128 * rowEntries fmt + 1) v)) ∧
        (∀ tile fmt clr sh, o.kind = .drain tile fmt clr none (some sh) →
          exec (.drainStart core) s = .next (drainStore core i launch tile fmt sh (drainUnits fmt sh + 1) v)))) ∧
    (∀ (i : Nat) (o : EngineOp) (es : List EngineOp),
      (findOp (getCore s core).ops (fun o => o.running && o.kind.isLoad && decide (2 ^ 20 ≤ o.done)) = some (i, o, es) →
        exec (.planeLoadEnd core) s = .next (pumpOps core 9 (endOp core i s))) ∧
      (∀ launch ow tile arow rows sel bg, findOp (getCore s core).ops (fun o => o.running && o.kind.isStream) = some (i, o, es) →
        engineLaunch s core = some (launch, ow) → o.kind = .stream tile arow rows sel bg →
        let d := Nat.min rows (o.done + passRows o.xmode)
        (d < rows → exec (.streamPassEnd core) s =
          .next (due [.streamPassStart core] (passBoundary core (modOp core i (fun o => { o with done := d }) s)))) ∧
        (d = rows → exec (.streamPassEnd core) s = .next (pumpOps core 9 (endOp core i
          (if launchFlag s launch 2 && shbankOk s core launch
           then popGroup (clusterOf core) bg (streamTotal o.xmode rows bg.2) s else s))))) ∧
      (findOp (getCore s core).ops (fun o => o.running && o.kind.isDrain && decide (2 ^ 20 ≤ o.done)) = some (i, o, es) →
        exec (.drainEnd core) s = .next (finishDrain core i o s)) ∧
      (∀ ts, findOp (getCore s core).ops (fun o => o.running && o.kind.isZero) = some (i, o, es) → o.kind = .zero ts →
        exec (.mzeroEnd core) s =
          .next (pumpOps core 9 (endOp core i (modCore core (fun c => { c with tiles := zeroTiles ts c.tiles }) s)))) ∧
      (findOp (getCore s core).ops (fun o => o.running && o.kind.isShadow) = some (i, o, es) →
        exec (.mshadowEnd core) s = .next (pumpOps core 9 (endOp core i s)))) ∧
    (∀ which : Nat, ((getCore s core).seq which).ending = true → seqDrained s core which = true →
      ∃ t, exec (.sequencerEndComplete core which) s = .next t ∧ ((getCore t core).seq which).ending = false)

/-- R344, R372, R382 to R392, R396, R398, R399: faults, their resolution, uncorrectable errors, preemption. -/
def Obligations.FaultEventsComplete : Prop :=
  ∀ s : State,
    (∀ (cid : Nat) (c : Context), Sparse.find? s.contexts cid = some c →
      let t := writeFaults cid (c.faults.length + 1) (freeFaultPlaces cid s)
      exec (.faultRecordWrite cid) s = .next (match Sparse.find? t.contexts cid with
        | some c => if c.faults.isEmpty ∨ c.fqbase = 0 then t else scheduleOnce (t.chiptime + 64) (.faultRecordWrite cid) t
        | none => t)) ∧
    (∀ cid token : Nat,
      (s.station.stage = 6 → exec (.fqresRetry cid token) s = .next (resolveFault cid token true s) ∧
        exec (.fqresUnresolvable cid token) s = .next (resolveFault cid token false s)) ∧
      (s.station.stage ≠ 6 → exec (.fqresRetry cid token) s = .next s ∧ exec (.fqresUnresolvable cid token) s = .next s)) ∧
    (∀ g : Nat, exec (.eccUncorrectable (.hbm g)) s = .next { s with poison := Sparse.set false s.poison g true }) ∧
    (∀ cid : Nat, exec (.eccUncorrectable (.walker cid)) s = .next (confineContext cid s)) ∧
    (∀ cid line : Nat, exec (.eccUncorrectable (.cacheClean cid line)) s = .next (countEcc (refetchLine cid line s)) ∧
      exec (.eccUncorrectable (.cacheDirty cid line)) s = .next (confineClass (lineClass s cid line) cid s)) ∧
    (∀ tid : Nat, exec (.eccUncorrectable (.crew tid)) s = .next (killCrew tid 0 0 s)) ∧
    (∀ part : Nat, exec (.eccUncorrectable (.stash part)) s = .next (confinePartition part s)) ∧
    (∀ (part : Nat) (cores : List Nat),
      let remap (f : State → Nat → Bool) (t : State) : State :=
        ((spanLaunches t part).filter (f t)).foldl (fun s k => remapLaunch cores k s) t
      exec (.narrowing part cores .urgent) s =
        .next (evacuateSpan part (remap (fun t k => !isUrgent t k) (narrowUrgent part cores s))) ∧
      exec (.narrowing part cores .thermal) s = .next (evacuateSpan part (remap (fun _ _ => true) (narrowThermal part cores s))) ∧
      exec (.narrowing part cores .partition) s = .next (evacuateSpan part (remap (fun _ _ => true) (narrowPartition part cores s))) ∧
      exec (.narrowing part cores .swap) s = .next (evacuateSpan part (narrowSwap part s))) ∧
    (∀ (tid : Nat) (t : Thread), Sparse.find? s.threads tid = some t → t.place = .halted →
      (idleOwners s t.core).any (fun o => (ownerThreads s t.core o).any (fun u => u.crewid == t.crewid && u.launch == t.launch)) = false →
      let u := modThread tid (fun t => { t with place := .saved }) s
      let full := (engineOwners (getCore u t.core)).filter (fun o =>
        allOff (ownerThreads u t.core o) && (ownerThreads u t.core o).all (fun v => decide (v.place = .saved)))
      let v := placeFreed t.core (saveScouts (full.foldl (fun s o => saveEngine t.core o s) u))
      exec (.crewSaveComplete tid) s = .next (match Sparse.find? v.launches t.launch with
        | some l => evacuateSpan l.part v
        | none => v)) ∧
    (∀ (tid core c : Nat) (cs : List Nat) (t : Thread) (l : Launch), Sparse.find? s.threads tid = some t →
      Sparse.find? s.launches t.launch = some l → t.place = .saved → partRuns s l.part = true → s.station.halted = false →
      l.suspended = false → (groupOf s tid).all (fun k => (savedCrews s t.launch).contains k) = true → bit l.record.flags 0 = false →
      (if (restoreCores s tid).contains core then [core] else restoreCores s tid) = c :: cs →
      exec (.crewRestore tid core) s = .next (restoreGroup tid c s)) ∧
    (∀ part : Nat, ∃ t, exec (.partitionReset part) s = .next t ∧
      (∀ kp ∈ t.parts, leadOf s kp.1 = leadOf s part → kp.2.stopped = false) ∧
      (∀ kc ∈ t.contexts, leadOf s kc.2.part = leadOf s part → kc.2.poisoned = false) ∧ t.mem = s.mem)

/-- R408 to R410, R423, R424, R429: the requests of a mailbox, granted once step 6 has ended; before it they change
nothing. -/
def Obligations.RequestsComplete : Prop :=
  ∀ (s : State) (part : Nat),
    (hostReady s = false → ∀ (a b c d e : Nat) (x : Bool) (w : FormatWindow),
      ∀ i ∈ ([.requestRefused part a, .newctx part, .endctx part a, .mapframe part a b c d e, .setwindow part a b w,
        .biasflip part a b x, .lantern part a b c d e, .image part a b, .assignq part a, .setcache part a, .setreserve part a,
        .stash part a, .groups part a b, .swap part x, .clearctx part a, .span part a, .checkpoint part a b c x,
        .mirror part a b c d] : List Instr), exec i s = .next s) ∧
    (∀ (cid : Nat) (c : Context), Sparse.find? s.contexts cid = some c → ∀ va a lo host, leafFrom s va c.ptbase 0 walkLevels = some (a, lo) →
      let pte := withBias (physNat s a 8) host
      let keys := (pageLines s cid lo va).map Prod.fst
      let t := physWrite s a (leBytes 8 pte)
      exec (.biasFlipComplete cid va host) s = .next (post cid 6 (leafPa pte lo va / 128 % 4) 12 0 0 va 0 (endFlip cid lo va { t with
        tlb := t.tlb.map (fun x => if x.cid = cid ∧ x.bits = lo ∧ x.page = va / 2 ^ lo then
          { x with pte := withBias x.pte host } else x),
        revmap := t.revmap.filter (fun x => !keys.contains x.2) }))) ∧
    (hostReady s = true →
    (∀ code, exec (.requestRefused part code) s = .next (refuse part s)) ∧
    (∀ cid, freshCid (freeNat s).2 (freeNat s).1 = some cid →
      exec (.newctx part) s = .next (finishRequest part (65536 * cid)
        { (freeNat s).2 with contexts := Sparse.put (freeNat s).2.contexts cid (Context.fresh part) })) ∧
    (∀ (cid : Nat) (c : Context), Sparse.find? s.contexts cid = some c → ownsContext s part cid = true →
      (runsLaunch s cid = false → exec (.endctx part cid) s = .next (granted part (endContext cid s))) ∧
      (∀ v p n cls, cls < 3 → p + 2 ^ 21 * n ≤ Config.hbmBytes →
        exec (.mapframe part cid v p n cls) s = .next (granted part (setFrames p n cls s))) ∧
      (∀ va a lo host, leafFrom s va c.ptbase 0 walkLevels = some (a, lo) →
        let marked := match findFlip s cid lo va with
          | some f => (f, s)
          | none => startFlip cid lo va host s
        copiesPage marked.2 marked.1 = false →
        let t := granted part (releasePage cid lo va marked.2)
        exec (.biasflip part cid va host) s = .next { t with agenda := .biasFlipComplete cid va host :: t.agenda }) ∧
      (∀ size, imageTop c + 65536 * ((freeNat s).1 % 65536) + size < 2 ^ 48 →
        let base := imageTop c + 65536 * ((freeNat s).1 % 65536)
        exec (.image part cid size) s = .next (finishRequest part (base / 65536)
          (modContext cid (fun c => { c with images := c.images ++ [(base, size)] }) (freeNat s).2))) ∧
      (∀ a, exec (.groups part cid a) s = .next (granted part (modContext cid (fun c => { c with groups := a }) s))) ∧
      exec (.clearctx part cid) s = .next (granted part (let t := modContext cid (fun c => { c with poisoned := false }) s
        due (waitingQueues t) t)) ∧
      (∀ r b, r < 64 → b < 32768 → exec (.checkpoint part cid r b true) s =
        .next (granted part (modContext cid (fun c => { c with ckpt := some (r, b) }) s))) ∧
      (∀ b x, exec (.checkpoint part cid 0xFFFFFFFF b x) s = .next (granted part (modContext cid (fun c => { c with ckpt := none }) s))) ∧
      (∀ mask image size table rs,
        let places := regionPlaces (othersRegions s cid mask) size
        places ≠ [] → (size = 0 ∨ mapped s c image size = true) → readHandlers s c table = some rs →
        let n := (freeNat s).1
        let n' := (freeNat (freeNat s).2).1
        let u := (freeNat (freeNat s).2).2
        let at_ := places.getD (n % places.length) (256, size)
        let bs := (List.range size).map (fun i => BitVec.ofNat 8 (tableNat u c (image + i) 1))
        let v := ((List.range Config.slices).filter (fun sl => bit mask sl)).foldl
          (bindSlice cid at_.1 (size + n' % (at_.2 - size + 1)) bs rs) u
        exec (.lantern part cid mask image size table) s = .next (granted part { v with
          station := { v.station with measured := v.station.measured ++ [(cid, Config.sha384 (dwords bs))] } }))) ∧
    (∀ (ctrl win : Nat) (w : FormatWindow), ctrl < 8 → win < 16 → w.fmt < 4 →
      let key := 16 * ctrl + win
      (∀ k c, selected s part = some (k, c) → runsLaunch s k = false) →
      (∀ k, Sparse.find? s.windowCids key = some k → runsLaunch s k = false) →
      exec (.setwindow part ctrl win w) s = .next (granted part { s with
        windows := Sparse.put s.windows key ⟨w.ebase % 2 ^ 36, w.esize % 2 ^ 36, w.dbase % 2 ^ 47, w.sbase % 2 ^ 50, w.fmt⟩
        windowCids := match selected s part with
          | some kc => Sparse.put s.windowCids key kc.1
          | none => Sparse.erase s.windowCids key })) ∧
    (∀ q, q < Config.queues → exec (.assignq part q) s =
      .next (granted part { s with queues := Sparse.put s.queues q { getQueue s q with part := part, assigned := true } })) ∧
    (∀ (n : Nat) (p : Partition), Sparse.find? s.parts part = some p →
      (4 ≤ n → n ≤ 64 → s.launches.any (fun kl => leadOf s kl.2.part == leadOf s part) = false →
        exec (.setcache part n) s = .next (granted part (modPart part (fun p => { p with banks := n })
          (p.clusterList.foldl (fun s cl => assignCache n cl s) s)))) ∧
      (part ≠ 63 → n ≤ 64 → n ≤ p.cores.length →
        exec (.setreserve part n) s = .next (granted part (modPart part (fun p => { p with reserve := n }) s))) ∧
      (∀ x, exec (.swap part x) s = .next (if x then swapBack part s else swapOut part s))) ∧
    (∀ n, n ≤ 10 → exec (.stash part n) s = .next (granted part ((List.range Config.dies).foldl (fun s d =>
      evictSome d { s with stashWays := Sparse.set 0 s.stashWays d n })
      (wakeAll (fun o => match o with | .line .. => true | _ => false) s)))) ∧
    (∀ mask, maskParts mask ≠ [] → (∀ i ∈ maskParts mask, (Sparse.find? s.parts i).isSome = true) →
      (∀ kc ∈ s.contexts, ∀ i ∈ maskParts mask, leadOf s kc.2.part ≠ leadOf s i) →
      exec (.span 63 mask) s = .next (granted 63 { s with
        parts := s.parts.map (fun kp => (kp.1, { kp.2 with lead := newLead s (maskParts mask) kp.1 })) })) ∧
    (∀ dev cid size base, dev < 32768 → cid < 4096 → base + size ≤ Config.hbmBytes →
      let t := setFrames base ((base % 2 ^ 21 + size + 2 ^ 21 - 1) / 2 ^ 21) 2 s
      exec (.mirror part dev cid size base) s = .next (granted part { t with
        station := { t.station with mirrors := t.station.mirrors ++ [(4096 * dev + cid, base, size)] } })))

/-- R406, R409, R411, R429 to R431: the host's registers and doorbells, and reset and boot. That the device owner's request
for a partition is a form of REGISTER_WRITE is the model's choice (log 62). -/
def Obligations.HostEventsComplete : Prop :=
  ∀ s : State,
    (hostReady s = true →
      (∀ q v, exec (.doorbell q v) s = .next (ringDoorbell q v s)) ∧
      (∀ q, exec (.qctlStallClear q) s = .next (clearStall q s)) ∧
      (∀ p v, exec (.evheadWrite p v) s = .next (moveHead p v s)) ∧
      (∀ p v, exec (.fqbaseWrite p v) s = .next (setFaultRing p v s)) ∧
      (∀ p n, exec (.invlen p n) s = .next (startInvalidation p n s)) ∧
      (∀ p b n, exec (.evlogWrite p b n) s = .next (setRing p b n s)) ∧
      (∀ p o v, exec (.registerWrite (.window p o) v) s = .next (windowWrite p o v s)) ∧
      (∀ q o v, exec (.registerWrite (.doorbell q o) v) s = .next (queueWrite q o v s)) ∧
      (∀ p d m w, Sparse.find? s.parts 63 = some w → w.reqstat ≠ 1 →
        let t := modPart 63 (fun p => { p with reqblk := p.reqaddr }) s
        exec (.registerWrite (.owner p d) m) s =
          .next (if mayHold t p d m then granted 63 (formPartition p d m t) else refuse 63 t))) ∧
    (∀ o v, s.station.retry = false → o % 8 = 0 → exec (.registerWrite (.bar0 o) v) s = .next (bar0Write o v s)) ∧
    (∀ cid base len, ∃ t, exec (.invalidationComplete cid base len) s = .next t ∧
      t.mem = (invDrop cid base len (invWriteBack cid base len s)).mem) ∧
    exec .perstAssert s =
      .next { State.reset with fresh := s.fresh, station := { State.reset.station with flash := s.station.flash } } ∧
    exec .configRetryEnd s = .next { s with station := { s.station with retry := false } } ∧
    (∀ b, s.station.inReset = true → exec (.perstDeassert b) s = .next (enterStage 1 (ms 60) b
      (after (ms 20) .configRetryEnd { s with station := { s.station with inReset := false, retry := true } }))) ∧
    (∀ b, s.station.inReset = false → exec (.perstDeassert b) s = .next (endStage b s)) ∧
    (∀ b, exec (.recgo b) s = .next (recover b s))

/-- R422, R424: an acknowledgement that does not come, a flit, the end of a training and the loss of a peer, with the steps
of its recovery. Whether a flit acknowledges or asks for a resend, and whether it is for this device, are free (log 53). -/
def Obligations.KrazuEventsComplete : Prop :=
  ∀ (s : State) (port : Nat),
    (∀ f : Flit, (getPort s port).up = false ∨ (getPort s port).training = true →
      exec (.krazuAckTimeout port) s = .next s ∧ exec (.krazuFlitReceive port f) s = .next s) ∧
    ((getPort s port).up = true → (getPort s port).training = false →
      exec (.krazuAckTimeout port) s = .next (retryPort port s) ∧
      (∀ f : Flit, f.crcOk = false →
        exec (.krazuFlitReceive port f) s = .next (modPort port (fun q => { q with asks := true }) s)) ∧
      (∀ f : Flit, f.crcOk = true →
        let u := { s with fresh := s.fresh + 2 }
        (Config.freeBool s.fresh = true → exec (.krazuFlitReceive port f) s = .next (acknowledge port f.seq u)) ∧
        (Config.freeBool s.fresh = false → Config.freeBool (s.fresh + 1) = true →
          exec (.krazuFlitReceive port f) s = .next (retryPort port u)) ∧
        (Config.freeBool s.fresh = false → Config.freeBool (s.fresh + 1) = false →
          exec (.krazuFlitReceive port f) s = .next (takeFlit port f u)))) ∧
    ((getPort s port).replay = [] → retryPort port s = s) ∧
    ((getPort s port).replay ≠ [] →
      ((getPort s port).retries + 1 < 16 → retryPort port s = scheduleOnce (s.chiptime + 5400) (.krazuAckTimeout port)
        (modPort port (fun q => { q with retries := q.retries + 1, sent := q.sent + q.replay.length }) s)) ∧
      (16 ≤ (getPort s port).retries + 1 →
        let u := portEvent port 2 (modPort port (fun q => { q with training := true, retries := 0 }) s)
        let r := freeDelay u 270000
        retryPort port s = after r.1 (.krazuRetrainComplete port (Config.freeBool r.2.fresh)) { r.2 with fresh := r.2.fresh + 1 })) ∧
    (∀ f : Flit,
      let v := modPort port (fun q => { q with rx := (q.rx + 1) % 65536, acked := some f.seq, asks := false }) { s with fresh := s.fresh + 1 }
      (f.seq ≠ (getPort s port).rx → takeFlit port f s = s) ∧
      (f.seq = (getPort s port).rx → Config.freeBool s.fresh = true → takeFlit port f s = takeMirror f v) ∧
      (f.seq = (getPort s port).rx → Config.freeBool s.fresh = false →
        (∀ p, routePort v f.dest = some p → takeFlit port f s = sendFlit p f v) ∧
        (routePort v f.dest = none → takeFlit port f s = v))) ∧
    (∀ x, (getPort s port).training = false → exec (.krazuRetrainComplete port x) s = .next s) ∧
    ((getPort s port).training = true →
      let q := getPort s port
      let up := portEvent port 1 (modPort port (fun q => { q with training := false, up := true, retries := 0 }) s)
      let down := portEvent port 0 (modPort port (fun q => { q with training := false, up := false, retries := 0 }) s)
      (q.replay = [] → exec (.krazuRetrainComplete port true) s = .next (pumpMirrors mirrorFuel up)) ∧
      (q.replay ≠ [] →
        exec (.krazuRetrainComplete port true) s =
          .next (pumpMirrors mirrorFuel (scheduleOnce (up.chiptime + 5400) (.krazuAckTimeout port) up))) ∧
      exec (.krazuRetrainComplete port false) s = .next (reroute (q.replay ++ q.waiting)
        (modPort port (fun q => { q with replay := [], waiting := [] }) down))) ∧
    (∀ dev : Nat, s.station.recovering.find? (fun r => r.device == dev) = none →
      let t := noteLoss dev (closePorts dev s)
      let u : State := { t with station := { t.station with jobParts := t.station.jobParts ++ jobLeads t } }
      exec (.krazuHeartbeatTimeout dev) s = .next (due ((jobLeads t).map (fun l => Instr.narrowing l [] .swap))
        (if jobLost u then u else nextRecovery dev 1 (ms 2000) u)) ∧
      dev ∈ t.station.heartbeat ∧
      (∀ p ∈ portsTo s dev, (getPort t p).up = false)) ∧
    (∀ (dev : Nat) (r : Recovery), s.station.recovering.find? (fun r => r.device == dev) = some r →
      (s.chiptime < r.due → exec (.krazuHeartbeatTimeout dev) s = .next s) ∧
      (r.due ≤ s.chiptime →
        (r.step = 1 → exec (.krazuHeartbeatTimeout dev) s = .next (spareTakes dev s)) ∧
        (r.step = 2 → exec (.krazuHeartbeatTimeout dev) s = .next (sendMirrors dev s)) ∧
        (r.step ≠ 1 → r.step ≠ 2 → exec (.krazuHeartbeatTimeout dev) s = .next (resumeJob dev s))))

/-- R427, R433 to R437: the answers of attestation, and what the monitors of power, temperature, droop and process do, each
sample with the next one. What only the device's own keys and secrets give is opaque (log 54). -/
def Obligations.MonitorsAndAttestationComplete : Prop :=
  ∀ s : State,
    (s.station.inReset = false → s.station.retry = false → exec .getVersion s = .next (spdmReply 1 false [0x13] s)) ∧
    (s.station.inReset = true ∨ s.station.retry = true → exec .getVersion s = .next s) ∧
    (hostReady s = true →
      let sealed (request : Nat) (content : List DWord) : State := spdmReply request true (content ++ signatures s content) s
      exec .getCapabilities s = .next (spdmReply 2 false [Config.freeBits s.fresh] { s with fresh := s.fresh + 1 }) ∧
      exec .negotiateAlgorithms s = .next (spdmReply 3 false [384] s) ∧
      exec .getDigests s = .next (spdmReply 4 false ([0, 1] ++ Config.sha384 (chainOf s 0) ++ Config.sha384 (chainOf s 1)) s) ∧
      (∀ slot, slot < 2 → exec (.getCertificate slot) s = .next (spdmReply 5 false (BitVec.ofNat 64 slot :: chainOf s slot) s)) ∧
      (∀ slot, 2 ≤ slot → exec (.getCertificate slot) s = .next (spdmReply 5 false [] s)) ∧
      (∀ slot nonce, exec (.challenge slot nonce) s = .next (sealed 6 [BitVec.ofNat 64 slot, BitVec.ofNat 64 nonce])) ∧
      (∀ i nonce, exec (.getMeasurements i nonce) s =
        .next (sealed 7 ([BitVec.ofNat 64 i, BitVec.ofNat 64 nonce] ++ measurement s i)))) ∧
    (hostReady s = false → ∀ slot nonce : Nat,
      exec .getCapabilities s = .next s ∧ exec .negotiateAlgorithms s = .next s ∧ exec .getDigests s = .next s ∧
      exec (.getCertificate slot) s = .next s ∧ exec (.challenge slot nonce) s = .next s ∧
      exec (.getMeasurements slot nonce) s = .next s) ∧
    (∀ w : Nat,
      let xs := (w :: s.monitors.samples).take 10
      let made (cap : Nat) : State := renewSample isPowerSample nextPower
        { s with monitors := { s.monitors with samples := xs, power := xs.sum / xs.length, cap := cap } }
      (2400 * xs.length < xs.sum → exec (.powerSample w) s = .next (made (Nat.max 1800 (s.monitors.cap - 100)))) ∧
      (xs.sum < 2300 * xs.length → exec (.powerSample w) s = .next (made (Nat.min 2700 (s.monitors.cap + 100)))) ∧
      (2300 * xs.length ≤ xs.sum → xs.sum ≤ 2400 * xs.length → exec (.powerSample w) s = .next (made s.monitors.cap))) ∧
    (∀ (temps : List (Nat × BitVec 32)) (hottest inlet : List Nat),
      let t0 := temps.foldl sampleCore s
      let t := { t0 with monitors := { t0.monitors with
        tmax := (List.range Config.dies).map (hottestOf t0 hottest), inlet := inlet.headD t0.monitors.inlet } }
      let cores := temps.map Prod.fst
      let u := ((cores.map clusterOf).eraseDups).foldl easeCluster (cores.foldl slowCore t)
      let stops := ((u.parts.filter (fun kp => decide (kp.2.mask ≠ 0) && (tooHot u).contains kp.2.die && !kp.2.stopped)).map
        (fun kp => leadOf u kp.1)).eraseDups
      exec (.tempSample temps hottest inlet) s = .next (renewSample isTempSample nextTemps
        (due (thermalMoves t (cores.filter (fun c => (getCore t c).hot))) (stops.foldl (fun s p => confinePartition p s) u)))) ∧
    (∀ cl mv : Nat,
      let recent := s.chiptime :: (getHealth s cl).recent.filter (fun t => decide (s.chiptime < t + 2700000))
      let counted (h : ClusterHealth) := { h with droops := Nat.min 65535 (h.droops + 1), deep := Nat.max h.deep mv }
      (recent.length < 16 →
        exec (.droopDetect cl mv) s = .next (modHealth cl (fun h => { counted h with recent := recent }) s)) ∧
      (16 ≤ recent.length → exec (.droopDetect cl mv) s = .next (modHealth cl (fun h => { counted h with
        recent := [], vset := Nat.max h.vset (Nat.min (h.vset + 5) (h.vboot + 30)) }) s))) ∧
    (∀ cl mhz : Nat,
      let taken (low : Bool) : State := renewSample (isMonitorSample cl) (nextMonitor cl)
        (idleRaises (modHealth cl (fun h => { h with ro := mhz, raise := h.raise || low }) s))
      ((getHealth s cl).boot * 97 < mhz * 100 → exec (.processMonitorSample cl mhz) s = .next (taken false)) ∧
      (mhz * 100 ≤ (getHealth s cl).boot * 97 → exec (.processMonitorSample cl mhz) s = .next (taken true)))

/-! ## Rules of the whole machine -/

namespace Sys2Proof.Claims
open Sys2Proof.Machine

/-- The record of a split of a thread. -/
def splitOf (s : State) (e : Env) : Option Split := getSplit s e.tid e.sid

/-- The registers of the issuing thread, as they stand in a state. -/
def regsOf (s : State) (e : Env) : Option Regs := (Sparse.find? s.threads e.tid).map Thread.regs

/-- A state keeps all memory of another: main memory, the L2 level, and what every cluster cache holds. -/
def MemoryKept (s t : State) : Prop :=
  t.mem = s.mem ∧ t.l2 = s.l2 ∧ ∀ cl, (getCluster t cl).cache = (getCluster s cl).cache

/-- A byte as a cluster's cache holds it. -/
def clByte (s : State) (cl cid va : Nat) : Option Byte :=
  (clFind s cl cid (va / 128)).map (fun l => Sparse.get 0 l.data (va % 128))

/-- An address lies in the bytes that a part of an access of `size` bytes covers. -/
def covers (size va : Nat) (p : Part) : Prop := p.va ≤ va ∧ va < p.va + size

/-- No result names a register: a scalar one, one of a lane, a predicate of a lane. -/
def untouchedS (n : Nat) (ws : List RegWrite) : Prop := ∀ x, RegWrite.scal n x ∉ ws
def untouchedV (l n : Nat) (ws : List RegWrite) : Prop := ∀ k r x, 256 * k + r = 256 * l + n → RegWrite.vec k r x ∉ ws
def untouchedP (l n : Nat) (ws : List RegWrite) : Prop := ∀ k r x, 256 * k + r = 256 * l + n → RegWrite.pred k r x ∉ ws

/-- No result is of a special register or a mode. -/
def noSpecials (ws : List RegWrite) : Prop :=
  ∀ w ∈ ws, (∃ l n x, w = .vec l n x) ∨ (∃ n x, w = .scal n x) ∨ (∃ l n x, w = .pred l n x)

/-- The register files of a thread keep their canonical form. -/
def RegsOk (r : Regs) : Prop := Sparse.wf 0 r.v = true ∧ Sparse.wf 0 r.s = true ∧ Sparse.wf false r.p = true

/-- The split whose turn it is, if any, may issue: it is ACTIVE and on its core, it waits for nothing, and no other
split of its thread is in a trap handler. -/
def TurnOk (s : State) : Prop :=
  ∀ tid sid, s.turn = some (tid, sid) → ∃ t sp, (tid, t) ∈ s.threads ∧ (sid, sp) ∈ t.splits ∧
    t.place = .resident ∧ s.station.halted = false ∧ sp.state = .active ∧ (sp.wait.isNone || sp.handed.isSome) = true ∧
    (∀ h, t.handler = some h → h = sid)

end Sys2Proof.Claims

/-- R63, R65, R68 with SAT = 0: integer ADD, SUB, MUL, SHL, SHR and SRA are the operations of bit vectors of the
element's width, element by element. -/
def Obligations.IntegersWrap : Prop :=
  ∀ (s : State) (e : Env) (ty : ElemType) (m : BitVec 1) (d a b : BitVec 8), ty.isFloat = false → e.sat = false →
    (TypedReady s e ty d [srcFor d a ty.regs, srcFor d b ty.regs] →
      let on (f : BitVec ty.b → BitVec ty.b → BitVec ty.b) (l : Nat) : Nat × Word :=
        over2 e ty a b (fun x y => ((f (BitVec.ofNat ty.b x) (BitVec.ofNat ty.b y)).toNat, 0)) l
      Gives e s (.add m d a b) m d ty.regs (on (· + ·)) ∧
      Gives e s (.sub m d a b) m d ty.regs (on (· - ·)) ∧
      Gives e s (.mul m d a b) m d ty.regs (on (· * ·))) ∧
    (TypedReady s e ty d [srcFor d a ty.regs, srcFor d b 1] →
      let by_ (f : BitVec ty.b → Nat → BitVec ty.b) (l : Nat) : Nat × Word :=
        joinElems ty.b (fun i => ((f (BitVec.ofNat ty.b (elemAt ty.b (e.val l a ty.regs) i))
          (if ty.b = 64 then e.val l b 1 else elemAt ty.b (e.val l b 1) i)).toNat, 0)) ty.n
      Gives e s (.shl m d a b) m d ty.regs (by_ (· <<< ·)) ∧
      Gives e s (.shr m d a b) m d ty.regs (by_ (· >>> ·)) ∧
      Gives e s (.sra m d a b) m d ty.regs (by_ BitVec.sshiftRight))

/-- R66: integer DIV and REM, case by case of the table, whatever SAT says. -/
def Obligations.DivisionTable : Prop :=
  (∀ (s : State) (e : Env) (ty : ElemType) (m : BitVec 1) (d a b : BitVec 8),
    TypedReady s e ty d [srcFor d a ty.regs, srcFor d b ty.regs] → ty.isFloat = false →
    let edge (x y : Nat) : Prop := ty.isSigned = true ∧ x = 2 ^ (ty.b - 1) ∧ y = 2 ^ ty.b - 1
    let q (x y : Nat) : Nat := wrapInt ty.b (Int.tdiv (intVal ty.isSigned ty.b x) (intVal ty.isSigned ty.b y))
    let r (x y : Nat) : Nat := wrapInt ty.b (intVal ty.isSigned ty.b x -
      intVal ty.isSigned ty.b y * Int.tdiv (intVal ty.isSigned ty.b x) (intVal ty.isSigned ty.b y))
    ∃ qf rf : Nat → Nat → Nat × Word,
      Gives e s (.div m d a b) m d ty.regs (over2 e ty a b qf) ∧
      Gives e s (.rem m d a b) m d ty.regs (over2 e ty a b rf) ∧
      (∀ x y, x < 2 ^ ty.b → y < 2 ^ ty.b →
        (y = 0 → qf x y = (2 ^ ty.b - 1, flagDZ) ∧ rf x y = (x, flagDZ)) ∧
        (edge x y → qf x y = (2 ^ (ty.b - 1), flagOF) ∧ rf x y = (0, flagOF)) ∧
        (y ≠ 0 → ¬ edge x y → qf x y = (q x y, 0) ∧ rf x y = (r x y, 0)))) ∧
  (∀ x y : Int, y ≠ 0 → 0 ≤ x * (x - y * Int.tdiv x y))

/-- R31: CALL writes the address after it to s62:s63 at the close of the run and transfers, RET transfers to the address
in s62:s63, as held when the run began, so that a RET in the run of its CALL returns to the link held before. -/
def Obligations.CallAndReturnLink : Prop :=
  (∀ (s : State) (e : Env) (m : BitVec 1), Issues s e → (e.regs.pair 0 0xFE).toNat % 4 = 0 →
    exec (.ret m) s = .next (e.done m (.ret m) (Flow.jump (e.regs.pair 0 0xFE)) (opened s))) ∧
  ∀ (s : State) (e : Env) (o : BitVec 20), Issues s e → e.sp.run.isOpen = true → (e.target o).toNat % 4 = 0 →
    (RegsOk e.th.regs → ∃ t sp r, exec (.call 1#1 o) s = .next t ∧ splitOf t e = some sp ∧ sp.pc = e.target o ∧
      sp.run.isOpen = false ∧ regsOf t e = some r ∧ r.pair 0 0xFE = e.sp.pc + 4) ∧
    (e.sp.run.count + 1 < 64 → ∃ t sp, exec (.call 0#1 o) s = .next t ∧ splitOf t e = some sp ∧
      sp.pc = e.target o ∧
      ((e.regs.pair 0 0xFE).toNat % 4 = 0 →
        ∃ u sp', exec (.ret 0#1) { t with turn := some (e.tid, e.sid) } = .next u ∧ splitOf u e = some sp' ∧
          sp'.pc = e.regs.pair 0 0xFE))

/-- R22: a run opens with the image of every register, which its instructions read; results wait until it closes; at
the close the later result of a register wins, a register that none names keeps its value, and FLAGS loses the cleared
bits and gains the raised ones. -/
def Obligations.RunRules : Prop :=
  (∀ (s : State) (tid sid : Nat) (t : Thread) (sp : Split), Sparse.find? s.threads tid = some t →
    Sparse.find? t.splits sid = some sp → sp.run.isOpen = false → sp.handed = none →
    ∃ e, envOf (openRun tid sid s) tid sid = some e ∧ e.regs = t.regs ∧ e.sp.run.isOpen = true ∧ e.sp.run.pend = [] ∧
      e.sp.run.flagSet = 0 ∧ e.sp.run.flagClr = 0) ∧
  (∀ (s : State) (e : Env) (tid sid : Nat) (ws : List RegWrite) (fl : Word), envOf s tid sid = some e →
    e.sp.run.isOpen = true → ∃ e', envOf (emitTo tid sid ws fl s) tid sid = some e' ∧
      e'.regs = e.regs ∧ e'.th.regs = e.th.regs ∧ e'.sp.run.pend = e.sp.run.pend ++ ws ∧
      e'.sp.run.flagSet = e.sp.run.flagSet ||| fl) ∧
  (∀ (s : State) (e : Env) (tid sid : Nat), envOf s tid sid = some e → e.sp.run.isOpen = true → RegsOk e.th.regs →
    ∃ e', envOf (closeRun tid sid s) tid sid = some e' ∧ e'.sp.run.isOpen = false ∧ RegsOk e'.th.regs ∧
      e'.th.regs.flags = ((e.th.regs.flags &&& ~~~e.sp.run.flagClr) ||| e.sp.run.flagSet) &&& 0x7F ∧
      (∀ n, untouchedS n e.sp.run.pend → e'.th.regs.scal n = e.th.regs.scal n) ∧
      (∀ l n, untouchedV l n e.sp.run.pend → e'.th.regs.vec l n = e.th.regs.vec l n) ∧
      (∀ l n, untouchedP l n e.sp.run.pend → e'.th.regs.pred l n = e.th.regs.pred l n) ∧
      (∀ n x us ws, n ≠ 0 → e.sp.run.pend = us ++ RegWrite.scal n x :: ws → untouchedS n ws →
        e'.th.regs.scal n = x) ∧
      (∀ l n x us ws, e.sp.run.pend = us ++ RegWrite.vec l n x :: ws → untouchedV l n ws →
        e'.th.regs.vec l n = x) ∧
      (∀ l n x us ws, n ≠ 0 → e.sp.run.pend = us ++ RegWrite.pred l n x :: ws → untouchedP l n ws →
        e'.th.regs.pred l n = x))

/-- R375, R376, R380: what raising and taking a trap do to a crew whose context's TVEC is usable and whose splits are in no handler:
the trap registers, the saved record, the modes, the handler's address, a fresh run at loop depth 0, and every other
split held. A trap that splits of one cycle come before is kept in the split's record, and changes nothing else. -/
def Obligations.TrapEntry : Prop :=
  ∀ (s : State) (tid sid : Nat) (t : Thread) (sp : Split) (x : TrapInfo) (c : Context),
    Sparse.find? s.threads tid = some t → Sparse.find? t.splits sid = some sp →
    Sparse.find? s.contexts (cidOf s t.launch) = some c →
    (t.handler = none → tvecOk c.tvec = true → ∃ t' sp', takeTrap tid sid x s = { s with threads := Sparse.put s.threads tid t' } ∧
      Sparse.find? t'.splits sid = some sp' ∧ t'.handler = some sid ∧
      t'.regs = { t.regs with cmode := 0, mmode := 0 } ∧
      sp'.trapRegs.cause = BitVec.ofNat 32 (x.cause + 256 * x.code + 65536 * (if x.isOpen then 1 else 0)) ∧
      sp'.trapRegs.pc = x.pc ∧ sp'.trapRegs.mask = x.mask ∧ sp'.trapRegs.faultva = x.faultva ∧
      sp'.trapRegs.faultmask = sp.trapRegs.faultmask ∧
      (∃ sv, sp'.saved = some sv ∧ sv.member = sp.member ∧ sv.exited = sp.exited ∧ sv.pc = sp.pc ∧ sv.loop = sp.loop ∧
        sv.run = sp.run ∧ sv.cmode = t.regs.cmode ∧ sv.mmode = t.regs.mmode) ∧
      sp'.pc = c.tvec ∧ sp'.loop.levels = [] ∧ sp'.active = sp.active ∧ sp'.run.isOpen = false ∧ sp'.state = .active ∧
      (∀ k, k ≠ sid → Sparse.find? t'.splits k = Sparse.find? t.splits k) ∧
      (∀ k q, k ≠ sid → Sparse.find? t'.splits k = some q → q.mayIssue t' k = false)) ∧
    ((t.handler ≠ none ∨ tvecOk c.tvec = false) → takeTrap tid sid x s = killCrew tid x.cause sid s) ∧
    (t.kind = .crew → trapJoins s t tid sid = false → raiseTrap tid sid x s = takeTrap tid sid x s) ∧
    (t.kind = .crew → trapJoins s t tid sid = true →
      ∃ sp', raiseTrap tid sid x s = { s with threads := Sparse.put s.threads tid { t with splits := Sparse.put t.splits sid sp' } } ∧
        sp'.handed = some (.trap x) ∧ sp'.state = sp.state ∧ sp'.pc = sp.pc ∧ sp'.run = sp.run ∧ sp'.loop = sp.loop ∧
        sp'.member = sp.member ∧ sp'.trapRegs = sp.trapRegs)

/-- R90, R379: the return from a handler restores mask, loop levels, the kept run and the modes of the record, at the
address in TRAPPC, and releases the held splits; a pending trap of another split is taken at once. -/
def Sys2Proof.Claims.TrapReturn : Prop :=
  ∀ (s : State) (tid sid : Nat) (t : Thread) (sp : Split) (sv : TrapSave),
    Sparse.find? s.threads tid = some t → Sparse.find? t.splits sid = some sp → sp.saved = some sv →
    ∃ t' sp', Sparse.find? t'.splits sid = some sp' ∧ t'.handler = none ∧
      t'.regs = { t.regs with cmode := sv.cmode, mmode := sv.mmode } ∧
      sp'.member = sv.member ∧ sp'.exited = sv.exited ||| sp.exited ∧ sp'.loop = sv.loop ∧ sp'.run = sv.run ∧
      sp'.pc = sp.trapRegs.pc ∧ sp'.saved = none ∧
      (∀ k, k ≠ sid → Sparse.find? t'.splits k = Sparse.find? t.splits k) ∧
      (let u := { s with threads := Sparse.put s.threads tid t' }
       (t'.nextPending = none → returnTrap tid sid s = u) ∧
       (∀ k x, t'.nextPending = some (k, x) → returnTrap tid sid s = takeTrap tid k x u))

/-- R90, R379: TRET of the split in the handler, the state that it restores, and TRET outside a handler. -/
def Obligations.TrapReturnRestores : Prop := TrapReturnCompletes ∧ TrapReturnOutsideTraps ∧ TrapReturn

/-- R96: a split falls through the last word of its innermost level: the counter falls by one; while it is not zero the
body starts again, otherwise the level ends and the next outer level is judged at the same word. -/
def Obligations.LoopIterations : Prop :=
  (∀ (s : State) (e : Env) (t : State), Issues s e → exec (.nop 0#1) s = .next t → e.sp.run.count + 1 < 64 →
    ∃ sp, splitOf t e = some sp ∧ sp.pc = (e.sp.advance Flow.next).pc ∧ sp.loop = (e.sp.advance Flow.next).loop) ∧
  (∀ (s : State) (e : Env) (t : State) (c : BitVec 4) (o : BitVec 20), Issues s e → brTaken e c.toNat = false →
    exec (.br 0#1 c o) s = .next t → e.sp.run.count + 1 < 64 →
    ∃ sp, splitOf t e = some sp ∧ sp.pc = (e.sp.advance Flow.next).pc ∧ sp.loop = (e.sp.advance Flow.next).loop) ∧
  (∀ sp : Split, (∀ v, sp.loop.levels.getLast? = some v → v.last ≠ sp.pc.toNat) →
    (sp.advance Flow.next).pc = sp.pc + 4 ∧ (sp.advance Flow.next).loop.levels = sp.loop.levels ∧
      (sp.advance Flow.next).loop.lc = sp.loop.lc) ∧
  (∀ (sp : Split) (outer : List Level) (v : Level), sp.loop.levels = outer ++ [v] → v.last = sp.pc.toNat →
    outer.length < sp.loop.lc.length →
    let k := outer.length
    let n := sp.loop.lcAt k - 1
    (n ≠ 0 → (sp.advance Flow.next).pc = BitVec.ofNat 64 v.start ∧
      (sp.advance Flow.next).loop.levels = sp.loop.levels ∧ (sp.advance Flow.next).loop.lc = sp.loop.lc.set k n) ∧
    (n = 0 →
      let q := { sp with loop := { sp.loop with lc := sp.loop.lc.set k 0, levels := outer } }
      (sp.advance Flow.next).pc = (q.advance Flow.next).pc ∧
      (sp.advance Flow.next).loop.levels = (q.advance Flow.next).loop.levels ∧
      (sp.advance Flow.next).loop.lc = (q.advance Flow.next).loop.lc))

/-- R29, R46: a lane-wise word with a vector destination, a store or an atomic has no effect where no active lane's
guard is true, whatever its operands and addresses. -/
def Obligations.GuardedWordsRest : Prop :=
  ∀ (s : State) (e : Env) (m : BitVec 1) (d a b : BitVec 8) (k : BitVec 16), Issues s e → e.lanes = [] →
    let rests (i : Instr) : Prop := exec i s = .next (e.done m i Flow.next (opened s))
    (isVec d = true →
      ∀ i ∈ ([.add m d a b, .sub m d a b, .mul m d a b, .mulh m d a b, .fma m d a b, .div m d a b, .rem m d a b,
        .min m d a b, .max m d a b, .and m d a b, .or m d a b, .xor m d a b, .andn m d a b, .shl m d a b, .shr m d a b,
        .sra m d a b, .bfx m d a b, .bfi m d a b, .permb m d a b, .addx m d a b, .mov m d a, .not m d a, .neg m d a,
        .abs m d a, .popc m d a, .clz m d a, .ctz m d a, .brev m d a, .frc m d a, .rint m d a, .rcp m d a, .rsq m d a,
        .sqrt m d a, .exp2 m d a, .log2 m d a, .sinp m d a, .cosp m d a, .tanh m d a, .li m d k, .lih m d k,
        .ldb m d a b, .ldh m d a b, .ldw m d a b, .ldd m d a b, .ldq m d a b, .lda m d a b, .ldad m d a b, .ldc m d a b,
        .lds m d a b] : List Instr), rests i) ∧
    (∀ i ∈ ([.stb m d a b, .sth m d a b, .stw m d a b, .std m d a b, .stq m d a b, .stl m d a b, .stld m d a b,
        .sts m d a b] : List Instr), rests i) ∧
    (isVec d = true →
      ∀ i ∈ ([.atadd m d a b, .atmin m d a b, .atmax m d a b, .atand m d a b, .ator m d a b, .atxor m d a b,
        .atswp m d a b, .atcas m d a b, .atfadd m d a b, .atinc m d a b] : List Instr), rests i)

/-- R45 step 4, R46, R47: a word that only a crew executes traps ILLEGAL at step 4 for another issuer, and a control word
whose operand must be scalar does so for a vector register. -/
def Obligations.WrongIssuersTrap : Prop :=
  ∀ (s : State) (e : Env) (m : BitVec 1) (d a : BitVec 8) (p : BitVec 7) (k : BitVec 2) (n : BitVec 4) (o : BitVec 20),
    Issues s e →
    let trap (i : Instr) : Prop :=
      exec i s = .next (raiseTrap e.tid e.sid (openTrap s e causeIllegal 4 e.active 0) (opened s))
    (e.th.kind ≠ .crew →
      ∀ i ∈ ([.sys m d, .brk m d, .tret m, .brd m n o, .join m n, .bar m k, .bara m k, .barw m k, .pfence m p,
        .icinv m, .setgang m a, .cwb m d a, .cinv m d a, .cflush m d a] : List Instr), trap i) ∧
    (isVec a = true → ∀ i ∈ ([.loop m a d, .jmpr m d a, .waitt m a, .setmoder m 0 a] : List Instr), trap i)

/-- R26, R101: when an access of a load or a store has a bad address, the word traps in every lane whose address is
not canonical or misaligned: ACCESS when one of them is not canonical, ALIGN otherwise; FAULTVA is the address of the
lowest of these lanes. -/
def Obligations.BadAddressesTrap : Prop :=
  ∀ (s : State) (e : Env) (m : BitVec 1) (d a o : BitVec 8), Issues s e →
    let bad (size : Nat) (ps : List Part) : List Part := ps.filter (fun p => !canonicalVa p.va || decide (p.va % size ≠ 0))
    let far (ps : List Part) : Bool := ps.any (fun p => !canonicalVa p.va)
    let traps (i : Instr) (cause : Nat) (ps : List Part) : Prop :=
      exec i s = .next (raiseTrap e.tid e.sid (openTrap s e cause 0 (ps.flatMap Part.lanes) ((ps.head?.map Part.va).getD 0)) (opened s))
    let fails (i : Instr) (size : Nat) (ps : List Part) : Prop :=
      (far ps = true → traps i causeAccess (bad size ps)) ∧
      (far ps = false → bad size ps ≠ [] → traps i causeAlign (bad size ps))
    let load (n : Nat) : Prop := e.takes d ∧ OpsOk e anyKind [⟨d, .any, n⟩, ⟨a, if isVec d then .any else .scal, 2⟩]
    let store (n : Nat) : Prop := e.lanes ≠ [] ∧ OpsOk e storeKinds [⟨d, .any, n⟩, ⟨a, .any, 2⟩]
    (load 1 → e.typeReserved = false → fails (.ldb m d a o) 1 (loadParts e d a o.toNat) ∧
      fails (.ldh m d a o) 2 (loadParts e d a (2 * o.toNat))) ∧
    (load 1 → fails (.ldw m d a o) 4 (loadParts e d a (4 * o.toNat))) ∧
    (load 2 → fails (.ldd m d a o) 8 (loadParts e d a (8 * o.toNat))) ∧
    (load 4 → fails (.ldq m d a o) 16 (loadParts e d a (16 * o.toNat))) ∧
    (store 1 → fails (.stb m d a o) 1 (storeParts e a o.toNat) ∧ fails (.sth m d a o) 2 (storeParts e a (2 * o.toNat)) ∧
      fails (.stw m d a o) 4 (storeParts e a (4 * o.toNat))) ∧
    (store 2 → fails (.std m d a o) 8 (storeParts e a (8 * o.toNat))) ∧
    (store 4 → fails (.stq m d a o) 16 (storeParts e a (16 * o.toNat)))

/-- The frame of a word that only writes registers (R10, R22): memory, every other thread and every other split stay as
they were; the word's own thread keeps its registers until the run closes, and at the close a register that no result
of the run names keeps its value, FLAGS but for the bits raised and cleared, and the special registers, modes and trap
registers when no result names one. -/
def Obligations.RegisterWordsFrame : Prop :=
  ∀ (s : State) (e : Env) (m : BitVec 1) (i : Instr) (ws : List RegWrite) (fl : Word), Issues s e →
    e.sp.run.isOpen = true → exec i s = .next (e.wrote m i ws fl (opened s)) →
    ∃ t t', exec i s = .next t ∧ Sparse.find? t.threads e.tid = some t' ∧ MemoryKept s t ∧
      (∀ k, k ≠ e.tid → Sparse.find? t.threads k = Sparse.find? s.threads k) ∧
      (∀ k, k ≠ e.sid → Sparse.find? t'.splits k = Sparse.find? e.th.splits k) ∧
      t'.kind = e.th.kind ∧ t'.launch = e.th.launch ∧ t'.handler = e.th.handler ∧ t'.circ = e.th.circ ∧
      (m = 0#1 → e.sp.run.count + 1 < 64 → t'.regs = e.th.regs) ∧
      (RegsOk e.th.regs →
        (∀ n, untouchedS n (e.sp.run.pend ++ ws) → t'.regs.scal n = e.th.regs.scal n) ∧
        (∀ l n, untouchedV l n (e.sp.run.pend ++ ws) → t'.regs.vec l n = e.th.regs.vec l n) ∧
        (∀ l n, untouchedP l n (e.sp.run.pend ++ ws) → t'.regs.pred l n = e.th.regs.pred l n)) ∧
      (t'.regs.flags = e.th.regs.flags ∨
        t'.regs.flags = ((e.th.regs.flags &&& ~~~e.sp.run.flagClr) ||| (e.sp.run.flagSet ||| fl)) &&& 0x7F) ∧
      (noSpecials (e.sp.run.pend ++ ws) →
        { t'.regs with v := e.th.regs.v, p := e.th.regs.p, s := e.th.regs.s, flags := e.th.regs.flags } = e.th.regs ∧
        ∃ sp, Sparse.find? t'.splits e.sid = some sp ∧ sp.trapRegs = e.sp.trapRegs ∧ sp.member = e.sp.member ∧
          sp.exited = e.sp.exited ∧ sp.saved = e.sp.saved)

/-- The frame of STB, STH, STW, STD and STQ (R103, R233, R301) where every part hits a writable line of the cluster's
cache (one that no acquire has found older, R234) and the split has no write of its own in the tile-layout unit (R302): main memory, the L2 level and every other cluster stay, and in the cluster's cache every byte outside the stored
ones; the thread's registers do not change. -/
def Obligations.StoreFrame : Prop :=
  ∀ (s : State) (e : Env) (d a o : BitVec 8),
    let cl := clusterOf e.th.core
    let frame (i : Instr) (size n : Nat) : Prop :=
      StoreReady s e d a (size * o.toNat) size n → e.sp.run.isOpen = true →
      e.sp.run.count + 1 < 64 →
      (∀ l ∈ (getCluster (opened s) cl).cache, Sparse.wf 0 l.data = true) →
      (∀ p ∈ storeParts e a (size * o.toNat), ∃ l, clFind (opened s) cl e.cid (p.va / 128) = some l ∧ l.w = true ∧
        l.shadow = false ∧ l.stale = false) →
      ownWrites e (opened s) = [] →
      ∃ t t', exec i s = .next t ∧ t.mem = s.mem ∧ t.l2 = s.l2 ∧ Sparse.find? t.threads e.tid = some t' ∧
        t'.regs = e.th.regs ∧ (∀ k, k ≠ cl → getCluster t k = getCluster s k) ∧
        (∀ cid va, (cid ≠ e.cid ∨ ∀ p ∈ storeParts e a (size * o.toNat), ¬ covers size va p) →
          clByte t cl cid va = clByte s cl cid va)
    frame (.stb 0#1 d a o) 1 1 ∧ frame (.sth 0#1 d a o) 2 1 ∧ frame (.stw 0#1 d a o) 4 1 ∧ frame (.std 0#1 d a o) 8 2 ∧
      frame (.stq 0#1 d a o) 16 4

/-- The frame of STS (R230, R231, R270) whose banks are active: memory and the caches stay, every register, every other
cluster, and every byte of the cluster's banks outside the words stored. -/
def Obligations.ScratchStoreFrame : Prop :=
  ∀ (s : State) (e : Env) (d a o : BitVec 8), Issues s e → e.lanes ≠ [] → e.sp.run.isOpen = true →
    e.sp.run.count + 1 < 64 → OpsOk e crewOnly [⟨d, .any, 1⟩, ⟨a, .any, 1⟩] →
    let cl := clusterOf e.th.core
    let ps : List Part := if !isVec a then [⟨e.lanes, e.scratchAddr 0 a o⟩]
      else e.lanes.map (fun l => ⟨[l], e.scratchAddr l a o⟩)
    let at_ (p : Part) : Nat × Nat := scratchOf e (opened s) p
    (∀ p ∈ ps, p.va < spadOf (opened s) e.th.launch ∧ p.va % 4 = 0) →
    (∀ p ∈ ps, (getBank s cl (at_ p).1).pwr = .active) →
    (∀ b, Sparse.wf 0 (getBank s cl b).data = true) →
    ∃ t t', exec (.sts 0#1 d a o) s = .next t ∧ MemoryKept s t ∧ Sparse.find? t.threads e.tid = some t' ∧
      t'.regs = e.th.regs ∧ (∀ k, k ≠ cl → getCluster t k = getCluster s k) ∧
      (∀ b x, (∀ p ∈ ps, (at_ p).1 = b → ¬ ((at_ p).2 ≤ x ∧ x < (at_ p).2 + 4)) →
        (getBank t cl b).readByte x = (getBank s cl b).readByte x)

/-- A write by physical address (R236, R301): main memory keeps its canonical form, bytes outside the write read as before,
and a byte whose line the L2 level does not hold reads back. -/
def Obligations.MemoryReadsWrites : Prop :=
  ∀ (s : State) (pa : Nat) (xs : List Byte), s.memOk →
    (physWrite s pa xs).memOk ∧
    (∀ a, ¬ (pa ≤ a ∧ a < pa + xs.length) → Memory.read (physWrite s pa xs).mem a = Memory.read s.mem a) ∧
    (∀ k x, xs[k]? = some x → linesOf s ((pa + k) / 128) = [] → Memory.read (physWrite s pa xs).mem (pa + k) = x)

/-- The model's step (log 6): with nothing on the agenda it executes the instruction of the word that the split whose turn it is fetches; a
split that waited goes on with the word that it waits in; a word that is none traps. Time passes and the next turn is
decided after it. -/
def Sys2Proof.Claims.StepRunsTheWord : Prop :=
  ∀ (s : State) (tid sid : Nat) (t : Thread) (sp : Split), s.agenda = [] → s.turn = some (tid, sid) →
    Sparse.find? s.threads tid = some t → Sparse.find? t.splits sid = some sp →
    (∀ w u i, sp.wait = none → fetchWord t sp s = (.ok w, u) → decodeWord w.toNat = .ok i →
      step s = andThen nextTurn (exec i u)) ∧
    (∀ w u r, sp.wait = none → fetchWord t sp s = (.ok w, u) → decodeWord w.toNat = .error r →
      step s = andThen nextTurn (exec (.illegalInstruction r.why.check ⟨r.guarded, w.extractLsb' 31 1⟩) u)) ∧
    (∀ w, sp.wait = some w → step s = andThen nextTurn (exec w.instr s))

/-- An event on the agenda takes effect before any split issues, and time passes in a step in which nothing can. -/
def Sys2Proof.Claims.StepTakesTheEvent : Prop :=
  (∀ (s : State) (i : Instr) (rest : List Instr), s.agenda = i :: rest →
    step s = andThen pickTurn (exec i { s with agenda := rest })) ∧
  (∀ s : State, s.agenda = [] → s.turn = none → step s = .next (pickTurn (idle s)))

/-- One step, in the order that is the model's choice (log 6): the event that is due, or the word of the split whose turn
it is, or time that passes. -/
def Obligations.StepRule : Prop := StepRunsTheWord ∧ StepTakesTheEvent

/-- No instruction stops the machine: every instruction of every state has a next state, but for a word of R41 when no
split issues. -/
def Obligations.NothingStops : Prop :=
  ∀ (i : Instr) (s : State), (∃ t, exec i s = .next t) ∨ (issuer s = none ∧ exec i s = .fault .noIssuer)

/-- After every step the split whose turn it is may issue (R163, R186, R375): it is ACTIVE on its core, waits for nothing,
and is the one in the handler when its crew has one. -/
def Obligations.TurnStaysReady : Prop := ∀ s t : State, TurnOk s → step s = .next t → TurnOk t

/-- What reset leaves (R225, R406, R429): no split issues, nothing is due, partition 63 alone exists, every bank is as
R225 says, and the device is in reset. That memory reads zero before R429 step 3 has written it is the model's choice
(log 59), and so are the banks' timers (log 5) and the empty agenda (log 6). -/
def Obligations.ResetState : Prop :=
  State.reset.memOk ∧ TurnOk State.reset ∧ (∀ a, Memory.read State.reset.mem a = 0) ∧
    State.reset.parts.map Prod.fst = [63] ∧ State.reset.threads = [] ∧ State.reset.agenda = [] ∧
    State.reset.station.inReset = true ∧ (∀ cl b, getBank State.reset cl b = Bank.reset)

/-- R32 to R43: words that the spec writes out decode to the instructions that it gives beside them, in order: FMA v6,
v2, v3 !; CMP LT, p3, v4, v5; PRED AND, p2, p1, ~p3; SQRT v2, v1; CVT F32, F16, v2, v1; LI v1, #5; SETMODE TYPE, F32;
BRD #1, skip; LOOP s4, #3; EXIT !; SHFLDN v3, v1, #4; BARW #2 !; DQPOP s6:s7; SPAWN v8:v11, v12:v15; MKTERM INT,
v2:v3, v4:v5; UNIFY v6, v0:v1, v2:v3; LDW v6, s4:s5, #12; STLD v2:v3, s6:s7, #16; FTRYPOP v4, s6; ATCAS v2, s4:s5,
v8:v9; PIN s6:s7, s4:s5; BANKPWR s6, (1,3); LMSG v8, (2,11); TSPLIT s10:s11, s8, s12:s13; COPY s8:s9, s4:s5, s6:s7;
RDV MSEQ, CSEQ, s12; MSTREAM s10, s5, s11; MSHADOW SAVE. -/
def Obligations.WordsDecode : Prop :=
  ([
   0x85060203, 0x15430405, 0x16020183, 0x18020112, 0x19020123, 0x1A010005, 0x1C020002, 0x22100003, 0x24C40200,
   0xA8000008, 0x2B030144, 0xAE00000A, 0x2FC60001, 0x3000080C, 0x3802040B, 0x39060002, 0x4206C403, 0x4D02C602,
   0x5104C602, 0x5902C408, 0x5EC6C404, 0x60C61181, 0x61082580, 0x64CAC8CC, 0x68C8C4C6, 0x6CCC0003, 0x73CAC5CB,
   0x76000000] : List Nat).map decodeWord = [
   .ok (.fma 1 6 2 3), .ok (.cmp 0 2 3 4 5), .ok (.pred 0 0 2 0 1 1 3), .ok (.sqrt 0 2 1), .ok (.cvt 0 2 1 2 3), .ok
   (.li 0 1 5), .ok (.setmode 0 2 2), .ok (.brd 0 1 3), .ok (.loop 0 0xC4 2), .ok (.exit 1), .ok (.shfldn 0 3 1 4),
   .ok (.barw 1 2), .ok (.dqpop 0 0xC6), .ok (.spawn 0 8 12), .ok (.mkterm 0 2 4 3), .ok (.unify 0 6 0 2), .ok (.ldw
   0 6 0xC4 3), .ok (.stld 0 2 0xC6 2), .ok (.ftrypop 0 4 0xC6), .ok (.atcas 0 2 0xC4 8), .ok (.pin 0 0xC6 0xC4),
   .ok (.bankpwr 0 0xC6 1 3), .ok (.lmsg 0 8 2 11), .ok (.tsplit 0 0xCA 0xC8 0xCC), .ok (.copy 0 0xC8 0xC4 0xC6),
   .ok (.rdv 0 0xCC 3), .ok (.mstream 0 0xCA 0xC5 0xCB), .ok (.mshadow 0 0)]

/-- Decoding the encoding of a well-formed instruction gives it back. -/
def Obligations.EncodeDecode : Prop :=
  ∀ i w, i.wellFormed = true → encode i = some w → decodeWord w = .ok i
end

