-- ==== Sys2Proof/Laws/Sparse.lean ====
section
/-! SUPPORT. Reading, writing and erasing in sparse maps, and the canonical form that they keep. -/

namespace Sys2Proof

variable {α : Type}

/-- What is put at a key is found there. -/
@[simp] theorem Sparse.find?_put_same (m : Sparse α) (i : Nat) (x : α) : Sparse.find? (Sparse.put m i x) i = some x := by
  induction m with
  | nil => simp [Sparse.put, Sparse.find?]
  | cons kv m ih =>
    obtain ⟨k, v⟩ := kv
    by_cases h : i = k
    · simp [Sparse.put, Sparse.find?, h]
    · by_cases h' : i < k <;> simp [Sparse.put, Sparse.find?, h, h', ih]

/-- A put leaves every other key alone. -/
theorem Sparse.find?_put_other (m : Sparse α) {i j : Nat} (x : α) (hij : j ≠ i) :
    Sparse.find? (Sparse.put m i x) j = Sparse.find? m j := by
  induction m with
  | nil => simp [Sparse.put, Sparse.find?, hij]
  | cons kv m ih =>
    obtain ⟨k, v⟩ := kv
    by_cases h : i = k
    · subst h; simp [Sparse.put, Sparse.find?, hij]
    · by_cases h' : i < k
      · simp only [Sparse.put, h, h', if_true, if_false, Sparse.find?, hij]
        by_cases hj : j < i
        · have h1 : j ≠ k := by omega
          have h2 : j < k := by omega
          simp [hj, h1, h2]
        · simp [hj]
      · simp only [Sparse.put, h, h', if_false, Sparse.find?, ih]

/-- Rising keys stay rising when the bound falls. -/
theorem Sparse.sortedFrom_mono {m : Sparse α} {lo hi : Nat} (h : Sparse.sortedFrom hi m = true) (hl : lo ≤ hi) :
    Sparse.sortedFrom lo m = true := by
  cases m with
  | nil => rfl
  | cons kv m =>
    simp only [Sparse.sortedFrom, Bool.and_eq_true, decide_eq_true_eq] at h ⊢
    exact ⟨by omega, h.2⟩

/-- Nothing is found below the bound. -/
theorem Sparse.find?_below {m : Sparse α} {lo i : Nat} (h : Sparse.sortedFrom lo m = true) (hi : i < lo) :
    Sparse.find? m i = none := by
  cases m with
  | nil => rfl
  | cons kv m =>
    obtain ⟨k, v⟩ := kv
    simp only [Sparse.sortedFrom, Bool.and_eq_true, decide_eq_true_eq] at h
    have h1 : i ≠ k := by omega
    have h2 : i < k := by omega
    simp [Sparse.find?, h1, h2]

theorem Sparse.sortedFrom_put {m : Sparse α} {lo i : Nat} {x : α} (h : Sparse.sortedFrom lo m = true) (hi : lo ≤ i) :
    Sparse.sortedFrom lo (Sparse.put m i x) = true := by
  induction m generalizing lo with
  | nil => simp [Sparse.put, Sparse.sortedFrom, hi]
  | cons kv m ih =>
    obtain ⟨k, v⟩ := kv
    simp only [Sparse.sortedFrom, Bool.and_eq_true, decide_eq_true_eq] at h
    by_cases h1 : i = k
    · subst h1; simp [Sparse.put, Sparse.sortedFrom, hi, h.2]
    · by_cases h2 : i < k
      · simp [Sparse.put, Sparse.sortedFrom, h1, h2, hi, h.2]
      · have : k + 1 ≤ i := by omega
        simp [Sparse.put, Sparse.sortedFrom, h1, h2, h.1, ih h.2 this]

theorem Sparse.sortedFrom_erase {m : Sparse α} {lo i : Nat} (h : Sparse.sortedFrom lo m = true) :
    Sparse.sortedFrom lo (Sparse.erase m i) = true := by
  induction m generalizing lo with
  | nil => rfl
  | cons kv m ih =>
    obtain ⟨k, v⟩ := kv
    have h0 := h
    simp only [Sparse.sortedFrom, Bool.and_eq_true, decide_eq_true_eq] at h
    by_cases h1 : i = k
    · simp only [Sparse.erase, h1, if_true]; exact Sparse.sortedFrom_mono h.2 (by omega)
    · by_cases h2 : i < k
      · simp only [Sparse.erase, h1, h2, if_true, if_false]; exact h0
      · simp [Sparse.erase, Sparse.sortedFrom, h1, h2, h.1, ih h.2]

theorem Sparse.find?_erase_same {m : Sparse α} {lo i : Nat} (h : Sparse.sortedFrom lo m = true) :
    Sparse.find? (Sparse.erase m i) i = none := by
  induction m generalizing lo with
  | nil => rfl
  | cons kv m ih =>
    obtain ⟨k, v⟩ := kv
    simp only [Sparse.sortedFrom, Bool.and_eq_true, decide_eq_true_eq] at h
    by_cases h1 : i = k
    · subst h1; simp only [Sparse.erase, if_true]; exact Sparse.find?_below h.2 (by omega)
    · by_cases h2 : i < k
      · simp [Sparse.erase, Sparse.find?, h1, h2]
      · simp [Sparse.erase, Sparse.find?, h1, h2, ih h.2]

theorem Sparse.find?_erase_other {m : Sparse α} {lo i j : Nat} (h : Sparse.sortedFrom lo m = true) (hij : j ≠ i) :
    Sparse.find? (Sparse.erase m i) j = Sparse.find? m j := by
  induction m generalizing lo with
  | nil => rfl
  | cons kv m ih =>
    obtain ⟨k, v⟩ := kv
    simp only [Sparse.sortedFrom, Bool.and_eq_true, decide_eq_true_eq] at h
    by_cases h1 : i = k
    · subst h1
      simp only [Sparse.erase, if_true, Sparse.find?, hij, if_false]
      by_cases hj : j < i
      · rw [Sparse.find?_below h.2 (by omega)]; simp [hj]
      · simp [hj]
    · by_cases h2 : i < k
      · simp [Sparse.erase, h1, h2]
      · simp only [Sparse.erase, h1, h2, if_false, Sparse.find?, ih h.2]

/-- Every listed entry of a put is the new one or an old one. -/
theorem Sparse.mem_put {m : Sparse α} {i : Nat} {x : α} {kv : Nat × α} (h : kv ∈ Sparse.put m i x) :
    kv = (i, x) ∨ kv ∈ m := by
  induction m with
  | nil => simpa [Sparse.put] using h
  | cons a m ih =>
    obtain ⟨k, v⟩ := a
    unfold Sparse.put at h
    split at h
    · rcases List.mem_cons.mp h with h | h
      · exact .inl h
      · exact .inr (List.mem_cons_of_mem _ h)
    · split at h
      · rcases List.mem_cons.mp h with h | h
        · exact .inl h
        · exact .inr h
      · rcases List.mem_cons.mp h with h | h
        · exact .inr (h ▸ List.mem_cons_self)
        · exact (ih h).imp id (List.mem_cons_of_mem _)

theorem Sparse.mem_erase {m : Sparse α} {i : Nat} {kv : Nat × α} (h : kv ∈ Sparse.erase m i) : kv ∈ m := by
  induction m with
  | nil => exact h
  | cons a m ih =>
    obtain ⟨k, v⟩ := a
    unfold Sparse.erase at h
    split at h
    · exact List.mem_cons_of_mem _ h
    · split at h
      · exact h
      · rcases List.mem_cons.mp h with h | h
        · exact h ▸ List.mem_cons_self
        · exact List.mem_cons_of_mem _ (ih h)

variable [DecidableEq α]

/-- A write keeps the canonical form. -/
theorem Sparse.wf_set {d : α} {m : Sparse α} (i : Nat) (x : α) (h : Sparse.wf d m = true) :
    Sparse.wf d (Sparse.set d m i x) = true := by
  unfold Sparse.wf at h ⊢
  simp only [Bool.and_eq_true, List.all_eq_true, decide_eq_true_eq] at h ⊢
  obtain ⟨hs, hd⟩ := h
  unfold Sparse.set
  split
  · exact ⟨Sparse.sortedFrom_erase hs, fun kv hk => hd kv (Sparse.mem_erase hk)⟩
  · next hx =>
    refine ⟨Sparse.sortedFrom_put hs (Nat.zero_le _), fun kv hk => ?_⟩
    rcases Sparse.mem_put hk with rfl | hk
    · exact hx
    · exact hd kv hk

/-- Writes of consecutive keys keep the canonical form. -/
theorem Sparse.wf_setAll {d : α} {m : Sparse α} (i : Nat) (xs : List α) (h : Sparse.wf d m = true) :
    Sparse.wf d (Sparse.setAll d m i xs) = true := by
  induction xs generalizing m i with
  | nil => exact h
  | cons x xs ih => exact ih (i + 1) (Sparse.wf_set i x h)

/-- A read after a write to the same key. -/
theorem Sparse.get_set_same {d : α} {m : Sparse α} (i : Nat) (x : α) (h : Sparse.wf d m = true) :
    Sparse.get d (Sparse.set d m i x) i = x := by
  unfold Sparse.wf at h
  simp only [Bool.and_eq_true] at h
  unfold Sparse.get Sparse.set
  split
  · next hx => rw [Sparse.find?_erase_same h.1]; exact hx.symm
  · simp

/-- A write leaves every other key alone. -/
theorem Sparse.get_set_other {d : α} {m : Sparse α} {i j : Nat} (x : α) (h : Sparse.wf d m = true) (hij : j ≠ i) :
    Sparse.get d (Sparse.set d m i x) j = Sparse.get d m j := by
  unfold Sparse.wf at h
  simp only [Bool.and_eq_true] at h
  unfold Sparse.get Sparse.set
  split
  · rw [Sparse.find?_erase_other h.1 hij]
  · rw [Sparse.find?_put_other _ _ hij]

end Sys2Proof
end

