-- ==== Sys2Proof/Laws/State.lean ====
section
/-! SUPPORT. What each named update of the state does to each of its fields: the one it changes, and all the others,
which stay. -/

namespace Sys2Proof.Machine

variable (s : State)

/-! ## modThread -/

@[simp] theorem modThread_chiptime (k : Nat) (f : Thread → Thread) : (modThread k f s).chiptime = s.chiptime := rfl
@[simp] theorem modThread_agenda (k : Nat) (f : Thread → Thread) : (modThread k f s).agenda = s.agenda := rfl
@[simp] theorem modThread_calendar (k : Nat) (f : Thread → Thread) : (modThread k f s).calendar = s.calendar := rfl
@[simp] theorem modThread_turn (k : Nat) (f : Thread → Thread) : (modThread k f s).turn = s.turn := rfl
@[simp] theorem modThread_abreast (k : Nat) (f : Thread → Thread) : (modThread k f s).abreast = s.abreast := rfl
@[simp] theorem modThread_passed (k : Nat) (f : Thread → Thread) : (modThread k f s).passed = s.passed := rfl
@[simp] theorem modThread_scoutAt (k : Nat) (f : Thread → Thread) : (modThread k f s).scoutAt = s.scoutAt := rfl
@[simp] theorem modThread_fresh (k : Nat) (f : Thread → Thread) : (modThread k f s).fresh = s.fresh := rfl
@[simp] theorem modThread_links (k : Nat) (f : Thread → Thread) : (modThread k f s).links = s.links := rfl
@[simp] theorem modThread_mem (k : Nat) (f : Thread → Thread) : (modThread k f s).mem = s.mem := rfl
@[simp] theorem modThread_marks (k : Nat) (f : Thread → Thread) : (modThread k f s).marks = s.marks := rfl
@[simp] theorem modThread_poison (k : Nat) (f : Thread → Thread) : (modThread k f s).poison = s.poison := rfl
@[simp] theorem modThread_rewrites (k : Nat) (f : Thread → Thread) : (modThread k f s).rewrites = s.rewrites := rfl
@[simp] theorem modThread_codes (k : Nat) (f : Thread → Thread) : (modThread k f s).codes = s.codes := rfl
@[simp] theorem modThread_metadata (k : Nat) (f : Thread → Thread) : (modThread k f s).metadata = s.metadata := rfl
@[simp] theorem modThread_l2 (k : Nat) (f : Thread → Thread) : (modThread k f s).l2 = s.l2 := rfl
@[simp] theorem modThread_msgs (k : Nat) (f : Thread → Thread) : (modThread k f s).msgs = s.msgs := rfl
@[simp] theorem modThread_flips (k : Nat) (f : Thread → Thread) : (modThread k f s).flips = s.flips := rfl
@[simp] theorem modThread_prefetches (k : Nat) (f : Thread → Thread) : (modThread k f s).prefetches = s.prefetches := rfl
@[simp] theorem modThread_writes (k : Nat) (f : Thread → Thread) : (modThread k f s).writes = s.writes := rfl
@[simp] theorem modThread_imagePages (k : Nat) (f : Thread → Thread) : (modThread k f s).imagePages = s.imagePages := rfl
@[simp] theorem modThread_imageGen (k : Nat) (f : Thread → Thread) : (modThread k f s).imageGen = s.imageGen := rfl
@[simp] theorem modThread_tlb (k : Nat) (f : Thread → Thread) : (modThread k f s).tlb = s.tlb := rfl
@[simp] theorem modThread_revmap (k : Nat) (f : Thread → Thread) : (modThread k f s).revmap = s.revmap := rfl
@[simp] theorem modThread_pins (k : Nat) (f : Thread → Thread) : (modThread k f s).pins = s.pins := rfl
@[simp] theorem modThread_stashWays (k : Nat) (f : Thread → Thread) : (modThread k f s).stashWays = s.stashWays := rfl
@[simp] theorem modThread_tiles (k : Nat) (f : Thread → Thread) : (modThread k f s).tiles = s.tiles := rfl
@[simp] theorem modThread_windows (k : Nat) (f : Thread → Thread) : (modThread k f s).windows = s.windows := rfl
@[simp] theorem modThread_windowCids (k : Nat) (f : Thread → Thread) : (modThread k f s).windowCids = s.windowCids := rfl
@[simp] theorem modThread_frames (k : Nat) (f : Thread → Thread) : (modThread k f s).frames = s.frames := rfl
@[simp] theorem modThread_threads (k : Nat) (f : Thread → Thread) : (modThread k f s).threads = Sparse.alter s.threads k f := rfl
@[simp] theorem modThread_launches (k : Nat) (f : Thread → Thread) : (modThread k f s).launches = s.launches := rfl
@[simp] theorem modThread_circles (k : Nat) (f : Thread → Thread) : (modThread k f s).circles = s.circles := rfl
@[simp] theorem modThread_shares (k : Nat) (f : Thread → Thread) : (modThread k f s).shares = s.shares := rfl
@[simp] theorem modThread_engines (k : Nat) (f : Thread → Thread) : (modThread k f s).engines = s.engines := rfl
@[simp] theorem modThread_tries (k : Nat) (f : Thread → Thread) : (modThread k f s).tries = s.tries := rfl
@[simp] theorem modThread_clusters (k : Nat) (f : Thread → Thread) : (modThread k f s).clusters = s.clusters := rfl
@[simp] theorem modThread_cores (k : Nat) (f : Thread → Thread) : (modThread k f s).cores = s.cores := rfl
@[simp] theorem modThread_lanterns (k : Nat) (f : Thread → Thread) : (modThread k f s).lanterns = s.lanterns := rfl
@[simp] theorem modThread_contexts (k : Nat) (f : Thread → Thread) : (modThread k f s).contexts = s.contexts := rfl
@[simp] theorem modThread_parts (k : Nat) (f : Thread → Thread) : (modThread k f s).parts = s.parts := rfl
@[simp] theorem modThread_queues (k : Nat) (f : Thread → Thread) : (modThread k f s).queues = s.queues := rfl
@[simp] theorem modThread_served (k : Nat) (f : Thread → Thread) : (modThread k f s).served = s.served := rfl
@[simp] theorem modThread_sources (k : Nat) (f : Thread → Thread) : (modThread k f s).sources = s.sources := rfl
@[simp] theorem modThread_ports (k : Nat) (f : Thread → Thread) : (modThread k f s).ports = s.ports := rfl
@[simp] theorem modThread_routes (k : Nat) (f : Thread → Thread) : (modThread k f s).routes = s.routes := rfl
@[simp] theorem modThread_station (k : Nat) (f : Thread → Thread) : (modThread k f s).station = s.station := rfl
@[simp] theorem modThread_monitors (k : Nat) (f : Thread → Thread) : (modThread k f s).monitors = s.monitors := rfl
@[simp] theorem modThread_reserveOn (k : Nat) (f : Thread → Thread) : (modThread k f s).reserveOn = s.reserveOn := rfl
@[simp] theorem modThread_reply (k : Nat) (f : Thread → Thread) : (modThread k f s).reply = s.reply := rfl
@[simp] theorem modThread_replyErr (k : Nat) (f : Thread → Thread) : (modThread k f s).replyErr = s.replyErr := rfl

/-! ## modSplit -/

@[simp] theorem modSplit_chiptime (k n : Nat) (f : Split → Split) : (modSplit k n f s).chiptime = s.chiptime := rfl
@[simp] theorem modSplit_agenda (k n : Nat) (f : Split → Split) : (modSplit k n f s).agenda = s.agenda := rfl
@[simp] theorem modSplit_calendar (k n : Nat) (f : Split → Split) : (modSplit k n f s).calendar = s.calendar := rfl
@[simp] theorem modSplit_turn (k n : Nat) (f : Split → Split) : (modSplit k n f s).turn = s.turn := rfl
@[simp] theorem modSplit_abreast (k n : Nat) (f : Split → Split) : (modSplit k n f s).abreast = s.abreast := rfl
@[simp] theorem modSplit_passed (k n : Nat) (f : Split → Split) : (modSplit k n f s).passed = s.passed := rfl
@[simp] theorem modSplit_scoutAt (k n : Nat) (f : Split → Split) : (modSplit k n f s).scoutAt = s.scoutAt := rfl
@[simp] theorem modSplit_fresh (k n : Nat) (f : Split → Split) : (modSplit k n f s).fresh = s.fresh := rfl
@[simp] theorem modSplit_links (k n : Nat) (f : Split → Split) : (modSplit k n f s).links = s.links := rfl
@[simp] theorem modSplit_mem (k n : Nat) (f : Split → Split) : (modSplit k n f s).mem = s.mem := rfl
@[simp] theorem modSplit_marks (k n : Nat) (f : Split → Split) : (modSplit k n f s).marks = s.marks := rfl
@[simp] theorem modSplit_poison (k n : Nat) (f : Split → Split) : (modSplit k n f s).poison = s.poison := rfl
@[simp] theorem modSplit_rewrites (k n : Nat) (f : Split → Split) : (modSplit k n f s).rewrites = s.rewrites := rfl
@[simp] theorem modSplit_codes (k n : Nat) (f : Split → Split) : (modSplit k n f s).codes = s.codes := rfl
@[simp] theorem modSplit_metadata (k n : Nat) (f : Split → Split) : (modSplit k n f s).metadata = s.metadata := rfl
@[simp] theorem modSplit_l2 (k n : Nat) (f : Split → Split) : (modSplit k n f s).l2 = s.l2 := rfl
@[simp] theorem modSplit_msgs (k n : Nat) (f : Split → Split) : (modSplit k n f s).msgs = s.msgs := rfl
@[simp] theorem modSplit_flips (k n : Nat) (f : Split → Split) : (modSplit k n f s).flips = s.flips := rfl
@[simp] theorem modSplit_prefetches (k n : Nat) (f : Split → Split) : (modSplit k n f s).prefetches = s.prefetches := rfl
@[simp] theorem modSplit_writes (k n : Nat) (f : Split → Split) : (modSplit k n f s).writes = s.writes := rfl
@[simp] theorem modSplit_imagePages (k n : Nat) (f : Split → Split) : (modSplit k n f s).imagePages = s.imagePages := rfl
@[simp] theorem modSplit_imageGen (k n : Nat) (f : Split → Split) : (modSplit k n f s).imageGen = s.imageGen := rfl
@[simp] theorem modSplit_tlb (k n : Nat) (f : Split → Split) : (modSplit k n f s).tlb = s.tlb := rfl
@[simp] theorem modSplit_revmap (k n : Nat) (f : Split → Split) : (modSplit k n f s).revmap = s.revmap := rfl
@[simp] theorem modSplit_pins (k n : Nat) (f : Split → Split) : (modSplit k n f s).pins = s.pins := rfl
@[simp] theorem modSplit_stashWays (k n : Nat) (f : Split → Split) : (modSplit k n f s).stashWays = s.stashWays := rfl
@[simp] theorem modSplit_tiles (k n : Nat) (f : Split → Split) : (modSplit k n f s).tiles = s.tiles := rfl
@[simp] theorem modSplit_windows (k n : Nat) (f : Split → Split) : (modSplit k n f s).windows = s.windows := rfl
@[simp] theorem modSplit_windowCids (k n : Nat) (f : Split → Split) : (modSplit k n f s).windowCids = s.windowCids := rfl
@[simp] theorem modSplit_frames (k n : Nat) (f : Split → Split) : (modSplit k n f s).frames = s.frames := rfl
@[simp] theorem modSplit_threads (k n : Nat) (f : Split → Split) : (modSplit k n f s).threads = Sparse.alter s.threads k (fun t => { t with splits := Sparse.alter t.splits n f }) := rfl
@[simp] theorem modSplit_launches (k n : Nat) (f : Split → Split) : (modSplit k n f s).launches = s.launches := rfl
@[simp] theorem modSplit_circles (k n : Nat) (f : Split → Split) : (modSplit k n f s).circles = s.circles := rfl
@[simp] theorem modSplit_shares (k n : Nat) (f : Split → Split) : (modSplit k n f s).shares = s.shares := rfl
@[simp] theorem modSplit_engines (k n : Nat) (f : Split → Split) : (modSplit k n f s).engines = s.engines := rfl
@[simp] theorem modSplit_tries (k n : Nat) (f : Split → Split) : (modSplit k n f s).tries = s.tries := rfl
@[simp] theorem modSplit_clusters (k n : Nat) (f : Split → Split) : (modSplit k n f s).clusters = s.clusters := rfl
@[simp] theorem modSplit_cores (k n : Nat) (f : Split → Split) : (modSplit k n f s).cores = s.cores := rfl
@[simp] theorem modSplit_lanterns (k n : Nat) (f : Split → Split) : (modSplit k n f s).lanterns = s.lanterns := rfl
@[simp] theorem modSplit_contexts (k n : Nat) (f : Split → Split) : (modSplit k n f s).contexts = s.contexts := rfl
@[simp] theorem modSplit_parts (k n : Nat) (f : Split → Split) : (modSplit k n f s).parts = s.parts := rfl
@[simp] theorem modSplit_queues (k n : Nat) (f : Split → Split) : (modSplit k n f s).queues = s.queues := rfl
@[simp] theorem modSplit_served (k n : Nat) (f : Split → Split) : (modSplit k n f s).served = s.served := rfl
@[simp] theorem modSplit_sources (k n : Nat) (f : Split → Split) : (modSplit k n f s).sources = s.sources := rfl
@[simp] theorem modSplit_ports (k n : Nat) (f : Split → Split) : (modSplit k n f s).ports = s.ports := rfl
@[simp] theorem modSplit_routes (k n : Nat) (f : Split → Split) : (modSplit k n f s).routes = s.routes := rfl
@[simp] theorem modSplit_station (k n : Nat) (f : Split → Split) : (modSplit k n f s).station = s.station := rfl
@[simp] theorem modSplit_monitors (k n : Nat) (f : Split → Split) : (modSplit k n f s).monitors = s.monitors := rfl
@[simp] theorem modSplit_reserveOn (k n : Nat) (f : Split → Split) : (modSplit k n f s).reserveOn = s.reserveOn := rfl
@[simp] theorem modSplit_reply (k n : Nat) (f : Split → Split) : (modSplit k n f s).reply = s.reply := rfl
@[simp] theorem modSplit_replyErr (k n : Nat) (f : Split → Split) : (modSplit k n f s).replyErr = s.replyErr := rfl

/-! ## modLaunch -/

@[simp] theorem modLaunch_chiptime (k : Nat) (f : Launch → Launch) : (modLaunch k f s).chiptime = s.chiptime := rfl
@[simp] theorem modLaunch_agenda (k : Nat) (f : Launch → Launch) : (modLaunch k f s).agenda = s.agenda := rfl
@[simp] theorem modLaunch_calendar (k : Nat) (f : Launch → Launch) : (modLaunch k f s).calendar = s.calendar := rfl
@[simp] theorem modLaunch_turn (k : Nat) (f : Launch → Launch) : (modLaunch k f s).turn = s.turn := rfl
@[simp] theorem modLaunch_abreast (k : Nat) (f : Launch → Launch) : (modLaunch k f s).abreast = s.abreast := rfl
@[simp] theorem modLaunch_passed (k : Nat) (f : Launch → Launch) : (modLaunch k f s).passed = s.passed := rfl
@[simp] theorem modLaunch_scoutAt (k : Nat) (f : Launch → Launch) : (modLaunch k f s).scoutAt = s.scoutAt := rfl
@[simp] theorem modLaunch_fresh (k : Nat) (f : Launch → Launch) : (modLaunch k f s).fresh = s.fresh := rfl
@[simp] theorem modLaunch_links (k : Nat) (f : Launch → Launch) : (modLaunch k f s).links = s.links := rfl
@[simp] theorem modLaunch_mem (k : Nat) (f : Launch → Launch) : (modLaunch k f s).mem = s.mem := rfl
@[simp] theorem modLaunch_marks (k : Nat) (f : Launch → Launch) : (modLaunch k f s).marks = s.marks := rfl
@[simp] theorem modLaunch_poison (k : Nat) (f : Launch → Launch) : (modLaunch k f s).poison = s.poison := rfl
@[simp] theorem modLaunch_rewrites (k : Nat) (f : Launch → Launch) : (modLaunch k f s).rewrites = s.rewrites := rfl
@[simp] theorem modLaunch_codes (k : Nat) (f : Launch → Launch) : (modLaunch k f s).codes = s.codes := rfl
@[simp] theorem modLaunch_metadata (k : Nat) (f : Launch → Launch) : (modLaunch k f s).metadata = s.metadata := rfl
@[simp] theorem modLaunch_l2 (k : Nat) (f : Launch → Launch) : (modLaunch k f s).l2 = s.l2 := rfl
@[simp] theorem modLaunch_msgs (k : Nat) (f : Launch → Launch) : (modLaunch k f s).msgs = s.msgs := rfl
@[simp] theorem modLaunch_flips (k : Nat) (f : Launch → Launch) : (modLaunch k f s).flips = s.flips := rfl
@[simp] theorem modLaunch_prefetches (k : Nat) (f : Launch → Launch) : (modLaunch k f s).prefetches = s.prefetches := rfl
@[simp] theorem modLaunch_writes (k : Nat) (f : Launch → Launch) : (modLaunch k f s).writes = s.writes := rfl
@[simp] theorem modLaunch_imagePages (k : Nat) (f : Launch → Launch) : (modLaunch k f s).imagePages = s.imagePages := rfl
@[simp] theorem modLaunch_imageGen (k : Nat) (f : Launch → Launch) : (modLaunch k f s).imageGen = s.imageGen := rfl
@[simp] theorem modLaunch_tlb (k : Nat) (f : Launch → Launch) : (modLaunch k f s).tlb = s.tlb := rfl
@[simp] theorem modLaunch_revmap (k : Nat) (f : Launch → Launch) : (modLaunch k f s).revmap = s.revmap := rfl
@[simp] theorem modLaunch_pins (k : Nat) (f : Launch → Launch) : (modLaunch k f s).pins = s.pins := rfl
@[simp] theorem modLaunch_stashWays (k : Nat) (f : Launch → Launch) : (modLaunch k f s).stashWays = s.stashWays := rfl
@[simp] theorem modLaunch_tiles (k : Nat) (f : Launch → Launch) : (modLaunch k f s).tiles = s.tiles := rfl
@[simp] theorem modLaunch_windows (k : Nat) (f : Launch → Launch) : (modLaunch k f s).windows = s.windows := rfl
@[simp] theorem modLaunch_windowCids (k : Nat) (f : Launch → Launch) : (modLaunch k f s).windowCids = s.windowCids := rfl
@[simp] theorem modLaunch_frames (k : Nat) (f : Launch → Launch) : (modLaunch k f s).frames = s.frames := rfl
@[simp] theorem modLaunch_threads (k : Nat) (f : Launch → Launch) : (modLaunch k f s).threads = s.threads := rfl
@[simp] theorem modLaunch_launches (k : Nat) (f : Launch → Launch) : (modLaunch k f s).launches = Sparse.alter s.launches k f := rfl
@[simp] theorem modLaunch_circles (k : Nat) (f : Launch → Launch) : (modLaunch k f s).circles = s.circles := rfl
@[simp] theorem modLaunch_shares (k : Nat) (f : Launch → Launch) : (modLaunch k f s).shares = s.shares := rfl
@[simp] theorem modLaunch_engines (k : Nat) (f : Launch → Launch) : (modLaunch k f s).engines = s.engines := rfl
@[simp] theorem modLaunch_tries (k : Nat) (f : Launch → Launch) : (modLaunch k f s).tries = s.tries := rfl
@[simp] theorem modLaunch_clusters (k : Nat) (f : Launch → Launch) : (modLaunch k f s).clusters = s.clusters := rfl
@[simp] theorem modLaunch_cores (k : Nat) (f : Launch → Launch) : (modLaunch k f s).cores = s.cores := rfl
@[simp] theorem modLaunch_lanterns (k : Nat) (f : Launch → Launch) : (modLaunch k f s).lanterns = s.lanterns := rfl
@[simp] theorem modLaunch_contexts (k : Nat) (f : Launch → Launch) : (modLaunch k f s).contexts = s.contexts := rfl
@[simp] theorem modLaunch_parts (k : Nat) (f : Launch → Launch) : (modLaunch k f s).parts = s.parts := rfl
@[simp] theorem modLaunch_queues (k : Nat) (f : Launch → Launch) : (modLaunch k f s).queues = s.queues := rfl
@[simp] theorem modLaunch_served (k : Nat) (f : Launch → Launch) : (modLaunch k f s).served = s.served := rfl
@[simp] theorem modLaunch_sources (k : Nat) (f : Launch → Launch) : (modLaunch k f s).sources = s.sources := rfl
@[simp] theorem modLaunch_ports (k : Nat) (f : Launch → Launch) : (modLaunch k f s).ports = s.ports := rfl
@[simp] theorem modLaunch_routes (k : Nat) (f : Launch → Launch) : (modLaunch k f s).routes = s.routes := rfl
@[simp] theorem modLaunch_station (k : Nat) (f : Launch → Launch) : (modLaunch k f s).station = s.station := rfl
@[simp] theorem modLaunch_monitors (k : Nat) (f : Launch → Launch) : (modLaunch k f s).monitors = s.monitors := rfl
@[simp] theorem modLaunch_reserveOn (k : Nat) (f : Launch → Launch) : (modLaunch k f s).reserveOn = s.reserveOn := rfl
@[simp] theorem modLaunch_reply (k : Nat) (f : Launch → Launch) : (modLaunch k f s).reply = s.reply := rfl
@[simp] theorem modLaunch_replyErr (k : Nat) (f : Launch → Launch) : (modLaunch k f s).replyErr = s.replyErr := rfl

/-! ## modContext -/

@[simp] theorem modContext_chiptime (k : Nat) (f : Context → Context) : (modContext k f s).chiptime = s.chiptime := rfl
@[simp] theorem modContext_agenda (k : Nat) (f : Context → Context) : (modContext k f s).agenda = s.agenda := rfl
@[simp] theorem modContext_calendar (k : Nat) (f : Context → Context) : (modContext k f s).calendar = s.calendar := rfl
@[simp] theorem modContext_turn (k : Nat) (f : Context → Context) : (modContext k f s).turn = s.turn := rfl
@[simp] theorem modContext_abreast (k : Nat) (f : Context → Context) : (modContext k f s).abreast = s.abreast := rfl
@[simp] theorem modContext_passed (k : Nat) (f : Context → Context) : (modContext k f s).passed = s.passed := rfl
@[simp] theorem modContext_scoutAt (k : Nat) (f : Context → Context) : (modContext k f s).scoutAt = s.scoutAt := rfl
@[simp] theorem modContext_fresh (k : Nat) (f : Context → Context) : (modContext k f s).fresh = s.fresh := rfl
@[simp] theorem modContext_links (k : Nat) (f : Context → Context) : (modContext k f s).links = s.links := rfl
@[simp] theorem modContext_mem (k : Nat) (f : Context → Context) : (modContext k f s).mem = s.mem := rfl
@[simp] theorem modContext_marks (k : Nat) (f : Context → Context) : (modContext k f s).marks = s.marks := rfl
@[simp] theorem modContext_poison (k : Nat) (f : Context → Context) : (modContext k f s).poison = s.poison := rfl
@[simp] theorem modContext_rewrites (k : Nat) (f : Context → Context) : (modContext k f s).rewrites = s.rewrites := rfl
@[simp] theorem modContext_codes (k : Nat) (f : Context → Context) : (modContext k f s).codes = s.codes := rfl
@[simp] theorem modContext_metadata (k : Nat) (f : Context → Context) : (modContext k f s).metadata = s.metadata := rfl
@[simp] theorem modContext_l2 (k : Nat) (f : Context → Context) : (modContext k f s).l2 = s.l2 := rfl
@[simp] theorem modContext_msgs (k : Nat) (f : Context → Context) : (modContext k f s).msgs = s.msgs := rfl
@[simp] theorem modContext_flips (k : Nat) (f : Context → Context) : (modContext k f s).flips = s.flips := rfl
@[simp] theorem modContext_prefetches (k : Nat) (f : Context → Context) : (modContext k f s).prefetches = s.prefetches := rfl
@[simp] theorem modContext_writes (k : Nat) (f : Context → Context) : (modContext k f s).writes = s.writes := rfl
@[simp] theorem modContext_imagePages (k : Nat) (f : Context → Context) : (modContext k f s).imagePages = s.imagePages := rfl
@[simp] theorem modContext_imageGen (k : Nat) (f : Context → Context) : (modContext k f s).imageGen = s.imageGen := rfl
@[simp] theorem modContext_tlb (k : Nat) (f : Context → Context) : (modContext k f s).tlb = s.tlb := rfl
@[simp] theorem modContext_revmap (k : Nat) (f : Context → Context) : (modContext k f s).revmap = s.revmap := rfl
@[simp] theorem modContext_pins (k : Nat) (f : Context → Context) : (modContext k f s).pins = s.pins := rfl
@[simp] theorem modContext_stashWays (k : Nat) (f : Context → Context) : (modContext k f s).stashWays = s.stashWays := rfl
@[simp] theorem modContext_tiles (k : Nat) (f : Context → Context) : (modContext k f s).tiles = s.tiles := rfl
@[simp] theorem modContext_windows (k : Nat) (f : Context → Context) : (modContext k f s).windows = s.windows := rfl
@[simp] theorem modContext_windowCids (k : Nat) (f : Context → Context) : (modContext k f s).windowCids = s.windowCids := rfl
@[simp] theorem modContext_frames (k : Nat) (f : Context → Context) : (modContext k f s).frames = s.frames := rfl
@[simp] theorem modContext_threads (k : Nat) (f : Context → Context) : (modContext k f s).threads = s.threads := rfl
@[simp] theorem modContext_launches (k : Nat) (f : Context → Context) : (modContext k f s).launches = s.launches := rfl
@[simp] theorem modContext_circles (k : Nat) (f : Context → Context) : (modContext k f s).circles = s.circles := rfl
@[simp] theorem modContext_shares (k : Nat) (f : Context → Context) : (modContext k f s).shares = s.shares := rfl
@[simp] theorem modContext_engines (k : Nat) (f : Context → Context) : (modContext k f s).engines = s.engines := rfl
@[simp] theorem modContext_tries (k : Nat) (f : Context → Context) : (modContext k f s).tries = s.tries := rfl
@[simp] theorem modContext_clusters (k : Nat) (f : Context → Context) : (modContext k f s).clusters = s.clusters := rfl
@[simp] theorem modContext_cores (k : Nat) (f : Context → Context) : (modContext k f s).cores = s.cores := rfl
@[simp] theorem modContext_lanterns (k : Nat) (f : Context → Context) : (modContext k f s).lanterns = s.lanterns := rfl
@[simp] theorem modContext_contexts (k : Nat) (f : Context → Context) : (modContext k f s).contexts = Sparse.alter s.contexts k f := rfl
@[simp] theorem modContext_parts (k : Nat) (f : Context → Context) : (modContext k f s).parts = s.parts := rfl
@[simp] theorem modContext_queues (k : Nat) (f : Context → Context) : (modContext k f s).queues = s.queues := rfl
@[simp] theorem modContext_served (k : Nat) (f : Context → Context) : (modContext k f s).served = s.served := rfl
@[simp] theorem modContext_sources (k : Nat) (f : Context → Context) : (modContext k f s).sources = s.sources := rfl
@[simp] theorem modContext_ports (k : Nat) (f : Context → Context) : (modContext k f s).ports = s.ports := rfl
@[simp] theorem modContext_routes (k : Nat) (f : Context → Context) : (modContext k f s).routes = s.routes := rfl
@[simp] theorem modContext_station (k : Nat) (f : Context → Context) : (modContext k f s).station = s.station := rfl
@[simp] theorem modContext_monitors (k : Nat) (f : Context → Context) : (modContext k f s).monitors = s.monitors := rfl
@[simp] theorem modContext_reserveOn (k : Nat) (f : Context → Context) : (modContext k f s).reserveOn = s.reserveOn := rfl
@[simp] theorem modContext_reply (k : Nat) (f : Context → Context) : (modContext k f s).reply = s.reply := rfl
@[simp] theorem modContext_replyErr (k : Nat) (f : Context → Context) : (modContext k f s).replyErr = s.replyErr := rfl

/-! ## modPart -/

@[simp] theorem modPart_chiptime (k : Nat) (f : Partition → Partition) : (modPart k f s).chiptime = s.chiptime := rfl
@[simp] theorem modPart_agenda (k : Nat) (f : Partition → Partition) : (modPart k f s).agenda = s.agenda := rfl
@[simp] theorem modPart_calendar (k : Nat) (f : Partition → Partition) : (modPart k f s).calendar = s.calendar := rfl
@[simp] theorem modPart_turn (k : Nat) (f : Partition → Partition) : (modPart k f s).turn = s.turn := rfl
@[simp] theorem modPart_abreast (k : Nat) (f : Partition → Partition) : (modPart k f s).abreast = s.abreast := rfl
@[simp] theorem modPart_passed (k : Nat) (f : Partition → Partition) : (modPart k f s).passed = s.passed := rfl
@[simp] theorem modPart_scoutAt (k : Nat) (f : Partition → Partition) : (modPart k f s).scoutAt = s.scoutAt := rfl
@[simp] theorem modPart_fresh (k : Nat) (f : Partition → Partition) : (modPart k f s).fresh = s.fresh := rfl
@[simp] theorem modPart_links (k : Nat) (f : Partition → Partition) : (modPart k f s).links = s.links := rfl
@[simp] theorem modPart_mem (k : Nat) (f : Partition → Partition) : (modPart k f s).mem = s.mem := rfl
@[simp] theorem modPart_marks (k : Nat) (f : Partition → Partition) : (modPart k f s).marks = s.marks := rfl
@[simp] theorem modPart_poison (k : Nat) (f : Partition → Partition) : (modPart k f s).poison = s.poison := rfl
@[simp] theorem modPart_rewrites (k : Nat) (f : Partition → Partition) : (modPart k f s).rewrites = s.rewrites := rfl
@[simp] theorem modPart_codes (k : Nat) (f : Partition → Partition) : (modPart k f s).codes = s.codes := rfl
@[simp] theorem modPart_metadata (k : Nat) (f : Partition → Partition) : (modPart k f s).metadata = s.metadata := rfl
@[simp] theorem modPart_l2 (k : Nat) (f : Partition → Partition) : (modPart k f s).l2 = s.l2 := rfl
@[simp] theorem modPart_msgs (k : Nat) (f : Partition → Partition) : (modPart k f s).msgs = s.msgs := rfl
@[simp] theorem modPart_flips (k : Nat) (f : Partition → Partition) : (modPart k f s).flips = s.flips := rfl
@[simp] theorem modPart_prefetches (k : Nat) (f : Partition → Partition) : (modPart k f s).prefetches = s.prefetches := rfl
@[simp] theorem modPart_writes (k : Nat) (f : Partition → Partition) : (modPart k f s).writes = s.writes := rfl
@[simp] theorem modPart_imagePages (k : Nat) (f : Partition → Partition) : (modPart k f s).imagePages = s.imagePages := rfl
@[simp] theorem modPart_imageGen (k : Nat) (f : Partition → Partition) : (modPart k f s).imageGen = s.imageGen := rfl
@[simp] theorem modPart_tlb (k : Nat) (f : Partition → Partition) : (modPart k f s).tlb = s.tlb := rfl
@[simp] theorem modPart_revmap (k : Nat) (f : Partition → Partition) : (modPart k f s).revmap = s.revmap := rfl
@[simp] theorem modPart_pins (k : Nat) (f : Partition → Partition) : (modPart k f s).pins = s.pins := rfl
@[simp] theorem modPart_stashWays (k : Nat) (f : Partition → Partition) : (modPart k f s).stashWays = s.stashWays := rfl
@[simp] theorem modPart_tiles (k : Nat) (f : Partition → Partition) : (modPart k f s).tiles = s.tiles := rfl
@[simp] theorem modPart_windows (k : Nat) (f : Partition → Partition) : (modPart k f s).windows = s.windows := rfl
@[simp] theorem modPart_windowCids (k : Nat) (f : Partition → Partition) : (modPart k f s).windowCids = s.windowCids := rfl
@[simp] theorem modPart_frames (k : Nat) (f : Partition → Partition) : (modPart k f s).frames = s.frames := rfl
@[simp] theorem modPart_threads (k : Nat) (f : Partition → Partition) : (modPart k f s).threads = s.threads := rfl
@[simp] theorem modPart_launches (k : Nat) (f : Partition → Partition) : (modPart k f s).launches = s.launches := rfl
@[simp] theorem modPart_circles (k : Nat) (f : Partition → Partition) : (modPart k f s).circles = s.circles := rfl
@[simp] theorem modPart_shares (k : Nat) (f : Partition → Partition) : (modPart k f s).shares = s.shares := rfl
@[simp] theorem modPart_engines (k : Nat) (f : Partition → Partition) : (modPart k f s).engines = s.engines := rfl
@[simp] theorem modPart_tries (k : Nat) (f : Partition → Partition) : (modPart k f s).tries = s.tries := rfl
@[simp] theorem modPart_clusters (k : Nat) (f : Partition → Partition) : (modPart k f s).clusters = s.clusters := rfl
@[simp] theorem modPart_cores (k : Nat) (f : Partition → Partition) : (modPart k f s).cores = s.cores := rfl
@[simp] theorem modPart_lanterns (k : Nat) (f : Partition → Partition) : (modPart k f s).lanterns = s.lanterns := rfl
@[simp] theorem modPart_contexts (k : Nat) (f : Partition → Partition) : (modPart k f s).contexts = s.contexts := rfl
@[simp] theorem modPart_parts (k : Nat) (f : Partition → Partition) : (modPart k f s).parts = Sparse.alter s.parts k f := rfl
@[simp] theorem modPart_queues (k : Nat) (f : Partition → Partition) : (modPart k f s).queues = s.queues := rfl
@[simp] theorem modPart_served (k : Nat) (f : Partition → Partition) : (modPart k f s).served = s.served := rfl
@[simp] theorem modPart_sources (k : Nat) (f : Partition → Partition) : (modPart k f s).sources = s.sources := rfl
@[simp] theorem modPart_ports (k : Nat) (f : Partition → Partition) : (modPart k f s).ports = s.ports := rfl
@[simp] theorem modPart_routes (k : Nat) (f : Partition → Partition) : (modPart k f s).routes = s.routes := rfl
@[simp] theorem modPart_station (k : Nat) (f : Partition → Partition) : (modPart k f s).station = s.station := rfl
@[simp] theorem modPart_monitors (k : Nat) (f : Partition → Partition) : (modPart k f s).monitors = s.monitors := rfl
@[simp] theorem modPart_reserveOn (k : Nat) (f : Partition → Partition) : (modPart k f s).reserveOn = s.reserveOn := rfl
@[simp] theorem modPart_reply (k : Nat) (f : Partition → Partition) : (modPart k f s).reply = s.reply := rfl
@[simp] theorem modPart_replyErr (k : Nat) (f : Partition → Partition) : (modPart k f s).replyErr = s.replyErr := rfl

/-! ## putCluster -/

@[simp] theorem putCluster_chiptime (k : Nat) (c : Cluster) : (putCluster k c s).chiptime = s.chiptime := rfl
@[simp] theorem putCluster_agenda (k : Nat) (c : Cluster) : (putCluster k c s).agenda = s.agenda := rfl
@[simp] theorem putCluster_calendar (k : Nat) (c : Cluster) : (putCluster k c s).calendar = s.calendar := rfl
@[simp] theorem putCluster_turn (k : Nat) (c : Cluster) : (putCluster k c s).turn = s.turn := rfl
@[simp] theorem putCluster_abreast (k : Nat) (c : Cluster) : (putCluster k c s).abreast = s.abreast := rfl
@[simp] theorem putCluster_passed (k : Nat) (c : Cluster) : (putCluster k c s).passed = s.passed := rfl
@[simp] theorem putCluster_scoutAt (k : Nat) (c : Cluster) : (putCluster k c s).scoutAt = s.scoutAt := rfl
@[simp] theorem putCluster_fresh (k : Nat) (c : Cluster) : (putCluster k c s).fresh = s.fresh := rfl
@[simp] theorem putCluster_links (k : Nat) (c : Cluster) : (putCluster k c s).links = s.links := rfl
@[simp] theorem putCluster_mem (k : Nat) (c : Cluster) : (putCluster k c s).mem = s.mem := rfl
@[simp] theorem putCluster_marks (k : Nat) (c : Cluster) : (putCluster k c s).marks = s.marks := rfl
@[simp] theorem putCluster_poison (k : Nat) (c : Cluster) : (putCluster k c s).poison = s.poison := rfl
@[simp] theorem putCluster_rewrites (k : Nat) (c : Cluster) : (putCluster k c s).rewrites = s.rewrites := rfl
@[simp] theorem putCluster_codes (k : Nat) (c : Cluster) : (putCluster k c s).codes = s.codes := rfl
@[simp] theorem putCluster_metadata (k : Nat) (c : Cluster) : (putCluster k c s).metadata = s.metadata := rfl
@[simp] theorem putCluster_l2 (k : Nat) (c : Cluster) : (putCluster k c s).l2 = s.l2 := rfl
@[simp] theorem putCluster_msgs (k : Nat) (c : Cluster) : (putCluster k c s).msgs = s.msgs := rfl
@[simp] theorem putCluster_flips (k : Nat) (c : Cluster) : (putCluster k c s).flips = s.flips := rfl
@[simp] theorem putCluster_prefetches (k : Nat) (c : Cluster) : (putCluster k c s).prefetches = s.prefetches := rfl
@[simp] theorem putCluster_writes (k : Nat) (c : Cluster) : (putCluster k c s).writes = s.writes := rfl
@[simp] theorem putCluster_imagePages (k : Nat) (c : Cluster) : (putCluster k c s).imagePages = s.imagePages := rfl
@[simp] theorem putCluster_imageGen (k : Nat) (c : Cluster) : (putCluster k c s).imageGen = s.imageGen := rfl
@[simp] theorem putCluster_tlb (k : Nat) (c : Cluster) : (putCluster k c s).tlb = s.tlb := rfl
@[simp] theorem putCluster_revmap (k : Nat) (c : Cluster) : (putCluster k c s).revmap = s.revmap := rfl
@[simp] theorem putCluster_pins (k : Nat) (c : Cluster) : (putCluster k c s).pins = s.pins := rfl
@[simp] theorem putCluster_stashWays (k : Nat) (c : Cluster) : (putCluster k c s).stashWays = s.stashWays := rfl
@[simp] theorem putCluster_tiles (k : Nat) (c : Cluster) : (putCluster k c s).tiles = s.tiles := rfl
@[simp] theorem putCluster_windows (k : Nat) (c : Cluster) : (putCluster k c s).windows = s.windows := rfl
@[simp] theorem putCluster_windowCids (k : Nat) (c : Cluster) : (putCluster k c s).windowCids = s.windowCids := rfl
@[simp] theorem putCluster_frames (k : Nat) (c : Cluster) : (putCluster k c s).frames = s.frames := rfl
@[simp] theorem putCluster_threads (k : Nat) (c : Cluster) : (putCluster k c s).threads = s.threads := rfl
@[simp] theorem putCluster_launches (k : Nat) (c : Cluster) : (putCluster k c s).launches = s.launches := rfl
@[simp] theorem putCluster_circles (k : Nat) (c : Cluster) : (putCluster k c s).circles = s.circles := rfl
@[simp] theorem putCluster_shares (k : Nat) (c : Cluster) : (putCluster k c s).shares = s.shares := rfl
@[simp] theorem putCluster_engines (k : Nat) (c : Cluster) : (putCluster k c s).engines = s.engines := rfl
@[simp] theorem putCluster_tries (k : Nat) (c : Cluster) : (putCluster k c s).tries = s.tries := rfl
@[simp] theorem putCluster_clusters (k : Nat) (c : Cluster) : (putCluster k c s).clusters = Sparse.put s.clusters k c := rfl
@[simp] theorem putCluster_cores (k : Nat) (c : Cluster) : (putCluster k c s).cores = s.cores := rfl
@[simp] theorem putCluster_lanterns (k : Nat) (c : Cluster) : (putCluster k c s).lanterns = s.lanterns := rfl
@[simp] theorem putCluster_contexts (k : Nat) (c : Cluster) : (putCluster k c s).contexts = s.contexts := rfl
@[simp] theorem putCluster_parts (k : Nat) (c : Cluster) : (putCluster k c s).parts = s.parts := rfl
@[simp] theorem putCluster_queues (k : Nat) (c : Cluster) : (putCluster k c s).queues = s.queues := rfl
@[simp] theorem putCluster_served (k : Nat) (c : Cluster) : (putCluster k c s).served = s.served := rfl
@[simp] theorem putCluster_sources (k : Nat) (c : Cluster) : (putCluster k c s).sources = s.sources := rfl
@[simp] theorem putCluster_ports (k : Nat) (c : Cluster) : (putCluster k c s).ports = s.ports := rfl
@[simp] theorem putCluster_routes (k : Nat) (c : Cluster) : (putCluster k c s).routes = s.routes := rfl
@[simp] theorem putCluster_station (k : Nat) (c : Cluster) : (putCluster k c s).station = s.station := rfl
@[simp] theorem putCluster_monitors (k : Nat) (c : Cluster) : (putCluster k c s).monitors = s.monitors := rfl
@[simp] theorem putCluster_reserveOn (k : Nat) (c : Cluster) : (putCluster k c s).reserveOn = s.reserveOn := rfl
@[simp] theorem putCluster_reply (k : Nat) (c : Cluster) : (putCluster k c s).reply = s.reply := rfl
@[simp] theorem putCluster_replyErr (k : Nat) (c : Cluster) : (putCluster k c s).replyErr = s.replyErr := rfl

/-! ## modCluster -/

@[simp] theorem modCluster_chiptime (k : Nat) (f : Cluster → Cluster) : (modCluster k f s).chiptime = s.chiptime := rfl
@[simp] theorem modCluster_agenda (k : Nat) (f : Cluster → Cluster) : (modCluster k f s).agenda = s.agenda := rfl
@[simp] theorem modCluster_calendar (k : Nat) (f : Cluster → Cluster) : (modCluster k f s).calendar = s.calendar := rfl
@[simp] theorem modCluster_turn (k : Nat) (f : Cluster → Cluster) : (modCluster k f s).turn = s.turn := rfl
@[simp] theorem modCluster_abreast (k : Nat) (f : Cluster → Cluster) : (modCluster k f s).abreast = s.abreast := rfl
@[simp] theorem modCluster_passed (k : Nat) (f : Cluster → Cluster) : (modCluster k f s).passed = s.passed := rfl
@[simp] theorem modCluster_scoutAt (k : Nat) (f : Cluster → Cluster) : (modCluster k f s).scoutAt = s.scoutAt := rfl
@[simp] theorem modCluster_fresh (k : Nat) (f : Cluster → Cluster) : (modCluster k f s).fresh = s.fresh := rfl
@[simp] theorem modCluster_links (k : Nat) (f : Cluster → Cluster) : (modCluster k f s).links = s.links := rfl
@[simp] theorem modCluster_mem (k : Nat) (f : Cluster → Cluster) : (modCluster k f s).mem = s.mem := rfl
@[simp] theorem modCluster_marks (k : Nat) (f : Cluster → Cluster) : (modCluster k f s).marks = s.marks := rfl
@[simp] theorem modCluster_poison (k : Nat) (f : Cluster → Cluster) : (modCluster k f s).poison = s.poison := rfl
@[simp] theorem modCluster_rewrites (k : Nat) (f : Cluster → Cluster) : (modCluster k f s).rewrites = s.rewrites := rfl
@[simp] theorem modCluster_codes (k : Nat) (f : Cluster → Cluster) : (modCluster k f s).codes = s.codes := rfl
@[simp] theorem modCluster_metadata (k : Nat) (f : Cluster → Cluster) : (modCluster k f s).metadata = s.metadata := rfl
@[simp] theorem modCluster_l2 (k : Nat) (f : Cluster → Cluster) : (modCluster k f s).l2 = s.l2 := rfl
@[simp] theorem modCluster_msgs (k : Nat) (f : Cluster → Cluster) : (modCluster k f s).msgs = s.msgs := rfl
@[simp] theorem modCluster_flips (k : Nat) (f : Cluster → Cluster) : (modCluster k f s).flips = s.flips := rfl
@[simp] theorem modCluster_prefetches (k : Nat) (f : Cluster → Cluster) : (modCluster k f s).prefetches = s.prefetches := rfl
@[simp] theorem modCluster_writes (k : Nat) (f : Cluster → Cluster) : (modCluster k f s).writes = s.writes := rfl
@[simp] theorem modCluster_imagePages (k : Nat) (f : Cluster → Cluster) : (modCluster k f s).imagePages = s.imagePages := rfl
@[simp] theorem modCluster_imageGen (k : Nat) (f : Cluster → Cluster) : (modCluster k f s).imageGen = s.imageGen := rfl
@[simp] theorem modCluster_tlb (k : Nat) (f : Cluster → Cluster) : (modCluster k f s).tlb = s.tlb := rfl
@[simp] theorem modCluster_revmap (k : Nat) (f : Cluster → Cluster) : (modCluster k f s).revmap = s.revmap := rfl
@[simp] theorem modCluster_pins (k : Nat) (f : Cluster → Cluster) : (modCluster k f s).pins = s.pins := rfl
@[simp] theorem modCluster_stashWays (k : Nat) (f : Cluster → Cluster) : (modCluster k f s).stashWays = s.stashWays := rfl
@[simp] theorem modCluster_tiles (k : Nat) (f : Cluster → Cluster) : (modCluster k f s).tiles = s.tiles := rfl
@[simp] theorem modCluster_windows (k : Nat) (f : Cluster → Cluster) : (modCluster k f s).windows = s.windows := rfl
@[simp] theorem modCluster_windowCids (k : Nat) (f : Cluster → Cluster) : (modCluster k f s).windowCids = s.windowCids := rfl
@[simp] theorem modCluster_frames (k : Nat) (f : Cluster → Cluster) : (modCluster k f s).frames = s.frames := rfl
@[simp] theorem modCluster_threads (k : Nat) (f : Cluster → Cluster) : (modCluster k f s).threads = s.threads := rfl
@[simp] theorem modCluster_launches (k : Nat) (f : Cluster → Cluster) : (modCluster k f s).launches = s.launches := rfl
@[simp] theorem modCluster_circles (k : Nat) (f : Cluster → Cluster) : (modCluster k f s).circles = s.circles := rfl
@[simp] theorem modCluster_shares (k : Nat) (f : Cluster → Cluster) : (modCluster k f s).shares = s.shares := rfl
@[simp] theorem modCluster_engines (k : Nat) (f : Cluster → Cluster) : (modCluster k f s).engines = s.engines := rfl
@[simp] theorem modCluster_tries (k : Nat) (f : Cluster → Cluster) : (modCluster k f s).tries = s.tries := rfl
@[simp] theorem modCluster_clusters (k : Nat) (f : Cluster → Cluster) : (modCluster k f s).clusters = Sparse.put s.clusters k (f (getCluster s k)) := rfl
@[simp] theorem modCluster_cores (k : Nat) (f : Cluster → Cluster) : (modCluster k f s).cores = s.cores := rfl
@[simp] theorem modCluster_lanterns (k : Nat) (f : Cluster → Cluster) : (modCluster k f s).lanterns = s.lanterns := rfl
@[simp] theorem modCluster_contexts (k : Nat) (f : Cluster → Cluster) : (modCluster k f s).contexts = s.contexts := rfl
@[simp] theorem modCluster_parts (k : Nat) (f : Cluster → Cluster) : (modCluster k f s).parts = s.parts := rfl
@[simp] theorem modCluster_queues (k : Nat) (f : Cluster → Cluster) : (modCluster k f s).queues = s.queues := rfl
@[simp] theorem modCluster_served (k : Nat) (f : Cluster → Cluster) : (modCluster k f s).served = s.served := rfl
@[simp] theorem modCluster_sources (k : Nat) (f : Cluster → Cluster) : (modCluster k f s).sources = s.sources := rfl
@[simp] theorem modCluster_ports (k : Nat) (f : Cluster → Cluster) : (modCluster k f s).ports = s.ports := rfl
@[simp] theorem modCluster_routes (k : Nat) (f : Cluster → Cluster) : (modCluster k f s).routes = s.routes := rfl
@[simp] theorem modCluster_station (k : Nat) (f : Cluster → Cluster) : (modCluster k f s).station = s.station := rfl
@[simp] theorem modCluster_monitors (k : Nat) (f : Cluster → Cluster) : (modCluster k f s).monitors = s.monitors := rfl
@[simp] theorem modCluster_reserveOn (k : Nat) (f : Cluster → Cluster) : (modCluster k f s).reserveOn = s.reserveOn := rfl
@[simp] theorem modCluster_reply (k : Nat) (f : Cluster → Cluster) : (modCluster k f s).reply = s.reply := rfl
@[simp] theorem modCluster_replyErr (k : Nat) (f : Cluster → Cluster) : (modCluster k f s).replyErr = s.replyErr := rfl

/-! ## putCore -/

@[simp] theorem putCore_chiptime (k : Nat) (c : Core) : (putCore k c s).chiptime = s.chiptime := rfl
@[simp] theorem putCore_agenda (k : Nat) (c : Core) : (putCore k c s).agenda = s.agenda := rfl
@[simp] theorem putCore_calendar (k : Nat) (c : Core) : (putCore k c s).calendar = s.calendar := rfl
@[simp] theorem putCore_turn (k : Nat) (c : Core) : (putCore k c s).turn = s.turn := rfl
@[simp] theorem putCore_abreast (k : Nat) (c : Core) : (putCore k c s).abreast = s.abreast := rfl
@[simp] theorem putCore_passed (k : Nat) (c : Core) : (putCore k c s).passed = s.passed := rfl
@[simp] theorem putCore_scoutAt (k : Nat) (c : Core) : (putCore k c s).scoutAt = s.scoutAt := rfl
@[simp] theorem putCore_fresh (k : Nat) (c : Core) : (putCore k c s).fresh = s.fresh := rfl
@[simp] theorem putCore_links (k : Nat) (c : Core) : (putCore k c s).links = s.links := rfl
@[simp] theorem putCore_mem (k : Nat) (c : Core) : (putCore k c s).mem = s.mem := rfl
@[simp] theorem putCore_marks (k : Nat) (c : Core) : (putCore k c s).marks = s.marks := rfl
@[simp] theorem putCore_poison (k : Nat) (c : Core) : (putCore k c s).poison = s.poison := rfl
@[simp] theorem putCore_rewrites (k : Nat) (c : Core) : (putCore k c s).rewrites = s.rewrites := rfl
@[simp] theorem putCore_codes (k : Nat) (c : Core) : (putCore k c s).codes = s.codes := rfl
@[simp] theorem putCore_metadata (k : Nat) (c : Core) : (putCore k c s).metadata = s.metadata := rfl
@[simp] theorem putCore_l2 (k : Nat) (c : Core) : (putCore k c s).l2 = s.l2 := rfl
@[simp] theorem putCore_msgs (k : Nat) (c : Core) : (putCore k c s).msgs = s.msgs := rfl
@[simp] theorem putCore_flips (k : Nat) (c : Core) : (putCore k c s).flips = s.flips := rfl
@[simp] theorem putCore_prefetches (k : Nat) (c : Core) : (putCore k c s).prefetches = s.prefetches := rfl
@[simp] theorem putCore_writes (k : Nat) (c : Core) : (putCore k c s).writes = s.writes := rfl
@[simp] theorem putCore_imagePages (k : Nat) (c : Core) : (putCore k c s).imagePages = s.imagePages := rfl
@[simp] theorem putCore_imageGen (k : Nat) (c : Core) : (putCore k c s).imageGen = s.imageGen := rfl
@[simp] theorem putCore_tlb (k : Nat) (c : Core) : (putCore k c s).tlb = s.tlb := rfl
@[simp] theorem putCore_revmap (k : Nat) (c : Core) : (putCore k c s).revmap = s.revmap := rfl
@[simp] theorem putCore_pins (k : Nat) (c : Core) : (putCore k c s).pins = s.pins := rfl
@[simp] theorem putCore_stashWays (k : Nat) (c : Core) : (putCore k c s).stashWays = s.stashWays := rfl
@[simp] theorem putCore_tiles (k : Nat) (c : Core) : (putCore k c s).tiles = s.tiles := rfl
@[simp] theorem putCore_windows (k : Nat) (c : Core) : (putCore k c s).windows = s.windows := rfl
@[simp] theorem putCore_windowCids (k : Nat) (c : Core) : (putCore k c s).windowCids = s.windowCids := rfl
@[simp] theorem putCore_frames (k : Nat) (c : Core) : (putCore k c s).frames = s.frames := rfl
@[simp] theorem putCore_threads (k : Nat) (c : Core) : (putCore k c s).threads = s.threads := rfl
@[simp] theorem putCore_launches (k : Nat) (c : Core) : (putCore k c s).launches = s.launches := rfl
@[simp] theorem putCore_circles (k : Nat) (c : Core) : (putCore k c s).circles = s.circles := rfl
@[simp] theorem putCore_shares (k : Nat) (c : Core) : (putCore k c s).shares = s.shares := rfl
@[simp] theorem putCore_engines (k : Nat) (c : Core) : (putCore k c s).engines = s.engines := rfl
@[simp] theorem putCore_tries (k : Nat) (c : Core) : (putCore k c s).tries = s.tries := rfl
@[simp] theorem putCore_clusters (k : Nat) (c : Core) : (putCore k c s).clusters = s.clusters := rfl
@[simp] theorem putCore_cores (k : Nat) (c : Core) : (putCore k c s).cores = Sparse.put s.cores k c := rfl
@[simp] theorem putCore_lanterns (k : Nat) (c : Core) : (putCore k c s).lanterns = s.lanterns := rfl
@[simp] theorem putCore_contexts (k : Nat) (c : Core) : (putCore k c s).contexts = s.contexts := rfl
@[simp] theorem putCore_parts (k : Nat) (c : Core) : (putCore k c s).parts = s.parts := rfl
@[simp] theorem putCore_queues (k : Nat) (c : Core) : (putCore k c s).queues = s.queues := rfl
@[simp] theorem putCore_served (k : Nat) (c : Core) : (putCore k c s).served = s.served := rfl
@[simp] theorem putCore_sources (k : Nat) (c : Core) : (putCore k c s).sources = s.sources := rfl
@[simp] theorem putCore_ports (k : Nat) (c : Core) : (putCore k c s).ports = s.ports := rfl
@[simp] theorem putCore_routes (k : Nat) (c : Core) : (putCore k c s).routes = s.routes := rfl
@[simp] theorem putCore_station (k : Nat) (c : Core) : (putCore k c s).station = s.station := rfl
@[simp] theorem putCore_monitors (k : Nat) (c : Core) : (putCore k c s).monitors = s.monitors := rfl
@[simp] theorem putCore_reserveOn (k : Nat) (c : Core) : (putCore k c s).reserveOn = s.reserveOn := rfl
@[simp] theorem putCore_reply (k : Nat) (c : Core) : (putCore k c s).reply = s.reply := rfl
@[simp] theorem putCore_replyErr (k : Nat) (c : Core) : (putCore k c s).replyErr = s.replyErr := rfl

/-! ## modCore -/

@[simp] theorem modCore_chiptime (k : Nat) (f : Core → Core) : (modCore k f s).chiptime = s.chiptime := rfl
@[simp] theorem modCore_agenda (k : Nat) (f : Core → Core) : (modCore k f s).agenda = s.agenda := rfl
@[simp] theorem modCore_calendar (k : Nat) (f : Core → Core) : (modCore k f s).calendar = s.calendar := rfl
@[simp] theorem modCore_turn (k : Nat) (f : Core → Core) : (modCore k f s).turn = s.turn := rfl
@[simp] theorem modCore_abreast (k : Nat) (f : Core → Core) : (modCore k f s).abreast = s.abreast := rfl
@[simp] theorem modCore_passed (k : Nat) (f : Core → Core) : (modCore k f s).passed = s.passed := rfl
@[simp] theorem modCore_scoutAt (k : Nat) (f : Core → Core) : (modCore k f s).scoutAt = s.scoutAt := rfl
@[simp] theorem modCore_fresh (k : Nat) (f : Core → Core) : (modCore k f s).fresh = s.fresh := rfl
@[simp] theorem modCore_links (k : Nat) (f : Core → Core) : (modCore k f s).links = s.links := rfl
@[simp] theorem modCore_mem (k : Nat) (f : Core → Core) : (modCore k f s).mem = s.mem := rfl
@[simp] theorem modCore_marks (k : Nat) (f : Core → Core) : (modCore k f s).marks = s.marks := rfl
@[simp] theorem modCore_poison (k : Nat) (f : Core → Core) : (modCore k f s).poison = s.poison := rfl
@[simp] theorem modCore_rewrites (k : Nat) (f : Core → Core) : (modCore k f s).rewrites = s.rewrites := rfl
@[simp] theorem modCore_codes (k : Nat) (f : Core → Core) : (modCore k f s).codes = s.codes := rfl
@[simp] theorem modCore_metadata (k : Nat) (f : Core → Core) : (modCore k f s).metadata = s.metadata := rfl
@[simp] theorem modCore_l2 (k : Nat) (f : Core → Core) : (modCore k f s).l2 = s.l2 := rfl
@[simp] theorem modCore_msgs (k : Nat) (f : Core → Core) : (modCore k f s).msgs = s.msgs := rfl
@[simp] theorem modCore_flips (k : Nat) (f : Core → Core) : (modCore k f s).flips = s.flips := rfl
@[simp] theorem modCore_prefetches (k : Nat) (f : Core → Core) : (modCore k f s).prefetches = s.prefetches := rfl
@[simp] theorem modCore_writes (k : Nat) (f : Core → Core) : (modCore k f s).writes = s.writes := rfl
@[simp] theorem modCore_imagePages (k : Nat) (f : Core → Core) : (modCore k f s).imagePages = s.imagePages := rfl
@[simp] theorem modCore_imageGen (k : Nat) (f : Core → Core) : (modCore k f s).imageGen = s.imageGen := rfl
@[simp] theorem modCore_tlb (k : Nat) (f : Core → Core) : (modCore k f s).tlb = s.tlb := rfl
@[simp] theorem modCore_revmap (k : Nat) (f : Core → Core) : (modCore k f s).revmap = s.revmap := rfl
@[simp] theorem modCore_pins (k : Nat) (f : Core → Core) : (modCore k f s).pins = s.pins := rfl
@[simp] theorem modCore_stashWays (k : Nat) (f : Core → Core) : (modCore k f s).stashWays = s.stashWays := rfl
@[simp] theorem modCore_tiles (k : Nat) (f : Core → Core) : (modCore k f s).tiles = s.tiles := rfl
@[simp] theorem modCore_windows (k : Nat) (f : Core → Core) : (modCore k f s).windows = s.windows := rfl
@[simp] theorem modCore_windowCids (k : Nat) (f : Core → Core) : (modCore k f s).windowCids = s.windowCids := rfl
@[simp] theorem modCore_frames (k : Nat) (f : Core → Core) : (modCore k f s).frames = s.frames := rfl
@[simp] theorem modCore_threads (k : Nat) (f : Core → Core) : (modCore k f s).threads = s.threads := rfl
@[simp] theorem modCore_launches (k : Nat) (f : Core → Core) : (modCore k f s).launches = s.launches := rfl
@[simp] theorem modCore_circles (k : Nat) (f : Core → Core) : (modCore k f s).circles = s.circles := rfl
@[simp] theorem modCore_shares (k : Nat) (f : Core → Core) : (modCore k f s).shares = s.shares := rfl
@[simp] theorem modCore_engines (k : Nat) (f : Core → Core) : (modCore k f s).engines = s.engines := rfl
@[simp] theorem modCore_tries (k : Nat) (f : Core → Core) : (modCore k f s).tries = s.tries := rfl
@[simp] theorem modCore_clusters (k : Nat) (f : Core → Core) : (modCore k f s).clusters = s.clusters := rfl
@[simp] theorem modCore_cores (k : Nat) (f : Core → Core) : (modCore k f s).cores = Sparse.put s.cores k (f (getCore s k)) := rfl
@[simp] theorem modCore_lanterns (k : Nat) (f : Core → Core) : (modCore k f s).lanterns = s.lanterns := rfl
@[simp] theorem modCore_contexts (k : Nat) (f : Core → Core) : (modCore k f s).contexts = s.contexts := rfl
@[simp] theorem modCore_parts (k : Nat) (f : Core → Core) : (modCore k f s).parts = s.parts := rfl
@[simp] theorem modCore_queues (k : Nat) (f : Core → Core) : (modCore k f s).queues = s.queues := rfl
@[simp] theorem modCore_served (k : Nat) (f : Core → Core) : (modCore k f s).served = s.served := rfl
@[simp] theorem modCore_sources (k : Nat) (f : Core → Core) : (modCore k f s).sources = s.sources := rfl
@[simp] theorem modCore_ports (k : Nat) (f : Core → Core) : (modCore k f s).ports = s.ports := rfl
@[simp] theorem modCore_routes (k : Nat) (f : Core → Core) : (modCore k f s).routes = s.routes := rfl
@[simp] theorem modCore_station (k : Nat) (f : Core → Core) : (modCore k f s).station = s.station := rfl
@[simp] theorem modCore_monitors (k : Nat) (f : Core → Core) : (modCore k f s).monitors = s.monitors := rfl
@[simp] theorem modCore_reserveOn (k : Nat) (f : Core → Core) : (modCore k f s).reserveOn = s.reserveOn := rfl
@[simp] theorem modCore_reply (k : Nat) (f : Core → Core) : (modCore k f s).reply = s.reply := rfl
@[simp] theorem modCore_replyErr (k : Nat) (f : Core → Core) : (modCore k f s).replyErr = s.replyErr := rfl

/-! ## putBank -/

@[simp] theorem putBank_chiptime (k n : Nat) (b : Bank) : (putBank k n b s).chiptime = s.chiptime := rfl
@[simp] theorem putBank_agenda (k n : Nat) (b : Bank) : (putBank k n b s).agenda = s.agenda := rfl
@[simp] theorem putBank_calendar (k n : Nat) (b : Bank) : (putBank k n b s).calendar = s.calendar := rfl
@[simp] theorem putBank_turn (k n : Nat) (b : Bank) : (putBank k n b s).turn = s.turn := rfl
@[simp] theorem putBank_abreast (k n : Nat) (b : Bank) : (putBank k n b s).abreast = s.abreast := rfl
@[simp] theorem putBank_passed (k n : Nat) (b : Bank) : (putBank k n b s).passed = s.passed := rfl
@[simp] theorem putBank_scoutAt (k n : Nat) (b : Bank) : (putBank k n b s).scoutAt = s.scoutAt := rfl
@[simp] theorem putBank_fresh (k n : Nat) (b : Bank) : (putBank k n b s).fresh = s.fresh := rfl
@[simp] theorem putBank_links (k n : Nat) (b : Bank) : (putBank k n b s).links = s.links := rfl
@[simp] theorem putBank_mem (k n : Nat) (b : Bank) : (putBank k n b s).mem = s.mem := rfl
@[simp] theorem putBank_marks (k n : Nat) (b : Bank) : (putBank k n b s).marks = s.marks := rfl
@[simp] theorem putBank_poison (k n : Nat) (b : Bank) : (putBank k n b s).poison = s.poison := rfl
@[simp] theorem putBank_rewrites (k n : Nat) (b : Bank) : (putBank k n b s).rewrites = s.rewrites := rfl
@[simp] theorem putBank_codes (k n : Nat) (b : Bank) : (putBank k n b s).codes = s.codes := rfl
@[simp] theorem putBank_metadata (k n : Nat) (b : Bank) : (putBank k n b s).metadata = s.metadata := rfl
@[simp] theorem putBank_l2 (k n : Nat) (b : Bank) : (putBank k n b s).l2 = s.l2 := rfl
@[simp] theorem putBank_msgs (k n : Nat) (b : Bank) : (putBank k n b s).msgs = s.msgs := rfl
@[simp] theorem putBank_flips (k n : Nat) (b : Bank) : (putBank k n b s).flips = s.flips := rfl
@[simp] theorem putBank_prefetches (k n : Nat) (b : Bank) : (putBank k n b s).prefetches = s.prefetches := rfl
@[simp] theorem putBank_writes (k n : Nat) (b : Bank) : (putBank k n b s).writes = s.writes := rfl
@[simp] theorem putBank_imagePages (k n : Nat) (b : Bank) : (putBank k n b s).imagePages = s.imagePages := rfl
@[simp] theorem putBank_imageGen (k n : Nat) (b : Bank) : (putBank k n b s).imageGen = s.imageGen := rfl
@[simp] theorem putBank_tlb (k n : Nat) (b : Bank) : (putBank k n b s).tlb = s.tlb := rfl
@[simp] theorem putBank_revmap (k n : Nat) (b : Bank) : (putBank k n b s).revmap = s.revmap := rfl
@[simp] theorem putBank_pins (k n : Nat) (b : Bank) : (putBank k n b s).pins = s.pins := rfl
@[simp] theorem putBank_stashWays (k n : Nat) (b : Bank) : (putBank k n b s).stashWays = s.stashWays := rfl
@[simp] theorem putBank_tiles (k n : Nat) (b : Bank) : (putBank k n b s).tiles = s.tiles := rfl
@[simp] theorem putBank_windows (k n : Nat) (b : Bank) : (putBank k n b s).windows = s.windows := rfl
@[simp] theorem putBank_windowCids (k n : Nat) (b : Bank) : (putBank k n b s).windowCids = s.windowCids := rfl
@[simp] theorem putBank_frames (k n : Nat) (b : Bank) : (putBank k n b s).frames = s.frames := rfl
@[simp] theorem putBank_threads (k n : Nat) (b : Bank) : (putBank k n b s).threads = s.threads := rfl
@[simp] theorem putBank_launches (k n : Nat) (b : Bank) : (putBank k n b s).launches = s.launches := rfl
@[simp] theorem putBank_circles (k n : Nat) (b : Bank) : (putBank k n b s).circles = s.circles := rfl
@[simp] theorem putBank_shares (k n : Nat) (b : Bank) : (putBank k n b s).shares = s.shares := rfl
@[simp] theorem putBank_engines (k n : Nat) (b : Bank) : (putBank k n b s).engines = s.engines := rfl
@[simp] theorem putBank_tries (k n : Nat) (b : Bank) : (putBank k n b s).tries = s.tries := rfl
@[simp] theorem putBank_clusters (k n : Nat) (b : Bank) : (putBank k n b s).clusters = Sparse.put s.clusters k { getCluster s k with banks := Sparse.put (getCluster s k).banks n b } := rfl
@[simp] theorem putBank_cores (k n : Nat) (b : Bank) : (putBank k n b s).cores = s.cores := rfl
@[simp] theorem putBank_lanterns (k n : Nat) (b : Bank) : (putBank k n b s).lanterns = s.lanterns := rfl
@[simp] theorem putBank_contexts (k n : Nat) (b : Bank) : (putBank k n b s).contexts = s.contexts := rfl
@[simp] theorem putBank_parts (k n : Nat) (b : Bank) : (putBank k n b s).parts = s.parts := rfl
@[simp] theorem putBank_queues (k n : Nat) (b : Bank) : (putBank k n b s).queues = s.queues := rfl
@[simp] theorem putBank_served (k n : Nat) (b : Bank) : (putBank k n b s).served = s.served := rfl
@[simp] theorem putBank_sources (k n : Nat) (b : Bank) : (putBank k n b s).sources = s.sources := rfl
@[simp] theorem putBank_ports (k n : Nat) (b : Bank) : (putBank k n b s).ports = s.ports := rfl
@[simp] theorem putBank_routes (k n : Nat) (b : Bank) : (putBank k n b s).routes = s.routes := rfl
@[simp] theorem putBank_station (k n : Nat) (b : Bank) : (putBank k n b s).station = s.station := rfl
@[simp] theorem putBank_monitors (k n : Nat) (b : Bank) : (putBank k n b s).monitors = s.monitors := rfl
@[simp] theorem putBank_reserveOn (k n : Nat) (b : Bank) : (putBank k n b s).reserveOn = s.reserveOn := rfl
@[simp] theorem putBank_reply (k n : Nat) (b : Bank) : (putBank k n b s).reply = s.reply := rfl
@[simp] theorem putBank_replyErr (k n : Nat) (b : Bank) : (putBank k n b s).replyErr = s.replyErr := rfl

/-! ## modBank -/

@[simp] theorem modBank_chiptime (k n : Nat) (f : Bank → Bank) : (modBank k n f s).chiptime = s.chiptime := rfl
@[simp] theorem modBank_agenda (k n : Nat) (f : Bank → Bank) : (modBank k n f s).agenda = s.agenda := rfl
@[simp] theorem modBank_calendar (k n : Nat) (f : Bank → Bank) : (modBank k n f s).calendar = s.calendar := rfl
@[simp] theorem modBank_turn (k n : Nat) (f : Bank → Bank) : (modBank k n f s).turn = s.turn := rfl
@[simp] theorem modBank_abreast (k n : Nat) (f : Bank → Bank) : (modBank k n f s).abreast = s.abreast := rfl
@[simp] theorem modBank_passed (k n : Nat) (f : Bank → Bank) : (modBank k n f s).passed = s.passed := rfl
@[simp] theorem modBank_scoutAt (k n : Nat) (f : Bank → Bank) : (modBank k n f s).scoutAt = s.scoutAt := rfl
@[simp] theorem modBank_fresh (k n : Nat) (f : Bank → Bank) : (modBank k n f s).fresh = s.fresh := rfl
@[simp] theorem modBank_links (k n : Nat) (f : Bank → Bank) : (modBank k n f s).links = s.links := rfl
@[simp] theorem modBank_mem (k n : Nat) (f : Bank → Bank) : (modBank k n f s).mem = s.mem := rfl
@[simp] theorem modBank_marks (k n : Nat) (f : Bank → Bank) : (modBank k n f s).marks = s.marks := rfl
@[simp] theorem modBank_poison (k n : Nat) (f : Bank → Bank) : (modBank k n f s).poison = s.poison := rfl
@[simp] theorem modBank_rewrites (k n : Nat) (f : Bank → Bank) : (modBank k n f s).rewrites = s.rewrites := rfl
@[simp] theorem modBank_codes (k n : Nat) (f : Bank → Bank) : (modBank k n f s).codes = s.codes := rfl
@[simp] theorem modBank_metadata (k n : Nat) (f : Bank → Bank) : (modBank k n f s).metadata = s.metadata := rfl
@[simp] theorem modBank_l2 (k n : Nat) (f : Bank → Bank) : (modBank k n f s).l2 = s.l2 := rfl
@[simp] theorem modBank_msgs (k n : Nat) (f : Bank → Bank) : (modBank k n f s).msgs = s.msgs := rfl
@[simp] theorem modBank_flips (k n : Nat) (f : Bank → Bank) : (modBank k n f s).flips = s.flips := rfl
@[simp] theorem modBank_prefetches (k n : Nat) (f : Bank → Bank) : (modBank k n f s).prefetches = s.prefetches := rfl
@[simp] theorem modBank_writes (k n : Nat) (f : Bank → Bank) : (modBank k n f s).writes = s.writes := rfl
@[simp] theorem modBank_imagePages (k n : Nat) (f : Bank → Bank) : (modBank k n f s).imagePages = s.imagePages := rfl
@[simp] theorem modBank_imageGen (k n : Nat) (f : Bank → Bank) : (modBank k n f s).imageGen = s.imageGen := rfl
@[simp] theorem modBank_tlb (k n : Nat) (f : Bank → Bank) : (modBank k n f s).tlb = s.tlb := rfl
@[simp] theorem modBank_revmap (k n : Nat) (f : Bank → Bank) : (modBank k n f s).revmap = s.revmap := rfl
@[simp] theorem modBank_pins (k n : Nat) (f : Bank → Bank) : (modBank k n f s).pins = s.pins := rfl
@[simp] theorem modBank_stashWays (k n : Nat) (f : Bank → Bank) : (modBank k n f s).stashWays = s.stashWays := rfl
@[simp] theorem modBank_tiles (k n : Nat) (f : Bank → Bank) : (modBank k n f s).tiles = s.tiles := rfl
@[simp] theorem modBank_windows (k n : Nat) (f : Bank → Bank) : (modBank k n f s).windows = s.windows := rfl
@[simp] theorem modBank_windowCids (k n : Nat) (f : Bank → Bank) : (modBank k n f s).windowCids = s.windowCids := rfl
@[simp] theorem modBank_frames (k n : Nat) (f : Bank → Bank) : (modBank k n f s).frames = s.frames := rfl
@[simp] theorem modBank_threads (k n : Nat) (f : Bank → Bank) : (modBank k n f s).threads = s.threads := rfl
@[simp] theorem modBank_launches (k n : Nat) (f : Bank → Bank) : (modBank k n f s).launches = s.launches := rfl
@[simp] theorem modBank_circles (k n : Nat) (f : Bank → Bank) : (modBank k n f s).circles = s.circles := rfl
@[simp] theorem modBank_shares (k n : Nat) (f : Bank → Bank) : (modBank k n f s).shares = s.shares := rfl
@[simp] theorem modBank_engines (k n : Nat) (f : Bank → Bank) : (modBank k n f s).engines = s.engines := rfl
@[simp] theorem modBank_tries (k n : Nat) (f : Bank → Bank) : (modBank k n f s).tries = s.tries := rfl
@[simp] theorem modBank_clusters (k n : Nat) (f : Bank → Bank) : (modBank k n f s).clusters = Sparse.put s.clusters k { getCluster s k with banks := Sparse.put (getCluster s k).banks n (f (getBank s k n)) } := rfl
@[simp] theorem modBank_cores (k n : Nat) (f : Bank → Bank) : (modBank k n f s).cores = s.cores := rfl
@[simp] theorem modBank_lanterns (k n : Nat) (f : Bank → Bank) : (modBank k n f s).lanterns = s.lanterns := rfl
@[simp] theorem modBank_contexts (k n : Nat) (f : Bank → Bank) : (modBank k n f s).contexts = s.contexts := rfl
@[simp] theorem modBank_parts (k n : Nat) (f : Bank → Bank) : (modBank k n f s).parts = s.parts := rfl
@[simp] theorem modBank_queues (k n : Nat) (f : Bank → Bank) : (modBank k n f s).queues = s.queues := rfl
@[simp] theorem modBank_served (k n : Nat) (f : Bank → Bank) : (modBank k n f s).served = s.served := rfl
@[simp] theorem modBank_sources (k n : Nat) (f : Bank → Bank) : (modBank k n f s).sources = s.sources := rfl
@[simp] theorem modBank_ports (k n : Nat) (f : Bank → Bank) : (modBank k n f s).ports = s.ports := rfl
@[simp] theorem modBank_routes (k n : Nat) (f : Bank → Bank) : (modBank k n f s).routes = s.routes := rfl
@[simp] theorem modBank_station (k n : Nat) (f : Bank → Bank) : (modBank k n f s).station = s.station := rfl
@[simp] theorem modBank_monitors (k n : Nat) (f : Bank → Bank) : (modBank k n f s).monitors = s.monitors := rfl
@[simp] theorem modBank_reserveOn (k n : Nat) (f : Bank → Bank) : (modBank k n f s).reserveOn = s.reserveOn := rfl
@[simp] theorem modBank_reply (k n : Nat) (f : Bank → Bank) : (modBank k n f s).reply = s.reply := rfl
@[simp] theorem modBank_replyErr (k n : Nat) (f : Bank → Bank) : (modBank k n f s).replyErr = s.replyErr := rfl

/-! ## putLantern -/

@[simp] theorem putLantern_chiptime (k : Nat) (l : Lantern) : (putLantern k l s).chiptime = s.chiptime := rfl
@[simp] theorem putLantern_agenda (k : Nat) (l : Lantern) : (putLantern k l s).agenda = s.agenda := rfl
@[simp] theorem putLantern_calendar (k : Nat) (l : Lantern) : (putLantern k l s).calendar = s.calendar := rfl
@[simp] theorem putLantern_turn (k : Nat) (l : Lantern) : (putLantern k l s).turn = s.turn := rfl
@[simp] theorem putLantern_abreast (k : Nat) (l : Lantern) : (putLantern k l s).abreast = s.abreast := rfl
@[simp] theorem putLantern_passed (k : Nat) (l : Lantern) : (putLantern k l s).passed = s.passed := rfl
@[simp] theorem putLantern_scoutAt (k : Nat) (l : Lantern) : (putLantern k l s).scoutAt = s.scoutAt := rfl
@[simp] theorem putLantern_fresh (k : Nat) (l : Lantern) : (putLantern k l s).fresh = s.fresh := rfl
@[simp] theorem putLantern_links (k : Nat) (l : Lantern) : (putLantern k l s).links = s.links := rfl
@[simp] theorem putLantern_mem (k : Nat) (l : Lantern) : (putLantern k l s).mem = s.mem := rfl
@[simp] theorem putLantern_marks (k : Nat) (l : Lantern) : (putLantern k l s).marks = s.marks := rfl
@[simp] theorem putLantern_poison (k : Nat) (l : Lantern) : (putLantern k l s).poison = s.poison := rfl
@[simp] theorem putLantern_rewrites (k : Nat) (l : Lantern) : (putLantern k l s).rewrites = s.rewrites := rfl
@[simp] theorem putLantern_codes (k : Nat) (l : Lantern) : (putLantern k l s).codes = s.codes := rfl
@[simp] theorem putLantern_metadata (k : Nat) (l : Lantern) : (putLantern k l s).metadata = s.metadata := rfl
@[simp] theorem putLantern_l2 (k : Nat) (l : Lantern) : (putLantern k l s).l2 = s.l2 := rfl
@[simp] theorem putLantern_msgs (k : Nat) (l : Lantern) : (putLantern k l s).msgs = s.msgs := rfl
@[simp] theorem putLantern_flips (k : Nat) (l : Lantern) : (putLantern k l s).flips = s.flips := rfl
@[simp] theorem putLantern_prefetches (k : Nat) (l : Lantern) : (putLantern k l s).prefetches = s.prefetches := rfl
@[simp] theorem putLantern_writes (k : Nat) (l : Lantern) : (putLantern k l s).writes = s.writes := rfl
@[simp] theorem putLantern_imagePages (k : Nat) (l : Lantern) : (putLantern k l s).imagePages = s.imagePages := rfl
@[simp] theorem putLantern_imageGen (k : Nat) (l : Lantern) : (putLantern k l s).imageGen = s.imageGen := rfl
@[simp] theorem putLantern_tlb (k : Nat) (l : Lantern) : (putLantern k l s).tlb = s.tlb := rfl
@[simp] theorem putLantern_revmap (k : Nat) (l : Lantern) : (putLantern k l s).revmap = s.revmap := rfl
@[simp] theorem putLantern_pins (k : Nat) (l : Lantern) : (putLantern k l s).pins = s.pins := rfl
@[simp] theorem putLantern_stashWays (k : Nat) (l : Lantern) : (putLantern k l s).stashWays = s.stashWays := rfl
@[simp] theorem putLantern_tiles (k : Nat) (l : Lantern) : (putLantern k l s).tiles = s.tiles := rfl
@[simp] theorem putLantern_windows (k : Nat) (l : Lantern) : (putLantern k l s).windows = s.windows := rfl
@[simp] theorem putLantern_windowCids (k : Nat) (l : Lantern) : (putLantern k l s).windowCids = s.windowCids := rfl
@[simp] theorem putLantern_frames (k : Nat) (l : Lantern) : (putLantern k l s).frames = s.frames := rfl
@[simp] theorem putLantern_threads (k : Nat) (l : Lantern) : (putLantern k l s).threads = s.threads := rfl
@[simp] theorem putLantern_launches (k : Nat) (l : Lantern) : (putLantern k l s).launches = s.launches := rfl
@[simp] theorem putLantern_circles (k : Nat) (l : Lantern) : (putLantern k l s).circles = s.circles := rfl
@[simp] theorem putLantern_shares (k : Nat) (l : Lantern) : (putLantern k l s).shares = s.shares := rfl
@[simp] theorem putLantern_engines (k : Nat) (l : Lantern) : (putLantern k l s).engines = s.engines := rfl
@[simp] theorem putLantern_tries (k : Nat) (l : Lantern) : (putLantern k l s).tries = s.tries := rfl
@[simp] theorem putLantern_clusters (k : Nat) (l : Lantern) : (putLantern k l s).clusters = s.clusters := rfl
@[simp] theorem putLantern_cores (k : Nat) (l : Lantern) : (putLantern k l s).cores = s.cores := rfl
@[simp] theorem putLantern_lanterns (k : Nat) (l : Lantern) : (putLantern k l s).lanterns = Sparse.put s.lanterns k l := rfl
@[simp] theorem putLantern_contexts (k : Nat) (l : Lantern) : (putLantern k l s).contexts = s.contexts := rfl
@[simp] theorem putLantern_parts (k : Nat) (l : Lantern) : (putLantern k l s).parts = s.parts := rfl
@[simp] theorem putLantern_queues (k : Nat) (l : Lantern) : (putLantern k l s).queues = s.queues := rfl
@[simp] theorem putLantern_served (k : Nat) (l : Lantern) : (putLantern k l s).served = s.served := rfl
@[simp] theorem putLantern_sources (k : Nat) (l : Lantern) : (putLantern k l s).sources = s.sources := rfl
@[simp] theorem putLantern_ports (k : Nat) (l : Lantern) : (putLantern k l s).ports = s.ports := rfl
@[simp] theorem putLantern_routes (k : Nat) (l : Lantern) : (putLantern k l s).routes = s.routes := rfl
@[simp] theorem putLantern_station (k : Nat) (l : Lantern) : (putLantern k l s).station = s.station := rfl
@[simp] theorem putLantern_monitors (k : Nat) (l : Lantern) : (putLantern k l s).monitors = s.monitors := rfl
@[simp] theorem putLantern_reserveOn (k : Nat) (l : Lantern) : (putLantern k l s).reserveOn = s.reserveOn := rfl
@[simp] theorem putLantern_reply (k : Nat) (l : Lantern) : (putLantern k l s).reply = s.reply := rfl
@[simp] theorem putLantern_replyErr (k : Nat) (l : Lantern) : (putLantern k l s).replyErr = s.replyErr := rfl

/-! ## modLantern -/

@[simp] theorem modLantern_chiptime (k : Nat) (f : Lantern → Lantern) : (modLantern k f s).chiptime = s.chiptime := rfl
@[simp] theorem modLantern_agenda (k : Nat) (f : Lantern → Lantern) : (modLantern k f s).agenda = s.agenda := rfl
@[simp] theorem modLantern_calendar (k : Nat) (f : Lantern → Lantern) : (modLantern k f s).calendar = s.calendar := rfl
@[simp] theorem modLantern_turn (k : Nat) (f : Lantern → Lantern) : (modLantern k f s).turn = s.turn := rfl
@[simp] theorem modLantern_abreast (k : Nat) (f : Lantern → Lantern) : (modLantern k f s).abreast = s.abreast := rfl
@[simp] theorem modLantern_passed (k : Nat) (f : Lantern → Lantern) : (modLantern k f s).passed = s.passed := rfl
@[simp] theorem modLantern_scoutAt (k : Nat) (f : Lantern → Lantern) : (modLantern k f s).scoutAt = s.scoutAt := rfl
@[simp] theorem modLantern_fresh (k : Nat) (f : Lantern → Lantern) : (modLantern k f s).fresh = s.fresh := rfl
@[simp] theorem modLantern_links (k : Nat) (f : Lantern → Lantern) : (modLantern k f s).links = s.links := rfl
@[simp] theorem modLantern_mem (k : Nat) (f : Lantern → Lantern) : (modLantern k f s).mem = s.mem := rfl
@[simp] theorem modLantern_marks (k : Nat) (f : Lantern → Lantern) : (modLantern k f s).marks = s.marks := rfl
@[simp] theorem modLantern_poison (k : Nat) (f : Lantern → Lantern) : (modLantern k f s).poison = s.poison := rfl
@[simp] theorem modLantern_rewrites (k : Nat) (f : Lantern → Lantern) : (modLantern k f s).rewrites = s.rewrites := rfl
@[simp] theorem modLantern_codes (k : Nat) (f : Lantern → Lantern) : (modLantern k f s).codes = s.codes := rfl
@[simp] theorem modLantern_metadata (k : Nat) (f : Lantern → Lantern) : (modLantern k f s).metadata = s.metadata := rfl
@[simp] theorem modLantern_l2 (k : Nat) (f : Lantern → Lantern) : (modLantern k f s).l2 = s.l2 := rfl
@[simp] theorem modLantern_msgs (k : Nat) (f : Lantern → Lantern) : (modLantern k f s).msgs = s.msgs := rfl
@[simp] theorem modLantern_flips (k : Nat) (f : Lantern → Lantern) : (modLantern k f s).flips = s.flips := rfl
@[simp] theorem modLantern_prefetches (k : Nat) (f : Lantern → Lantern) : (modLantern k f s).prefetches = s.prefetches := rfl
@[simp] theorem modLantern_writes (k : Nat) (f : Lantern → Lantern) : (modLantern k f s).writes = s.writes := rfl
@[simp] theorem modLantern_imagePages (k : Nat) (f : Lantern → Lantern) : (modLantern k f s).imagePages = s.imagePages := rfl
@[simp] theorem modLantern_imageGen (k : Nat) (f : Lantern → Lantern) : (modLantern k f s).imageGen = s.imageGen := rfl
@[simp] theorem modLantern_tlb (k : Nat) (f : Lantern → Lantern) : (modLantern k f s).tlb = s.tlb := rfl
@[simp] theorem modLantern_revmap (k : Nat) (f : Lantern → Lantern) : (modLantern k f s).revmap = s.revmap := rfl
@[simp] theorem modLantern_pins (k : Nat) (f : Lantern → Lantern) : (modLantern k f s).pins = s.pins := rfl
@[simp] theorem modLantern_stashWays (k : Nat) (f : Lantern → Lantern) : (modLantern k f s).stashWays = s.stashWays := rfl
@[simp] theorem modLantern_tiles (k : Nat) (f : Lantern → Lantern) : (modLantern k f s).tiles = s.tiles := rfl
@[simp] theorem modLantern_windows (k : Nat) (f : Lantern → Lantern) : (modLantern k f s).windows = s.windows := rfl
@[simp] theorem modLantern_windowCids (k : Nat) (f : Lantern → Lantern) : (modLantern k f s).windowCids = s.windowCids := rfl
@[simp] theorem modLantern_frames (k : Nat) (f : Lantern → Lantern) : (modLantern k f s).frames = s.frames := rfl
@[simp] theorem modLantern_threads (k : Nat) (f : Lantern → Lantern) : (modLantern k f s).threads = s.threads := rfl
@[simp] theorem modLantern_launches (k : Nat) (f : Lantern → Lantern) : (modLantern k f s).launches = s.launches := rfl
@[simp] theorem modLantern_circles (k : Nat) (f : Lantern → Lantern) : (modLantern k f s).circles = s.circles := rfl
@[simp] theorem modLantern_shares (k : Nat) (f : Lantern → Lantern) : (modLantern k f s).shares = s.shares := rfl
@[simp] theorem modLantern_engines (k : Nat) (f : Lantern → Lantern) : (modLantern k f s).engines = s.engines := rfl
@[simp] theorem modLantern_tries (k : Nat) (f : Lantern → Lantern) : (modLantern k f s).tries = s.tries := rfl
@[simp] theorem modLantern_clusters (k : Nat) (f : Lantern → Lantern) : (modLantern k f s).clusters = s.clusters := rfl
@[simp] theorem modLantern_cores (k : Nat) (f : Lantern → Lantern) : (modLantern k f s).cores = s.cores := rfl
@[simp] theorem modLantern_lanterns (k : Nat) (f : Lantern → Lantern) : (modLantern k f s).lanterns = Sparse.put s.lanterns k (f (getLantern s k)) := rfl
@[simp] theorem modLantern_contexts (k : Nat) (f : Lantern → Lantern) : (modLantern k f s).contexts = s.contexts := rfl
@[simp] theorem modLantern_parts (k : Nat) (f : Lantern → Lantern) : (modLantern k f s).parts = s.parts := rfl
@[simp] theorem modLantern_queues (k : Nat) (f : Lantern → Lantern) : (modLantern k f s).queues = s.queues := rfl
@[simp] theorem modLantern_served (k : Nat) (f : Lantern → Lantern) : (modLantern k f s).served = s.served := rfl
@[simp] theorem modLantern_sources (k : Nat) (f : Lantern → Lantern) : (modLantern k f s).sources = s.sources := rfl
@[simp] theorem modLantern_ports (k : Nat) (f : Lantern → Lantern) : (modLantern k f s).ports = s.ports := rfl
@[simp] theorem modLantern_routes (k : Nat) (f : Lantern → Lantern) : (modLantern k f s).routes = s.routes := rfl
@[simp] theorem modLantern_station (k : Nat) (f : Lantern → Lantern) : (modLantern k f s).station = s.station := rfl
@[simp] theorem modLantern_monitors (k : Nat) (f : Lantern → Lantern) : (modLantern k f s).monitors = s.monitors := rfl
@[simp] theorem modLantern_reserveOn (k : Nat) (f : Lantern → Lantern) : (modLantern k f s).reserveOn = s.reserveOn := rfl
@[simp] theorem modLantern_reply (k : Nat) (f : Lantern → Lantern) : (modLantern k f s).reply = s.reply := rfl
@[simp] theorem modLantern_replyErr (k : Nat) (f : Lantern → Lantern) : (modLantern k f s).replyErr = s.replyErr := rfl

/-! ## modTile -/

@[simp] theorem modTile_chiptime (k : Nat) (f : Tile → Tile) : (modTile k f s).chiptime = s.chiptime := rfl
@[simp] theorem modTile_agenda (k : Nat) (f : Tile → Tile) : (modTile k f s).agenda = s.agenda := rfl
@[simp] theorem modTile_calendar (k : Nat) (f : Tile → Tile) : (modTile k f s).calendar = s.calendar := rfl
@[simp] theorem modTile_turn (k : Nat) (f : Tile → Tile) : (modTile k f s).turn = s.turn := rfl
@[simp] theorem modTile_abreast (k : Nat) (f : Tile → Tile) : (modTile k f s).abreast = s.abreast := rfl
@[simp] theorem modTile_passed (k : Nat) (f : Tile → Tile) : (modTile k f s).passed = s.passed := rfl
@[simp] theorem modTile_scoutAt (k : Nat) (f : Tile → Tile) : (modTile k f s).scoutAt = s.scoutAt := rfl
@[simp] theorem modTile_fresh (k : Nat) (f : Tile → Tile) : (modTile k f s).fresh = s.fresh := rfl
@[simp] theorem modTile_links (k : Nat) (f : Tile → Tile) : (modTile k f s).links = s.links := rfl
@[simp] theorem modTile_mem (k : Nat) (f : Tile → Tile) : (modTile k f s).mem = s.mem := rfl
@[simp] theorem modTile_marks (k : Nat) (f : Tile → Tile) : (modTile k f s).marks = s.marks := rfl
@[simp] theorem modTile_poison (k : Nat) (f : Tile → Tile) : (modTile k f s).poison = s.poison := rfl
@[simp] theorem modTile_rewrites (k : Nat) (f : Tile → Tile) : (modTile k f s).rewrites = s.rewrites := rfl
@[simp] theorem modTile_codes (k : Nat) (f : Tile → Tile) : (modTile k f s).codes = s.codes := rfl
@[simp] theorem modTile_metadata (k : Nat) (f : Tile → Tile) : (modTile k f s).metadata = s.metadata := rfl
@[simp] theorem modTile_l2 (k : Nat) (f : Tile → Tile) : (modTile k f s).l2 = s.l2 := rfl
@[simp] theorem modTile_msgs (k : Nat) (f : Tile → Tile) : (modTile k f s).msgs = s.msgs := rfl
@[simp] theorem modTile_flips (k : Nat) (f : Tile → Tile) : (modTile k f s).flips = s.flips := rfl
@[simp] theorem modTile_prefetches (k : Nat) (f : Tile → Tile) : (modTile k f s).prefetches = s.prefetches := rfl
@[simp] theorem modTile_writes (k : Nat) (f : Tile → Tile) : (modTile k f s).writes = s.writes := rfl
@[simp] theorem modTile_imagePages (k : Nat) (f : Tile → Tile) : (modTile k f s).imagePages = s.imagePages := rfl
@[simp] theorem modTile_imageGen (k : Nat) (f : Tile → Tile) : (modTile k f s).imageGen = s.imageGen := rfl
@[simp] theorem modTile_tlb (k : Nat) (f : Tile → Tile) : (modTile k f s).tlb = s.tlb := rfl
@[simp] theorem modTile_revmap (k : Nat) (f : Tile → Tile) : (modTile k f s).revmap = s.revmap := rfl
@[simp] theorem modTile_pins (k : Nat) (f : Tile → Tile) : (modTile k f s).pins = s.pins := rfl
@[simp] theorem modTile_stashWays (k : Nat) (f : Tile → Tile) : (modTile k f s).stashWays = s.stashWays := rfl
@[simp] theorem modTile_tiles (k : Nat) (f : Tile → Tile) : (modTile k f s).tiles = Sparse.alter s.tiles k f := rfl
@[simp] theorem modTile_windows (k : Nat) (f : Tile → Tile) : (modTile k f s).windows = s.windows := rfl
@[simp] theorem modTile_windowCids (k : Nat) (f : Tile → Tile) : (modTile k f s).windowCids = s.windowCids := rfl
@[simp] theorem modTile_frames (k : Nat) (f : Tile → Tile) : (modTile k f s).frames = s.frames := rfl
@[simp] theorem modTile_threads (k : Nat) (f : Tile → Tile) : (modTile k f s).threads = s.threads := rfl
@[simp] theorem modTile_launches (k : Nat) (f : Tile → Tile) : (modTile k f s).launches = s.launches := rfl
@[simp] theorem modTile_circles (k : Nat) (f : Tile → Tile) : (modTile k f s).circles = s.circles := rfl
@[simp] theorem modTile_shares (k : Nat) (f : Tile → Tile) : (modTile k f s).shares = s.shares := rfl
@[simp] theorem modTile_engines (k : Nat) (f : Tile → Tile) : (modTile k f s).engines = s.engines := rfl
@[simp] theorem modTile_tries (k : Nat) (f : Tile → Tile) : (modTile k f s).tries = s.tries := rfl
@[simp] theorem modTile_clusters (k : Nat) (f : Tile → Tile) : (modTile k f s).clusters = s.clusters := rfl
@[simp] theorem modTile_cores (k : Nat) (f : Tile → Tile) : (modTile k f s).cores = s.cores := rfl
@[simp] theorem modTile_lanterns (k : Nat) (f : Tile → Tile) : (modTile k f s).lanterns = s.lanterns := rfl
@[simp] theorem modTile_contexts (k : Nat) (f : Tile → Tile) : (modTile k f s).contexts = s.contexts := rfl
@[simp] theorem modTile_parts (k : Nat) (f : Tile → Tile) : (modTile k f s).parts = s.parts := rfl
@[simp] theorem modTile_queues (k : Nat) (f : Tile → Tile) : (modTile k f s).queues = s.queues := rfl
@[simp] theorem modTile_served (k : Nat) (f : Tile → Tile) : (modTile k f s).served = s.served := rfl
@[simp] theorem modTile_sources (k : Nat) (f : Tile → Tile) : (modTile k f s).sources = s.sources := rfl
@[simp] theorem modTile_ports (k : Nat) (f : Tile → Tile) : (modTile k f s).ports = s.ports := rfl
@[simp] theorem modTile_routes (k : Nat) (f : Tile → Tile) : (modTile k f s).routes = s.routes := rfl
@[simp] theorem modTile_station (k : Nat) (f : Tile → Tile) : (modTile k f s).station = s.station := rfl
@[simp] theorem modTile_monitors (k : Nat) (f : Tile → Tile) : (modTile k f s).monitors = s.monitors := rfl
@[simp] theorem modTile_reserveOn (k : Nat) (f : Tile → Tile) : (modTile k f s).reserveOn = s.reserveOn := rfl
@[simp] theorem modTile_reply (k : Nat) (f : Tile → Tile) : (modTile k f s).reply = s.reply := rfl
@[simp] theorem modTile_replyErr (k : Nat) (f : Tile → Tile) : (modTile k f s).replyErr = s.replyErr := rfl

/-! ## modPort -/

@[simp] theorem modPort_chiptime (k : Nat) (f : Port → Port) : (modPort k f s).chiptime = s.chiptime := rfl
@[simp] theorem modPort_agenda (k : Nat) (f : Port → Port) : (modPort k f s).agenda = s.agenda := rfl
@[simp] theorem modPort_calendar (k : Nat) (f : Port → Port) : (modPort k f s).calendar = s.calendar := rfl
@[simp] theorem modPort_turn (k : Nat) (f : Port → Port) : (modPort k f s).turn = s.turn := rfl
@[simp] theorem modPort_abreast (k : Nat) (f : Port → Port) : (modPort k f s).abreast = s.abreast := rfl
@[simp] theorem modPort_passed (k : Nat) (f : Port → Port) : (modPort k f s).passed = s.passed := rfl
@[simp] theorem modPort_scoutAt (k : Nat) (f : Port → Port) : (modPort k f s).scoutAt = s.scoutAt := rfl
@[simp] theorem modPort_fresh (k : Nat) (f : Port → Port) : (modPort k f s).fresh = s.fresh := rfl
@[simp] theorem modPort_links (k : Nat) (f : Port → Port) : (modPort k f s).links = s.links := rfl
@[simp] theorem modPort_mem (k : Nat) (f : Port → Port) : (modPort k f s).mem = s.mem := rfl
@[simp] theorem modPort_marks (k : Nat) (f : Port → Port) : (modPort k f s).marks = s.marks := rfl
@[simp] theorem modPort_poison (k : Nat) (f : Port → Port) : (modPort k f s).poison = s.poison := rfl
@[simp] theorem modPort_rewrites (k : Nat) (f : Port → Port) : (modPort k f s).rewrites = s.rewrites := rfl
@[simp] theorem modPort_codes (k : Nat) (f : Port → Port) : (modPort k f s).codes = s.codes := rfl
@[simp] theorem modPort_metadata (k : Nat) (f : Port → Port) : (modPort k f s).metadata = s.metadata := rfl
@[simp] theorem modPort_l2 (k : Nat) (f : Port → Port) : (modPort k f s).l2 = s.l2 := rfl
@[simp] theorem modPort_msgs (k : Nat) (f : Port → Port) : (modPort k f s).msgs = s.msgs := rfl
@[simp] theorem modPort_flips (k : Nat) (f : Port → Port) : (modPort k f s).flips = s.flips := rfl
@[simp] theorem modPort_prefetches (k : Nat) (f : Port → Port) : (modPort k f s).prefetches = s.prefetches := rfl
@[simp] theorem modPort_writes (k : Nat) (f : Port → Port) : (modPort k f s).writes = s.writes := rfl
@[simp] theorem modPort_imagePages (k : Nat) (f : Port → Port) : (modPort k f s).imagePages = s.imagePages := rfl
@[simp] theorem modPort_imageGen (k : Nat) (f : Port → Port) : (modPort k f s).imageGen = s.imageGen := rfl
@[simp] theorem modPort_tlb (k : Nat) (f : Port → Port) : (modPort k f s).tlb = s.tlb := rfl
@[simp] theorem modPort_revmap (k : Nat) (f : Port → Port) : (modPort k f s).revmap = s.revmap := rfl
@[simp] theorem modPort_pins (k : Nat) (f : Port → Port) : (modPort k f s).pins = s.pins := rfl
@[simp] theorem modPort_stashWays (k : Nat) (f : Port → Port) : (modPort k f s).stashWays = s.stashWays := rfl
@[simp] theorem modPort_tiles (k : Nat) (f : Port → Port) : (modPort k f s).tiles = s.tiles := rfl
@[simp] theorem modPort_windows (k : Nat) (f : Port → Port) : (modPort k f s).windows = s.windows := rfl
@[simp] theorem modPort_windowCids (k : Nat) (f : Port → Port) : (modPort k f s).windowCids = s.windowCids := rfl
@[simp] theorem modPort_frames (k : Nat) (f : Port → Port) : (modPort k f s).frames = s.frames := rfl
@[simp] theorem modPort_threads (k : Nat) (f : Port → Port) : (modPort k f s).threads = s.threads := rfl
@[simp] theorem modPort_launches (k : Nat) (f : Port → Port) : (modPort k f s).launches = s.launches := rfl
@[simp] theorem modPort_circles (k : Nat) (f : Port → Port) : (modPort k f s).circles = s.circles := rfl
@[simp] theorem modPort_shares (k : Nat) (f : Port → Port) : (modPort k f s).shares = s.shares := rfl
@[simp] theorem modPort_engines (k : Nat) (f : Port → Port) : (modPort k f s).engines = s.engines := rfl
@[simp] theorem modPort_tries (k : Nat) (f : Port → Port) : (modPort k f s).tries = s.tries := rfl
@[simp] theorem modPort_clusters (k : Nat) (f : Port → Port) : (modPort k f s).clusters = s.clusters := rfl
@[simp] theorem modPort_cores (k : Nat) (f : Port → Port) : (modPort k f s).cores = s.cores := rfl
@[simp] theorem modPort_lanterns (k : Nat) (f : Port → Port) : (modPort k f s).lanterns = s.lanterns := rfl
@[simp] theorem modPort_contexts (k : Nat) (f : Port → Port) : (modPort k f s).contexts = s.contexts := rfl
@[simp] theorem modPort_parts (k : Nat) (f : Port → Port) : (modPort k f s).parts = s.parts := rfl
@[simp] theorem modPort_queues (k : Nat) (f : Port → Port) : (modPort k f s).queues = s.queues := rfl
@[simp] theorem modPort_served (k : Nat) (f : Port → Port) : (modPort k f s).served = s.served := rfl
@[simp] theorem modPort_sources (k : Nat) (f : Port → Port) : (modPort k f s).sources = s.sources := rfl
@[simp] theorem modPort_ports (k : Nat) (f : Port → Port) : (modPort k f s).ports = Sparse.put s.ports k (f (getPort s k)) := rfl
@[simp] theorem modPort_routes (k : Nat) (f : Port → Port) : (modPort k f s).routes = s.routes := rfl
@[simp] theorem modPort_station (k : Nat) (f : Port → Port) : (modPort k f s).station = s.station := rfl
@[simp] theorem modPort_monitors (k : Nat) (f : Port → Port) : (modPort k f s).monitors = s.monitors := rfl
@[simp] theorem modPort_reserveOn (k : Nat) (f : Port → Port) : (modPort k f s).reserveOn = s.reserveOn := rfl
@[simp] theorem modPort_reply (k : Nat) (f : Port → Port) : (modPort k f s).reply = s.reply := rfl
@[simp] theorem modPort_replyErr (k : Nat) (f : Port → Port) : (modPort k f s).replyErr = s.replyErr := rfl

/-! ## due -/

@[simp] theorem due_chiptime (es : List Instr) : (due es s).chiptime = s.chiptime := rfl
@[simp] theorem due_agenda (es : List Instr) : (due es s).agenda = s.agenda ++ es := rfl
@[simp] theorem due_calendar (es : List Instr) : (due es s).calendar = s.calendar := rfl
@[simp] theorem due_turn (es : List Instr) : (due es s).turn = s.turn := rfl
@[simp] theorem due_abreast (es : List Instr) : (due es s).abreast = s.abreast := rfl
@[simp] theorem due_passed (es : List Instr) : (due es s).passed = s.passed := rfl
@[simp] theorem due_scoutAt (es : List Instr) : (due es s).scoutAt = s.scoutAt := rfl
@[simp] theorem due_fresh (es : List Instr) : (due es s).fresh = s.fresh := rfl
@[simp] theorem due_links (es : List Instr) : (due es s).links = s.links := rfl
@[simp] theorem due_mem (es : List Instr) : (due es s).mem = s.mem := rfl
@[simp] theorem due_marks (es : List Instr) : (due es s).marks = s.marks := rfl
@[simp] theorem due_poison (es : List Instr) : (due es s).poison = s.poison := rfl
@[simp] theorem due_rewrites (es : List Instr) : (due es s).rewrites = s.rewrites := rfl
@[simp] theorem due_codes (es : List Instr) : (due es s).codes = s.codes := rfl
@[simp] theorem due_metadata (es : List Instr) : (due es s).metadata = s.metadata := rfl
@[simp] theorem due_l2 (es : List Instr) : (due es s).l2 = s.l2 := rfl
@[simp] theorem due_msgs (es : List Instr) : (due es s).msgs = s.msgs := rfl
@[simp] theorem due_flips (es : List Instr) : (due es s).flips = s.flips := rfl
@[simp] theorem due_prefetches (es : List Instr) : (due es s).prefetches = s.prefetches := rfl
@[simp] theorem due_writes (es : List Instr) : (due es s).writes = s.writes := rfl
@[simp] theorem due_imagePages (es : List Instr) : (due es s).imagePages = s.imagePages := rfl
@[simp] theorem due_imageGen (es : List Instr) : (due es s).imageGen = s.imageGen := rfl
@[simp] theorem due_tlb (es : List Instr) : (due es s).tlb = s.tlb := rfl
@[simp] theorem due_revmap (es : List Instr) : (due es s).revmap = s.revmap := rfl
@[simp] theorem due_pins (es : List Instr) : (due es s).pins = s.pins := rfl
@[simp] theorem due_stashWays (es : List Instr) : (due es s).stashWays = s.stashWays := rfl
@[simp] theorem due_tiles (es : List Instr) : (due es s).tiles = s.tiles := rfl
@[simp] theorem due_windows (es : List Instr) : (due es s).windows = s.windows := rfl
@[simp] theorem due_windowCids (es : List Instr) : (due es s).windowCids = s.windowCids := rfl
@[simp] theorem due_frames (es : List Instr) : (due es s).frames = s.frames := rfl
@[simp] theorem due_threads (es : List Instr) : (due es s).threads = s.threads := rfl
@[simp] theorem due_launches (es : List Instr) : (due es s).launches = s.launches := rfl
@[simp] theorem due_circles (es : List Instr) : (due es s).circles = s.circles := rfl
@[simp] theorem due_shares (es : List Instr) : (due es s).shares = s.shares := rfl
@[simp] theorem due_engines (es : List Instr) : (due es s).engines = s.engines := rfl
@[simp] theorem due_tries (es : List Instr) : (due es s).tries = s.tries := rfl
@[simp] theorem due_clusters (es : List Instr) : (due es s).clusters = s.clusters := rfl
@[simp] theorem due_cores (es : List Instr) : (due es s).cores = s.cores := rfl
@[simp] theorem due_lanterns (es : List Instr) : (due es s).lanterns = s.lanterns := rfl
@[simp] theorem due_contexts (es : List Instr) : (due es s).contexts = s.contexts := rfl
@[simp] theorem due_parts (es : List Instr) : (due es s).parts = s.parts := rfl
@[simp] theorem due_queues (es : List Instr) : (due es s).queues = s.queues := rfl
@[simp] theorem due_served (es : List Instr) : (due es s).served = s.served := rfl
@[simp] theorem due_sources (es : List Instr) : (due es s).sources = s.sources := rfl
@[simp] theorem due_ports (es : List Instr) : (due es s).ports = s.ports := rfl
@[simp] theorem due_routes (es : List Instr) : (due es s).routes = s.routes := rfl
@[simp] theorem due_station (es : List Instr) : (due es s).station = s.station := rfl
@[simp] theorem due_monitors (es : List Instr) : (due es s).monitors = s.monitors := rfl
@[simp] theorem due_reserveOn (es : List Instr) : (due es s).reserveOn = s.reserveOn := rfl
@[simp] theorem due_reply (es : List Instr) : (due es s).reply = s.reply := rfl
@[simp] theorem due_replyErr (es : List Instr) : (due es s).replyErr = s.replyErr := rfl

/-! ## schedule -/

@[simp] theorem schedule_chiptime (t : Nat) (i : Instr) : (schedule t i s).chiptime = s.chiptime := rfl
@[simp] theorem schedule_agenda (t : Nat) (i : Instr) : (schedule t i s).agenda = s.agenda := rfl
@[simp] theorem schedule_calendar (t : Nat) (i : Instr) : (schedule t i s).calendar = calendarAt t i s.calendar := rfl
@[simp] theorem schedule_turn (t : Nat) (i : Instr) : (schedule t i s).turn = s.turn := rfl
@[simp] theorem schedule_abreast (t : Nat) (i : Instr) : (schedule t i s).abreast = s.abreast := rfl
@[simp] theorem schedule_passed (t : Nat) (i : Instr) : (schedule t i s).passed = s.passed := rfl
@[simp] theorem schedule_scoutAt (t : Nat) (i : Instr) : (schedule t i s).scoutAt = s.scoutAt := rfl
@[simp] theorem schedule_fresh (t : Nat) (i : Instr) : (schedule t i s).fresh = s.fresh := rfl
@[simp] theorem schedule_links (t : Nat) (i : Instr) : (schedule t i s).links = s.links := rfl
@[simp] theorem schedule_mem (t : Nat) (i : Instr) : (schedule t i s).mem = s.mem := rfl
@[simp] theorem schedule_marks (t : Nat) (i : Instr) : (schedule t i s).marks = s.marks := rfl
@[simp] theorem schedule_poison (t : Nat) (i : Instr) : (schedule t i s).poison = s.poison := rfl
@[simp] theorem schedule_rewrites (t : Nat) (i : Instr) : (schedule t i s).rewrites = s.rewrites := rfl
@[simp] theorem schedule_codes (t : Nat) (i : Instr) : (schedule t i s).codes = s.codes := rfl
@[simp] theorem schedule_metadata (t : Nat) (i : Instr) : (schedule t i s).metadata = s.metadata := rfl
@[simp] theorem schedule_l2 (t : Nat) (i : Instr) : (schedule t i s).l2 = s.l2 := rfl
@[simp] theorem schedule_msgs (t : Nat) (i : Instr) : (schedule t i s).msgs = s.msgs := rfl
@[simp] theorem schedule_flips (t : Nat) (i : Instr) : (schedule t i s).flips = s.flips := rfl
@[simp] theorem schedule_prefetches (t : Nat) (i : Instr) : (schedule t i s).prefetches = s.prefetches := rfl
@[simp] theorem schedule_writes (t : Nat) (i : Instr) : (schedule t i s).writes = s.writes := rfl
@[simp] theorem schedule_imagePages (t : Nat) (i : Instr) : (schedule t i s).imagePages = s.imagePages := rfl
@[simp] theorem schedule_imageGen (t : Nat) (i : Instr) : (schedule t i s).imageGen = s.imageGen := rfl
@[simp] theorem schedule_tlb (t : Nat) (i : Instr) : (schedule t i s).tlb = s.tlb := rfl
@[simp] theorem schedule_revmap (t : Nat) (i : Instr) : (schedule t i s).revmap = s.revmap := rfl
@[simp] theorem schedule_pins (t : Nat) (i : Instr) : (schedule t i s).pins = s.pins := rfl
@[simp] theorem schedule_stashWays (t : Nat) (i : Instr) : (schedule t i s).stashWays = s.stashWays := rfl
@[simp] theorem schedule_tiles (t : Nat) (i : Instr) : (schedule t i s).tiles = s.tiles := rfl
@[simp] theorem schedule_windows (t : Nat) (i : Instr) : (schedule t i s).windows = s.windows := rfl
@[simp] theorem schedule_windowCids (t : Nat) (i : Instr) : (schedule t i s).windowCids = s.windowCids := rfl
@[simp] theorem schedule_frames (t : Nat) (i : Instr) : (schedule t i s).frames = s.frames := rfl
@[simp] theorem schedule_threads (t : Nat) (i : Instr) : (schedule t i s).threads = s.threads := rfl
@[simp] theorem schedule_launches (t : Nat) (i : Instr) : (schedule t i s).launches = s.launches := rfl
@[simp] theorem schedule_circles (t : Nat) (i : Instr) : (schedule t i s).circles = s.circles := rfl
@[simp] theorem schedule_shares (t : Nat) (i : Instr) : (schedule t i s).shares = s.shares := rfl
@[simp] theorem schedule_engines (t : Nat) (i : Instr) : (schedule t i s).engines = s.engines := rfl
@[simp] theorem schedule_tries (t : Nat) (i : Instr) : (schedule t i s).tries = s.tries := rfl
@[simp] theorem schedule_clusters (t : Nat) (i : Instr) : (schedule t i s).clusters = s.clusters := rfl
@[simp] theorem schedule_cores (t : Nat) (i : Instr) : (schedule t i s).cores = s.cores := rfl
@[simp] theorem schedule_lanterns (t : Nat) (i : Instr) : (schedule t i s).lanterns = s.lanterns := rfl
@[simp] theorem schedule_contexts (t : Nat) (i : Instr) : (schedule t i s).contexts = s.contexts := rfl
@[simp] theorem schedule_parts (t : Nat) (i : Instr) : (schedule t i s).parts = s.parts := rfl
@[simp] theorem schedule_queues (t : Nat) (i : Instr) : (schedule t i s).queues = s.queues := rfl
@[simp] theorem schedule_served (t : Nat) (i : Instr) : (schedule t i s).served = s.served := rfl
@[simp] theorem schedule_sources (t : Nat) (i : Instr) : (schedule t i s).sources = s.sources := rfl
@[simp] theorem schedule_ports (t : Nat) (i : Instr) : (schedule t i s).ports = s.ports := rfl
@[simp] theorem schedule_routes (t : Nat) (i : Instr) : (schedule t i s).routes = s.routes := rfl
@[simp] theorem schedule_station (t : Nat) (i : Instr) : (schedule t i s).station = s.station := rfl
@[simp] theorem schedule_monitors (t : Nat) (i : Instr) : (schedule t i s).monitors = s.monitors := rfl
@[simp] theorem schedule_reserveOn (t : Nat) (i : Instr) : (schedule t i s).reserveOn = s.reserveOn := rfl
@[simp] theorem schedule_reply (t : Nat) (i : Instr) : (schedule t i s).reply = s.reply := rfl
@[simp] theorem schedule_replyErr (t : Nat) (i : Instr) : (schedule t i s).replyErr = s.replyErr := rfl

/-! ## after -/

@[simp] theorem after_chiptime (n : Nat) (i : Instr) : (after n i s).chiptime = s.chiptime := rfl
@[simp] theorem after_agenda (n : Nat) (i : Instr) : (after n i s).agenda = s.agenda := rfl
@[simp] theorem after_calendar (n : Nat) (i : Instr) : (after n i s).calendar = calendarAt (s.chiptime + n) i s.calendar := rfl
@[simp] theorem after_turn (n : Nat) (i : Instr) : (after n i s).turn = s.turn := rfl
@[simp] theorem after_abreast (n : Nat) (i : Instr) : (after n i s).abreast = s.abreast := rfl
@[simp] theorem after_passed (n : Nat) (i : Instr) : (after n i s).passed = s.passed := rfl
@[simp] theorem after_scoutAt (n : Nat) (i : Instr) : (after n i s).scoutAt = s.scoutAt := rfl
@[simp] theorem after_fresh (n : Nat) (i : Instr) : (after n i s).fresh = s.fresh := rfl
@[simp] theorem after_links (n : Nat) (i : Instr) : (after n i s).links = s.links := rfl
@[simp] theorem after_mem (n : Nat) (i : Instr) : (after n i s).mem = s.mem := rfl
@[simp] theorem after_marks (n : Nat) (i : Instr) : (after n i s).marks = s.marks := rfl
@[simp] theorem after_poison (n : Nat) (i : Instr) : (after n i s).poison = s.poison := rfl
@[simp] theorem after_rewrites (n : Nat) (i : Instr) : (after n i s).rewrites = s.rewrites := rfl
@[simp] theorem after_codes (n : Nat) (i : Instr) : (after n i s).codes = s.codes := rfl
@[simp] theorem after_metadata (n : Nat) (i : Instr) : (after n i s).metadata = s.metadata := rfl
@[simp] theorem after_l2 (n : Nat) (i : Instr) : (after n i s).l2 = s.l2 := rfl
@[simp] theorem after_msgs (n : Nat) (i : Instr) : (after n i s).msgs = s.msgs := rfl
@[simp] theorem after_flips (n : Nat) (i : Instr) : (after n i s).flips = s.flips := rfl
@[simp] theorem after_prefetches (n : Nat) (i : Instr) : (after n i s).prefetches = s.prefetches := rfl
@[simp] theorem after_writes (n : Nat) (i : Instr) : (after n i s).writes = s.writes := rfl
@[simp] theorem after_imagePages (n : Nat) (i : Instr) : (after n i s).imagePages = s.imagePages := rfl
@[simp] theorem after_imageGen (n : Nat) (i : Instr) : (after n i s).imageGen = s.imageGen := rfl
@[simp] theorem after_tlb (n : Nat) (i : Instr) : (after n i s).tlb = s.tlb := rfl
@[simp] theorem after_revmap (n : Nat) (i : Instr) : (after n i s).revmap = s.revmap := rfl
@[simp] theorem after_pins (n : Nat) (i : Instr) : (after n i s).pins = s.pins := rfl
@[simp] theorem after_stashWays (n : Nat) (i : Instr) : (after n i s).stashWays = s.stashWays := rfl
@[simp] theorem after_tiles (n : Nat) (i : Instr) : (after n i s).tiles = s.tiles := rfl
@[simp] theorem after_windows (n : Nat) (i : Instr) : (after n i s).windows = s.windows := rfl
@[simp] theorem after_windowCids (n : Nat) (i : Instr) : (after n i s).windowCids = s.windowCids := rfl
@[simp] theorem after_frames (n : Nat) (i : Instr) : (after n i s).frames = s.frames := rfl
@[simp] theorem after_threads (n : Nat) (i : Instr) : (after n i s).threads = s.threads := rfl
@[simp] theorem after_launches (n : Nat) (i : Instr) : (after n i s).launches = s.launches := rfl
@[simp] theorem after_circles (n : Nat) (i : Instr) : (after n i s).circles = s.circles := rfl
@[simp] theorem after_shares (n : Nat) (i : Instr) : (after n i s).shares = s.shares := rfl
@[simp] theorem after_engines (n : Nat) (i : Instr) : (after n i s).engines = s.engines := rfl
@[simp] theorem after_tries (n : Nat) (i : Instr) : (after n i s).tries = s.tries := rfl
@[simp] theorem after_clusters (n : Nat) (i : Instr) : (after n i s).clusters = s.clusters := rfl
@[simp] theorem after_cores (n : Nat) (i : Instr) : (after n i s).cores = s.cores := rfl
@[simp] theorem after_lanterns (n : Nat) (i : Instr) : (after n i s).lanterns = s.lanterns := rfl
@[simp] theorem after_contexts (n : Nat) (i : Instr) : (after n i s).contexts = s.contexts := rfl
@[simp] theorem after_parts (n : Nat) (i : Instr) : (after n i s).parts = s.parts := rfl
@[simp] theorem after_queues (n : Nat) (i : Instr) : (after n i s).queues = s.queues := rfl
@[simp] theorem after_served (n : Nat) (i : Instr) : (after n i s).served = s.served := rfl
@[simp] theorem after_sources (n : Nat) (i : Instr) : (after n i s).sources = s.sources := rfl
@[simp] theorem after_ports (n : Nat) (i : Instr) : (after n i s).ports = s.ports := rfl
@[simp] theorem after_routes (n : Nat) (i : Instr) : (after n i s).routes = s.routes := rfl
@[simp] theorem after_station (n : Nat) (i : Instr) : (after n i s).station = s.station := rfl
@[simp] theorem after_monitors (n : Nat) (i : Instr) : (after n i s).monitors = s.monitors := rfl
@[simp] theorem after_reserveOn (n : Nat) (i : Instr) : (after n i s).reserveOn = s.reserveOn := rfl
@[simp] theorem after_reply (n : Nat) (i : Instr) : (after n i s).reply = s.reply := rfl
@[simp] theorem after_replyErr (n : Nat) (i : Instr) : (after n i s).replyErr = s.replyErr := rfl

end Sys2Proof.Machine
end

