-- ==== Sys2Proof/Laws/Runs.lean ====
section
/-! SUPPORT. Opening, filling and closing runs: what each does to the thread, and that it touches nothing else of
the threads. -/

namespace Sys2Proof.Machine

/-- A fold of updates that each keep a view keeps it. -/
theorem foldl_keeps {α β σ : Type} (g : σ → β) {f : σ → α → σ} (h : ∀ s a, g (f s a) = g s) (l : List α) (s : σ) :
    g (l.foldl f s) = g s := by
  induction l generalizing s with
  | nil => rfl
  | cons a l ih => rw [List.foldl_cons, ih, h]

/-- A record that is listed is changed in place; the others stay. -/
theorem alter_same {α : Type} {m : Sparse α} {k : Nat} {f : α → α} {x : α} (h : Sparse.find? m k = some x) :
    Sparse.find? (Sparse.alter m k f) k = some (f x) := by simp [Sparse.alter, h]

theorem alter_other {α : Type} {m : Sparse α} {j k : Nat} {f : α → α} (h : j ≠ k) :
    Sparse.find? (Sparse.alter m k f) j = Sparse.find? m j := by
  unfold Sparse.alter
  split
  · exact Sparse.find?_put_other _ _ h
  · rfl

theorem startWake_threads (cl b : Nat) (c : Bool) (s : State) : (startWake cl b c s).threads = s.threads := by
  unfold startWake
  split <;> simp [freeDelay]

theorem scheduleOnce_threads (t : Nat) (e : Instr) (s : State) : (scheduleOnce t e s).threads = s.threads := by
  unfold scheduleOnce
  split <;> simp [schedule]

theorem phaseTimers_threads (l : Nat) (s : State) : (phaseTimers l s).threads = s.threads := by
  unfold phaseTimers
  rw [foldl_keeps State.threads]
  intro s kc
  rw [foldl_keeps State.threads (fun s kb => scheduleOnce_threads _ _ s)]

theorem setPhase_threads (l p w : Nat) (s : State) : (setPhase l p w s).threads = s.threads := by
  unfold setPhase
  rw [phaseTimers_threads]
  unfold phaseWakes
  rw [foldl_keeps State.threads, modLaunch_threads]
  intro s kc
  dsimp only
  rw [foldl_keeps State.threads (fun s kb => startWake_threads _ _ _ s),
    foldl_keeps State.threads (fun s kb => startWake_threads _ _ _ s)]

/-- The phases that a close sets are no affair of the threads. -/
theorem closePhases_threads (tid sid : Nat) (s : State) : (closePhases tid sid s).threads = s.threads := by
  unfold closePhases
  split
  · exact foldl_keeps State.threads (fun s p => setPhase_threads _ _ _ s) _ _
  · rfl

theorem getSplit_some {s : State} {tid sid : Nat} {t : Thread} {sp : Split} (ht : Sparse.find? s.threads tid = some t)
    (hs : Sparse.find? t.splits sid = some sp) : getSplit s tid sid = some sp := by simp [getSplit, ht, hs]

/-- The thread and the split that an environment was made of. -/
theorem envOf_inv {s : State} {tid sid : Nat} {e : Env} (h : envOf s tid sid = some e) :
    ∃ sp, Sparse.find? s.threads tid = some e.th ∧ Sparse.find? e.th.splits sid = some sp ∧ e.sp = sp.anew ∧
      e.regs = sp.run.image ∧ e.cid = cidOf s e.th.launch ∧ e.tid = tid ∧ e.sid = sid := by
  unfold envOf at h
  split at h
  · next t sp ht hs =>
    cases h
    refine ⟨sp, ht, ?_, rfl, rfl, rfl, rfl, rfl⟩
    simpa [getSplit, ht] using hs
  · cases h

/-- The thread once the run of one of its splits has closed (R22). -/
def Thread.closeRun (t : Thread) (sid : Nat) (sp : Split) : Thread :=
  if sp.run.isOpen then
    { t with
      regs := (sp.run.pend.foldl Regs.apply t.regs).applyFlags sp.run.flagClr sp.run.flagSet,
      splits := Sparse.put t.splits sid { sp with
        trapRegs := sp.run.pend.foldl TrapRegs.apply sp.trapRegs,
        spec := sp.spec.map (fun x => x.note sp.run.pend), run := sp.run.shut } }
  else t

/-- A close of a run: the thread, and no other. -/
theorem closeRun_find {s : State} {tid sid : Nat} {t : Thread} {sp : Split} (ht : Sparse.find? s.threads tid = some t)
    (hs : Sparse.find? t.splits sid = some sp) :
    Sparse.find? (closeRun tid sid s).threads tid = some (t.closeRun sid sp) := by
  unfold Machine.closeRun
  simp only [modThread_threads, closePhases_threads]
  rw [alter_same ht]
  simp only [hs, Thread.closeRun]

theorem closeRun_other {s : State} {tid sid k : Nat} (h : k ≠ tid) :
    Sparse.find? (closeRun tid sid s).threads k = Sparse.find? s.threads k := by
  unfold Machine.closeRun
  simp only [modThread_threads, closePhases_threads]
  exact alter_other h

/-- The split after a close. -/
theorem Thread.closeRun_split {t : Thread} {sid : Nat} {sp : Split} (hs : Sparse.find? t.splits sid = some sp) :
    ∃ q, Sparse.find? (t.closeRun sid sp).splits sid = some q ∧ q.spec.isSome = sp.spec.isSome ∧ q.handed = sp.handed ∧
      q.pc = sp.pc ∧ q.run.isOpen = false := by
  unfold Thread.closeRun
  cases ho : sp.run.isOpen
  · exact ⟨sp, by simpa using hs, rfl, rfl, rfl, ho⟩
  · rw [if_pos rfl, Sparse.find?_put_same]
    exact ⟨_, rfl, by simp, rfl, rfl, rfl⟩

/-- An issuing split's thread and record once its run is open. -/
theorem issuer_inv {s : State} {e : Env} (h : issuer s = some e) :
    ∃ sp, s.turn = some (e.tid, e.sid) ∧ opened s = openRun e.tid e.sid s ∧
      Sparse.find? (opened s).threads e.tid = some e.th ∧ Sparse.find? e.th.splits e.sid = some sp ∧ e.sp = sp.anew ∧
      e.regs = sp.run.image ∧ e.cid = cidOf (opened s) e.th.launch := by
  unfold issuer at h
  split at h
  · next x hx =>
    obtain ⟨sp, h1, h2, h3, h4, h5, h6, h7⟩ := envOf_inv h
    obtain ⟨i, j⟩ := x
    dsimp only at *
    subst h6 h7
    exact ⟨sp, hx, by simp [opened, hx], h1, h2, h3, h4, h5⟩
  · cases h

/-- The environment after the close, and that there is one. -/
theorem afterClose_eq {s : State} {e : Env} (h : issuer s = some e) :
    ∃ sp, Sparse.find? (opened s).threads e.tid = some e.th ∧ Sparse.find? e.th.splits e.sid = some sp ∧
      Sparse.find? (closed s e).threads e.tid = some (e.th.closeRun e.sid sp) ∧
      (∃ q, getSplit (closed s e) e.tid e.sid = some q ∧
        e.afterClose s = { e with th := e.th.closeRun e.sid sp, sp := q.anew, regs := (e.th.closeRun e.sid sp).regs } ∧
        q.spec.isSome = e.sp.spec.isSome ∧ q.pc = e.sp.pc) := by
  obtain ⟨sp, -, -, ht, hs, he, -, -⟩ := issuer_inv h
  have hf := closeRun_find ht hs
  obtain ⟨q, hq, h1, h2, h3, -⟩ := Thread.closeRun_split hs
  have hg := getSplit_some hf hq
  refine ⟨sp, ht, hs, hf, q, hg, ?_, ?_, ?_⟩
  · show (match Sparse.find? (closeRun e.tid e.sid (opened s)).threads e.tid,
        getSplit (closeRun e.tid e.sid (opened s)) e.tid e.sid with
      | some t, some sp => { e with th := t, sp := sp.anew, regs := t.regs }
      | _, _ => e) = _
    rw [hf, hg]
  · rw [h1, he]; unfold Split.anew; split <;> rfl
  · rw [h3, he]; unfold Split.anew; split <;> rfl

theorem closeFirst_ok {s : State} {e : Env} (h : issuer s = some e) :
    closeFirst e (opened s) = .ok (e.afterClose s) (closed s e) := by
  obtain ⟨sp, ht, hs, hf, q, hg, hq, -⟩ := afterClose_eq h
  rw [hq]
  unfold closeFirst
  simp only [act, bind, EStateM.bind, get, getThe, MonadStateOf.get, EStateM.get]
  show (match Sparse.find? (closed s e).threads e.tid, getSplit (closed s e) e.tid e.sid with
      | some t, some sp => (pure { e with th := t, sp := sp.anew, regs := t.regs } : M Env)
      | _, _ => throw Stop.gone) (closed s e) = _
  rw [hf, hg]; rfl

/-- What follows the close of the run. -/
theorem closeFirst_bind {α : Type} {s : State} {e : Env} (h : issuer s = some e) (k : Env → M α) :
    (closeFirst e >>= k) (opened s) = k (e.afterClose s) (closed s e) := by
  simp only [bind, EStateM.bind, closeFirst_ok h]

/-- A close leaves everything of the thread but its registers and the run, the trap registers and the checkpoint of
the split. -/
theorem afterClose_keeps {s : State} {e : Env} (h : issuer s = some e) :
    ∃ rg tr ru sc sl, e.afterClose s = { e with
      th := { e.th with regs := rg, splits := sl }, sp := { e.sp with trapRegs := tr, run := ru, spec := sc }, regs := rg } ∧
      sc.isSome = e.sp.spec.isSome := by
  obtain ⟨sp, h1, h2, h3, q, h4, hq, h6, h7⟩ := afterClose_eq h
  obtain ⟨sp', -, -, h1', h2', he, -⟩ := issuer_inv h
  rw [h2] at h2'; cases h2'
  rw [hq, he]
  unfold Thread.closeRun at h3 ⊢
  cases ho : sp.run.isOpen
  · simp only [ho, Bool.false_eq_true, if_false] at h3 ⊢
    have := getSplit_some h3 h2
    rw [h4] at this; cases this
    exact ⟨_, _, _, _, _, rfl, rfl⟩
  · simp only [ho, if_true] at h3 ⊢
    have := getSplit_some h3 (Sparse.find?_put_same _ _ _)
    rw [h4] at this; cases this
    refine ⟨(sp.run.pend.foldl Regs.apply e.th.regs).applyFlags sp.run.flagClr sp.run.flagSet,
      sp.run.pend.foldl TrapRegs.apply sp.trapRegs, sp.run.shut, sp.spec.map (fun x => x.note sp.run.pend),
      Sparse.put e.th.splits e.sid { sp with
        trapRegs := sp.run.pend.foldl TrapRegs.apply sp.trapRegs,
        spec := sp.spec.map (fun x => x.note sp.run.pend), run := sp.run.shut }, ?_, ?_⟩
    · unfold Split.anew; split <;> rfl
    · unfold Split.anew; split <;> simp

section
variable {s : State} {e : Env} (h : issuer s = some e)
include h
theorem afterClose_tid : (e.afterClose s).tid = e.tid := by obtain ⟨_, _, _, _, _, h, -⟩ := afterClose_keeps h; rw [h]
theorem afterClose_sid : (e.afterClose s).sid = e.sid := by obtain ⟨_, _, _, _, _, h, -⟩ := afterClose_keeps h; rw [h]
theorem afterClose_cid : (e.afterClose s).cid = e.cid := by obtain ⟨_, _, _, _, _, h, -⟩ := afterClose_keeps h; rw [h]
theorem afterClose_kind : (e.afterClose s).th.kind = e.th.kind := by
  obtain ⟨_, _, _, _, _, h, -⟩ := afterClose_keeps h; rw [h]
theorem afterClose_core : (e.afterClose s).th.core = e.th.core := by
  obtain ⟨_, _, _, _, _, h, -⟩ := afterClose_keeps h; rw [h]
theorem afterClose_vregs : (e.afterClose s).th.vregs = e.th.vregs := by
  obtain ⟨_, _, _, _, _, h, -⟩ := afterClose_keeps h; rw [h]
theorem afterClose_launch : (e.afterClose s).th.launch = e.th.launch := by
  obtain ⟨_, _, _, _, _, h, -⟩ := afterClose_keeps h; rw [h]
theorem afterClose_handler : (e.afterClose s).th.handler = e.th.handler := by
  obtain ⟨_, _, _, _, _, h, -⟩ := afterClose_keeps h; rw [h]
theorem afterClose_pc : (e.afterClose s).sp.pc = e.sp.pc := by
  obtain ⟨_, _, _, _, _, h, -⟩ := afterClose_keeps h; rw [h]
theorem afterClose_handed : (e.afterClose s).sp.handed = e.sp.handed := by
  obtain ⟨_, _, _, _, _, h, -⟩ := afterClose_keeps h; rw [h]
theorem afterClose_active : (e.afterClose s).active = e.active := by
  obtain ⟨_, _, _, _, _, h, -⟩ := afterClose_keeps h; rw [h]; rfl

theorem afterClose_members :
    lanesOf (e.afterClose s).width (e.afterClose s).sp.member = lanesOf e.width e.sp.member := by
  obtain ⟨_, _, _, _, _, h, -⟩ := afterClose_keeps h; rw [h]; rfl

/-- Operands that pass before the close pass after it. -/
theorem afterClose_ops {who : List Kind} {ops : List Opnd} (ho : OpsOk e who ops) : OpsOk (e.afterClose s) who ops := by
  unfold OpsOk at ho ⊢
  rwa [afterClose_kind h, afterClose_vregs h]

/-- The environment after the close is the one that the split then has. -/
theorem afterClose_split : ∃ q, getSplit (closed s e) e.tid e.sid = some q ∧ (e.afterClose s).sp = q.anew ∧
    Sparse.find? (closed s e).threads e.tid = some (e.afterClose s).th := by
  obtain ⟨sp, h1, h2, h3, q, h4, hq, -⟩ := afterClose_eq h
  exact ⟨q, h4, by rw [hq], by rw [hq]; exact h3⟩

end

end Sys2Proof.Machine
end

