-- ==== Sys2Proof/Laws/Issue.lean ====
section
/-! SUPPORT. How an instruction word that issues comes to its end: the frame `issue`, the checks of R45, the guard
and the emission of results, each said once. -/

namespace Sys2Proof.Machine

theorem opened_turn {s : State} {tid sid : Nat} (h : s.turn = some (tid, sid)) : opened s = openRun tid sid s := by
  simp [opened, h]

/-! ## The computations of meanings, step by step -/

section
variable {α β : Type} (s : State)
theorem pure_run (x : α) : (pure x : M α) s = .ok x s := Eq.trans rfl rfl
theorem throw_run (x : Stop) : (throw x : M α) s = .error x s := Eq.trans rfl rfl
theorem get_bind (k : State → M β) : ((get : M State) >>= k) s = k s s := Eq.trans rfl rfl
theorem set_bind (t : State) (k : PUnit → M β) : ((set t : M PUnit) >>= k) s = k ⟨⟩ t := Eq.trans rfl rfl
theorem act_bind (f : State → State) (k : Unit → M β) : (act f >>= k) s = k () (f s) := Eq.trans rfl rfl
theorem act_run (f : State → State) : act f s = .ok () (f s) := Eq.trans rfl rfl
theorem ask_bind (f : State → α × State) (k : α → M β) : (ask f >>= k) s = k (f s).1 (f s).2 := Eq.trans rfl rfl
theorem emit_bind (e : Env) (ws : List RegWrite) (fl : Word) (k : Unit → M β) :
    (emit e ws fl >>= k) s = k () (emitTo e.tid e.sid ws fl s) := Eq.trans rfl rfl
/-- What follows a computation that ends with a value. -/
theorem bind_ok {x : M α} {a : α} {s t : State} (h : x s = .ok a t) (k : α → M β) : (x >>= k) s = k a t := by
  simp only [bind, EStateM.bind, h]
theorem throw_bind (x : Stop) (k : α → M β) : ((throw x : M α) >>= k) s = .error x s := Eq.trans rfl rfl
end

/-! ## The frame of a word -/

/-- An issuing split stands in its environment. -/
theorem issues_turn {s : State} {e : Env} (h : issuer s = some e) :
    ∃ tid sid, s.turn = some (tid, sid) ∧ envOf (openRun tid sid s) tid sid = some e := by
  unfold issuer at h
  split at h
  · next x hx => exact ⟨x.1, x.2, hx, by rw [← opened_turn hx]; exact h⟩
  · cases h

/-- The environment names the split whose turn it is. -/
theorem envOf_names {s : State} {tid sid : Nat} {e : Env} (h : envOf s tid sid = some e) : e.tid = tid ∧ e.sid = sid := by
  unfold envOf at h
  split at h
  · cases h; exact ⟨rfl, rfl⟩
  · cases h

/-- A word that starts proceeds, and so does one that goes on with an item other than a trap. -/
theorem Issues.proceeds {s : State} {e : Env} (h : Issues s e) : Proceeds s e := ⟨h.1, by simp [h.2.1], h.2.2⟩

theorem Resumes.proceeds {s : State} {e : Env} {x : Item} (h : Resumes s e x) (hx : ∀ y, x ≠ .trap y) : Proceeds s e :=
  ⟨h.1, by rw [h.2.1]; simpa using hx, h.2.2⟩

/-- A word that proceeds comes to what its body leaves. -/
theorem issue_run {s : State} {e : Env} {m : BitVec 1} {i : Instr} {body : Env → M Flow} (h : Proceeds s e) :
    issue m i body s = .next (settleBody e.tid e.sid m i (body e (opened s))) := by
  obtain ⟨h, hh, hs⟩ := h
  obtain ⟨tid, sid, ht, he⟩ := issues_turn h
  obtain ⟨rfl, rfl⟩ := envOf_names he
  rw [opened_turn ht]
  unfold issue
  simp only [ht, he, Env.stalled, hs]
  cases hc : e.sp.handed with
  | none => rfl
  | some y =>
    cases y
    case trap x => exact absurd hc (hh x)
    all_goals rfl

/-- A body that ends with a flow: the split moves on. -/
theorem run_ok {s t : State} {e : Env} {m : BitVec 1} {i : Instr} {body : Env → M Flow} {f : Flow}
    (h : Proceeds s e) (hb : body e (opened s) = .ok f t) : issue m i body s = .next (e.done m i f t) := by
  rw [issue_run h, hb]; rfl

/-- A body that stops: the stop takes effect. -/
theorem run_stop {s t : State} {e : Env} {m : BitVec 1} {i : Instr} {body : Env → M Flow} {x : Stop}
    (h : Proceeds s e) (hb : body e (opened s) = .error x t) : issue m i body s = .next (finishStop e.tid e.sid i x t) := by
  rw [issue_run h, hb]; rfl

theorem issue_ok {s t : State} {e : Env} {m : BitVec 1} {i : Instr} {body : Env → M Flow} {f : Flow}
    (h : Issues s e) (hb : body e (opened s) = .ok f t) : issue m i body s = .next (e.done m i f t) :=
  run_ok h.proceeds hb

theorem issue_stop {s t : State} {e : Env} {m : BitVec 1} {i : Instr} {body : Env → M Flow} {x : Stop}
    (h : Issues s e) (hb : body e (opened s) = .error x t) : issue m i body s = .next (finishStop e.tid e.sid i x t) :=
  run_stop h.proceeds hb

/-- A trap of a word that proceeds, when its run is open or has been closed by the word itself. -/
theorem finish_trap_opened {s : State} {e : Env} {i : Instr} {x : TrapInfo} (h : Proceeds s e) :
    finishStop e.tid e.sid i (.trap x) (opened s) = raiseTrap e.tid e.sid x (opened s) := by
  obtain ⟨sp, -, -, ht, hs, he, -⟩ := issuer_inv h.1
  have hn : sp.spec = none := by have := h.2.2; rw [he] at this; unfold Split.anew at this; split at this <;> exact this
  unfold finishStop
  rw [getSplit_some ht hs]
  simp [hn]

theorem finish_trap_closed {s : State} {e : Env} {i : Instr} {x : TrapInfo} (h : Proceeds s e) :
    finishStop e.tid e.sid i (.trap x) (closed s e) = raiseTrap e.tid e.sid x (closed s e) := by
  obtain ⟨sp, ht, hs, hf, q, hg, hq, hn, -⟩ := afterClose_eq h.1
  have hn : q.spec.isSome = false := by rw [hn, h.2.2]; rfl
  unfold finishStop
  rw [hg]
  simp [hn]

/-- Operands that pass every check. -/
theorem checkOps_ok {e : Env} {who : List Kind} {g : Bool} {ops : List Opnd} (h : OpsOk e who ops) :
    checkOps e who g ops false = pure () := by
  obtain ⟨hk, ho⟩ := h
  have h4 : ops.any (Opnd.bad4 e.th.kind) = false := List.any_eq_false.mpr (fun o m => by simp [(ho o m).1])
  have h5 : ops.any Opnd.bad5 = false := List.any_eq_false.mpr (fun o m => by simp [(ho o m).2.1])
  have h6 : ops.any (Opnd.bad6 e.th.vregs) = false := List.any_eq_false.mpr (fun o m => by simp [(ho o m).2.2.1])
  have h8 : ops.any Opnd.bad8 = false := List.any_eq_false.mpr (fun o m => by simp [(ho o m).2.2.2])
  simp [checkOps, hk, h4, h5, h6, h8]

/-- The guard lets the instruction act. -/
theorem whenLanes_takes {e : Env} {d : BitVec 8} {k : M Flow} (h : e.takes d) : whenLanes e (isVec d) k = k := by
  unfold whenLanes
  cases hv : isVec d
  · simp
  · simp [h hv]

/-- Results are handed over, and the word goes on. -/
theorem emitLanes_ok (e : Env) (d : BitVec 8) (n : Nat) (f : Nat → Nat × Word) (s : State) :
    emitLanes e d n f s =
      .ok Flow.next (emitTo e.tid e.sid (laneResults (e.destLanes d) d n f).1 (laneResults (e.destLanes d) d n f).2 s) := rfl

/-- A typed instruction whose operands pass. -/
theorem typed_ok {e : Env} {d : BitVec 8} {srcs : List Opnd} {ok : ElemType → Bool} {f : ElemType → Nat → Nat × Word}
    {ty : ElemType} (s : State) (ht : elemType e.type = some ty) (hok : ok ty = true)
    (ho : OpsOk e anyKind (⟨d, .any, ty.regs⟩ :: srcs)) (hl : e.takes d) :
    typed e d srcs ok f s = .ok Flow.next (emitTo e.tid e.sid (laneResults (e.destLanes d) d ty.regs (f ty)).1
      (laneResults (e.destLanes d) d ty.regs (f ty)).2 s) := by
  have hr : e.typeRegs = ty.regs := by simp [Env.typeRegs, ht]
  have hb : e.typeBad ok = false := by simp [Env.typeBad, ht, hok]
  unfold typed
  rw [whenLanes_takes hl, hr, hb, checkOps_ok ho]
  simp [ht, emitLanes_ok]

/-- A crew, and every issuer, passes the checks of a word without register operands. -/
theorem ops_crew {e : Env} (h : e.th.kind = .crew) (g : Bool) : checkOps e crewOnly g [] false = pure () :=
  checkOps_ok ⟨by simp [h, crewOnly], by simp⟩

theorem ops_any (e : Env) (g : Bool) : checkOps e anyKind g [] false = pure () :=
  checkOps_ok ⟨by cases h : e.th.kind <;> simp [anyKind], by simp⟩

/-- The guard lets an instruction act where some lane takes part. -/
theorem whenLanes_some {e : Env} {k : M Flow} {g : Bool} (h : g = true → e.lanes ≠ []) : whenLanes e g k = k := by
  unfold whenLanes
  cases g
  · simp
  · simp [h rfl]

/-- A word whose guard leaves it no lane has no effect (R29, R46). -/
theorem whenLanes_none {e : Env} {k : M Flow} (h : e.lanes = []) : whenLanes e true k = pure Flow.next := by
  simp [whenLanes, h]

/-- A word that closes its run first: its body runs on what the close has left. -/
theorem closing_ok {s : State} {e : Env} {who : List Kind} {g : Bool} {ops : List Opnd} {k : Env → M Flow}
    (h : issuer s = some e) (ho : OpsOk e who ops) (hl : g = true → (e.afterClose s).lanes ≠ []) :
    closing e who g ops k (opened s) = k (e.afterClose s) (closed s e) := by
  have h1 : (g && (e.afterClose s).lanes.isEmpty) = false := by
    cases g
    · rfl
    · simp [hl rfl]
  have h2 : ∀ j : M Flow, (checkOps e who g ops false >>= fun _ => j) = j := by
    intro j; rw [checkOps_ok ho, pure_bind]
  unfold closing
  simp only [h2, ite_self]
  rw [closeFirst_bind h, h1]
  simp only [Bool.false_eq_true, if_false]
  rw [checkOps_ok (afterClose_ops h ho), pure_bind]

/-- Every lane runs to its end. -/
theorem eachLane_ok {α : Type} {e : Env} {ls : List Nat} {f : Nat → L α} {s t : State} {outs : List (Nat × α)}
    {u : List (Nat × Nat)} (h : ls.foldl (runLane f) (⟨[], [], []⟩, s) = (⟨outs, [], u⟩, t)) :
    eachLane e ls f s = .ok outs t := by
  unfold eachLane
  show (match ls.foldl (runLane f) (⟨[], [], []⟩, s) with
    | (acc, s) => (do
      set s
      if acc.bad.isEmpty then pure acc.outs
      else do
        act (undoAll e acc.undo)
        raiseBad e acc.bad
        pure acc.outs : M (List (Nat × α)))) s = _
  rw [h]; rfl

/-- What follows lanes that all run to their end. -/
theorem eachLane_bind {α β : Type} {e : Env} {ls : List Nat} {f : Nat → L α} {s t : State} {outs : List (Nat × α)}
    {u : List (Nat × Nat)} (h : ls.foldl (runLane f) (⟨[], [], []⟩, s) = (⟨outs, [], u⟩, t))
    (k : List (Nat × α) → M β) : (eachLane e ls f >>= k) s = k outs t := by
  simp only [bind, EStateM.bind, eachLane_ok h]

end Sys2Proof.Machine
end

