-- ==== Sys2Proof/Laws/Parts.lean ====
section
/-! SUPPORT. The parts of an access that all answer, and the address checks that all pass. -/

namespace Sys2Proof.Machine

/-! ## Masks of lanes -/

theorem mask_le (ls : List Nat) (m : DWord) : m &&& (ls.foldl (fun m l => m ||| (1#64 <<< l)) m) = m := by
  induction ls generalizing m with
  | nil => simp
  | cons l ls ih =>
    have h1 := ih (m ||| (1#64 <<< l))
    have h2 : m &&& (m ||| 1#64 <<< l) = m := by
      ext i hi; simp; intro h; simp [h]
    rw [List.foldl_cons]
    generalize (ls.foldl (fun m l => m ||| 1#64 <<< l) (m ||| 1#64 <<< l)) = z at *
    rw [← h2, BitVec.and_assoc, h1, h2]

theorem mask_mem {k : Nat} {ls : List Nat} (h : k ∈ ls) (m : DWord) :
    (1#64 <<< k) &&& (ls.foldl (fun m l => m ||| (1#64 <<< l)) m) = 1#64 <<< k := by
  induction ls generalizing m with
  | nil => simp at h
  | cons l ls ih =>
    rcases List.mem_cons.mp h with rfl | h
    · rw [List.foldl_cons]
      have h1 := mask_le ls (m ||| 1#64 <<< k)
      have h2 : (1#64 <<< k) &&& (m ||| 1#64 <<< k) = 1#64 <<< k := by
        ext i hi; simp; intro a b; simp [a, b]
      generalize (ls.foldl (fun m l => m ||| 1#64 <<< l) (m ||| 1#64 <<< k)) = z at *
      rw [← h2, BitVec.and_assoc, h1, h2]
    · exact ih h _

theorem mask_sub {ks ls : List Nat} (h : ∀ k ∈ ks, k ∈ ls) : maskOf ks &&& maskOf ls = maskOf ks := by
  unfold maskOf
  have : ∀ (m : DWord), m &&& ls.foldl (fun m l => m ||| (1#64 <<< l)) 0 = m →
      ks.foldl (fun m l => m ||| (1#64 <<< l)) m &&& ls.foldl (fun m l => m ||| (1#64 <<< l)) 0 = ks.foldl (fun m l => m ||| (1#64 <<< l)) m := by
    induction ks with
    | nil => intro m hm; exact hm
    | cons k ks ih =>
      intro m hm
      rw [List.foldl_cons]
      refine ih (fun x hx => h x (List.mem_cons_of_mem _ hx)) _ ?_
      have h2 := mask_mem (h k List.mem_cons_self) 0
      generalize ls.foldl (fun m l => m ||| (1#64 <<< l)) 0 = z at *
      have h3 (x y z : DWord) (hx : x &&& z = x) (hy : y &&& z = y) : (x ||| y) &&& z = x ||| y := by
        have : (x ||| y) &&& z = (x &&& z) ||| (y &&& z) := by
          ext i hi; simp only [BitVec.getElem_and, BitVec.getElem_or, Bool.and_or_distrib_right]
        rw [this, hx, hy]
      exact h3 _ _ _ hm h2
  exact this 0 (by simp)



/-- Lanes that a mask names are below 64, so a part that serves one has not been performed by nothing. -/
theorem lanesOf_lt {w : Nat} {mask : DWord} {l : Nat} (h : l ∈ lanesOf w mask) : l < 64 := by
  have h1 := (List.mem_filter.mp h).2
  by_contra hc
  rw [BitVec.getLsbD_of_ge _ _ (by omega)] at h1
  cases h1

theorem not_did_none {p : Part} {l : Nat} (h : l ∈ p.lanes) (hl : l < 64) : Progress.none.did p = false := by
  cases hd : Progress.none.did p with
  | false => rfl
  | true =>
    have h1 : maskOf p.lanes = 0 := by
      have := (Bool.and_eq_true _ _ ▸ hd : _ ∧ _).1
      simpa [Progress.none] using (of_decide_eq_true this).symm
    have h2 := mask_mem h 0
    rw [show p.lanes.foldl (fun m l => m ||| (1#64 <<< l)) 0 = 0 from h1] at h2
    have h3 := congrArg (fun z : DWord => z.getLsbD l) h2
    simp [hl] at h3

/-! ## Parts -/

/-- Every part that remains answers: the results and flags so far, kept in the split's progress. -/
theorem runParts_ok {e : Env} {acc : Acc} {ps : List Part} {go : Part → State → PartResult × State} {s t : State}
    {prog : Progress}
    (h : (ps.filter (fun p => !e.sp.progress.did p)).foldl (stepPart go) (⟨e.sp.progress, []⟩, s) = (⟨prog, []⟩, t)) :
    runParts e acc ps go s = .ok (prog.results, prog.flags)
      (modSplit e.tid e.sid (fun sp => { sp with progress := prog }) t) := by
  unfold runParts
  rw [get_bind, h]
  dsimp only
  rw [set_bind]
  rfl

theorem runParts_bind {β : Type} {e : Env} {acc : Acc} {ps : List Part} {go : Part → State → PartResult × State}
    {s t : State} {prog : Progress}
    (h : (ps.filter (fun p => !e.sp.progress.did p)).foldl (stepPart go) (⟨e.sp.progress, []⟩, s) = (⟨prog, []⟩, t))
    (k : List RegWrite × Word → M β) :
    (runParts e acc ps go >>= k) s = k (prog.results, prog.flags)
      (modSplit e.tid e.sid (fun sp => { sp with progress := prog }) t) := by
  simp only [bind, EStateM.bind, runParts_ok h]



theorem checkAddrs_ok {e : Env} {ps : List Part} {size : Nat} (h : ps.all (goodAddr size) = true) :
    checkAddrs e ps size = pure () := by
  have hg (p : Part) (hp : p ∈ ps) : canonicalVa p.va = true ∧ p.va % size = 0 := by
    have := List.all_eq_true.mp h p hp
    simpa [goodAddr] using this
  have h1 : ps.filter (fun p => !canonicalVa p.va || decide (p.va % size ≠ 0)) = [] := by
    rw [List.filter_eq_nil_iff]; intro p hp; simp [(hg p hp).1, (hg p hp).2]
  have h2 : ps.filter (fun p => !canonicalVa p.va) = [] := by
    rw [List.filter_eq_nil_iff]; intro p hp; simp [(hg p hp).1]
  unfold checkAddrs
  simp only [h1, h2, List.isEmpty_nil, Bool.not_true, Bool.false_eq_true, if_false]

end Sys2Proof.Machine
end

