-- ==== Sys2Proof/Laws/Closes.lean ====
section
/-! SUPPORT. A word in the middle of a run, the close of a run register by register, and what of memory and of other threads they
leave. -/

namespace Sys2Proof.Laws
open Sys2Proof.Machine Sys2Proof.Claims

theorem anew_fields (sp : Split) : sp.anew.pc = sp.pc ∧ sp.anew.loop = sp.loop ∧ sp.anew.run = sp.run ∧ sp.anew.spec = sp.spec ∧
    sp.anew.trapRegs = sp.trapRegs ∧ sp.anew.member = sp.member ∧ sp.anew.exited = sp.exited ∧ sp.anew.saved = sp.saved := by
  unfold Split.anew; split <;> exact ⟨rfl, rfl, rfl, rfl, rfl, rfl, rfl, rfl⟩

theorem advance_pc {sp q : Split} (hp : sp.pc = q.pc) (hl : sp.loop = q.loop) (f : Flow) :
    (sp.advance f).pc = (q.advance f).pc ∧ (sp.advance f).loop = (q.advance f).loop := by
  unfold Split.advance; split
  · exact ⟨rfl, by rw [hl]⟩
  · rw [hp, hl]; exact ⟨rfl, rfl⟩

/-- The split of a word that has been executed in the middle of a run. -/
theorem done_mid {u : State} {e : Env} {i : Instr} {f : Flow} {t : Thread} {sp : Split}
    (ht : Sparse.find? u.threads e.tid = some t) (hs : Sparse.find? t.splits e.sid = some sp)
    (hc : sp.run.count + 1 < 64) (hf : f.close = false) :
    e.done 0#1 i f u = modSplit e.tid e.sid (fun sp =>
      Split.advance { sp with run := { sp.run with count := sp.run.count + 1 }, wait := none, handed := none,
                              parked := none, progress := Progress.none } f) u := by
  unfold Env.done complete
  rw [getSplit_some ht hs]
  have : endsRun 0#1 f (sp.run.count + 1) = false := by
    unfold endsRun; simp [hf, show ¬ Config.runLimit ≤ sp.run.count + 1 from by show ¬ 64 ≤ _; omega]
  simp [this]

theorem modSplit_find {u : State} {tid sid : Nat} {t : Thread} {sp : Split} (g : Split → Split)
    (ht : Sparse.find? u.threads tid = some t) (hs : Sparse.find? t.splits sid = some sp) :
    Sparse.find? (modSplit tid sid g u).threads tid = some { t with splits := Sparse.put t.splits sid (g sp) } := by
  unfold modSplit modThread; simp only; rw [alter_same ht]; simp [Sparse.alter, hs]

theorem mid_next {s : State} {e : Env} {i : Instr} {f : Flow} (h : Issues s e) (hc : e.sp.run.count + 1 < 64) (hf : f.close = false) :
    ∃ sp, splitOf (e.done 0#1 i f (opened s)) e = some sp ∧ sp.pc = (e.sp.advance f).pc ∧ sp.loop = (e.sp.advance f).loop := by
  obtain ⟨sp, -, -, ht, hs, he, -, -⟩ := issuer_inv h.1
  obtain ⟨h1, h2, h3, -⟩ := anew_fields sp
  rw [he, h3] at hc
  have := done_mid (i := i) ht hs hc hf
  rw [this]
  have h4 := modSplit_find (fun sp =>
      Split.advance { sp with run := { sp.run with count := sp.run.count + 1 }, wait := none, handed := none,
                              parked := none, progress := Progress.none } f) ht hs
  refine ⟨_, getSplit_some h4 (Sparse.find?_put_same _ _ _), ?_⟩
  dsimp only
  rw [he]
  refine advance_pc ?_ ?_ f
  · exact h1.symm
  · exact h2.symm

theorem next_inj {α β γ : Type} {a b : α} (h : (Host.Outcome.next a : Host.Outcome α β γ) = .next b) : a = b := by cases h; rfl

theorem levels_last (ls : List Level) : ls = [] ∨ ∃ o v, ls = o ++ [v] := by
  rcases List.eq_nil_or_concat ls with h | ⟨o, v, h⟩
  · exact .inl h
  · exact .inr ⟨o, v, by simpa using h⟩

theorem apply_ok {r : Regs} (h : RegsOk r) (w : RegWrite) : RegsOk (r.apply w) := by
  obtain ⟨h1, h2, h3⟩ := h
  cases w with
  | vec l n x => exact ⟨Sparse.wf_set _ _ h1, h2, h3⟩
  | scal n x => unfold Regs.apply; dsimp only; split
                · exact ⟨h1, h2, h3⟩
                · exact ⟨h1, Sparse.wf_set _ _ h2, h3⟩
  | pred l n x => unfold Regs.apply; dsimp only; split
                  · exact ⟨h1, h2, h3⟩
                  · exact ⟨h1, h2, Sparse.wf_set _ _ h3⟩
  | cmode m x => exact ⟨h1, h2, h3⟩
  | mmode m x => exact ⟨h1, h2, h3⟩
  | special l sr x =>
    unfold Regs.apply Regs.setSpecial; dsimp only
    split <;> exact ⟨h1, h2, h3⟩

theorem fold_ok {r : Regs} (ws : List RegWrite) (h : RegsOk r) : RegsOk (ws.foldl Regs.apply r) := by
  induction ws generalizing r with
  | nil => exact h
  | cons w ws ih => exact ih (apply_ok h w)

theorem special_files (r : Regs) (l sr : Nat) (x : DWord) :
    (r.setSpecial l sr x).v = r.v ∧ (r.setSpecial l sr x).s = r.s ∧ (r.setSpecial l sr x).p = r.p ∧
    (r.setSpecial l sr x).flags = r.flags := by
  unfold Regs.setSpecial
  split <;> exact ⟨rfl, rfl, rfl, rfl⟩

theorem apply_scal_keep {r : Regs} (h : RegsOk r) {n : Nat} {w : RegWrite} (hw : ∀ x, w ≠ .scal n x) :
    (r.apply w).scal n = r.scal n := by
  cases w with
  | scal k x =>
    have hk : n ≠ k := fun hh => hw x (by rw [hh])
    unfold Regs.apply Regs.scal
    by_cases h0 : k = 0
    · simp [h0]
    · simp only [h0, if_false]
      split
      · rfl
      · exact Sparse.get_set_other _ h.2.1 hk
  | special l sr x => unfold Regs.scal Regs.apply; dsimp only; rw [(special_files r l sr x).2.1]
  | pred l k x => unfold Regs.scal Regs.apply; dsimp only; by_cases hk : k = 0 <;> simp [hk]
  | _ => rfl

theorem apply_vec_keep {r : Regs} (h : RegsOk r) {l n : Nat} {w : RegWrite}
    (hw : ∀ k j x, 256 * k + j = 256 * l + n → w ≠ .vec k j x) : (r.apply w).vec l n = r.vec l n := by
  cases w with
  | vec k j x =>
    have hk : 256 * l + n ≠ 256 * k + j := fun hh => hw k j x hh.symm rfl
    exact Sparse.get_set_other _ h.1 hk
  | special l' sr x => unfold Regs.vec Regs.apply; dsimp only; rw [(special_files r l' sr x).1]
  | pred l k x => unfold Regs.vec Regs.apply; dsimp only; split <;> rfl
  | scal k x => unfold Regs.vec Regs.apply; dsimp only; split <;> rfl
  | _ => rfl

theorem apply_pred_keep {r : Regs} (h : RegsOk r) {l n : Nat} {w : RegWrite}
    (hw : ∀ k j x, 256 * k + j = 256 * l + n → w ≠ .pred k j x) : (r.apply w).pred l n = r.pred l n := by
  cases w with
  | pred k j x =>
    have hk : 256 * l + n ≠ 256 * k + j := fun hh => hw k j x hh.symm rfl
    unfold Regs.pred Regs.apply
    dsimp only
    by_cases h0 : j = 0
    · simp [h0]
    · simp only [h0, if_false]
      split
      · rfl
      · exact Sparse.get_set_other _ h.2.2 hk
  | special l' sr x => unfold Regs.pred Regs.apply; dsimp only; rw [(special_files r l' sr x).2.2.1]
  | scal k x => unfold Regs.pred Regs.apply; dsimp only; by_cases hk : k = 0 <;> simp [hk]
  | _ => rfl

theorem fold_scal_keep {r : Regs} (h : RegsOk r) {n : Nat} {ws : List RegWrite} (hw : untouchedS n ws) :
    (ws.foldl Regs.apply r).scal n = r.scal n := by
  induction ws generalizing r with
  | nil => rfl
  | cons w ws ih =>
    rw [List.foldl_cons, ih (apply_ok h w) (fun x hx => hw x (List.mem_cons_of_mem _ hx)),
      apply_scal_keep h (fun x hx => hw x (by rw [hx]; exact List.mem_cons_self))]

theorem fold_vec_keep {r : Regs} (h : RegsOk r) {l n : Nat} {ws : List RegWrite} (hw : untouchedV l n ws) :
    (ws.foldl Regs.apply r).vec l n = r.vec l n := by
  induction ws generalizing r with
  | nil => rfl
  | cons w ws ih =>
    rw [List.foldl_cons, ih (apply_ok h w) (fun k j x hk hx => hw k j x hk (List.mem_cons_of_mem _ hx)),
      apply_vec_keep h (fun k j x hk hx => hw k j x hk (by rw [hx]; exact List.mem_cons_self))]

theorem fold_pred_keep {r : Regs} (h : RegsOk r) {l n : Nat} {ws : List RegWrite} (hw : untouchedP l n ws) :
    (ws.foldl Regs.apply r).pred l n = r.pred l n := by
  induction ws generalizing r with
  | nil => rfl
  | cons w ws ih =>
    rw [List.foldl_cons, ih (apply_ok h w) (fun k j x hk hx => hw k j x hk (List.mem_cons_of_mem _ hx)),
      apply_pred_keep h (fun k j x hk hx => hw k j x hk (by rw [hx]; exact List.mem_cons_self))]

theorem apply_scal_same {r : Regs} (h : RegsOk r) {n : Nat} (x : Word) (hn : n ≠ 0) : (r.apply (.scal n x)).scal n = x := by
  unfold Regs.apply Regs.scal
  simp only [hn, if_false]
  exact Sparse.get_set_same _ _ h.2.1

theorem apply_vec_same {r : Regs} (h : RegsOk r) {l n : Nat} (x : Word) : (r.apply (.vec l n x)).vec l n = x :=
  Sparse.get_set_same _ _ h.1

theorem apply_pred_same {r : Regs} (h : RegsOk r) {l n : Nat} (x : Bool) (hn : n ≠ 0) : (r.apply (.pred l n x)).pred l n = x := by
  unfold Regs.apply Regs.pred
  simp only [hn, if_false]
  exact Sparse.get_set_same _ _ h.2.2

theorem envOf_of {s : State} {tid sid : Nat} {t : Thread} {sp : Split} (ht : Sparse.find? s.threads tid = some t)
    (hs : Sparse.find? t.splits sid = some sp) :
    envOf s tid sid = some { tid := tid, sid := sid, cid := cidOf s t.launch, th := t, sp := sp.anew, regs := sp.run.image } := by
  unfold envOf; rw [ht, getSplit_some ht hs]

theorem anew_run (sp : Split) : sp.anew.run = sp.run := by unfold Split.anew; split <;> rfl

theorem getCluster_put (cl k : Nat) (c : Cluster) (s : State) :
    getCluster (putCluster cl c s) k = if k = cl then c else getCluster s k := by
  unfold getCluster putCluster
  by_cases h : k = cl
  · subst h; simp
  · simp only [h, if_false]; rw [Sparse.find?_put_other _ _ h]

theorem kept_refl (s : State) : MemoryKept s s := ⟨rfl, rfl, fun _ => rfl⟩

theorem kept_trans {s t u : State} (h : MemoryKept s t) (g : MemoryKept t u) : MemoryKept s u :=
  ⟨g.1.trans h.1, g.2.1.trans h.2.1, fun cl => (g.2.2 cl).trans (h.2.2 cl)⟩

theorem kept_foldl {α : Type} {f : State → α → State} (h : ∀ s a, MemoryKept s (f s a)) (l : List α) (s : State) :
    MemoryKept s (l.foldl f s) := by
  induction l generalizing s with
  | nil => exact kept_refl s
  | cons a l ih => exact kept_trans (h s a) (ih _)

theorem kept_modBank (cl b : Nat) (f : Bank → Bank) (s : State) : MemoryKept s (modBank cl b f s) := by
  refine ⟨rfl, rfl, fun k => ?_⟩
  unfold modBank putBank
  by_cases h : k = cl
  · subst h; show (getCluster (putCluster _ _ _) _).cache = _; rw [getCluster_put, if_pos rfl]
  · show (getCluster (putCluster _ _ _) _).cache = _; rw [getCluster_put, if_neg h]

theorem kept_startWake (cl b : Nat) (c : Bool) (s : State) : MemoryKept s (startWake cl b c s) := by
  have h (f : Bank → Bank) (s' : State) := kept_modBank cl b f s'
  unfold startWake
  split
  · rcases h (fun k => { k with
      pwr := .waking, wakes := if c then Nat.min (k.wakes + 1) 65535 else k.wakes,
      lastAt := if c then k.lastAt else (freeDelay s Config.retentionWake).2.chiptime })
      (freeDelay s Config.retentionWake).2 with ⟨h1, h2, h3⟩
    exact ⟨h1, h2, h3⟩
  · exact h _ s
  · rcases h (fun k => { k with pwr := .waking, data := [], valid := [], fifo := [] }) s with ⟨h1, h2, h3⟩
    exact ⟨h1, h2, h3⟩
  · exact kept_refl s

theorem kept_scheduleOnce (t : Nat) (e : Instr) (s : State) : MemoryKept s (scheduleOnce t e s) := by
  unfold scheduleOnce
  split
  · exact kept_refl s
  · exact ⟨rfl, rfl, fun _ => rfl⟩

theorem kept_phaseTimers (l : Nat) (s : State) : MemoryKept s (phaseTimers l s) := by
  unfold phaseTimers
  exact kept_foldl (fun s _ => kept_foldl (fun s _ => kept_scheduleOnce _ _ s) _ s) _ _

theorem kept_setPhase (l p w : Nat) (s : State) : MemoryKept s (setPhase l p w s) := by
  unfold setPhase
  refine kept_trans ?_ (kept_phaseTimers l _)
  unfold phaseWakes
  refine kept_trans (t := modLaunch l _ s) ⟨rfl, rfl, fun _ => rfl⟩ (kept_foldl (fun s kc => ?_) _ _)
  dsimp only
  exact kept_trans (kept_foldl (fun s kb => kept_startWake _ _ _ s) _ _) (kept_foldl (fun s kb => kept_startWake _ _ _ s) _ _)

theorem kept_closeRun (tid sid : Nat) (s : State) : MemoryKept s (closeRun tid sid s) := by
  unfold closeRun
  refine kept_trans (t := closePhases tid sid s) ?_ ⟨rfl, rfl, fun _ => rfl⟩
  unfold closePhases
  split
  · exact kept_foldl (fun s p => kept_setPhase _ _ _ s) _ _
  · exact kept_refl s

theorem specials_keep {r : Regs} {ws : List RegWrite} (h : noSpecials ws) :
    { ws.foldl Regs.apply r with v := r.v, p := r.p, s := r.s, flags := r.flags } = r := by
  induction ws generalizing r with
  | nil => rfl
  | cons w ws ih =>
    have := ih (r := r.apply w) (fun x hx => h x (List.mem_cons_of_mem _ hx))
    rcases h w List.mem_cons_self with ⟨l, n, x, rfl⟩ | ⟨n, x, rfl⟩ | ⟨l, n, x, rfl⟩
    · rw [List.foldl_cons]
      generalize List.foldl Regs.apply (r.apply (.vec l n x)) ws = q at this
      cases q; cases r; simp [Regs.apply] at this ⊢; simp [this]
    · rw [List.foldl_cons]
      generalize List.foldl Regs.apply (r.apply (.scal n x)) ws = q at this
      cases q; cases r; unfold Regs.apply at this; dsimp only at this
      by_cases h0 : n = 0 <;> simp [h0] at this ⊢ <;> simp [this]
    · rw [List.foldl_cons]
      generalize List.foldl Regs.apply (r.apply (.pred l n x)) ws = q at this
      cases q; cases r; unfold Regs.apply at this; dsimp only at this
      by_cases h0 : n = 0 <;> simp [h0] at this ⊢ <;> simp [this]

theorem trap_specials {t : TrapRegs} {ws : List RegWrite} (h : noSpecials ws) : ws.foldl TrapRegs.apply t = t := by
  induction ws generalizing t with
  | nil => rfl
  | cons w ws ih =>
    rw [List.foldl_cons, ih (fun x hx => h x (List.mem_cons_of_mem _ hx))]
    rcases h w List.mem_cons_self with ⟨l, n, x, rfl⟩ | ⟨n, x, rfl⟩ | ⟨l, n, x, rfl⟩ <;> rfl

theorem advance_keeps (sp : Split) (f : Flow) : (sp.advance f).run = sp.run ∧ (sp.advance f).trapRegs = sp.trapRegs ∧
    (sp.advance f).member = sp.member ∧ (sp.advance f).exited = sp.exited ∧ (sp.advance f).saved = sp.saved ∧
    (sp.advance f).spec = sp.spec := by
  unfold Split.advance; split <;> exact ⟨rfl, rfl, rfl, rfl, rfl, rfl⟩

theorem flags_fold (ws : List RegWrite) (r : Regs) : (ws.foldl Regs.apply r).flags = r.flags := by
  induction ws generalizing r with
  | nil => rfl
  | cons w ws ih =>
    rw [List.foldl_cons, ih]
    cases w with
    | special l sr x => exact (special_files r l sr x).2.2.2
    | scal n x => unfold Regs.apply; dsimp only; split <;> rfl
    | pred l n x => unfold Regs.apply; dsimp only; split <;> rfl
    | _ => rfl

theorem opened_keeps (s : State) : (opened s).mem = s.mem ∧ (opened s).l2 = s.l2 ∧ (opened s).clusters = s.clusters := by
  unfold opened; split <;> exact ⟨rfl, rfl, rfl⟩

theorem opened_others {s : State} {e : Env} (h : issuer s = some e) {k : Nat} (hk : k ≠ e.tid) :
    Sparse.find? (opened s).threads k = Sparse.find? s.threads k := by
  obtain ⟨sp, -, ho, -⟩ := issuer_inv h
  rw [ho]; unfold openRun modThread; exact alter_other hk

def pendSplit (sp : Split) (ws : List RegWrite) (fl : Word) : Split :=
  { sp with run := { sp.run with pend := sp.run.pend ++ ws, flagSet := sp.run.flagSet ||| fl } }

theorem advance_only_pc {sp q : Split} (hp : sp.pc = q.pc) (hl : sp.loop = q.loop) (f : Flow) :
    (sp.advance f).pc = (q.advance f).pc := by
  unfold Split.advance; split
  · rfl
  · rw [hp, hl]

theorem wrote_shape {s0 : State} {e : Env} {m : BitVec 1} {i : Instr} {ws : List RegWrite} {fl : Word} {f : Flow} {sp : Split}
    (ht : Sparse.find? s0.threads e.tid = some e.th) (hs : Sparse.find? e.th.splits e.sid = some sp)
    (ho : sp.run.isOpen = true) (hspec : sp.spec = none) :
    ∃ u t2 sp2, e.done m i f (emitTo e.tid e.sid ws fl s0) = (if endsRun m f (sp.run.count + 1) then closeRun e.tid e.sid u else u) ∧
      Sparse.find? u.threads e.tid = some t2 ∧ Sparse.find? t2.splits e.sid = some sp2 ∧
      (∀ k, k ≠ e.tid → Sparse.find? u.threads k = Sparse.find? s0.threads k) ∧
      (∀ k, k ≠ e.sid → Sparse.find? t2.splits k = Sparse.find? e.th.splits k) ∧
      t2.kind = e.th.kind ∧ t2.launch = e.th.launch ∧ t2.handler = e.th.handler ∧ t2.circ = e.th.circ ∧ t2.regs = e.th.regs ∧
      u.mem = s0.mem ∧ u.l2 = s0.l2 ∧ u.clusters = s0.clusters ∧
      sp2.run.isOpen = true ∧ sp2.run.pend = sp.run.pend ++ ws ∧ sp2.run.flagSet = sp.run.flagSet ||| fl ∧
      sp2.run.flagClr = sp.run.flagClr ∧ sp2.trapRegs = sp.trapRegs ∧ sp2.member = sp.member ∧ sp2.exited = sp.exited ∧
      sp2.saved = sp.saved ∧ sp2.pc = (sp.advance f).pc ∧
      sp2.run.image = sp.run.image ∧ sp2.handed = none ∧ sp2.spec = none := by
  have h1 : Sparse.find? (emitTo e.tid e.sid ws fl s0).threads e.tid = some { e.th with splits := Sparse.put e.th.splits e.sid (pendSplit sp ws fl) } := by
    unfold emitTo modThread; simp only; rw [alter_same ht]; simp [hs, ho, pendSplit]
  have h2 := modSplit_find (fun sp =>
      Split.advance { sp with run := { sp.run with count := sp.run.count + 1 }, wait := none, handed := none,
                              parked := none, progress := Progress.none } f) h1 (Sparse.find?_put_same _ _ _)
  have a := advance_keeps
  unfold Env.done complete
  rw [getSplit_some h1 (Sparse.find?_put_same _ _ _)]
  have hf : Split.specFull (pendSplit sp ws fl) = false := by
    unfold Split.specFull pendSplit; rw [hspec]
  simp only [hf, Bool.false_eq_true, if_false]
  refine ⟨_, _, _, rfl, h2, Sparse.find?_put_same _ _ _, ?_, ?_, rfl, rfl, rfl, rfl, rfl, rfl, rfl, rfl, ?_, ?_, ?_, ?_, ?_, ?_, ?_, ?_, ?_, ?_, ?_, ?_⟩
  · intro k hk
    unfold modSplit modThread; simp only
    rw [alter_other hk]
    unfold emitTo modThread; simp only
    exact alter_other hk
  · intro k hk
    dsimp only
    rw [Sparse.find?_put_other _ _ hk, Sparse.find?_put_other _ _ hk]
  all_goals dsimp only
  · rw [(a _ _).1]; exact ho
  · rw [(a _ _).1]; rfl
  · rw [(a _ _).1]; rfl
  · rw [(a _ _).1]; rfl
  · rw [(a _ _).2.1]; rfl
  · rw [(a _ _).2.2.1]; rfl
  · rw [(a _ _).2.2.2.1]; rfl
  · rw [(a _ _).2.2.2.2.1]; rfl
  · refine advance_only_pc ?_ ?_ f <;> rfl
  · rw [(a _ _).1]; rfl
  · unfold Split.advance; split <;> rfl
  · rw [(a _ _).2.2.2.2.2]; exact hspec

theorem anew_spec (sp : Split) : sp.anew.spec = sp.spec ∧ sp.anew.pc = sp.pc ∧ sp.anew.handed = (if sp.handed = some .again then none else sp.handed) := by
  unfold Split.anew; split <;> simp_all

theorem pair_last {r : Regs} (h : RegsOk r) (ws : List RegWrite) (x : DWord) :
    ((ws ++ regWrites 0 0xFE x.toNat 2).foldl Regs.apply r).pair 0 0xFE = x := by
  have hk := fold_ok ws h
  rw [List.foldl_append]
  generalize ws.foldl Regs.apply r = q at *
  have hw (y : Nat) : regWrites 0 0xFE y 2 = [.scal 62 (BitVec.ofNat 32 y), .scal 63 (BitVec.ofNat 32 (y / 2 ^ 32))] := by
    simp [regWrites, regWrite, isVec]
  have hp (r : Regs) : r.pair 0 0xFE = r.scal 63 ++ r.scal 62 := by simp [Regs.pair, Regs.field]
  rw [hw, hp, List.foldl_cons, List.foldl_cons, List.foldl_nil]
  rw [apply_scal_same (apply_ok hk _) _ (by decide), apply_scal_keep (apply_ok hk _) (by intro y hy; cases hy),
    apply_scal_same hk _ (by decide)]
  apply BitVec.eq_of_toNat_eq
  rw [BitVec.toNat_append]
  simp only [BitVec.toNat_ofNat]
  rw [Nat.shiftLeft_eq, ← Nat.mul_comm, Nat.mul_comm, Nat.mul_comm, ← Nat.two_pow_add_eq_or_of_lt (Nat.mod_lt _ (by decide))]
  have := x.isLt
  omega

theorem done_pc {u : State} {tid sid : Nat} {t : Thread} {sp : Split} (m : BitVec 1) (i : Instr) (f : Flow)
    (ht : Sparse.find? u.threads tid = some t) (hs : Sparse.find? t.splits sid = some sp) (hspec : sp.spec = none) :
    ∃ q, getSplit (complete tid sid m i f u) tid sid = some q ∧ q.pc = (sp.advance f).pc := by
  unfold complete
  rw [getSplit_some ht hs]
  have hf : sp.specFull = false := by unfold Split.specFull; rw [hspec]
  simp only [hf, Bool.false_eq_true, if_false]
  have h2 := modSplit_find (fun sp =>
      Split.advance { sp with run := { sp.run with count := sp.run.count + 1 }, wait := none, handed := none,
                              parked := none, progress := Progress.none } f) ht hs
  split
  · obtain ⟨q, hq, -, -, hqp, -⟩ := Thread.closeRun_split (t := { t with splits := Sparse.put t.splits sid _ }) (Sparse.find?_put_same _ _ _)
    refine ⟨q, getSplit_some (closeRun_find h2 (Sparse.find?_put_same _ _ _)) hq, ?_⟩
    rw [hqp]
    refine advance_only_pc ?_ ?_ f <;> rfl
  · refine ⟨_, getSplit_some h2 (Sparse.find?_put_same _ _ _), ?_⟩
    refine advance_only_pc ?_ ?_ f <;> rfl

end Sys2Proof.Laws
end

