-- ==== Sys2Proof/Laws/Events.lean ====
section
/-! SUPPORT. What the operations that events share leave as it was: units other than the one changed, and what posting an event
writes. -/

namespace Sys2Proof.Machine

@[simp] theorem getLantern_modLantern (s : State) (k : Nat) (f : Lantern → Lantern) :
    getLantern (modLantern k f s) k = f (getLantern s k) := by
  simp [getLantern, modLantern, putLantern]

@[simp] theorem getCluster_putCluster (s : State) (k : Nat) (c : Cluster) : getCluster (putCluster k c s) k = c := by
  simp [getCluster, putCluster]

@[simp] theorem getCore_putCore (s : State) (k : Nat) (c : Core) : getCore (putCore k c s) k = c := by
  simp [getCore, putCore]

@[simp] theorem getCore_modCore (s : State) (k : Nat) (f : Core → Core) : getCore (modCore k f s) k = f (getCore s k) := by
  simp [modCore]

@[simp] theorem getBank_putBank (s : State) (cl b : Nat) (k : Bank) : getBank (putBank cl b k s) cl b = k := by
  simp [getBank, putBank]

@[simp] theorem getBank_modBank (s : State) (cl b : Nat) (f : Bank → Bank) :
    getBank (modBank cl b f s) cl b = f (getBank s cl b) := by simp [modBank]

theorem scheduleOnce_eq (t : Nat) (i : Instr) (s : State) : ∃ c, scheduleOnce t i s = { s with calendar := c } := by
  unfold scheduleOnce; split
  · exact ⟨_, rfl⟩
  · exact ⟨_, rfl⟩

@[simp] theorem scheduleOnce_clusters (t : Nat) (i : Instr) (s : State) : (scheduleOnce t i s).clusters = s.clusters := by
  obtain ⟨c, h⟩ := scheduleOnce_eq t i s; rw [h]

@[simp] theorem scheduleOnce_mem (t : Nat) (i : Instr) (s : State) : (scheduleOnce t i s).mem = s.mem := by
  obtain ⟨c, h⟩ := scheduleOnce_eq t i s; rw [h]

theorem getBank_congr {s t : State} (h : s.clusters = t.clusters) (cl b : Nat) : getBank s cl b = getBank t cl b := by
  unfold getBank getCluster; rw [h]

end Sys2Proof.Machine

namespace Sys2Proof.Laws
open Sys2Proof.Machine Sys2Proof.Claims

theorem physWriteByte_keeps (s : State) (pa : Nat) (x : Byte) :
    (physWriteByte s pa x).ports = s.ports ∧ (physWriteByte s pa x).station = s.station := by
  unfold physWriteByte; split <;> exact ⟨rfl, rfl⟩

theorem physWrite_keeps (s : State) (pa : Nat) (bs : List Byte) :
    (physWrite s pa bs).ports = s.ports ∧ (physWrite s pa bs).station = s.station := by
  induction bs generalizing s pa with
  | nil => exact ⟨rfl, rfl⟩
  | cons x xs ih =>
    unfold physWrite
    rw [(ih _ _).1, (ih _ _).2, (physWriteByte_keeps _ _ _).1, (physWriteByte_keeps _ _ _).2]; exact ⟨rfl, rfl⟩

theorem flushEvents_keeps (part fuel : Nat) (s : State) :
    (flushEvents part fuel s).ports = s.ports ∧ (flushEvents part fuel s).station = s.station := by
  induction fuel generalizing s with
  | zero => exact ⟨rfl, rfl⟩
  | succ n ih =>
    unfold flushEvents
    split
    · exact ⟨rfl, rfl⟩
    next p _ =>
      split
      · exact ⟨rfl, rfl⟩
      next e es _ =>
        have hw := physWrite_keeps s (p.evbase + 64 * (p.evtail % 2 ^ p.evlog)) e.bytes
        split
        · dsimp only
          generalize physWrite s (p.evbase + 64 * (p.evtail % 2 ^ p.evlog)) e.bytes = w at hw ⊢
          rw [(ih _).1, (ih _).2]; exact hw
        · exact ⟨rfl, rfl⟩

theorem postTo_keeps (part : Nat) (e : Event) (s : State) :
    (postTo part e s).mem = (postTo part e s).mem ∧ (postTo part e s).ports = s.ports ∧ (postTo part e s).station = s.station := by
  refine ⟨rfl, ?_⟩
  unfold postTo
  split
  · exact ⟨rfl, rfl⟩
  · dsimp only
    split
    · rw [(flushEvents_keeps _ _ _).1, (flushEvents_keeps _ _ _).2]; exact ⟨rfl, rfl⟩
    · exact ⟨rfl, rfl⟩

theorem getPort_portEvent (p st q : Nat) (s : State) : getPort (portEvent p st s) q = getPort s q := by
  unfold getPort portEvent; rw [(postTo_keeps _ _ _).2.1]

theorem station_portEvent (p st : Nat) (s : State) : (portEvent p st s).station = s.station := by
  unfold portEvent; rw [(postTo_keeps _ _ _).2.2]

end Sys2Proof.Laws
end

