-- ==== Sys2Proof/Laws/Memory.lean ====
section
/-! SUPPORT. Memory: the canonical form that every memory operation keeps, and reads after writes. -/

namespace Sys2Proof.Machine

theorem Memory.wf_write {m : List Host.Cell} (a : Nat) (x : Byte) (h : Memory.wf m = true) :
    Memory.wf (Memory.write m a x) = true := Sparse.wf_set a x h

theorem Memory.wf_writeAll {m : List Host.Cell} (a : Nat) (xs : List Byte) (h : Memory.wf m = true) :
    Memory.wf (Memory.writeAll m a xs) = true := Sparse.wf_setAll a xs h

theorem Memory.read_write_same {m : List Host.Cell} (a : Nat) (x : Byte) (h : Memory.wf m = true) :
    Memory.read (Memory.write m a x) a = x := Sparse.get_set_same a x h

theorem Memory.read_write_other {m : List Host.Cell} {a b : Nat} (x : Byte) (h : Memory.wf m = true) (hb : b ≠ a) :
    Memory.read (Memory.write m a x) b = Memory.read m b := Sparse.get_set_other x h hb

theorem reset_memOk : State.reset.memOk := rfl

/-- A byte written at the L2 level by physical address leaves memory in its form. -/
theorem physWriteByte_memOk {s : State} (pa : Nat) (x : Byte) (h : s.memOk) : (physWriteByte s pa x).memOk := by
  unfold physWriteByte
  split
  · exact Memory.wf_write pa x h
  · exact h

theorem physWrite_memOk {s : State} (pa : Nat) (xs : List Byte) (h : s.memOk) : (physWrite s pa xs).memOk := by
  induction xs generalizing s pa with
  | nil => exact h
  | cons x xs ih => exact ih (pa + 1) (physWriteByte_memOk pa x h)

end Sys2Proof.Machine
end

