-- ==== Sys2Proof/Laws/Hits.lean ====
section
/-! SUPPORT. A store that hits a writable line of a cluster's cache changes the bytes it stores to, and no other. -/

namespace Sys2Proof.Laws
open Sys2Proof.Machine Sys2Proof.Claims

def sameKey (cid line : Nat) (l : CLine) : Bool := l.cid == cid && l.line == line

/-! find -/

theorem find_touch (ls : List CLine) (cid line k n : Nat) :
    List.find? (sameKey k n) (ls.filter (sameKey cid line) ++ ls.filter (fun l => !sameKey cid line l)) = List.find? (sameKey k n) ls := by
  rw [List.find?_append, List.find?_filter, List.find?_filter]
  by_cases h : k = cid ∧ n = line
  · obtain ⟨rfl, rfl⟩ := h
    have h1 : (fun a => decide (sameKey k n a = true ∧ sameKey k n a = true)) = sameKey k n := by funext a; simp
    have h2 : (fun a => decide ((!sameKey k n a) = true ∧ sameKey k n a = true)) = fun _ => false := by
      funext a; cases sameKey k n a <;> simp
    rw [h1, h2]
    have h3 : List.find? (fun _ => false) ls = none := by rw [List.find?_eq_none]; simp
    rw [h3]; cases List.find? (sameKey k n) ls <;> rfl
  · have h1 : (fun a => decide (sameKey cid line a = true ∧ sameKey k n a = true)) = fun _ => false := by
      funext a
      simp only [sameKey, Bool.and_eq_true, beq_iff_eq, decide_eq_false_iff_not]
      rintro ⟨⟨h1, h2⟩, h3, h4⟩
      exact h ⟨by omega, by omega⟩
    have h2 : (fun a => decide ((!sameKey cid line a) = true ∧ sameKey k n a = true)) = sameKey k n := by
      funext a
      have h1a := congrFun h1 a
      cases hc : sameKey cid line a <;> cases hk : sameKey k n a <;> simp [hc, hk] at h1a ⊢
    rw [h1, h2]
    have h3 : List.find? (fun _ => false) ls = none := by rw [List.find?_eq_none]; simp
    rw [h3]; cases List.find? (sameKey k n) ls <;> rfl

theorem find_map (ls : List CLine) (cid line k n : Nat) (f : CLine → CLine) (hf : ∀ l, (f l).cid = l.cid ∧ (f l).line = l.line) :
    List.find? (sameKey k n) (ls.map (fun l => if l.cid == cid && l.line == line then f l else l)) =
      (List.find? (sameKey k n) ls).map (fun l => if l.cid == cid && l.line == line then f l else l) := by
  rw [List.find?_map]
  congr 1
  congr 1
  funext l
  simp only [Function.comp, sameKey]
  split
  · rw [(hf l).1, (hf l).2]
  · rfl

theorem getCluster_modCluster (cl k : Nat) (f : Cluster → Cluster) (s : State) :
    getCluster (modCluster cl f s) k = if k = cl then f (getCluster s cl) else getCluster s k := by
  unfold modCluster; exact getCluster_put _ _ _ _

theorem clFind_touch (s : State) (cl cid line k n : Nat) : clFind (clTouch cl cid line s) cl k n = clFind s cl k n := by
  unfold clFind clTouch
  rw [getCluster_modCluster, if_pos rfl]
  exact find_touch _ _ _ _ _

theorem clFind_mod (s : State) (cl cid line k n : Nat) (f : CLine → CLine) (hf : ∀ l, (f l).cid = l.cid ∧ (f l).line = l.line) :
    clFind (clMod cl cid line f s) cl k n = (clFind s cl k n).map (fun l => if l.cid == cid && l.line == line then f l else l) := by
  unfold clFind clMod
  rw [getCluster_modCluster, if_pos rfl]
  exact find_map _ _ _ _ _ f hf

theorem markedWrite_data {data d' : Sparse Byte} {marks m' : Sparse Nat} {win : Bool} {off : Nat} {xs : List Byte} {mode : MarkMode}
    (h : markedWrite data marks win off xs mode = some (d', m')) : d' = Sparse.setAll 0 data off xs := by
  unfold markedWrite at h
  split at h
  · cases h; rfl
  · split at h
    · cases h
    · cases h; rfl

theorem setAll_other {m : Sparse Byte} {off j : Nat} {xs : List Byte} (h : Sparse.wf 0 m = true) (hj : ¬ (off ≤ j ∧ j < off + xs.length)) :
    Sparse.get 0 (Sparse.setAll 0 m off xs) j = Sparse.get 0 m j := by
  induction xs generalizing m off with
  | nil => rfl
  | cons x xs ih =>
    simp only [List.length_cons] at hj
    show Sparse.get 0 (Sparse.setAll 0 (Sparse.set 0 m off x) (off + 1) xs) j = _
    rw [ih (Sparse.wf_set _ _ h) (by omega), Sparse.get_set_other _ h (by omega)]

theorem clWrite_facts (core off : Nat) (xs : List Byte) (mode : MarkMode) (l : CLine) :
    (clWrite core off xs mode l).cid = l.cid ∧ (clWrite core off xs mode l).line = l.line ∧
    (clWrite core off xs mode l).w = l.w ∧ (clWrite core off xs mode l).shadow = l.shadow ∧
    (clWrite core off xs mode l).stale = l.stale ∧
    (Sparse.wf 0 l.data = true → Sparse.wf 0 (clWrite core off xs mode l).data = true ∧
      ∀ j, ¬ (off ≤ j ∧ j < off + xs.length) → Sparse.get 0 (clWrite core off xs mode l).data j = Sparse.get 0 l.data j) := by
  unfold clWrite
  have hp : ∀ p ∈ wordParts off xs, off ≤ p.1 ∧ p.1 + p.2.length ≤ off + xs.length := by
    intro p hp
    unfold wordParts at hp
    split at hp
    · rw [List.mem_singleton] at hp; subst hp; exact ⟨le_rfl, le_rfl⟩
    · simp only [List.mem_cons, List.not_mem_nil, or_false] at hp
      rcases hp with rfl | rfl
      · refine ⟨le_rfl, ?_⟩
        dsimp only
        rw [List.length_take]; omega
      · refine ⟨by omega, ?_⟩
        dsimp only
        rw [List.length_drop]; omega
  generalize wordParts off xs = ps at hp
  induction ps generalizing l with
  | nil => exact ⟨rfl, rfl, rfl, rfl, rfl, fun h => ⟨h, fun _ _ => rfl⟩⟩
  | cons p ps ih =>
    rw [List.foldl_cons]
    have hq := hp p List.mem_cons_self
    have ih' := fun l => ih (l := l) (fun p h => hp p (List.mem_cons_of_mem _ h))
    cases hm : markedWrite l.data l.marks l.win p.1 p.2 mode with
    | none => exact ih' l
    | some r =>
      obtain ⟨d', m'⟩ := r
      dsimp only
      obtain ⟨a, b, c, d, g, f⟩ := ih' { l with data := d', marks := m', written := setBit l.written (p.1 / 8), dirty := setBit l.dirty (coreInCluster core) }
      refine ⟨a, b, c, d, g, fun hw => ?_⟩
      have hd := markedWrite_data hm
      have hw' : Sparse.wf 0 d' = true := by rw [hd]; exact Sparse.wf_setAll _ _ hw
      refine ⟨(f hw').1, fun j hj => ?_⟩
      rw [(f hw').2 j hj, hd]
      exact setAll_other hw (by omega)

@[simp] theorem getCluster_touchPins (die cid line k : Nat) (s : State) :
    getCluster (touchPins die cid line s) k = getCluster s k := rfl

@[simp] theorem clFind_touchPins (die cid line cl k n : Nat) (s : State) :
    clFind (touchPins die cid line s) cl k n = clFind s cl k n := rfl

theorem plainWrite_hit {s : State} {core cid va hint : Nat} {xs : List Byte} {mode : MarkMode} {l : CLine}
    (hl : clFind s (clusterOf core) cid (va / 128) = some l) (hw : l.w = true) (hs : l.shadow = false)
    (ht : l.stale = false) :
    plainWrite core cid va xs mode hint s = (.ok (), clMod (clusterOf core) cid (va / 128) (clWrite core (va % 128) xs mode)
      (touchPins (dieOfCluster (clusterOf core)) cid (va / 128) (clTouch (clusterOf core) cid (va / 128) s))) := by
  unfold plainWrite atCluster clFill clRenew storeAllowed
  simp only [hl, Option.isSome_some, if_true, hw, hs, ht, Bool.not_false, Bool.false_eq_true, if_false]

structure HitInv (s v : State) (cl cid : Nat) (ps : List Part) (size : Nat) : Prop where
  mem : v.mem = s.mem
  l2 : v.l2 = s.l2
  threads : v.threads = s.threads
  others : ∀ k, k ≠ cl → getCluster v k = getCluster s k
  wf : ∀ l ∈ (getCluster v cl).cache, Sparse.wf 0 l.data = true
  buffer : (getCluster v cl).buffer = (getCluster s cl).buffer
  hits : ∀ p ∈ ps, ∃ l, clFind v cl cid (p.va / 128) = some l ∧ l.w = true ∧ l.shadow = false ∧ l.stale = false
  bytes : ∀ k va, (k ≠ cid ∨ ∀ p ∈ ps, ¬ covers size va p) → clByte v cl k va = clByte s cl k va

theorem hit_step {s v : State} {cl cid core size hint : Nat} {ps : List Part} {p : Part} {xs : List Byte} {mode : MarkMode}
    (hcl : cl = clusterOf core) (h : HitInv s v cl cid ps size) (hp : p ∈ ps) (hx : xs.length = size) (_hfit : p.va % 128 + size ≤ 128) :
    ∃ v', plainWrite core cid p.va xs mode hint v = (.ok (), v') ∧ HitInv s v' cl cid ps size := by
  obtain ⟨l, hl, hw, hs, ht⟩ := h.hits p hp
  subst hcl
  refine ⟨_, plainWrite_hit hl hw hs ht, ?_⟩
  have hk := fun l => (⟨(clWrite_facts core (p.va % 128) xs mode l).1, (clWrite_facts core (p.va % 128) xs mode l).2.1⟩ : _ ∧ _)
  have hfind (k n : Nat) : clFind (clMod (clusterOf core) cid (p.va / 128) (clWrite core (p.va % 128) xs mode)
      (touchPins (dieOfCluster (clusterOf core)) cid (p.va / 128) (clTouch (clusterOf core) cid (p.va / 128) v)))
      (clusterOf core) k n = (clFind v (clusterOf core) k n).map
        (fun l => if l.cid == cid && l.line == p.va / 128 then clWrite core (p.va % 128) xs mode l else l) := by
    rw [clFind_mod _ _ _ _ _ _ _ hk, clFind_touchPins, clFind_touch]
  refine ⟨h.mem, h.l2, h.threads, fun k hk => ?_, fun l' hl' => ?_, ?_, fun q hq => ?_, fun k va hv => ?_⟩
  · rw [← h.others k hk]
    unfold clMod clTouch
    rw [getCluster_modCluster, if_neg hk, getCluster_touchPins, getCluster_modCluster, if_neg hk]
  · unfold clMod at hl'
    rw [getCluster_modCluster, if_pos rfl] at hl'
    obtain ⟨l0, hl0, rfl⟩ := List.mem_map.mp hl'
    have hm : l0 ∈ (getCluster v (clusterOf core)).cache := by
      unfold clTouch at hl0
      rw [getCluster_touchPins, getCluster_modCluster, if_pos rfl] at hl0
      rcases List.mem_append.mp hl0 with h | h <;> exact (List.mem_filter.mp h).1
    split
    · exact ((clWrite_facts core (p.va % 128) xs mode l0).2.2.2.2.2 (h.wf _ hm)).1
    · exact h.wf _ hm
  · rw [← h.buffer]
    unfold clMod clTouch
    rw [getCluster_modCluster, if_pos rfl, getCluster_touchPins, getCluster_modCluster, if_pos rfl]
  · obtain ⟨l', hl', hw', hs', ht'⟩ := h.hits q hq
    rw [hfind, hl']
    refine ⟨_, rfl, ?_⟩
    dsimp only
    split
    · have hf := clWrite_facts core (p.va % 128) xs mode l'
      rw [hf.2.2.1, hf.2.2.2.1, hf.2.2.2.2.1]
      exact ⟨hw', hs', ht'⟩
    · exact ⟨hw', hs', ht'⟩
  · rw [← h.bytes k va hv]
    unfold clByte
    rw [hfind]
    cases hf : clFind v (clusterOf core) k (va / 128) with
    | none => rfl
    | some l' =>
      simp only [Option.map_some, Option.some.injEq]
      split
      · next hc =>
        have hprop : sameKey k (va / 128) l' = true := List.find?_some hf
        have hm : l' ∈ (getCluster v (clusterOf core)).cache := List.mem_of_find?_eq_some hf
        simp only [sameKey, Bool.and_eq_true, beq_iff_eq] at hprop hc
        refine ((clWrite_facts core (p.va % 128) xs mode l').2.2.2.2.2 (h.wf _ hm)).2 _ ?_
        rw [hx]
        rcases hv with hv | hv
        · exact absurd (hprop.1.symm.trans hc.1) hv
        · have := hv p hp
          unfold covers at this
          have h1 : va / 128 = p.va / 128 := by rw [← hprop.2, hc.2]
          omega
      · rfl

theorem leBytes_length (n x : Nat) : (leBytes n x).length = n := by
  induction n generalizing x with
  | zero => rfl
  | succ n ih => simp [leBytes, ih]

/-- A split without writes of its own in the tile-layout unit has none to perform first. -/
theorem settleOwn_none {e : Env} {va n : Nat} {s : State} (h : ownWrites e s = []) : settleOwn e va n s = s := by
  unfold settleOwn drainSome
  have hq : (getCluster s (clusterOf e.th.core)).buffer.filter
      (fun w => w.tid == e.tid && (w.sid == e.sid && w.meets va n)) = [] := by
    rw [List.filter_eq_nil_iff]
    intro w hw hc
    have := List.filter_eq_nil_iff.mp h w hw
    simp only [Bool.and_eq_true] at hc this
    exact this ⟨hc.1, hc.2.1⟩
  simp only [hq, List.isEmpty_nil, if_true]

theorem hit_parts {s : State} {e : Env} {cl size n : Nat} {d : BitVec 8} {ps : List Part} (hcl : cl = clusterOf e.th.core)
    (hfit : ∀ p ∈ ps, p.va % 128 + size ≤ 128) (hown : ownWrites e s = []) :
    ∀ (qs : List Part) (v : State) (prog : Progress), (∀ q ∈ qs, q ∈ ps) → HitInv s v cl e.cid ps size →
    ∃ prog' v', qs.foldl (stepPart (storePart e d n size (splitWrite e))) (⟨prog, []⟩, v) = (⟨prog', []⟩, v') ∧
      HitInv s v' cl e.cid ps size := by
  intro qs
  induction qs with
  | nil => intro v prog _ h; exact ⟨prog, v, rfl, h⟩
  | cons q qs ih =>
    intro v prog hq h
    obtain ⟨v', hw, hi⟩ := hit_step (hint := e.hint) (mode := .plain e.th.homenum) (xs := storeBytes e d n size q) hcl h (hq q List.mem_cons_self)
      (leBytes_length _ _) (hfit q (hq q List.mem_cons_self))
    have hs : stepPart (storePart e d n size (splitWrite e)) (⟨prog, []⟩, v) q =
        (⟨{ prog with lanes := prog.lanes ||| maskOf q.lanes, results := prog.results ++ [], flags := prog.flags ||| 0 }, []⟩, v') := by
      have hv : ownWrites e v = [] := by unfold ownWrites at hown ⊢; rw [← hcl] at hown ⊢; rw [h.buffer, hown]
      unfold stepPart storePart splitWrite
      dsimp only
      rw [settleOwn_none hv, hw]
    rw [List.foldl_cons, hs]
    exact ih v' _ (fun x hx => hq x (List.mem_cons_of_mem _ hx)) hi

theorem aligned_fit {size va : Nat} (h : va % size = 0) (hs : size ∣ 128) (_h0 : 0 < size) : va % 128 + size ≤ 128 := by
  obtain ⟨k, hk⟩ := hs
  have h1 : (va % 128) % size = 0 := by rw [Nat.mod_mod_of_dvd _ ⟨k, hk⟩, h]
  obtain ⟨j, hj⟩ := Nat.dvd_of_mod_eq_zero h1
  have h2 : va % 128 < 128 := Nat.mod_lt _ (by decide)
  rw [hj] at h2 ⊢
  have h3 : j < k := by
    by_contra hc
    have := Nat.mul_le_mul_left size (Nat.le_of_not_lt hc)
    omega
  have := Nat.mul_le_mul_left size (Nat.succ_le_of_lt h3)
  rw [Nat.mul_succ] at this
  omega

end Sys2Proof.Laws
end

