-- ==== Sys2Proof/Laws/Words.lean ====
section
/-! SUPPORT. What each shape of instruction word does once its checks pass: typed words, words that close their run, term words,
loads, stores and atomics, FIFO words, tiles, copies and the engine's words. -/

namespace Sys2Proof.Laws
open Sys2Proof.Machine Sys2Proof.Claims

theorem typed_gives {s : State} {e : Env} {ty : ElemType} {m : BitVec 1} {d : BitVec 8} {srcs : List Opnd} {i : Instr}
    {ok : ElemType → Bool} {f : ElemType → Nat → Nat × Word} {g : Nat → Nat × Word} {body : Env → M Flow}
    (h : TypedReady s e ty d srcs) (hx : exec i s = issue m i body s) (hb : body e = typed e d srcs ok f)
    (hok : ok ty = true) (hf : f ty = g) : Gives e s i m d ty.regs g := by
  obtain ⟨hi, ht, ho, hl⟩ := h
  unfold Gives
  rw [hx, issue_ok hi (by rw [hb]; exact typed_ok _ ht hok ho hl), hf]
  rfl

theorem typeRegs_of {e : Env} {ty : ElemType} (ht : elemType e.type = some ty) : e.typeRegs = ty.regs := by
  simp [Env.typeRegs, ht]

theorem whenLanes_of_lanes {e : Env} {k : M Flow} (h : e.lanes ≠ []) (g : Bool) : whenLanes e g k = k := by
  simp [whenLanes, h]

theorem zero_flags (ls : List Nat) : ls.foldl (fun (acc : Word) (_ : Nat) => acc ||| 0) 0 = 0 := by
  induction ls with | nil => rfl | cons _ _ ih => simp

theorem crew_ops {e : Env} (h : e.th.kind = .crew) (g : Bool) : checkOps e crewOnly g [] false = pure () :=
  checkOps_ok ⟨by simp [h, crewOnly], by simp⟩

theorem any_ops (e : Env) (g : Bool) : checkOps e anyKind g [] false = pure () :=
  checkOps_ok ⟨by cases h : e.th.kind <;> simp [anyKind], by simp⟩

theorem stop_trap {s : State} {e : Env} {m : BitVec 1} {i : Instr} {body : Env → M Flow} {x : TrapInfo}
    (h : Issues s e) (hb : body e (opened s) = .error (.trap x) (opened s)) :
    issue m i body s = .next (raiseTrap e.tid e.sid x (opened s)) := by
  rw [issue_stop h hb, finish_trap_opened h.proceeds]

theorem trapWith_open {α : Type} (s : State) (e : Env) (cause code : Nat) (ls : List Nat) (va : Nat) :
    (trapWith e cause code ls va : M α) (opened s) = .error (.trap (openTrap s e cause code ls va)) (opened s) := by
  rfl

theorem afterClose_crew {s : State} {e : Env} (h : issuer s = some e) (hk : e.th.kind = .crew) : (e.afterClose s).th.kind = .crew :=
  (afterClose_kind h).trans hk

/-- A crew's split takes the trap that it raises, or keeps it when splits of its crew raise in one cycle (R380). -/
theorem raise_thread {s : State} {t : Thread} {tid sid : Nat} (ht : Sparse.find? s.threads tid = some t) (hk : t.kind = .crew)
    (x : TrapInfo) :
    raiseTrap tid sid x s = if trapJoins s t tid sid then keepTrap tid sid x s else takeTrap tid sid x s := by
  unfold raiseTrap; simp [ht, hk]

theorem crew_ops_after {s : State} {e : Env} (h : issuer s = some e) (hk : e.th.kind = .crew) (g : Bool) :
    checkOps (e.afterClose s) crewOnly g [] false = pure () := crew_ops (afterClose_crew h hk) g

theorem some_lane {e : Env} (h : e.lanes ≠ []) : true = true → e.lanes ≠ [] := fun _ => h

theorem shuffle_gives {s : State} {e : Env} {i : Instr} {m : BitVec 1} {d a : BitVec 8} {ops : List Opnd} {j : Nat → Option Nat}
    {f : Nat → Nat × Word} (hi : ∃ body, exec i s = issue m i body s ∧ body e = shuffle e d a ops j) (h : Issues s e)
    (ho : OpsOk e crewOnly ([⟨d, .vect, 1⟩, ⟨a, .vect, 1⟩] ++ ops)) (hl : e.lanes ≠ [])
    (hf : (fun l => ((e.regs.vec (match j l with
      | some k => if e.active.contains k then k else l
      | none => l) a.toNat).toNat, (0 : Word))) = f) : Gives e s i m d 1 f := by
  unfold Gives
  obtain ⟨body, hi, hb⟩ := hi
  rw [hi]
  refine issue_ok h ?_
  rw [hb]
  unfold shuffle
  rw [whenLanes_some (some_lane hl), checkOps_ok ho, pure_bind]
  subst hf
  rfl

theorem filter_nil_of_all {α : Type} {p q : α → Bool} {l : List α} (h : l.all q = true) (hpq : ∀ x, q x = true → p x = false) :
    l.filter p = [] := by
  rw [List.filter_eq_nil_iff]
  intro x hx
  rw [hpq x (List.all_eq_true.mp h x hx)]; simp

theorem termWords_ok {e : Env} {s : State} {d a : BitVec 8} {n : Nat} {f : Nat → Option (Nat × Word)} (hl : e.takes d)
    (ho : OpsOk e crewOnly [⟨d, .any, n⟩, srcFor d a 2])
    (hf : ∀ l ∈ e.destLanes d, (f (e.regs.pair l a).toNat).isSome = true) :
    termWords e d a n f s = emitLanes e d n (fun l => (f (e.regs.pair l a).toNat).getD (0, 0)) s := by
  unfold termWords
  rw [whenLanes_takes hl, checkOps_ok ho, pure_bind]
  have : (e.destLanes d).filter (fun l => (f (e.regs.pair l a).toNat).isNone) = [] := by
    rw [List.filter_eq_nil_iff]; intro l hl; have := hf l hl
    cases h : f (e.regs.pair l a).toNat <;> simp [h] at this ⊢
  simp only [this, List.isEmpty_nil, Bool.not_true, Bool.false_eq_true, if_false]

theorem runLane_pure {α : Type} {f : Nat → L α} {g : Nat → α} {s : State} {ls : List Nat}
    (h : ∀ l ∈ ls, ∀ p, f l p = .ok (g l) p) (o : List (Nat × α)) (u : List (Nat × Nat)) :
    ls.foldl (runLane f) (⟨o, [], u⟩, s) = (⟨o ++ ls.map (fun l => (l, g l)), [], u⟩, s) := by
  induction ls generalizing o with
  | nil => simp
  | cons l ls ih =>
    rw [List.foldl_cons]
    have : runLane f (⟨o, [], u⟩, s) l = (⟨o ++ [(l, g l)], [], u⟩, s) := by
      unfold runLane; rw [h l List.mem_cons_self]
    rw [this, ih (fun k hk => h k (List.mem_cons_of_mem _ hk))]
    simp

theorem lastOfRun_ok {e : Env} {ops : List Opnd} {k : M Unit} {s t : State} (hl : e.lanes ≠ []) (ho : OpsOk e crewOnly ops)
    (hk : k s = .ok () t) : lastOfRun e ops k s = .ok Flow.nextClose t := by
  unfold lastOfRun
  rw [if_neg (by simpa using hl), checkOps_ok ho, pure_bind]
  simp only [bind, EStateM.bind, hk]; rfl

theorem loadWith_ok {s t : State} {e : Env} {d a : BitVec 8} {off size n : Nat} {ext : Nat → Nat} {bad : Bool}
    {read : Nat → State → Except Nat Got × State} {prog : Progress} {s0 : State}
    (h : LoadReady s0 e d a off size n) (hb : bad = false)
    (hp : PartsAnswer e (loadParts e d a off) (loadPart d n ext read) s prog t) :
    loadWith e d a off size n bad ext read s = .ok Flow.next (emitTo e.tid e.sid prog.results prog.flags
      (modSplit e.tid e.sid (fun sp => { sp with progress := prog }) t)) := by
  subst hb
  unfold loadWith
  rw [whenLanes_takes h.2.1, checkOps_ok h.2.2.1, pure_bind]
  rw [checkAddrs_ok h.2.2.2, pure_bind, runParts_bind hp]; rfl

theorem storeWith_ok {s t u : State} {e : Env} {d a : BitVec 8} {off size n : Nat} {first : M Unit}
    {write : Nat → List Byte → State → Except Nat Unit × State} {prog : Progress}
    (hl : e.lanes ≠ []) (ho : OpsOk e storeKinds [⟨d, .any, n⟩, ⟨a, .any, 2⟩]) (ha : (storeParts e a off).all (goodAddr size) = true)
    (hf : first s = .ok () u)
    (hp : PartsAnswer e (storeParts e a off) (storePart e d n size write) u prog t) :
    storeWith e d a off size n first write s = .ok Flow.next (emitTo e.tid e.sid prog.results prog.flags
      (modSplit e.tid e.sid (fun sp => { sp with progress := prog }) t)) := by
  unfold storeWith
  rw [whenLanes_some (some_lane hl), checkOps_ok ho, pure_bind]
  rw [checkAddrs_ok ha, pure_bind]
  have : ∀ k : Unit → M Flow, (first >>= k) s = k () u := by intro k; simp only [bind, EStateM.bind, hf]
  rw [this, runParts_bind hp]; rfl

theorem release_ok {s t : State} {e : Env} {m : BitVec 1} {i : Instr} {d a : BitVec 8} {off size n : Nat} {prog : Progress}
    (h : StoreReady s e d a off size n)
    (hi : exec i s = issue m i (fun e => releaseStore e d a off size n) s)
    (hp : PartsAnswer (releasedEnv e) (storeParts e a off) (storePart e d n size (releaseWrite e)) (afterRelease s e) prog t) :
    exec i s = .next (e.accessed m i prog t) := by
  rw [hi]
  refine issue_ok h.1 ?_
  unfold releaseStore
  have hf : releaseFirst e (opened s) = .ok () (afterRelease s e) := by
    unfold releaseFirst afterRelease
    cases hr : e.sp.progress.released <;> rfl
  exact storeWith_ok (e := releasedEnv e) (d := d) (n := n) h.2.1 h.2.2.1 h.2.2.2 hf hp

theorem acquire_ok {s t : State} {e : Env} {m : BitVec 1} {i : Instr} {d a : BitVec 8} {off size n : Nat} {prog : Progress}
    (h : LoadReady s e d a off size n)
    (hi : exec i s = issue m i (fun e => acquireLoad e d a off size n) s)
    (hp : PartsAnswer e (loadParts e d a off) (loadPart d n id (acquireRead e size)) (opened s) prog t) :
    exec i s = .next (e.done m i Flow.next (acquire e.th.core e.cid e.scope
        (emitTo e.tid e.sid prog.results prog.flags (modSplit e.tid e.sid (fun sp => { sp with progress := prog }) t)))) := by
  rw [hi]
  refine issue_ok h.1 ?_
  unfold acquireLoad
  rw [bind_ok (loadWith_ok h rfl hp)]
  have hc : (isVec d && e.lanes.isEmpty) = false := by
    cases hv : isVec d
    · rfl
    · simp [h.2.1 hv]
  rw [hc]; rfl

theorem checkScratch_ok {e : Env} {ps : List Machine.Part} {s : State}
    (h : ∀ p ∈ ps, p.va < spadOf s e.th.launch ∧ p.va % 4 = 0) : checkScratch e ps s = .ok () s := by
  have h1 : ps.filter (fun p => decide (spadOf s e.th.launch ≤ p.va)) = [] := by
    rw [List.filter_eq_nil_iff]; intro p hp; simp [(h p hp).1]
  have h2 : ps.filter (fun p => decide (p.va % 4 ≠ 0)) = [] := by
    rw [List.filter_eq_nil_iff]; intro p hp; simp [(h p hp).2]
  unfold checkScratch
  rw [get_bind]
  simp only [h1, h2, List.isEmpty_nil, Bool.not_true, Bool.false_eq_true, if_false]; rfl

theorem atomic_ok {s : State} {e : Env} {ty : ElemType} {m : BitVec 1} {i : Instr} {d a b : BitVec 8} {nb : Nat}
    {ok : ElemType → Bool} {f : ElemType → Nat → Update} {g : Nat → Update} (h : AtomicReady s e ty d a b nb) {body : Env → M Flow}
    (hi : exec i s = issue m i body s) (hbd : body e = atomic e d a b nb ok f)
    (hok : ok ty = true) (hg : f ty = g) : Updates s e i m ty d a b g := by
  intro prog t hp
  obtain ⟨h1, h2, h3, h4, h5⟩ := h
  have hr : e.typeRegs = ty.regs := by simp [Env.typeRegs, h2]
  have hb : e.typeBad ok = false := by simp [Env.typeBad, h2, hok]
  rw [hi]
  refine issue_ok h1 ?_
  rw [hbd]
  unfold atomic
  dsimp only
  rw [whenLanes_some (fun hx => h3 (by revert hx; cases isVec d <;> cases isVec a <;> cases isVec b <;> simp)), hr, hb, checkOps_ok h4, pure_bind, h2]
  simp only [Option.getD_some, hg]
  rw [checkAddrs_ok h5, pure_bind, runParts_bind hp]
  rfl

theorem fifoBank_ok {s : State} {e : Env} {a : BitVec 8} (h1 : (e.regs.field 0 a).toNat < 64)
    (h2 : (getBank s (clusterOf e.th.core) ((e.regs.field 0 a).toNat % 64)).mode = .fifo)
    (h3 : (getBank s (clusterOf e.th.core) ((e.regs.field 0 a).toNat % 64)).owner = some e.th.launch)
    (h4 : (getBank s (clusterOf e.th.core) ((e.regs.field 0 a).toNat % 64)).entryBytes = 4 * e.th.width) :
    fifoBank e a s = .ok ((e.regs.field 0 a).toNat) s := by
  unfold fifoBank
  have : bits (e.regs.field 0 a).toNat 6 26 = 0 := by
    unfold bits; rw [Nat.div_eq_of_lt (by simpa using h1)]; rfl
  simp only [this, ne_eq, not_true, if_false]
  rw [get_bind]
  simp only [h2, h3, h4, not_true, or_self, if_false]
  rw [Nat.mod_eq_of_lt h1]; rfl

theorem needTile_ok {s : State} {e : Env} {ls : List Nat} {h : Nat} {t : Tile} (ht : tileOf s e.cid h = some t) :
    needTile e ls h s = .ok t s := by
  unfold needTile
  refine (get_bind _ _).trans ?_
  rw [ht]; rfl

theorem onTile_ok {s : State} {e : Env} {a : BitVec 8} {t : Tile} {f : Nat → Tile → State → State}
    (ho : OpsOk e crewOnly [⟨a, .scal, 1⟩]) (ht : tileOf s e.cid (e.regs.field 0 a).toNat = some t) :
    onTile e a f s = .ok Flow.next (f (handleKey (e.regs.field 0 a).toNat) t s) := by
  unfold onTile
  rw [checkOps_ok ho, pure_bind]
  exact (bind_ok (needTile_ok ht) _).trans rfl

theorem tileAccess_ok {u : State} {s0 : State} {e : Env} {d a b : BitVec 8} {acc : Acc} {t : Tile} {prog : Progress}
    {go : Tile → Machine.Part → State → PartResult × State} (h : TileReady s0 e d a b t) 
    (hp : PartsAnswer e (tileParts e b t) (go t) (opened s0) prog u) :
    tileAccess e d a b acc go (opened s0) = .ok Flow.next (emitTo e.tid e.sid prog.results prog.flags
      (modSplit e.tid e.sid (fun sp => { sp with progress := prog }) u)) := by
  obtain ⟨-, hl, ht, ho, ho2, hc, ha⟩ := h
  unfold tileAccess
  rw [whenLanes_some (fun _ => hl), checkOps_ok (g := true) ho, pure_bind]
  refine (bind_ok (needTile_ok ht) _).trans ?_
  rw [checkOps_ok ho2, pure_bind]
  have hf : e.lanes.filter (fun l => decide (t.shape.count ≤ (e.regs.field l b).toNat)) = [] := by
    rw [List.filter_eq_nil_iff]; intro l hl; simpa using hc l hl
  simp only [hf, List.isEmpty_nil, Bool.not_true, Bool.false_eq_true, if_false]
  rw [checkAddrs_ok ha, pure_bind]
  refine (runParts_bind hp _).trans rfl

theorem copyInstr_ok {s : State} {e : Env} {i : Instr} {who : List Kind} {d a b : BitVec 8} {col : Bool} {f : Nat → M Machine.Flow}
    (h : CopyReady s e who d a b) (hc : col = true → control e d % 4 ≠ 3 ∧ control e d / 4 ≠ 3) :
    copyInstr e i who d a b col f (opened s) = f (control e d) (opened s) := by
  obtain ⟨-, ho, h1, h2⟩ := h
  have hctl : copyControl e d col = pure (control e d) := by
    unfold copyControl
    have : ¬ (16 ≤ control e d ∨ (col ∧ (control e d % 4 = 3 ∨ control e d / 4 = 3))) := by
      rintro (h | ⟨hc', h⟩)
      · omega
      · have := hc hc'; omega
    exact if_neg this
  unfold copyInstr
  rw [checkOps_ok ho, pure_bind, hctl, pure_bind]
  refine (get_bind _ _).trans ?_
  rw [if_pos h2]

theorem placeOp_ok {s : State} {e : Env} {i : Instr} {k : OpKind} (hr : EngineRoom s e) :
    placeOp e i k s = .ok Flow.next (queued e k s) := by
  unfold placeOp
  refine (get_bind _ _).trans ?_
  rw [if_neg (Nat.not_le.mpr hr)]; rfl

theorem bankGroup_ok {s : State} {e : Env} {f : BitVec 8} (h : GroupOk s e f) : bankGroup e f s = .ok (groupOf e f) s := by
  obtain ⟨h1, h2, h3⟩ := h
  unfold bankGroup
  refine (get_bind _ _).trans ?_
  rw [if_neg (by omega), if_neg, if_neg]
  · rfl
  · simp only [List.any_map, List.any_eq_true, List.mem_range]
    rintro ⟨i, hi, hx⟩
    have := h3 i hi
    simp [this.2.2] at hx
  · simp only [List.any_map, List.any_eq_true, List.mem_range]
    rintro ⟨i, hi, hx⟩
    have := h3 i hi
    simp [this.1, this.2.1] at hx

theorem needXmode_ok {e : Env} (h : xLegal e.regs.xmode = true) : needXmode e = pure () := by
  unfold needXmode; rw [if_pos h]

theorem eqs_ne {a b : BitVec 8} (h : (a = 0xC0#8) ↔ ¬ (b = 0xC0#8)) : ¬ ((a = 0xC0#8) = (b = 0xC0#8)) := by
  intro hc
  have := Iff.of_eq hc
  tauto

end Sys2Proof.Laws
end

