-- ==== Sys2Proof/Laws/Integers.lean ====
section
/-! SUPPORT. Integers of the element types wrap as bit vectors do (R63). -/

namespace Sys2Proof.Laws
open Sys2Proof.Machine Sys2Proof.Claims

theorem intVal_shift (sg : Bool) (b x : Nat) : ∃ k : Int, intVal sg b x = x - k * 2 ^ b := by
  unfold intVal
  split
  · exact ⟨1, by rw [Int.one_mul]⟩
  · exact ⟨0, by simp⟩

theorem wrap_congr {b z : Nat} {r : Int} (h : ∃ k : Int, r = z - k * 2 ^ b) : wrapInt b r = z % 2 ^ b := by
  obtain ⟨k, rfl⟩ := h
  unfold wrapInt
  have h1 : ((z : Int) - k * 2 ^ b) % (2 ^ b : Int) = (z : Int) % (2 ^ b : Int) := by
    rw [Int.sub_emod, Int.mul_emod_left]; simp
  rw [h1]
  have : ((z : Int) % (2 ^ b : Int)) = ((z % 2 ^ b : Nat) : Int) := by push_cast; rfl
  rw [this]; rfl

theorem wrap_add (sg : Bool) (b x y : Nat) : wrapInt b (intVal sg b x + intVal sg b y) = (x + y) % 2 ^ b := by
  obtain ⟨k, hk⟩ := intVal_shift sg b x
  obtain ⟨j, hj⟩ := intVal_shift sg b y
  exact wrap_congr ⟨k + j, by rw [hk, hj]; push_cast; ring⟩

theorem wrap_mul (sg : Bool) (b x y : Nat) : wrapInt b (intVal sg b x * intVal sg b y) = (x * y) % 2 ^ b := by
  obtain ⟨k, hk⟩ := intVal_shift sg b x
  obtain ⟨j, hj⟩ := intVal_shift sg b y
  exact wrap_congr ⟨k * y + j * x - k * j * 2 ^ b, by rw [hk, hj]; push_cast; ring⟩

theorem wrap_sub (sg : Bool) (b x y : Nat) (hy : y < 2 ^ b) :
    wrapInt b (intVal sg b x - intVal sg b y) = (2 ^ b - y + x) % 2 ^ b := by
  obtain ⟨k, hk⟩ := intVal_shift sg b x
  obtain ⟨j, hj⟩ := intVal_shift sg b y
  exact wrap_congr ⟨k - j + 1, by rw [hk, hj]; push_cast [Nat.cast_sub hy.le]; ring⟩

theorem wrap_shl (sg : Bool) (b x k : Nat) : wrapInt b (intVal sg b x * 2 ^ min k b) = (x * 2 ^ k) % 2 ^ b := by
  obtain ⟨j, hj⟩ := intVal_shift sg b x
  rw [wrap_congr (z := x * 2 ^ min k b) ⟨j * 2 ^ min k b, by rw [hj]; push_cast; ring⟩]
  rcases Nat.le_total k b with h | h
  · rw [Nat.min_eq_left h]
  · rw [Nat.min_eq_right h]
    obtain ⟨c, rfl⟩ := Nat.exists_eq_add_of_le h
    rw [Nat.mul_mod_left, Nat.pow_add, Nat.mul_comm, Nat.mul_assoc, Nat.mul_mod_right]

theorem intVal_toInt {b x : Nat} (hb : 0 < b) (hx : x < 2 ^ b) : intVal true b x = (BitVec.ofNat b x).toInt := by
  rw [BitVec.toInt_eq_toNat_cond, BitVec.toNat_ofNat, Nat.mod_eq_of_lt hx]
  obtain ⟨c, rfl⟩ : ∃ c, b = c + 1 := ⟨b - 1, by omega⟩
  unfold intVal
  have h2 : 2 ^ (c + 1) = 2 * 2 ^ c := by rw [Nat.pow_succ]; omega
  simp only [Bool.true_and, decide_eq_true_eq, Nat.add_sub_cancel]
  by_cases h : 2 ^ c ≤ x
  · rw [if_pos h, if_neg (by omega)]; push_cast; rfl
  · rw [if_neg h, if_pos (by omega)]

theorem wrap_toInt {b : Nat} (v : BitVec b) : wrapInt b v.toInt = v.toNat := by
  unfold wrapInt
  rw [BitVec.toInt_eq_toNat_bmod, show (2 ^ b : Int) = ((2 ^ b : Nat) : Int) by push_cast; rfl, Int.bmod_emod]
  have : ((v.toNat : Int) % ((2 ^ b : Nat) : Int)) = ((v.toNat % 2 ^ b : Nat) : Int) := by push_cast; rfl
  rw [this, Nat.mod_eq_of_lt v.isLt]; rfl

theorem wrap_sra {b x k : Nat} (hb : 0 < b) (hx : x < 2 ^ b) :
    wrapInt b (intVal true b x / 2 ^ min k b) = ((BitVec.ofNat b x).sshiftRight k).toNat := by
  rw [← wrap_toInt, BitVec.toInt_sshiftRight, Int.shiftRight_eq_div_pow, intVal_toInt hb hx]
  rcases Nat.le_total k b with h | h
  · rw [Nat.min_eq_left h]; push_cast; rfl
  · rw [Nat.min_eq_right h]
    have h1 := BitVec.toInt_lt (x := BitVec.ofNat b x)
    have h2 := BitVec.le_toInt (x := BitVec.ofNat b x)
    generalize (BitVec.ofNat b x).toInt = X at *
    have hp : (2 : Int) ^ (b - 1) ≤ 2 ^ b := pow_le_pow_right₀ (by norm_num) (by omega)
    have hq : (2 : Int) ^ b ≤ 2 ^ k := pow_le_pow_right₀ (by norm_num) h
    have key : ∀ P : Int, 2 ^ b ≤ P → X / P = if X < 0 then -1 else 0 := by
      intro P hP
      have hP0 : 0 < P := lt_of_lt_of_le (by positivity) hP
      split
      · next hn => rw [Int.ediv_eq_iff_of_pos hP0]; constructor <;> linarith
      · next hn => exact Int.ediv_eq_zero_of_lt (by omega) (by linarith)
    congr 1
    push_cast
    rw [key _ le_rfl, key _ hq]

theorem elem_lt (b x i : Nat) : elemAt b x i < 2 ^ b := Nat.mod_lt _ (by positivity)

theorem b_pos {c : Nat} {ty : ElemType} (h : elemType c = some ty) : 0 < ty.b := by
  unfold elemType at h
  split at h <;> first | (cases h; decide) | cases h

theorem fit_false (sg : Bool) (b : Nat) (r : Int) : fitInt sg false b r = (wrapInt b r, 0) := by simp [fitInt]

theorem kind_int {ty : ElemType} (hf : ty.isFloat = false) : ty.kind = .sint ∨ ty.kind = .uint := by
  unfold ElemType.isFloat at hf
  cases h : ty.kind <;> simp_all

theorem byKind_int {e : Env} {ty : ElemType} (hf : ty.isFloat = false) (sat : Bool) (i : Int → Int → Int) (g) (x y : Nat) :
    byKind e ty sat i g x y = fitInt ty.isSigned sat ty.b (i (intVal ty.isSigned ty.b x) (intVal ty.isSigned ty.b y)) := by
  unfold byKind
  rcases kind_int hf with h | h <;> rw [h]

theorem gives_congr {e : Env} {s : State} {i : Instr} {m : BitVec 1} {d : BitVec 8} {n : Nat} {f g : Nat → Nat × Word}
    (h : Gives e s i m d n f) (hfg : ∀ l, f l = g l) : Gives e s i m d n g := by
  have : f = g := funext hfg
  rwa [← this]

theorem over2_congr {e : Env} {ty : ElemType} {a b : BitVec 8} {f g : Nat → Nat → Nat × Word} {l : Nat}
    (h : ∀ x y, x < 2 ^ ty.b → y < 2 ^ ty.b → f x y = g x y) : over2 e ty a b f l = over2 e ty a b g l := by
  unfold over2 elems2
  congr 1
  funext i
  exact h _ _ (elem_lt _ _ _) (elem_lt _ _ _)

end Sys2Proof.Laws
end

