-- ==== Sys2Proof/Laws/Krazu.lean ====
section
/-! SUPPORT. What sending flits and finishing a PUBLISH leave as it was: contexts, memory and the L2 level, and which
ports are up. -/

namespace Sys2Proof.Machine

/-- Two states have the same contexts, the same memory and the same L2 lines. -/
def SameMemory (t s : State) : Prop := t.contexts = s.contexts ∧ t.mem = s.mem ∧ t.l2 = s.l2

theorem SameMemory.trans {u t s : State} (h : SameMemory u t) (g : SameMemory t s) : SameMemory u s :=
  ⟨h.1.trans g.1, h.2.1.trans g.2.1, h.2.2.trans g.2.2⟩

/-- A flit that is put on the link changes its port, and the calendar for its acknowledgement. -/
theorem putFlit_eq (p : Nat) (f : Flit) (s : State) : ∃ c, putFlit p f s = { modPort p (fun q => { q with
    tx := (q.tx + 1) % 65536, sent := q.sent + 1, replay := q.replay ++ [{ f with seq := q.tx, crcOk := true }] }) s with
    calendar := c } :=
  scheduleOnce_eq (s.chiptime + 5400) (.krazuAckTimeout p) _

theorem sendFlit_same (p : Nat) (f : Flit) (s : State) : SameMemory (sendFlit p f s) s := by
  unfold sendFlit
  split
  · exact ⟨rfl, rfl, rfl⟩
  · obtain ⟨c, h⟩ := putFlit_eq p f s
    rw [h]
    exact ⟨rfl, rfl, rfl⟩

theorem mirrorAccepted_same (x : Transfer) (s : State) : SameMemory (mirrorAccepted x s) s := by
  unfold mirrorAccepted
  split
  · exact ⟨rfl, rfl, rfl⟩
  · split <;> exact ⟨rfl, rfl, rfl⟩

theorem pumpMirrors_same (n : Nat) (s : State) : SameMemory (pumpMirrors n s) s := by
  induction n generalizing s with
  | zero => exact ⟨rfl, rfl, rfl⟩
  | succ n ih =>
    unfold pumpMirrors
    split
    · exact ⟨rfl, rfl, rfl⟩
    · split
      · split
        · exact ⟨rfl, rfl, rfl⟩
        · exact (ih _).trans ((mirrorAccepted_same _ _).trans ⟨rfl, rfl, rfl⟩)
      · split
        · exact ⟨rfl, rfl, rfl⟩
        · split
          · exact ⟨rfl, rfl, rfl⟩
          · exact (ih _).trans ((sendFlit_same _ _ _).trans ⟨rfl, rfl, rfl⟩)

/-- A PUBLISH that ends changes no memory, no context and no line. -/
theorem finishPublish_same (cid region : Nat) (c : Context) (pa size : Nat) (s : State) :
    SameMemory (finishPublish cid region c pa size s) s := by
  unfold finishPublish
  dsimp only
  split
  · split
    · exact mirrorAccepted_same _ _
    · split
      · exact ⟨rfl, rfl, rfl⟩
      · exact (pumpMirrors_same _ _).trans ⟨rfl, rfl, rfl⟩
  · exact mirrorAccepted_same _ _

/-- A flit that is sent leaves every port up or down as it was. -/
theorem sendFlit_up (p q : Nat) (f : Flit) (s : State) : (getPort (sendFlit p f s) q).up = (getPort s q).up := by
  unfold sendFlit
  split
  · unfold getPort modPort
    by_cases hq : q = p
    · subst hq; simp [getPort]
    · simp [Sparse.find?_put_other _ _ hq]
  · obtain ⟨c, h⟩ := putFlit_eq p f s
    rw [h]
    unfold getPort modPort
    by_cases hq : q = p
    · subst hq; simp [getPort]
    · simp [Sparse.find?_put_other _ _ hq]

end Sys2Proof.Machine
end

