-- ==== Sys2Proof/Laws/PerInstr.lean ====
section
/-! SUPPORT. The words of instructions: each well-formed instruction's encoding decodes to it. -/

namespace Sys2Proof.Laws

set_option linter.unnecessarySeqFocus false
set_option linter.unusedTactic false
set_option linter.unreachableTactic false
set_option linter.unusedSimpArgs false
set_option linter.unusedVariables false

/-- The encoding of a well-formed instruction decodes to it. -/
def RoundTrip.Statement (i : Instr) : Prop := i.wellFormed = true → ∀ w, encode i = some w → decodeWord w = .ok i

/-- An event has no word. -/
theorem RoundTrip.no_word {i : Instr} (h : encode i = none) : RoundTrip.Statement i := by
  intro _ w hw
  rw [h] at hw
  cases hw

/-- A word is decoded from its marker, its major opcode and its three lower bytes. -/
theorem RoundTrip.decodeWord_of {w M d a b : Nat} {m : BitVec 1} (hM : M < 128) (hd : d < 256) (ha : a < 256) (hb : b < 256)
    (h : w = m.toNat * 0x80000000 + M * 0x1000000 + d * 0x10000 + a * 0x100 + b) :
    decodeWord w = decodeFields m M d a b w := by
  have hm := m.isLt
  have h1 : BitVec.ofNat 1 (w / 0x80000000) = m := by
    apply BitVec.eq_of_toNat_eq
    rw [BitVec.toNat_ofNat]
    omega
  have h2 : w / 0x1000000 % 0x80 = M := by omega
  have h3 : w / 0x10000 % 0x100 = d := by omega
  have h4 : w / 0x100 % 0x100 = a := by omega
  have h5 : w % 0x100 = b := by omega
  unfold decodeWord
  rw [h1, h2, h3, h4, h5]

/-- A check that a field passes. -/
theorem RoundTrip.need_ok {ok : Bool} {why : DecodeError} {g : Bool} {k : Decoded} (h : ok = true) : need ok why g k = k := by
  simp [need, h]

theorem RoundTrip.zero_ok {field : Nat} {g : Bool} {k : Decoded} (h : field = 0) : zero field g k = k := by
  simp [zero, need, h]

/-- A field is read back from a number that agrees with it in the field's bits. -/
theorem RoundTrip.ofNat_of {n v : Nat} {x : BitVec n} (h : v % 2 ^ n = x.toNat) : BitVec.ofNat n v = x := by
  apply BitVec.eq_of_toNat_eq
  rw [BitVec.toNat_ofNat, h]

theorem RoundTrip.toNat_ne {n : Nat} {x y : BitVec n} (h : (x != y) = true) : x.toNat ≠ y.toNat := by
  intro hc
  rw [BitVec.eq_of_toNat_eq hc] at h
  simp at h

/-- A word whose three lower bytes are all operands. -/
theorem RoundTrip.three {i : Instr} {w M : Nat} {m : BitVec 1} {d a b : BitVec 8} (hM : M < 128) (h : encode i = some w)
    (he : encode i = some (packFields (M * 0x1000000) [(31, m.toNat), (16, d.toNat), (8, a.toNat), (0, b.toNat)]))
    (hd : decodeThree M m d a b = some i) : decodeWord w = .ok i := by
  have hw := Option.some.inj (he.symm.trans h)
  simp only [packFields] at hw
  have := d.isLt
  have := a.isLt
  have := b.isLt
  rw [RoundTrip.decodeWord_of (m := m) (M := M) (d := d.toNat) (a := a.toNat) (b := b.toNat) hM (by omega) (by omega) (by omega)
    (by omega)]
  simp only [decodeFields, BitVec.ofNat_toNat, BitVec.setWidth_eq, hd]

/-! ## The lemmas, one for each constructor -/

theorem RoundTrip.add (m : BitVec 1) (d : BitVec 8) (a : BitVec 8) (b : BitVec 8) : RoundTrip.Statement (.add m d a b) :=
  fun _ _ h => RoundTrip.three (M := 0x01) (by decide) h rfl rfl

theorem RoundTrip.sub (m : BitVec 1) (d : BitVec 8) (a : BitVec 8) (b : BitVec 8) : RoundTrip.Statement (.sub m d a b) :=
  fun _ _ h => RoundTrip.three (M := 0x02) (by decide) h rfl rfl

theorem RoundTrip.mul (m : BitVec 1) (d : BitVec 8) (a : BitVec 8) (b : BitVec 8) : RoundTrip.Statement (.mul m d a b) :=
  fun _ _ h => RoundTrip.three (M := 0x03) (by decide) h rfl rfl

theorem RoundTrip.mulh (m : BitVec 1) (d : BitVec 8) (a : BitVec 8) (b : BitVec 8) : RoundTrip.Statement (.mulh m d a b) :=
  fun _ _ h => RoundTrip.three (M := 0x04) (by decide) h rfl rfl

theorem RoundTrip.fma (m : BitVec 1) (d : BitVec 8) (a : BitVec 8) (b : BitVec 8) : RoundTrip.Statement (.fma m d a b) :=
  fun _ _ h => RoundTrip.three (M := 0x05) (by decide) h rfl rfl

theorem RoundTrip.div (m : BitVec 1) (d : BitVec 8) (a : BitVec 8) (b : BitVec 8) : RoundTrip.Statement (.div m d a b) :=
  fun _ _ h => RoundTrip.three (M := 0x06) (by decide) h rfl rfl

theorem RoundTrip.rem (m : BitVec 1) (d : BitVec 8) (a : BitVec 8) (b : BitVec 8) : RoundTrip.Statement (.rem m d a b) :=
  fun _ _ h => RoundTrip.three (M := 0x07) (by decide) h rfl rfl

theorem RoundTrip.min (m : BitVec 1) (d : BitVec 8) (a : BitVec 8) (b : BitVec 8) : RoundTrip.Statement (.min m d a b) :=
  fun _ _ h => RoundTrip.three (M := 0x08) (by decide) h rfl rfl

theorem RoundTrip.max (m : BitVec 1) (d : BitVec 8) (a : BitVec 8) (b : BitVec 8) : RoundTrip.Statement (.max m d a b) :=
  fun _ _ h => RoundTrip.three (M := 0x09) (by decide) h rfl rfl

theorem RoundTrip.and (m : BitVec 1) (d : BitVec 8) (a : BitVec 8) (b : BitVec 8) : RoundTrip.Statement (.and m d a b) :=
  fun _ _ h => RoundTrip.three (M := 0x0A) (by decide) h rfl rfl

theorem RoundTrip.or (m : BitVec 1) (d : BitVec 8) (a : BitVec 8) (b : BitVec 8) : RoundTrip.Statement (.or m d a b) :=
  fun _ _ h => RoundTrip.three (M := 0x0B) (by decide) h rfl rfl

theorem RoundTrip.xor (m : BitVec 1) (d : BitVec 8) (a : BitVec 8) (b : BitVec 8) : RoundTrip.Statement (.xor m d a b) :=
  fun _ _ h => RoundTrip.three (M := 0x0C) (by decide) h rfl rfl

theorem RoundTrip.andn (m : BitVec 1) (d : BitVec 8) (a : BitVec 8) (b : BitVec 8) : RoundTrip.Statement (.andn m d a b) :=
  fun _ _ h => RoundTrip.three (M := 0x0D) (by decide) h rfl rfl

theorem RoundTrip.shl (m : BitVec 1) (d : BitVec 8) (a : BitVec 8) (b : BitVec 8) : RoundTrip.Statement (.shl m d a b) :=
  fun _ _ h => RoundTrip.three (M := 0x0E) (by decide) h rfl rfl

theorem RoundTrip.shr (m : BitVec 1) (d : BitVec 8) (a : BitVec 8) (b : BitVec 8) : RoundTrip.Statement (.shr m d a b) :=
  fun _ _ h => RoundTrip.three (M := 0x0F) (by decide) h rfl rfl

theorem RoundTrip.sra (m : BitVec 1) (d : BitVec 8) (a : BitVec 8) (b : BitVec 8) : RoundTrip.Statement (.sra m d a b) :=
  fun _ _ h => RoundTrip.three (M := 0x10) (by decide) h rfl rfl

theorem RoundTrip.bfx (m : BitVec 1) (d : BitVec 8) (a : BitVec 8) (b : BitVec 8) : RoundTrip.Statement (.bfx m d a b) :=
  fun _ _ h => RoundTrip.three (M := 0x11) (by decide) h rfl rfl

theorem RoundTrip.bfi (m : BitVec 1) (d : BitVec 8) (a : BitVec 8) (b : BitVec 8) : RoundTrip.Statement (.bfi m d a b) :=
  fun _ _ h => RoundTrip.three (M := 0x12) (by decide) h rfl rfl

theorem RoundTrip.permb (m : BitVec 1) (d : BitVec 8) (a : BitVec 8) (b : BitVec 8) : RoundTrip.Statement (.permb m d a b) :=
  fun _ _ h => RoundTrip.three (M := 0x13) (by decide) h rfl rfl

theorem RoundTrip.sel (m : BitVec 1) (d : BitVec 8) (a : BitVec 8) (b : BitVec 8) : RoundTrip.Statement (.sel m d a b) :=
  fun _ _ h => RoundTrip.three (M := 0x14) (by decide) h rfl rfl

theorem RoundTrip.cmp (m : BitVec 1) (c : BitVec 3) (p : BitVec 3) (a : BitVec 8) (b : BitVec 8) : RoundTrip.Statement (.cmp m c p a b) := by
  intro hw w hx
  replace hw : (p != 0) = true := hw
  replace hx := Option.some.inj hx
  simp only [packFields] at hx
  have := c.isLt
  have := p.isLt
  have := a.isLt
  have := b.isLt
  have hn : p.toNat ≠ 0 := RoundTrip.toNat_ne hw
  rw [RoundTrip.decodeWord_of (m := m) (M := 0x15) (d := c.toNat * 32 + p.toNat) (a := a.toNat) (b := b.toNat) (by decide) (by omega) (by omega) (by omega) (by omega)]
  simp only [decodeFields, decodeThree, decodeFixed]
  repeat first
    | rw [RoundTrip.zero_ok (by omega)]
    | rw [RoundTrip.need_ok (by first | (simp; done) | (simp; omega) | assumption)]
    | rw [if_pos (by omega)]
    | rw [if_neg (by omega)]
  refine congrArg Except.ok ?_
  congr 1 <;> exact RoundTrip.ofNat_of (by omega)

theorem RoundTrip.pred (m : BitVec 1) (o : BitVec 2) (d : BitVec 3) (i : BitVec 1) (a : BitVec 3) (j : BitVec 1) (b : BitVec 3) : RoundTrip.Statement (.pred m o d i a j b) := by
  intro hw w hx
  replace hw : (d != 0) = true := hw
  replace hx := Option.some.inj hx
  simp only [packFields] at hx
  have := o.isLt
  have := d.isLt
  have := i.isLt
  have := a.isLt
  have := j.isLt
  have := b.isLt
  have hn : d.toNat ≠ 0 := RoundTrip.toNat_ne hw
  rw [RoundTrip.decodeWord_of (m := m) (M := 0x16) (d := o.toNat * 64 + d.toNat) (a := i.toNat * 128 + a.toNat) (b := j.toNat * 128 + b.toNat) (by decide) (by omega) (by omega) (by omega) (by omega)]
  simp only [decodeFields, decodeThree, decodeFixed]
  repeat first
    | rw [RoundTrip.zero_ok (by omega)]
    | rw [RoundTrip.need_ok (by first | (simp; done) | (simp; omega) | assumption)]
    | rw [if_pos (by omega)]
    | rw [if_neg (by omega)]
  refine congrArg Except.ok ?_
  congr 1 <;> exact RoundTrip.ofNat_of (by omega)

theorem RoundTrip.addx (m : BitVec 1) (d : BitVec 8) (a : BitVec 8) (b : BitVec 8) : RoundTrip.Statement (.addx m d a b) :=
  fun _ _ h => RoundTrip.three (M := 0x17) (by decide) h rfl rfl

theorem RoundTrip.mov (m : BitVec 1) (d : BitVec 8) (a : BitVec 8) : RoundTrip.Statement (.mov m d a) := by
  intro _ w hx
  replace hx := Option.some.inj hx
  simp only [packFields] at hx
  have := d.isLt
  have := a.isLt
  rw [RoundTrip.decodeWord_of (m := m) (M := 0x18) (d := d.toNat) (a := a.toNat) (b := 0) (by decide) (by omega) (by omega) (by omega) (by omega)]
  refine Eq.trans (b := Except.ok (.mov m (BitVec.ofNat 8 d.toNat) (BitVec.ofNat 8 a.toNat))) rfl ?_
  simp only [BitVec.ofNat_toNat, BitVec.setWidth_eq]

theorem RoundTrip.not (m : BitVec 1) (d : BitVec 8) (a : BitVec 8) : RoundTrip.Statement (.not m d a) := by
  intro _ w hx
  replace hx := Option.some.inj hx
  simp only [packFields] at hx
  have := d.isLt
  have := a.isLt
  rw [RoundTrip.decodeWord_of (m := m) (M := 0x18) (d := d.toNat) (a := a.toNat) (b := 1) (by decide) (by omega) (by omega) (by omega) (by omega)]
  refine Eq.trans (b := Except.ok (.not m (BitVec.ofNat 8 d.toNat) (BitVec.ofNat 8 a.toNat))) rfl ?_
  simp only [BitVec.ofNat_toNat, BitVec.setWidth_eq]

theorem RoundTrip.neg (m : BitVec 1) (d : BitVec 8) (a : BitVec 8) : RoundTrip.Statement (.neg m d a) := by
  intro _ w hx
  replace hx := Option.some.inj hx
  simp only [packFields] at hx
  have := d.isLt
  have := a.isLt
  rw [RoundTrip.decodeWord_of (m := m) (M := 0x18) (d := d.toNat) (a := a.toNat) (b := 2) (by decide) (by omega) (by omega) (by omega) (by omega)]
  refine Eq.trans (b := Except.ok (.neg m (BitVec.ofNat 8 d.toNat) (BitVec.ofNat 8 a.toNat))) rfl ?_
  simp only [BitVec.ofNat_toNat, BitVec.setWidth_eq]

theorem RoundTrip.abs (m : BitVec 1) (d : BitVec 8) (a : BitVec 8) : RoundTrip.Statement (.abs m d a) := by
  intro _ w hx
  replace hx := Option.some.inj hx
  simp only [packFields] at hx
  have := d.isLt
  have := a.isLt
  rw [RoundTrip.decodeWord_of (m := m) (M := 0x18) (d := d.toNat) (a := a.toNat) (b := 3) (by decide) (by omega) (by omega) (by omega) (by omega)]
  refine Eq.trans (b := Except.ok (.abs m (BitVec.ofNat 8 d.toNat) (BitVec.ofNat 8 a.toNat))) rfl ?_
  simp only [BitVec.ofNat_toNat, BitVec.setWidth_eq]

theorem RoundTrip.popc (m : BitVec 1) (d : BitVec 8) (a : BitVec 8) : RoundTrip.Statement (.popc m d a) := by
  intro _ w hx
  replace hx := Option.some.inj hx
  simp only [packFields] at hx
  have := d.isLt
  have := a.isLt
  rw [RoundTrip.decodeWord_of (m := m) (M := 0x18) (d := d.toNat) (a := a.toNat) (b := 4) (by decide) (by omega) (by omega) (by omega) (by omega)]
  refine Eq.trans (b := Except.ok (.popc m (BitVec.ofNat 8 d.toNat) (BitVec.ofNat 8 a.toNat))) rfl ?_
  simp only [BitVec.ofNat_toNat, BitVec.setWidth_eq]

theorem RoundTrip.clz (m : BitVec 1) (d : BitVec 8) (a : BitVec 8) : RoundTrip.Statement (.clz m d a) := by
  intro _ w hx
  replace hx := Option.some.inj hx
  simp only [packFields] at hx
  have := d.isLt
  have := a.isLt
  rw [RoundTrip.decodeWord_of (m := m) (M := 0x18) (d := d.toNat) (a := a.toNat) (b := 5) (by decide) (by omega) (by omega) (by omega) (by omega)]
  refine Eq.trans (b := Except.ok (.clz m (BitVec.ofNat 8 d.toNat) (BitVec.ofNat 8 a.toNat))) rfl ?_
  simp only [BitVec.ofNat_toNat, BitVec.setWidth_eq]

theorem RoundTrip.ctz (m : BitVec 1) (d : BitVec 8) (a : BitVec 8) : RoundTrip.Statement (.ctz m d a) := by
  intro _ w hx
  replace hx := Option.some.inj hx
  simp only [packFields] at hx
  have := d.isLt
  have := a.isLt
  rw [RoundTrip.decodeWord_of (m := m) (M := 0x18) (d := d.toNat) (a := a.toNat) (b := 6) (by decide) (by omega) (by omega) (by omega) (by omega)]
  refine Eq.trans (b := Except.ok (.ctz m (BitVec.ofNat 8 d.toNat) (BitVec.ofNat 8 a.toNat))) rfl ?_
  simp only [BitVec.ofNat_toNat, BitVec.setWidth_eq]

theorem RoundTrip.brev (m : BitVec 1) (d : BitVec 8) (a : BitVec 8) : RoundTrip.Statement (.brev m d a) := by
  intro _ w hx
  replace hx := Option.some.inj hx
  simp only [packFields] at hx
  have := d.isLt
  have := a.isLt
  rw [RoundTrip.decodeWord_of (m := m) (M := 0x18) (d := d.toNat) (a := a.toNat) (b := 7) (by decide) (by omega) (by omega) (by omega) (by omega)]
  refine Eq.trans (b := Except.ok (.brev m (BitVec.ofNat 8 d.toNat) (BitVec.ofNat 8 a.toNat))) rfl ?_
  simp only [BitVec.ofNat_toNat, BitVec.setWidth_eq]

theorem RoundTrip.frc (m : BitVec 1) (d : BitVec 8) (a : BitVec 8) : RoundTrip.Statement (.frc m d a) := by
  intro _ w hx
  replace hx := Option.some.inj hx
  simp only [packFields] at hx
  have := d.isLt
  have := a.isLt
  rw [RoundTrip.decodeWord_of (m := m) (M := 0x18) (d := d.toNat) (a := a.toNat) (b := 8) (by decide) (by omega) (by omega) (by omega) (by omega)]
  refine Eq.trans (b := Except.ok (.frc m (BitVec.ofNat 8 d.toNat) (BitVec.ofNat 8 a.toNat))) rfl ?_
  simp only [BitVec.ofNat_toNat, BitVec.setWidth_eq]

theorem RoundTrip.rint (m : BitVec 1) (d : BitVec 8) (a : BitVec 8) : RoundTrip.Statement (.rint m d a) := by
  intro _ w hx
  replace hx := Option.some.inj hx
  simp only [packFields] at hx
  have := d.isLt
  have := a.isLt
  rw [RoundTrip.decodeWord_of (m := m) (M := 0x18) (d := d.toNat) (a := a.toNat) (b := 9) (by decide) (by omega) (by omega) (by omega) (by omega)]
  refine Eq.trans (b := Except.ok (.rint m (BitVec.ofNat 8 d.toNat) (BitVec.ofNat 8 a.toNat))) rfl ?_
  simp only [BitVec.ofNat_toNat, BitVec.setWidth_eq]

theorem RoundTrip.rcp (m : BitVec 1) (d : BitVec 8) (a : BitVec 8) : RoundTrip.Statement (.rcp m d a) := by
  intro _ w hx
  replace hx := Option.some.inj hx
  simp only [packFields] at hx
  have := d.isLt
  have := a.isLt
  rw [RoundTrip.decodeWord_of (m := m) (M := 0x18) (d := d.toNat) (a := a.toNat) (b := 16) (by decide) (by omega) (by omega) (by omega) (by omega)]
  refine Eq.trans (b := Except.ok (.rcp m (BitVec.ofNat 8 d.toNat) (BitVec.ofNat 8 a.toNat))) rfl ?_
  simp only [BitVec.ofNat_toNat, BitVec.setWidth_eq]

theorem RoundTrip.rsq (m : BitVec 1) (d : BitVec 8) (a : BitVec 8) : RoundTrip.Statement (.rsq m d a) := by
  intro _ w hx
  replace hx := Option.some.inj hx
  simp only [packFields] at hx
  have := d.isLt
  have := a.isLt
  rw [RoundTrip.decodeWord_of (m := m) (M := 0x18) (d := d.toNat) (a := a.toNat) (b := 17) (by decide) (by omega) (by omega) (by omega) (by omega)]
  refine Eq.trans (b := Except.ok (.rsq m (BitVec.ofNat 8 d.toNat) (BitVec.ofNat 8 a.toNat))) rfl ?_
  simp only [BitVec.ofNat_toNat, BitVec.setWidth_eq]

theorem RoundTrip.sqrt (m : BitVec 1) (d : BitVec 8) (a : BitVec 8) : RoundTrip.Statement (.sqrt m d a) := by
  intro _ w hx
  replace hx := Option.some.inj hx
  simp only [packFields] at hx
  have := d.isLt
  have := a.isLt
  rw [RoundTrip.decodeWord_of (m := m) (M := 0x18) (d := d.toNat) (a := a.toNat) (b := 18) (by decide) (by omega) (by omega) (by omega) (by omega)]
  refine Eq.trans (b := Except.ok (.sqrt m (BitVec.ofNat 8 d.toNat) (BitVec.ofNat 8 a.toNat))) rfl ?_
  simp only [BitVec.ofNat_toNat, BitVec.setWidth_eq]

theorem RoundTrip.exp2 (m : BitVec 1) (d : BitVec 8) (a : BitVec 8) : RoundTrip.Statement (.exp2 m d a) := by
  intro _ w hx
  replace hx := Option.some.inj hx
  simp only [packFields] at hx
  have := d.isLt
  have := a.isLt
  rw [RoundTrip.decodeWord_of (m := m) (M := 0x18) (d := d.toNat) (a := a.toNat) (b := 19) (by decide) (by omega) (by omega) (by omega) (by omega)]
  refine Eq.trans (b := Except.ok (.exp2 m (BitVec.ofNat 8 d.toNat) (BitVec.ofNat 8 a.toNat))) rfl ?_
  simp only [BitVec.ofNat_toNat, BitVec.setWidth_eq]

theorem RoundTrip.log2 (m : BitVec 1) (d : BitVec 8) (a : BitVec 8) : RoundTrip.Statement (.log2 m d a) := by
  intro _ w hx
  replace hx := Option.some.inj hx
  simp only [packFields] at hx
  have := d.isLt
  have := a.isLt
  rw [RoundTrip.decodeWord_of (m := m) (M := 0x18) (d := d.toNat) (a := a.toNat) (b := 20) (by decide) (by omega) (by omega) (by omega) (by omega)]
  refine Eq.trans (b := Except.ok (.log2 m (BitVec.ofNat 8 d.toNat) (BitVec.ofNat 8 a.toNat))) rfl ?_
  simp only [BitVec.ofNat_toNat, BitVec.setWidth_eq]

theorem RoundTrip.sinp (m : BitVec 1) (d : BitVec 8) (a : BitVec 8) : RoundTrip.Statement (.sinp m d a) := by
  intro _ w hx
  replace hx := Option.some.inj hx
  simp only [packFields] at hx
  have := d.isLt
  have := a.isLt
  rw [RoundTrip.decodeWord_of (m := m) (M := 0x18) (d := d.toNat) (a := a.toNat) (b := 21) (by decide) (by omega) (by omega) (by omega) (by omega)]
  refine Eq.trans (b := Except.ok (.sinp m (BitVec.ofNat 8 d.toNat) (BitVec.ofNat 8 a.toNat))) rfl ?_
  simp only [BitVec.ofNat_toNat, BitVec.setWidth_eq]

theorem RoundTrip.cosp (m : BitVec 1) (d : BitVec 8) (a : BitVec 8) : RoundTrip.Statement (.cosp m d a) := by
  intro _ w hx
  replace hx := Option.some.inj hx
  simp only [packFields] at hx
  have := d.isLt
  have := a.isLt
  rw [RoundTrip.decodeWord_of (m := m) (M := 0x18) (d := d.toNat) (a := a.toNat) (b := 22) (by decide) (by omega) (by omega) (by omega) (by omega)]
  refine Eq.trans (b := Except.ok (.cosp m (BitVec.ofNat 8 d.toNat) (BitVec.ofNat 8 a.toNat))) rfl ?_
  simp only [BitVec.ofNat_toNat, BitVec.setWidth_eq]

theorem RoundTrip.tanh (m : BitVec 1) (d : BitVec 8) (a : BitVec 8) : RoundTrip.Statement (.tanh m d a) := by
  intro _ w hx
  replace hx := Option.some.inj hx
  simp only [packFields] at hx
  have := d.isLt
  have := a.isLt
  rw [RoundTrip.decodeWord_of (m := m) (M := 0x18) (d := d.toNat) (a := a.toNat) (b := 23) (by decide) (by omega) (by omega) (by omega) (by omega)]
  refine Eq.trans (b := Except.ok (.tanh m (BitVec.ofNat 8 d.toNat) (BitVec.ofNat 8 a.toNat))) rfl ?_
  simp only [BitVec.ofNat_toNat, BitVec.setWidth_eq]

theorem RoundTrip.cvt (m : BitVec 1) (d : BitVec 8) (a : BitVec 8) (f : BitVec 4) (g : BitVec 4) : RoundTrip.Statement (.cvt m d a f g) := by
  intro hw w hx
  replace hw : (cvtLegal f.toNat g.toNat) = true := hw
  replace hx := Option.some.inj hx
  simp only [packFields] at hx
  have := d.isLt
  have := a.isLt
  have := f.isLt
  have := g.isLt
  rw [RoundTrip.decodeWord_of (m := m) (M := 0x19) (d := d.toNat) (a := a.toNat) (b := f.toNat * 16 + g.toNat) (by decide) (by omega) (by omega) (by omega) (by omega)]
  simp only [decodeFields, decodeThree, decodeFixed]
  rw [show (f.toNat * 16 + g.toNat) / 16 = f.toNat by omega, show (f.toNat * 16 + g.toNat) % 16 = g.toNat by omega,
    RoundTrip.need_ok hw]
  refine congrArg Except.ok ?_
  congr 1 <;> exact RoundTrip.ofNat_of (by omega)

theorem RoundTrip.li (m : BitVec 1) (d : BitVec 8) (i : BitVec 16) : RoundTrip.Statement (.li m d i) := by
  intro _ w hx
  replace hx := Option.some.inj hx
  simp only [packFields] at hx
  have := d.isLt
  have := i.isLt
  rw [RoundTrip.decodeWord_of (m := m) (M := 0x1A) (d := d.toNat) (a := i.toNat / 256) (b := i.toNat % 256) (by decide) (by omega) (by omega) (by omega) (by omega)]
  simp only [decodeFields, decodeThree, decodeImmediate]
  repeat first
    | rw [RoundTrip.zero_ok (by omega)]
    | rw [RoundTrip.need_ok (by first | (simp; done) | (simp; omega) | assumption)]
    | rw [if_pos (by omega)]
    | rw [if_neg (by omega)]
  refine congrArg Except.ok ?_
  congr 1 <;> exact RoundTrip.ofNat_of (by omega)

theorem RoundTrip.lih (m : BitVec 1) (d : BitVec 8) (i : BitVec 16) : RoundTrip.Statement (.lih m d i) := by
  intro _ w hx
  replace hx := Option.some.inj hx
  simp only [packFields] at hx
  have := d.isLt
  have := i.isLt
  rw [RoundTrip.decodeWord_of (m := m) (M := 0x1B) (d := d.toNat) (a := i.toNat / 256) (b := i.toNat % 256) (by decide) (by omega) (by omega) (by omega) (by omega)]
  simp only [decodeFields, decodeThree, decodeImmediate]
  repeat first
    | rw [RoundTrip.zero_ok (by omega)]
    | rw [RoundTrip.need_ok (by first | (simp; done) | (simp; omega) | assumption)]
    | rw [if_pos (by omega)]
    | rw [if_neg (by omega)]
  refine congrArg Except.ok ?_
  congr 1 <;> exact RoundTrip.ofNat_of (by omega)

theorem RoundTrip.setmode (m : BitVec 1) (k : BitVec 8) (i : BitVec 16) : RoundTrip.Statement (.setmode m k i) := by
  intro hw w hx
  replace hw : (setmodeLegal k.toNat i.toNat) = true := hw
  replace hx := Option.some.inj hx
  simp only [packFields] at hx
  have := k.isLt
  have := i.isLt
  rw [RoundTrip.decodeWord_of (m := m) (M := 0x1C) (d := k.toNat) (a := i.toNat / 256) (b := i.toNat % 256) (by decide) (by omega) (by omega) (by omega) (by omega)]
  simp only [decodeFields, decodeThree, decodeImmediate]
  rw [show w / 0x10000 % 0x100 = k.toNat by omega, show w % 0x10000 = i.toNat by omega, RoundTrip.need_ok hw]
  refine congrArg Except.ok ?_
  congr 1 <;> exact RoundTrip.ofNat_of (by omega)

theorem RoundTrip.br (m : BitVec 1) (c : BitVec 4) (o : BitVec 20) : RoundTrip.Statement (.br m c o) := by
  intro hw w hx
  replace hw : (decide (c.toNat ≤ 3)) = true := hw
  replace hx := Option.some.inj hx
  simp only [packFields] at hx
  have := c.isLt
  have := o.isLt
  simp only [Bool.and_eq_true, decide_eq_true_eq] at hw
  rw [RoundTrip.decodeWord_of (m := m) (M := 0x20) (d := c.toNat * 16 + o.toNat / 65536) (a := o.toNat / 256 % 256) (b := o.toNat % 256) (by decide) (by omega) (by omega) (by omega) (by omega)]
  simp only [decodeFields, decodeThree, decodeImmediate]
  repeat first
    | rw [RoundTrip.zero_ok (by omega)]
    | rw [RoundTrip.need_ok (by first | (simp; done) | (simp; omega) | assumption)]
    | rw [if_pos (by omega)]
    | rw [if_neg (by omega)]
  refine congrArg Except.ok ?_
  congr 1 <;> exact RoundTrip.ofNat_of (by omega)

theorem RoundTrip.call (m : BitVec 1) (o : BitVec 20) : RoundTrip.Statement (.call m o) := by
  intro _ w hx
  replace hx := Option.some.inj hx
  simp only [packFields] at hx
  have := o.isLt
  rw [RoundTrip.decodeWord_of (m := m) (M := 0x21) (d := o.toNat / 65536) (a := o.toNat / 256 % 256) (b := o.toNat % 256) (by decide) (by omega) (by omega) (by omega) (by omega)]
  simp only [decodeFields, decodeThree, decodeImmediate]
  repeat first
    | rw [RoundTrip.zero_ok (by omega)]
    | rw [RoundTrip.need_ok (by first | (simp; done) | (simp; omega) | assumption)]
    | rw [if_pos (by omega)]
    | rw [if_neg (by omega)]
  refine congrArg Except.ok ?_
  congr 1 <;> exact RoundTrip.ofNat_of (by omega)

theorem RoundTrip.brd (m : BitVec 1) (k : BitVec 4) (o : BitVec 20) : RoundTrip.Statement (.brd m k o) := by
  intro _ w hx
  replace hx := Option.some.inj hx
  simp only [packFields] at hx
  have := k.isLt
  have := o.isLt
  rw [RoundTrip.decodeWord_of (m := m) (M := 0x22) (d := k.toNat * 16 + o.toNat / 65536) (a := o.toNat / 256 % 256) (b := o.toNat % 256) (by decide) (by omega) (by omega) (by omega) (by omega)]
  simp only [decodeFields, decodeThree, decodeImmediate]
  repeat first
    | rw [RoundTrip.zero_ok (by omega)]
    | rw [RoundTrip.need_ok (by first | (simp; done) | (simp; omega) | assumption)]
    | rw [if_pos (by omega)]
    | rw [if_neg (by omega)]
  refine congrArg Except.ok ?_
  congr 1 <;> exact RoundTrip.ofNat_of (by omega)

theorem RoundTrip.join (m : BitVec 1) (k : BitVec 4) : RoundTrip.Statement (.join m k) := by
  intro _ w hx
  replace hx := Option.some.inj hx
  simp only [packFields] at hx
  have := k.isLt
  rw [RoundTrip.decodeWord_of (m := m) (M := 0x23) (d := k.toNat * 16) (a := 0) (b := 0) (by decide) (by omega) (by omega) (by omega) (by omega)]
  simp only [decodeFields, decodeThree, decodeImmediate]
  repeat first
    | rw [RoundTrip.zero_ok (by omega)]
    | rw [RoundTrip.need_ok (by first | (simp; done) | (simp; omega) | assumption)]
    | rw [if_pos (by omega)]
    | rw [if_neg (by omega)]
  refine congrArg Except.ok ?_
  congr 1 <;> exact RoundTrip.ofNat_of (by omega)

theorem RoundTrip.loop (m : BitVec 1) (a : BitVec 8) (l : BitVec 8) : RoundTrip.Statement (.loop m a l) := by
  intro _ w hx
  replace hx := Option.some.inj hx
  simp only [packFields] at hx
  have := a.isLt
  have := l.isLt
  rw [RoundTrip.decodeWord_of (m := m) (M := 0x24) (d := a.toNat) (a := l.toNat) (b := 0) (by decide) (by omega) (by omega) (by omega) (by omega)]
  simp only [decodeFields, decodeThree, decodeImmediate]
  repeat first
    | rw [RoundTrip.zero_ok (by omega)]
    | rw [RoundTrip.need_ok (by first | (simp; done) | (simp; omega) | assumption)]
    | rw [if_pos (by omega)]
    | rw [if_neg (by omega)]
  refine congrArg Except.ok ?_
  congr 1 <;> exact RoundTrip.ofNat_of (by omega)

theorem RoundTrip.choice (m : BitVec 1) (o : BitVec 20) : RoundTrip.Statement (.choice m o) := by
  intro _ w hx
  replace hx := Option.some.inj hx
  simp only [packFields] at hx
  have := o.isLt
  rw [RoundTrip.decodeWord_of (m := m) (M := 0x25) (d := o.toNat / 65536) (a := o.toNat / 256 % 256) (b := o.toNat % 256) (by decide) (by omega) (by omega) (by omega) (by omega)]
  simp only [decodeFields, decodeThree, decodeImmediate]
  repeat first
    | rw [RoundTrip.zero_ok (by omega)]
    | rw [RoundTrip.need_ok (by first | (simp; done) | (simp; omega) | assumption)]
    | rw [if_pos (by omega)]
    | rw [if_neg (by omega)]
  refine congrArg Except.ok ?_
  congr 1 <;> exact RoundTrip.ofNat_of (by omega)

theorem RoundTrip.jmpr (m : BitVec 1) (d : BitVec 8) (a : BitVec 8) : RoundTrip.Statement (.jmpr m d a) := by
  intro _ w hx
  replace hx := Option.some.inj hx
  simp only [packFields] at hx
  have := d.isLt
  have := a.isLt
  rw [RoundTrip.decodeWord_of (m := m) (M := 0x26) (d := d.toNat) (a := a.toNat) (b := 0) (by decide) (by omega) (by omega) (by omega) (by omega)]
  refine Eq.trans (b := Except.ok (.jmpr m (BitVec.ofNat 8 d.toNat) (BitVec.ofNat 8 a.toNat))) rfl ?_
  simp only [BitVec.ofNat_toNat, BitVec.setWidth_eq]

theorem RoundTrip.nop (m : BitVec 1) : RoundTrip.Statement (.nop m) := by
  intro _ w hx
  replace hx := Option.some.inj hx
  simp only [packFields] at hx
  rw [RoundTrip.decodeWord_of (m := m) (M := 0x28) (d := 0) (a := 0) (b := 0) (by decide) (by omega) (by omega) (by omega) (by omega)]
  rfl

theorem RoundTrip.endI (m : BitVec 1) : RoundTrip.Statement (.endI m) := by
  intro _ w hx
  replace hx := Option.some.inj hx
  simp only [packFields] at hx
  rw [RoundTrip.decodeWord_of (m := m) (M := 0x28) (d := 0) (a := 0) (b := 1) (by decide) (by omega) (by omega) (by omega) (by omega)]
  rfl

theorem RoundTrip.sys (m : BitVec 1) (n : BitVec 8) : RoundTrip.Statement (.sys m n) := by
  intro _ w hx
  replace hx := Option.some.inj hx
  simp only [packFields] at hx
  have := n.isLt
  rw [RoundTrip.decodeWord_of (m := m) (M := 0x28) (d := n.toNat) (a := 0) (b := 2) (by decide) (by omega) (by omega) (by omega) (by omega)]
  refine Eq.trans (b := Except.ok (.sys m (BitVec.ofNat 8 n.toNat))) rfl ?_
  simp only [BitVec.ofNat_toNat, BitVec.setWidth_eq]

theorem RoundTrip.tret (m : BitVec 1) : RoundTrip.Statement (.tret m) := by
  intro _ w hx
  replace hx := Option.some.inj hx
  simp only [packFields] at hx
  rw [RoundTrip.decodeWord_of (m := m) (M := 0x28) (d := 0) (a := 0) (b := 3) (by decide) (by omega) (by omega) (by omega) (by omega)]
  rfl

theorem RoundTrip.rdsr (m : BitVec 1) (d : BitVec 8) (a : BitVec 8) : RoundTrip.Statement (.rdsr m d a) := by
  intro _ w hx
  replace hx := Option.some.inj hx
  simp only [packFields] at hx
  have := d.isLt
  have := a.isLt
  rw [RoundTrip.decodeWord_of (m := m) (M := 0x28) (d := d.toNat) (a := a.toNat) (b := 4) (by decide) (by omega) (by omega) (by omega) (by omega)]
  refine Eq.trans (b := Except.ok (.rdsr m (BitVec.ofNat 8 d.toNat) (BitVec.ofNat 8 a.toNat))) rfl ?_
  simp only [BitVec.ofNat_toNat, BitVec.setWidth_eq]

theorem RoundTrip.wrsr (m : BitVec 1) (d : BitVec 8) (a : BitVec 8) : RoundTrip.Statement (.wrsr m d a) := by
  intro _ w hx
  replace hx := Option.some.inj hx
  simp only [packFields] at hx
  have := d.isLt
  have := a.isLt
  rw [RoundTrip.decodeWord_of (m := m) (M := 0x28) (d := d.toNat) (a := a.toNat) (b := 5) (by decide) (by omega) (by omega) (by omega) (by omega)]
  refine Eq.trans (b := Except.ok (.wrsr m (BitVec.ofNat 8 d.toNat) (BitVec.ofNat 8 a.toNat))) rfl ?_
  simp only [BitVec.ofNat_toNat, BitVec.setWidth_eq]

theorem RoundTrip.getcyc (m : BitVec 1) (d : BitVec 8) : RoundTrip.Statement (.getcyc m d) := by
  intro _ w hx
  replace hx := Option.some.inj hx
  simp only [packFields] at hx
  have := d.isLt
  rw [RoundTrip.decodeWord_of (m := m) (M := 0x28) (d := d.toNat) (a := 0) (b := 6) (by decide) (by omega) (by omega) (by omega) (by omega)]
  refine Eq.trans (b := Except.ok (.getcyc m (BitVec.ofNat 8 d.toNat))) rfl ?_
  simp only [BitVec.ofNat_toNat, BitVec.setWidth_eq]

theorem RoundTrip.icinv (m : BitVec 1) : RoundTrip.Statement (.icinv m) := by
  intro _ w hx
  replace hx := Option.some.inj hx
  simp only [packFields] at hx
  rw [RoundTrip.decodeWord_of (m := m) (M := 0x28) (d := 0) (a := 0) (b := 7) (by decide) (by omega) (by omega) (by omega) (by omega)]
  rfl

theorem RoundTrip.exit (m : BitVec 1) : RoundTrip.Statement (.exit m) := by
  intro _ w hx
  replace hx := Option.some.inj hx
  simp only [packFields] at hx
  rw [RoundTrip.decodeWord_of (m := m) (M := 0x28) (d := 0) (a := 0) (b := 8) (by decide) (by omega) (by omega) (by omega) (by omega)]
  rfl

theorem RoundTrip.ret (m : BitVec 1) : RoundTrip.Statement (.ret m) := by
  intro _ w hx
  replace hx := Option.some.inj hx
  simp only [packFields] at hx
  rw [RoundTrip.decodeWord_of (m := m) (M := 0x28) (d := 0) (a := 0) (b := 9) (by decide) (by omega) (by omega) (by omega) (by omega)]
  rfl

theorem RoundTrip.setmoder (m : BitVec 1) (k : BitVec 8) (a : BitVec 8) : RoundTrip.Statement (.setmoder m k a) := by
  intro hw w hx
  replace hw : (decide (k.toNat ≤ 2)) = true := hw
  replace hx := Option.some.inj hx
  simp only [packFields] at hx
  have := k.isLt
  have := a.isLt
  simp only [Bool.and_eq_true, decide_eq_true_eq] at hw
  rw [RoundTrip.decodeWord_of (m := m) (M := 0x28) (d := k.toNat) (a := a.toNat) (b := 10) (by decide) (by omega) (by omega) (by omega) (by omega)]
  simp only [decodeFields, decodeThree, decodeSystem]
  repeat first
    | rw [RoundTrip.zero_ok (by omega)]
    | rw [RoundTrip.need_ok (by first | (simp; done) | (simp; omega) | assumption)]
    | rw [if_pos (by omega)]
    | rw [if_neg (by omega)]
  refine congrArg Except.ok ?_
  congr 1 <;> exact RoundTrip.ofNat_of (by omega)

theorem RoundTrip.getmode (m : BitVec 1) (d : BitVec 8) : RoundTrip.Statement (.getmode m d) := by
  intro _ w hx
  replace hx := Option.some.inj hx
  simp only [packFields] at hx
  have := d.isLt
  rw [RoundTrip.decodeWord_of (m := m) (M := 0x28) (d := d.toNat) (a := 0) (b := 11) (by decide) (by omega) (by omega) (by omega) (by omega)]
  refine Eq.trans (b := Except.ok (.getmode m (BitVec.ofNat 8 d.toNat))) rfl ?_
  simp only [BitVec.ofNat_toNat, BitVec.setWidth_eq]

theorem RoundTrip.waitt (m : BitVec 1) (a : BitVec 8) : RoundTrip.Statement (.waitt m a) := by
  intro _ w hx
  replace hx := Option.some.inj hx
  simp only [packFields] at hx
  have := a.isLt
  rw [RoundTrip.decodeWord_of (m := m) (M := 0x28) (d := 0) (a := a.toNat) (b := 12) (by decide) (by omega) (by omega) (by omega) (by omega)]
  refine Eq.trans (b := Except.ok (.waitt m (BitVec.ofNat 8 a.toNat))) rfl ?_
  simp only [BitVec.ofNat_toNat, BitVec.setWidth_eq]

theorem RoundTrip.brk (m : BitVec 1) (n : BitVec 8) : RoundTrip.Statement (.brk m n) := by
  intro _ w hx
  replace hx := Option.some.inj hx
  simp only [packFields] at hx
  have := n.isLt
  rw [RoundTrip.decodeWord_of (m := m) (M := 0x28) (d := n.toNat) (a := 0) (b := 13) (by decide) (by omega) (by omega) (by omega) (by omega)]
  refine Eq.trans (b := Except.ok (.brk m (BitVec.ofNat 8 n.toNat))) rfl ?_
  simp only [BitVec.ofNat_toNat, BitVec.setWidth_eq]

theorem RoundTrip.shfl (m : BitVec 1) (d : BitVec 8) (a : BitVec 8) (b : BitVec 8) : RoundTrip.Statement (.shfl m d a b) :=
  fun _ _ h => RoundTrip.three (M := 0x29) (by decide) h rfl rfl

theorem RoundTrip.shflx (m : BitVec 1) (d : BitVec 8) (a : BitVec 8) (b : BitVec 8) : RoundTrip.Statement (.shflx m d a b) :=
  fun _ _ h => RoundTrip.three (M := 0x2A) (by decide) h rfl rfl

theorem RoundTrip.shflup (m : BitVec 1) (d : BitVec 8) (a : BitVec 8) (n : BitVec 6) : RoundTrip.Statement (.shflup m d a n) := by
  intro _ w hx
  replace hx := Option.some.inj hx
  simp only [packFields] at hx
  have := d.isLt
  have := a.isLt
  have := n.isLt
  rw [RoundTrip.decodeWord_of (m := m) (M := 0x2B) (d := d.toNat) (a := a.toNat) (b := n.toNat) (by decide) (by omega) (by omega) (by omega) (by omega)]
  simp only [decodeFields, decodeThree, decodeXl]
  repeat first
    | rw [RoundTrip.zero_ok (by omega)]
    | rw [RoundTrip.need_ok (by first | (simp; done) | (simp; omega) | assumption)]
    | rw [if_pos (by omega)]
    | rw [if_neg (by omega)]
  refine congrArg Except.ok ?_
  congr 1 <;> exact RoundTrip.ofNat_of (by omega)

theorem RoundTrip.shfldn (m : BitVec 1) (d : BitVec 8) (a : BitVec 8) (n : BitVec 6) : RoundTrip.Statement (.shfldn m d a n) := by
  intro _ w hx
  replace hx := Option.some.inj hx
  simp only [packFields] at hx
  have := d.isLt
  have := a.isLt
  have := n.isLt
  rw [RoundTrip.decodeWord_of (m := m) (M := 0x2B) (d := d.toNat) (a := a.toNat) (b := n.toNat + 64) (by decide) (by omega) (by omega) (by omega) (by omega)]
  simp only [decodeFields, decodeThree, decodeXl]
  repeat first
    | rw [RoundTrip.zero_ok (by omega)]
    | rw [RoundTrip.need_ok (by first | (simp; done) | (simp; omega) | assumption)]
    | rw [if_pos (by omega)]
    | rw [if_neg (by omega)]
  refine congrArg Except.ok ?_
  congr 1 <;> exact RoundTrip.ofNat_of (by omega)

theorem RoundTrip.voteall (m : BitVec 1) (p : BitVec 3) : RoundTrip.Statement (.voteall m p) := by
  intro hw w hx
  replace hw : (p != 0) = true := hw
  replace hx := Option.some.inj hx
  simp only [packFields] at hx
  have := p.isLt
  have hn : p.toNat ≠ 0 := RoundTrip.toNat_ne hw
  rw [RoundTrip.decodeWord_of (m := m) (M := 0x2B) (d := p.toNat) (a := 0) (b := 128) (by decide) (by omega) (by omega) (by omega) (by omega)]
  simp only [decodeFields, decodeThree, decodeXl]
  repeat first
    | rw [RoundTrip.zero_ok (by omega)]
    | rw [RoundTrip.need_ok (by first | (simp; done) | (simp; omega) | assumption)]
    | rw [if_pos (by omega)]
    | rw [if_neg (by omega)]
  refine congrArg Except.ok ?_
  congr 1 <;> exact RoundTrip.ofNat_of (by omega)

theorem RoundTrip.voteany (m : BitVec 1) (p : BitVec 3) : RoundTrip.Statement (.voteany m p) := by
  intro hw w hx
  replace hw : (p != 0) = true := hw
  replace hx := Option.some.inj hx
  simp only [packFields] at hx
  have := p.isLt
  have hn : p.toNat ≠ 0 := RoundTrip.toNat_ne hw
  rw [RoundTrip.decodeWord_of (m := m) (M := 0x2B) (d := p.toNat) (a := 0) (b := 129) (by decide) (by omega) (by omega) (by omega) (by omega)]
  simp only [decodeFields, decodeThree, decodeXl]
  repeat first
    | rw [RoundTrip.zero_ok (by omega)]
    | rw [RoundTrip.need_ok (by first | (simp; done) | (simp; omega) | assumption)]
    | rw [if_pos (by omega)]
    | rw [if_neg (by omega)]
  refine congrArg Except.ok ?_
  congr 1 <;> exact RoundTrip.ofNat_of (by omega)

theorem RoundTrip.ballot (m : BitVec 1) (d : BitVec 8) : RoundTrip.Statement (.ballot m d) := by
  intro _ w hx
  replace hx := Option.some.inj hx
  simp only [packFields] at hx
  have := d.isLt
  rw [RoundTrip.decodeWord_of (m := m) (M := 0x2B) (d := d.toNat) (a := 0) (b := 130) (by decide) (by omega) (by omega) (by omega) (by omega)]
  refine Eq.trans (b := Except.ok (.ballot m (BitVec.ofNat 8 d.toNat))) rfl ?_
  simp only [BitVec.ofNat_toNat, BitVec.setWidth_eq]

theorem RoundTrip.mbcnt (m : BitVec 1) (d : BitVec 8) (a : BitVec 8) : RoundTrip.Statement (.mbcnt m d a) := by
  intro _ w hx
  replace hx := Option.some.inj hx
  simp only [packFields] at hx
  have := d.isLt
  have := a.isLt
  rw [RoundTrip.decodeWord_of (m := m) (M := 0x2B) (d := d.toNat) (a := a.toNat) (b := 131) (by decide) (by omega) (by omega) (by omega) (by omega)]
  refine Eq.trans (b := Except.ok (.mbcnt m (BitVec.ofNat 8 d.toNat) (BitVec.ofNat 8 a.toNat))) rfl ?_
  simp only [BitVec.ofNat_toNat, BitVec.setWidth_eq]

theorem RoundTrip.firstlane (m : BitVec 1) (d : BitVec 8) (a : BitVec 8) : RoundTrip.Statement (.firstlane m d a) := by
  intro _ w hx
  replace hx := Option.some.inj hx
  simp only [packFields] at hx
  have := d.isLt
  have := a.isLt
  rw [RoundTrip.decodeWord_of (m := m) (M := 0x2B) (d := d.toNat) (a := a.toNat) (b := 132) (by decide) (by omega) (by omega) (by omega) (by omega)]
  refine Eq.trans (b := Except.ok (.firstlane m (BitVec.ofNat 8 d.toNat) (BitVec.ofNat 8 a.toNat))) rfl ?_
  simp only [BitVec.ofNat_toNat, BitVec.setWidth_eq]

theorem RoundTrip.rsum (m : BitVec 1) (d : BitVec 8) (a : BitVec 8) (f : BitVec 1) : RoundTrip.Statement (.rsum m d a f) := by
  intro _ w hx
  replace hx := Option.some.inj hx
  simp only [packFields] at hx
  have := d.isLt
  have := a.isLt
  have := f.isLt
  rw [RoundTrip.decodeWord_of (m := m) (M := 0x2C) (d := d.toNat) (a := a.toNat) (b := f.toNat) (by decide) (by omega) (by omega) (by omega) (by omega)]
  simp only [decodeFields, decodeThree, decodeFixed]
  repeat first
    | rw [RoundTrip.zero_ok (by omega)]
    | rw [RoundTrip.need_ok (by first | (simp; done) | (simp; omega) | assumption)]
    | rw [if_pos (by omega)]
    | rw [if_neg (by omega)]
  refine congrArg Except.ok ?_
  congr 1 <;> exact RoundTrip.ofNat_of (by omega)

theorem RoundTrip.scans (m : BitVec 1) (d : BitVec 8) (a : BitVec 8) (f : BitVec 1) : RoundTrip.Statement (.scans m d a f) := by
  intro _ w hx
  replace hx := Option.some.inj hx
  simp only [packFields] at hx
  have := d.isLt
  have := a.isLt
  have := f.isLt
  rw [RoundTrip.decodeWord_of (m := m) (M := 0x2D) (d := d.toNat) (a := a.toNat) (b := f.toNat) (by decide) (by omega) (by omega) (by omega) (by omega)]
  simp only [decodeFields, decodeThree, decodeFixed]
  repeat first
    | rw [RoundTrip.zero_ok (by omega)]
    | rw [RoundTrip.need_ok (by first | (simp; done) | (simp; omega) | assumption)]
    | rw [if_pos (by omega)]
    | rw [if_neg (by omega)]
  refine congrArg Except.ok ?_
  congr 1 <;> exact RoundTrip.ofNat_of (by omega)

theorem RoundTrip.bar (m : BitVec 1) (k : BitVec 2) : RoundTrip.Statement (.bar m k) := by
  intro _ w hx
  replace hx := Option.some.inj hx
  simp only [packFields] at hx
  have := k.isLt
  rw [RoundTrip.decodeWord_of (m := m) (M := 0x2E) (d := 0) (a := 0) (b := k.toNat) (by decide) (by omega) (by omega) (by omega) (by omega)]
  simp only [decodeFields, decodeThree, decodeBarrier]
  repeat first
    | rw [RoundTrip.zero_ok (by omega)]
    | rw [RoundTrip.need_ok (by first | (simp; done) | (simp; omega) | assumption)]
    | rw [if_pos (by omega)]
    | rw [if_neg (by omega)]
  refine congrArg Except.ok ?_
  congr 1 <;> exact RoundTrip.ofNat_of (by omega)

theorem RoundTrip.bara (m : BitVec 1) (k : BitVec 2) : RoundTrip.Statement (.bara m k) := by
  intro _ w hx
  replace hx := Option.some.inj hx
  simp only [packFields] at hx
  have := k.isLt
  rw [RoundTrip.decodeWord_of (m := m) (M := 0x2E) (d := 0) (a := 0) (b := k.toNat + 4) (by decide) (by omega) (by omega) (by omega) (by omega)]
  simp only [decodeFields, decodeThree, decodeBarrier]
  repeat first
    | rw [RoundTrip.zero_ok (by omega)]
    | rw [RoundTrip.need_ok (by first | (simp; done) | (simp; omega) | assumption)]
    | rw [if_pos (by omega)]
    | rw [if_neg (by omega)]
  refine congrArg Except.ok ?_
  congr 1 <;> exact RoundTrip.ofNat_of (by omega)

theorem RoundTrip.barw (m : BitVec 1) (k : BitVec 2) : RoundTrip.Statement (.barw m k) := by
  intro _ w hx
  replace hx := Option.some.inj hx
  simp only [packFields] at hx
  have := k.isLt
  rw [RoundTrip.decodeWord_of (m := m) (M := 0x2E) (d := 0) (a := 0) (b := k.toNat + 8) (by decide) (by omega) (by omega) (by omega) (by omega)]
  simp only [decodeFields, decodeThree, decodeBarrier]
  repeat first
    | rw [RoundTrip.zero_ok (by omega)]
    | rw [RoundTrip.need_ok (by first | (simp; done) | (simp; omega) | assumption)]
    | rw [if_pos (by omega)]
    | rw [if_neg (by omega)]
  refine congrArg Except.ok ?_
  congr 1 <;> exact RoundTrip.ofNat_of (by omega)

theorem RoundTrip.dqpush (m : BitVec 1) (a : BitVec 8) : RoundTrip.Statement (.dqpush m a) := by
  intro _ w hx
  replace hx := Option.some.inj hx
  simp only [packFields] at hx
  have := a.isLt
  rw [RoundTrip.decodeWord_of (m := m) (M := 0x2F) (d := 0) (a := a.toNat) (b := 0) (by decide) (by omega) (by omega) (by omega) (by omega)]
  refine Eq.trans (b := Except.ok (.dqpush m (BitVec.ofNat 8 a.toNat))) rfl ?_
  simp only [BitVec.ofNat_toNat, BitVec.setWidth_eq]

theorem RoundTrip.dqpop (m : BitVec 1) (d : BitVec 8) : RoundTrip.Statement (.dqpop m d) := by
  intro _ w hx
  replace hx := Option.some.inj hx
  simp only [packFields] at hx
  have := d.isLt
  rw [RoundTrip.decodeWord_of (m := m) (M := 0x2F) (d := d.toNat) (a := 0) (b := 1) (by decide) (by omega) (by omega) (by omega) (by omega)]
  refine Eq.trans (b := Except.ok (.dqpop m (BitVec.ofNat 8 d.toNat))) rfl ?_
  simp only [BitVec.ofNat_toNat, BitVec.setWidth_eq]

theorem RoundTrip.dqpeek (m : BitVec 1) (d : BitVec 8) : RoundTrip.Statement (.dqpeek m d) := by
  intro _ w hx
  replace hx := Option.some.inj hx
  simp only [packFields] at hx
  have := d.isLt
  rw [RoundTrip.decodeWord_of (m := m) (M := 0x2F) (d := d.toNat) (a := 0) (b := 2) (by decide) (by omega) (by omega) (by omega) (by omega)]
  refine Eq.trans (b := Except.ok (.dqpeek m (BitVec.ofNat 8 d.toNat))) rfl ?_
  simp only [BitVec.ofNat_toNat, BitVec.setWidth_eq]

theorem RoundTrip.spawn (m : BitVec 1) (a : BitVec 8) (b : BitVec 8) : RoundTrip.Statement (.spawn m a b) := by
  intro _ w hx
  replace hx := Option.some.inj hx
  simp only [packFields] at hx
  have := a.isLt
  have := b.isLt
  rw [RoundTrip.decodeWord_of (m := m) (M := 0x30) (d := 0) (a := a.toNat) (b := b.toNat) (by decide) (by omega) (by omega) (by omega) (by omega)]
  refine Eq.trans (b := Except.ok (.spawn m (BitVec.ofNat 8 a.toNat) (BitVec.ofNat 8 b.toNat))) rfl ?_
  simp only [BitVec.ofNat_toNat, BitVec.setWidth_eq]

theorem RoundTrip.tdone (m : BitVec 1) (a : BitVec 8) : RoundTrip.Statement (.tdone m a) := by
  intro _ w hx
  replace hx := Option.some.inj hx
  simp only [packFields] at hx
  have := a.isLt
  rw [RoundTrip.decodeWord_of (m := m) (M := 0x31) (d := 0) (a := a.toNat) (b := 0) (by decide) (by omega) (by omega) (by omega) (by omega)]
  refine Eq.trans (b := Except.ok (.tdone m (BitVec.ofNat 8 a.toNat))) rfl ?_
  simp only [BitVec.ofNat_toNat, BitVec.setWidth_eq]

theorem RoundTrip.qpop (m : BitVec 1) (d : BitVec 8) (a : BitVec 8) : RoundTrip.Statement (.qpop m d a) := by
  intro _ w hx
  replace hx := Option.some.inj hx
  simp only [packFields] at hx
  have := d.isLt
  have := a.isLt
  rw [RoundTrip.decodeWord_of (m := m) (M := 0x32) (d := d.toNat) (a := a.toNat) (b := 0) (by decide) (by omega) (by omega) (by omega) (by omega)]
  refine Eq.trans (b := Except.ok (.qpop m (BitVec.ofNat 8 d.toNat) (BitVec.ofNat 8 a.toNat))) rfl ?_
  simp only [BitVec.ofNat_toNat, BitVec.setWidth_eq]

theorem RoundTrip.setgang (m : BitVec 1) (a : BitVec 8) : RoundTrip.Statement (.setgang m a) := by
  intro _ w hx
  replace hx := Option.some.inj hx
  simp only [packFields] at hx
  have := a.isLt
  rw [RoundTrip.decodeWord_of (m := m) (M := 0x33) (d := 0) (a := a.toNat) (b := 0) (by decide) (by omega) (by omega) (by omega) (by omega)]
  refine Eq.trans (b := Except.ok (.setgang m (BitVec.ofNat 8 a.toNat))) rfl ?_
  simp only [BitVec.ofNat_toNat, BitVec.setWidth_eq]

theorem RoundTrip.adoptq (m : BitVec 1) (d : BitVec 8) (a : BitVec 8) : RoundTrip.Statement (.adoptq m d a) := by
  intro _ w hx
  replace hx := Option.some.inj hx
  simp only [packFields] at hx
  have := d.isLt
  have := a.isLt
  rw [RoundTrip.decodeWord_of (m := m) (M := 0x34) (d := d.toNat) (a := a.toNat) (b := 0) (by decide) (by omega) (by omega) (by omega) (by omega)]
  refine Eq.trans (b := Except.ok (.adoptq m (BitVec.ofNat 8 d.toNat) (BitVec.ofNat 8 a.toNat))) rfl ?_
  simp only [BitVec.ofNat_toNat, BitVec.setWidth_eq]

theorem RoundTrip.offer (m : BitVec 1) (d : BitVec 8) : RoundTrip.Statement (.offer m d) := by
  intro _ w hx
  replace hx := Option.some.inj hx
  simp only [packFields] at hx
  have := d.isLt
  rw [RoundTrip.decodeWord_of (m := m) (M := 0x35) (d := d.toNat) (a := 0) (b := 0) (by decide) (by omega) (by omega) (by omega) (by omega)]
  refine Eq.trans (b := Except.ok (.offer m (BitVec.ofNat 8 d.toNat))) rfl ?_
  simp only [BitVec.ofNat_toNat, BitVec.setWidth_eq]

theorem RoundTrip.vwin (m : BitVec 1) (a : BitVec 8) (b : BitVec 8) : RoundTrip.Statement (.vwin m a b) := by
  intro _ w hx
  replace hx := Option.some.inj hx
  simp only [packFields] at hx
  have := a.isLt
  have := b.isLt
  rw [RoundTrip.decodeWord_of (m := m) (M := 0x36) (d := 0) (a := a.toNat) (b := b.toNat) (by decide) (by omega) (by omega) (by omega) (by omega)]
  refine Eq.trans (b := Except.ok (.vwin m (BitVec.ofNat 8 a.toNat) (BitVec.ofNat 8 b.toNat))) rfl ?_
  simp only [BitVec.ofNat_toNat, BitVec.setWidth_eq]

theorem RoundTrip.tagof (m : BitVec 1) (d : BitVec 8) (a : BitVec 8) : RoundTrip.Statement (.tagof m d a) := by
  intro _ w hx
  replace hx := Option.some.inj hx
  simp only [packFields] at hx
  have := d.isLt
  have := a.isLt
  rw [RoundTrip.decodeWord_of (m := m) (M := 0x38) (d := d.toNat) (a := a.toNat) (b := 0) (by decide) (by omega) (by omega) (by omega) (by omega)]
  refine Eq.trans (b := Except.ok (.tagof m (BitVec.ofNat 8 d.toNat) (BitVec.ofNat 8 a.toNat))) rfl ?_
  simp only [BitVec.ofNat_toNat, BitVec.setWidth_eq]

theorem RoundTrip.payld (m : BitVec 1) (d : BitVec 8) (a : BitVec 8) : RoundTrip.Statement (.payld m d a) := by
  intro _ w hx
  replace hx := Option.some.inj hx
  simp only [packFields] at hx
  have := d.isLt
  have := a.isLt
  rw [RoundTrip.decodeWord_of (m := m) (M := 0x38) (d := d.toNat) (a := a.toNat) (b := 1) (by decide) (by omega) (by omega) (by omega) (by omega)]
  refine Eq.trans (b := Except.ok (.payld m (BitVec.ofNat 8 d.toNat) (BitVec.ofNat 8 a.toNat))) rfl ?_
  simp only [BitVec.ofNat_toNat, BitVec.setWidth_eq]

theorem RoundTrip.mkterm (m : BitVec 1) (d : BitVec 8) (a : BitVec 8) (t : BitVec 3) : RoundTrip.Statement (.mkterm m d a t) := by
  intro _ w hx
  replace hx := Option.some.inj hx
  simp only [packFields] at hx
  have := d.isLt
  have := a.isLt
  have := t.isLt
  rw [RoundTrip.decodeWord_of (m := m) (M := 0x38) (d := d.toNat) (a := a.toNat) (b := t.toNat + 8) (by decide) (by omega) (by omega) (by omega) (by omega)]
  simp only [decodeFields, decodeThree, decodeTerm]
  split <;> first | omega | skip
  rw [RoundTrip.need_ok (by simp; omega)]
  refine congrArg Except.ok ?_
  congr 1 <;> exact RoundTrip.ofNat_of (by omega)

theorem RoundTrip.deref (m : BitVec 1) (d : BitVec 8) (a : BitVec 8) : RoundTrip.Statement (.deref m d a) := by
  intro _ w hx
  replace hx := Option.some.inj hx
  simp only [packFields] at hx
  have := d.isLt
  have := a.isLt
  rw [RoundTrip.decodeWord_of (m := m) (M := 0x38) (d := d.toNat) (a := a.toNat) (b := 16) (by decide) (by omega) (by omega) (by omega) (by omega)]
  refine Eq.trans (b := Except.ok (.deref m (BitVec.ofNat 8 d.toNat) (BitVec.ofNat 8 a.toNat))) rfl ?_
  simp only [BitVec.ofNat_toNat, BitVec.setWidth_eq]

theorem RoundTrip.getcp (m : BitVec 1) (d : BitVec 8) : RoundTrip.Statement (.getcp m d) := by
  intro _ w hx
  replace hx := Option.some.inj hx
  simp only [packFields] at hx
  have := d.isLt
  rw [RoundTrip.decodeWord_of (m := m) (M := 0x38) (d := d.toNat) (a := 0) (b := 17) (by decide) (by omega) (by omega) (by omega) (by omega)]
  refine Eq.trans (b := Except.ok (.getcp m (BitVec.ofNat 8 d.toNat))) rfl ?_
  simp only [BitVec.ofNat_toNat, BitVec.setWidth_eq]

theorem RoundTrip.gettr (m : BitVec 1) (d : BitVec 8) : RoundTrip.Statement (.gettr m d) := by
  intro _ w hx
  replace hx := Option.some.inj hx
  simp only [packFields] at hx
  have := d.isLt
  rw [RoundTrip.decodeWord_of (m := m) (M := 0x38) (d := d.toNat) (a := 0) (b := 18) (by decide) (by omega) (by omega) (by omega) (by omega)]
  refine Eq.trans (b := Except.ok (.gettr m (BitVec.ofNat 8 d.toNat))) rfl ?_
  simp only [BitVec.ofNat_toNat, BitVec.setWidth_eq]

theorem RoundTrip.unify (m : BitVec 1) (d : BitVec 8) (a : BitVec 8) (b : BitVec 8) : RoundTrip.Statement (.unify m d a b) :=
  fun _ _ h => RoundTrip.three (M := 0x39) (by decide) h rfl rfl

theorem RoundTrip.bind (m : BitVec 1) (d : BitVec 8) (a : BitVec 8) (b : BitVec 8) : RoundTrip.Statement (.bind m d a b) :=
  fun _ _ h => RoundTrip.three (M := 0x3A) (by decide) h rfl rfl

theorem RoundTrip.fail (m : BitVec 1) : RoundTrip.Statement (.fail m) := by
  intro _ w hx
  replace hx := Option.some.inj hx
  simp only [packFields] at hx
  rw [RoundTrip.decodeWord_of (m := m) (M := 0x3B) (d := 0) (a := 0) (b := 0) (by decide) (by omega) (by omega) (by omega) (by omega)]
  rfl

theorem RoundTrip.cut (m : BitVec 1) (a : BitVec 8) : RoundTrip.Statement (.cut m a) := by
  intro _ w hx
  replace hx := Option.some.inj hx
  simp only [packFields] at hx
  have := a.isLt
  rw [RoundTrip.decodeWord_of (m := m) (M := 0x3B) (d := 0) (a := a.toNat) (b := 1) (by decide) (by omega) (by omega) (by omega) (by omega)]
  refine Eq.trans (b := Except.ok (.cut m (BitVec.ofNat 8 a.toNat))) rfl ?_
  simp only [BitVec.ofNat_toNat, BitVec.setWidth_eq]

theorem RoundTrip.hnew (m : BitVec 1) (d : BitVec 8) (a : BitVec 8) : RoundTrip.Statement (.hnew m d a) := by
  intro _ w hx
  replace hx := Option.some.inj hx
  simp only [packFields] at hx
  have := d.isLt
  have := a.isLt
  rw [RoundTrip.decodeWord_of (m := m) (M := 0x3B) (d := d.toNat) (a := a.toNat) (b := 2) (by decide) (by omega) (by omega) (by omega) (by omega)]
  refine Eq.trans (b := Except.ok (.hnew m (BitVec.ofNat 8 d.toNat) (BitVec.ofNat 8 a.toNat))) rfl ?_
  simp only [BitVec.ofNat_toNat, BitVec.setWidth_eq]

theorem RoundTrip.newvar (m : BitVec 1) (d : BitVec 8) : RoundTrip.Statement (.newvar m d) := by
  intro _ w hx
  replace hx := Option.some.inj hx
  simp only [packFields] at hx
  have := d.isLt
  rw [RoundTrip.decodeWord_of (m := m) (M := 0x3B) (d := d.toNat) (a := 0) (b := 3) (by decide) (by omega) (by omega) (by omega) (by omega)]
  refine Eq.trans (b := Except.ok (.newvar m (BitVec.ofNat 8 d.toNat))) rfl ?_
  simp only [BitVec.ofNat_toNat, BitVec.setWidth_eq]

theorem RoundTrip.ldb (m : BitVec 1) (d : BitVec 8) (a : BitVec 8) (o : BitVec 8) : RoundTrip.Statement (.ldb m d a o) :=
  fun _ _ h => RoundTrip.three (M := 0x40) (by decide) h rfl rfl

theorem RoundTrip.ldh (m : BitVec 1) (d : BitVec 8) (a : BitVec 8) (o : BitVec 8) : RoundTrip.Statement (.ldh m d a o) :=
  fun _ _ h => RoundTrip.three (M := 0x41) (by decide) h rfl rfl

theorem RoundTrip.ldw (m : BitVec 1) (d : BitVec 8) (a : BitVec 8) (o : BitVec 8) : RoundTrip.Statement (.ldw m d a o) :=
  fun _ _ h => RoundTrip.three (M := 0x42) (by decide) h rfl rfl

theorem RoundTrip.ldd (m : BitVec 1) (d : BitVec 8) (a : BitVec 8) (o : BitVec 8) : RoundTrip.Statement (.ldd m d a o) :=
  fun _ _ h => RoundTrip.three (M := 0x43) (by decide) h rfl rfl

theorem RoundTrip.ldq (m : BitVec 1) (d : BitVec 8) (a : BitVec 8) (o : BitVec 8) : RoundTrip.Statement (.ldq m d a o) :=
  fun _ _ h => RoundTrip.three (M := 0x44) (by decide) h rfl rfl

theorem RoundTrip.stb (m : BitVec 1) (d : BitVec 8) (a : BitVec 8) (o : BitVec 8) : RoundTrip.Statement (.stb m d a o) :=
  fun _ _ h => RoundTrip.three (M := 0x45) (by decide) h rfl rfl

theorem RoundTrip.sth (m : BitVec 1) (d : BitVec 8) (a : BitVec 8) (o : BitVec 8) : RoundTrip.Statement (.sth m d a o) :=
  fun _ _ h => RoundTrip.three (M := 0x46) (by decide) h rfl rfl

theorem RoundTrip.stw (m : BitVec 1) (d : BitVec 8) (a : BitVec 8) (o : BitVec 8) : RoundTrip.Statement (.stw m d a o) :=
  fun _ _ h => RoundTrip.three (M := 0x47) (by decide) h rfl rfl

theorem RoundTrip.std (m : BitVec 1) (d : BitVec 8) (a : BitVec 8) (o : BitVec 8) : RoundTrip.Statement (.std m d a o) :=
  fun _ _ h => RoundTrip.three (M := 0x48) (by decide) h rfl rfl

theorem RoundTrip.stq (m : BitVec 1) (d : BitVec 8) (a : BitVec 8) (o : BitVec 8) : RoundTrip.Statement (.stq m d a o) :=
  fun _ _ h => RoundTrip.three (M := 0x49) (by decide) h rfl rfl

theorem RoundTrip.lda (m : BitVec 1) (d : BitVec 8) (a : BitVec 8) (o : BitVec 8) : RoundTrip.Statement (.lda m d a o) :=
  fun _ _ h => RoundTrip.three (M := 0x4A) (by decide) h rfl rfl

theorem RoundTrip.ldad (m : BitVec 1) (d : BitVec 8) (a : BitVec 8) (o : BitVec 8) : RoundTrip.Statement (.ldad m d a o) :=
  fun _ _ h => RoundTrip.three (M := 0x4B) (by decide) h rfl rfl

theorem RoundTrip.stl (m : BitVec 1) (d : BitVec 8) (a : BitVec 8) (o : BitVec 8) : RoundTrip.Statement (.stl m d a o) :=
  fun _ _ h => RoundTrip.three (M := 0x4C) (by decide) h rfl rfl

theorem RoundTrip.stld (m : BitVec 1) (d : BitVec 8) (a : BitVec 8) (o : BitVec 8) : RoundTrip.Statement (.stld m d a o) :=
  fun _ _ h => RoundTrip.three (M := 0x4D) (by decide) h rfl rfl

theorem RoundTrip.ldc (m : BitVec 1) (d : BitVec 8) (a : BitVec 8) (o : BitVec 8) : RoundTrip.Statement (.ldc m d a o) :=
  fun _ _ h => RoundTrip.three (M := 0x4E) (by decide) h rfl rfl

theorem RoundTrip.lds (m : BitVec 1) (d : BitVec 8) (a : BitVec 8) (o : BitVec 8) : RoundTrip.Statement (.lds m d a o) :=
  fun _ _ h => RoundTrip.three (M := 0x4F) (by decide) h rfl rfl

theorem RoundTrip.sts (m : BitVec 1) (d : BitVec 8) (a : BitVec 8) (o : BitVec 8) : RoundTrip.Statement (.sts m d a o) :=
  fun _ _ h => RoundTrip.three (M := 0x50) (by decide) h rfl rfl

theorem RoundTrip.fpush (m : BitVec 1) (d : BitVec 8) (a : BitVec 8) : RoundTrip.Statement (.fpush m d a) := by
  intro _ w hx
  replace hx := Option.some.inj hx
  simp only [packFields] at hx
  have := d.isLt
  have := a.isLt
  rw [RoundTrip.decodeWord_of (m := m) (M := 0x51) (d := d.toNat) (a := a.toNat) (b := 0) (by decide) (by omega) (by omega) (by omega) (by omega)]
  refine Eq.trans (b := Except.ok (.fpush m (BitVec.ofNat 8 d.toNat) (BitVec.ofNat 8 a.toNat))) rfl ?_
  simp only [BitVec.ofNat_toNat, BitVec.setWidth_eq]

theorem RoundTrip.fpop (m : BitVec 1) (d : BitVec 8) (a : BitVec 8) : RoundTrip.Statement (.fpop m d a) := by
  intro _ w hx
  replace hx := Option.some.inj hx
  simp only [packFields] at hx
  have := d.isLt
  have := a.isLt
  rw [RoundTrip.decodeWord_of (m := m) (M := 0x51) (d := d.toNat) (a := a.toNat) (b := 1) (by decide) (by omega) (by omega) (by omega) (by omega)]
  refine Eq.trans (b := Except.ok (.fpop m (BitVec.ofNat 8 d.toNat) (BitVec.ofNat 8 a.toNat))) rfl ?_
  simp only [BitVec.ofNat_toNat, BitVec.setWidth_eq]

theorem RoundTrip.ftrypop (m : BitVec 1) (d : BitVec 8) (a : BitVec 8) : RoundTrip.Statement (.ftrypop m d a) := by
  intro _ w hx
  replace hx := Option.some.inj hx
  simp only [packFields] at hx
  have := d.isLt
  have := a.isLt
  rw [RoundTrip.decodeWord_of (m := m) (M := 0x51) (d := d.toNat) (a := a.toNat) (b := 2) (by decide) (by omega) (by omega) (by omega) (by omega)]
  refine Eq.trans (b := Except.ok (.ftrypop m (BitVec.ofNat 8 d.toNat) (BitVec.ofNat 8 a.toNat))) rfl ?_
  simp only [BitVec.ofNat_toNat, BitVec.setWidth_eq]

theorem RoundTrip.atadd (m : BitVec 1) (d : BitVec 8) (a : BitVec 8) (b : BitVec 8) : RoundTrip.Statement (.atadd m d a b) :=
  fun _ _ h => RoundTrip.three (M := 0x52) (by decide) h rfl rfl

theorem RoundTrip.atmin (m : BitVec 1) (d : BitVec 8) (a : BitVec 8) (b : BitVec 8) : RoundTrip.Statement (.atmin m d a b) :=
  fun _ _ h => RoundTrip.three (M := 0x53) (by decide) h rfl rfl

theorem RoundTrip.atmax (m : BitVec 1) (d : BitVec 8) (a : BitVec 8) (b : BitVec 8) : RoundTrip.Statement (.atmax m d a b) :=
  fun _ _ h => RoundTrip.three (M := 0x54) (by decide) h rfl rfl

theorem RoundTrip.atand (m : BitVec 1) (d : BitVec 8) (a : BitVec 8) (b : BitVec 8) : RoundTrip.Statement (.atand m d a b) :=
  fun _ _ h => RoundTrip.three (M := 0x55) (by decide) h rfl rfl

theorem RoundTrip.ator (m : BitVec 1) (d : BitVec 8) (a : BitVec 8) (b : BitVec 8) : RoundTrip.Statement (.ator m d a b) :=
  fun _ _ h => RoundTrip.three (M := 0x56) (by decide) h rfl rfl

theorem RoundTrip.atxor (m : BitVec 1) (d : BitVec 8) (a : BitVec 8) (b : BitVec 8) : RoundTrip.Statement (.atxor m d a b) :=
  fun _ _ h => RoundTrip.three (M := 0x57) (by decide) h rfl rfl

theorem RoundTrip.atswp (m : BitVec 1) (d : BitVec 8) (a : BitVec 8) (b : BitVec 8) : RoundTrip.Statement (.atswp m d a b) :=
  fun _ _ h => RoundTrip.three (M := 0x58) (by decide) h rfl rfl

theorem RoundTrip.atcas (m : BitVec 1) (d : BitVec 8) (a : BitVec 8) (b : BitVec 8) : RoundTrip.Statement (.atcas m d a b) :=
  fun _ _ h => RoundTrip.three (M := 0x59) (by decide) h rfl rfl

theorem RoundTrip.atfadd (m : BitVec 1) (d : BitVec 8) (a : BitVec 8) (b : BitVec 8) : RoundTrip.Statement (.atfadd m d a b) :=
  fun _ _ h => RoundTrip.three (M := 0x5A) (by decide) h rfl rfl

theorem RoundTrip.atinc (m : BitVec 1) (d : BitVec 8) (a : BitVec 8) (b : BitVec 8) : RoundTrip.Statement (.atinc m d a b) :=
  fun _ _ h => RoundTrip.three (M := 0x5B) (by decide) h rfl rfl

theorem RoundTrip.fence (m : BitVec 1) (p : BitVec 1) (k : BitVec 2) : RoundTrip.Statement (.fence m p k) := by
  intro hw w hx
  replace hw : (k != 3) = true := hw
  replace hx := Option.some.inj hx
  simp only [packFields] at hx
  have := p.isLt
  have := k.isLt
  have hn : k.toNat ≠ 3 := RoundTrip.toNat_ne hw
  rw [RoundTrip.decodeWord_of (m := m) (M := 0x5C) (d := 0) (a := 0) (b := p.toNat * 4 + k.toNat) (by decide) (by omega) (by omega) (by omega) (by omega)]
  simp only [decodeFields, decodeThree, decodeFixed]
  repeat first
    | rw [RoundTrip.zero_ok (by omega)]
    | rw [RoundTrip.need_ok (by first | (simp; done) | (simp; omega) | assumption)]
    | rw [if_pos (by omega)]
    | rw [if_neg (by omega)]
  refine congrArg Except.ok ?_
  congr 1 <;> exact RoundTrip.ofNat_of (by omega)

theorem RoundTrip.pfence (m : BitVec 1) (p : BitVec 7) : RoundTrip.Statement (.pfence m p) := by
  intro hw w hx
  replace hw : (p != 0) = true := hw
  replace hx := Option.some.inj hx
  simp only [packFields] at hx
  have := p.isLt
  have hn : p.toNat ≠ 0 := RoundTrip.toNat_ne hw
  rw [RoundTrip.decodeWord_of (m := m) (M := 0x5D) (d := 0) (a := 0) (b := p.toNat) (by decide) (by omega) (by omega) (by omega) (by omega)]
  simp only [decodeFields, decodeThree, decodeFixed]
  repeat first
    | rw [RoundTrip.zero_ok (by omega)]
    | rw [RoundTrip.need_ok (by first | (simp; done) | (simp; omega) | assumption)]
    | rw [if_pos (by omega)]
    | rw [if_neg (by omega)]
  refine congrArg Except.ok ?_
  congr 1 <;> exact RoundTrip.ofNat_of (by omega)

theorem RoundTrip.cwb (m : BitVec 1) (d : BitVec 8) (a : BitVec 8) : RoundTrip.Statement (.cwb m d a) := by
  intro _ w hx
  replace hx := Option.some.inj hx
  simp only [packFields] at hx
  have := d.isLt
  have := a.isLt
  rw [RoundTrip.decodeWord_of (m := m) (M := 0x5E) (d := d.toNat) (a := a.toNat) (b := 0) (by decide) (by omega) (by omega) (by omega) (by omega)]
  refine Eq.trans (b := Except.ok (.cwb m (BitVec.ofNat 8 d.toNat) (BitVec.ofNat 8 a.toNat))) rfl ?_
  simp only [BitVec.ofNat_toNat, BitVec.setWidth_eq]

theorem RoundTrip.cinv (m : BitVec 1) (d : BitVec 8) (a : BitVec 8) : RoundTrip.Statement (.cinv m d a) := by
  intro _ w hx
  replace hx := Option.some.inj hx
  simp only [packFields] at hx
  have := d.isLt
  have := a.isLt
  rw [RoundTrip.decodeWord_of (m := m) (M := 0x5E) (d := d.toNat) (a := a.toNat) (b := 1) (by decide) (by omega) (by omega) (by omega) (by omega)]
  refine Eq.trans (b := Except.ok (.cinv m (BitVec.ofNat 8 d.toNat) (BitVec.ofNat 8 a.toNat))) rfl ?_
  simp only [BitVec.ofNat_toNat, BitVec.setWidth_eq]

theorem RoundTrip.cflush (m : BitVec 1) (d : BitVec 8) (a : BitVec 8) : RoundTrip.Statement (.cflush m d a) := by
  intro _ w hx
  replace hx := Option.some.inj hx
  simp only [packFields] at hx
  have := d.isLt
  have := a.isLt
  rw [RoundTrip.decodeWord_of (m := m) (M := 0x5E) (d := d.toNat) (a := a.toNat) (b := 2) (by decide) (by omega) (by omega) (by omega) (by omega)]
  refine Eq.trans (b := Except.ok (.cflush m (BitVec.ofNat 8 d.toNat) (BitVec.ofNat 8 a.toNat))) rfl ?_
  simp only [BitVec.ofNat_toNat, BitVec.setWidth_eq]

theorem RoundTrip.pref (m : BitVec 1) (a : BitVec 8) : RoundTrip.Statement (.pref m a) := by
  intro _ w hx
  replace hx := Option.some.inj hx
  simp only [packFields] at hx
  have := a.isLt
  rw [RoundTrip.decodeWord_of (m := m) (M := 0x5E) (d := 0) (a := a.toNat) (b := 3) (by decide) (by omega) (by omega) (by omega) (by omega)]
  refine Eq.trans (b := Except.ok (.pref m (BitVec.ofNat 8 a.toNat))) rfl ?_
  simp only [BitVec.ofNat_toNat, BitVec.setWidth_eq]

theorem RoundTrip.pin (m : BitVec 1) (d : BitVec 8) (a : BitVec 8) : RoundTrip.Statement (.pin m d a) := by
  intro _ w hx
  replace hx := Option.some.inj hx
  simp only [packFields] at hx
  have := d.isLt
  have := a.isLt
  rw [RoundTrip.decodeWord_of (m := m) (M := 0x5E) (d := d.toNat) (a := a.toNat) (b := 4) (by decide) (by omega) (by omega) (by omega) (by omega)]
  refine Eq.trans (b := Except.ok (.pin m (BitVec.ofNat 8 d.toNat) (BitVec.ofNat 8 a.toNat))) rfl ?_
  simp only [BitVec.ofNat_toNat, BitVec.setWidth_eq]

theorem RoundTrip.unpin (m : BitVec 1) (a : BitVec 8) : RoundTrip.Statement (.unpin m a) := by
  intro _ w hx
  replace hx := Option.some.inj hx
  simp only [packFields] at hx
  have := a.isLt
  rw [RoundTrip.decodeWord_of (m := m) (M := 0x5E) (d := 0) (a := a.toNat) (b := 5) (by decide) (by omega) (by omega) (by omega) (by omega)]
  refine Eq.trans (b := Except.ok (.unpin m (BitVec.ofNat 8 a.toNat))) rfl ?_
  simp only [BitVec.ofNat_toNat, BitVec.setWidth_eq]

theorem RoundTrip.sample (m : BitVec 1) (d : BitVec 8) (a : BitVec 8) (b : BitVec 8) : RoundTrip.Statement (.sample m d a b) :=
  fun _ _ h => RoundTrip.three (M := 0x5F) (by decide) h rfl rfl

theorem RoundTrip.bankmode (m : BitVec 1) (a : BitVec 8) (r : BitVec 4) (c : BitVec 5) : RoundTrip.Statement (.bankmode m a r c) := by
  intro hw w hx
  replace hw : (decide (r.toNat ≤ 7) && decide (c.toNat ≤ 7)) = true := hw
  replace hx := Option.some.inj hx
  simp only [packFields] at hx
  have := a.isLt
  have := r.isLt
  have := c.isLt
  simp only [Bool.and_eq_true, decide_eq_true_eq] at hw
  rw [RoundTrip.decodeWord_of (m := m) (M := 0x60) (d := a.toNat) (a := r.toNat * 16 + c.toNat / 2) (b := (c.toNat % 2) * 128) (by decide) (by omega) (by omega) (by omega) (by omega)]
  simp only [decodeFields, decodeThree, decodeGrid]
  rw [if_neg (by decide), show w % 128 = 0 by omega]
  simp only
  rw [RoundTrip.need_ok (by simp; omega)]
  refine congrArg Except.ok ?_
  congr 1 <;> exact RoundTrip.ofNat_of (by omega)

theorem RoundTrip.bankpwr (m : BitVec 1) (a : BitVec 8) (r : BitVec 4) (c : BitVec 5) : RoundTrip.Statement (.bankpwr m a r c) := by
  intro hw w hx
  replace hw : (decide (r.toNat ≤ 7) && decide (c.toNat ≤ 7)) = true := hw
  replace hx := Option.some.inj hx
  simp only [packFields] at hx
  have := a.isLt
  have := r.isLt
  have := c.isLt
  simp only [Bool.and_eq_true, decide_eq_true_eq] at hw
  rw [RoundTrip.decodeWord_of (m := m) (M := 0x60) (d := a.toNat) (a := r.toNat * 16 + c.toNat / 2) (b := (c.toNat % 2) * 128 + 1) (by decide) (by omega) (by omega) (by omega) (by omega)]
  simp only [decodeFields, decodeThree, decodeGrid]
  rw [if_neg (by decide), show w % 128 = 1 by omega]
  simp only
  rw [RoundTrip.need_ok (by simp; omega)]
  refine congrArg Except.ok ?_
  congr 1 <;> exact RoundTrip.ofNat_of (by omega)

theorem RoundTrip.bankq (m : BitVec 1) (a : BitVec 8) (r : BitVec 4) (c : BitVec 5) : RoundTrip.Statement (.bankq m a r c) := by
  intro hw w hx
  replace hw : (decide (r.toNat ≤ 7) && decide (c.toNat ≤ 7)) = true := hw
  replace hx := Option.some.inj hx
  simp only [packFields] at hx
  have := a.isLt
  have := r.isLt
  have := c.isLt
  simp only [Bool.and_eq_true, decide_eq_true_eq] at hw
  rw [RoundTrip.decodeWord_of (m := m) (M := 0x60) (d := a.toNat) (a := r.toNat * 16 + c.toNat / 2) (b := (c.toNat % 2) * 128 + 2) (by decide) (by omega) (by omega) (by omega) (by omega)]
  simp only [decodeFields, decodeThree, decodeGrid]
  rw [if_neg (by decide), show w % 128 = 2 by omega]
  simp only
  rw [RoundTrip.need_ok (by simp; omega)]
  refine congrArg Except.ok ?_
  congr 1 <;> exact RoundTrip.ofNat_of (by omega)

theorem RoundTrip.lmsg (m : BitVec 1) (a : BitVec 8) (r : BitVec 4) (c : BitVec 5) : RoundTrip.Statement (.lmsg m a r c) := by
  intro hw w hx
  replace hw : (decide (r.toNat ≤ 7) && decide (c.toNat ≤ 15)) = true := hw
  replace hx := Option.some.inj hx
  simp only [packFields] at hx
  have := a.isLt
  have := r.isLt
  have := c.isLt
  simp only [Bool.and_eq_true, decide_eq_true_eq] at hw
  rw [RoundTrip.decodeWord_of (m := m) (M := 0x61) (d := a.toNat) (a := r.toNat * 16 + c.toNat / 2) (b := (c.toNat % 2) * 128) (by decide) (by omega) (by omega) (by omega) (by omega)]
  simp only [decodeFields, decodeThree, decodeGrid]
  rw [if_pos (by decide), RoundTrip.need_ok (by simp; omega), RoundTrip.zero_ok (by omega)]
  refine congrArg Except.ok ?_
  congr 1 <;> exact RoundTrip.ofNat_of (by omega)

theorem RoundTrip.bwphase (m : BitVec 1) (n : BitVec 8) (h : BitVec 2) : RoundTrip.Statement (.bwphase m n h) := by
  intro _ w hx
  replace hx := Option.some.inj hx
  simp only [packFields] at hx
  have := n.isLt
  have := h.isLt
  rw [RoundTrip.decodeWord_of (m := m) (M := 0x62) (d := 0) (a := n.toNat) (b := h.toNat) (by decide) (by omega) (by omega) (by omega) (by omega)]
  simp only [decodeFields, decodeThree, decodeImmediate]
  repeat first
    | rw [RoundTrip.zero_ok (by omega)]
    | rw [RoundTrip.need_ok (by first | (simp; done) | (simp; omega) | assumption)]
    | rw [if_pos (by omega)]
    | rw [if_neg (by omega)]
  refine congrArg Except.ok ?_
  congr 1 <;> exact RoundTrip.ofNat_of (by omega)

theorem RoundTrip.topen (m : BitVec 1) (d : BitVec 8) (a : BitVec 8) : RoundTrip.Statement (.topen m d a) := by
  intro _ w hx
  replace hx := Option.some.inj hx
  simp only [packFields] at hx
  have := d.isLt
  have := a.isLt
  rw [RoundTrip.decodeWord_of (m := m) (M := 0x63) (d := d.toNat) (a := a.toNat) (b := 0) (by decide) (by omega) (by omega) (by omega) (by omega)]
  refine Eq.trans (b := Except.ok (.topen m (BitVec.ofNat 8 d.toNat) (BitVec.ofNat 8 a.toNat))) rfl ?_
  simp only [BitVec.ofNat_toNat, BitVec.setWidth_eq]

theorem RoundTrip.tclose (m : BitVec 1) (a : BitVec 8) : RoundTrip.Statement (.tclose m a) := by
  intro _ w hx
  replace hx := Option.some.inj hx
  simp only [packFields] at hx
  have := a.isLt
  rw [RoundTrip.decodeWord_of (m := m) (M := 0x63) (d := 0) (a := a.toNat) (b := 1) (by decide) (by omega) (by omega) (by omega) (by omega)]
  refine Eq.trans (b := Except.ok (.tclose m (BitVec.ofNat 8 a.toNat))) rfl ?_
  simp only [BitVec.ofNat_toNat, BitVec.setWidth_eq]

theorem RoundTrip.tacqr (m : BitVec 1) (a : BitVec 8) : RoundTrip.Statement (.tacqr m a) := by
  intro _ w hx
  replace hx := Option.some.inj hx
  simp only [packFields] at hx
  have := a.isLt
  rw [RoundTrip.decodeWord_of (m := m) (M := 0x63) (d := 0) (a := a.toNat) (b := 2) (by decide) (by omega) (by omega) (by omega) (by omega)]
  refine Eq.trans (b := Except.ok (.tacqr m (BitVec.ofNat 8 a.toNat))) rfl ?_
  simp only [BitVec.ofNat_toNat, BitVec.setWidth_eq]

theorem RoundTrip.tacqw (m : BitVec 1) (a : BitVec 8) : RoundTrip.Statement (.tacqw m a) := by
  intro _ w hx
  replace hx := Option.some.inj hx
  simp only [packFields] at hx
  have := a.isLt
  rw [RoundTrip.decodeWord_of (m := m) (M := 0x63) (d := 0) (a := a.toNat) (b := 3) (by decide) (by omega) (by omega) (by omega) (by omega)]
  refine Eq.trans (b := Except.ok (.tacqw m (BitVec.ofNat 8 a.toNat))) rfl ?_
  simp only [BitVec.ofNat_toNat, BitVec.setWidth_eq]

theorem RoundTrip.trel (m : BitVec 1) (a : BitVec 8) : RoundTrip.Statement (.trel m a) := by
  intro _ w hx
  replace hx := Option.some.inj hx
  simp only [packFields] at hx
  have := a.isLt
  rw [RoundTrip.decodeWord_of (m := m) (M := 0x63) (d := 0) (a := a.toNat) (b := 4) (by decide) (by omega) (by omega) (by omega) (by omega)]
  refine Eq.trans (b := Except.ok (.trel m (BitVec.ofNat 8 a.toNat))) rfl ?_
  simp only [BitVec.ofNat_toNat, BitVec.setWidth_eq]

theorem RoundTrip.tquery (m : BitVec 1) (d : BitVec 8) (a : BitVec 8) : RoundTrip.Statement (.tquery m d a) := by
  intro _ w hx
  replace hx := Option.some.inj hx
  simp only [packFields] at hx
  have := d.isLt
  have := a.isLt
  rw [RoundTrip.decodeWord_of (m := m) (M := 0x63) (d := d.toNat) (a := a.toNat) (b := 5) (by decide) (by omega) (by omega) (by omega) (by omega)]
  refine Eq.trans (b := Except.ok (.tquery m (BitVec.ofNat 8 d.toNat) (BitVec.ofNat 8 a.toNat))) rfl ?_
  simp only [BitVec.ofNat_toNat, BitVec.setWidth_eq]

theorem RoundTrip.tsplit (m : BitVec 1) (d : BitVec 8) (a : BitVec 8) (b : BitVec 8) : RoundTrip.Statement (.tsplit m d a b) :=
  fun _ _ h => RoundTrip.three (M := 0x64) (by decide) h rfl rfl

theorem RoundTrip.tld (m : BitVec 1) (d : BitVec 8) (a : BitVec 8) (b : BitVec 8) : RoundTrip.Statement (.tld m d a b) :=
  fun _ _ h => RoundTrip.three (M := 0x65) (by decide) h rfl rfl

theorem RoundTrip.tst (m : BitVec 1) (d : BitVec 8) (a : BitVec 8) (b : BitVec 8) : RoundTrip.Statement (.tst m d a b) :=
  fun _ _ h => RoundTrip.three (M := 0x66) (by decide) h rfl rfl

theorem RoundTrip.copy (m : BitVec 1) (d : BitVec 8) (a : BitVec 8) (b : BitVec 8) : RoundTrip.Statement (.copy m d a b) :=
  fun _ _ h => RoundTrip.three (M := 0x68) (by decide) h rfl rfl

theorem RoundTrip.copyg (m : BitVec 1) (d : BitVec 8) (a : BitVec 8) (b : BitVec 8) : RoundTrip.Statement (.copyg m d a b) :=
  fun _ _ h => RoundTrip.three (M := 0x69) (by decide) h rfl rfl

theorem RoundTrip.collect (m : BitVec 1) (d : BitVec 8) (a : BitVec 8) (b : BitVec 8) : RoundTrip.Statement (.collect m d a b) :=
  fun _ _ h => RoundTrip.three (M := 0x6A) (by decide) h rfl rfl

theorem RoundTrip.fork (m : BitVec 1) (d : BitVec 8) (a : BitVec 8) (b : BitVec 8) : RoundTrip.Statement (.fork m d a b) :=
  fun _ _ h => RoundTrip.three (M := 0x6B) (by decide) h rfl rfl

theorem RoundTrip.rdv (m : BitVec 1) (d : BitVec 8) (f : BitVec 2) : RoundTrip.Statement (.rdv m d f) := by
  intro hw w hx
  replace hw : (f != 0) = true := hw
  replace hx := Option.some.inj hx
  simp only [packFields] at hx
  have := d.isLt
  have := f.isLt
  have hn : f.toNat ≠ 0 := RoundTrip.toNat_ne hw
  rw [RoundTrip.decodeWord_of (m := m) (M := 0x6C) (d := d.toNat) (a := 0) (b := f.toNat) (by decide) (by omega) (by omega) (by omega) (by omega)]
  simp only [decodeFields, decodeThree, decodeFixed]
  repeat first
    | rw [RoundTrip.zero_ok (by omega)]
    | rw [RoundTrip.need_ok (by first | (simp; done) | (simp; omega) | assumption)]
    | rw [if_pos (by omega)]
    | rw [if_neg (by omega)]
  refine congrArg Except.ok ?_
  congr 1 <;> exact RoundTrip.ofNat_of (by omega)

theorem RoundTrip.publish (m : BitVec 1) (a : BitVec 8) : RoundTrip.Statement (.publish m a) := by
  intro _ w hx
  replace hx := Option.some.inj hx
  simp only [packFields] at hx
  have := a.isLt
  rw [RoundTrip.decodeWord_of (m := m) (M := 0x6D) (d := 0) (a := a.toNat) (b := 0) (by decide) (by omega) (by omega) (by omega) (by omega)]
  refine Eq.trans (b := Except.ok (.publish m (BitVec.ofNat 8 a.toNat))) rfl ?_
  simp only [BitVec.ofNat_toNat, BitVec.setWidth_eq]

theorem RoundTrip.mlds (m : BitVec 1) (a : BitVec 8) (b : BitVec 8) : RoundTrip.Statement (.mlds m a b) := by
  intro _ w hx
  replace hx := Option.some.inj hx
  simp only [packFields] at hx
  have := a.isLt
  have := b.isLt
  rw [RoundTrip.decodeWord_of (m := m) (M := 0x70) (d := 0) (a := a.toNat) (b := b.toNat) (by decide) (by omega) (by omega) (by omega) (by omega)]
  refine Eq.trans (b := Except.ok (.mlds m (BitVec.ofNat 8 a.toNat) (BitVec.ofNat 8 b.toNat))) rfl ?_
  simp only [BitVec.ofNat_toNat, BitVec.setWidth_eq]

theorem RoundTrip.mones (m : BitVec 1) (k : BitVec 2) : RoundTrip.Statement (.mones m k) := by
  intro _ w hx
  replace hx := Option.some.inj hx
  simp only [packFields] at hx
  have := k.isLt
  rw [RoundTrip.decodeWord_of (m := m) (M := 0x71) (d := 0) (a := 0) (b := k.toNat) (by decide) (by omega) (by omega) (by omega) (by omega)]
  simp only [decodeFields, decodeThree, decodeFixed]
  repeat first
    | rw [RoundTrip.zero_ok (by omega)]
    | rw [RoundTrip.need_ok (by first | (simp; done) | (simp; omega) | assumption)]
    | rw [if_pos (by omega)]
    | rw [if_neg (by omega)]
  refine congrArg Except.ok ?_
  congr 1 <;> exact RoundTrip.ofNat_of (by omega)

theorem RoundTrip.mswap (m : BitVec 1) : RoundTrip.Statement (.mswap m) := by
  intro _ w hx
  replace hx := Option.some.inj hx
  simp only [packFields] at hx
  rw [RoundTrip.decodeWord_of (m := m) (M := 0x72) (d := 0) (a := 0) (b := 0) (by decide) (by omega) (by omega) (by omega) (by omega)]
  rfl

theorem RoundTrip.mstream (m : BitVec 1) (d : BitVec 8) (a : BitVec 8) (b : BitVec 8) : RoundTrip.Statement (.mstream m d a b) :=
  fun _ _ h => RoundTrip.three (M := 0x73) (by decide) h rfl rfl

theorem RoundTrip.mdrain (m : BitVec 1) (d : BitVec 8) (a : BitVec 8) (b : BitVec 8) : RoundTrip.Statement (.mdrain m d a b) :=
  fun _ _ h => RoundTrip.three (M := 0x74) (by decide) h rfl rfl

theorem RoundTrip.mzero (m : BitVec 1) (a : BitVec 8) : RoundTrip.Statement (.mzero m a) := by
  intro _ w hx
  replace hx := Option.some.inj hx
  simp only [packFields] at hx
  have := a.isLt
  rw [RoundTrip.decodeWord_of (m := m) (M := 0x75) (d := 0) (a := a.toNat) (b := 0) (by decide) (by omega) (by omega) (by omega) (by omega)]
  refine Eq.trans (b := Except.ok (.mzero m (BitVec.ofNat 8 a.toNat))) rfl ?_
  simp only [BitVec.ofNat_toNat, BitVec.setWidth_eq]

theorem RoundTrip.mshadow (m : BitVec 1) (f : BitVec 1) : RoundTrip.Statement (.mshadow m f) := by
  intro _ w hx
  replace hx := Option.some.inj hx
  simp only [packFields] at hx
  have := f.isLt
  rw [RoundTrip.decodeWord_of (m := m) (M := 0x76) (d := 0) (a := 0) (b := f.toNat) (by decide) (by omega) (by omega) (by omega) (by omega)]
  simp only [decodeFields, decodeThree, decodeFixed]
  repeat first
    | rw [RoundTrip.zero_ok (by omega)]
    | rw [RoundTrip.need_ok (by first | (simp; done) | (simp; omega) | assumption)]
    | rw [if_pos (by omega)]
    | rw [if_neg (by omega)]
  refine congrArg Except.ok ?_
  congr 1 <;> exact RoundTrip.ofNat_of (by omega)

theorem RoundTrip.illegalInstruction (check : Nat) (guarded : WordGuard) : RoundTrip.Statement (.illegalInstruction check guarded) := RoundTrip.no_word rfl

theorem RoundTrip.crewStart (launch crew : Nat) : RoundTrip.Statement (.crewStart launch crew) := RoundTrip.no_word rfl

theorem RoundTrip.shareStart (launch share : Nat) : RoundTrip.Statement (.shareStart launch share) := RoundTrip.no_word rfl

theorem RoundTrip.barrierComplete (launch circle : Nat) : RoundTrip.Statement (.barrierComplete launch circle) := RoundTrip.no_word rfl

theorem RoundTrip.waiterRelease (tid split : Nat) : RoundTrip.Statement (.waiterRelease tid split) := RoundTrip.no_word rfl

theorem RoundTrip.bankRetentionEntry (cl bank : Nat) : RoundTrip.Statement (.bankRetentionEntry cl bank) := RoundTrip.no_word rfl

theorem RoundTrip.bankDeepOffEntry (cl bank : Nat) : RoundTrip.Statement (.bankDeepOffEntry cl bank) := RoundTrip.no_word rfl

theorem RoundTrip.bankWakeComplete (cl bank : Nat) : RoundTrip.Statement (.bankWakeComplete cl bank) := RoundTrip.no_word rfl

theorem RoundTrip.fifoWaiterRetry (tid split : Nat) : RoundTrip.Statement (.fifoWaiterRetry tid split) := RoundTrip.no_word rfl

theorem RoundTrip.reqs (die cid line : Nat) : RoundTrip.Statement (.reqs die cid line) := RoundTrip.no_word rfl

theorem RoundTrip.reqm (die cid line : Nat) : RoundTrip.Statement (.reqm die cid line) := RoundTrip.no_word rfl

theorem RoundTrip.upg (die cid line : Nat) : RoundTrip.Statement (.upg die cid line) := RoundTrip.no_word rfl

theorem RoundTrip.wb (die cid line : Nat) : RoundTrip.Statement (.wb die cid line) := RoundTrip.no_word rfl

theorem RoundTrip.inv (die cid line : Nat) : RoundTrip.Statement (.inv die cid line) := RoundTrip.no_word rfl

theorem RoundTrip.fwds (die cid line req : Nat) : RoundTrip.Statement (.fwds die cid line req) := RoundTrip.no_word rfl

theorem RoundTrip.fwdm (die cid line req : Nat) : RoundTrip.Statement (.fwdm die cid line req) := RoundTrip.no_word rfl

theorem RoundTrip.recall (die cid line : Nat) : RoundTrip.Statement (.recall die cid line) := RoundTrip.no_word rfl

theorem RoundTrip.data (die cid line : Nat) (grant : Grant) : RoundTrip.Statement (.data die cid line grant) := RoundTrip.no_word rfl

theorem RoundTrip.ack (die cid line : Nat) : RoundTrip.Statement (.ack die cid line) := RoundTrip.no_word rfl

theorem RoundTrip.upgack (die cid line : Nat) : RoundTrip.Statement (.upgack die cid line) := RoundTrip.no_word rfl

theorem RoundTrip.wback (die cid line : Nat) : RoundTrip.Statement (.wback die cid line) := RoundTrip.no_word rfl

theorem RoundTrip.alreadywb (die cid line : Nat) : RoundTrip.Statement (.alreadywb die cid line) := RoundTrip.no_word rfl

theorem RoundTrip.pinFadeTick (die win : Nat) : RoundTrip.Statement (.pinFadeTick die win) := RoundTrip.no_word rfl

theorem RoundTrip.pinWindowFaded (die win : Nat) : RoundTrip.Statement (.pinWindowFaded die win) := RoundTrip.no_word rfl

theorem RoundTrip.lanternHandlerStart (slice : Nat) : RoundTrip.Statement (.lanternHandlerStart slice) := RoundTrip.no_word rfl

theorem RoundTrip.lanternBudgetExpiry (slice : Nat) : RoundTrip.Statement (.lanternBudgetExpiry slice) := RoundTrip.no_word rfl

theorem RoundTrip.lanternPortComplete (slice status : Nat) : RoundTrip.Statement (.lanternPortComplete slice status) := RoundTrip.no_word rfl

theorem RoundTrip.lanternDoneDefault (slice : Nat) : RoundTrip.Statement (.lanternDoneDefault slice) := RoundTrip.no_word rfl

theorem RoundTrip.lanternDoneSubstitute (slice : Nat) : RoundTrip.Statement (.lanternDoneSubstitute slice) := RoundTrip.no_word rfl

theorem RoundTrip.specFenceComplete (tid split : Nat) : RoundTrip.Statement (.specFenceComplete tid split) := RoundTrip.no_word rfl

theorem RoundTrip.copyCommandAccept (cl : Nat) : RoundTrip.Statement (.copyCommandAccept cl) := RoundTrip.no_word rfl

theorem RoundTrip.copyCommandStart (cl : Nat) : RoundTrip.Statement (.copyCommandStart cl) := RoundTrip.no_word rfl

theorem RoundTrip.copyCommandComplete (cl : Nat) : RoundTrip.Statement (.copyCommandComplete cl) := RoundTrip.no_word rfl

theorem RoundTrip.waittWake (tid split : Nat) : RoundTrip.Statement (.waittWake tid split) := RoundTrip.no_word rfl

theorem RoundTrip.publishSwap (cid region : Nat) : RoundTrip.Statement (.publishSwap cid region) := RoundTrip.no_word rfl

theorem RoundTrip.planeLoadStart (core : Nat) : RoundTrip.Statement (.planeLoadStart core) := RoundTrip.no_word rfl

theorem RoundTrip.planeLoadEnd (core : Nat) : RoundTrip.Statement (.planeLoadEnd core) := RoundTrip.no_word rfl

theorem RoundTrip.streamPassStart (core : Nat) : RoundTrip.Statement (.streamPassStart core) := RoundTrip.no_word rfl

theorem RoundTrip.streamPassEnd (core : Nat) : RoundTrip.Statement (.streamPassEnd core) := RoundTrip.no_word rfl

theorem RoundTrip.drainStart (core : Nat) : RoundTrip.Statement (.drainStart core) := RoundTrip.no_word rfl

theorem RoundTrip.drainEnd (core : Nat) : RoundTrip.Statement (.drainEnd core) := RoundTrip.no_word rfl

theorem RoundTrip.mzeroEnd (core : Nat) : RoundTrip.Statement (.mzeroEnd core) := RoundTrip.no_word rfl

theorem RoundTrip.mshadowEnd (core : Nat) : RoundTrip.Statement (.mshadowEnd core) := RoundTrip.no_word rfl

theorem RoundTrip.sequencerEndComplete (core which : Nat) : RoundTrip.Statement (.sequencerEndComplete core which) := RoundTrip.no_word rfl

theorem RoundTrip.faultRecordWrite (cid : Nat) : RoundTrip.Statement (.faultRecordWrite cid) := RoundTrip.no_word rfl

theorem RoundTrip.narrowing (part : Nat) (cores : List Nat) (why : NarrowWhy) : RoundTrip.Statement (.narrowing part cores why) := RoundTrip.no_word rfl

theorem RoundTrip.crewSaveComplete (tid : Nat) : RoundTrip.Statement (.crewSaveComplete tid) := RoundTrip.no_word rfl

theorem RoundTrip.crewRestore (tid core : Nat) : RoundTrip.Statement (.crewRestore tid core) := RoundTrip.no_word rfl

theorem RoundTrip.imageSwitch (launch : Nat) : RoundTrip.Statement (.imageSwitch launch) := RoundTrip.no_word rfl

theorem RoundTrip.launchRecordDispatch (queue : Nat) : RoundTrip.Statement (.launchRecordDispatch queue) := RoundTrip.no_word rfl

theorem RoundTrip.launchEnd (launch : Nat) : RoundTrip.Statement (.launchEnd launch) := RoundTrip.no_word rfl

theorem RoundTrip.invalidationComplete (cid base len : Nat) : RoundTrip.Statement (.invalidationComplete cid base len) := RoundTrip.no_word rfl

theorem RoundTrip.newctx (part : Nat) : RoundTrip.Statement (.newctx part) := RoundTrip.no_word rfl

theorem RoundTrip.endctx (part cid : Nat) : RoundTrip.Statement (.endctx part cid) := RoundTrip.no_word rfl

theorem RoundTrip.mapframe (part cid vbase pbase frames cls : Nat) : RoundTrip.Statement (.mapframe part cid vbase pbase frames cls) := RoundTrip.no_word rfl

theorem RoundTrip.setwindow (part ctrl win : Nat) (w : FormatWindow) : RoundTrip.Statement (.setwindow part ctrl win w) := RoundTrip.no_word rfl

theorem RoundTrip.biasflip (part cid vpage : Nat) (host : Bool) : RoundTrip.Statement (.biasflip part cid vpage host) := RoundTrip.no_word rfl

theorem RoundTrip.biasFlipComplete (cid vpage : Nat) (host : Bool) : RoundTrip.Statement (.biasFlipComplete cid vpage host) := RoundTrip.no_word rfl

theorem RoundTrip.lantern (part cid mask image size table : Nat) : RoundTrip.Statement (.lantern part cid mask image size table) := RoundTrip.no_word rfl

theorem RoundTrip.image (part cid size : Nat) : RoundTrip.Statement (.image part cid size) := RoundTrip.no_word rfl

theorem RoundTrip.assignq (part queue : Nat) : RoundTrip.Statement (.assignq part queue) := RoundTrip.no_word rfl

theorem RoundTrip.setcache (part banks : Nat) : RoundTrip.Statement (.setcache part banks) := RoundTrip.no_word rfl

theorem RoundTrip.setreserve (part cores : Nat) : RoundTrip.Statement (.setreserve part cores) := RoundTrip.no_word rfl

theorem RoundTrip.stash (part ways : Nat) : RoundTrip.Statement (.stash part ways) := RoundTrip.no_word rfl

theorem RoundTrip.groups (part cid addr : Nat) : RoundTrip.Statement (.groups part cid addr) := RoundTrip.no_word rfl

theorem RoundTrip.swap (part : Nat) (swapIn : Bool) : RoundTrip.Statement (.swap part swapIn) := RoundTrip.no_word rfl

theorem RoundTrip.clearctx (part cid : Nat) : RoundTrip.Statement (.clearctx part cid) := RoundTrip.no_word rfl

theorem RoundTrip.span (part mask : Nat) : RoundTrip.Statement (.span part mask) := RoundTrip.no_word rfl

theorem RoundTrip.checkpoint (part cid region buddy : Nat) (confirmed : Bool) : RoundTrip.Statement (.checkpoint part cid region buddy confirmed) := RoundTrip.no_word rfl

theorem RoundTrip.mirror (part device cid size base : Nat) : RoundTrip.Statement (.mirror part device cid size base) := RoundTrip.no_word rfl

theorem RoundTrip.requestRefused (part code : Nat) : RoundTrip.Statement (.requestRefused part code) := RoundTrip.no_word rfl

theorem RoundTrip.krazuAckTimeout (port : Nat) : RoundTrip.Statement (.krazuAckTimeout port) := RoundTrip.no_word rfl

theorem RoundTrip.krazuRetrainComplete (port : Nat) (trained : Bool) : RoundTrip.Statement (.krazuRetrainComplete port trained) := RoundTrip.no_word rfl

theorem RoundTrip.krazuHeartbeatTimeout (device : Nat) : RoundTrip.Statement (.krazuHeartbeatTimeout device) := RoundTrip.no_word rfl

theorem RoundTrip.perstDeassert (boot : BootInputs) : RoundTrip.Statement (.perstDeassert boot) := RoundTrip.no_word rfl

theorem RoundTrip.processMonitorSample (cl mhz : Nat) : RoundTrip.Statement (.processMonitorSample cl mhz) := RoundTrip.no_word rfl

theorem RoundTrip.cacheBankPowerOff (cl bank : Nat) : RoundTrip.Statement (.cacheBankPowerOff cl bank) := RoundTrip.no_word rfl

theorem RoundTrip.hostSnoop (die pline : Nat) : RoundTrip.Statement (.hostSnoop die pline) := RoundTrip.no_word rfl

theorem RoundTrip.hostCxlMemRead (pa n : Nat) : RoundTrip.Statement (.hostCxlMemRead pa n) := RoundTrip.no_word rfl

theorem RoundTrip.hostCxlMemWrite (pa : Nat) (bytes : List Byte) : RoundTrip.Statement (.hostCxlMemWrite pa bytes) := RoundTrip.no_word rfl

theorem RoundTrip.lanternPortRead (slice paddr plocal plen : Nat) : RoundTrip.Statement (.lanternPortRead slice paddr plocal plen) := RoundTrip.no_word rfl

theorem RoundTrip.lanternPortWrite (slice paddr plocal plen : Nat) : RoundTrip.Statement (.lanternPortWrite slice paddr plocal plen) := RoundTrip.no_word rfl

theorem RoundTrip.lanternPortPrefetch (slice paddr : Nat) : RoundTrip.Statement (.lanternPortPrefetch slice paddr) := RoundTrip.no_word rfl

theorem RoundTrip.lanternPortAdd (slice paddr : Nat) (wide : Bool) (operand : BitVec 64) : RoundTrip.Statement (.lanternPortAdd slice paddr wide operand) := RoundTrip.no_word rfl

theorem RoundTrip.lanternPortAnd (slice paddr : Nat) (wide : Bool) (operand : BitVec 64) : RoundTrip.Statement (.lanternPortAnd slice paddr wide operand) := RoundTrip.no_word rfl

theorem RoundTrip.lanternPortOr (slice paddr : Nat) (wide : Bool) (operand : BitVec 64) : RoundTrip.Statement (.lanternPortOr slice paddr wide operand) := RoundTrip.no_word rfl

theorem RoundTrip.lanternPortXor (slice paddr : Nat) (wide : Bool) (operand : BitVec 64) : RoundTrip.Statement (.lanternPortXor slice paddr wide operand) := RoundTrip.no_word rfl

theorem RoundTrip.lanternPortSwap (slice paddr : Nat) (wide : Bool) (operand : BitVec 64) : RoundTrip.Statement (.lanternPortSwap slice paddr wide operand) := RoundTrip.no_word rfl

theorem RoundTrip.lanternPortReply (slice plocal rdest : Nat) : RoundTrip.Statement (.lanternPortReply slice plocal rdest) := RoundTrip.no_word rfl

theorem RoundTrip.lanternPortRefused (slice : Nat) : RoundTrip.Statement (.lanternPortRefused slice) := RoundTrip.no_word rfl

theorem RoundTrip.fqresRetry (cid token : Nat) : RoundTrip.Statement (.fqresRetry cid token) := RoundTrip.no_word rfl

theorem RoundTrip.fqresUnresolvable (cid token : Nat) : RoundTrip.Statement (.fqresUnresolvable cid token) := RoundTrip.no_word rfl

theorem RoundTrip.eccUncorrectable (place : EccPlace) : RoundTrip.Statement (.eccUncorrectable place) := RoundTrip.no_word rfl

theorem RoundTrip.doorbell (queue value : Nat) : RoundTrip.Statement (.doorbell queue value) := RoundTrip.no_word rfl

theorem RoundTrip.qctlStallClear (queue : Nat) : RoundTrip.Statement (.qctlStallClear queue) := RoundTrip.no_word rfl

theorem RoundTrip.evheadWrite (part value : Nat) : RoundTrip.Statement (.evheadWrite part value) := RoundTrip.no_word rfl

theorem RoundTrip.fqbaseWrite (part value : Nat) : RoundTrip.Statement (.fqbaseWrite part value) := RoundTrip.no_word rfl

theorem RoundTrip.invlen (part len : Nat) : RoundTrip.Statement (.invlen part len) := RoundTrip.no_word rfl

theorem RoundTrip.registerWrite (reg : HostReg) (value : Nat) : RoundTrip.Statement (.registerWrite reg value) := RoundTrip.no_word rfl

theorem RoundTrip.krazuFlitReceive (port : Nat) (flit : Flit) : RoundTrip.Statement (.krazuFlitReceive port flit) := RoundTrip.no_word rfl

theorem RoundTrip.getVersion  : RoundTrip.Statement (.getVersion) := RoundTrip.no_word rfl

theorem RoundTrip.getCapabilities  : RoundTrip.Statement (.getCapabilities) := RoundTrip.no_word rfl

theorem RoundTrip.negotiateAlgorithms  : RoundTrip.Statement (.negotiateAlgorithms) := RoundTrip.no_word rfl

theorem RoundTrip.getDigests  : RoundTrip.Statement (.getDigests) := RoundTrip.no_word rfl

theorem RoundTrip.getCertificate (slot : Nat) : RoundTrip.Statement (.getCertificate slot) := RoundTrip.no_word rfl

theorem RoundTrip.challenge (slot nonce : Nat) : RoundTrip.Statement (.challenge slot nonce) := RoundTrip.no_word rfl

theorem RoundTrip.getMeasurements (index nonce : Nat) : RoundTrip.Statement (.getMeasurements index nonce) := RoundTrip.no_word rfl

theorem RoundTrip.configRetryEnd  : RoundTrip.Statement (.configRetryEnd) := RoundTrip.no_word rfl

theorem RoundTrip.recgo (image : BootInputs) : RoundTrip.Statement (.recgo image) := RoundTrip.no_word rfl

theorem RoundTrip.powerSample (watts : Nat) : RoundTrip.Statement (.powerSample watts) := RoundTrip.no_word rfl

theorem RoundTrip.tempSample (temps : List (Nat × BitVec 32)) (hottest inlet : List Nat) : RoundTrip.Statement (.tempSample temps hottest inlet) := RoundTrip.no_word rfl

theorem RoundTrip.droopDetect (cl millivolts : Nat) : RoundTrip.Statement (.droopDetect cl millivolts) := RoundTrip.no_word rfl

theorem RoundTrip.perstAssert  : RoundTrip.Statement (.perstAssert) := RoundTrip.no_word rfl

theorem RoundTrip.partitionReset (part : Nat) : RoundTrip.Statement (.partitionReset part) := RoundTrip.no_word rfl

theorem RoundTrip.evlogWrite (part base log : Nat) : RoundTrip.Statement (.evlogWrite part base log) := RoundTrip.no_word rfl

theorem RoundTrip.lanternHandlerException (slice : Nat) : RoundTrip.Statement (.lanternHandlerException slice) := RoundTrip.no_word rfl

end Sys2Proof.Laws
end

