-- ==== Sys2Proof/Laws/Scratch.lean ====
section
/-! SUPPORT. A scratch store changes the bytes of its words in their banks, and no other. -/

namespace Sys2Proof.Laws
open Sys2Proof.Machine Sys2Proof.Claims

theorem getBank_modBank_all (cl b k j : Nat) (f : Bank → Bank) (s : State) :
    getBank (modBank cl b f s) k j = if k = cl ∧ j = b then f (getBank s cl b) else getBank s k j := by
  unfold modBank putBank getBank
  show ((Sparse.find? (getCluster (putCluster cl _ s) k).banks j).getD Bank.reset) = _
  rw [getCluster_put]
  by_cases h : k = cl
  · subst h
    rw [if_pos rfl]
    by_cases hj : j = b
    · subst hj; simp
    · simp only [hj, and_false, if_false]; rw [Sparse.find?_put_other _ _ hj]
  · simp [h]

structure SpadInv (s v : State) (cl : Nat) (skip : Nat → Nat → Prop) : Prop where
  mem : v.mem = s.mem
  l2 : v.l2 = s.l2
  threads : v.threads = s.threads
  launches : v.launches = s.launches
  others : ∀ k, k ≠ cl → getCluster v k = getCluster s k
  cache : (getCluster v cl).cache = (getCluster s cl).cache
  pwr : ∀ b, (getBank v cl b).pwr = (getBank s cl b).pwr
  wf : ∀ b, Sparse.wf 0 (getBank v cl b).data = true
  bytes : ∀ b x, ¬ skip b x → (getBank v cl b).readByte x = (getBank s cl b).readByte x

theorem spad_mod {s v : State} {cl b : Nat} {skip : Nat → Nat → Prop} {f : Bank → Bank} (h : SpadInv s v cl skip)
    (hp : ∀ k, (f k).pwr = k.pwr) (hw : ∀ k, Sparse.wf 0 k.data = true → Sparse.wf 0 (f k).data = true)
    (hb : ∀ k x, Sparse.wf 0 k.data = true → ¬ skip b x → (f k).readByte x = k.readByte x) :
    SpadInv s (modBank cl b f v) cl skip := by
  refine ⟨h.mem, h.l2, h.threads, h.launches, fun k hk => ?_, ?_, fun j => ?_, fun j => ?_, fun j x hx => ?_⟩
  · rw [← h.others k hk]; show getCluster (putCluster cl _ v) k = _; rw [getCluster_put, if_neg hk]
  · rw [← h.cache]; show (getCluster (putCluster cl _ v) cl).cache = _; rw [getCluster_put, if_pos rfl]
  · rw [getBank_modBank_all]; split
    · next hj => rw [hp, hj.2, h.pwr]
    · exact h.pwr j
  · rw [getBank_modBank_all]; split
    · exact hw _ (h.wf b)
    · exact h.wf j
  · rw [getBank_modBank_all]; split
    · next hj => obtain ⟨-, rfl⟩ := hj; rw [hb _ _ (h.wf _) hx, h.bytes _ _ hx]
    · exact h.bytes j x hx

theorem sched_same (t : Nat) (i : Instr) (s : State) : (scheduleOnce t i s).mem = s.mem ∧ (scheduleOnce t i s).l2 = s.l2 ∧
    (scheduleOnce t i s).threads = s.threads ∧ (scheduleOnce t i s).launches = s.launches ∧ (scheduleOnce t i s).clusters = s.clusters := by
  unfold scheduleOnce; split <;> exact ⟨rfl, rfl, rfl, rfl, rfl⟩

theorem spad_sched {s v : State} {cl : Nat} {skip : Nat → Nat → Prop} (t : Nat) (i : Instr) (h : SpadInv s v cl skip) :
    SpadInv s (scheduleOnce t i v) cl skip := by
  obtain ⟨a, b, c, d, e⟩ := sched_same t i v
  have hc (k : Nat) : getCluster (scheduleOnce t i v) k = getCluster v k := by unfold getCluster; rw [e]
  have hb (k j : Nat) : getBank (scheduleOnce t i v) k j = getBank v k j := by unfold getBank; rw [hc]
  exact ⟨a.trans h.mem, b.trans h.l2, c.trans h.threads, d.trans h.launches, fun k hk => (hc k).trans (h.others k hk),
    by rw [hc]; exact h.cache, fun j => by rw [hb]; exact h.pwr j, fun j => by rw [hb]; exact h.wf j,
    fun j x hx => by rw [hb]; exact h.bytes j x hx⟩

theorem spad_touch {s v : State} {cl b : Nat} {skip : Nat → Nat → Prop} (h : SpadInv s v cl skip) : SpadInv s (touchBank cl b v) cl skip := by
  unfold touchBank
  exact spad_sched _ _ (spad_mod h (fun _ => rfl) (fun _ h => h) (fun _ _ _ _ => rfl))

theorem scratch_launches {u v : State} {e : Env} (h : v.launches = u.launches) (p : Part) : scratchOf e v p = scratchOf e u p := by
  unfold scratchOf scratchPlace scratchBanks scratchKey logicalCore; rw [h]

theorem need_ok {s : State} {e : Env} {i : Instr} {cl : Nat} {skip : Nat → Nat → Prop} (hcl : cl = clusterOf e.th.core) :
    ∀ (ps : List Part) (v : State), SpadInv s v cl skip → (∀ p ∈ ps, (getBank s cl (scratchOf e s p).1).pwr = .active) →
      ∃ t, needScratch e i ps v = .ok () t ∧ SpadInv s t cl skip := by
  intro ps
  induction ps with
  | nil => intro v h _; exact ⟨v, rfl, h⟩
  | cons p ps ih =>
    intro v h ha
    have h1 : (getBank v cl (scratchOf e v p).1).pwr = .active := by
      rw [scratch_launches h.launches, h.pwr]; exact ha p List.mem_cons_self
    obtain ⟨t, ht, hi⟩ := ih (touchBank cl (scratchOf e v p).1 v) (spad_touch h) (fun q hq => ha q (List.mem_cons_of_mem _ hq))
    refine ⟨t, ?_, hi⟩
    unfold needScratch
    refine (get_bind _ _).trans ((bind_ok (t := touchBank cl (scratchOf e v p).1 v) (a := ()) ?_ _).trans ht)
    unfold needBank
    rw [← hcl, if_pos h1]

theorem valid_fold (v : Sparse Bool) (off n j : Nat) (h : ∀ i, i < n → (off + i) / 4 ≠ j) :
    Sparse.get false ((List.range n).foldl (fun v i => Sparse.set false v ((off + i) / 4) true) v) j = Sparse.get false v j := by
  induction n with
  | zero => rfl
  | succ n ih =>
    rw [List.range_succ, List.foldl_append, List.foldl_cons, List.foldl_nil]
    have h1 : ∀ (m : Sparse Bool) (k : Nat), j ≠ k → Sparse.get false (Sparse.set false m k true) j = Sparse.get false m j := by
      intro m k hk
      unfold Sparse.set Sparse.get
      rw [if_neg (by decide), Sparse.find?_put_other _ _ hk]
    rw [h1 _ _ (fun hh => h n (by omega) hh.symm)]
    exact ih (fun i hi => h i (by omega))

theorem store_bytes {k : Bank} {off x : Nat} {xs : List Byte} (hw : Sparse.wf 0 k.data = true) (ha : off % 4 = 0) (hl : xs.length = 4)
    (hx : ¬ (off ≤ x ∧ x < off + 4)) : (k.store off xs).readByte x = k.readByte x := by
  unfold Bank.readByte Bank.valid4 Bank.byte Bank.store
  dsimp only
  rw [hl, valid_fold _ _ _ _ (by intro i hi; omega), setAll_other hw (by rw [hl]; exact hx)]

theorem spad_stores {s : State} {e : Env} {d : BitVec 8} {cl : Nat} {skip : Nat → Nat → Prop} (hcl : cl = clusterOf e.th.core) :
    ∀ (ps : List Part) (v : State), SpadInv s v cl skip →
      (∀ p ∈ ps, p.va % 4 = 0 ∧ ∀ x, (scratchOf e s p).2 ≤ x ∧ x < (scratchOf e s p).2 + 4 → skip (scratchOf e s p).1 x) →
      SpadInv s (ps.foldl (scratchStore e d) v) cl skip := by
  intro ps
  induction ps with
  | nil => intro v h _; exact h
  | cons p ps ih =>
    intro v h hp
    rw [List.foldl_cons]
    refine ih _ ?_ (fun q hq => hp q (List.mem_cons_of_mem _ hq))
    unfold scratchStore
    rw [scratch_launches h.launches, ← hcl]
    have hq := hp p List.mem_cons_self
    have h4 : (scratchOf e s p).2 % 4 = 0 := by unfold scratchOf scratchPlace; dsimp only; omega
    refine spad_mod h (fun _ => rfl) (fun k hk => Sparse.wf_setAll _ _ hk) (fun k x hk hx => ?_)
    exact store_bytes hk h4 (leBytes_length _ _) (fun hh => hx (hq.2 x hh))

end Sys2Proof.Laws
end

