-- ==== Sys2Proof/Laws/Stops.lean ====
section
/-! SUPPORT. How a word rests without a guarded lane, and how it stops at a check of its operands or of its addresses that fails. -/

namespace Sys2Proof.Laws
open Sys2Proof.Machine Sys2Proof.Claims

theorem rest_ok {s : State} {e : Env} {m : BitVec 1} {i : Instr} {k : Env → M Flow} {g : Bool} (h : Issues s e) (hl : e.lanes = [])
    (hg : g = true) : issue m i (fun e => whenLanes e g (k e)) s = .next (e.done m i Flow.next (opened s)) := by
  subst hg
  exact issue_ok h (by rw [whenLanes_none hl]; rfl)

theorem ops_bad_kind {e : Env} {g : Bool} {ops : List Opnd} {x : Bool} (h : e.th.kind ≠ .crew) :
    checkOps e crewOnly g ops x = illegal e 4 (e.fate g) := by
  unfold checkOps
  rw [if_pos (by simp [crewOnly, h])]

theorem closing_bad {s : State} {e : Env} {g : Bool} {ops : List Opnd} {k : Env → M Flow} (h : e.th.kind ≠ .crew) (hg : g = false) :
    closing e crewOnly g ops k (opened s) = illegal e 4 e.active (opened s) := by
  unfold closing
  subst hg
  simp only [ops_bad_kind h]
  rfl

theorem scal_bad {e : Env} {ops : List Opnd} {x : Bool} {who : List Kind} (hb : ops.any (Opnd.bad4 e.th.kind) = true) :
    checkOps e who false ops x = illegal e 4 e.active := by
  unfold checkOps
  rw [if_pos (by simp [hb])]
  rfl

theorem checkAddrs_bad {e : Env} {ps : List Part} {size : Nat} {α : Type} (k : Unit → M α)
    (h : ps.filter (fun p => !canonicalVa p.va || decide (p.va % size ≠ 0)) ≠ []) :
    (checkAddrs e ps size >>= k) = trapParts e (if ps.any (fun p => !canonicalVa p.va) then causeAccess else causeAlign)
      (ps.filter (fun p => !canonicalVa p.va || decide (p.va % size ≠ 0))) := by
  unfold checkAddrs
  have h2 := List.isEmpty_eq_false_iff.mpr h
  have h3 : (!(ps.filter (fun p => !canonicalVa p.va)).isEmpty) = ps.any (fun p => !canonicalVa p.va) := by
    clear h h2
    induction ps with
    | nil => rfl
    | cons p ps ih => rw [List.any_cons, ← ih, List.filter_cons]; cases canonicalVa p.va <;> rfl
  simp only [h2, h3, Bool.not_false, if_true]
  split <;> rfl

theorem linesOf_nil {s : State} {pl : Nat} : linesOf s pl = [] ↔ ∀ kv ∈ s.l2, kv.2.pline ≠ pl := by
  unfold linesOf; simp [List.filter_eq_nil_iff]

theorem physByte_lines (s : State) (pa : Nat) (x : Byte) (pl : Nat) (h : linesOf s pl = []) :
    linesOf (physWriteByte s pa x) pl = [] := by
  unfold physWriteByte
  split
  · exact h
  · rw [linesOf_nil] at h ⊢
    intro kv hk
    obtain ⟨kv', hk', rfl⟩ := List.mem_map.mp hk
    have := h kv' hk'
    split <;> exact this

end Sys2Proof.Laws
end

