-- ==== Sys2Proof/Laws/Turn.lean ====
section
/-! SUPPORT. What issuing a word can come to, and which splits the choice of the next turn admits. -/

namespace Sys2Proof.Laws
open Sys2Proof.Machine Sys2Proof.Claims

theorem issue_outcome (m : BitVec 1) (i : Instr) (body : Env → M Flow) (s : State) :
    (∃ t, issue m i body s = .next t) ∨ (issuer s = none ∧ issue m i body s = .fault .noIssuer) := by
  unfold issue issuer
  cases ht : s.turn with
  | none => exact .inr ⟨rfl, rfl⟩
  | some x =>
    obtain ⟨tid, sid⟩ := x
    simp only [opened_turn ht]
    cases he : envOf (openRun tid sid s) tid sid with
    | none => exact .inr ⟨rfl, rfl⟩
    | some e => exact .inl ⟨_, rfl⟩

theorem ready_ok {s : State} {tid sid : Nat} (h : (tid, sid) ∈ readySplits s) :
    ∃ t sp, (tid, t) ∈ s.threads ∧ (sid, sp) ∈ t.splits ∧
    t.place = .resident ∧ s.station.halted = false ∧ sp.state = .active ∧ (sp.wait.isNone || sp.handed.isSome) = true ∧
    (∀ h, t.handler = some h → h = sid) := by
  obtain ⟨⟨k, t⟩, hk, h⟩ := List.mem_flatMap.mp h
  dsimp only at h
  split at h
  · next hm =>
    obtain ⟨⟨j, sp⟩, hj, h⟩ := List.mem_filterMap.mp h
    dsimp only at h
    split at h
    · next hs =>
      cases h
      simp only [Thread.mayIssue, Split.mayIssue, Bool.and_eq_true, decide_eq_true_eq] at hm hs
      refine ⟨t, sp, hk, hj, hm.1.1, by simpa using hm.1.2, hs.1.1, hs.1.2, fun h hh => ?_⟩
      have := hs.2; rw [hh] at this; simpa using this
    · cases h
  · cases h

theorem mustIssue_fit {s : State} {ready fit : List (Nat × Nat)} {x : Nat × Nat} (h : x ∈ mustIssue s ready fit) :
    x ∈ fit := by
  have h := List.mem_of_mem_filter h
  split at h <;> exact List.mem_of_mem_filter h

theorem turnChoices_ready {s : State} {x : Nat × Nat} (h : x ∈ turnChoices s) : x ∈ readySplits s := by
  unfold turnChoices at h
  dsimp only at h
  split at h
  · exact List.mem_of_mem_filter h
  · exact List.mem_of_mem_filter (mustIssue_fit h)

/-- A turn that is given to splits that may issue is that of one of them. -/
theorem giveTurn_ok {s : State} {xs : List (Nat × Nat)} (h : ∀ x ∈ xs, x ∈ readySplits s) : TurnOk (giveTurn s xs) := by
  intro tid sid hx
  cases xs with
  | nil => cases hx
  | cons y ys => cases hx; exact ready_ok (s := s) (h _ List.mem_cons_self)

theorem startCycle_ok {s : State} {x : Nat × Nat} (h : x ∈ readySplits s) : TurnOk (startCycle x s) := by
  unfold startCycle
  split
  · exact giveTurn_ok (fun y hy => by rw [List.mem_singleton.mp hy]; exact h)
  · exact giveTurn_ok (fun y hy => List.mem_of_mem_filter (List.mem_of_mem_filter hy))

theorem pickTurn_ok (s : State) : TurnOk (pickTurn s) := by
  unfold pickTurn
  split
  · exact giveTurn_ok (fun _ h => nomatch h)
  · next x hx => exact startCycle_ok (turnChoices_ready (by rw [hx]; exact List.mem_singleton.mpr rfl))
  · split
    · next h => exact startCycle_ok (s := { s with fresh := s.fresh + 1 }) (turnChoices_ready (s := s) (List.mem_of_getElem? h))
    · exact giveTurn_ok (fun _ h => nomatch h)

theorem nextTurn_ok (s : State) : TurnOk (nextTurn s) := by
  unfold nextTurn
  split
  · exact pickTurn_ok _
  · exact giveTurn_ok (fun x hx => by simpa using List.of_mem_filter hx)

end Sys2Proof.Laws
end

