-- ==== Sys2Proof/Tests/Slice0.lean ====
section
/-! SUPPORT. Tests: the words of the spec's encodings, well-formedness, single steps whose results come from the spec, and
for every statement a state and operands that meet its hypotheses. -/

namespace Sys2Proof.Tests
set_option Elab.async false
open Sys2Proof.Machine Sys2Proof.Claims

/-! ## Words written out from the encodings of R33 to R43 -/

/-- R65 to R74, from the fields of each encoding: ADD, SUB, MUL, MULH, FMA, DIV, REM, MIN, MAX, AND, OR, XOR, ANDN,
SHL, SHR, SRA, BFX, BFI, PERMB, SEL, CMP, PRED, ADDX. -/
theorem test_decode_arithmetic : ([
    0x01C4073E, 0x02C4073E, 0x03C4073E, 0x04C4073E, 0x05C4073E, 0x06C4073E, 0x07C4073E, 0x08C4073E, 0x09C4073E,
    0x0AC4073E, 0x0BC4073E, 0x0CC4073E, 0x0DC4073E, 0x0EC4073E, 0x0FC4073E, 0x10C4073E, 0x11C4073E, 0x12C4073E,
    0x13C4073E, 0x14C4073E, 0x15833E82, 0x16420183, 0x17C4073E] : List Nat).map decodeWord = [
    .ok (.add 0 196 7 62), .ok (.sub 0 196 7 62), .ok (.mul 0 196 7 62), .ok (.mulh 0 196 7 62),
    .ok (.fma 0 196 7 62), .ok (.div 0 196 7 62), .ok (.rem 0 196 7 62), .ok (.min 0 196 7 62),
    .ok (.max 0 196 7 62), .ok (.and 0 196 7 62), .ok (.or 0 196 7 62), .ok (.xor 0 196 7 62),
    .ok (.andn 0 196 7 62), .ok (.shl 0 196 7 62), .ok (.shr 0 196 7 62), .ok (.sra 0 196 7 62),
    .ok (.bfx 0 196 7 62), .ok (.bfi 0 196 7 62), .ok (.permb 0 196 7 62), .ok (.sel 0 196 7 62),
    .ok (.cmp 0 4 3 62 130), .ok (.pred 0 1 2 0 1 1 3), .ok (.addx 0 196 7 62)] := by decide +kernel

/-- R75 to R83, R126, from the fields of each encoding: MOV, NOT, NEG, ABS, POPC, CLZ, CTZ, BREV, FRC, RINT, RCP, RSQ,
SQRT, EXP2, LOG2, SINP, COSP, TANH, CVT, LI, LIH, SETMODE. -/
theorem test_decode_one_source : ([
    0x18C40700, 0x18C40701, 0x18C40702, 0x18C40703, 0x18C40704, 0x18C40705, 0x18C40706, 0x18C40707, 0x18C40708,
    0x18C40709, 0x18C40710, 0x18C40711, 0x18C40712, 0x18C40713, 0x18C40714, 0x18C40715, 0x18C40716, 0x18C40717,
    0x19C40723, 0x1AC48005, 0x1BC48005, 0x1C020009] : List Nat).map decodeWord = [
    .ok (.mov 0 196 7), .ok (.not 0 196 7), .ok (.neg 0 196 7), .ok (.abs 0 196 7), .ok (.popc 0 196 7),
    .ok (.clz 0 196 7), .ok (.ctz 0 196 7), .ok (.brev 0 196 7), .ok (.frc 0 196 7), .ok (.rint 0 196 7),
    .ok (.rcp 0 196 7), .ok (.rsq 0 196 7), .ok (.sqrt 0 196 7), .ok (.exp2 0 196 7), .ok (.log2 0 196 7),
    .ok (.sinp 0 196 7), .ok (.cosp 0 196 7), .ok (.tanh 0 196 7), .ok (.cvt 0 196 7 2 3), .ok (.li 0 196 32773),
    .ok (.lih 0 196 32773), .ok (.setmode 0 2 9)] := by decide +kernel

/-- R84 to R99, R193 to R197, from the fields of each encoding: BR, CALL, BRD, JOIN, LOOP, CHOICE, JMPR, NOP, END,
SYS, TRET, RDSR, WRSR, GETCYC, ICINV, EXIT, RET, SETMODER, GETMODE, WAITT, BRK. -/
theorem test_decode_control : ([
    0x202F1234, 0x210F1234, 0x225F1234, 0x23500000, 0x24C40700, 0x250F1234, 0x26C40700, 0x28000000, 0x28000001,
    0x28C40002, 0x28000003, 0x28C40704, 0x28C40705, 0x28C40006, 0x28000007, 0x28000008, 0x28000009, 0x2802070A,
    0x28C4000B, 0x2800C40C, 0x28C4000D] : List Nat).map decodeWord = [
    .ok (.br 0 2 987700), .ok (.call 0 987700), .ok (.brd 0 5 987700), .ok (.join 0 5), .ok (.loop 0 196 7),
    .ok (.choice 0 987700), .ok (.jmpr 0 196 7), .ok (.nop 0), .ok (.endI 0), .ok (.sys 0 196), .ok (.tret 0),
    .ok (.rdsr 0 196 7), .ok (.wrsr 0 196 7), .ok (.getcyc 0 196), .ok (.icinv 0), .ok (.exit 0), .ok (.ret 0),
    .ok (.setmoder 0 2 7), .ok (.getmode 0 196), .ok (.waitt 0 196), .ok (.brk 0 196)] := by decide +kernel

/-- R198 to R219, from the fields of each encoding: SHFL, SHFLX, SHFLUP, SHFLDN, VOTEALL, VOTEANY, BALLOT, MBCNT,
FIRSTLANE, RSUM, SCANS, BAR, BARA, BARW, DQPUSH, DQPOP, DQPEEK, SPAWN, TDONE, QPOP, SETGANG, ADOPTQ, OFFER, VWIN. -/
theorem test_decode_crews : ([
    0x29C4073E, 0x2AC4073E, 0x2BC40721, 0x2BC40761, 0x2B040080, 0x2B040081, 0x2BC40082, 0x2BC40783, 0x2BC40784,
    0x2CC40701, 0x2DC40701, 0x2E000002, 0x2E000006, 0x2E00000A, 0x2F00C400, 0x2FC40001, 0x2FC40002, 0x3000C407,
    0x3100C400, 0x32C40700, 0x3300C400, 0x34C40700, 0x35C40000, 0x3600C407] : List Nat).map decodeWord = [
    .ok (.shfl 0 196 7 62), .ok (.shflx 0 196 7 62), .ok (.shflup 0 196 7 33), .ok (.shfldn 0 196 7 33),
    .ok (.voteall 0 4), .ok (.voteany 0 4), .ok (.ballot 0 196), .ok (.mbcnt 0 196 7), .ok (.firstlane 0 196 7),
    .ok (.rsum 0 196 7 1), .ok (.scans 0 196 7 1), .ok (.bar 0 2), .ok (.bara 0 2), .ok (.barw 0 2),
    .ok (.dqpush 0 196), .ok (.dqpop 0 196), .ok (.dqpeek 0 196), .ok (.spawn 0 196 7), .ok (.tdone 0 196),
    .ok (.qpop 0 196 7), .ok (.setgang 0 196), .ok (.adoptq 0 196 7), .ok (.offer 0 196), .ok (.vwin 0 196 7)] := by decide +kernel

/-- R138 to R155, from the fields of each encoding: TAGOF, PAYLD, MKTERM, DEREF, GETCP, GETTR, UNIFY, BIND, FAIL, CUT,
HNEW, NEWVAR. -/
theorem test_decode_terms : ([
    0x38C40700, 0x38C40701, 0x38C4070C, 0x38C40710, 0x38C40011, 0x38C40012, 0x39C4073E, 0x3AC4073E, 0x3B000000,
    0x3B00C401, 0x3BC40702, 0x3BC40003] : List Nat).map decodeWord = [
    .ok (.tagof 0 196 7), .ok (.payld 0 196 7), .ok (.mkterm 0 196 7 4), .ok (.deref 0 196 7), .ok (.getcp 0 196),
    .ok (.gettr 0 196), .ok (.unify 0 196 7 62), .ok (.bind 0 196 7 62), .ok (.fail 0), .ok (.cut 0 196),
    .ok (.hnew 0 196 7), .ok (.newvar 0 196)] := by decide +kernel

/-- R100 to R104, R266 to R273, from the fields of each encoding: LDB, LDH, LDW, LDD, LDQ, STB, STH, STW, STD, STQ,
LDA, LDAD, STL, STLD, LDC, LDS, STS, FPUSH, FPOP, FTRYPOP. -/
theorem test_decode_memory : ([
    0x40C4073E, 0x41C4073E, 0x42C4073E, 0x43C4073E, 0x44C4073E, 0x45C4073E, 0x46C4073E, 0x47C4073E, 0x48C4073E,
    0x49C4073E, 0x4AC4073E, 0x4BC4073E, 0x4CC4073E, 0x4DC4073E, 0x4EC4073E, 0x4FC4073E, 0x50C4073E, 0x51C40700,
    0x51C40701, 0x51C40702] : List Nat).map decodeWord = [
    .ok (.ldb 0 196 7 62), .ok (.ldh 0 196 7 62), .ok (.ldw 0 196 7 62), .ok (.ldd 0 196 7 62),
    .ok (.ldq 0 196 7 62), .ok (.stb 0 196 7 62), .ok (.sth 0 196 7 62), .ok (.stw 0 196 7 62),
    .ok (.std 0 196 7 62), .ok (.stq 0 196 7 62), .ok (.lda 0 196 7 62), .ok (.ldad 0 196 7 62),
    .ok (.stl 0 196 7 62), .ok (.stld 0 196 7 62), .ok (.ldc 0 196 7 62), .ok (.lds 0 196 7 62),
    .ok (.sts 0 196 7 62), .ok (.fpush 0 196 7), .ok (.fpop 0 196 7), .ok (.ftrypop 0 196 7)] := by decide +kernel

/-- R274 to R286, from the fields of each encoding: ATADD, ATMIN, ATMAX, ATAND, ATOR, ATXOR, ATSWP, ATCAS, ATFADD,
ATINC, FENCE, PFENCE, CWB, CINV, CFLUSH, PREF, PIN, UNPIN, SAMPLE. -/
theorem test_decode_atomics_fences : ([
    0x52C4073E, 0x53C4073E, 0x54C4073E, 0x55C4073E, 0x56C4073E, 0x57C4073E, 0x58C4073E, 0x59C4073E, 0x5AC4073E,
    0x5BC4073E, 0x5C000006, 0x5D000055, 0x5EC40700, 0x5EC40701, 0x5EC40702, 0x5E00C403, 0x5EC40704, 0x5E00C405,
    0x5FC4073E] : List Nat).map decodeWord = [
    .ok (.atadd 0 196 7 62), .ok (.atmin 0 196 7 62), .ok (.atmax 0 196 7 62), .ok (.atand 0 196 7 62),
    .ok (.ator 0 196 7 62), .ok (.atxor 0 196 7 62), .ok (.atswp 0 196 7 62), .ok (.atcas 0 196 7 62),
    .ok (.atfadd 0 196 7 62), .ok (.atinc 0 196 7 62), .ok (.fence 0 1 2), .ok (.pfence 0 85), .ok (.cwb 0 196 7),
    .ok (.cinv 0 196 7), .ok (.cflush 0 196 7), .ok (.pref 0 196), .ok (.pin 0 196 7), .ok (.unpin 0 196),
    .ok (.sample 0 196 7 62)] := by decide +kernel

/-- R287 to R297, from the fields of each encoding: BANKMODE, BANKPWR, BANKQ, LMSG, BWPHASE, TOPEN, TCLOSE, TACQR,
TACQW, TREL, TQUERY, TSPLIT, TLD, TST. -/
theorem test_decode_banks_tiles : ([
    0x60C41180, 0x60C47381, 0x60C40282, 0x61C42580, 0x6200C402, 0x63C40700, 0x6300C401, 0x6300C402, 0x6300C403,
    0x6300C404, 0x63C40705, 0x64C4073E, 0x65C4073E, 0x66C4073E] : List Nat).map decodeWord = [
    .ok (.bankmode 0 196 1 3), .ok (.bankpwr 0 196 7 7), .ok (.bankq 0 196 0 5), .ok (.lmsg 0 196 2 11),
    .ok (.bwphase 0 196 2), .ok (.topen 0 196 7), .ok (.tclose 0 196), .ok (.tacqr 0 196), .ok (.tacqw 0 196),
    .ok (.trel 0 196), .ok (.tquery 0 196 7), .ok (.tsplit 0 196 7 62), .ok (.tld 0 196 7 62), .ok (.tst 0 196 7 62)] := by decide +kernel

/-- R345 to R371, from the fields of each encoding: COPY, COPYG, COLLECT, FORK, RDV, PUBLISH, MLDS, MONES, MSWAP,
MSTREAM, MDRAIN, MZERO, MSHADOW. -/
theorem test_decode_engines : ([
    0x68C4073E, 0x69C4073E, 0x6AC4073E, 0x6BC4073E, 0x6CC40002, 0x6D00C400, 0x7000C407, 0x71000002, 0x72000000,
    0x73C4073E, 0x74C4073E, 0x7500C400, 0x76000001] : List Nat).map decodeWord = [
    .ok (.copy 0 196 7 62), .ok (.copyg 0 196 7 62), .ok (.collect 0 196 7 62), .ok (.fork 0 196 7 62),
    .ok (.rdv 0 196 2), .ok (.publish 0 196), .ok (.mlds 0 196 7), .ok (.mones 0 2), .ok (.mswap 0),
    .ok (.mstream 0 196 7 62), .ok (.mdrain 0 196 7 62), .ok (.mzero 0 196), .ok (.mshadow 0 1)] := by decide +kernel

/-- R44, R45: a reserved major opcode, a reserved FN, a condition of BR above 3, a must-be-zero field, p0 as the destination
of CMP, a pair that R126 excludes, a selector of SETMODE above 9, and a cluster outside the grid are no words. -/
theorem test_decode_refuses : ([0x00000000, 0x7F000000, 0x280000FF, 0xA0400000, 0xA8000100, 0x15400405, 0x19020122, 0x1C0A0000,
    0x60C68180, 0x3B00000F] : List Nat).all (fun w => match decodeWord w with | .error _ => true | .ok _ => false) = true := by
  decide +kernel

/-! ## Well-formedness: every check refuses a term that breaks it alone -/

theorem test_ill_formed_1 : ([
    .cmp 0 0 0 0 0, .pred 0 0 0 0 0 0 0, .cvt 0 0 0 2 2, .cvt 0 0 0 14 0, .cvt 0 0 0 11 9, .setmode 0 0 8,
    .setmode 0 9 3, .setmode 0 10 0, .br 0 4 0, .setmoder 0 3 0, .bankmode 0 0 8 0, .bankmode 0 0 0 8,
    .bankpwr 0 0 8 0, .bankpwr 0 0 0 8, .bankq 0 0 8 0, .bankq 0 0 0 8, .lmsg 0 0 8 0, .lmsg 0 0 0 16,
    .illegalInstruction 4 ⟨false, 0⟩, .barrierComplete 0 256, .waiterRelease 0 16, .bankRetentionEntry 64 0,
    .bankRetentionEntry 0 64, .bankDeepOffEntry 64 0, .bankDeepOffEntry 0 64, .bankWakeComplete 64 0,
    .bankWakeComplete 0 64, .cacheBankPowerOff 64 0, .cacheBankPowerOff 0 64, .fifoWaiterRetry 0 16, .reqs 4 0 0,
    .reqs 0 4096 0, .reqm 4 0 0, .reqm 0 4096 0, .upg 4 0 0, .upg 0 4096 0, .wb 4 0 0, .wb 0 4096 0, .inv 4 0 0,
    .inv 0 4096 0, .fwds 4 0 0 0, .fwds 0 4096 0 0, .fwds 0 0 0 5, .fwdm 4 0 0 0, .fwdm 0 4096 0 0, .fwdm 0 0 0 5,
    .recall 4 0 0, .recall 0 4096 0, .data 4 0 0 .shared, .data 0 4096 0 .shared, .ack 4 0 0, .ack 0 4096 0,
    .upgack 4 0 0, .upgack 0 4096 0, .wback 4 0 0, .wback 0 4096 0, .alreadywb 4 0 0, .alreadywb 0 4096 0,
    .hostSnoop 4 0, .pinFadeTick 4 0, .pinFadeTick 0 64, .pinWindowFaded 4 0, .pinWindowFaded 0 64,
    .lanternHandlerStart 128, .lanternBudgetExpiry 128, .lanternPortRead 128 0 0 0, .lanternPortWrite 128 0 0 0,
    .lanternPortPrefetch 128 0, .lanternPortAdd 128 0 false 0, .lanternPortAnd 128 0 false 0] : List Instr).all (fun i => !i.wellFormed) = true := by decide +kernel

theorem test_ill_formed_2 : ([
    .lanternPortOr 128 0 false 0, .lanternPortXor 128 0 false 0, .lanternPortSwap 128 0 false 0,
    .lanternPortReply 128 0 0, .lanternPortRefused 128, .lanternPortComplete 128 0, .lanternDoneDefault 128,
    .lanternDoneSubstitute 128, .specFenceComplete 0 16, .copyCommandAccept 64, .copyCommandStart 64,
    .copyCommandComplete 64, .waittWake 0 16, .publishSwap 4096 0, .publishSwap 0 64, .planeLoadStart 512,
    .planeLoadEnd 512, .streamPassStart 512, .streamPassEnd 512, .drainStart 512, .drainEnd 512, .mzeroEnd 512,
    .mshadowEnd 512, .sequencerEndComplete 512 0, .sequencerEndComplete 0 2, .faultRecordWrite 4096,
    .fqresRetry 4096 0, .fqresUnresolvable 4096 0, .narrowing 64 [] .urgent, .crewRestore 0 512,
    .launchRecordDispatch 2048, .doorbell 2048 0, .qctlStallClear 2048, .evheadWrite 64 0, .fqbaseWrite 64 0,
    .invlen 64 0, .invalidationComplete 4096 0 0, .newctx 64, .endctx 64 0, .endctx 0 4096, .mapframe 64 0 0 0 0 0,
    .mapframe 0 4096 0 0 0 0, .setwindow 64 0 0 ⟨0, 0, 0, 0, 0⟩, .setwindow 0 8 0 ⟨0, 0, 0, 0, 0⟩,
    .setwindow 0 0 16 ⟨0, 0, 0, 0, 0⟩, .biasflip 64 0 0 false, .biasflip 0 4096 0 false,
    .biasFlipComplete 4096 0 false, .lantern 64 0 0 0 0 0, .lantern 0 4096 0 0 0 0, .image 64 0 0, .image 0 4096 0,
    .assignq 64 0, .assignq 0 2048, .setcache 64 0, .setreserve 64 0, .stash 64 0, .groups 64 0 0, .groups 0 4096 0,
    .swap 64 false, .clearctx 64 0, .clearctx 0 4096, .span 64 0, .checkpoint 64 0 0 0 false,
    .checkpoint 0 4096 0 0 false, .checkpoint 0 0 64 0 false, .mirror 64 0 0 0 0, .mirror 0 0 4096 0 0,
    .requestRefused 64 0, .krazuFlitReceive 16 ⟨0, 0, 0, 0, [], true⟩] : List Instr).all (fun i => !i.wellFormed) = true := by decide +kernel

theorem test_ill_formed_3 : ([
    .krazuAckTimeout 16, .krazuRetrainComplete 16 false, .krazuHeartbeatTimeout 32768, .droopDetect 64 0,
    .processMonitorSample 64 0, .partitionReset 64, .evlogWrite 64 0 0, .lanternHandlerException 128, .voteall 0 0,
    .voteany 0 0, .fence 0 0 3, .pfence 0 0, .rdv 0 0 0] : List Instr).all (fun i => !i.wellFormed) = true := by decide +kernel

/-- The largest values that the checks of well-formedness let pass. -/
theorem test_well_formed : ([.br 0 3 0, .setmoder 0 2 0, .setmode 0 2 15, .setmode 0 9 2, .cvt 0 0 0 9 4, .cvt 0 0 0 3 13,
    .cmp 0 7 7 0 0, .pred 0 3 7 0 0 0 0, .lmsg 0 0 7 15, .bankq 0 0 7 7, .reqs 3 4095 0, .pinFadeTick 3 63, .drainStart 511,
    .lanternDoneDefault 127, .checkpoint 63 4095 0xFFFFFFFF 0 true, .krazuAckTimeout 15, .doorbell 2047 0] : List Instr).all
    Instr.wellFormed = true := by decide +kernel

/-! ## States -/

/-- The machine with one word loaded for a crew of 32 lanes of core 0 (or the issuer that the word needs). -/
def at_ (w : Nat) : State := State.reset.withFetchWord 32 w

/-- Change the thread, the split, or the registers of the split whose turn it is. -/
def onThread (f : Thread → Thread) (s : State) : State :=
  match s.turn with | some x => modThread x.1 f s | none => s
def onSplit (f : Split → Split) (s : State) : State :=
  match s.turn with | some x => modSplit x.1 x.2 f s | none => s
def onRegs (f : Regs → Regs) (s : State) : State := onThread (fun t => { t with regs := f t.regs }) s
def put (r x : Nat) (s : State) : State := onRegs (fun g => g.apply (.scal r (BitVec.ofNat 32 x))) s
def putV (l r x : Nat) (s : State) : State := onRegs (fun g => g.apply (.vec l r (BitVec.ofNat 32 x))) s
def type_ (c : Nat) (s : State) : State := onRegs (fun g => { g with cmode := BitVec.ofNat 32 (16 * c) }) s

/-- Something of the state after one step; `none` when the step does not answer a next state. -/
def after1 {α : Type} (s : State) (f : State → α) : Option α :=
  match step s with | .next t => some (f t) | _ => none

/-- A lane's register, a predicate, a scalar register, and the PC, as the crew's thread has them. -/
def thread? (k : Kind) (s : State) : Option Thread := Sparse.find? s.threads (loadTid k)
def vec? (l r : Nat) (s : State) : Option Nat := (thread? .crew s).map (fun t => (t.regs.vec l r).toNat)
def pred? (l r : Nat) (s : State) : Option Bool := (thread? .crew s).map (fun t => t.regs.pred l r)
def scal? (r : Nat) (s : State) : Option Nat := (thread? .crew s).map (fun t => (t.regs.scal r).toNat)
def pc? (s : State) : Option Nat := (getSplit s (loadTid .crew) 0).map (fun sp => sp.pc.toNat)

/-! ## Single steps -/

/-- R79, R22: `LI v1, #5 !` (0x9A01_0005) gives every lane 5 at the close, and the next word is at 4. -/
theorem test_li_closes : after1 (at_ 0x9A010005) (fun t => (vec? 0 1 t, vec? 31 1 t, pc? t)) = some (some 5, some 5, some 4) := by
  decide +kernel

/-- R22: without `!` the result waits for the close. -/
theorem test_li_waits : after1 (at_ 0x1A010005) (fun t => (vec? 0 1 t, pc? t)) = some (some 0, some 4) := by decide +kernel

/-- R16, R84: `RDSR v0, LANEID !` gives each lane its number. -/
theorem test_rdsr_laneid : after1 (at_ 0xA8000004) (fun t => (vec? 0 0 t, vec? 31 0 t)) = some (some 0, some 31) := by decide +kernel

/-- R65: I32 `ADD v3, v1, v2 !` wraps at 2^32. -/
theorem test_add_wraps : after1 (putV 3 1 0xFFFFFFFF (putV 3 2 2 (at_ 0x81030102))) (vec? 3 3) = some (some 1) := by decide +kernel

/-- R66: under I32, DIV of -7 by 2 gives -3 and REM gives -1. -/
theorem test_div_truncates : after1 (putV 0 1 0xFFFFFFF9 (putV 0 2 2 (at_ 0x86030102))) (vec? 0 3) = some (some 0xFFFFFFFD) := by
  decide +kernel
theorem test_rem_sign : after1 (putV 0 1 0xFFFFFFF9 (putV 0 2 2 (at_ 0x87030102))) (vec? 0 3) = some (some 0xFFFFFFFF) := by
  decide +kernel

/-- R65, R107: F32 1.5 + 2.25 = 3.75. -/
theorem test_add_f32 : after1 (type_ 2 (putV 0 1 0x3FC00000 (putV 0 2 0x40100000 (at_ 0x81030102)))) (vec? 0 3) = some (some 0x40700000) := by
  decide +kernel

/-- R77: F32 `SQRT v2, v1 !` of 2 rounds to 0x3FB504F3. -/
theorem test_sqrt_two : after1 (type_ 2 (putV 0 1 0x40000000 (at_ 0x98020112))) (vec? 0 2) = some (some 0x3FB504F3) := by
  decide +kernel

/-- R127: under RND = 0 and SAT = 0, CVT I32, I8 of 300 gives 44. -/
theorem test_cvt_wraps : (cvtValue 0 7 ⟨0, false, false⟩ false 300).1 % 256 = 44 := by decide +kernel

/-- R199: `VOTEALL p2 !` writes true where every active lane's guard is true. -/
theorem test_voteall : after1 (at_ 0xAB020080) (fun t => (pred? 0 2 t, pred? 31 2 t)) = some (some true, some true) := by decide +kernel

/-- R198: `SHFLUP v3, v1, #1 !` gives lane 1 the value of lane 0, and lane 0 its own. -/
theorem test_shflup : after1 (putV 0 1 7 (putV 1 1 9 (at_ 0xAB030101))) (fun t => (vec? 0 3 t, vec? 1 3 t)) = some (some 7, some 7) := by
  decide +kernel

/-- R102, R6: `LDW v6, s4:s5, #0 !` of address 0 reads the four bytes of the word itself, the least significant first. -/
theorem test_ldw_reads_word : after1 (at_ 0xC206C400) (vec? 31 6) = some (some 0xC206C400) := by decide +kernel

/-- R102: `LDB v6, s4:s5, #3 !` under I32 sign-extends the byte 0xC0 at address 3. -/
theorem test_ldb_extends : after1 (at_ 0xC006C403) (vec? 0 6) = some (some 0xFFFFFFC0) := by decide +kernel

/-- R103, R301, R438: `STW v1, s4:s5, #32 !` leaves the highest lane's word at 32; after reset no cache bank is active, so it
lies at the L2 level. -/
theorem test_stw_highest_lane : after1 (putV 31 1 0x01020304 (putV 0 1 9 (at_ 0xC701C408)))
    (fun t => (List.range 4).map (fun i => (physByte t (loadPage + 32 + i)).toNat)) = some [4, 3, 2, 1] := by decide +kernel

/-- R92: `BR ALWAYS, +3` goes to 4 + 12 = 16 and does not close its run. -/
theorem test_br_target : after1 (at_ 0x20000003) pc? = some (some 16) := by decide +kernel

/-- R31: `CALL +1 !` transfers to 8 and leaves 4 in s62:s63. -/
theorem test_call_link : after1 (at_ 0xA1000001) (fun t => (pc? t, scal? 62 t, scal? 63 t)) = some (some 8, some 4, some 0) := by
  decide +kernel

/-- R28, R168: END of the only split retires the crew. -/
theorem test_end_retires : after1 (at_ 0x28000001) (fun t => (thread? .crew t).isNone) = some true := by decide +kernel

/-- R44, R375: a word that is no instruction traps, and a TVEC of 0 kills the crew. -/
theorem test_illegal_kills : after1 (at_ 0) (fun t => (thread? .crew t).isNone) = some true := by decide +kernel

/-- R375, R376: with TVEC 0x1000 it enters the handler with cause 1, CODE 1, the run open, and TRAPPC 0. -/
theorem test_illegal_traps : after1 { at_ 0 with contexts := [(loadCid, { Context.fresh 63 with ptbase := loadTables, tvec := 0x1000 })] }
    (fun t => (pc? t, (getSplit t (loadTid .crew) 0).map (fun sp => (sp.trapRegs.cause.toNat, sp.trapRegs.pc.toNat)))) =
    some (some 0x1000, some (1 + 256 + 65536, 0)) := by decide +kernel

/-- R95: `LOOP s4, #1` with a count of zero skips the one word of its body. -/
theorem test_loop_skips : after1 (at_ 0x24C40000) pc? = some (some 8) := by decide +kernel

/-- R274: `ATADD v2, s4:s5, v6 !` at 64 adds 1 for each of the 32 lanes; lane 31 reads 31. -/
theorem test_atadd_ascends : after1 (put 4 64 ((List.range 32).foldl (fun s l => putV l 6 1 s) (at_ 0xD202C406))) (fun t => (vec? 0 2 t, vec? 31 2 t)) =
    some (some 0, some 31) := by decide +kernel

/-- R370: the matrix sequencer's `MZERO s13` of no tile has no effect but the next word. -/
theorem test_mzero_none : after1 (at_ 0x7500CD00) (fun t => (getSplit t (loadTid .mseq) 0).map (fun sp => sp.pc.toNat)) = some (some 4) := by
  decide +kernel

/-- R181: `DQPUSH s4:s5` of the scout puts its pair into the decision queue. -/
theorem test_dqpush : after1 { at_ 0x2F00C400 with shares := [(shareKey loadLaunch 0, ⟨[0], TrapRegs.start, [], 0, false⟩)] } (fun t => dqLength t loadLaunch 0) = some 1 := by decide +kernel

/-- R429: nothing runs after reset; the step only lets time pass. -/
theorem test_reset_idles : after1 State.reset (fun t => (t.chiptime, t.turn)) = some (1, none) := by decide +kernel

/-! ## Witnesses -/

def spare : Env := ⟨0, 0, 0, loadThread .crew 0, Split.start 0 0, Regs.start⟩
/-- What the split whose turn it is sees. -/
def envAt (s : State) : Env := (issuer s).getD spare

/-- A crew of 32 lanes, its scout, the matrix sequencer and the copy sequencer, each about to issue. -/
def crew : State := at_ 0x9A010005
def scout : State := at_ 0x2F00C400
def mseq : State := at_ 0x7500CD00

/-- The launch of a crew has the highest register file. -/
def ty32 : ElemType := ⟨1, 32, .sint⟩
def ty64 : ElemType := ⟨1, 64, .sint⟩
def tyF32 : ElemType := ⟨1, 32, .flt 2⟩
def tyF16 : ElemType := ⟨2, 16, .flt 3⟩

/-- The line of an address has been read, and its translation is held no longer. -/
def warm (va : Nat) (s : State) : State := { (splitRead (envAt s) 8 va s).2 with tlb := [] }

/-- ArithmeticCompletes, DivisionTable, LogicCompletes, IntegersWrap: a vector register, a pair and a scalar one. -/
theorem test_meets_arithmetic : TypedReady crew (envAt crew) ty32 63 [srcFor 63 1 1, srcFor 63 0xC4 1] ∧ ty32.isFloat = false ∧
    (envAt crew).sat = false ∧
    TypedReady (type_ 10 crew) (envAt (type_ 10 crew)) ty64 62 [srcFor 62 0 2, srcFor 62 0xC4 2] ∧
    TypedReady (type_ 10 crew) (envAt (type_ 10 crew)) ty64 62 [srcFor 62 0 2, srcFor 62 0xFF 1] ∧
    TypedReady scout (envAt scout) ty32 0xFF [srcFor 0xFF 0xC0 1, srcFor 0xFF 0xC4 1] := by decide +kernel

/-- SelectionsAndPredicatesComplete, ShiftsAndBitFieldsComplete and UnaryCompletes: the unpacked, the packed and the float TYPEs. -/
theorem test_meets_selections : (OpsOk (envAt crew) anyKind [⟨63, .any, 1⟩, srcFor 63 62 2, srcFor 63 0xC4 1] ∧ (envAt crew).takes 63) ∧
    OpsOk (envAt crew) anyKind [⟨63, .vect, 1⟩, ⟨0xC4, .any, 1⟩, ⟨0, .any, 1⟩] ∧
    (OpsOk (envAt scout) anyKind [⟨0xFE, .any, 2⟩, srcFor 0xFE 0xC4 2, srcFor 0xFE 0xFF 1] ∧ Issues scout (envAt scout)) ∧
    (Issues crew (envAt crew) ∧ elemType (envAt crew).type = some ty32 ∧ ty32.n = 1 ∧ (envAt crew).lanes ≠ [] ∧
      OpsOk (envAt crew) anyKind [⟨63, .any, 1⟩, ⟨0xFF, .any, 1⟩] ∧ OpsOk (envAt crew) anyKind []) ∧
    (TypedReady (type_ 2 crew) (envAt (type_ 2 crew)) tyF32 0 [srcFor 0 63 1] ∧ tyF32.isFloat = true ∧ tyF32.b ≠ 64) ∧
    (TypedReady crew (envAt crew) ty32 0xC4 [srcFor 0xC4 0xFF 1] ∧ ty32.isFloat = false ∧ ty32.n = 1) := by
  and_intros <;> decide +kernel

/-- ConversionsComplete: the widest plain formats, and both directions of the SX ones. -/
theorem test_meets_conversions : Issues crew (envAt crew) ∧ (envAt crew).takes 62 ∧ isSx 15 = false ∧ isSx 9 = false ∧ isSx 11 = true ∧
    isSx 13 = true ∧ OpsOk (envAt crew) anyKind [⟨62, .any, codeRegs 9⟩, srcFor 62 63 (codeRegs 15)] ∧
    OpsOk (envAt crew) crewOnly [⟨63, .vect, 1⟩, ⟨0, .vect, 1⟩] := by decide +kernel

/-- ImmediatesAndModesComplete: the last register, the first and the last mode field, and legal modes at the ends of
their ranges. -/
theorem test_meets_modes : let s := put 4 0x3FFF (put 5 0xB crew)
    Issues s (envAt s) ∧ OpsOk (envAt s) anyKind [⟨63, .any, 1⟩] ∧ OpsOk (envAt s) anyKind [⟨62, .any, 2⟩] ∧
    modeField 0 = some (true, 0, 3) ∧ modeField 9 = some (false, 2, 2) ∧
    (OpsOk (envAt s) anyKind [⟨0xC4, .scal, 2⟩] ∧ OpsOk (envAt s) anyKind [⟨0xC4, .scal, 1⟩] ∧
      cmodeBad ((envAt s).regs.field 0 0xC4).toNat = false ∧ mmodeBad ((envAt s).regs.field 0 (0xC4 + 1)).toNat = false) := by
  decide +kernel

/-- SystemWordsComplete: LANEID and TEMP, FLAGS, the first and the last lane register that WRSR takes, and a sequencer. -/
theorem test_meets_system : let e := envAt crew
    (Issues crew e ∧ OpsOk e anyKind [⟨62, .any, 2⟩] ∧ e.th.kind = .crew ∧ e.lanes ≠ []) ∧
    (srRow 0 = some ⟨.lane, false, .ro⟩ ∧ srAllowed .crew 0 = true ∧ OpsOk e anyKind [⟨63, .any, srRegs 0⟩]) ∧
    (srRow 0x41 = some ⟨.crew, false, .ro⟩ ∧ srAllowed .scout 0x41 = true ∧ OpsOk e anyKind [⟨0xFF, .any, srRegs 0x41⟩]) ∧
    (srWritable 0x30 = true ∧ srLane 0x30 = true ∧ srWritable 0x34 = true ∧ srLane 0x34 = true ∧ OpsOk e anyKind [⟨62, .any, srRegs 0x34⟩]) ∧
    (srWritable 0x20 = true ∧ srAllowed .mseq 0x20 = true ∧ srLane 0x20 = false ∧ OpsOk e anyKind [⟨0xFF, .scal, srRegs 0x20⟩]) ∧
    OpsOk (envAt mseq) anyKind [⟨0xFF, .scal, 1⟩] := by decide +kernel

/-- TransfersAndTheirTraps: a backward target, and targets whose low bits are 0 and 2. -/
theorem test_meets_transfers : let s (x : Nat) := put 62 x (put 6 x crew)
    Issues (s 8) (envAt (s 8)) ∧ brTaken (envAt (s 8)) 0 = true ∧ brTaken (envAt (s 8)) 3 = false ∧
    ((envAt (s 8)).target 0xFFFFF).toNat % 4 = 0 ∧ ((envAt (s 8)).regs.pair 0 0xFE).toNat % 4 = 0 ∧
    OpsOk (envAt (s 8)) anyKind [⟨0xC0, .scal, 2⟩, ⟨0xC6, .scal, 2⟩] ∧ ((envAt (s 8)).regs.pair 0 0xC6).toNat % 4 = 0 ∧
    Issues (s 2) (envAt (s 2)) ∧ ((envAt (s 2)).regs.pair 0 0xFE).toNat % 4 ≠ 0 ∧
    OpsOk (envAt (s 2)) anyKind [⟨0xC0, .scal, 2⟩, ⟨0xC6, .scal, 2⟩] ∧ ((envAt (s 2)).regs.pair 0 0xC6).toNat % 4 ≠ 0 ∧
    (let t := onSplit (fun sp => { sp with pc := 2 }) crew
     Issues t (envAt t) ∧ brTaken (envAt t) 0 = true ∧ ((envAt t).target 0).toNat % 4 ≠ 0) := by decide +kernel

/-- The split whose turn it is, and whether an instruction has a next state. -/
def onSplitOf (s : State) : Split := (envAt s).sp
def runs (i : Instr) (s : State) : Bool := match exec i s with | .next _ => true | _ => false

/-- A split with `n` active loop levels, at a word far from their ends. -/
def loops (n : Nat) : State :=
  onSplit (fun sp => { sp with loop := { sp.loop with levels := List.replicate n ⟨4, 64⟩, lc := [2, 2, 2] } }) (put 4 1 crew)

/-- LoopCompletes, LoopIterations: depths 0, 2 and 3, a count of zero and of one, and the last word of a body. -/
theorem test_meets_loops : OpsOk (envAt (loops 0)) anyKind [⟨0xC4, .scal, 1⟩] ∧ Issues (loops 3) (envAt (loops 3)) ∧
    (envAt (loops 3)).regs.field 0 0xC4 ≠ 0 ∧ (envAt (loops 3)).sp.loop.levels.length = 3 ∧
    loopOverruns (envAt (loops 0)).sp.loop 0 (4 * 256) = false ∧ (envAt (loops 0)).regs.field 0 0xC4 ≠ 0 ∧
    loopOverruns (envAt (loops 2)).sp.loop 0 8 = false ∧ (envAt (loops 2)).sp.loop.levels.length ≠ 3 ∧
    (envAt crew).regs.field 0 0xC4 = 0 ∧ (envAt crew).sp.run.count + 1 < 64 ∧
    runs (.nop 0) (loops 3) = true ∧ runs (.br 0 3 1) crew = true ∧ brTaken (envAt crew) 3 = false ∧
    (let sp (n : Nat) := onSplitOf (onSplit (fun sp => { sp with pc := 256, loop := { sp.loop with lc := [2, 2, BitVec.ofNat 32 n] } }) (loops 3))
     (sp 2).loop.levels = [⟨4, 64⟩, ⟨4, 64⟩] ++ [⟨4, 64⟩] ∧ (⟨4, 64⟩ : Level).last = (sp 2).pc.toNat ∧
     [(⟨4, 64⟩ : Level), ⟨4, 64⟩].length < (sp 2).loop.lc.length ∧ (sp 2).loop.lcAt 2 - 1 ≠ 0 ∧ (sp 1).loop.lcAt 2 - 1 = 0) := by decide +kernel

/-- A word runs to its end; then its result and state exist. -/
def okay {α : Type} (f : M α) (s : State) : Bool := match f s with | .ok _ _ => true | .error _ _ => false
theorem ok_of_okay {α : Type} {f : M α} {s : State} (h : okay f s = true) : ∃ x t, f s = .ok x t := by
  unfold okay at h
  split at h
  · exact ⟨_, _, by assumption⟩
  · cases h

/-- Parts that all answer, and lanes that all run. -/
def answers (e : Env) (ps : List Machine.Part) (go : Machine.Part → State → PartResult × State) (s : State) : Bool :=
  ((ps.filter (fun p => !e.sp.progress.did p)).foldl (stepPart go) (⟨e.sp.progress, []⟩, s)).1.bad.isEmpty
theorem partsAnswer_of {e : Env} {ps : List Machine.Part} {go : Machine.Part → State → PartResult × State} {s : State}
    (h : answers e ps go s = true) : ∃ prog t, PartsAnswer e ps go s prog t := by
  have h' := List.isEmpty_iff.mp h
  rcases hf : (ps.filter (fun p => !e.sp.progress.did p)).foldl (stepPart go) (⟨e.sp.progress, []⟩, s) with ⟨⟨prog, bad⟩, t⟩
  rw [hf] at h'
  cases h'
  exact ⟨prog, t, hf⟩
def laneRun {α : Type} (ls : List Nat) (f : Nat → L α) (s : State) : Bool :=
  (ls.foldl (runLane f) (⟨[], [], []⟩, s)).1.bad.isEmpty
theorem lanesRun_of {α : Type} {ls : List Nat} {f : Nat → L α} {s : State} (h : laneRun ls f s = true) :
    ∃ outs t, LanesRun ls f s outs t := by
  have h' := List.isEmpty_iff.mp h
  rcases hf : ls.foldl (runLane f) (⟨[], [], []⟩, s) with ⟨⟨outs, bad, undo⟩, t⟩
  rw [hf] at h'
  cases h'
  exact ⟨outs, t, undo, hf⟩

/-- Bytes of the loaded page. -/
def mem_ (a n x : Nat) (s : State) : State := { s with mem := Memory.writeAll s.mem (loadPage + a) (leBytes n x) }

/-- Lane 0 alone has its guard, and no lane has it. -/
def someLanes : State := onRegs (fun g => { (g.apply (.pred 0 1 true)) with cmode := 1 }) crew
def noLanes : State := onRegs (fun g => { g with cmode := 8 }) crew

theorem proceeds_of_issues {s : State} {e : Env} (h : Issues s e) : Proceeds s e :=
  ⟨h.1, by simp [h.2.1], h.2.2⟩

/-- EndAndExitComplete, SoftwareTrapsAndWaitsComplete: guards in some, all and no lanes; a time that has come. -/
theorem test_meets_exits : ((envAt crew).afterClose crew).lanes.length = ((envAt crew).afterClose crew).active.length ∧
    (Issues someLanes (envAt someLanes) ∧ ((envAt someLanes).afterClose someLanes).lanes ≠ [] ∧
      ((envAt someLanes).afterClose someLanes).lanes.length ≠ ((envAt someLanes).afterClose someLanes).active.length) ∧
    (Issues noLanes (envAt noLanes) ∧ ((envAt noLanes).afterClose noLanes).lanes = []) ∧
    (Issues crew (envAt crew) ∧ (envAt crew).th.kind = .crew ∧ OpsOk (envAt crew) anyKind [⟨0xC4, .scal, 2⟩] ∧
      waitTime (envAt crew) 0xC4 ≤ chipNow (closed crew (envAt crew)) ∧
      lateCommands (closed crew (envAt crew)) (envAt crew).tid (closed crew (envAt crew)).chiptime = []) := by decide +kernel

/-- DivergeAndJoinComplete: seven tokens before, the guard divides; a group on top, another one, and none. -/
theorem test_meets_divergence : let s := onSplit (fun sp => { sp with tokens := List.replicate 7 (15, 0) }) someLanes
    let e := envAt s
    let c := e.afterClose s
    Issues s e ∧ e.th.kind = .crew ∧ c.sp.tokens.length < 8 ∧ c.lanes ≠ [] ∧ c.lanes.length < c.active.length ∧ c.inHandler = false ∧
    c.th.freeSid = some 1 ∧ c.th.spare c.sp ≠ 0 ∧ c.sp.tokens.getLast? = some (15, 0) ∧ (c.sp.tokens.getLast?.map Prod.fst) ≠ some 0 ∧
    ((envAt noLanes).afterClose noLanes).lanes = [] ∧ ((envAt crew).afterClose crew).sp.tokens.getLast? = none := by decide +kernel

/-- A crew whose split is in its trap handler, with a record to restore. -/
def handler : State := onThread (fun t => { t with handler := some 0 }) (onSplit (fun sp => { sp with
  saved := some ⟨0xFFFFFFFF, 0, 8, Loop.start, Run.closed, 0, 0, Progress.none⟩ }) crew)
def withTvec (s : State) : State :=
  { s with contexts := [(loadCid, { Context.fresh 63 with ptbase := loadTables, tvec := 0x1000 })] }

/-- R380: another split of the crew issues in the same cycle. -/
def abreastCrew : State := { crew with abreast := [(loadTid .crew, 1)] }

/-- SoftwareTrapsAndWaitsComplete, TrapReturnRestores, TrapEntry: a trap that is raised alone, and one that another split's
cycle keeps. -/
theorem test_meets_cycles :
    ([crew, abreastCrew].map (fun s => let e := envAt s
      (decide (Issues s e), decide (e.th.kind = .crew), trapJoins (opened s) e.th e.tid e.sid,
        trapJoins (closed s e) (e.afterClose s).th e.tid e.sid, trapJoins s e.th e.tid e.sid)))
      = [(true, true, false, false, false), (true, true, true, true, true)] := by decide +kernel

/-- R380: split 0's trap, raised while split 1 issues in the same cycle, waits in its record, and the crew's next turn is
its own. -/
theorem test_trap_waits : (match exec (.brk 0 9) abreastCrew with
    | .next t => (Sparse.find? t.threads (loadTid .crew)).map (fun u => (u.handler, u.nextPending.map Prod.fst, trapTurn u 0, trapTurn u 1))
    | _ => none) = some (none, some 0, true, false) := by decide +kernel

/-- TrapReturnRestores, TrapEntry: inside and outside a handler, a TVEC that can be used and one that cannot. -/
theorem test_meets_traps : (Issues handler (envAt handler) ∧ (envAt handler).th.kind = .crew ∧
      (envAt handler).th.handler = some (envAt handler).sid ∧
      ((envAt handler).afterClose handler).sp.trapRegs.pc.toNat % 4 = 0 ∧ (onSplitOf handler).saved.isSome = true) ∧
    (envAt crew).th.handler ≠ some (envAt crew).sid ∧
    ((Sparse.find? (withTvec crew).contexts (cidOf crew loadLaunch)).map (fun c => tvecOk c.tvec) = some true ∧
      (envAt crew).th.handler = none) ∧
    (Sparse.find? crew.contexts (cidOf crew loadLaunch)).map (fun c => tvecOk c.tvec) = some false := by decide +kernel

/-- ShufflesVotesReductionsComplete: B scalar and vector, no lane and lane 0, whole and half words. -/
theorem test_meets_shuffles : let e := envAt crew
    (CrewReady crew e [⟨63, .vect, 1⟩, ⟨63, .vect, 1⟩, ⟨0xC4, .any, 1⟩] ∧ CrewReady crew e [⟨0, .vect, 1⟩, ⟨1, .vect, 1⟩] ∧ e.lanes ≠ [] ∧
      isVec 63 = true) ∧
    (elemType e.type = some ty32 ∧ reduceType ty32 = true ∧ OpsOk e crewOnly [⟨63, .vect, 1⟩, ⟨0, .vect, 1⟩]) ∧
    (elemType (envAt (type_ 3 crew)).type = some tyF16 ∧ reduceType tyF16 = true ∧
      OpsOk (envAt (type_ 3 crew)) crewOnly [⟨63, .vect, 1⟩, ⟨0, .vect, 1⟩]) := by decide +kernel
theorem test_meets_votes : let e := envAt crew
    (OpsOk e crewOnly [⟨0xFE, .any, 2⟩] ∧ OpsOk e crewOnly [⟨0xFF, .any, 1⟩, ⟨0, .vect, 1⟩] ∧
      OpsOk e crewOnly [⟨63, .vect, 1⟩, ⟨0xC4, .any, 2⟩] ∧ e.lanes.head? = some 0 ∧ (envAt noLanes).lanes = []) := by decide +kernel

/-- BarriersComplete: slots 0 and 3, an arrival, one while an earlier one is pending, a wait that is over, and no pending
arrival. -/
theorem test_meets_barriers : let s := onThread (fun t => { t with circ := 0x01FFFF00 }) crew
    let r := onSplit (fun sp => { sp with handed := some .go }) s
    let e := envAt s
    (Issues s e ∧ e.th.kind = .crew ∧ circOf e.th.circ 0 ≠ 0xFF ∧ circOf e.th.circ 3 ≠ 0xFF ∧
      (e.afterClose s).sp.reached.contains 3 = false ∧ e.th.handler ≠ some e.sid ∧
      (e.afterClose s).th.pendingArrival (closed s e) 0 = false ∧
      arrivesAgain e.tid 3 (reachSlot (e.afterClose s) 3 (closed s e)) = false) ∧
    (let w := onThread (fun t => { t with arrivals := [(3, 1)] }) { s with
       circles := [(circleKey loadLaunch 1, ⟨[(0, 1)], 2, [0], [], 0⟩)] }
     Issues w (envAt w) ∧ arrivesAgain (envAt w).tid 3 (reachSlot ((envAt w).afterClose w) 3 (closed w (envAt w))) = true) ∧
    (Resumes r (envAt r) .go ∧ circOf (envAt r).th.circ 3 ≠ 0xFF) := by decide +kernel

/-- DecisionQueueAndTaskWordsComplete, decisions: an empty queue, and the end marker of a launch without scouts. -/
theorem test_meets_decisions : Issues scout (envAt scout) ∧ OpsOk (envAt scout) [.scout] [⟨0xC4, .scal, 2⟩] ∧
    dqLength (opened scout) (envAt scout).th.launch ((envAt scout).th.share (opened scout)) < 64 ∧
    OpsOk (envAt crew) crewOnly [⟨62, .any, 2⟩] ∧ dqFind (envAt crew) (opened crew) = some endMarker := by decide +kernel

/-- The context of the loaded word with a queue table at 0x8000: queue 0 has 32 places and holds one record that continues at 4. -/
def queues : State := mem_ 0x8008 1 5 (mem_ 0x8000 8 0x9000 (mem_ 0x8018 8 1 (mem_ 0x9000 8 4
  { crew with contexts := [(loadCid, { Context.fresh 63 with ptbase := loadTables, qtbase := 0x8000 })] })))
def drainedAt (q : Nat) : State := put 4 q
  { crew with contexts := [(loadCid, { Context.fresh 63 with ptbase := loadTables, drained := Sparse.set false [] q true })] }

/-- DecisionQueueAndTaskWordsComplete, SPAWN of a scalar record and of a record in every lane. -/
theorem test_meets_spawn : let s := put 4 8 (put 6 16 queues)
    let e := envAt s
    let rs (ls : List Nat) (a b : BitVec 8) := ls.map (fun l => (l, spawnRecord e a b l))
    let fits (r : List (Nat × Cont × Word)) : Bool := r.all (fun r => !spawnMisaligned r.2) && (spawnRefused e.cid r (opened s)).1.isEmpty &&
      (pushTasks e.cid (r.map (fun r => r.2.1)) (release e.th.core 2 (spawnRefused e.cid r (opened s)).2)).1.isEmpty
    Issues s e ∧ OpsOk e crewOnly [⟨0xC4, .any, 4⟩, ⟨0xC8, .any, 4⟩] ∧ OpsOk e crewOnly [⟨60, .any, 4⟩, ⟨0, .any, 4⟩] ∧ e.lanes ≠ [] ∧
    fits (rs [0] 0xC4 0xC8) = true ∧ fits (rs (e.lanes.take 2) 60 0) = true := by decide +kernel

/-- DecisionQueueAndTaskWordsComplete, QPOP of a queue that holds a record and of the last one, drained. -/
theorem test_meets_qpop : (Issues queues (envAt queues) ∧ OpsOk (envAt queues) crewOnly [⟨56, .vect, 8⟩, ⟨0xC4, .scal, 1⟩] ∧
      (envAt queues).lanes ≠ [] ∧ (queueEmpty (envAt queues).cid 0 (opened queues)).1 = false) ∧
    (let s := drainedAt 4095
     Issues s (envAt s) ∧ ((envAt s).regs.field 0 0xC4).toNat = 4095 ∧
      isDrained (queueEmpty (envAt s).cid 4095 (opened s)).2 (envAt s).cid 4095 = true) := by decide +kernel

/-- DecisionQueueAndTaskWordsComplete, TDONE of a frame whose count is 2. -/
theorem test_meets_tdone : let s := put 4 0x8100 (mem_ 0x8100 4 2 queues)
    let e := envAt s
    let ps : List Machine.Part := [⟨e.active, e.addr 0 0xC4 0⟩]
    Issues s e ∧ OpsOk e crewOnly [⟨0xC4, .any, 2⟩] ∧ e.active ≠ [] ∧ e.sp.progress = Progress.none ∧ ps.all (goodAddr 8) = true ∧
    (match tdoneLoop e (.tdone 1 0xC4) ps [] (release e.th.core 2 (opened s)) with | .ok [] _ => true | _ => false) = true := by
  decide +kernel

/-- GangAndAdoptionComplete, SETGANG: no gang, and the highest size and tag. -/
theorem test_meets_gang : let s := put 4 0xFF06 crew
    (Issues s (envAt s) ∧ OpsOk (envAt s) crewOnly [⟨0xC4, .scal, 1⟩] ∧
      gangRefused (closed s (envAt s)) (envAt s).th.core (envAt s).th.launch 0xFF06 = false ∧
      ((envAt s).afterClose s).regs.field 0 0xC4 = 0xFF06) ∧
    gangRefused (closed crew (envAt crew)) (envAt crew).th.core (envAt crew).th.launch 0 = false := by decide +kernel

/-- A waiting ADOPTQ of every lane that has adopted an alternative for lane 3. -/
def adopter : State := onThread (fun t => { t with requests := (List.range 32).map (fun l =>
    ⟨0, l, 0, if l = 3 then .adopted 16 (List.replicate 8 0) else .refused⟩) })
  (onSplit (fun sp => { sp with handed := some .go }) crew)

/-- GangAndAdoptionComplete: an OFFER that no lane has asked, an ADOPTQ that divides its split, and one that does not. -/
theorem test_meets_adoption : let s := adopter
    let e := envAt s
    let c := e.afterClose s
    (OpsOk (envAt crew) crewOnly [⟨63, .vect, 1⟩] ∧ ((envAt crew).afterClose crew).lanes ≠ [] ∧
      okay (serveLanes ((envAt crew).afterClose crew) 63 ((envAt crew).afterClose crew).lanes) (closed crew (envAt crew)) = true) ∧
    (Resumes s e .go ∧ OpsOk e crewOnly [⟨63, .vect, 1⟩, ⟨0xC4, .any, 1⟩] ∧ c.lanes ≠ [] ∧ c.th.answered e.sid = true ∧
      c.th.asked e.sid (c.lanes.map (fun l => (l, (c.regs.field l 0xC4).toNat))) = true ∧
      (∀ g ∈ adoptedLanes (c.th.requestsOf e.sid), g.2.toNat % 4 = 0) ∧
      (c.th.adoptParts e.sid c.sp).length = 2 ∧ c.inHandler = false ∧ 2 ≤ c.th.spare c.sp + 1 ∧ recordsWanted (closed s e) e.tid = false) ∧
    (((envAt crew).afterClose crew).th.adoptParts 0 ((envAt crew).afterClose crew).sp).length = 1 := by decide +kernel

/-- TermRegisterAndHeapWordsComplete: a REF, the INT of the highest payload, and the first and the last tag. -/
theorem test_meets_term_registers : let s := put 5 0x7FFFFFFF (put 4 0xFFFFFFF8 crew)
    let e := envAt s
    Issues crew (envAt crew) ∧ (envAt crew).takes 62 ∧ (envAt crew).lanes ≠ [] ∧
    (∀ l ∈ (envAt crew).destLanes 62, illFormed ((envAt crew).regs.pair l 0).toNat = false) ∧ illFormed (e.regs.pair 0 0xC4).toNat = false ∧
    OpsOk (envAt crew) crewOnly [⟨63, .any, 1⟩, srcFor 63 0 2] ∧ OpsOk e crewOnly [⟨0xFE, .any, 2⟩, srcFor 0xFE 0xC4 2] ∧
    (∀ l ∈ (envAt crew).destLanes 62, (makeTerm 0 ((envAt crew).regs.pair l 0).toNat).isSome = true) ∧ (makeTerm 3 (e.regs.pair 0 0xC4).toNat).isSome = true ∧
    (makeTerm 6 0).isSome = true := by decide +kernel

/-- TermRegisterAndHeapWordsComplete: HEAPTOP 0, a mark on a boundary of 64 bytes. -/
theorem test_meets_heap : let e := envAt someLanes
    Issues someLanes e ∧ e.lanes ≠ [] ∧ OpsOk e crewOnly [⟨62, .vect, 2⟩] ∧ OpsOk e crewOnly [⟨62, .vect, 2⟩, ⟨0, .vect, 1⟩] ∧
    laneRun e.lanes (fun l => do
        st64 e (e.regs.heap l) (2 ^ 61 + e.regs.birthNow l * 2 ^ 32)
        pure (e.regs.heap l)) (opened someLanes) = true ∧
    (∀ l ∈ e.lanes, canonicalVa (e.regs.heap l) = true ∧ e.regs.heap l % 8 = 0) ∧
    (∀ l ∈ e.lanes, (e.regs.pair l 0).toNat % 64 = 0) := by decide +kernel

/-- Lane 0 with v2:v3 the address of an unbound cell at 0x8100, CPTOP 0x8040, TRTOP 0x8110, and a launch with UDEPTH 1. -/
def terms : State := modBank 0 5 (fun k => { k with mode := .scratch, pwr := .active, owner := some loadLaunch }) (mem_ 0x8100 8 (2 ^ 61) (putV 0 2 0x8100 (onRegs (fun g => { g with cptop := [(0, 0x8040)], trtop := [(0, 0x8110)] })
  { someLanes with launches := [(loadLaunch, { Launch.accepted { loadRec with udepth := 1 } 1 63 0 [] [0] with spad := [(0, (0, [5]))] })] })))

/-- UnificationWordsComplete: DEREF and BIND of an unbound variable and v4:v5 = REF 0x8108, UNIFY of it and of itself, CHOICE. -/
theorem test_meets_unification : let s := mem_ 0x8108 8 (3 * 2 ^ 61) (putV 0 4 0x8108 terms)
    let e := envAt s
    Issues s e ∧ e.lanes = [0] ∧ OpsOk e crewOnly [⟨62, .vect, 2⟩, ⟨2, .vect, 2⟩] ∧
    OpsOk e crewOnly [⟨63, .vect, 1⟩, ⟨2, .vect, 2⟩, ⟨4, .vect, 2⟩] ∧
    laneRun e.lanes (fun l => do
        readTerm (e.regs.pair l 2).toNat 0
        derefFrom e l e.budget (e.regs.pair l 2).toNat 0) (opened s) = true ∧
    laneRun e.lanes (bindLane e 2 4) (opened s) = true ∧ udepthOf (opened s) e.th.launch = 1 ∧
    okay (needAreas e (.unify 1 63 2 4) (e.lanes.flatMap (areaPlaces e (opened s) 1))) (opened s) = true ∧
    laneRun e.lanes (unifyLane e 2 4 1) (opened s) = true ∧ laneRun e.lanes (unifyLane e 2 2 1) (opened s) = true ∧
    laneRun e.lanes (fun l => do
        laneAddr (e.regs.cairn l) 64
        storeWords e (e.regs.cairn l) (frameWords e l (e.target 0xFFFFF))) (opened s) = true := by decide +kernel

/-- FAIL's targets, and what its lanes come to. -/
def fails (s : State) : List (Nat × Option Nat) × Bool × Nat :=
  let e := envAt s
  let r := e.lanes.foldl (runLane (failTarget e)) (⟨[], [], []⟩, opened s)
  (r.1.outs, r.1.bad.isEmpty && laneRun e.lanes (failLane e r.1.outs) r.2,
    (branches e.sp (e.active.filter (fun l => !e.lanes.contains l))
      (r.1.outs.filterMap (fun x => x.2.map (fun a => (x.1, BitVec.ofNat 64 a))))).length)

/-- UnificationWordsComplete: FAIL with a frame in lane 0, and with none. -/
theorem test_meets_fail : (Issues terms (envAt terms) ∧ (envAt terms).th.kind = .crew ∧ (envAt terms).lanes ≠ [] ∧
      (envAt terms).inHandler = false ∧ 2 ≤ (envAt terms).th.spare (envAt terms).sp + 1) ∧
    fails (mem_ 0x8010 8 0x8110 (mem_ 0x8000 8 16 terms)) = ([(0, some 16)], true, 2) ∧ fails terms = ([(0, none)], true, 1) := by decide +kernel

/-- UnificationWordsComplete: VWIN without a window and with the smallest one. -/
theorem test_meets_windows : let s := warm 0x8000 (warm 0x8080 (put 4 0x8000 (put 6 4 someLanes)))
    let e := envAt s
    let c := e.afterClose s
    let run (b : BitVec 8) : Bool := laneRun c.lanes (fun l => do
      let w : Win := ⟨if (c.regs.field l b).toNat = 0 then 0 else (c.regs.pair l 0xC4).toNat, (windowSize (c.regs.field l b).toNat).getD 0⟩
      w.clear c
      pure w) (closed s e)
    Issues s e ∧ OpsOk e crewOnly [⟨0xC4, .any, 2⟩, ⟨0xC6, .any, 1⟩] ∧ c.lanes ≠ [] ∧
    (∀ l ∈ c.lanes, (windowSize (c.regs.field l 0xC6).toNat).isSome = true) ∧ (c.regs.field 0 0xC6).toNat = 4 ∧
    ((c.lanes.filter (fun l => (c.regs.field l 0xC6).toNat ≠ 0)).map (fun l => (⟨[l], (c.regs.pair l 0xC4).toNat⟩ : Machine.Part))).all (goodAddr 64) = true ∧
    run 0xC6 = true ∧ run 0xC0 = true := by decide +kernel

/-- Whether the parts of a load and of a store all answer. -/
def loads (s : State) (d a : BitVec 8) (off n size : Nat) (ext : Nat → Nat) : Bool :=
  answers (envAt s) (loadParts (envAt s) d a off) (loadPart d n ext (splitRead (envAt s) size)) (opened s)
def stores (s : State) (d a : BitVec 8) (off n size : Nat) : Bool :=
  answers (envAt s) (storeParts (envAt s) a off) (storePart (envAt s) d n size (splitWrite (envAt s))) (opened s)

/-- LoadsAndStoresComplete: the highest offsets, lane addresses and a scalar one, the smallest and the largest size. -/
theorem test_meets_loads : let e := envAt crew
    LoadReady crew e 63 62 255 1 1 ∧ e.typeReserved = false ∧ LoadReady crew e 63 0xC4 (2 * 255) 2 1 ∧ LoadReady crew e 0xFF 0xC4 0 4 1 ∧
    LoadReady crew e 62 0 (8 * 255) 8 2 ∧ LoadReady crew e 60 0xC4 (16 * 255) 16 4 ∧
    loads crew 63 62 255 1 1 (e.extend 8) = true ∧ loads crew 63 0xC4 510 1 2 (e.extend 16) = true ∧ loads crew 0xFF 0xC4 0 1 4 id = true ∧
    loads crew 62 0 2040 2 8 id = true ∧ loads crew 60 0xC4 4080 4 16 id = true := by
  and_intros <;> decide +kernel
theorem test_meets_stores : let e := envAt crew
    StoreReady crew e 63 62 255 1 1 ∧ StoreReady crew e 0xFF 0xC4 (2 * 255) 2 1 ∧ StoreReady crew e 63 0xC4 0 4 1 ∧
    StoreReady crew e 62 0 (8 * 255) 8 2 ∧ StoreReady crew e 60 0xC4 (16 * 255) 16 4 ∧
    stores crew 63 62 255 1 1 = true ∧ stores crew 0xFF 0xC4 510 1 2 = true ∧ stores crew 63 0xC4 0 1 4 = true ∧
    stores crew 62 0 2040 2 8 = true ∧ stores crew 60 0xC4 4080 4 16 = true := by
  and_intros <;> decide +kernel

/-- OrderedAccessesComplete. -/
theorem test_meets_ordered : let e := envAt crew
    answers e (loadParts e 63 62 1020) (loadPart 63 1 id (acquireRead e 4)) (opened crew) = true ∧
    answers e (loadParts e 62 0xC4 0) (loadPart 62 2 id (acquireRead e 8)) (opened crew) = true ∧
    answers (releasedEnv e) (storeParts e 62 1020) (storePart e 63 1 4 (releaseWrite e)) (afterRelease crew e) = true ∧
    answers (releasedEnv e) (storeParts e 0xC4 0) (storePart e 62 2 8 (releaseWrite e)) (afterRelease crew e) = true ∧
    answers e (loadParts e 0xFF 0xC4 1020) (loadPart 0xFF 1 id (constRead e)) (opened crew) = true ∧
    LoadReady crew e 63 62 1020 4 1 ∧ StoreReady crew e 62 0xC4 0 8 2 := by
  and_intros <;> decide +kernel

/-- AtomicsComplete: one update, one per lane, a float TYPE and a 64-bit one, with two arguments. -/
theorem test_meets_atomics : let s (c : Nat) := put 4 0x8000 (type_ c crew)
    let upd (s : State) (ty : ElemType) (d a : BitVec 8) (f : Nat → Update) : Bool :=
      let e := envAt s
      answers e (if !isVec d && !isVec a && !isVec 0xC8 then [⟨e.active, e.addr 0 a 0⟩]
        else e.lanes.map (fun l => (⟨[l], e.addr l a 0⟩ : Machine.Part))) (atomicPart e d ty.regs (4 * ty.regs) f) (opened s)
    AtomicReady (s 0) (envAt (s 0)) ty32 0xC0 0xC4 0xC8 1 ∧ ty32.n = 1 ∧ ty32.isFloat = false ∧
    AtomicReady (s 1) (envAt (s 1)) ⟨1, 32, .uint⟩ 63 0 0xC8 1 ∧
    AtomicReady (s 2) (envAt (s 2)) tyF32 63 0 1 1 ∧ tyF32.isFloat = true ∧
    AtomicReady (s 10) (envAt (s 10)) ty64 62 0 0 2 ∧
    upd (s 0) ty32 0xC0 0xC4 (fun _ old => ((old + 1) % 2 ^ 32, 0)) = true ∧
    upd (s 0) ty32 63 0xC4 (fun _ old => ((old + 1) % 2 ^ 32, 0)) = true := by
  and_intros <;> decide +kernel

/-- FencesCachesPinsComplete: a range that ends at the top of the low half, windows free and all taken. -/
theorem test_meets_fences : let s := put 7 255 (put 6 0x10000 (put 5 0xFFFFFF (put 4 0xFFFF0000 crew)))
    let e := envAt s
    Issues s e ∧ e.th.kind = .crew ∧ e.scope < 2 ∧ OpsOk e crewOnly [⟨0xC6, .scal, 1⟩, ⟨0xC4, .scal, 2⟩] ∧
    rangeOk (e.addr 0 0xC4 0) (max (e.regs.field 0 0xC6).toNat 1) = true ∧ OpsOk e anyKind [⟨0, .any, 2⟩] ∧
    (OpsOk e crewOnly [⟨0xC6, .scal, 2⟩, ⟨0xC4, .scal, 2⟩] ∧ (e.regs.field 0 0xC6).toNat ≠ 0 ∧ freePin (opened s) (dieOf e.th.core) = some 0) ∧
    (let s := put 6 128 (put 4 0x8000 (warm 0x8000 crew))
     (pinFills 0 loadCid (rangeLines 0x8000 128) [] (opened s)).1 = none ∧ freePin (opened s) (dieOf (envAt s).th.core) = some 0) ∧
    2 ≤ (envAt (onRegs (fun g => { g with mmode := 2 }) crew)).scope ∧
    freePin { s with pins := (List.range 64).map (fun w => (w, ⟨0, 0, 1, 1, 1, false, []⟩)) } 0 = none := by
  and_intros <;> decide +kernel

/-- The launch of the loaded word in phase `phase`, with 32 bytes of scratch in bank 5 of cluster 0, which is active. -/
def scratch (phase : Nat) : State :=
  modBank 0 5 (fun k => { k with mode := .scratch, pwr := .active, owner := some loadLaunch })
    { crew with launches := [(loadLaunch,
      { Launch.accepted { loadRec with spad := 32 } 1 63 0 [] [0] with spad := [(0, (0, [5]))], phase := phase })] }

/-- ScratchAccessesComplete, ScratchStoreFrame: the first and the last word, scalar and in every lane. -/
theorem test_meets_scratch : let s := put 4 28 (scratch 3)
    let e := envAt s
    let one : List Machine.Part := [⟨e.lanes, e.scratchAddr 0 0xC4 0⟩]
    let each : List Machine.Part := e.lanes.map (fun l => ⟨[l], e.scratchAddr l 0 7⟩)
    Issues s e ∧ e.takes 63 ∧ e.lanes ≠ [] ∧ OpsOk e crewOnly [⟨63, .any, 1⟩, ⟨0xC4, .any, 1⟩] ∧ OpsOk e crewOnly [⟨0xFF, .any, 1⟩, ⟨0xC4, .scal, 1⟩] ∧
    (∀ p ∈ one, p.va < spadOf (opened s) e.th.launch ∧ p.va % 4 = 0) ∧ (∀ p ∈ each, p.va < spadOf (opened s) e.th.launch ∧ p.va % 4 = 0) ∧
    okay (needScratch e (.lds 1 63 0xC4 0) one) (opened s) = true ∧ okay (needScratch e (.sts 1 63 0 7) each) (opened s) = true ∧
    e.spadchk = false ∧ e.sp.run.isOpen = true ∧ e.sp.run.count + 1 < 64 ∧
    (∀ p ∈ one ++ each, (getBank s 0 (scratchOf e (opened s) p).1).pwr = .active) ∧
    (getBank s 0 5).data = [] ∧ (getBank s 0 0).data = [] := by
  and_intros <;> decide +kernel

/-- A shape record of rank 1. -/
def record (a base elem n stride : Nat) (s : State) : State :=
  { s with mem := Memory.writeAll s.mem (loadPage + a) (leBytes 8 base ++ leBytes 4 (1 + 256 * elem) ++ leBytes 4 n ++ leBytes 4 1 ++
    leBytes 4 1 ++ leBytes 4 1 ++ leBytes 4 0 ++ leBytes 8 stride ++ leBytes 24 0) }

/-- SampleFifoBankWordsComplete: SAMPLE of 4 elements of F32, and of a shape with none. -/
theorem test_meets_sample : let s (n : Nat) := put 4 0x8000 (record 0x8000 0x8040 2 n 4 someLanes)
    let meets (s : State) : Bool :=
      match readShape (envAt s) (envAt s).lanes ((envAt s).addr 0 0xC4 0) (opened s) with
      | .ok sh t =>
        let ps : List Machine.Part := (envAt s).lanes.map (fun l => ⟨[l], sampleAddr (envAt s) sh 0 l⟩)
        sh.ok && !engineForm sh.elem && ps.all (goodAddr (elemBytes sh.elem)) && answers (envAt s) ps (samplePart (envAt s) 63 sh) t
      | _ => false
    Issues (s 4) (envAt (s 4)) ∧ (envAt (s 4)).lanes ≠ [] ∧ OpsOk (envAt (s 4)) crewOnly [⟨63, .vect, 1⟩, ⟨0xC4, .scal, 2⟩, ⟨0, .any, 2⟩] ∧
    meets (s 4) = true ∧ meets (s 0) = true := by
  and_intros <;> decide +kernel

/-- Bank `b` of cluster 0 as a FIFO bank of 128-byte entries of the launch, with these entries. -/
def fifo (b : Nat) (xs : List Entry) : State :=
  put 4 b (modBank 0 b (fun k => { k with mode := .fifo, pwr := .active, esz := 3, owner := some loadLaunch, fifo := xs }) (scratch 0))
def entry : Entry := ⟨List.replicate 128 0, false⟩

/-- SampleFifoBankWordsComplete: FPUSH, FPOP and FTRYPOP of the last bank, empty and with an entry. -/
theorem test_meets_fifo : let s (n : Nat) := fifo 63 (List.replicate n entry)
    let k := getBank (opened (s 1)) 0 63
    Issues (s 1) (envAt (s 1)) ∧ ((envAt (s 1)).regs.field 0 0xC4).toNat = 63 ∧ clusterOf (envAt (s 1)).th.core = 0 ∧
    k.mode = .fifo ∧ k.owner = some (envAt (s 1)).th.launch ∧ k.entryBytes = 4 * (envAt (s 1)).th.width ∧ k.pwr = .active ∧
    k.fifo.length < k.capacity ∧ OpsOk (envAt (s 1)) crewOnly [⟨62, .vect, 1⟩, ⟨0xC4, .scal, 1⟩] ∧
    (62#8).toNat + 2 ≤ (envAt (s 1)).th.vregs ∧
    (popEntry 0 63 (touchBank 0 63 (opened (s 1)))).1 = some entry ∧ entry.poison = false ∧
    (popEntry 0 63 (touchBank 0 63 (opened (s 0)))).1 = none := by
  and_intros <;> decide +kernel

/-- SampleFifoBankWordsComplete: BANKQ, BANKMODE and BANKPWR of banks in each of the cases, in a launch of phase 0 and of
phase 3. -/
theorem test_meets_banks : let s (phase x : Nat) := put 4 x (scratch phase)
    let e (x : Nat) := envAt (s 0 x)
    let cached (n : Nat) : State := (List.range n).foldl (fun s b => modBank 0 b (fun k => { k with mode := .cache, pwr := .active }) s) (scratch 0)
    Issues (s 0 5) (e 5) ∧ (e 5).th.kind = .crew ∧ OpsOk (e 5) crewOnly [⟨0xC4, .scal, 2⟩] ∧
    launchCluster (opened (s 0 5)) (e 5).th.launch (8 * 0 + 0) = true ∧ ((e 5).regs.field 0 0xC4).toNat = 5 ∧
    (bits 0x363 6 2 ≠ 0 ∧ bits 0x305 6 2 = 0 ∧ bits 0x305 10 2 = 0 ∧ bits 0x305 15 17 = 0 ∧ bankModeOf (bits 0x305 8 2) = .fifo ∧ bits 0x5305 12 3 < 6) ∧
    (bankmodeStatus (opened (s 0 5)) loadLaunch 0 5 .cache ≠ 0 ∧ (getBank (opened (s 0 5)) 0 5).pwr = .active ∧
      bankmodeStatus (opened (s 0 5)) loadLaunch 0 63 .unallocated = 0) ∧
    ((getBank (opened (s 0 5)) 0 5).owner = some loadLaunch ∧ mayRetain (opened (s 0 5)) (getBank (opened (s 0 5)) 0 5) = true ∧
      mayRetain (opened (s 3 5)) (getBank (opened (s 3 5)) 0 5) = false ∧ (getBank (opened (s 0 5)) 0 63).owner ≠ some loadLaunch) ∧
    ((getBank (opened (s 0 5)) 0 63).mode = .unallocated ∧ (getBank (opened (s 0 5)) 0 5).mode ≠ .unallocated ∧
      mayPowerOff (opened (s 0 5)) 0 5 = false ∧ mayPowerOff (cached 2) 0 1 = true ∧
      (let off := getBank (modBank 0 1 (fun k => { k with pwr := .deepOff }) (cached 2)) 0 1
       off.mode = .cache ∧ off.pwr = .deepOff) ∧ (getBank (cached 2) 0 1).pwr ≠ .deepOff) := by
  and_intros <;> decide +kernel

/-- A tile of 8 elements of F32 at 0x8100, the last entry of slice 0, with its handle in s8. -/
def tile : Tile :=
  { gen := 5, isOpen := true, cid := loadCid, shape := ⟨0x8100, 1, 2, 0, [8, 1, 1, 1], 0, [4, 0, 0, 0]⟩, tenure := [], demoted := [],
    carved := [], carves := 0, asking := [] }
def tiles : State := put 8 (handleOf 4095 5) { crew with tiles := [(4095, tile)] }

/-- TileWordsAndAccessesComplete: TOPEN of a record, a handle, the cuts of TSPLIT at both ends, and LMSG. -/
theorem test_meets_tiles : let s := put 4 0x8000 (record 0x8000 0x8100 2 8 4 tiles)
    let e := envAt s
    let t (x : Nat) := put 11 x s
    Issues s e ∧ OpsOk e crewOnly [⟨0xC9, .scal, 1⟩, ⟨0xC4, .scal, 2⟩] ∧ okay (tileRecord e (e.addr 0 0xC4 0)) (opened s) = true ∧
    (match tileRecord e (e.addr 0 0xC4 0) (opened s) with | .ok sh t => (beingAcquired t e sh).isNone | _ => false) = true ∧
    tileOf (opened s) e.cid (e.regs.field 0 0xC8).toNat = some tile ∧ tileOf (opened s) e.cid 0 = none ∧
    (OpsOk e crewOnly [⟨0xC8, .scal, 1⟩] ∧ OpsOk e crewOnly [⟨0xC6, .scal, 2⟩, ⟨0xC8, .scal, 1⟩, ⟨0xCA, .scal, 2⟩] ∧
      (e.regs.field 0 0xCA).toNat < 4 ∧ (e.regs.field 0 0xCA).toNat < tile.shape.rank ∧
      ((envAt (t 1)).regs.field 0 (0xCA + 1)).toNat = 1 ∧ ((envAt (t 7)).regs.field 0 (0xCA + 1)).toNat = 7 ∧ tile.shape.ext.getD 0 0 = 8) ∧
    OpsOk e crewOnly [⟨63, .vect, 1⟩] ∧
    tile.asked (opened s) e.tid e.sid = false ∧ (askTileRead (dieOf e.th.core) 4095 tile (opened s)).1 = none ∧
    (let v := acceptAcquire 4095 e.tid e.sid (opened s)
     asksBefore v 4095 e.tid e.sid = false ∧ (askTileWrite (dieOf e.th.core) 4095 tile v).1 = none ∧
     awaited (askTileWrite (dieOf e.th.core) 4095 tile v).2 (dieOf e.th.core) e.cid tile.shape.lines = none) := by
  and_intros <;> decide +kernel

/-- TileWordsAndAccessesComplete: TLD and TST of the first and of the last element. -/
theorem test_meets_tile_accesses : let s (x : Nat) := putV 0 1 x (onRegs (fun g => { (g.apply (.pred 0 1 true)) with cmode := 1 }) tiles)
    let meets (s : State) : Bool :=
      let e := envAt s
      answers e (tileParts e 1 tile) (fun p s =>
        match gotBytes (tileRead e (tile.owned (dieOf e.th.core) (p.va / 128) false) p.va (elemBytes tile.shape.elem) s) with
        | (.error c, s) => (.error c, s)
        | (.ok bs, s) => (.ok (loadResults 63 (elemRegs tile.shape.elem) p (placeElem tile.shape.elem (leNat bs)), 0), s)) (opened s) &&
      answers e (tileParts e 1 tile) (fun p s =>
        match tileWrite e (tile.owned (dieOf e.th.core) (p.va / 128) true) p.va
            (storeBytes e 63 (elemRegs tile.shape.elem) (elemBytes tile.shape.elem) p) s with
        | (.error c, s) => (.error c, s)
        | (.ok _, s) => (.ok ([], 0), s)) (opened s)
    TileReady (s 0) (envAt (s 0)) 63 0xC8 1 tile ∧ TileReady (s 7) (envAt (s 7)) 63 0xC8 1 tile ∧
    meets (s 0) = true ∧ meets (s 7) = true := by
  and_intros <;> decide +kernel

/-- Records at 0x8000 (source), 0x8040 (index or destination, or the descriptor of a COLLECT) and 0x8080. -/
def copies (idx : Nat) (s : State) : State :=
  record 0x8000 0x8200 2 8 4 (record 0x8040 0x8100 idx 8 4 (record 0x8080 0x8100 2 8 4 (put 4 0x8000 (put 6 0x8040 s))))

/-- CopyWordsComplete: COPY and COPYG. -/
theorem test_meets_copies : let s := copies 2 crew
    let g := warm 0x8080 (copies 1 crew)
    let copy (e : Env) : M Unit := do
      checkRecords e [e.addr 0 0xC4 0, e.addr 0 0xC6 0]
      let src ← namedShape e (e.addr 0 0xC4 0)
      let dst ← namedShape e (e.addr 0 0xC6 0)
      checkCopy e ⟨src, none, dst⟩ (control e 0xC0 % 4) (control e 0xC0 / 4)
    let gather (e : Env) : M Unit := do
      checkRecords e [e.addr 0 0xC4 0, e.addr 0 0xC6 0, e.addr 0 0xC6 64]
      let src ← namedShape e (e.addr 0 0xC4 0)
      let idx ← namedShape e (e.addr 0 0xC6 0)
      let dst ← namedShape e (e.addr 0 0xC6 64)
      checkCopy e ⟨src, some idx, dst⟩ (control e 0xC0 % 4) (control e 0xC0 / 4)
    CopyReady s (envAt s) [.crew, .scout, .cseq] 0xC0 0xC4 0xC6 ∧ CopyReady s (envAt s) [.crew, .scout, .cseq] 0xC8 0xC4 0xC6 ∧
    okay (copy (envAt s)) (opened s) = true ∧ okay (gather (envAt g)) (opened g) = true := by
  and_intros <;> decide +kernel

/-- CopyWordsComplete: an all-reduce of a group of two devices, and a PUBLISH that goes on. -/
theorem test_meets_collect : let c := { Context.fresh 63 with ptbase := loadTables, groups := 0x9000, shtbase := 0xA000 }
    let s := warm 0x8080 (mem_ 0xA000 8 0x8100 (mem_ 0xA008 8 0x40 (mem_ 0x9000 4 2 (mem_ 0x8040 64 (0x8080 + 2 ^ 96) (copies 2 { tiles with contexts := [(loadCid, c)] })))))
    let collect (e : Env) : M Bool := do
      checkRecords e [e.addr 0 0xC4 0, e.addr 0 0xC6 0]
      let bs ← oneRead e e.active (e.addr 0 0xC6 0) (recordSource e.th.core e.cid (e.addr 0 0xC6 0))
      checkRecords e [recField bs 0 8]
      let src ← namedShape e (e.addr 0 0xC4 0)
      let dst ← namedShape e (recField bs 0 8)
      checkCollectForms e src dst
      checkStrides e [(0, src), (0, dst)]
      let s ← get
      pure (collectBad s e (control e 0xC0) bs src.shape dst.shape)
    CopyReady s (envAt s) [.crew, .cseq] 0xC0 0xC4 0xC6 ∧
    (match collect (envAt s) (opened s) with | .ok false _ => true | _ => false) = true ∧
    (let r := onSplit (fun sp => { sp with handed := some .go }) crew
     Resumes r (envAt r) .go ∧ OpsOk (envAt r) [.crew, .cseq] [⟨0xC4, .scal, 1⟩]) := by
  and_intros <;> decide +kernel

/-- SequencerWordsComplete: FORK of both sequencers, RDV of free ones, and both where the latch has gone on. -/
theorem test_meets_sequencers : let s := put 8 0x8000 crew
    let e := envAt s
    let r (x : Item) := onSplit (fun sp => { sp with handed := some x }) crew
    Issues s e ∧ e.ganged = false ∧ OpsOk e [.crew, .scout] [⟨0xC8, .scal, 2⟩, ⟨0xC4, .scal, 2⟩, ⟨0xC6, .scal, 2⟩] ∧
    okay (forkEffect e 0xC8 0xC4 0xC6) (opened s) = true ∧
    OpsOk e [.crew, .scout] [⟨0xC8, .scal, 1⟩] ∧ (e.afterClose s).ganged = false ∧
    rdvBusy (closed s e) e.th.core ((e.afterClose s).owner (closed s e)) 0 = false ∧
    rdvBusy (closed s e) e.th.core ((e.afterClose s).owner (closed s e)) 3 = false ∧
    Resumes (r .go) (envAt (r .go)) .go ∧ Resumes (r (.result 0x1FF 1)) (envAt (r (.result 0x1FF 1))) (.result 0x1FF 1) := by
  and_intros <;> decide +kernel

/-- The matrix sequencer with a legal XMODE (F32), banks 62 and 63 as a bank group, scratch banks 0 and 1 as its pair, and
a record of rank 2 at 0x8000. -/
def engine (d a b : Nat) : State :=
  let bank (b : Nat) (s : State) : State := modBank 0 b (fun k => { k with mode := .fifo, esz := 4, owner := some loadLaunch }) s
  let own (b : Nat) (s : State) : State := modBank 0 b (fun k => { k with mode := .scratch, owner := some loadLaunch }) s
  let s := modCore 0 (fun c => { c with mseq := { c.mseq with shbank := 0 } }) (own 0 (own 1 (bank 62 (bank 63 mseq))))
  put 4 d (put 5 a (put 6 b (onRegs (fun g => { g with xmode := 0x22 })
    { s with mem := Memory.writeAll s.mem (loadPage + 0x8000) (leBytes 8 0x8100 ++ leBytes 4 (2 + 256 * 2) ++ leBytes 4 128 ++
      leBytes 4 128 ++ leBytes 4 1 ++ leBytes 4 1 ++ leBytes 4 0 ++ leBytes 8 4 ++ leBytes 8 512 ++ leBytes 16 0) })))

/-- EngineWordsComplete: MSWAP, MZERO of no tile and of all, MSHADOW, MLDS of a group and of a record. -/
theorem test_meets_engine : let s := engine 15 0x7E 0x8000
    let e := envAt s
    Issues s e ∧ e.th.kind = .mseq ∧ xLegal e.regs.xmode = true ∧ EngineRoom (opened s) e ∧ OpsOk e mseqOnly [⟨0xC4, .scal, 1⟩] ∧
    (e.regs.field 0 0xC4).toNat = 15 ∧ e.regs.field 0 0xC7 = 0 ∧ shbankOk (opened s) e.th.core e.th.launch = true ∧
    OpsOk e mseqOnly [⟨0xC5, .scal, 1⟩, ⟨0xC0, .scal, 2⟩] ∧ OpsOk e mseqOnly [⟨0xC0, .scal, 1⟩, ⟨0xC6, .scal, 2⟩] ∧
    GroupOk (opened s) e 0xC5 ∧ groupOf e 0xC5 = (62, 2) ∧
    okay (engineRecord e 0xC6 (xSfmt e.regs.xmode) false) (opened s) = true := by
  and_intros <;> decide +kernel

/-- EngineWordsComplete: MSTREAM of no row and of 4096 rows, MDRAIN of the same format into a record. -/
theorem test_meets_streams : let s := engine 0x1FF 0x7E 4096
    let e := envAt s
    let f := engine (2 * 4 + 3) 0x7E 0x8000
    Issues s e ∧ OpsOk e mseqOnly [⟨0xC4, .scal, 1⟩, ⟨0xC5, .scal, 1⟩, ⟨0xC6, .scal, 1⟩] ∧ bits (e.regs.field 0 0xC4).toNat 9 23 = 0 ∧
    (e.regs.field 0 0xC6).toNat ≤ 4096 ∧ (e.regs.field 0 0xC6).toNat ≠ 0 ∧ (e.regs.field 0 0xC7).toNat = 0 ∧
    (getCore (opened s) e.th.core).mones = 0 ∧ EngineRoom (opened s) e ∧
    (Issues f (envAt f) ∧ OpsOk (envAt f) mseqOnly [⟨0xC4, .scal, 1⟩, ⟨0xC0, .scal, 1⟩, ⟨0xC6, .scal, 2⟩] ∧
      bits ((envAt f).regs.field 0 0xC4).toNat 7 25 = 0 ∧ drainFmtOk (envAt f).regs.xmode (bits ((envAt f).regs.field 0 0xC4).toNat 2 4) = true ∧
      okay (engineRecord (envAt f) 0xC6 2 true) (opened f) = true) := by
  and_intros <;> decide +kernel

/-- IllegalWordsTrap, GuardedWordsRest, WrongIssuersTrap: lanes with and without a guard, and an issuer that is no crew. -/
theorem test_meets_guards : Issues crew (envAt crew) ∧ (envAt crew).lanes ≠ [] ∧ Issues noLanes (envAt noLanes) ∧ (envAt noLanes).lanes = [] ∧
    isVec 63 = true ∧ Issues scout (envAt scout) ∧ (envAt scout).th.kind ≠ .crew ∧ Issues mseq (envAt mseq) ∧ (envAt mseq).th.kind ≠ .crew := by
  and_intros <;> decide +kernel

/-- A device with partition 0 on cluster 0 of die 0, whose work queue 2047 holds one record at `a`. -/
def device (a : Nat) : State :=
  { crew with
    turn := none
    threads := []
    launches := []
    parts := [(0, { Partition.empty 0 0 with mask := 1 }), (63, Partition.empty 0 63)]
    contexts := [(loadCid, { Context.fresh 0 with ptbase := loadTables, images := [(0, 65536)] })]
    queues := [(2047, { Queue.reset with base := a, log := 6, tail := 1, assigned := true })] }
/-- A launch record of one crew. -/
def launchBytes : List Byte :=
  leBytes 8 0 ++ leBytes 4 4 ++ leBytes 4 0 ++ leBytes 12 (2 ^ 96 - 1) ++ leBytes 2 32 ++ leBytes 2 64 ++ leBytes 4 0 ++ leBytes 4 1 ++
    leBytes 24 0 ++ leBytes 2 0 ++ leBytes 2 1 ++ leBytes 2 0 ++ leBytes 2 loadCid ++ leBytes 56 0
def launchable : State :=
  { device (loadPage + 0x8000) with mem := Memory.writeAll crew.mem (loadPage + 0x8000) launchBytes }
def fateName (s : State) (a : Nat) : Nat × Nat :=
  match fateOf s 1 0 a with
  | .waits => (0, 0)
  | .rejected r => (1, r)
  | .starts l _ => (2, l.record.width)

/-- LaunchEventsComplete: a record that starts, one that waits for the image, one that is rejected, and a queue that goes
ahead of another of its priority. -/
theorem test_meets_dispatch : let q := (Sparse.find? launchable.queues 2047).getD Queue.reset
    q.assigned = true ∧ dispatchOpen launchable q = true ∧ q.base + 128 * (q.head % 2 ^ q.log) = loadPage + 0x8000 ∧
    fateName launchable (loadPage + 0x8000) = (2, 32) ∧ fateName launchable 0 = (1, 1) ∧
    fateName { launchable with launches := crew.launches } (loadPage + 0x8000) = (0, 0) ∧
    queueAhead launchable 2047 = none ∧ queueAhead { launchable with launches := crew.launches } 2047 = none ∧
    queueAhead { launchable with queues := (0, q) :: launchable.queues } 2047 = some 0 := by
  and_intros <;> decide +kernel

/-- A launch of two crews on core 0 that has not started them, without scouts and with them. -/
def unplaced (scout : Nat) : Launch := Launch.accepted { loadRec with crews := 2, scout := scout } 1 0 0 [0, 1] [0]

/-- LaunchEventsComplete: CREW_START, SHARE_START, BARRIER_COMPLETE, WAITER_RELEASE, LAUNCH_END and IMAGE_SWITCH. -/
theorem test_meets_launches : let s (sc : Nat) : State := { device 0 with launches := [(1, unplaced sc)] }
    ((unplaced 0xFFFFFFFF).firstInLine 0 = true ∧ partRuns (s 0) 0 = true ∧ banksAwake (s 0) (unplaced 0) = true ∧
      homeCore (unplaced 0) 0 = 0 ∧ mayStart (s 0) (unplaced 0xFFFFFFFF) 0 = true ∧ mayStart (s 0) (unplaced 0) 0 = true ∧
      1 ≤ freePlaces (s 0xFFFFFFFF) 0 1 (unplaced 0xFFFFFFFF).record ∧ 2 ≤ freePlaces (s 0) 0 1 (unplaced 0).record) ∧
    (shareWaiting (unplaced 0) 0 = [0, 1] ∧ (unplaced 0).firstInLine 0 = true ∧ shareHeld (unplaced 0) 0 = false ∧ (unplaced 0).suspended = false ∧
      shareBusy (s 0) 1 (unplaced 0) 0 = false) ∧
    (⟨[(0, 1)], 2, [0], [1], 0⟩ : Machine.Circle).full = true ∧
    ((getSplit crew (loadTid .crew) 0).map (fun sp => (sp.handed, sp.wait)) = some (none, none)) ∧
    launchDone loadLaunch { crew with threads := [] } = true := by
  and_intros <;> decide +kernel

/-- BankAndPinEventsComplete: banks idle just long enough, one that wakes, a cache of two ways, a FIFO waiter, pin windows. -/
theorem test_meets_bank_events : let s : State := { fifo 63 [] with chiptime := 54000 }
    let w := modBank 0 5 (fun k => { k with pwr := .waking }) s
    let c := (List.range 2).foldl (fun s b => modBank 0 b (fun k => { k with mode := .cache, pwr := .active }) s) (scratch 0)
    ((getBank s 0 63).pwr = .active ∧ mayRetain s (getBank s 0 63) = true ∧ idleSince s (getBank s 0 63) + Config.retentionIdle ≤ s.chiptime) ∧
    (let k := getBank (modBank 0 7 (fun k => { k with pwr := .active }) s) 0 7
     k.mode = .unallocated ∧ k.pwr ≠ .deepOff ∧ k.pwr ≠ .waking ∧ k.lastAt + Config.deepOffIdle ≤ s.chiptime) ∧
    (getBank w 0 5).pwr = .waking ∧ mayPowerOff c 0 1 = true ∧
    (let f := onSplit (fun sp => { sp with wait := some ⟨.fifoFull 0 63, .fpush 1 0 0xC4, 0⟩ }) s
     (getSplit f (loadTid .crew) 0).map (fun sp => sp.wait.map Wait.obj) = some (some (.fifoFull 0 63))) ∧
    (let pins : Sparse Pin := [(63, ⟨loadCid, 0, 128, 0, 255, false, []⟩), (64, ⟨loadCid, 0, 128, 1, 255, false, []⟩), (255, ⟨loadCid, 0, 128, 1, 255, true, []⟩)]
     (Sparse.find? pins (64 * 0 + 63)).map Pin.fade = some 0 ∧ (Sparse.find? pins (64 * 1 + 0)).map (fun p => (p.fade, p.touched)) = some (1, false) ∧
     (Sparse.find? pins (64 * 3 + 63)).map (fun p => (p.fade, p.touched)) = some (1, true)) := by
  and_intros <;> decide +kernel

/-- A state with one line at the L2 level, and in the reverse map of die 0. -/
def lined : State := { warm 0x8000 crew with revmap := [(0, lineKey loadCid 256)] }
def hosted : State := { lined with station := { lined.station with stage := 6, inReset := false, retry := false } }

/-- CoherenceEventsComplete: a way for a line that the L2 level holds and none for one that it does not, an upgrade that is answered, lines in the reverse map and none, the last byte of HBM, and a
speculative fence that has not been hit, hit for the third time, and for the fourth. -/
theorem test_meets_coherence : let s := { lined with l2 := Sparse.alter lined.l2 (lineKey loadCid 256) (setCopy 0 .smA) }
    let sp (hit : Bool) (n : Nat) : Spec := ⟨4, Loop.start, 4, Loop.start, Regs.start, [], [], none, none, n, hit, false, 2⟩
    let f (x : Spec) := onSplit (fun sp => { sp with spec := some x }) crew
    (Sparse.find? s.l2 (lineKey loadCid 256)).map (fun l => copyAt l 0) = some (some .smA) ∧
    (wayFor 0 loadCid 256 lined).1 = true ∧ (wayFor 1 loadCid 256 lined).1 = true ∧ (wayFor 0 loadCid 257 lined).1 = false ∧
    reverseLines hosted 0 0 = [] ∧ reverseLines hosted 0 (loadPage / 128 + 256) = [lineKey loadCid 256] ∧
    hostReady hosted = true ∧ Config.hbmBytes - 1 < Config.hbmBytes ∧
    (∀ kl ∈ linesOf hosted (hostPlace hosted (.read (loadPage + 0x8000) 8) / 128), kl.2.txn = none) ∧
    (∀ kl ∈ linesOf hosted (hostPlace hosted (.write (Config.hbmBytes - 1) [0]) / 128), kl.2.txn = none) ∧
    (getSplit (f (sp false 0)) (loadTid .crew) 0).map Split.spec = some (some (sp false 0)) ∧
    (getSplit (f (sp true 2)) (loadTid .crew) 0).map Split.spec = some (some (sp true 2)) ∧ (sp true 2).rollbacks + 1 < 4 ∧
    4 ≤ (sp true 3).rollbacks + 1 := by
  and_intros <;> decide +kernel

/-- Slice 127 runs a handler for a message of the loaded word's context, or has one queued. -/
def trigger : Trigger := ⟨3, 15, loadCid, 0, false, 0x8000, 0, []⟩
def lantern (run : Bool) : State := modLantern 127 (fun l => { l with
  running := if run then some trigger else none, queue := if run then [] else [trigger], budget := 5 }) { fifo 63 [] with
    chiptime := 10
    contexts := [(loadCid, { Context.fresh 63 with ptbase := loadTables, regions := [(127, (256, 65280))] })] }

/-- LanternEventsComplete: a queued trigger, a running handler whose budget is spent, one that has written DONE, and its
port at both ends of a line and of local memory. -/
theorem test_meets_lanterns : let s := lantern true
    let k := modBank 0 63 (fun k => { k with esz := 4 }) s
    let fits (f : Lantern → Lantern) : Option Bool :=
      let u := modLantern 127 f s
      let c := (f (getLantern s 127)).command trigger
      if !portBusy u 127 && c.fine && c.parts.all (fun p => !flipping u trigger.cid p.1) then some (localOk u 127 trigger.cid c.plocal c.span) else none
    ((getLantern (lantern false) 127).running = none ∧ (getLantern (lantern false) 127).queue = [trigger]) ∧
    ((getLantern s 127).running = some trigger ∧ (getLantern s 127).started + 2 * (getLantern s 127).budget ≤ s.chiptime ∧
      (getLantern s 127).done = none ∧ (getLantern s 127).asking = none ∧ (getLantern s 127).nextAt ≤ s.chiptime ∧
      endWaits (overrun 127 trigger s) trigger = false ∧ portBusy (dropBudget 127 s) 127 = false) ∧
    (getLantern (modLantern 127 (fun l => { l with done := some true }) s) 127).done.isSome = true ∧
    [fits (setPort 0x8000 65408 128 0), fits (setPort 0x807F 65535 1 1), fits (setReply 65280 0xFC0), fits (setPort 0x8000 65535 2 0),
      fits (setPort 0x8000 0 0 0), fits (setRmw 0x8004 3 false 0), fits (setRmw 0x8004 7 true 0),
      fits (fun l => { l with paddr := 0x8000, pcmd := 2 })] =
      [some true, some true, some true, some false, none, some true, none, some true] ∧
    (replyBank k 0 63 trigger.cid = true ∧ (getBank k 0 63).fifo.length < (getBank k 0 63).capacity ∧ bits 0xFC0 6 6 = 63) := by
  and_intros <;> decide +kernel

/-- A Lantern core's words, from the RISC-V unprivileged specification (log 20): ADDI a0, x0, 10; C.LI a0, 1; SD a0, 24(a1);
BNE a0, x0, -4; C.J 0; the word 0 raises an exception. -/
theorem test_riscv_words : [rvDecode32 0x00A00513, rvDecode16 0x4505, rvDecode32 0x00A5BC23, rvDecode32 0xFE051EE3, rvDecode16 0xA001, rvDecode16 0] =
    [some (.imm .add false 10 0 10), some (.imm .add false 10 0 1), some (.store 8 10 11 24), some (.branch .ne 10 0 (BitVec.ofInt 64 (-4))),
      some (.jal 0 0), none] := by decide +kernel

/-- R341, R343: a handler's 8-byte store of 1 to DONE, by SD a0, 0(a1) with a1 = 0x10040, ends it. -/
theorem test_riscv_done :
    let s := modLantern 127 (fun l => { l with
      pc := 0x100, mem := Sparse.setAll 0 [] 0x100 (leBytes 4 0x00A5B023), xs := [(10, 1), (11, 0x10040)] }) (lantern true)
    let u := rvStep 127 loadCid s
    (getLantern u 127).done = some true ∧ (getLantern u 127).running = none := by decide +kernel

def op (k : OpKind) (run : Bool) (n : Nat) : EngineOp :=
  { kind := k, xmode := 0x22, running := run, done := n, flags := 0, since := none, parked := none }
def ops (xs : List EngineOp) : State := modCore 0 (fun c => { c with ops := xs }) mseq
/-- The kind of the operation that is ready, and its index. -/
def ready (xs : List EngineOp) (p : OpKind → Bool) : Option (Nat × OpKind) :=
  (readyOp (getCore (pumpOps 0 9 (ops xs)) 0).ops p).map (fun x => (x.1, x.2.kind))

/-- EngineEventsComplete: operations that are ready behind a swap, and ones that run. -/
theorem test_meets_engine_events : let tile : Shape := ⟨0x8100, 2, 2, 0, [128, 128, 1, 1], 0, [4, 512, 0, 0]⟩
    let load := OpKind.load (some (62, 2)) none 0
    let strm := OpKind.stream 3 511 4096 0 (62, 2)
    let group := OpKind.drain 0 2 true (some (0, 1)) none
    let drain := OpKind.drain 3 2 false none (some tile)
    (engineLaunch (pumpOps 0 9 (ops [op load false 0])) 0).isSome = true ∧ engineHeld (pumpOps 0 9 (ops [op load false 0])) 0 = false ∧
    ready [op load false 0] OpKind.isLoad = some (0, load) ∧ ready [op load true 0, op strm false 0] OpKind.isStream = some (1, strm) ∧
    passRunning (pumpOps 0 9 (ops [op strm false 0])) 0 = false ∧ ready [op group false 0] OpKind.isDrain = some (0, group) ∧
    ready [op strm true 0, op (.drain 2 2 false none (some tile)) false 0] OpKind.isDrain = some (1, .drain 2 2 false none (some tile)) ∧
    (findOp [op load true (2 ^ 20)] (fun o => o.running && o.kind.isLoad && decide (2 ^ 20 ≤ o.done))).isSome = true ∧
    (findOp [op load true 0, op strm true 0] (fun o => o.running && o.kind.isStream)).map Prod.fst = some 1 ∧
    (findOp [op drain true (2 ^ 20)] (fun o => o.running && o.kind.isDrain && decide (2 ^ 20 ≤ o.done))).isSome = true ∧
    (findOp [op (.zero 15) true 0] (fun o => o.running && o.kind.isZero)).isSome = true ∧
    (findOp [op .save true 0] (fun o => o.running && o.kind.isShadow)).isSome = true ∧
    (let e := modCore 0 (fun c => { c with mseq := { c.mseq with ending := true } }) mseq
     ((getCore e 0).seq 0).ending = true ∧ seqDrained e 0 0 = true) := by
  and_intros <;> decide +kernel

/-- A copy command in the queue of cluster 0. -/
def copied : State := match exec (.copy 1 0xC0 0xC4 0xC6) (copies 2 crew) with | .next t => t | _ => crew

/-- EngineEventsComplete: a command that has not moved and one that has, a sleeper whose time has come, a region to publish. -/
theorem test_meets_copy_events : (getCluster copied 0).copyq.map (fun c => (c.moved, c.why)) = [(false, none)] ∧
    (let m := modCopy 0 (fun c => { c with moved := true }) copied
     (getCluster m 0).copyq.map CopyCmd.moved = [true]) ∧
    (let w := onSplit (fun sp => { sp with wait := some ⟨.sleep 0, .waitt 1 0xC4, 0⟩ }) crew
     (getSplit w (loadTid .crew) 0).map (fun sp => sp.wait.map Wait.obj) = some (some (.sleep 0))) ∧
    ({ Context.fresh 63 with publish := [63] }).publish.contains 63 = true := by
  and_intros <;> decide +kernel

/-- A crew of a launch of partition 0, on its core or off it. -/
def placed (p : Place) : State :=
  { device 0 with launches := [(1, { unplaced 0xFFFFFFFF with unplaced := [] })]
                  threads := [(crewTid 1 0, { loadThread .crew 0 with launch := 1, place := p })] }

/-- FaultEventsComplete: a crew that has halted and one that is saved. -/
theorem test_meets_faults : let h := placed .halted
    let s := placed .saved
    (Sparse.find? crew.contexts loadCid).isSome = true ∧ hosted.station.stage = 6 ∧ crew.station.stage ≠ 6 ∧
    ((Sparse.find? h.threads (crewTid 1 0)).map Thread.place = some .halted ∧ idleOwners h 0 = []) ∧
    ((Sparse.find? s.threads (crewTid 1 0)).map (fun t => (t.place, t.launch)) = some (.saved, 1) ∧ partRuns s 0 = true ∧
      s.station.halted = false ∧ (groupOf s (crewTid 1 0)).all (fun k => (savedCrews s 1).contains k) = true ∧
      bit (unplaced 0xFFFFFFFF).record.flags 0 = false ∧ (restoreCores s (crewTid 1 0)).contains 0 = true) := by
  and_intros <;> decide +kernel

/-- RequestsComplete: a context and a page of it, requests at the ends of their ranges, and partitions. -/
theorem test_meets_requests : let s := device 0
    let c := { Context.fresh 0 with ptbase := loadTables, images := [(0, 65536)] }
    (Sparse.find? s.contexts loadCid = some c ∧ ownsContext s 0 loadCid = true ∧ runsLaunch s loadCid = false) ∧
    (2 < 3 ∧ Config.hbmBytes - 2 ^ 21 + 2 ^ 21 * 1 ≤ Config.hbmBytes) ∧
    (leafFrom s 0xFFFF c.ptbase 0 walkLevels = some (loadTables + 16384, 16) ∧ findFlip s loadCid 16 0xFFFF = none ∧ copiesPage (startFlip loadCid 16 0xFFFF true s).2 (startFlip loadCid 16 0xFFFF true s).1 = false) ∧
    (readHandlers s c 0x8000).isSome = true ∧ (mapped s c 0 0xFF00 = true) ∧ regionPlaces (othersRegions s loadCid (2 ^ 128 - 1)) 0xFF00 = [(256, 65280)] ∧
    (let t := { s with parts := [(0, { Partition.empty 0 0 with mask := 1, csel := loadCid }), (63, Partition.empty 0 63)] }
     selected t 0 = some (loadCid, c) ∧ selected t 63 = none ∧ runsLaunch t loadCid = false ∧ t.windowCids = []) ∧
    (let ready : State := { s with station := { s.station with stage := 6 } }
     hostReady ready = true ∧ hostReady State.reset = false) ∧
    (Sparse.find? s.parts 0).isSome = true ∧ s.launches.any (fun kl => leadOf s kl.2.part == leadOf s 0) = false ∧
    ((Sparse.find? s.parts 0).map (fun p => p.cores.length) = some 8) ∧
    (let t := { s with contexts := [] }
     maskParts (2 ^ 63 + 1) = [0, 63] ∧ [0, 63].all (fun i => (Sparse.find? t.parts i).isSome) = true ∧ t.contexts = []) := by
  and_intros <;> decide +kernel

/-- RequestsComplete, IMAGE and NEWCTX, whatever the free value is. -/
theorem test_meets_image (n : Nat) : imageTop (Context.fresh 0) + 65536 * (n % 65536) + 65536 < 2 ^ 48 := by
  have : imageTop (Context.fresh 0) = 65536 := by decide
  omega
theorem test_meets_newctx (n : Nat) : freshCid State.reset n = some (n % 4096) := by
  have h : (fun cid => (Sparse.find? State.reset.contexts cid).isNone) = fun _ => true := by funext cid; rfl
  have r : List.range 4096 = 0 :: (List.range 4095).map (· + 1) := by rw [List.range_succ_eq_map]
  unfold freshCid
  rw [h, r, List.map_cons, List.find?_cons_of_pos rfl, Nat.add_zero]

/-- HostEventsComplete: a device in reset and one that is ready, with an idle mailbox of partition 63, a register at a
multiple of 8, and clusters that a partition may hold and may not (R407: cluster 15 with the shared reserve on). -/
theorem test_meets_host : hostReady hosted = true ∧ hosted.station.retry = false ∧ 0x1FFF8 % 8 = 0 ∧ State.reset.station.inReset = true ∧
    hosted.station.inReset = false ∧ (Sparse.find? hosted.parts 63).map Partition.reqstat = some 0 ∧ mayHold hosted 0 3 0x00FF = true ∧
    mayHold hosted 0 3 0x01FF = false ∧ mayHold hosted 0 3 0x8000 = false := by
  and_intros <;> decide +kernel

/-- R406, R408: a partition that the device owner forms holds its clusters, each with 32 cache banks. -/
theorem test_owner_forms_partition : (let t := ownerRequest 5 1 0x8 hosted
    (Sparse.find? t.parts 5).map (fun p => (p.die, p.mask, p.lead)) = some (1, 8, 5) ∧ (getBank t 7 31).mode = .cache ∧
      (getBank t 7 32).mode = .unallocated) := by
  decide +kernel

/-- R434: a pass of 2,300 cycles at 2.7 GHz takes 3,450 at 1.8 GHz. -/
theorem test_core_clock_scales : coreCycles State.reset 511 2300 = 2300 ∧
    coreCycles { State.reset with monitors := { State.reset.monitors with cap := 1800 } } 511 2300 = 3450 := by
  decide +kernel

/-- KrazuEventsComplete: a port that is up with a flit to resend, before its last retry and at it, a port that trains with
a flit held and with none, and a flit in order, one out of order, and one that is damaged. -/
def linked (retries : Nat) (up training : Bool) (xs : List Flit) : State :=
  { hosted with ports := [(15, { Port.reset with up := up, training := training, retries := retries, replay := xs })] }
def flit (seq : Nat) (ok : Bool) : Flit := ⟨0, 0, 0, seq, [], ok⟩
theorem test_meets_krazu : let p (s : State) := getPort s 15
    ((p (linked 14 true false [flit 0 true])).up = true ∧ (p (linked 14 true false [flit 0 true])).training = false ∧
      (p (linked 14 true false [flit 0 true])).replay ≠ [] ∧ (p (linked 14 true false [flit 0 true])).retries + 1 < 16 ∧
      16 ≤ (p (linked 15 true false [flit 0 true])).retries + 1) ∧
    ((p (linked 0 false true [flit 0 true])).training = true ∧ (p (linked 0 false true [])).replay = [] ∧
      (p (linked 0 false true [flit 0 true])).replay ≠ []) ∧
    (flit 0 true).seq = (p (linked 0 true false [])).rx ∧ (flit 65535 true).seq ≠ (p (linked 0 true false [])).rx ∧
    (flit 0 true).crcOk = true ∧ (flit 0 false).crcOk = false ∧
    (hosted.station.recovering.find? (fun r => r.device == 32767)).isNone = true ∧
    ((let t := { hosted with station := { hosted.station with recovering := [⟨32767, 1, 0⟩, ⟨0, 2, 1⟩, ⟨1, 3, 0⟩] } }
      [32767, 0, 1].map (fun d => (t.station.recovering.find? (fun r => r.device == d)).map (fun r => (r.step, decide (t.chiptime < r.due))))) =
      [some (1, false), some (2, true), some (3, false)]) := by
  and_intros <;> decide +kernel

/-- MonitorsAndAttestationComplete: power above, within and below its range, droops that fill the window and ones that do
not, and a process monitor that is fast and one that is slow. -/
theorem test_meets_monitors : let s (n ro : Nat) : State := { hosted with monitors := { hosted.monitors with
      clusters := [(63, { ClusterHealth.reset with boot := ro, recent := List.replicate n 0 })] } }
    hostReady hosted = true ∧ hosted.station.inReset = false ∧ hosted.station.retry = false ∧ State.reset.station.inReset = true ∧
    hostReady State.reset = false ∧
    (let xs (w : Nat) := (w :: hosted.monitors.samples).take 10
     2400 * (xs 2401).length < (xs 2401).sum ∧ (xs 2299).sum < 2300 * (xs 2299).length ∧ 2300 * (xs 2300).length ≤ (xs 2300).sum ∧
       (xs 2400).sum ≤ 2400 * (xs 2400).length) ∧
    (let recent (n : Nat) := 0 :: (getHealth (s n 0) 63).recent.filter (fun t => decide (0 < t + 2700000))
     (recent 14).length < 16 ∧ 16 ≤ (recent 15).length) ∧
    ((getHealth (s 0 2700) 63).boot * 97 < 2620 * 100 ∧ 2619 * 100 ≤ (getHealth (s 0 2700) 63).boot * 97) := by
  and_intros <;> decide +kernel

/-- BadAddressesTrap: an address that breaks R26, and addresses of the wrong residue for every size. -/
theorem test_meets_bad_addresses : let far := put 5 0x80000000 crew
    let odd := put 4 1 crew
    let bad (size : Nat) (ps : List Machine.Part) : List Machine.Part := ps.filter (fun p => !canonicalVa p.va || decide (p.va % size ≠ 0))
    ((loadParts (envAt far) 63 0xC4 0).any (fun p => !canonicalVa p.va) = true ∧ (storeParts (envAt far) 0xC4 0).any (fun p => !canonicalVa p.va) = true) ∧
    [2, 4, 8, 16].all (fun n =>
      let ls := loadParts (envAt odd) 60 0xC4 (n * 255)
      let ss := storeParts (envAt odd) 0xC4 (n * 255)
      !ls.any (fun p => !canonicalVa p.va) && !(bad n ls).isEmpty && !ss.any (fun p => !canonicalVa p.va) && !(bad n ss).isEmpty) = true ∧
    (envAt crew).takes 60 ∧ (envAt crew).lanes ≠ [] ∧ OpsOk (envAt crew) anyKind [⟨60, .any, 4⟩, ⟨0xC4, .any, 2⟩] ∧
    OpsOk (envAt crew) storeKinds [⟨60, .any, 4⟩, ⟨0xC4, .any, 2⟩] ∧ (envAt crew).typeReserved = false := by
  and_intros <;> decide +kernel

/-- RegisterWordsFrame: a word that writes a mode, and the run it stands in. -/
theorem test_meets_register_frame : exec (.setmode 0 2 2) crew =
    .next ((envAt crew).wrote 0 (.setmode 0 2 2) [modeWrite (true, 4, 4) 2] 0 (opened crew)) := by rfl
theorem test_meets_frames : Issues crew (envAt crew) ∧ (envAt crew).sp.run.isOpen = true ∧ (envAt crew).sp.run.count + 1 < 64 ∧
    RegsOk (envAt crew).th.regs := by
  and_intros <;> decide +kernel

/-- The crew's cluster cache with the lines that stores of every size at the offset 255 reach. -/
def cached : State := modCluster 0 (fun c => { c with cache := [1, 3, 7, 15, 31].map (fun n =>
  { cid := loadCid, line := n, bank := 0, pline := 0, data := [(0, 1)], w := true, x := true, isAlias := false, shadow := false, host := false, win := false,
    records := [], keep := false, dirty := 0, written := 0, marks := [], poison := 0, stale := false, before := 0 }) }) crew

/-- StoreFrame. -/
theorem test_meets_store_frame : let e := envAt cached
    let hits (size : Nat) : Bool := (storeParts e 0xC4 (size * 255)).all (fun p =>
      ((clFind (opened cached) 0 e.cid (p.va / 128)).map (fun l => l.w && !l.shadow && !l.stale)).getD false)
    StoreReady cached e 63 0xC4 255 1 1 ∧ StoreReady cached e 60 0xC4 (16 * 255) 16 4 ∧ e.sp.run.isOpen = true ∧ e.sp.run.count + 1 < 64 ∧
    clusterOf e.th.core = 0 ∧ (∀ l ∈ (getCluster (opened cached) 0).cache, Sparse.wf 0 l.data = true) ∧
    [1, 2, 4, 8, 16].all hits = true ∧ ownWrites e (opened cached) = [] := by
  and_intros <;> decide +kernel

/-- MemoryReadsWrites, at the last byte of HBM, and ResetState. -/
theorem test_meets_memory : Memory.wf State.reset.mem = true ∧ linesOf State.reset ((Config.hbmBytes - 1) / 128) = [] := by
  and_intros <;> decide +kernel

/-- StepRule: a word that is an instruction, one that is none, a split that waits, an event, and nothing at all. -/
theorem test_meets_step : let f (s : State) : Option Nat :=
      (Sparse.find? s.threads (loadTid .crew)).bind (fun t => (Sparse.find? t.splits 0).bind (fun sp =>
        match (fetchWord t sp s).1 with | .ok w => some w.toNat | .error _ => none))
    crew.agenda = [] ∧ crew.turn = some (loadTid .crew, 0) ∧ f crew = some 0x9A010005 ∧ decodeWord 0x9A010005 = .ok (.li 1 1 5) ∧
    f (at_ 0) = some 0 ∧ (match decodeWord 0 with | .ok _ => false | .error _ => true) = true ∧
    (onSplitOf (onSplit (fun sp => { sp with wait := some ⟨.records, .nop 1, 0⟩ }) crew)).wait.isSome = true ∧
    State.reset.agenda = [] ∧ State.reset.turn = none := by
  and_intros <;> decide +kernel

/-- RunRules: a thread whose run is closed, and one whose run is open with two results of one register. -/
theorem test_meets_runs : (envAt crew).th.regs = Regs.start ∧
    ((thread? .crew crew).bind (fun t => Sparse.find? t.splits 0)).map (fun sp => (sp.run.isOpen, sp.handed)) = some (false, none) ∧
    (let s := emitTo (loadTid .crew) 0 [.scal 63 1, .scal 63 2] 16 (opened crew)
     (envOf s (loadTid .crew) 0).map (fun e => (e.sp.run.isOpen, e.sp.run.pend, e.sp.run.flagSet)) =
       some (true, [.scal 63 1] ++ RegWrite.scal 63 2 :: [], 16)) := by
  and_intros <;> decide +kernel

/-- TurnStaysReady: the crew that is about to issue. -/
theorem test_meets_turn : TurnOk crew := by
  intro tid sid h
  rw [show crew.turn = some (loadTid .crew, 0) by decide +kernel] at h
  cases h
  exact ⟨loadThread .crew 0, Split.start 0 0xFFFFFFFF, by decide +kernel, by decide +kernel, by decide +kernel, by decide +kernel, by decide +kernel,
    by decide +kernel, by decide +kernel⟩

/-- EncodeDecode. -/
theorem test_meets_encode : (Instr.li 1 1 5).wellFormed = true ∧ encode (.li 1 1 5) = some 0x9A010005 ∧
    (Instr.add 0 0xFF 0xC0 63).wellFormed = true ∧ (encode (.add 0 0xFF 0xC0 63)).isSome = true := by
  and_intros <;> decide +kernel

end Sys2Proof.Tests
end

