-- ==== Sys2Proof/Proofs/RegisterFrame.lean ====
section
/-! PROOFS. The frame of a word that only writes registers (R10, R22): a word of this kind leaves its run open, and then
nothing but the run has changed, or it closes the run, and then the pending results and flags are what the registers have
gained. -/

namespace Sys2Proof.Laws
open Sys2Proof.Machine Sys2Proof.Claims

/-! ## Registers -/

/-- What pending results and flags leave of a register file, whether they have taken effect or not (R22). -/
structure RegsFrame (r q : Regs) (ws : List RegWrite) (clr set : Word) : Prop where
  scal : RegsOk r → ∀ n, untouchedS n ws → q.scal n = r.scal n
  vec : RegsOk r → ∀ l n, untouchedV l n ws → q.vec l n = r.vec l n
  pred : RegsOk r → ∀ l n, untouchedP l n ws → q.pred l n = r.pred l n
  flags : q.flags = r.flags ∨ q.flags = ((r.flags &&& ~~~clr) ||| set) &&& 0x7F
  others : noSpecials ws → { q with v := r.v, p := r.p, s := r.s, flags := r.flags } = r

theorem RegsFrame.refl (r : Regs) (ws : List RegWrite) (clr set : Word) : RegsFrame r r ws clr set :=
  ⟨fun _ _ _ => rfl, fun _ _ _ _ => rfl, fun _ _ _ _ => rfl, .inl rfl, fun _ => rfl⟩

/-- The registers that a close writes. -/
theorem RegsFrame.close (r : Regs) (ws : List RegWrite) (clr set : Word) :
    RegsFrame r ((ws.foldl Regs.apply r).applyFlags clr set) ws clr set where
  scal h _ hw := fold_scal_keep h hw
  vec h _ _ hw := fold_vec_keep h hw
  pred h _ _ hw := fold_pred_keep h hw
  flags := .inr (by simp only [Regs.applyFlags, flags_fold])
  others h := specials_keep h

/-! ## The thread -/

/-- What a word that only writes registers leaves of its thread but for the registers: every other split, what the
thread is, and of its own split what no special result names. -/
structure ThreadFrame (e : Env) (ws : List RegWrite) (t : Thread) : Prop where
  splits : ∀ k, k ≠ e.sid → Sparse.find? t.splits k = Sparse.find? e.th.splits k
  kind : t.kind = e.th.kind
  launch : t.launch = e.th.launch
  handler : t.handler = e.th.handler
  circ : t.circ = e.th.circ
  split : noSpecials ws → ∃ sp, Sparse.find? t.splits e.sid = some sp ∧ sp.trapRegs = e.sp.trapRegs ∧
    sp.member = e.sp.member ∧ sp.exited = e.sp.exited ∧ sp.saved = e.sp.saved

/-- The thread that the close of an open run leaves. -/
theorem closeRun_open {t : Thread} {sid : Nat} {sp : Split} (ho : sp.run.isOpen = true) :
    t.closeRun sid sp = { t with
      regs := (sp.run.pend.foldl Regs.apply t.regs).applyFlags sp.run.flagClr sp.run.flagSet,
      splits := Sparse.put t.splits sid { sp with
        trapRegs := sp.run.pend.foldl TrapRegs.apply sp.trapRegs,
        spec := sp.spec.map (fun x => x.note sp.run.pend), run := sp.run.shut } } := if_pos ho

/-- The close of the run keeps the frame of the thread. -/
theorem ThreadFrame.close {e : Env} {t : Thread} {sp : Split} (h : ThreadFrame e sp.run.pend t)
    (hs : Sparse.find? t.splits e.sid = some sp) (ho : sp.run.isOpen = true) :
    ThreadFrame e sp.run.pend (t.closeRun e.sid sp) := by
  rw [closeRun_open ho]
  refine ⟨fun k hk => ?_, h.kind, h.launch, h.handler, h.circ, fun hn => ?_⟩
  · exact (Sparse.find?_put_other _ _ hk).trans (h.splits k hk)
  · obtain ⟨q, hq, htr, hm, hx, hsv⟩ := h.split hn
    obtain rfl : sp = q := Option.some.inj (hs.symm.trans hq)
    exact ⟨_, Sparse.find?_put_same _ _ _, (trap_specials hn).trans htr, hm, hx, hsv⟩

/-! ## The state -/

/-- A word in the middle of its run, without S, leaves the run open. -/
theorem endsRun_mid {n : Nat} (hn : n < 64) : endsRun 0#1 Flow.next n = false := by
  have : ¬ Config.runLimit ≤ n := Nat.not_le.mpr hn
  simp [endsRun, Flow.next, this]

theorem kept_opened (s : State) : MemoryKept s (opened s) := by
  obtain ⟨hm, hl, hc⟩ := opened_keeps s
  exact ⟨hm, hl, fun cl => by unfold getCluster; rw [hc]⟩

/-- The state after a word that only writes registers: memory and the other threads stay, its own thread keeps its
frame, and its registers are changed by the results of the run at most, and only if the run closes. -/
theorem wrote_frame {s : State} {e : Env} (m : BitVec 1) (i : Instr) (ws : List RegWrite) (fl : Word) (h : Issues s e)
    (ho : e.sp.run.isOpen = true) :
    ∃ t, Sparse.find? (e.wrote m i ws fl (opened s)).threads e.tid = some t ∧ MemoryKept s (e.wrote m i ws fl (opened s)) ∧
      (∀ k, k ≠ e.tid → Sparse.find? (e.wrote m i ws fl (opened s)).threads k = Sparse.find? s.threads k) ∧
      ThreadFrame e (e.sp.run.pend ++ ws) t ∧
      RegsFrame e.th.regs t.regs (e.sp.run.pend ++ ws) e.sp.run.flagClr (e.sp.run.flagSet ||| fl) ∧
      (endsRun m Flow.next (e.sp.run.count + 1) = false → t.regs = e.th.regs) := by
  obtain ⟨hi, -, hspec⟩ := h
  obtain ⟨sp, -, -, ht, hs, he, -, -⟩ := issuer_inv hi
  obtain ⟨-, -, hrun, hsp, htr, hmem, hex, hsv⟩ := anew_fields sp
  rw [← he] at hrun hsp htr hmem hex hsv
  rw [hrun] at ho ⊢
  obtain ⟨u, t, q, hdone, hut, hq, hothers, hsplits, hkind, hlaunch, hhandler, hcirc, hregs, humem, hul2, hucl,
    hqo, hpend, hset, hclr, hqtr, hqm, hqx, hqsv, -⟩ :=
    wrote_shape (m := m) (i := i) (ws := ws) (fl := fl) (f := Flow.next) ht hs ho (hsp.symm.trans hspec)
  have hkept : MemoryKept s u :=
    kept_trans (kept_opened s) ⟨humem, hul2, fun cl => by unfold getCluster; rw [hucl]⟩
  have hthreads (k : Nat) (hk : k ≠ e.tid) : Sparse.find? u.threads k = Sparse.find? s.threads k :=
    (hothers k hk).trans (opened_others hi hk)
  have hframe : ThreadFrame e q.run.pend t := ⟨hsplits, hkind, hlaunch, hhandler, hcirc, fun _ =>
    ⟨q, hq, hqtr.trans htr.symm, hqm.trans hmem.symm, hqx.trans hex.symm, hqsv.trans hsv.symm⟩⟩
  unfold Env.wrote
  rw [hdone, ← hpend, ← hset, ← hclr, ← hregs]
  cases hend : endsRun m Flow.next (sp.run.count + 1) with
  | false => exact ⟨t, hut, hkept, hthreads, hframe, .refl _ _ _ _, fun _ => rfl⟩
  | true =>
    refine ⟨t.closeRun e.sid q, closeRun_find hut hq, kept_trans hkept (kept_closeRun _ _ _),
      fun k hk => (closeRun_other hk).trans (hthreads k hk), hframe.close hq hqo, ?_, fun hf => by cases hf⟩
    rw [closeRun_open hqo]
    exact .close _ _ _ _

end Sys2Proof.Laws

namespace Sys2Proof.Proofs
open Sys2Proof.Machine Sys2Proof.Claims Sys2Proof.Laws

/-- Settles O51: the state that such a word leaves is the one of `wrote_frame`. -/
theorem registerWordsFrame : Obligations.RegisterWordsFrame := by
  unfold Obligations.RegisterWordsFrame
  intro s e m i ws fl h ho hx
  obtain ⟨t, ht, hkept, hthreads, hthread, hregs, hopen⟩ := wrote_frame m i ws fl h ho
  refine ⟨_, t, hx, ht, hkept, hthreads, hthread.splits, hthread.kind, hthread.launch, hthread.handler, hthread.circ,
    fun hm hc => hopen ?_, fun hr => ⟨hregs.scal hr, hregs.vec hr, hregs.pred hr⟩, hregs.flags,
    fun hn => ⟨hregs.others hn, hthread.split hn⟩⟩
  rw [hm]
  exact endsRun_mid hc

end Sys2Proof.Proofs
end

