-- ==== Sys2Proof/Proofs/OneLaneMachine.lean ====
section
/-! PROOFS. The machine of one lane: system words, transfers, the end of splits and the step (R16 to R44, R84 to R94),
runs with the link of CALL and RET (R22, R31), words without a guarded lane (R29, R46), and addresses that trap
(R26, R101). The first part says once what each word or operation comes to; the second assembles the obligations. -/

namespace Sys2Proof.Laws
open Sys2Proof.Machine Sys2Proof.Claims

/-! ## System words -/

/-- Results that raise no flag, for some lanes: they are handed over, and the word goes on. -/
theorem emit_unflagged (e : Env) (ls : List Nat) (d : BitVec 8) (n : Nat) (v : Nat → Nat) (s : State) :
    (do emit e (laneResults ls d n (fun l => (v l, 0))).1 (laneResults ls d n (fun l => (v l, 0))).2
        pure Flow.next : M Flow) s =
      .ok Flow.next (emitTo e.tid e.sid (ls.flatMap (fun l => regWrites l d (v l) n)) 0 s) := by
  simp only [laneResults, zero_flags]
  rfl

section
variable {s : State} {e : Env} (h : Issues s e)
include h

/-- R87. -/
theorem nop_done (m : BitVec 1) : exec (.nop m) s = .next (e.done m (.nop m) Flow.next (opened s)) :=
  issue_ok h rfl

/-- R86. -/
theorem getcyc_wrote (m : BitVec 1) {d : BitVec 8} (ho : OpsOk e anyKind [⟨d, .any, 2⟩]) :
    exec (.getcyc m d) s = .next (e.wrote m (.getcyc m d)
      ((if isVec d then e.active else [0]).flatMap (fun l => regWrites l d ((opened s).chiptime % 2 ^ 64) 2)) 0
      (opened s)) := by
  refine issue_ok h ?_
  rw [checkOps_ok ho, pure_bind, get_bind]
  exact emit_unflagged e _ d 2 (fun _ => chipNow (opened s)) _

/-- R91. -/
theorem icinv_done (m : BitVec 1) (hk : e.th.kind = .crew) :
    exec (.icinv m) s = .next (e.done m (.icinv m) Flow.next
      (modCore e.th.core (fun c => { c with icache := c.icache.filter (fun l => l.cid != e.cid) }) (opened s))) := by
  refine issue_ok h ?_
  rw [crew_ops hk, pure_bind, act_bind]
  rfl

/-- R84: a register of R16 that the issuer may name, into a register that can take it. -/
theorem rdsr_wrote (m : BitVec 1) {d a : BitVec 8} {row : SrRow} (hr : srRow a.toNat = some row)
    (ha : srAllowed e.th.kind a.toNat = true) (hd : row.scope = .lane → isVec d = false → e.th.kind ≠ .crew)
    (ho : OpsOk e anyKind [⟨d, .any, srRegs a.toNat⟩]) :
    exec (.rdsr m d a) s = .next (e.wrote m (.rdsr m d a)
      ((if isVec d then e.active else [0]).flatMap
        (fun l => regWrites l d (readSr e (opened s) l a.toNat) (srRegs a.toNat))) 0 (opened s)) := by
  have hok : (!srAllowed e.th.kind a.toNat ||
      (decide (row.scope = .lane) && !isVec d && decide (e.th.kind = .crew))) = false := by
    simpa [ha] using hd
  refine issue_ok h ?_
  rw [checkOps_ok ho, pure_bind]
  simp only [hr, hok, Bool.false_eq_true, if_false]
  rw [get_bind]
  exact emit_unflagged e _ d _ (fun l => readSr e (opened s) l a.toNat) _

/-- R85: a lane-scoped register is written in every guarded lane. -/
theorem wrsr_lanes (m : BitVec 1) {d a : BitVec 8} (hw : srWritable a.toNat = true)
    (ha : srAllowed e.th.kind a.toNat = true) (hs : srLane a.toNat = true) (hk : e.th.kind = .crew)
    (hl : e.lanes ≠ []) (ho : OpsOk e anyKind [⟨d, .any, srRegs a.toNat⟩]) :
    exec (.wrsr m d a) s = .next (e.wrote m (.wrsr m d a)
      (e.lanes.map (fun l => .special l a.toNat (BitVec.ofNat 64 (e.val l d (srRegs a.toNat))))) 0 (opened s)) := by
  refine issue_ok h ?_
  rw [whenLanes_of_lanes hl]
  simp only [hs, if_true]
  rw [checkOps_ok ho, pure_bind]
  have hcrew : srAllowed .crew a.toNat = true := hk ▸ ha
  simp only [hk, hw, hcrew]
  rfl

/-- R85: any other register is written once, from a scalar register; FLAGS loses bits at the close. -/
theorem wrsr_once (m : BitVec 1) {d a : BitVec 8} (hw : srWritable a.toNat = true)
    (ha : srAllowed e.th.kind a.toNat = true) (hs : srLane a.toNat = false)
    (ho : OpsOk e anyKind [⟨d, .scal, srRegs a.toNat⟩]) :
    exec (.wrsr m d a) s = .next (if a.toNat = 0x10 then e.done m (.wrsr m d a) Flow.next
        (modSplit e.tid e.sid (fun sp => { sp with run := { sp.run with flagClr := sp.run.flagClr ||| e.regs.field 0 d } })
          (opened s))
      else e.wrote m (.wrsr m d a) [.special 0 a.toNat (BitVec.ofNat 64 (e.val 0 d (srRegs a.toNat)))] 0 (opened s)) := by
  have hb : ∀ k : M Flow, whenLanes e false k = k := fun _ => whenLanes_some (by simp)
  unfold Env.wrote
  rw [← apply_ite (e.done m (.wrsr m d a) Flow.next)]
  refine issue_ok h ?_
  simp only [hs, hb, Bool.false_eq_true, if_false, and_false]
  rw [checkOps_ok ho, pure_bind]
  simp only [hw, ha, Bool.not_true, Bool.or_self, Bool.false_eq_true, if_false]
  split <;> rfl

end

/-! ## Transfers -/

/-- R26: a transfer to an aligned address. -/
theorem jumpTo_aligned (e : Env) {a : DWord} (ha : a.toNat % 4 = 0) : jumpTo e a = pure (Flow.jump a) :=
  if_neg (not_not_intro ha)

/-- R26: a transfer to any other address traps, and nothing after it is done. -/
theorem jumpTo_misaligned {a : DWord} (ha : a.toNat % 4 ≠ 0) (s : State) (e : Env) (k : Machine.Flow → M Machine.Flow) :
    (jumpTo e a >>= k) (opened s) = .error (.trap (openTrap s e causeAlign 0 e.active 0)) (opened s) := by
  unfold jumpTo
  rw [if_pos ha]
  rfl

section
variable {s : State} {e : Env} (h : Issues s e)
include h

/-- R92: BR whose condition holds, to an aligned target. -/
theorem br_taken (m : BitVec 1) {c : BitVec 4} {o : BitVec 20} (hc : brTaken e c.toNat = true)
    (ha : (e.target o).toNat % 4 = 0) :
    exec (.br m c o) s = .next (e.done m (.br m c o) (Flow.jump (e.target o)) (opened s)) := by
  refine issue_ok h ?_
  rw [any_ops, pure_bind, if_pos hc, jumpTo_aligned e ha]
  rfl

/-- R92: BR whose condition fails. -/
theorem br_falls (m : BitVec 1) {c : BitVec 4} (o : BitVec 20) (hc : brTaken e c.toNat = false) :
    exec (.br m c o) s = .next (e.done m (.br m c o) Flow.next (opened s)) := by
  refine issue_ok h ?_
  rw [any_ops, pure_bind, if_neg (by simp [hc])]
  rfl

/-- R31, R93: CALL leaves the address after it pending for s62:s63. -/
theorem call_done (m : BitVec 1) {o : BitVec 20} (ha : (e.target o).toNat % 4 = 0) :
    exec (.call m o) s = .next (e.done m (.call m o) (Flow.jump (e.target o))
      (emitTo e.tid e.sid (regWrites 0 0xFE (e.sp.pc + 4).toNat 2) 0 (opened s))) := by
  refine issue_ok h ?_
  rw [any_ops, pure_bind, jumpTo_aligned e ha, pure_bind, emit_bind]
  rfl

/-- R31, R93: RET. -/
theorem ret_done (m : BitVec 1) (ha : (e.regs.pair 0 0xFE).toNat % 4 = 0) :
    exec (.ret m) s = .next (e.done m (.ret m) (Flow.jump (e.regs.pair 0 0xFE)) (opened s)) := by
  refine issue_ok h ?_
  rw [any_ops, pure_bind, jumpTo_aligned e ha]
  rfl

/-- R94: JMPR; with D = s0 it writes no link. -/
theorem jmpr_done (m : BitVec 1) {d a : BitVec 8} (ho : OpsOk e anyKind [⟨d, .scal, 2⟩, ⟨a, .scal, 2⟩])
    (ha : (e.regs.pair 0 a).toNat % 4 = 0) :
    exec (.jmpr m d a) s = .next (e.done m (.jmpr m d a) (Flow.jump (e.regs.pair 0 a))
      (emitTo e.tid e.sid (if d = 0xC0 then [] else regWrites 0 d (e.sp.pc + 4).toNat 2) 0 (opened s))) := by
  refine issue_ok h ?_
  rw [checkOps_ok ho, pure_bind, jumpTo_aligned e ha, pure_bind, emit_bind]
  rfl

end

/-! ## The end of a split -/

/-- A body that ends its split or its program: what it leaves is the next state. -/
theorem issue_gone {s t : State} {e : Env} {m : BitVec 1} {i : Instr} {body : Env → M Machine.Flow} (h : Issues s e)
    (hb : body e (opened s) = .error .gone t) : issue m i body s = .next t := issue_stop h hb

/-- What EXIT does once its run has closed (R197). -/
def exitBody (c : Env) : M Machine.Flow :=
  if c.lanes.isEmpty then pure Flow.nextClose
  else do
    act (exitLanes c.tid c.sid c.lanes)
    if c.lanes.length = c.active.length then do
      act (endSplit c.tid c.sid)
      throw .gone
    else pure Flow.nextClose

/-- A crew's EXIT passes its checks and closes the run. -/
theorem exit_closes {s : State} {e : Env} (h : Issues s e) (hk : e.th.kind = .crew) (m : BitVec 1) :
    ∃ body, exec (.exit m) s = issue m (.exit m) body s ∧
      body e (opened s) = exitBody (e.afterClose s) (closed s e) := by
  obtain ⟨hi, -, -⟩ := h
  refine ⟨_, rfl, ?_⟩
  simp only [crew_ops hk, pure_bind, ite_self]
  rw [closeFirst_bind hi]
  simp only [crew_ops_after hi hk, pure_bind]
  rfl

/-! ## Words without a guarded lane -/

/-- An acquire load that loads nothing does not acquire (R268). -/
theorem acquireLoad_rests {e : Env} {d : BitVec 8} (hl : e.lanes = []) (hv : isVec d = true) (a : BitVec 8)
    (off size n : Nat) : acquireLoad e d a off size n = pure Flow.next := by
  unfold acquireLoad loadWith
  rw [hv, whenLanes_none hl, pure_bind, hl]
  rfl

/-- A release store that stores nothing does not release (R268). -/
theorem releaseStore_rests {e : Env} (hl : e.lanes = []) (d a : BitVec 8) (off size n : Nat) :
    releaseStore e d a off size n = pure Flow.next :=
  whenLanes_none (e := releasedEnv e) hl

/-- A word whose body does nothing rests. -/
theorem rest_of_body {s : State} {e : Env} {m : BitVec 1} {i : Instr} {body : Env → M Machine.Flow} (h : Issues s e)
    (hb : body e = pure Flow.next) : issue m i body s = .next (e.done m i Flow.next (opened s)) :=
  issue_ok h (by rw [hb]; rfl)

/-! ## Bad addresses -/

/-- The parts whose addresses are not canonical or are misaligned (R26, R101). -/
def badParts (size : Nat) (ps : List Machine.Part) : List Machine.Part :=
  ps.filter (fun p => !canonicalVa p.va || decide (p.va % size ≠ 0))

/-- Some part's address is not canonical (R26). -/
def anyFar (ps : List Machine.Part) : Bool := ps.any (fun p => !canonicalVa p.va)

/-- The trap with a cause in the lanes of some parts, at the first one's address. -/
def partsTrap (s : State) (e : Env) (cause : Nat) (ps : List Machine.Part) : TrapInfo :=
  openTrap s e cause 0 (ps.flatMap Part.lanes) ((ps.head?.map Part.va).getD 0)

/-- The trap of an access some of whose addresses are bad: ACCESS when one of them is not canonical (log 104). -/
def addrTrap (s : State) (e : Env) (size : Nat) (ps : List Machine.Part) : TrapInfo :=
  partsTrap s e (if anyFar ps then causeAccess else causeAlign) (badParts size ps)

/-- An address that is not canonical is a bad one. -/
theorem badParts_ne_nil_of_far {ps : List Machine.Part} (size : Nat) (hf : anyFar ps = true) : badParts size ps ≠ [] := by
  obtain ⟨p, hp, hc⟩ := List.any_eq_true.mp hf
  exact List.ne_nil_of_mem (List.mem_filter.mpr ⟨hp, by simp [hc]⟩)

section
variable {s : State} {e : Env} {size : Nat} {ps : List Machine.Part}

/-- R101: the check of addresses of which some are bad ends the word. -/
theorem checkAddrs_traps {α : Type} (k : Unit → M α) (hb : badParts size ps ≠ []) :
    (checkAddrs e ps size >>= k) (opened s) = .error (.trap (addrTrap s e size ps)) (opened s) := by
  rw [checkAddrs_bad k hb]
  rfl

variable {d a : BitVec 8} {off n : Nat}

/-- A load (R102) that issues with operands in order, at its bad addresses. -/
theorem loadWith_traps {ext : Nat → Nat} {tb : Bool} {read : Nat → State → Except Nat Got × State}
    (hl : e.takes d) (ho : OpsOk e anyKind [⟨d, .any, n⟩, ⟨a, if isVec d then .any else .scal, 2⟩]) (ht : tb = false)
    (hb : badParts size (loadParts e d a off) ≠ []) :
    loadWith e d a off size n tb ext read (opened s) =
      .error (.trap (addrTrap s e size (loadParts e d a off))) (opened s) := by
  unfold loadWith
  rw [whenLanes_takes hl, ht, checkOps_ok ho, pure_bind]
  exact checkAddrs_traps _ hb

/-- A store (R103) that issues with operands in order, at its bad addresses. -/
theorem storeWith_traps {first : M Unit} {write : Nat → List Byte → State → Except Nat Unit × State}
    (hl : e.lanes ≠ []) (ho : OpsOk e storeKinds [⟨d, .any, n⟩, ⟨a, .any, 2⟩])
    (hb : badParts size (storeParts e a off) ≠ []) :
    storeWith e d a off size n first write (opened s) =
      .error (.trap (addrTrap s e size (storeParts e a off))) (opened s) := by
  unfold storeWith
  rw [whenLanes_of_lanes hl, checkOps_ok ho, pure_bind]
  exact checkAddrs_traps _ hb

/-- A body that stops at its address check: the word's trap by its cause. -/
theorem badAddrs_trap {m : BitVec 1} {i : Instr} {body : Env → M Machine.Flow} (h : Issues s e)
    (hb : badParts size ps ≠ [] → body e (opened s) = .error (.trap (addrTrap s e size ps)) (opened s)) :
    (anyFar ps = true → issue m i body s =
      .next (raiseTrap e.tid e.sid (partsTrap s e causeAccess (badParts size ps)) (opened s))) ∧
    (anyFar ps = false → badParts size ps ≠ [] → issue m i body s =
      .next (raiseTrap e.tid e.sid (partsTrap s e causeAlign (badParts size ps)) (opened s))) := by
  refine ⟨fun hf => stop_trap h ?_, fun hf hne => stop_trap h ?_⟩
  · rw [hb (badParts_ne_nil_of_far size hf), addrTrap, if_pos hf]
  · rw [hb hne, addrTrap, if_neg (by simp [hf])]

end

/-! ## The last result of a register -/

section
variable {r : Regs} (h : RegsOk r)
include h

/-- R22: the later result of a scalar register wins. -/
theorem fold_scal_last {n : Nat} {x : Word} {us ws : List RegWrite} (hn : n ≠ 0) (hw : untouchedS n ws) :
    ((us ++ RegWrite.scal n x :: ws).foldl Regs.apply r).scal n = x := by
  rw [List.foldl_append, List.foldl_cons, fold_scal_keep (apply_ok (fold_ok us h) _) hw]
  exact apply_scal_same (fold_ok us h) x hn

/-- R22: the later result of a lane's register wins. -/
theorem fold_vec_last {l n : Nat} {x : Word} {us ws : List RegWrite} (hw : untouchedV l n ws) :
    ((us ++ RegWrite.vec l n x :: ws).foldl Regs.apply r).vec l n = x := by
  rw [List.foldl_append, List.foldl_cons, fold_vec_keep (apply_ok (fold_ok us h) _) hw]
  exact apply_vec_same (fold_ok us h) x

/-- R22: the later result of a predicate wins. -/
theorem fold_pred_last {l n : Nat} {x : Bool} {us ws : List RegWrite} (hn : n ≠ 0) (hw : untouchedP l n ws) :
    ((us ++ RegWrite.pred l n x :: ws).foldl Regs.apply r).pred l n = x := by
  rw [List.foldl_append, List.foldl_cons, fold_pred_keep (apply_ok (fold_ok us h) _) hw]
  exact apply_pred_same (fold_ok us h) x hn

end

/-! ## What each operation on a run leaves for the next word -/

/-- A split whose run opens where it is closed (R22), unless it goes on with a word that has waited (R186). -/
def openSplit (s : State) (t : Thread) (sp : Split) : Split :=
  if sp.run.isOpen ∨ sp.handed.isSome then sp
  else { sp with run := { isOpen := true, count := 0, image := t.regs, lcImage := sp.loop.lc,
                          depth := sp.loop.levels.length, trImage := sp.trapRegs, temp := (getCore s t.core).temp,
                          phys := t.core, pend := [], flagSet := 0, flagClr := 0 } }

/-- An open run goes on. -/
theorem openSplit_of_open {s : State} {t : Thread} {sp : Split} (ho : sp.run.isOpen = true) : openSplit s t sp = sp :=
  if_pos (.inl ho)

/-- A run that opens reads the registers as they stand, with nothing pending (R22). -/
theorem openSplit_of_closed {s : State} {t : Thread} {sp : Split} (ho : sp.run.isOpen = false) (hh : sp.handed = none) :
    (openSplit s t sp).run.isOpen = true ∧ (openSplit s t sp).run.image = t.regs ∧ (openSplit s t sp).run.pend = [] ∧
      (openSplit s t sp).run.flagSet = 0 ∧ (openSplit s t sp).run.flagClr = 0 := by
  have hc : ¬ (sp.run.isOpen = true ∨ sp.handed.isSome = true) := by simp [ho, hh]
  unfold openSplit
  rw [if_neg hc]
  exact ⟨rfl, rfl, rfl, rfl, rfl⟩

section
variable {s : State} {tid sid : Nat} {t : Thread} {sp : Split} (ht : Sparse.find? s.threads tid = some t)
  (hs : Sparse.find? t.splits sid = some sp)
include ht hs

/-- The thread and the split once the run is open. -/
theorem openRun_find :
    ∃ t', Sparse.find? (openRun tid sid s).threads tid = some t' ∧
      Sparse.find? t'.splits sid = some (openSplit s t sp) :=
  ⟨_, alter_same ht, alter_same hs⟩

/-- Results of an open run wait in the split's record. -/
theorem emitTo_open (ws : List RegWrite) (fl : Word) (ho : sp.run.isOpen = true) :
    Sparse.find? (emitTo tid sid ws fl s).threads tid =
      some { t with splits := Sparse.put t.splits sid (pendSplit sp ws fl) } := by
  refine (alter_same ht).trans ?_
  simp only [hs, ho, if_true, pendSplit]

/-- The split of an open run is given the turn again: it issues, and reads the registers of the run's beginning. -/
theorem issues_again (ho : sp.run.isOpen = true) (hh : sp.handed = none) (hn : sp.spec = none) :
    ∃ e t', Issues { s with turn := some (tid, sid) } e ∧ e.tid = tid ∧ e.sid = sid ∧ e.regs = sp.run.image ∧
      Sparse.find? (opened { s with turn := some (tid, sid) }).threads tid = some t' ∧
      Sparse.find? t'.splits sid = some sp := by
  obtain ⟨t', ht', hs'⟩ := openRun_find (s := { s with turn := some (tid, sid) }) ht hs
  rw [openSplit_of_open ho] at hs'
  have hanew : sp.anew = sp := if_neg (by simp [hh])
  exact ⟨_, t', ⟨envOf_of ht' hs', by rw [hanew, hh], by rw [hanew, hn]⟩, rfl, rfl, rfl, ht', hs'⟩

end

/-- R21: the S bit ends a run. -/
theorem endsRun_marked (f : Machine.Flow) (n : Nat) : endsRun 1#1 f n = true := by simp [endsRun]

/-- R21: a transfer in the middle of a run does not end it. -/
theorem endsRun_jump {a : DWord} {n : Nat} (hn : n < 64) : endsRun 0#1 (Flow.jump a) n = false := by
  have : ¬ Config.runLimit ≤ n := Nat.not_le.mpr hn
  simp [endsRun, Flow.jump, this]

/-- What CALL leaves before its run may close: its split at the target, with the link pending. -/
theorem call_leaves {s : State} {e : Env} (h : Issues s e) (ho : e.sp.run.isOpen = true) (m : BitVec 1) (o : BitVec 20) :
    ∃ u t sp, e.done m (.call m o) (Flow.jump (e.target o))
          (emitTo e.tid e.sid (linkWrites e 0xFE) 0 (opened s)) =
        (if endsRun m (Flow.jump (e.target o)) (e.sp.run.count + 1) then closeRun e.tid e.sid u else u) ∧
      Sparse.find? u.threads e.tid = some t ∧ Sparse.find? t.splits e.sid = some sp ∧ t.regs = e.th.regs ∧
      sp.pc = e.target o ∧ sp.run.isOpen = true ∧ sp.run.pend = e.sp.run.pend ++ linkWrites e 0xFE ∧
      sp.run.image = e.regs ∧ sp.handed = none ∧ sp.spec = none := by
  obtain ⟨hi, -, hspec⟩ := h
  obtain ⟨sp, -, -, ht, hs, he, hregs, -⟩ := issuer_inv hi
  obtain ⟨-, -, hrun, hsp, -⟩ := anew_fields sp
  rw [← he] at hrun hsp
  rw [hrun] at ho ⊢
  obtain ⟨u, t, q, hdone, hu, hq, -, -, -, -, -, -, hr, -, -, -, hqo, hpend, -, -, -, -, -, -, hpc, himage, hh, hn⟩ :=
    wrote_shape (m := m) (i := .call m o) (ws := linkWrites e 0xFE) (fl := 0) (f := Flow.jump (e.target o)) ht hs ho
      (hsp.symm.trans hspec)
  exact ⟨u, t, q, hdone, hu, hq, hr, hpc, hqo, hpend, himage.trans hregs.symm, hh, hn⟩

end Sys2Proof.Laws

namespace Sys2Proof.Proofs
open Sys2Proof.Machine Sys2Proof.Claims Sys2Proof.Laws

/-- Settles O8, word by word. -/
theorem systemWordsComplete : Obligations.SystemWordsComplete := by
  unfold Obligations.SystemWordsComplete
  intro s e m h
  refine ⟨nop_done h m, fun d => getcyc_wrote h m, icinv_done h m, fun d a row => rdsr_wrote h m,
    fun d a => wrsr_lanes h m, fun d a hw ha hs hn ho => ?_, fun d ho => ?_⟩
  · rw [wrsr_once h m hw ha hs ho, if_neg hn]
  · have ha : srAllowed e.th.kind (0x10 : BitVec 8).toNat = true := by cases e.th.kind <;> rfl
    rw [wrsr_once h m rfl ha rfl ho]
    rfl

/-- R31, R36, R92 to R94: each word by the lemma about it. -/
theorem transfersComplete : TransfersComplete := fun _ _ m h =>
  ⟨fun _ _ => br_taken h m, fun _ o => br_falls h m o, fun _ => call_done h m, ret_done h m, fun _ _ => jmpr_done h m⟩

/-- R26: each of the four words comes to the same misaligned transfer. -/
theorem misalignedTransfersTrap : MisalignedTransfersTrap := by
  intro s e m h
  refine ⟨fun c o hc ha => stop_trap h ?_, fun o ha => stop_trap h ?_, fun ha => stop_trap h ?_,
    fun d a ho ha => stop_trap h ?_⟩
  · rw [any_ops, pure_bind, if_pos hc, ← bind_pure (jumpTo e (e.target o)), jumpTo_misaligned ha]
  · rw [any_ops, pure_bind, jumpTo_misaligned ha]
  · rw [any_ops, pure_bind, ← bind_pure (jumpTo e (e.regs.pair 0 0xFE)), jumpTo_misaligned ha]
  · rw [checkOps_ok ho, pure_bind, jumpTo_misaligned ha]

/-- Settles O9: the aligned transfers, and the misaligned ones. -/
theorem transfersAndTheirTraps : Obligations.TransfersAndTheirTraps := ⟨transfersComplete, misalignedTransfersTrap⟩

/-- R28, R88, R181, R347: after the close of the run, what ends depends on the issuer. -/
theorem endCompletes : EndCompletes := by
  intro s e m h
  have hi := h.1
  refine issue_gone h ((closeFirst_bind hi _).trans ?_)
  simp only [afterClose_kind hi, afterClose_tid hi, afterClose_sid hi, afterClose_members hi]
  cases e.th.kind <;> rfl

/-- R168, R197: EXIT judges its lanes as the close of the run leaves them. -/
theorem exitCompletes : ExitCompletes := by
  intro s e m h hk
  have hi := h.1
  dsimp only
  obtain ⟨body, hx, hb⟩ := exit_closes h hk m
  rw [hx]
  unfold exitBody at hb
  refine ⟨fun hl => issue_ok h (hb.trans ?_), fun hl hn => issue_gone h (hb.trans ?_),
    fun hl hn => issue_ok h (hb.trans ?_)⟩
  · rw [hl]
    rfl
  · rw [if_neg (by simpa using hl), act_bind, if_pos hn, act_bind, afterClose_tid hi, afterClose_sid hi]
    rfl
  · rw [if_neg (by simpa using hl), act_bind, if_neg hn, afterClose_tid hi, afterClose_sid hi]
    rfl

/-- Settles O12: the end of the split, and the exit of its lanes. -/
theorem endAndExitComplete : Obligations.EndAndExitComplete := ⟨endCompletes, exitCompletes⟩

/-- R44, R186: the split whose turn it is executes what `nextInstr` names. -/
theorem stepRunsTheWord : StepRunsTheWord := by
  intro s tid sid t sp ha hturn ht hs
  have hsp : getSplit s tid sid = some sp := getSplit_some ht hs
  have hstep : step s = stepIssue tid sid s := by simp only [step, ha, hturn]
  simp only [hstep, stepIssue, nextInstr, ht, hsp]
  refine ⟨fun w u i hw hf hd => ?_, fun w u r hw hf hd => ?_, fun w hw => ?_⟩
  · simp only [hw, hf, instrOf, hd]
  · simp only [hw, hf, instrOf, hd]
  · simp only [hw]

/-- An event that is due comes before any turn; without both, time passes (log 6). -/
theorem stepTakesTheEvent : StepTakesTheEvent :=
  ⟨fun s i rest ha => by simp only [step, ha, stepEvent], fun s ha ht => by simp only [step, ha, ht]⟩

/-- Settles O55: the word of the turn, and the event that is due. -/
theorem stepRule : Obligations.StepRule := ⟨stepRunsTheWord, stepTakesTheEvent⟩

/-- Settles O48, down each list in its order: a word's guard stands before its checks (`rest_ok`); LDA and LDAD also leave
out their acquire, STL and STLD their release. -/
theorem guardedWordsRest : Obligations.GuardedWordsRest := by
  unfold Obligations.GuardedWordsRest
  intro s e m d a b k h hl
  dsimp only
  refine ⟨fun hv => ?_, ?_, fun hv => ?_⟩
  · iterate 45 refine List.forall_mem_cons.mpr ⟨rest_ok h hl hv, ?_⟩
    iterate 2 refine List.forall_mem_cons.mpr ⟨rest_of_body h (acquireLoad_rests hl hv _ _ _ _), ?_⟩
    iterate 2 refine List.forall_mem_cons.mpr ⟨rest_ok h hl hv, ?_⟩
    exact List.forall_mem_nil _
  · iterate 5 refine List.forall_mem_cons.mpr ⟨rest_ok h hl rfl, ?_⟩
    iterate 2 refine List.forall_mem_cons.mpr ⟨rest_of_body h (releaseStore_rests hl _ _ _ _ _), ?_⟩
    exact List.forall_mem_cons.mpr ⟨rest_ok h hl rfl, List.forall_mem_nil _⟩
  · iterate 10 refine List.forall_mem_cons.mpr ⟨rest_ok h hl (by simp [hv]), ?_⟩
    exact List.forall_mem_nil _

/-- Settles O50: every load has the shape `loadWith`, every store the shape `storeWith`. -/
theorem badAddressesTrap : Obligations.BadAddressesTrap := by
  unfold Obligations.BadAddressesTrap
  intro s e m d a o h
  dsimp only
  refine ⟨fun ⟨hl, ho⟩ ht => ⟨?_, ?_⟩, fun ⟨hl, ho⟩ => ?_, fun ⟨hl, ho⟩ => ?_, fun ⟨hl, ho⟩ => ?_,
    fun ⟨hl, ho⟩ => ⟨?_, ?_, ?_⟩, fun ⟨hl, ho⟩ => ?_, fun ⟨hl, ho⟩ => ?_⟩
  iterate 2 exact badAddrs_trap h (loadWith_traps hl ho ht)
  iterate 3 exact badAddrs_trap h (loadWith_traps hl ho rfl)
  iterate 5 exact badAddrs_trap h (storeWith_traps hl ho)

/-- Settles O44: the three operations on a run, each by what it leaves of the thread and the split. -/
theorem runRules : Obligations.RunRules := by
  unfold Obligations.RunRules
  refine ⟨fun s tid sid t sp ht hs ho hh => ?_, fun s e tid sid ws fl he ho => ?_, fun s e tid sid he ho hr => ?_⟩
  · obtain ⟨t', ht', hs'⟩ := openRun_find ht hs
    obtain ⟨hopen, himage, hpend, hset, hclr⟩ := openSplit_of_closed (s := s) (t := t) ho hh
    refine ⟨_, envOf_of ht' hs', himage, ?_⟩
    rw [anew_run]
    exact ⟨hopen, hpend, hset, hclr⟩
  · obtain ⟨sp, ht, hs, hsp, hregs, -⟩ := envOf_inv he
    rw [hsp, anew_run] at ho ⊢
    exact ⟨_, envOf_of (emitTo_open ht hs ws fl ho) (Sparse.find?_put_same _ _ _), hregs.symm, rfl,
      by simp [anew_run, pendSplit], by simp [anew_run, pendSplit]⟩
  · obtain ⟨sp, ht, hs, hsp, -⟩ := envOf_inv he
    rw [hsp, anew_run] at ho ⊢
    have hc := closeRun_find ht hs
    rw [closeRun_open ho] at hc
    refine ⟨_, envOf_of hc (Sparse.find?_put_same _ _ _), by simp [anew_run, Run.shut], fold_ok sp.run.pend hr, ?_,
      fun n => fold_scal_keep hr, fun l n => fold_vec_keep hr, fun l n => fold_pred_keep hr,
      fun n x us ws hn hp hw => ?_, fun l n x us ws hp hw => ?_, fun l n x us ws hn hp hw => ?_⟩
    · simp only [Regs.applyFlags, flags_fold]
    · rw [hp]
      exact fold_scal_last hr hn hw
    · rw [hp]
      exact fold_vec_last hr hw
    · rw [hp]
      exact fold_pred_last hr hn hw

/-- Settles O43: a CALL with S closes its run, whose last results are the link; a CALL without S leaves the run open, so
that a RET in it reads the registers of the run's beginning. -/
theorem callAndReturnLink : Obligations.CallAndReturnLink := by
  unfold Obligations.CallAndReturnLink
  refine ⟨fun s e m h => ret_done h m, fun s e o h ho ha => ⟨fun hr => ?_, fun hc => ?_⟩⟩
  · obtain ⟨u, t, sp, hdone, hu, hs, hregs, hpc, hopen, hpend, -⟩ := call_leaves h ho 1#1 o
    rw [endsRun_marked, if_pos rfl] at hdone
    have hclose := closeRun_find hu hs
    rw [closeRun_open hopen, hregs, hpend] at hclose
    refine ⟨_, _, _, (call_done h 1#1 ha).trans (congrArg Host.Outcome.next hdone),
      getSplit_some hclose (Sparse.find?_put_same _ _ _), hpc, rfl, congrArg (Option.map Thread.regs) hclose, ?_⟩
    exact pair_last hr e.sp.run.pend (e.sp.pc + 4)
  · obtain ⟨u, t, sp, hdone, hu, hs, -, hpc, hopen, -, himage, hh, hn⟩ := call_leaves h ho 0#1 o
    rw [endsRun_jump hc] at hdone
    refine ⟨u, sp, (call_done h 0#1 ha).trans (congrArg Host.Outcome.next hdone), getSplit_some hu hs, hpc,
      fun har => ?_⟩
    obtain ⟨e', t', h', htid, hsid, hregs', ht', hs'⟩ := issues_again hu hs hopen hh hn
    rw [himage] at hregs'
    obtain ⟨q, hq, hqpc⟩ := done_pc 0#1 (.ret 0#1) (Flow.jump (e.regs.pair 0 0xFE)) ht' hs' hn
    refine ⟨_, q, (ret_done h' 0#1 (by rw [hregs']; exact har)), ?_, hqpc⟩
    rw [hregs']
    unfold splitOf Env.done
    rw [htid, hsid]
    exact hq

end Sys2Proof.Proofs
end

