-- ==== Sys2Proof/Proofs/WordsAndAssembly.lean ====
section
/-! PROOFS. Words and assembly: the decoder reads back what the encoder writes (R32 to R43), a word without a meaning or
from a wrong issuer traps ILLEGAL (R44 to R47), and no instruction stops the machine. -/

namespace Sys2Proof.Laws
open Sys2Proof.Machine Sys2Proof.Claims

/-! ## Decoding an encoding -/

/-- The encoding of every well-formed instruction decodes to it: a word by the lemma about its fields; an event has no
encoding. -/
theorem roundTrip (i : Instr) : RoundTrip.Statement i := by
  cases i with
  | add => apply RoundTrip.add | sub => apply RoundTrip.sub | mul => apply RoundTrip.mul
  | mulh => apply RoundTrip.mulh | fma => apply RoundTrip.fma | div => apply RoundTrip.div
  | rem => apply RoundTrip.rem | min => apply RoundTrip.min | max => apply RoundTrip.max | and => apply RoundTrip.and
  | or => apply RoundTrip.or | xor => apply RoundTrip.xor | andn => apply RoundTrip.andn | shl => apply RoundTrip.shl
  | shr => apply RoundTrip.shr | sra => apply RoundTrip.sra | bfx => apply RoundTrip.bfx | bfi => apply RoundTrip.bfi
  | permb => apply RoundTrip.permb | sel => apply RoundTrip.sel | cmp => apply RoundTrip.cmp
  | pred => apply RoundTrip.pred | addx => apply RoundTrip.addx | mov => apply RoundTrip.mov
  | not => apply RoundTrip.not | neg => apply RoundTrip.neg | abs => apply RoundTrip.abs
  | popc => apply RoundTrip.popc | clz => apply RoundTrip.clz | ctz => apply RoundTrip.ctz
  | brev => apply RoundTrip.brev | frc => apply RoundTrip.frc | rint => apply RoundTrip.rint
  | rcp => apply RoundTrip.rcp | rsq => apply RoundTrip.rsq | sqrt => apply RoundTrip.sqrt
  | exp2 => apply RoundTrip.exp2 | log2 => apply RoundTrip.log2 | sinp => apply RoundTrip.sinp
  | cosp => apply RoundTrip.cosp | tanh => apply RoundTrip.tanh | cvt => apply RoundTrip.cvt
  | li => apply RoundTrip.li | lih => apply RoundTrip.lih | setmode => apply RoundTrip.setmode
  | br => apply RoundTrip.br | call => apply RoundTrip.call | brd => apply RoundTrip.brd
  | join => apply RoundTrip.join | loop => apply RoundTrip.loop | choice => apply RoundTrip.choice
  | jmpr => apply RoundTrip.jmpr | nop => apply RoundTrip.nop | endI => apply RoundTrip.endI
  | sys => apply RoundTrip.sys | tret => apply RoundTrip.tret | rdsr => apply RoundTrip.rdsr
  | wrsr => apply RoundTrip.wrsr | getcyc => apply RoundTrip.getcyc | icinv => apply RoundTrip.icinv
  | exit => apply RoundTrip.exit | ret => apply RoundTrip.ret | setmoder => apply RoundTrip.setmoder
  | getmode => apply RoundTrip.getmode | waitt => apply RoundTrip.waitt | brk => apply RoundTrip.brk
  | shfl => apply RoundTrip.shfl | shflx => apply RoundTrip.shflx | shflup => apply RoundTrip.shflup
  | shfldn => apply RoundTrip.shfldn | voteall => apply RoundTrip.voteall | voteany => apply RoundTrip.voteany
  | ballot => apply RoundTrip.ballot | mbcnt => apply RoundTrip.mbcnt | firstlane => apply RoundTrip.firstlane
  | rsum => apply RoundTrip.rsum | scans => apply RoundTrip.scans | bar => apply RoundTrip.bar
  | bara => apply RoundTrip.bara | barw => apply RoundTrip.barw | dqpush => apply RoundTrip.dqpush
  | dqpop => apply RoundTrip.dqpop | dqpeek => apply RoundTrip.dqpeek | spawn => apply RoundTrip.spawn
  | tdone => apply RoundTrip.tdone | qpop => apply RoundTrip.qpop | setgang => apply RoundTrip.setgang
  | adoptq => apply RoundTrip.adoptq | offer => apply RoundTrip.offer | vwin => apply RoundTrip.vwin
  | tagof => apply RoundTrip.tagof | payld => apply RoundTrip.payld | mkterm => apply RoundTrip.mkterm
  | deref => apply RoundTrip.deref | getcp => apply RoundTrip.getcp | gettr => apply RoundTrip.gettr
  | unify => apply RoundTrip.unify | bind => apply RoundTrip.bind | fail => apply RoundTrip.fail
  | cut => apply RoundTrip.cut | hnew => apply RoundTrip.hnew | newvar => apply RoundTrip.newvar
  | ldb => apply RoundTrip.ldb | ldh => apply RoundTrip.ldh | ldw => apply RoundTrip.ldw | ldd => apply RoundTrip.ldd
  | ldq => apply RoundTrip.ldq | stb => apply RoundTrip.stb | sth => apply RoundTrip.sth | stw => apply RoundTrip.stw
  | std => apply RoundTrip.std | stq => apply RoundTrip.stq | lda => apply RoundTrip.lda
  | ldad => apply RoundTrip.ldad | stl => apply RoundTrip.stl | stld => apply RoundTrip.stld
  | ldc => apply RoundTrip.ldc | lds => apply RoundTrip.lds | sts => apply RoundTrip.sts
  | fpush => apply RoundTrip.fpush | fpop => apply RoundTrip.fpop | ftrypop => apply RoundTrip.ftrypop
  | atadd => apply RoundTrip.atadd | atmin => apply RoundTrip.atmin | atmax => apply RoundTrip.atmax
  | atand => apply RoundTrip.atand | ator => apply RoundTrip.ator | atxor => apply RoundTrip.atxor
  | atswp => apply RoundTrip.atswp | atcas => apply RoundTrip.atcas | atfadd => apply RoundTrip.atfadd
  | atinc => apply RoundTrip.atinc | fence => apply RoundTrip.fence | pfence => apply RoundTrip.pfence
  | cwb => apply RoundTrip.cwb | cinv => apply RoundTrip.cinv | cflush => apply RoundTrip.cflush
  | pref => apply RoundTrip.pref | pin => apply RoundTrip.pin | unpin => apply RoundTrip.unpin
  | sample => apply RoundTrip.sample | bankmode => apply RoundTrip.bankmode | bankpwr => apply RoundTrip.bankpwr
  | bankq => apply RoundTrip.bankq | lmsg => apply RoundTrip.lmsg | bwphase => apply RoundTrip.bwphase
  | topen => apply RoundTrip.topen | tclose => apply RoundTrip.tclose | tacqr => apply RoundTrip.tacqr
  | tacqw => apply RoundTrip.tacqw | trel => apply RoundTrip.trel | tquery => apply RoundTrip.tquery
  | tsplit => apply RoundTrip.tsplit | tld => apply RoundTrip.tld | tst => apply RoundTrip.tst
  | copy => apply RoundTrip.copy | copyg => apply RoundTrip.copyg | collect => apply RoundTrip.collect
  | fork => apply RoundTrip.fork | rdv => apply RoundTrip.rdv | publish => apply RoundTrip.publish
  | mlds => apply RoundTrip.mlds | mones => apply RoundTrip.mones | mswap => apply RoundTrip.mswap
  | mstream => apply RoundTrip.mstream | mdrain => apply RoundTrip.mdrain | mzero => apply RoundTrip.mzero
  | mshadow => apply RoundTrip.mshadow
  | _ => exact RoundTrip.no_word rfl

/-! ## Words that trap ILLEGAL -/

section
variable {s : State} {e : Env} {m : BitVec 1} {i : Instr} (h : Issues s e)
include h

/-- R45: a word whose first check fails at step 4 traps in its active lanes, whatever would come after the check. -/
theorem step4_traps {who : List Kind} {ops : List Opnd} {x : Bool} {k : Env → Unit → M Machine.Flow}
    (hc : checkOps e who false ops x = illegal e 4 e.active) :
    issue m i (fun e => checkOps e who false ops x >>= k e) s =
      .next (raiseTrap e.tid e.sid (openTrap s e causeIllegal 4 e.active 0) (opened s)) := by
  refine stop_trap h ?_
  rw [hc]
  rfl

/-- R45: so does a word that closes its run first (R192): its checks stand before the close (log 89). -/
theorem step4_closing_traps {ops : List Opnd} {k : Env → M Machine.Flow} (hk : e.th.kind ≠ .crew) :
    issue m i (fun e => closing e crewOnly false ops k) s =
      .next (raiseTrap e.tid e.sid (openTrap s e causeIllegal 4 e.active 0) (opened s)) :=
  stop_trap h (closing_bad hk rfl)

end

/-- A vector register where a scalar one is required fails step 4, whoever issues the word. -/
theorem bad4_of_vector {a : BitVec 8} (hv : isVec a = true) (k : Kind) (n : Nat) :
    Opnd.bad4 k ⟨a, .scal, n⟩ = true := by
  simp [Opnd.bad4, hv]

/-! ## What an instruction comes to -/

/-- Every instruction has a next state, but for a word that no split issues: a word, as well as one without a meaning,
acts in the frame `issue`; an event always has its next state. -/
theorem exec_outcome (i : Instr) (s : State) :
    (∃ t, exec i s = .next t) ∨ (issuer s = none ∧ exec i s = .fault .noIssuer) := by
  cases i with
  | add | sub | mul | mulh | fma | div | rem | min | max | and | or | xor | andn | shl | shr | sra | bfx | bfi
  | permb | sel | cmp | pred | addx | mov | not | neg | abs | popc | clz | ctz | brev | frc | rint | rcp | rsq | sqrt
  | exp2 | log2 | sinp | cosp | tanh | cvt | li | lih | setmode | br | call | brd | join | loop | choice | jmpr | nop
  | endI | sys | tret | rdsr | wrsr | getcyc | icinv | exit | ret | setmoder | getmode | waitt | brk | shfl | shflx
  | shflup | shfldn | voteall | voteany | ballot | mbcnt | firstlane | rsum | scans | bar | bara | barw | dqpush
  | dqpop | dqpeek | spawn | tdone | qpop | setgang | adoptq | offer | vwin | tagof | payld | mkterm | deref | getcp
  | gettr | unify | bind | fail | cut | hnew | newvar | ldb | ldh | ldw | ldd | ldq | stb | sth | stw | std | stq
  | lda | ldad | stl | stld | ldc | lds | sts | fpush | fpop | ftrypop | atadd | atmin | atmax | atand | ator | atxor
  | atswp | atcas | atfadd | atinc | fence | pfence | cwb | cinv | cflush | pref | pin | unpin | sample | bankmode
  | bankpwr | bankq | lmsg | bwphase | topen | tclose | tacqr | tacqw | trel | tquery | tsplit | tld | tst | copy
  | copyg | collect | fork | rdv | publish | mlds | mones | mswap | mstream | mdrain | mzero | mshadow
  | illegalInstruction =>
    exact issue_outcome _ _ _ s
  | _ => exact .inl ⟨_, rfl⟩

end Sys2Proof.Laws

namespace Sys2Proof.Proofs
open Sys2Proof.Machine Sys2Proof.Claims Sys2Proof.Laws

/-- Settles O60, by the instruction's own round trip. -/
theorem encodeDecode : Obligations.EncodeDecode := by
  unfold Obligations.EncodeDecode
  exact fun i w hwf hw => roundTrip i hwf w hw

/-- Settles O49: each word's first check is that of its issuer and operands; the barriers and SETGANG make it in
`closing`. -/
theorem wrongIssuersTrap : Obligations.WrongIssuersTrap := by
  unfold Obligations.WrongIssuersTrap
  intro s e m d a p k n o h
  dsimp only
  refine ⟨fun hk => ?_, fun hv => ?_⟩
  · iterate 5 refine List.forall_mem_cons.mpr ⟨step4_traps h (ops_bad_kind hk), ?_⟩
    iterate 3 refine List.forall_mem_cons.mpr ⟨step4_closing_traps h hk, ?_⟩
    iterate 2 refine List.forall_mem_cons.mpr ⟨step4_traps h (ops_bad_kind hk), ?_⟩
    refine List.forall_mem_cons.mpr ⟨step4_closing_traps h hk, ?_⟩
    iterate 3 refine List.forall_mem_cons.mpr ⟨step4_traps h (ops_bad_kind hk), ?_⟩
    exact List.forall_mem_nil _
  · iterate 4 refine List.forall_mem_cons.mpr ⟨step4_traps h (scal_bad (by simp [bad4_of_vector hv])), ?_⟩
    exact List.forall_mem_nil _

/-- Settles O56. -/
theorem nothingStops : Obligations.NothingStops := by
  unfold Obligations.NothingStops
  exact exec_outcome

/-- Settles O30: where the guard governs the word and leaves it no lane, the word rests; otherwise it traps in
the lanes of its fate (R46). -/
theorem illegalWordsTrap : Obligations.IllegalWordsTrap := by
  unfold Obligations.IllegalWordsTrap
  intro s e check g h
  refine ⟨fun hg hl => stop_trap h ?_, fun hg => stop_trap h ?_, fun hg hl => rest_ok h hl hg⟩
  · rw [whenLanes_of_lanes hl, hg]
    exact trapWith_open s e causeIllegal check e.lanes 0
  · rw [whenLanes_some (fun ht => by rw [hg] at ht; cases ht), hg]
    exact trapWith_open s e causeIllegal check e.active 0

/-- Settles O59: the decoder, run on each word. -/
theorem wordsDecode : Obligations.WordsDecode := by
  unfold Obligations.WordsDecode
  rfl

end Sys2Proof.Proofs
end

