-- ==== Sys2Proof/Proofs/ScalarInstructions.lean ====
section
/-! PROOFS. Scalar instructions: the typed words over their elements (R61 to R69, R75 to R78), the words that do not
follow TYPE (R70 to R74, R79 to R83), loops (R95 to R99), software traps, waits and the return from a handler (R89, R90,
R356), and plain loads and stores (R100 to R103). The first part says once what each word or operation comes to; the
second assembles the obligations. -/

namespace Sys2Proof.Laws
open Sys2Proof.Machine Sys2Proof.Claims

/-! ## Typed words (R62) -/

section
variable {s : State} {e : Env} {ty : ElemType} {m : BitVec 1} {d a b : BitVec 8} {i : Instr} {ok : ElemType → Bool}
  {f : ElemType → Nat → Nat × Word} {g : Nat → Nat × Word} {body : Env → M Machine.Flow}

/-- A typed word of one source. -/
theorem typedOne_gives (h : TypedReady s e ty d [srcFor d a ty.regs]) (hx : exec i s = issue m i body s)
    (hb : body e = typed e d [srcFor d a e.typeRegs] ok f) (hok : ok ty = true) (hf : f ty = g) :
    Gives e s i m d ty.regs g :=
  typed_gives h hx (by rw [hb, typeRegs_of h.2.1]) hok hf

/-- A typed word of two sources of the TYPE. -/
theorem typedTwo_gives (h : TypedReady s e ty d [srcFor d a ty.regs, srcFor d b ty.regs])
    (hx : exec i s = issue m i body s) (hb : body e = typed e d [srcFor d a e.typeRegs, srcFor d b e.typeRegs] ok f)
    (hok : ok ty = true) (hf : f ty = g) : Gives e s i m d ty.regs g :=
  typed_gives h hx (by rw [hb, typeRegs_of h.2.1]) hok hf

/-- A typed word whose second source is one register: an amount, or the control of a bit field (R68, R69). -/
theorem typedBy_gives (h : TypedReady s e ty d [srcFor d a ty.regs, srcFor d b 1])
    (hx : exec i s = issue m i body s) (hb : body e = typed e d [srcFor d a e.typeRegs, srcFor d b 1] ok f)
    (hok : ok ty = true) (hf : f ty = g) : Gives e s i m d ty.regs g :=
  typed_gives h hx (by rw [hb, typeRegs_of h.2.1]) hok hf

theorem intTypes_of (hf : ty.isFloat = false) : intTypes ty = true := by simp [intTypes, hf]

theorem wholeTypes_of (hf : ty.isFloat = false) (hn : ty.n = 1) : wholeTypes ty = true := by
  simp [wholeTypes, hf, hn]

theorem shortFloats_of (hf : ty.isFloat = true) (hb : ty.b ≠ 64) : shortFloats ty = true := by
  simp [shortFloats, hf, hb]

/-- An accepted TYPE passes the mode check. -/
theorem typeBad_of (ht : elemType e.type = some ty) (hok : ok ty = true) : e.typeBad ok = false := by
  simp [Env.typeBad, ht, hok]

end

/-! ## Integers without SAT as bit vectors (R63) -/

section
variable {b x y : Nat} (sg : Bool) (hx : x < 2 ^ b)
include hx

theorem fit_add (hy : y < 2 ^ b) : fitInt sg false b (intVal sg b x + intVal sg b y) =
    ((BitVec.ofNat b x + BitVec.ofNat b y).toNat, 0) := by
  rw [fit_false, wrap_add, BitVec.toNat_add, BitVec.toNat_ofNat, BitVec.toNat_ofNat, Nat.mod_eq_of_lt hx,
    Nat.mod_eq_of_lt hy]

theorem fit_sub (hy : y < 2 ^ b) : fitInt sg false b (intVal sg b x - intVal sg b y) =
    ((BitVec.ofNat b x - BitVec.ofNat b y).toNat, 0) := by
  rw [fit_false, wrap_sub _ _ _ _ hy, BitVec.toNat_sub, BitVec.toNat_ofNat, BitVec.toNat_ofNat, Nat.mod_eq_of_lt hx,
    Nat.mod_eq_of_lt hy]

theorem fit_mul (hy : y < 2 ^ b) : fitInt sg false b (intVal sg b x * intVal sg b y) =
    ((BitVec.ofNat b x * BitVec.ofNat b y).toNat, 0) := by
  rw [fit_false, wrap_mul, BitVec.toNat_mul, BitVec.toNat_ofNat, BitVec.toNat_ofNat, Nat.mod_eq_of_lt hx,
    Nat.mod_eq_of_lt hy]

/-- R68: an amount above the width acts as the width. -/
theorem fit_shl (k : Nat) : fitInt sg false b (intVal sg b x * 2 ^ min k b) = ((BitVec.ofNat b x <<< k).toNat, 0) := by
  rw [fit_false, wrap_shl, BitVec.toNat_shiftLeft, BitVec.toNat_ofNat, Nat.mod_eq_of_lt hx, Nat.shiftLeft_eq]

omit sg in
theorem div_two_pow_min (k : Nat) : x / 2 ^ min k b = (BitVec.ofNat b x >>> k).toNat := by
  rw [BitVec.toNat_ushiftRight, BitVec.toNat_ofNat, Nat.mod_eq_of_lt hx, Nat.shiftRight_eq_div_pow]
  rcases Nat.le_total k b with h | h
  · rw [Nat.min_eq_left h]
  · have hk : x < 2 ^ k := lt_of_lt_of_le hx (Nat.pow_le_pow_right (by decide) h)
    rw [Nat.min_eq_right h, Nat.div_eq_of_lt hx, Nat.div_eq_of_lt hk]

end

/-- Values agree when their elements do. -/
theorem joinElems_congr {b : Nat} {f g : Nat → Nat × Word} (n : Nat) (h : ∀ i, f i = g i) :
    joinElems b f n = joinElems b g n := congrArg (joinElems b · n) (funext h)

/-! ## Values of elements -/

section
variable {b x : Nat} (sg : Bool) (hx : x < 2 ^ b)
include hx

/-- An element's pattern is that of its value. -/
theorem wrap_intVal : wrapInt b (intVal sg b x) = x := by
  obtain ⟨k, hk⟩ := intVal_shift sg b x
  rw [wrap_congr ⟨k, hk⟩, Nat.mod_eq_of_lt hx]

/-- Elements with one value have one pattern. -/
theorem intVal_inj {y : Nat} (hy : y < 2 ^ b) : intVal sg b x = intVal sg b y ↔ x = y :=
  ⟨fun h => by rw [← wrap_intVal sg hx, h, wrap_intVal sg hy], fun h => by rw [h]⟩

end

theorem intVal_zero (sg : Bool) (b : Nat) : intVal sg b 0 = 0 := by simp [intVal]

/-- The least signed element. -/
theorem intVal_min {b : Nat} (hb : 0 < b) : intVal true b (2 ^ (b - 1)) = minInt true b := by
  obtain ⟨c, rfl⟩ := Nat.exists_eq_succ_of_ne_zero hb.ne'
  unfold intVal minInt
  rw [if_pos (by simp), if_pos rfl]
  push_cast [Nat.succ_eq_add_one, Nat.add_sub_cancel]
  ring

/-- The signed element of all ones. -/
theorem intVal_ones {b : Nat} (hb : 0 < b) : intVal true b (2 ^ b - 1) = -1 := by
  obtain ⟨c, rfl⟩ := Nat.exists_eq_succ_of_ne_zero hb.ne'
  have := Nat.one_le_two_pow (n := c)
  unfold intVal
  rw [if_pos (by simp [pow_succ]; omega)]
  push_cast [Nat.cast_sub Nat.one_le_two_pow]
  ring

/-! ## DIV and REM (R66) -/

theorem intDiv_zero (sg : Bool) (b : Nat) (x : Int) : intDiv sg b x 0 = (2 ^ b - 1, flagDZ) := rfl

theorem intRem_zero (sg : Bool) (b : Nat) (x : Int) : intRem sg b x 0 = (wrapInt b x, flagDZ) := rfl

theorem intDiv_overflow (b : Nat) : intDiv true b (minInt true b) (-1) = (wrapInt b (minInt true b), flagOF) := by
  simp [intDiv]

theorem intRem_overflow (b : Nat) : intRem true b (minInt true b) (-1) = (0, flagOF) := by simp [intRem]

section
variable {sg : Bool} {b : Nat} {x y : Int} (hy : y ≠ 0) (ho : ¬ (sg = true ∧ x = minInt true b ∧ y = -1))
include hy ho

theorem intDiv_exact : intDiv sg b x y = (wrapInt b (Int.tdiv x y), 0) := by
  unfold intDiv
  rw [if_neg hy, if_neg (by simpa [and_assoc] using ho)]
  rfl

theorem intRem_exact : intRem sg b x y = (wrapInt b (x - y * Int.tdiv x y), 0) := by
  unfold intRem
  rw [if_neg hy, if_neg (by simpa [and_assoc] using ho)]
  rfl

end

/-- DIV of integer elements. -/
theorem divElem_int (e : Env) {ty : ElemType} (hf : ty.isFloat = false) (x y : Nat) : divElem e ty x y =
    intDiv ty.isSigned ty.b (intVal ty.isSigned ty.b x) (intVal ty.isSigned ty.b y) := by
  unfold divElem
  rcases kind_int hf with h | h <;> rw [h]

/-- The elements of the overflow: the signed minimum, and -1. -/
theorem overflow_iff {b x y : Nat} (sg : Bool) (hb : 0 < b) (hx : x < 2 ^ b) (hy : y < 2 ^ b) :
    (sg = true ∧ intVal sg b x = minInt true b ∧ intVal sg b y = -1) ↔
      (sg = true ∧ x = 2 ^ (b - 1) ∧ y = 2 ^ b - 1) := by
  refine and_congr_right fun hs => ?_
  subst hs
  have hmin : 2 ^ (b - 1) < 2 ^ b := Nat.pow_lt_pow_right (by decide) (by omega)
  have hones : 2 ^ b - 1 < 2 ^ b := Nat.sub_lt (by positivity) (by decide)
  rw [← intVal_min hb, ← intVal_ones hb, intVal_inj true hx hmin, intVal_inj true hy hones]

section
variable (e : Env) {ty : ElemType} (hf : ty.isFloat = false) {x y : Nat} (hx : x < 2 ^ ty.b)
include hf hx

theorem division_by_zero : divElem e ty x 0 = (2 ^ ty.b - 1, flagDZ) ∧ remElem ty x 0 = (x, flagDZ) := by
  rw [divElem_int e hf, remElem, intVal_zero]
  exact ⟨intDiv_zero _ _ _, by rw [intRem_zero, wrap_intVal _ hx]⟩

variable (hb : 0 < ty.b) (hy : y < 2 ^ ty.b)
include hb hy

theorem division_overflow (h : ty.isSigned = true ∧ x = 2 ^ (ty.b - 1) ∧ y = 2 ^ ty.b - 1) :
    divElem e ty x y = (2 ^ (ty.b - 1), flagOF) ∧ remElem ty x y = (0, flagOF) := by
  obtain ⟨hs, hmin, hone⟩ := (overflow_iff ty.isSigned hb hx hy).mpr h
  rw [divElem_int e hf, remElem, hmin, hone, hs]
  refine ⟨?_, intRem_overflow _⟩
  rw [intDiv_overflow, ← hmin, wrap_intVal _ hx, h.2.1]

theorem division_exact (h0 : y ≠ 0) (h : ¬ (ty.isSigned = true ∧ x = 2 ^ (ty.b - 1) ∧ y = 2 ^ ty.b - 1)) :
    let u := intVal ty.isSigned ty.b x
    let v := intVal ty.isSigned ty.b y
    divElem e ty x y = (wrapInt ty.b (Int.tdiv u v), 0) ∧
      remElem ty x y = (wrapInt ty.b (u - v * Int.tdiv u v), 0) := by
  have hv : intVal ty.isSigned ty.b y ≠ 0 := by
    rwa [← intVal_zero ty.isSigned ty.b, ne_eq, intVal_inj _ hy (by positivity)]
  have ho := mt (overflow_iff ty.isSigned hb hx hy).mp h
  rw [divElem_int e hf, remElem]
  exact ⟨intDiv_exact hv ho, intRem_exact hv ho⟩

end

/-- The remainder of a truncated quotient has the sign of the dividend. -/
theorem remainder_sign (x y : Int) : 0 ≤ x * (x - y * Int.tdiv x y) := by
  rw [← Int.tmod_def]
  rcases le_total 0 x with hx | hx
  · exact mul_nonneg hx (Int.tmod_nonneg y hx)
  · have hneg : 0 ≤ -(x.tmod y) := by
      rw [← Int.neg_tmod]
      exact Int.tmod_nonneg y (by omega)
    exact mul_nonneg_of_nonpos_of_nonpos hx (by omega)

/-! ## Words that do not follow TYPE, and modes -/

/-- What SETMODER writes (R82): CMODE unless K is 1, and MMODE unless K is 0. -/
def modeWords (k : BitVec 8) (x y : Word) : List RegWrite :=
  (if k.toNat ≠ 1 then [.cmode 0xFFFFFFFF x] else []) ++ (if k.toNat ≠ 0 then [.mmode 0xFFFFFFFF y] else [])

/-- The value that SETMODER gives MMODE: the second register of a pair when it sets both modes. -/
def mmodeSource (e : Env) (k a : BitVec 8) : Word := if k.toNat = 2 then e.regs.field 0 (a + 1) else e.regs.field 0 a

section
variable {s : State} {e : Env} (h : Issues s e)
include h

/-- A lane-wise word whose operands pass. -/
theorem lanewise_gives {m : BitVec 1} {i : Instr} {d : BitVec 8} {n : Nat} {srcs : List Opnd} {f : Nat → Nat × Word}
    {body : Env → M Machine.Flow} (hx : exec i s = issue m i body s)
    (hb : body e = whenLanes e (isVec d)
      (checkOps e anyKind (isVec d) (⟨d, .any, n⟩ :: srcs) false >>= fun _ => emitLanes e d n f))
    (ho : OpsOk e anyKind (⟨d, .any, n⟩ :: srcs)) (hl : e.takes d) : Gives e s i m d n f := by
  refine hx.trans (issue_ok h ?_)
  rw [hb, whenLanes_takes hl, checkOps_ok ho, pure_bind, emitLanes_ok]

/-- R72: ADDX uses TYPE for the size of an element only. -/
theorem addx_gives (m : BitVec 1) {ty : ElemType} {d a b : BitVec 8} (ht : elemType e.type = some ty)
    (ho : OpsOk e anyKind [⟨d, .any, 2⟩, srcFor d a 2, srcFor d b 1]) (hl : e.takes d) :
    Gives e s (.addx m d a b) m d 2 (fun l =>
      (wrapInt 64 ((e.val l a 2 : Int) + intVal true 32 (e.val l b 1) * (ty.b / 8 : Nat)), 0)) := by
  refine lanewise_gives h rfl ?_ ho hl
  rw [typeBad_of ht rfl, ht]
  rfl

/-- R71: SEL chooses by the guard in every active lane. -/
theorem sel_wrote (m : BitVec 1) {ty : ElemType} {d a b : BitVec 8} (ht : elemType e.type = some ty)
    (ho : OpsOk e anyKind [⟨d, .vect, ty.regs⟩, ⟨a, .any, ty.regs⟩, ⟨b, .any, ty.regs⟩]) :
    exec (.sel m d a b) s = .next (e.wrote m (.sel m d a b)
      (e.active.flatMap (fun l => regWrites l d (e.val l (if e.guardAt l then a else b) ty.regs) ty.regs)) 0
      (opened s)) := by
  refine issue_ok h ?_
  rw [typeRegs_of ht, typeBad_of ht rfl, checkOps_ok ho, pure_bind]
  exact emit_unflagged e _ d ty.regs (fun l => e.val l (if e.guardAt l then a else b) ty.regs) _

/-- R73. -/
theorem cmp_wrote (m : BitVec 1) {ty : ElemType} {c p : BitVec 3} {a b : BitVec 8} (ht : elemType e.type = some ty)
    (hn : ty.n = 1) (ho : OpsOk e anyKind [⟨a, .any, ty.regs⟩, ⟨b, .any, ty.regs⟩]) (hl : e.lanes ≠ []) :
    let r (l : Nat) : Bool × Word := cmpElem e ty c.toNat (e.val l a ty.regs) (e.val l b ty.regs)
    exec (.cmp m c p a b) s = .next (e.wrote m (.cmp m c p a b)
      (e.lanes.map (fun l => .pred l p.toNat (r l).1)) (e.lanes.foldl (fun acc l => acc ||| (r l).2) 0) (opened s)) := by
  refine issue_ok h ?_
  rw [whenLanes_of_lanes hl, typeRegs_of ht, typeBad_of ht (decide_eq_true hn), checkOps_ok ho, pure_bind, ht]
  rfl

/-- R74. -/
theorem pred_wrote (m : BitVec 1) (o : BitVec 2) (d : BitVec 3) (i : BitVec 1) (a : BitVec 3) (j : BitVec 1)
    (b : BitVec 3) (hl : e.lanes ≠ []) :
    exec (.pred m o d i a j b) s = .next (e.wrote m (.pred m o d i a j b)
      (e.lanes.map (fun l => .pred l d.toNat (predOp o.toNat (xor (e.regs.pred l a.toNat) (decide (i = 1#1)))
        (xor (e.regs.pred l b.toNat) (decide (j = 1#1)))))) 0 (opened s)) := by
  refine issue_ok h ?_
  rw [whenLanes_of_lanes hl, any_ops, pure_bind]
  rfl

/-- R80, R81: SETMODE of a field of R40. -/
theorem setmode_wrote (m : BitVec 1) {k : BitVec 8} (x : BitVec 16) {f : Bool × Nat × Nat}
    (hk : modeField k.toNat = some f) :
    exec (.setmode m k x) s = .next (e.wrote m (.setmode m k x) [modeWrite f x.toNat] 0 (opened s)) := by
  refine issue_ok h ?_
  simp only [hk]
  rw [any_ops, pure_bind]
  rfl

/-- R82: SETMODER of values that the modes can hold. -/
theorem setmoder_wrote (m : BitVec 1) {k a : BitVec 8} (ho : OpsOk e anyKind [⟨a, .scal, if k.toNat = 2 then 2 else 1⟩])
    (hc : k.toNat ≠ 1 → cmodeBad (e.regs.field 0 a).toNat = false)
    (hw : k.toNat ≠ 0 → mmodeBad (mmodeSource e k a).toNat = false) :
    exec (.setmoder m k a) s =
      .next (e.wrote m (.setmoder m k a) (modeWords k (e.regs.field 0 a) (mmodeSource e k a)) 0 (opened s)) := by
  have hok : ((decide (k.toNat ≠ 1) && cmodeBad (e.regs.field 0 a).toNat) ||
      (decide (k.toNat ≠ 0) && mmodeBad (mmodeSource e k a).toNat)) = false := by
    simp only [Bool.or_eq_false_iff, Bool.and_eq_false_imp, decide_eq_true_eq]
    exact ⟨hc, hw⟩
  refine issue_ok h ?_
  rw [checkOps_ok ho, pure_bind]
  refine (congrFun (if_neg (Bool.eq_false_iff.mp hok)) _).trans ?_
  simp only [decide_eq_true_eq]
  rfl

end

/-! ## LOOP (R95, R98, R99) -/

/-- What is captured of a body (R99): at depth 0 its words, and otherwise what the outermost level has captured. -/
def capturedBody (s : State) (e : Env) (l : BitVec 8) : List (Option Word) × State :=
  if e.sp.loop.levels.length = 0 then captureBody e.th (e.sp.pc.toNat + 4) (l.toNat + 1) (opened s)
  else (e.sp.loop.body, opened s)

section
variable {s : State} {e : Env} (h : Issues s e) (m : BitVec 1) {a l : BitVec 8} (ho : OpsOk e anyKind [⟨a, .scal, 1⟩])
include h ho

/-- R95: a count that is not zero at depth 3. -/
theorem loop_tooDeep (hc : e.regs.field 0 a ≠ 0) (hd : e.sp.loop.levels.length = 3) :
    exec (.loop m a l) s =
      .next (raiseTrap e.tid e.sid (openTrap s e causeLoopDepth 0 e.active 0) (opened s)) := by
  refine stop_trap h ?_
  rw [checkOps_ok ho, pure_bind]
  exact (congrFun (if_pos ⟨hc, hd⟩) _).trans (trapWith_open ..)

variable (hv : loopOverruns e.sp.loop e.sp.pc.toNat (e.sp.pc.toNat + 4 * (l.toNat + 1)) = false)
include hv

/-- R95: a count of zero skips the body. -/
theorem loop_skips (hc : e.regs.field 0 a = 0) :
    exec (.loop m a l) s =
      .next (e.done m (.loop m a l) { target := none, skip := l.toNat + 1, close := false } (opened s)) := by
  refine issue_ok h ?_
  rw [checkOps_ok ho, pure_bind]
  dsimp only
  rw [if_neg (fun hx => hx.1 hc), if_neg (Bool.eq_false_iff.mp hv), if_pos hc]
  rfl

/-- R95, R99: any other count enters a level. -/
theorem loop_enters (hc : e.regs.field 0 a ≠ 0) (hd : e.sp.loop.levels.length ≠ 3) :
    exec (.loop m a l) s = .next (e.done m (.loop m a l) Flow.next (modSplit e.tid e.sid (fun sp => { sp with
      loop := { lc := sp.loop.lc.set e.sp.loop.levels.length (e.regs.field 0 a),
                levels := sp.loop.levels ++ [{ start := e.sp.pc.toNat + 4, len := l.toNat + 1 }],
                body := (capturedBody s e l).1 } }) (capturedBody s e l).2)) := by
  refine issue_ok h ?_
  rw [checkOps_ok ho, pure_bind]
  dsimp only
  rw [if_neg (fun hx => hd hx.2), if_neg (Bool.eq_false_iff.mp hv), if_neg hc]
  unfold enterLevel capturedBody
  by_cases hk : e.sp.loop.levels.length = 0
  · simp only [hk, if_true]
    rfl
  · simp only [hk, if_false]
    rfl

end

/-! ## Iterations (R96) -/

/-- A split that falls through goes where its levels say. -/
theorem advance_next (sp : Split) : sp.advance Flow.next =
    { sp with pc := BitVec.ofNat 64 (sp.loop.fall sp.pc.toNat).2, loop := (sp.loop.fall sp.pc.toNat).1 } := rfl

/-- The innermost level does not end here: the next word. -/
theorem fallLevels_inside {a : Nat} {ls : List Level} (lc : List Word) (h : ∀ v, ls.head? = some v → v.last ≠ a) :
    fallLevels a ls lc = (ls, lc, a + 4) := by
  cases ls with
  | nil => rfl
  | cons v outer => exact if_neg (h v rfl)

/-- The last word of the innermost level: its counter falls, and either the body starts again or the level ends. -/
theorem fallLevels_last {l : Loop} {outer : List Level} {v : Level} (hl : l.levels = outer ++ [v]) :
    fallLevels v.last l.levels.reverse l.lc =
      if l.lcAt outer.length - 1 = 0 then fallLevels v.last outer.reverse (l.lc.set outer.length 0)
      else (l.levels.reverse, l.lc.set outer.length (l.lcAt outer.length - 1), v.start) := by
  rw [hl, List.reverse_concat]
  refine (if_pos rfl).trans ?_
  rw [List.length_reverse]
  by_cases hn : l.lcAt outer.length - 1 = 0
  · rw [if_pos hn]
    exact (if_pos hn).trans (by rw [show l.lc.getD outer.length 0 - 1 = 0 from hn])
  · rw [if_neg hn]
    exact if_neg hn

theorem advance_inside {sp : Split} (h : ∀ v, sp.loop.levels.getLast? = some v → v.last ≠ sp.pc.toNat) :
    (sp.advance Flow.next).pc = sp.pc + 4 ∧ (sp.advance Flow.next).loop.levels = sp.loop.levels ∧
      (sp.advance Flow.next).loop.lc = sp.loop.lc := by
  have hf := fallLevels_inside (a := sp.pc.toNat) (ls := sp.loop.levels.reverse) sp.loop.lc
    (fun v hv => h v (by rw [← hv, List.head?_reverse]))
  simp only [advance_next, Loop.fall, hf, List.reverse_reverse, and_self, and_true]
  rw [BitVec.ofNat_add, BitVec.ofNat_toNat, BitVec.setWidth_eq]
  rfl

section
variable {sp : Split} {outer : List Level} {v : Level} (hl : sp.loop.levels = outer ++ [v]) (hv : v.last = sp.pc.toNat)
include hl hv

theorem advance_again (hn : sp.loop.lcAt outer.length - 1 ≠ 0) :
    (sp.advance Flow.next).pc = BitVec.ofNat 64 v.start ∧ (sp.advance Flow.next).loop.levels = sp.loop.levels ∧
      (sp.advance Flow.next).loop.lc = sp.loop.lc.set outer.length (sp.loop.lcAt outer.length - 1) := by
  have hf := fallLevels_last hl
  rw [if_neg hn, hv] at hf
  simp [advance_next, Loop.fall, hf]

/-- A level that ends leaves the next outer one to be judged at the same word. -/
theorem advance_ends (hn : sp.loop.lcAt outer.length - 1 = 0) :
    let q := { sp with loop := { sp.loop with lc := sp.loop.lc.set outer.length 0, levels := outer } }
    (sp.advance Flow.next).pc = (q.advance Flow.next).pc ∧
      (sp.advance Flow.next).loop.levels = (q.advance Flow.next).loop.levels ∧
      (sp.advance Flow.next).loop.lc = (q.advance Flow.next).loop.lc := by
  have hf := fallLevels_last hl
  rw [if_pos hn, hv] at hf
  simp [advance_next, Loop.fall, hf]

end

/-- A word that falls through in the middle of its run leaves its split advanced. -/
theorem falls_mid {s t : State} {e : Env} {i : Instr} (h : Issues s e)
    (hd : exec i s = .next (e.done 0#1 i Flow.next (opened s))) (ht : exec i s = .next t)
    (hc : e.sp.run.count + 1 < 64) :
    ∃ sp, splitOf t e = some sp ∧ sp.pc = (e.sp.advance Flow.next).pc ∧ sp.loop = (e.sp.advance Flow.next).loop := by
  obtain rfl := next_inj (hd.symm.trans ht)
  exact mid_next h hc rfl

/-! ## Software traps and waits (R89, R356) -/

/-- The trap of SYS or BRK, once the run is closed: TRAPPC is the word after it. -/
def softTrapInfo (e : Env) (cause : Nat) (n : BitVec 8) : TrapInfo :=
  { cause := cause, code := n.toNat, isOpen := false, pc := e.sp.pc + 4, mask := maskOf e.active, faultva := 0 }

/-- R89: a crew's software trap stops its word after the close of the run. -/
theorem softTrap_stops {s : State} {e : Env} (h : Issues s e) (hk : e.th.kind = .crew) (cause : Nat) (n : BitVec 8) :
    softTrap e cause n (opened s) = .error (.trap (softTrapInfo e cause n)) (closed s e) := by
  have hi := h.1
  unfold softTrap
  rw [crew_ops hk, pure_bind, closeFirst_bind hi, afterClose_pc hi, afterClose_active hi]
  rfl

/-- R89, R380: the trap of SYS or BRK is taken, or kept in the split's record. -/
theorem softTrap_raises {s : State} {e : Env} {m : BitVec 1} {i : Instr} {cause : Nat} {n : BitVec 8}
    {body : Env → M Machine.Flow} (h : Issues s e) (hk : e.th.kind = .crew) (hx : exec i s = issue m i body s)
    (hb : body e = softTrap e cause n) :
    exec i s = .next (if trapJoins (closed s e) (e.afterClose s).th e.tid e.sid
      then keepTrap e.tid e.sid (softTrapInfo e cause n) (closed s e)
      else takeTrap e.tid e.sid (softTrapInfo e cause n) (closed s e)) := by
  obtain ⟨-, -, -, ht⟩ := afterClose_split h.1
  have hrun : body e (opened s) = .error (.trap (softTrapInfo e cause n)) (closed s e) := by
    rw [hb]
    exact softTrap_stops h hk cause n
  rw [hx, issue_stop h hrun, finish_trap_closed h.proceeds, raise_thread ht (afterClose_crew h.1 hk)]

section
variable {s : State} {e : Env} (hn : lateCommands s e.tid s.chiptime = [])
include hn

/-- R356: a crew wakes with no promised command late. -/
theorem wakeCrew_completes : wakeCrew e s = .ok Flow.nextClose s := by
  unfold wakeCrew
  rw [get_bind, hn]
  rfl

/-- R356: so does a scout or a sequencer. -/
theorem wakeProgram_completes (i : Instr) : wakeProgram e i s = .ok Flow.nextClose s := by
  unfold wakeProgram
  rw [get_bind, hn]
  rfl

end

/-! ## The return from a handler (R90, R379) -/

/-- A thread that is listed is changed in place. -/
theorem modThread_listed {s : State} {tid : Nat} {t : Thread} (ht : Sparse.find? s.threads tid = some t)
    (f : Thread → Thread) : modThread tid f s = { s with threads := Sparse.put s.threads tid (f t) } := by
  simp only [modThread, Sparse.alter, ht]

/-- The thread whose handler has returned. -/
def returnedThread (t : Thread) (sid : Nat) (sv : TrapSave) : Thread :=
  { t with handler := none, regs := { t.regs with cmode := sv.cmode, mmode := sv.mmode },
           splits := Sparse.alter t.splits sid (fun sp => sp.leaveTrap sv) }

/-- The state whose thread has returned, and the pending trap that is taken at once. -/
theorem returnTrap_eq {s : State} {tid sid : Nat} {t : Thread} {sp : Split} {sv : TrapSave}
    (ht : Sparse.find? s.threads tid = some t) (hs : Sparse.find? t.splits sid = some sp) (hv : sp.saved = some sv) :
    returnTrap tid sid s =
      (returnedThread t sid sv).nextPending.elim { s with threads := Sparse.put s.threads tid (returnedThread t sid sv) }
        (fun kx => takeTrap tid kx.1 kx.2 { s with threads := Sparse.put s.threads tid (returnedThread t sid sv) }) := by
  have hmod : modThread tid (fun t => { t with
      handler := none, regs := { t.regs with cmode := sv.cmode, mmode := sv.mmode },
      splits := Sparse.alter t.splits sid (fun sp => sp.leaveTrap sv) }) s =
      { s with threads := Sparse.put s.threads tid (returnedThread t sid sv) } := modThread_listed ht _
  unfold returnTrap
  simp only [getSplit_some ht hs, hv, hmod, Sparse.find?_put_same, Option.bind_some]
  cases (returnedThread t sid sv).nextPending with
  | none => rfl
  | some kx => rfl

/-! ## The frame of a store (R103, R233, R301) -/

theorem getCluster_congr {s t : State} (h : t.clusters = s.clusters) (cl : Nat) : getCluster t cl = getCluster s cl := by
  unfold getCluster
  rw [h]

theorem clByte_congr {s t : State} (h : t.clusters = s.clusters) (cl cid va : Nat) :
    clByte t cl cid va = clByte s cl cid va := by
  unfold clByte clFind
  rw [getCluster_congr h]

/-- An access in the middle of its run leaves what its parts have left: its results wait in the run. -/
theorem accessed_mid {s v : State} {e : Env} (h : Issues s e) (ho : e.sp.run.isOpen = true)
    (hc : e.sp.run.count + 1 < 64) (hv : v.threads = (opened s).threads) (i : Instr) (prog : Progress) :
    ∃ t, Sparse.find? (e.accessed 0#1 i prog v).threads e.tid = some t ∧ t.regs = e.th.regs ∧
      (e.accessed 0#1 i prog v).mem = v.mem ∧ (e.accessed 0#1 i prog v).l2 = v.l2 ∧
      (e.accessed 0#1 i prog v).clusters = v.clusters := by
  obtain ⟨hi, -, hspec⟩ := h
  obtain ⟨sp, -, -, ht, hs, he, -, -⟩ := issuer_inv hi
  obtain ⟨-, -, hrun, hsp, -⟩ := anew_fields sp
  rw [← he] at hrun hsp
  rw [hrun] at ho hc
  rw [← hv] at ht
  have hmod := modSplit_find (fun sp => { sp with progress := prog }) ht hs
  obtain ⟨u, t, -, hdone, hut, -, -, -, -, -, -, -, hregs, hmem, hl2, hcl, -⟩ :=
    wrote_shape
      (e := { e with th := { e.th with splits := Sparse.put e.th.splits e.sid { sp with progress := prog } } })
      (m := 0#1) (i := i) (ws := prog.results) (fl := prog.flags) (f := Machine.Flow.next) hmod
      (Sparse.find?_put_same _ _ _) ho (hsp.symm.trans hspec)
  rw [endsRun_mid hc] at hdone
  have hacc : e.accessed 0#1 i prog v = u := hdone
  rw [hacc]
  exact ⟨t, hut, hregs, hmem, hl2, hcl⟩

/-- The parts of a store are aligned, so that each lies in one line. -/
theorem parts_fit {e : Env} {a : BitVec 8} {off size : Nat} (hd : size ∣ 128) (h0 : 0 < size)
    (ha : (storeParts e a off).all (goodAddr size) = true) : ∀ p ∈ storeParts e a off, p.va % 128 + size ≤ 128 := by
  intro p hp
  have hg := List.all_eq_true.mp ha p hp
  simp only [goodAddr, Bool.and_eq_true, decide_eq_true_eq] at hg
  exact aligned_fit hg.2 hd h0

/-- A store that hits its cluster's cache in all its parts: the parts keep `HitInv`, and the word itself only moves its
split on. -/
theorem store_frame {s : State} {e : Env} {i : Instr} {d a : BitVec 8} {off size n : Nat}
    (hst : StoreReady s e d a off size n → Stores s e i 0#1 d a off size n) (hd : size ∣ 128) (h0 : 0 < size)
    (h : StoreReady s e d a off size n) (ho : e.sp.run.isOpen = true) (hc : e.sp.run.count + 1 < 64)
    (hwf : ∀ l ∈ (getCluster (opened s) (clusterOf e.th.core)).cache, Sparse.wf 0 l.data = true)
    (hhit : ∀ p ∈ storeParts e a off, ∃ l, clFind (opened s) (clusterOf e.th.core) e.cid (p.va / 128) = some l ∧
      l.w = true ∧ l.shadow = false ∧ l.stale = false)
    (hown : ownWrites e (opened s) = []) :
    ∃ t t', exec i s = .next t ∧ t.mem = s.mem ∧ t.l2 = s.l2 ∧ Sparse.find? t.threads e.tid = some t' ∧
      t'.regs = e.th.regs ∧ (∀ k, k ≠ clusterOf e.th.core → getCluster t k = getCluster s k) ∧
      (∀ cid va, (cid ≠ e.cid ∨ ∀ p ∈ storeParts e a off, ¬ covers size va p) →
        clByte t (clusterOf e.th.core) cid va = clByte s (clusterOf e.th.core) cid va) := by
  have hstores := hst h
  obtain ⟨hi, -, -, ha⟩ := h
  have hinit : HitInv (opened s) (opened s) (clusterOf e.th.core) e.cid (storeParts e a off) size :=
    ⟨rfl, rfl, rfl, fun _ _ => rfl, hwf, rfl, hhit, fun _ _ _ => rfl⟩
  obtain ⟨prog, v, hfold, hv⟩ := hit_parts (d := d) (n := n) rfl (parts_fit hd h0 ha) hown
    ((storeParts e a off).filter (fun p => !e.sp.progress.did p)) (opened s) e.sp.progress
    (fun _ hq => List.mem_of_mem_filter hq) hinit
  obtain ⟨hmem, hl2, hcl⟩ := opened_keeps s
  obtain ⟨t', ht', hregs, hm, hl, hcs⟩ := accessed_mid hi ho hc hv.threads i prog
  refine ⟨_, t', hstores prog v hfold, hm.trans (hv.mem.trans hmem), hl.trans (hv.l2.trans hl2), ht', hregs,
    fun k hk => ?_, fun cid va hx => ?_⟩
  · rw [getCluster_congr hcs, hv.others k hk, getCluster_congr hcl]
  · rw [clByte_congr hcs, hv.bytes cid va hx, clByte_congr hcl]

end Sys2Proof.Laws

namespace Sys2Proof.Proofs
open Sys2Proof.Machine Sys2Proof.Claims Sys2Proof.Laws

/-- R62, R65, R66, R111: each word applies its function to the elements of its two sources. -/
theorem addToMaxComplete : AddToMaxComplete := by
  intro s e ty m d a b h
  refine ⟨typedTwo_gives h rfl rfl rfl rfl, typedTwo_gives h rfl rfl rfl rfl, typedTwo_gives h rfl rfl rfl rfl,
    typedTwo_gives h rfl rfl rfl rfl, typedTwo_gives h rfl rfl rfl rfl, typedTwo_gives h rfl rfl rfl rfl, fun hf => ?_⟩
  have hint := intTypes_of hf
  exact ⟨typedTwo_gives h rfl rfl hint rfl, typedTwo_gives h rfl rfl hint rfl⟩

/-- R65: FMA has the operands of a word of two sources, and reads D beside them. -/
theorem fmaCompletes : FmaCompletes := fun _ _ _ _ _ _ _ h => typedTwo_gives h rfl rfl rfl rfl

/-- Settles O1: ADD to MAX, and FMA. -/
theorem arithmeticCompletes : Obligations.ArithmeticCompletes := ⟨addToMaxComplete, fmaCompletes⟩

/-- Settles O2: the four words are typed words of two sources that accept every TYPE. -/
theorem logicCompletes : Obligations.LogicCompletes := by
  unfold Obligations.LogicCompletes
  exact fun s e ty m d a b h => ⟨typedTwo_gives h rfl rfl rfl rfl, typedTwo_gives h rfl rfl rfl rfl,
    typedTwo_gives h rfl rfl rfl rfl, typedTwo_gives h rfl rfl rfl rfl, rfl⟩

/-- R68. -/
theorem shiftsComplete : ShiftsComplete := by
  intro s e ty m d a b h hf
  have hint := intTypes_of hf
  exact ⟨typedBy_gives h rfl rfl hint rfl, typedBy_gives h rfl rfl hint rfl, typedBy_gives h rfl rfl hint rfl⟩

/-- R69; where the position is at or above the width, BFI writes D's value at run begin (log 83). -/
theorem bitFieldsComplete : BitFieldsComplete := by
  intro s e ty m d a b h hf hn
  have hwhole := wholeTypes_of hf hn
  exact ⟨typedBy_gives h rfl rfl hwhole rfl, typedBy_gives h rfl rfl hwhole rfl⟩

/-- Settles O3: the shifts, and the bit fields. -/
theorem shiftsAndBitFieldsComplete : Obligations.ShiftsAndBitFieldsComplete := ⟨shiftsComplete, bitFieldsComplete⟩

/-- R70 to R72. -/
theorem permuteSelectAddressComplete : PermuteSelectAddressComplete :=
  ⟨fun _ _ _ _ _ _ h ho hl => lanewise_gives h rfl rfl ho hl, fun _ _ _ m _ _ _ h => sel_wrote h m,
    fun _ _ _ m _ _ _ h => addx_gives h m⟩

/-- R73, R74. -/
theorem predicatesComplete : PredicatesComplete :=
  ⟨fun _ _ _ m _ _ _ _ h => cmp_wrote h m, fun _ _ m o d i a j b h _ => pred_wrote h m o d i a j b⟩

/-- Settles O4: PERMB, SEL and ADDX, and the words that write predicates. -/
theorem selectionsAndPredicatesComplete : Obligations.SelectionsAndPredicatesComplete :=
  ⟨permuteSelectAddressComplete, predicatesComplete⟩

/-- Settles O5: the words are typed words of one source, in four groups by the TYPEs that they accept. -/
theorem unaryCompletes : Obligations.UnaryCompletes := by
  unfold Obligations.UnaryCompletes
  intro s e ty m d a h
  refine ⟨?_, fun hf => ?_, fun hf => ?_, fun hf hb => ?_⟩
  · exact ⟨typedOne_gives h rfl rfl rfl rfl, typedOne_gives h rfl rfl rfl rfl, typedOne_gives h rfl rfl rfl rfl,
      typedOne_gives h rfl rfl rfl rfl⟩
  · have hint := intTypes_of hf
    exact ⟨typedOne_gives h rfl rfl hint rfl, typedOne_gives h rfl rfl hint rfl, typedOne_gives h rfl rfl hint rfl,
      typedOne_gives h rfl rfl hint rfl⟩
  · exact ⟨typedOne_gives h rfl rfl hf rfl, typedOne_gives h rfl rfl hf rfl, typedOne_gives h rfl rfl hf rfl,
      typedOne_gives h rfl rfl hf rfl⟩
  · have hshort := shortFloats_of hf hb
    exact ⟨typedOne_gives h rfl rfl hshort rfl, typedOne_gives h rfl rfl hshort rfl,
      typedOne_gives h rfl rfl hshort rfl, typedOne_gives h rfl rfl hshort rfl, typedOne_gives h rfl rfl hshort rfl,
      typedOne_gives h rfl rfl hshort rfl⟩

/-- Settles O7: the lane-wise words, SETMODE, and SETMODER for each K. -/
theorem immediatesAndModesComplete : Obligations.ImmediatesAndModesComplete := by
  unfold Obligations.ImmediatesAndModesComplete
  intro s e m h
  refine ⟨fun d k ho hl => ⟨lanewise_gives h rfl rfl ho hl, lanewise_gives h rfl rfl ho hl⟩,
    fun d ho hl => lanewise_gives h rfl rfl ho hl, fun k x f hk _ => setmode_wrote h m x hk,
    fun a ho hc => ?_, fun a ho hw => ?_, fun a ho hc hw => ?_⟩
  · exact setmoder_wrote h m (k := 0) ho (fun _ => hc) (fun h0 => absurd rfl h0)
  · exact setmoder_wrote h m (k := 1) ho (fun h1 => absurd rfl h1) (fun _ => hw)
  · exact setmoder_wrote h m (k := 2) ho (fun _ => hc) (fun _ => hw)

/-- Settles O10: the depth is judged first, then the overrun, then the count (log 29). -/
theorem loopCompletes : Obligations.LoopCompletes := by
  unfold Obligations.LoopCompletes
  exact fun s e m a l h ho => ⟨loop_tooDeep h m ho, fun hv => ⟨loop_skips h m ho hv, loop_enters h m ho hv⟩⟩

/-- R89, R380. -/
theorem softwareTrapsComplete : SoftwareTrapsComplete := by
  intro s e m n h hk
  have hsys := softTrap_raises (i := .sys m n) h hk rfl rfl
  have hbrk := softTrap_raises (i := .brk m n) h hk rfl rfl
  refine ⟨fun hj => ?_, fun hj => ?_⟩
  all_goals
    rw [hj] at hsys hbrk
    exact ⟨hsys, hbrk⟩

/-- R321, R356: the time has come, or the sleep has ended, so that the WAITT wakes. -/
theorem waitCompletes : WaitCompletes := by
  intro s e m a h ho ht hn
  have hi := h.1
  have hawake : ((e.afterClose s).sp.handed.isNone && decide (chipNow (closed s e) < waitTime e a)) = false := by
    rw [afterClose_handed hi]
    rcases ht with hh | hw
    · rw [Option.isNone_eq_false_iff.mpr hh, Bool.false_and]
    · rw [decide_eq_false (Nat.not_lt.mpr hw), Bool.and_false]
  rw [← afterClose_tid hi] at hn
  refine run_ok h ?_
  rw [checkOps_ok ho, pure_bind, closeFirst_bind hi, get_bind, if_neg (Bool.eq_false_iff.mp hawake)]
  split
  · exact wakeCrew_completes hn
  · exact wakeProgram_completes hn _

/-- Settles O13: SYS and BRK, and WAITT. -/
theorem softwareTrapsAndWaitsComplete : Obligations.SoftwareTrapsAndWaitsComplete :=
  ⟨softwareTrapsComplete, waitCompletes⟩

/-- R100 to R102: each load has the shape `loadWith`. -/
theorem loadsComplete : LoadsComplete := fun _ _ _ _ _ _ =>
  ⟨fun h ht _ _ hp => issue_ok h.1 (loadWith_ok h ht hp), fun h ht _ _ hp => issue_ok h.1 (loadWith_ok h ht hp),
    fun h _ _ hp => issue_ok h.1 (loadWith_ok h rfl hp), fun h _ _ hp => issue_ok h.1 (loadWith_ok h rfl hp),
    fun h _ _ hp => issue_ok h.1 (loadWith_ok h rfl hp)⟩

/-- R103: each store has the shape `storeWith`. -/
theorem storesComplete : StoresComplete := fun _ _ _ _ _ _ =>
  ⟨fun ⟨h, hl, ho, ha⟩ _ _ hp => issue_ok h (storeWith_ok hl ho ha rfl hp),
    fun ⟨h, hl, ho, ha⟩ _ _ hp => issue_ok h (storeWith_ok hl ho ha rfl hp),
    fun ⟨h, hl, ho, ha⟩ _ _ hp => issue_ok h (storeWith_ok hl ho ha rfl hp),
    fun ⟨h, hl, ho, ha⟩ _ _ hp => issue_ok h (storeWith_ok hl ho ha rfl hp),
    fun ⟨h, hl, ho, ha⟩ _ _ hp => issue_ok h (storeWith_ok hl ho ha rfl hp)⟩

/-- Settles O20: the loads, and the stores. -/
theorem loadsAndStoresComplete : Obligations.LoadsAndStoresComplete := ⟨loadsComplete, storesComplete⟩

/-- Settles O41: the words' results are those of `addToMaxComplete` and `shiftsComplete`, whose elements without SAT are
bit vectors. -/
theorem integersWrap : Obligations.IntegersWrap := by
  unfold Obligations.IntegersWrap
  intro s e ty m d a b hf hs
  refine ⟨fun h => ?_, fun h => ?_⟩
  · obtain ⟨hadd, hsub, hmul, -⟩ := addToMaxComplete s e ty m d a b h
    rw [hs] at hadd hsub hmul
    refine ⟨gives_congr hadd fun l => over2_congr fun x y hx hy => ?_,
      gives_congr hsub fun l => over2_congr fun x y hx hy => ?_,
      gives_congr hmul fun l => over2_congr fun x y hx hy => ?_⟩
    · rw [byKind_int hf, fit_add _ hx hy]
    · rw [byKind_int hf, fit_sub _ hx hy]
    · rw [byKind_int hf, fit_mul _ hx hy]
  · have hb := b_pos h.2.1
    obtain ⟨hshl, hshr, hsra⟩ := shiftsComplete s e ty m d a b h hf
    rw [hs] at hshl
    exact ⟨gives_congr hshl fun l => joinElems_congr _ fun i => fit_shl _ (elem_lt _ _ _) _,
      gives_congr hshr fun l => joinElems_congr _ fun i => congrArg (·, 0) (div_two_pow_min (elem_lt _ _ _) _),
      gives_congr hsra fun l => joinElems_congr _ fun i => congrArg (·, 0) (wrap_sra hb (elem_lt _ _ _))⟩

/-- Settles O42: the table is that of `divElem` and `remElem`, its cases by the patterns of the elements. -/
theorem divisionTable : Obligations.DivisionTable := by
  unfold Obligations.DivisionTable
  refine ⟨fun s e ty m d a b h hf => ?_, fun x y _ => remainder_sign x y⟩
  obtain ⟨-, -, -, -, -, hdiv, hint⟩ := addToMaxComplete s e ty m d a b h
  have hb := b_pos h.2.1
  refine ⟨divElem e ty, remElem ty, hdiv, (hint hf).2, fun x y hx hy => ⟨fun h0 => ?_, ?_, ?_⟩⟩
  · subst h0
    exact division_by_zero e hf hx
  · exact division_overflow e hf hx hb hy
  · exact division_exact e hf hx hb hy

/-- R90, R379: TRET in the handler closes the run, and its split returns. -/
theorem trapReturnCompletes : TrapReturnCompletes := by
  intro s e m h hk hh ha
  have hi := h.1
  refine issue_gone h ?_
  rw [crew_ops hk, pure_bind, if_neg (not_not_intro hh), closeFirst_bind hi, if_neg (not_not_intro ha), act_bind,
    afterClose_tid hi, afterClose_sid hi]
  rfl

/-- R90, R380: TRET outside a handler; where splits of the crew raise traps in one cycle the trap is kept (log 113). -/
theorem trapReturnOutsideTraps : TrapReturnOutsideTraps := by
  intro s e m h hk hh
  obtain ⟨-, -, -, ht, -⟩ := issuer_inv h.1
  dsimp only
  rw [← raise_thread ht hk]
  refine stop_trap h ?_
  rw [crew_ops hk, pure_bind, if_pos hh]
  exact trapWith_open ..

/-- R90, R379: the returned thread holds the record that trap entry has saved. -/
theorem trapReturn : TrapReturn := by
  intro s tid sid t sp sv ht hs hv
  have heq := returnTrap_eq ht hs hv
  refine ⟨returnedThread t sid sv, sp.leaveTrap sv, alter_same hs, rfl, rfl, rfl, rfl, rfl, rfl, rfl, rfl,
    fun k hk => alter_other hk, fun hp => ?_, fun k x hp => ?_⟩
  · rw [heq, hp, Option.elim_none]
  · rw [heq, hp, Option.elim_some]

/-- Settles O46: TRET of the split in the handler, TRET outside, and what the return restores. -/
theorem trapReturnRestores : Obligations.TrapReturnRestores := ⟨trapReturnCompletes, trapReturnOutsideTraps, trapReturn⟩

/-- Settles O47: both words advance their split, and `advance` judges the levels innermost first. -/
theorem loopIterations : Obligations.LoopIterations := by
  unfold Obligations.LoopIterations
  refine ⟨fun s e t h ht hc => falls_mid h (nop_done h 0#1) ht hc,
    fun s e t c o h hb ht hc => falls_mid h (br_falls h 0#1 o hb) ht hc, fun sp hi => advance_inside hi,
    fun sp outer v hl hv _ => ⟨advance_again hl hv, advance_ends hl hv⟩⟩

/-- Settles O52: the five stores differ in the size of their parts only. -/
theorem storeFrame : Obligations.StoreFrame := by
  unfold Obligations.StoreFrame
  intro s e d a o
  obtain ⟨hstb, hsth, hstw, hstd, hstq⟩ := storesComplete s e 0#1 d a o
  rw [← Nat.one_mul o.toNat] at hstb
  exact ⟨store_frame hstb (by decide) (by decide), store_frame hsth (by decide) (by decide),
    store_frame hstw (by decide) (by decide), store_frame hstd (by decide) (by decide),
    store_frame hstq (by decide) (by decide)⟩

end Sys2Proof.Proofs
end

