-- ==== Sys2Proof/Proofs/NumberFormats.lean ====
section
/-! PROOFS. Number formats: CVT between plain formats, and to and from the SX formats (R125 to R128). The first part says
what the word comes to on each side of `isSx`; the second assembles the obligation. -/

namespace Sys2Proof.Laws
open Sys2Proof.Machine Sys2Proof.Claims

section
variable {s : State} {e : Env} {d a : BitVec 8} {f g : BitVec 4} (h : Issues s e) (m : BitVec 1) (hl : e.takes d)
include h hl

/-- R127: between plain formats CVT is a lane-wise word of one source. -/
theorem cvt_plain_gives (hf : isSx f.toNat = false) (hg : isSx g.toNat = false)
    (ho : OpsOk e anyKind [⟨d, .any, codeRegs g.toNat⟩, srcFor d a (codeRegs f.toNat)]) :
    Gives e s (.cvt m d a f g) m d (codeRegs g.toNat) (fun l =>
      cvtValue f.toNat g.toNat e.cvtMode e.sat (e.val l a (codeRegs f.toNat))) := by
  have hplain : ¬ (isSx f.toNat || isSx g.toNat) = true := by simp [hf, hg]
  exact lanewise_gives h rfl (if_neg hplain) ho hl

/-- R128: with an SX code CVT emits the results of its groups, with the OR of their flags. -/
theorem cvt_sx_wrote (hx : (isSx f.toNat || isSx g.toNat) = true)
    (ho : OpsOk e crewOnly [⟨d, .vect, 1⟩, ⟨a, .vect, 1⟩]) :
    let rs : List (List RegWrite × Word) := e.groups.map (fun k =>
      if isSx g.toNat then cvtToSx e f.toNat g.toNat d a k else cvtFromSx e f.toNat g.toNat d a k)
    exec (.cvt m d a f g) s = .next (e.wrote m (.cvt m d a f g) (rs.flatMap Prod.fst)
      (rs.foldl (fun acc r => acc ||| r.2) 0) (opened s)) := by
  refine issue_ok h ?_
  rw [if_pos hx, whenLanes_takes hl, checkOps_ok ho, pure_bind]
  exact emit_bind ..

end

end Sys2Proof.Laws

namespace Sys2Proof.Proofs
open Sys2Proof.Machine Sys2Proof.Claims Sys2Proof.Laws

/-- Settles O6: lane by lane between plain formats, and in groups of 16 lanes with an SX code. -/
theorem conversionsComplete : Obligations.ConversionsComplete := by
  unfold Obligations.ConversionsComplete
  exact fun s e m d a f g h hl => ⟨cvt_plain_gives h m hl, cvt_sx_wrote h m hl⟩

end Sys2Proof.Proofs
end

