-- ==== Sys2Proof/Proofs/Terms.lean ====
section
/-! PROOFS. Tagged terms: the words on registers (R130, R131, R142), the words that end their run with what their lanes
have come to (R143 to R152, R155), FAIL (R153, R154) and VWIN (R214 to R216). The first part says once what each shape of
word comes to; the second assembles the obligations. -/

namespace Sys2Proof.Laws
open Sys2Proof.Machine Sys2Proof.Claims

/-! ## Words on registers -/

section
variable {s : State} {e : Env} {i : Instr} {m : BitVec 1} {d a : BitVec 8} {n : Nat} {body : Env → M Machine.Flow}
  (h : Issues s e) (hx : exec i s = issue m i body s)
include h hx

/-- R142: a term word that has a result in every lane of its destination. -/
theorem termWords_gives {f : Nat → Option (Nat × Word)} (hb : body e = termWords e d a n f) (hl : e.takes d)
    (ho : OpsOk e crewOnly [⟨d, .any, n⟩, srcFor d a 2])
    (hf : ∀ l ∈ e.destLanes d, (f (e.regs.pair l a).toNat).isSome = true) :
    Gives e s i m d n (fun l => (f (e.regs.pair l a).toNat).getD (0, 0)) := by
  refine hx.trans (issue_ok h ?_)
  rw [hb, termWords_ok hl ho hf, emitLanes_ok]

/-- R131, R142: a word that reads terms gives a result where they are well formed. -/
theorem termReads_gives {f : Nat → Nat}
    (hb : body e = termWords e d a n (fun x => if illFormed x then none else some (f x, 0))) (hl : e.takes d)
    (ho : OpsOk e crewOnly [⟨d, .any, n⟩, srcFor d a 2])
    (hw : ∀ l ∈ e.destLanes d, illFormed (e.regs.pair l a).toNat = false) :
    Gives e s i m d n (fun l => if illFormed (e.regs.pair l a).toNat then (0, 0)
      else (f (e.regs.pair l a).toNat, 0)) := by
  refine gives_congr (termWords_gives h hx hb hl ho fun l hm => ?_) fun l => apply_ite (Option.getD · (0, 0)) _ _ _
  rw [hw l hm]
  rfl

/-- R146: a word that copies a lane register to D. -/
theorem getMark_gives {f : Nat → Nat} (hb : body e = getMark e d f) (hl : e.lanes ≠ [])
    (ho : OpsOk e crewOnly [⟨d, .vect, 2⟩]) : Gives e s i m d 2 (fun l => (f l, 0)) := by
  refine hx.trans (issue_ok h ?_)
  rw [hb, getMark, whenLanes_some (some_lane hl), checkOps_ok ho, pure_bind, emitLanes_ok]

end

/-! ## Lanes that run to their end -/

section
variable {α β : Type} {e : Env} {ls : List Nat} {f : Nat → L α} {s t : State} {outs : List (Nat × α)}

/-- What follows lanes that all run to their end. -/
theorem lanesRun_bind (h : LanesRun ls f s outs t) (k : List (Nat × α) → M β) :
    (eachLane e ls f >>= k) s = k outs t := by
  obtain ⟨_, hrun⟩ := h
  exact eachLane_bind hrun k

/-- Lanes that touch no memory run to their end when none of them stops. -/
theorem lanesRun_pure {g : Nat → α} (h : ∀ l ∈ ls, f l = pure (g l)) :
    LanesRun ls f s (ls.map (fun l => (l, g l))) s :=
  ⟨[], runLane_pure (fun l hl p => by rw [h l hl]; rfl) [] []⟩

/-- An address in canonical form on a boundary of `n` bytes passes (R26). -/
theorem laneAddr_ok {va n : Nat} (hc : canonicalVa va = true) (ha : va % n = 0) : laneAddr va n = pure () := by
  simp [laneAddr, hc, ha]

end

/-! ## Words over lanes, most of which end their run (R140) -/

/-- A word that ends its run with what its lanes have come to. -/
theorem lastLanes_wrote {α : Type} {s t : State} {e : Env} {i : Instr} {m : BitVec 1} {ops : List Opnd} {f : Nat → L α}
    {outs : List (Nat × α)} {ws : List (Nat × α) → List RegWrite} {body : Env → M Machine.Flow} (h : Issues s e)
    (hx : exec i s = issue m i body s)
    (hb : body e = lastOfRun e ops (eachLane e e.lanes f >>= fun r => emit e (ws r) 0)) (hl : e.lanes ≠ [])
    (ho : OpsOk e crewOnly ops) (hr : LanesRun e.lanes f (opened s) outs t) :
    exec i s = .next (e.wroteLast m i (ws outs) t) := by
  refine hx.trans (issue_ok h ?_)
  rw [hb]
  exact lastOfRun_ok hl ho (lanesRun_bind hr _)

section
variable {s : State} {e : Env} (h : Issues s e) (m : BitVec 1)
include h

/-- R144: HNEW of aligned heap tops. -/
theorem hnew_wrote {d a : BitVec 8} (hl : e.lanes ≠ []) (ho : OpsOk e crewOnly [⟨d, .vect, 2⟩, ⟨a, .vect, 1⟩])
    (ha : ∀ l ∈ e.lanes, canonicalVa (e.regs.heap l) = true ∧ e.regs.heap l % 8 = 0) :
    exec (.hnew m d a) s = .next (e.wroteLast m (.hnew m d a) (e.lanes.flatMap (fun l =>
      regWrites l d (e.regs.heap l) 2 ++ [laneSr l srHeaptop (e.regs.heap l + 8 * (e.regs.field l a).toNat)]))
      (opened s)) := by
  have hrun : LanesRun e.lanes (fun l => do laneAddr (e.regs.heap l) 8; pure (e.regs.heap l)) (opened s)
      (e.lanes.map (fun l => (l, e.regs.heap l))) (opened s) := by
    refine lanesRun_pure fun l hm => ?_
    obtain ⟨hc, h8⟩ := ha l hm
    rw [laneAddr_ok hc h8, pure_bind]
  refine (lastLanes_wrote h rfl rfl hl ho hrun).trans ?_
  rw [List.flatMap_map]

/-- R155: CUT to marks on a boundary of 64 bytes. -/
theorem cut_wrote {a : BitVec 8} (hl : e.lanes ≠ []) (ho : OpsOk e crewOnly [⟨a, .vect, 2⟩])
    (ha : ∀ l ∈ e.lanes, (e.regs.pair l a).toNat % 64 = 0) :
    exec (.cut m a) s = .next (e.wroteLast m (.cut m a) (e.lanes.filterMap (fun l =>
      if (e.regs.pair l a).toNat < e.regs.cairn l then some (laneSr l srCptop (e.regs.pair l a).toNat) else none))
      (opened s)) := by
  have hrun := lanesRun_pure (s := opened s) (g := fun l => (e.regs.pair l a).toNat)
    (f := fun l => if (e.regs.pair l a).toNat % 64 ≠ 0 then laneTrap causeAlign (e.regs.pair l a).toNat
      else pure (e.regs.pair l a).toNat) (fun l hm => if_neg (not_not_intro (ha l hm)))
  refine (lastLanes_wrote h rfl rfl hl ho hrun).trans ?_
  rw [List.filterMap_map]
  rfl

/-- R145. -/
theorem deref_wrote {t : State} {d a : BitVec 8} {outs : List (Nat × Chain)} (hl : e.lanes ≠ [])
    (ho : OpsOk e crewOnly [⟨d, .vect, 2⟩, ⟨a, .vect, 2⟩])
    (hr : LanesRun e.lanes (fun l => do
      readTerm (e.regs.pair l a).toNat 0
      derefFrom e l e.budget (e.regs.pair l a).toNat 0) (opened s) outs t) :
    exec (.deref m d a) s =
      .next (e.wrote m (.deref m d a) (outs.flatMap (fun x => regWrites x.1 d x.2.word 2)) 0 t) := by
  refine issue_ok h ?_
  rw [whenLanes_some (some_lane hl), checkOps_ok ho, pure_bind]
  exact lanesRun_bind hr _

/-- R148 to R151: UNIFY of a launch with a unify area whose banks are active. -/
theorem unify_wrote {t u : State} {d a b : BitVec 8} {outs : List (Nat × Unified)} (hl : e.lanes ≠ [])
    (ho : OpsOk e crewOnly [⟨d, .vect, 1⟩, ⟨a, .vect, 2⟩, ⟨b, .vect, 2⟩])
    (hd : udepthOf (opened s) e.th.launch ≠ 0)
    (hn : needAreas e (.unify m d a b)
      (e.lanes.flatMap (areaPlaces e (opened s) (udepthOf (opened s) e.th.launch))) (opened s) = .ok () u)
    (hr : LanesRun e.lanes (unifyLane e a b (udepthOf (opened s) e.th.launch)) u outs t) :
    exec (.unify m d a b) s = .next (e.wroteLast m (.unify m d a b)
      (outs.flatMap (fun x => regWrite x.1 d x.2.status ::
        (if x.2.trail = e.regs.trail x.1 then [] else [laneSr x.1 srTrtop x.2.trail])))
      (modThread e.tid (fun th => { th with resumes := outs.foldl (fun m x =>
        keepResume (e.regs.pair x.1 a) (e.regs.pair x.1 b) x.2 x.1 m) th.resumes }) t)) := by
  refine issue_ok h (lastOfRun_ok hl ho ?_)
  rw [get_bind]
  refine (congrFun (if_neg hd) _).trans ((bind_ok hn _).trans ?_)
  rw [lanesRun_bind hr, act_bind]
  rfl

end

/-! ## FAIL (R153, R154) -/

/-- A division that the thread has records for, outside of a handler (R162, R378). -/
theorem checkDivide_ok {e : Env} {parts : List Branch} (ls : List Nat) (hh : 2 ≤ parts.length → e.inHandler = false)
    (hr : parts.length ≤ e.th.spare e.sp + 1) : checkDivide e ls parts = pure () := by
  have hin : ¬ (decide (2 ≤ parts.length) && e.inHandler) = true := by simpa using hh
  rw [checkDivide, if_neg hin, if_neg (Nat.not_lt.mpr hr)]

/-- The parts that FAIL divides its split into: the lanes whose guard is false fall through, and those that have a
frame go to its address. -/
def failParts (e : Env) (alts : List (Nat × Option Nat)) : List Branch :=
  branches e.sp (e.active.filter (fun l => !e.lanes.contains l))
    (alts.filterMap (fun x => x.2.map (fun a => (x.1, BitVec.ofNat 64 a))))

/-- R153, R154: FAIL closes the run with what its lanes restore, exits those that have no frame, and divides the
split. -/
theorem fail_divides {s t u : State} {e : Env} (h : Issues s e) (m : BitVec 1) {alts : List (Nat × Option Nat)}
    {outs : List (Nat × Option (Nat × List Nat))} (hk : e.th.kind = .crew) (hl : e.lanes ≠ [])
    (ha : LanesRun e.lanes (failTarget e) (opened s) alts t)
    (hd : 2 ≤ (failParts e alts).length → e.inHandler = false)
    (hn : (failParts e alts).length ≤ e.th.spare e.sp + 1) (hr : LanesRun e.lanes (failLane e alts) t outs u) :
    let v := exitLanes e.tid e.sid ((alts.filter (fun x => x.2.isNone)).map Prod.fst) (dropResumes e.tid e.lanes
      (closeRun e.tid e.sid (emitTo e.tid e.sid (outs.flatMap failWrites) 0 u)))
    exec (.fail m) s = .next (if (failParts e alts).isEmpty then endSplit e.tid e.sid v
      else divideSplit e.tid e.sid (failParts e alts) v) := by
  have hlanes : ¬ e.lanes.isEmpty = true := by simpa using hl
  refine issue_gone h ?_
  rw [if_neg hlanes, crew_ops hk, pure_bind, lanesRun_bind ha]
  change (checkDivide e e.lanes (failParts e alts) >>= _) t = _
  rw [checkDivide_ok _ hd hn, pure_bind, lanesRun_bind hr, emit_bind, act_bind, act_bind, act_bind]
  by_cases hp : (failParts e alts).isEmpty = true
  · rw [if_pos hp]
    exact congrFun (if_pos hp) _
  · rw [if_neg hp]
    exact congrFun (if_neg hp) _

/-! ## VWIN (R216) -/

/-- R214 to R216: VWIN judges its operands again after the close, and clears the windows. -/
theorem vwin_wrote {s t : State} {e c : Env} (h : Issues s e) (hc : e.afterClose s = c) (m : BitVec 1) {a b : BitVec 8}
    {outs : List (Nat × Win)} (ho : OpsOk e crewOnly [⟨a, .any, 2⟩, ⟨b, .any, 1⟩]) (hl : c.lanes ≠ [])
    (hw : ∀ l ∈ c.lanes, (windowSize (c.regs.field l b).toNat).isSome = true)
    (ha : ((c.lanes.filter (fun l => (c.regs.field l b).toNat ≠ 0)).map
      (fun l => (⟨[l], (c.regs.pair l a).toNat⟩ : Machine.Part))).all (goodAddr 64) = true)
    (hr : LanesRun c.lanes (fun l => do
      let w : Win := ⟨if (c.regs.field l b).toNat = 0 then 0 else (c.regs.pair l a).toNat,
        (windowSize (c.regs.field l b).toNat).getD 0⟩
      w.clear c
      pure w) (closed s e) outs t) :
    exec (.vwin m a b) s = .next (e.wroteLast m (.vwin m a b)
      (outs.flatMap (fun x => [laneSr x.1 srVwbase x.2.base, laneSr x.1 srVwsize x.2.size])) t) := by
  have hbased : c.lanes.filter (fun l => decide ((c.regs.field l b).toNat ≠ 0) &&
      (windowSize (c.regs.field l b).toNat).isSome) = c.lanes.filter (fun l => (c.regs.field l b).toNat ≠ 0) :=
    List.filter_congr fun l hm => by rw [hw l hm, Bool.and_true]
  have hsized : c.lanes.filter (fun l => (windowSize (c.regs.field l b).toNat).isNone) = [] :=
    List.filter_eq_nil_iff.mpr fun l hm => by simp [Option.isSome_iff_ne_none.mp (hw l hm)]
  have htid : c.tid = e.tid := hc ▸ afterClose_tid h.1
  have hsid : c.sid = e.sid := hc ▸ afterClose_sid h.1
  refine issue_ok h ((closing_ok h.1 ho fun _ => hc ▸ hl).trans ?_)
  rw [hc]
  dsimp only
  rw [hbased, checkAddrs_ok ha, pure_bind, hsized]
  refine (lanesRun_bind hr _).trans ?_
  rw [emit_bind, htid, hsid]
  rfl

end Sys2Proof.Laws

namespace Sys2Proof.Proofs
open Sys2Proof.Machine Sys2Proof.Claims Sys2Proof.Laws

/-- R130, R131, R142: TAGOF and PAYLD read a term, and MKTERM makes one. -/
theorem termRegisterWordsComplete : TermRegisterWordsComplete := by
  intro s e m d a h hl
  exact ⟨fun hw ho => termReads_gives h rfl rfl hl ho hw, fun hw ho => termReads_gives h rfl rfl hl ho hw,
    fun t ht ho => termWords_gives h rfl rfl hl ho ht⟩

/-- R143, R144, R146, R155; HNEW uses HEAPTOP, while GETCP, GETTR and CUT take any pointer (log 88). -/
theorem heapAndMarkWordsComplete : HeapAndMarkWordsComplete := by
  intro s e m h hl
  exact ⟨fun d ho => ⟨getMark_gives h rfl rfl hl ho, getMark_gives h rfl rfl hl ho⟩,
    fun d t outs ho hr => lastLanes_wrote h rfl rfl hl ho hr, fun d a ho ha => hnew_wrote h m hl ho ha,
    fun a ho ha => cut_wrote h m hl ho ha⟩

/-- Settles O18: the words on registers, and those on heap cells and marks. -/
theorem termRegisterAndHeapWordsComplete : Obligations.TermRegisterAndHeapWordsComplete :=
  ⟨termRegisterWordsComplete, heapAndMarkWordsComplete⟩

/-- R145, R147 to R152; UNIFY needs every bank of its areas (log 87), and CHOICE copies HEAPTOP and TRTOP unchecked
(log 88). -/
theorem unificationCompletes : UnificationCompletes := by
  intro s e m t h hl
  exact ⟨fun d a outs ho hr => deref_wrote h m hl ho hr, fun d a b outs ho hr => lastLanes_wrote h rfl rfl hl ho hr,
    fun d a b u outs ho hd hn hr => unify_wrote h m hl ho hd hn hr,
    fun o outs ho hr => lastLanes_wrote h rfl rfl hl ho hr⟩

/-- R153, R154; lanes that fall through to an address and lanes that go to it form one part (log 84). -/
theorem backtrackingCompletes : BacktrackingCompletes :=
  fun _ _ m _ _ _ _ h hk hl ha hd hn hr => fail_divides h m hk hl ha hd hn hr

/-- R214 to R216. -/
theorem viewWindowCompletes : ViewWindowCompletes :=
  fun _ _ m _ _ _ _ h ho hl hw ha hr => vwin_wrote h rfl m ho hl hw ha hr

/-- Settles O19: DEREF to CHOICE, then FAIL, then VWIN. -/
theorem unificationWordsComplete : Obligations.UnificationWordsComplete :=
  ⟨unificationCompletes, backtrackingCompletes, viewWindowCompletes⟩

end Sys2Proof.Proofs
end

