-- ==== Sys2Proof/Proofs/CrewsAndCircles.lean ====
section
/-! PROOFS. Crews and circles: the turn after a step (R163, R186, R375), BRD and JOIN (R193 to R196), barriers (R205 to
R207), the decision queue and tasks (R208 to R212), gangs and adoption (R213 to R219), FORK and RDV (R358 to R360), and the
launch events (R157, R413 to R417). The first part says once what each word or event comes to; the second assembles the
obligations. -/

namespace Sys2Proof.Laws
open Sys2Proof.Machine Sys2Proof.Claims

/-! ## The turn after a step -/

/-- What an outcome continued with `f` answers is `f` of what the outcome answers. -/
theorem andThen_next {f : State → State} {o : Host.Outcome State Fault Refusal} {t : State} (h : andThen f o = .next t) :
    ∃ u, t = f u := by
  cases o with
  | next u => exact ⟨u, (next_inj h).symm⟩
  | fault _ => cases h
  | refused _ => cases h

/-- Every step ends with the choice of who issues next (log 6): after an event or while nothing issues, and after a word. -/
theorem step_chooses {s t : State} (h : step s = .next t) : ∃ u, t = pickTurn u ∨ t = nextTurn u := by
  unfold step at h
  split at h
  · obtain ⟨u, hu⟩ := andThen_next h
    exact ⟨u, .inl hu⟩
  · split at h
    · unfold stepIssue at h
      split at h
      · obtain ⟨u, hu⟩ := andThen_next h
        exact ⟨u, .inr hu⟩
      · next u _ => exact ⟨u, .inr (next_inj h).symm⟩
    · exact ⟨idle s, .inl (next_inj h).symm⟩

/-! ## BRD and JOIN (R166, R193 to R196) -/

/-- A crew's word without operands passes its checks and closes its run; what follows acts on what the close has left. -/
theorem crew_closes {s : State} {e : Env} (h : issuer s = some e) (hk : e.th.kind = .crew) (k : Env → M Machine.Flow) :
    (do checkOps e crewOnly false [] false
        let e ← closeFirst e
        k e : M Machine.Flow) (opened s) = k (e.afterClose s) (closed s e) := by
  rw [crew_ops hk, pure_bind, closeFirst_bind h]

/-- The close of a run leaves the targets of its words. -/
theorem afterClose_target {s : State} {e : Env} (h : issuer s = some e) (o : BitVec 20) :
    (e.afterClose s).target o = e.target o := by
  unfold Env.target Env.nextPc
  rw [afterClose_pc h]

section
variable {s : State} {e c : Env} (h : Issues s e) (hk : e.th.kind = .crew) (hc : e.afterClose s = c) (m : BitVec 1)
  (k : BitVec 4)
include h hk hc

/-- R193 to R195: BRD whose guard differs among the active lanes, with a record for the new split. -/
theorem brd_divides (o : BitVec 20) {sid : Nat} (ht : c.sp.tokens.length < 8) (hsome : c.lanes ≠ [])
    (hpart : c.lanes.length < c.active.length) (hh : c.inHandler = false) (hspare : c.th.spare c.sp ≠ 0)
    (hfree : c.th.freeSid = some sid) :
    let g := c.th.nextGroup
    let tokens := c.sp.tokens ++ [(k.toNat, g)]
    exec (.brd m k o) s = .next (e.done m (.brd m k o) Flow.nextClose (modThread e.tid (fun th =>
      let th := th.raiseLive c.sp.tokens 1
      let th := { th with nextGroup := g + 1, groups := Sparse.put th.groups g 2 }
      let th := { th with splits := Sparse.alter th.splits e.sid (fun sp =>
        { sp with member := sp.member &&& ~~~(maskOf c.lanes), tokens := tokens }) }
      th.addSplit sid (c.sp.branch (e.target o) (maskOf c.lanes) tokens)) (drainSplit e.tid e.sid (closed s e)))) := by
  subst hc
  have hdiv : (!(e.afterClose s).lanes.isEmpty && decide ((e.afterClose s).lanes.length < (e.afterClose s).active.length))
      = true := by simp [hsome, hpart]
  refine issue_ok h ((crew_closes h.1 hk _).trans ?_)
  simp only [hdiv, hh, hspare, hfree, Nat.not_le.mpr ht, afterClose_tid h.1, afterClose_sid h.1, afterClose_target h.1,
    Bool.and_false, Bool.false_eq_true, if_false]
  rfl

/-- R193 to R195: BRD whose guard is the same in all active lanes. -/
theorem brd_whole (o : BitVec 20) (ht : c.sp.tokens.length < 8)
    (hl : c.lanes = [] ∨ ¬ c.lanes.length < c.active.length) :
    let g := c.th.nextGroup
    exec (.brd m k o) s = .next (e.done m (.brd m k o)
      { target := if c.lanes = [] then none else some (e.target o), skip := 0, close := true }
      (modThread e.tid (fun th => { th with
        nextGroup := g + 1, groups := Sparse.put th.groups g 1,
        splits := Sparse.alter th.splits e.sid (fun sp => { sp with tokens := c.sp.tokens ++ [(k.toNat, g)] }) })
        (closed s e))) := by
  subst hc
  have hdiv : (!(e.afterClose s).lanes.isEmpty && decide ((e.afterClose s).lanes.length < (e.afterClose s).active.length))
      = false := by rcases hl with hl | hl <;> simp [hl]
  refine issue_ok h ((crew_closes h.1 hk _).trans ?_)
  simp only [hdiv, Nat.not_le.mpr ht, afterClose_tid h.1, afterClose_sid h.1, afterClose_target h.1, Bool.false_and,
    Bool.false_eq_true, if_false, List.isEmpty_iff]
  rfl

/-- R166, R196: JOIN of the group on top of the split's tokens. -/
theorem join_waits {g : Nat} (hg : c.sp.tokens.getLast? = some (k.toNat, g)) (hh : c.inHandler = false) :
    let u := drainSplit e.tid e.sid (closed s e)
    exec (.join m k) s = .next (afterEnd e.tid c.th.regs.mmode 33 (some g)
      (modSplit e.tid e.sid (fun sp => { sp with
        state := .waiting, wait := some { obj := .join g, instr := .join m k, since := u.links } })
        { u with links := u.links + 1 })) := by
  subst hc
  refine issue_gone h ((crew_closes h.1 hk _).trans ?_)
  simp only [hg, hh, Bool.not_false, and_self, if_true, act_bind, afterClose_tid h.1, afterClose_sid h.1]
  rfl

/-- R196: JOIN of another group, or in a handler. -/
theorem join_passes (hg : c.sp.tokens.getLast?.map Prod.fst ≠ some k.toNat ∨ c.inHandler = true) :
    exec (.join m k) s = .next (e.done m (.join m k) Flow.nextClose (closed s e)) := by
  refine issue_ok h ((crew_closes h.1 hk _).trans ?_)
  rw [hc]
  cases htop : c.sp.tokens.getLast? with
  | none => rfl
  | some top =>
    refine congrFun (if_neg fun ⟨heq, hout⟩ => ?_) _
    rcases hg with hg | hg
    · exact hg (by rw [htop, ← heq]; rfl)
    · simp [hg] at hout

end

/-! ## Barriers (R172, R205 to R207) -/

/-- The close of a run leaves the circles of its crew. -/
theorem afterClose_circ {s : State} {e : Env} (h : issuer s = some e) : (e.afterClose s).th.circ = e.th.circ := by
  obtain ⟨_, _, _, _, _, hc, -⟩ := afterClose_keeps h
  rw [hc]

/-- The close of a run neither enters a handler nor leaves one. -/
theorem afterClose_inHandler {s : State} {e : Env} (h : issuer s = some e) : (e.afterClose s).inHandler = e.inHandler := by
  unfold Env.inHandler
  rw [afterClose_handler h, afterClose_sid h]

/-- A split outside of a handler may wait (R378). -/
theorem waitOn_waits {α : Type} {e : Env} (hh : e.inHandler = false) (o : WaitObj) (i : Instr) :
    (waitOn e o i : M α) = throw (.wait o i) :=
  if_neg (Bool.eq_false_iff.mp hh)

/-- A body that waits: its split is linked to the object (R186). -/
theorem issue_waits {s t : State} {e : Env} {m : BitVec 1} {i j : Instr} {body : Env → M Machine.Flow} {o : WaitObj}
    (h : Issues s e) (hb : body e (opened s) = .error (.wait o j) t) :
    issue m i body s = .next (linkWait e.tid e.sid o j t) := issue_stop h hb

/-- A word that has waited goes on with what it was handed, which the close of its run leaves. -/
theorem closed_handed {s : State} {e : Env} {x : Item} (h : Resumes s e x) :
    (e.afterClose s).sp.handed.isSome = true := by
  rw [afterClose_handed h.1, h.2.1]
  rfl

/-- A word that issues has nothing handed to it. -/
theorem not_handed {s : State} {e : Env} (h : Issues s e) : ¬ e.sp.handed.isSome = true := by
  rw [h.2.1]
  exact Bool.false_ne_true

/-- The close of its run hands it nothing either. -/
theorem closed_not_handed {s : State} {e : Env} (h : Issues s e) : ¬ (e.afterClose s).sp.handed.isSome = true := by
  rw [afterClose_handed h.1]
  exact not_handed h

section
variable {s : State} {e : Env} (hk : e.th.kind = .crew) {k : BitVec 2} (hcirc : circOf e.th.circ k.toNat ≠ 0xFF)
include hk hcirc

/-- A barrier word of a slot that holds a circle closes its run and acts on that circle. -/
theorem barrier_acts (h : issuer s = some e) (f : Env → Nat → Nat → M Machine.Flow) :
    barrier e k f (opened s) = f (e.afterClose s) k.toNat (circOf e.th.circ k.toNat) (closed s e) := by
  refine (closing_ok h ⟨by simp [hk, crewOnly], by simp⟩ (by simp)).trans ?_
  simp only [afterClose_circ h, hcirc, if_false]

/-- R205, R207: BAR and BARW that are released acquire and go on. -/
theorem barrier_resumes (h : Resumes s e .go) (m : BitVec 1) {i : Instr} {f : Env → Nat → Nat → M Machine.Flow}
    (hx : exec i s = issue m i (fun e => barrier e k f) s)
    (hf : ∀ c slot circ, c.sp.handed.isSome = true → f c slot circ = afterBarrier c) :
    exec i s = .next (e.done m i Flow.nextClose (acquire e.th.core e.cid (e.afterClose s).scope (closed s e))) := by
  refine hx.trans (run_ok (h.proceeds (by simp)) ((barrier_acts hk hcirc h.1 f).trans ?_))
  rw [hf _ _ _ (closed_handed h), ← afterClose_core h.1, ← afterClose_cid h.1]
  rfl

/-- R172: BARA that has waited for its crew's earlier arrival goes on. -/
theorem bara_resumes (h : Resumes s e .go) (m : BitVec 1) :
    exec (.bara m k) s = .next (e.done m (.bara m k) Flow.nextClose (closed s e)) := by
  refine run_ok (h.proceeds (by simp)) ((barrier_acts hk hcirc h.1 _).trans ?_)
  rw [if_pos (closed_handed h)]
  rfl

section
variable (h : Issues s e) (m : BitVec 1)
include h

section
variable (hr : ¬ (e.afterClose s).sp.reached.contains k.toNat = true)
include hr

/-- R206: BARA reaches the slot and goes on. -/
theorem bara_arrives (ha : arrivesAgain e.tid k.toNat (reachSlot (e.afterClose s) k.toNat (closed s e)) = false) :
    exec (.bara m k) s = .next (e.done m (.bara m k) Flow.nextClose
      (reachSlot (e.afterClose s) k.toNat (closed s e))) := by
  refine issue_ok h ((barrier_acts hk hcirc h.1 _).trans ?_)
  rw [if_neg (closed_not_handed h), if_neg hr, get_bind, afterClose_tid h.1]
  simp only [ha, Bool.false_and, Bool.false_eq_true, if_false]
  rfl

/-- R172: BARA that arrives again waits for the barrier of its crew's last arrival. -/
theorem bara_waits (hh : e.inHandler = false)
    (ha : arrivesAgain e.tid k.toNat (reachSlot (e.afterClose s) k.toNat (closed s e)) = true) :
    exec (.bara m k) s = .next (linkWait e.tid e.sid
      (.barrier e.th.launch (circOf e.th.circ k.toNat) (Sparse.get 0 (e.afterClose s).th.arrivals k.toNat - 1))
      (.bara m k) (reachSlot (e.afterClose s) k.toNat (closed s e))) := by
  have hh := (afterClose_inHandler h.1).trans hh
  refine issue_waits h ((barrier_acts hk hcirc h.1 _).trans ?_)
  rw [if_neg (closed_not_handed h), if_neg hr, get_bind, afterClose_tid h.1, afterClose_launch h.1]
  simp only [ha, hh, Bool.and_false, Bool.false_eq_true, if_false, if_true, act_bind, waitOn_waits hh]
  rfl

/-- R205: BAR reaches the slot and waits for its circle's next barrier. -/
theorem bar_waits (hh : e.inHandler = false) :
    exec (.bar m k) s = .next (linkWait e.tid e.sid (.barrier e.th.launch (circOf e.th.circ k.toNat)
      (nextBarrier (e.afterClose s) k.toNat (circOf e.th.circ k.toNat) (closed s e))) (.bar m k)
      (reachSlot (e.afterClose s) k.toNat (closed s e))) := by
  have hh := (afterClose_inHandler h.1).trans hh
  refine issue_waits h ((barrier_acts hk hcirc h.1 _).trans ?_)
  rw [if_neg (closed_not_handed h), if_neg (Bool.eq_false_iff.mp hh), if_neg hr, get_bind, act_bind, waitOn_waits hh,
    afterClose_launch h.1]
  rfl

end

/-- R207: BARW without a pending arrival of its crew goes on. -/
theorem barw_passes (hp : (e.afterClose s).th.pendingArrival (closed s e) k.toNat = false) :
    exec (.barw m k) s = .next (e.done m (.barw m k) Flow.nextClose (closed s e)) := by
  refine issue_ok h ((barrier_acts hk hcirc h.1 _).trans ?_)
  rw [if_neg (closed_not_handed h), get_bind, hp]
  rfl

end
end

/-! ## The decision queue (R181, R208, R209) -/

section
variable {s : State} {e : Env} (h : Issues s e) (m : BitVec 1)
include h

/-- R208: DQPUSH of a scout into a queue with room. -/
theorem dqpush_pushes {a : BitVec 8} (ho : OpsOk e [.scout] [⟨a, .scal, 2⟩])
    (hroom : dqLength (opened s) e.th.launch (e.th.share (opened s)) < 64) :
    exec (.dqpush m a) s = .next (e.done m (.dqpush m a) Flow.next
      (pushDq e.th.launch (e.th.share (opened s)) (e.regs.pair 0 a) (opened s))) := by
  refine issue_ok h ?_
  rw [checkOps_ok ho, pure_bind, if_neg (not_handed h), get_bind]
  exact congrFun (if_pos hroom) _

/-- R209: a word that reads the queue gets what it finds at its crew's cursor, which a pop moves on. -/
theorem dqRead_wrote {d : BitVec 8} {x : DWord} {i : Instr} {pops : Bool} {body : Env → M Machine.Flow}
    (ho : OpsOk e crewOnly [⟨d, .any, 2⟩]) (hf : dqFind e (opened s) = some x) (hx : exec i s = issue m i body s)
    (hb : body e = dqRead e d i pops) :
    exec i s = .next (e.wrote m i ((e.everyLane d).flatMap (fun l => regWrites l d x.toNat 2)) 0
      (if pops then dqAdvance e (opened s) else opened s)) := by
  refine hx.trans (issue_ok h ?_)
  rw [hb, dqRead, checkOps_ok ho, pure_bind, h.2.1]
  refine (get_bind _ _).trans ?_
  rw [hf]
  cases pops <;> rfl

end

/-! ## Tasks (R182 to R184, R210 to R212) -/

/-- Nothing has been performed of parts that each serve a lane. -/
theorem none_performed {ps : List Machine.Part} (hs : ∀ p ∈ ps, ∃ l ∈ p.lanes, l < 64) :
    ps.filter (fun p => !Progress.none.did p) = ps := by
  refine List.filter_eq_self.mpr fun p hp => ?_
  obtain ⟨l, hl, h64⟩ := hs p hp
  rw [not_did_none hl h64]
  rfl

/-- A mask that holds the lanes of some parts says that each of them has been performed. -/
theorem all_performed {ps : List Machine.Part} {prog : Progress} (hm : prog.lanes = partsMask ps)
    (hs : ∀ p ∈ ps, ∃ l ∈ p.lanes, l < 64) : ps.filter (fun p => !prog.did p) = [] := by
  refine List.filter_eq_nil_iff.mpr fun p hp => ?_
  obtain ⟨l, hl, -⟩ := hs p hp
  have hsub : maskOf p.lanes &&& partsMask ps = maskOf p.lanes :=
    mask_sub fun k hk => List.mem_flatMap.mpr ⟨p, hp, hk⟩
  simp [Progress.did, hm, hsub, List.ne_nil_of_mem hl]

/-- What follows an access whose parts have all been performed. -/
theorem all_performed_bind {β : Type} {s : State} {e : Env} {acc : Acc} {ps : List Machine.Part}
    {go : Machine.Part → State → PartResult × State} (hm : e.sp.progress.lanes = partsMask ps)
    (hs : ∀ p ∈ ps, ∃ l ∈ p.lanes, l < 64) (k : List RegWrite × Word → M β) :
    (runParts e acc ps go >>= k) s = k (e.sp.progress.results, e.sp.progress.flags)
      (modSplit e.tid e.sid (fun sp => { sp with progress := e.sp.progress }) s) :=
  runParts_bind (by rw [all_performed hm hs]; rfl) k

/-- Each decrement of TDONE serves a lane: its own, or all active ones. -/
theorem tdone_serves {e : Env} {a : BitVec 8} (hact : e.active ≠ []) :
    ∀ p ∈ (if isVec a then e.lanes.map (fun l => ⟨[l], e.addr l a 0⟩) else [⟨e.active, e.addr 0 a 0⟩] :
      List Machine.Part), ∃ l ∈ p.lanes, l < 64 := by
  have hlt {l : Nat} (hl : l ∈ e.active) : l < 64 := lanesOf_lt hl
  split
  · intro p hp
    obtain ⟨l, hl, rfl⟩ := List.mem_map.mp hp
    exact ⟨l, List.mem_singleton.mpr rfl, hlt (List.mem_of_mem_filter hl)⟩
  · intro p hp
    obtain ⟨l, hl⟩ := List.exists_mem_of_ne_nil _ hact
    rw [List.mem_singleton.mp hp]
    exact ⟨l, hl, hlt hl⟩

section
variable {s : State} {e : Env} (h : Issues s e) (m : BitVec 1)
include h

/-- R210: SPAWN of records that are in order and all stored. -/
theorem spawn_stores {a b : BitVec 8} {rs : List (Nat × Cont × Word)} {t u : State}
    (ho : OpsOk e crewOnly [⟨a, .any, 4⟩, ⟨b, .any, 4⟩]) (hl : (isVec a || isVec b) = true → e.lanes ≠ [])
    (hrs : (if isVec a || isVec b then e.lanes else [0]).map (fun l => (l, spawnRecord e a b l)) = rs)
    (ha : rs.all (fun r => !spawnMisaligned r.2) = true) (hr : spawnRefused e.cid rs (opened s) = ([], t))
    (hp : pushTasks e.cid (rs.map (fun r => r.2.1)) (release e.th.core 2 t) = ([], u)) :
    exec (.spawn m a b) s = .next (e.done m (.spawn m a b) Flow.next u) := by
  have hodd : rs.filter (fun r => spawnMisaligned r.2) = [] :=
    List.filter_eq_nil_iff.mpr fun r hm => by simpa using List.all_eq_true.mp ha r hm
  refine issue_ok h ?_
  dsimp only
  rw [whenLanes_some hl, checkOps_ok ho, pure_bind, if_neg (not_handed h), hrs, hodd]
  refine (ask_bind _ _ _).trans ?_
  rw [hr]
  refine (act_bind _ _ _).trans ((ask_bind _ _ _).trans ?_)
  rw [hp]
  rfl

/-- R212: QPOP of a queue that holds a record or has drained. -/
theorem qpop_pops {d a : BitVec 8} {q : Nat} {t u : State} {empty : Bool} {got : List (Nat × Option Cont)}
    (ho : OpsOk e crewOnly [⟨d, .vect, 8⟩, ⟨a, .scal, 1⟩]) (hl : e.lanes ≠ []) (hq : (e.regs.field 0 a).toNat = q)
    (hlt : q < 4096) (ht : queueEmpty e.cid q (opened s) = (empty, t)) (hn : empty = false ∨ isDrained t e.cid q = true)
    (hu : popLanes e.cid q e.lanes t = (got, u)) :
    let ws := got.flatMap (fun g => taskWrites d g.1 g.2 (if isDrained t e.cid q then 2 else 1))
    let keep (m : Sparse Cont) (g : Nat × Option Cont) : Sparse Cont :=
      match g.2 with
      | some c => Sparse.put m g.1 c
      | none => Sparse.erase m g.1
    exec (.qpop m d a) s = .next (e.done m (.qpop m d a) Flow.next (reachBoundary e.tid (acquire e.th.core e.cid 2
      (modThread e.tid (fun t => { t with tasks := got.foldl keep t.tasks }) (emitTo e.tid e.sid ws 0 u))))) := by
  have hgo : (empty && !isDrained t e.cid q) = false := by rcases hn with hn | hn <;> simp [hn]
  refine issue_ok h ?_
  dsimp only
  rw [whenLanes_some (some_lane hl), checkOps_ok ho, pure_bind, hq, if_neg (Nat.not_le.mpr hlt), h.2.1]
  refine (ask_bind _ _ _).trans ?_
  rw [ht, get_bind, hgo]
  refine (ask_bind _ _ _).trans ?_
  rw [hu]
  rfl

/-- R211: TDONE whose decrements all answer. -/
theorem tdone_decrements {a : BitVec 8} {ps : List Machine.Part} {t : State} (ho : OpsOk e crewOnly [⟨a, .any, 2⟩])
    (hl : isVec a = true → e.lanes ≠ []) (hact : e.active ≠ []) (hnew : e.sp.progress = Progress.none)
    (hps : (if isVec a then e.lanes.map (fun l => ⟨[l], e.addr l a 0⟩) else [⟨e.active, e.addr 0 a 0⟩]) = ps)
    (ha : ps.all (goodAddr 8) = true)
    (hd : tdoneLoop e (.tdone m a) ps [] (release e.th.core 2 (opened s)) = .ok [] t) :
    exec (.tdone m a) s = .next (e.done m (.tdone m a) Flow.next (reachBoundary e.tid (modSplit e.tid e.sid (fun sp =>
      { sp with progress := { Progress.none with lanes := partsMask ps } }) t))) := by
  have hserve : ∀ p ∈ ps, ∃ l ∈ p.lanes, l < 64 := hps ▸ tdone_serves hact
  have hmask : Progress.none.lanes ||| partsMask (ps.filter (fun p => !([] : List (Machine.Part × Nat)).any
      (fun b => b.1 == p))) = partsMask ps := by simp [Progress.none]
  refine issue_ok h ?_
  dsimp only
  rw [whenLanes_some hl, checkOps_ok ho, pure_bind, hps, checkAddrs_ok ha, pure_bind, act_bind, hnew,
    none_performed hserve, bind_ok hd, hmask]
  refine (all_performed_bind rfl hserve _).trans ?_
  rfl

end

/-! ## Gangs and adoption (R174, R213, R217 to R219) -/

/-- A body that goes on after a wait and answers for its split itself: what it leaves is the next state. -/
theorem run_gone {s t : State} {e : Env} {m : BitVec 1} {i : Instr} {body : Env → M Machine.Flow} (h : Proceeds s e)
    (hb : body e (opened s) = .error .gone t) : issue m i body s = .next t := run_stop h hb

section
variable {s : State} {e c : Env} (hc : e.afterClose s = c) (m : BitVec 1)
include hc

/-- R213: SETGANG with a value that is not refused. -/
theorem setgang_joins (h : Issues s e) {a : BitVec 8} (ho : OpsOk e crewOnly [⟨a, .scal, 1⟩])
    (hr : gangRefused (closed s e) e.th.core e.th.launch (c.regs.field 0 a) = false) :
    let x := c.regs.field 0 a
    exec (.setgang m a) s = .next (e.done m (.setgang m a) Flow.nextClose
      (wakeLatch e.th.core e.th.launch (gangKey x) (wakeLatch e.th.core e.th.launch (gangKey c.regs.gang)
        (joinGang e.tid e.th.core e.th.launch x
          (emitTo e.tid e.sid [.special 0 0x09 (x.setWidth 64)] 0 (closed s e)))))) := by
  subst hc
  refine issue_ok h ((closing_ok h.1 ho (by simp)).trans ?_)
  simp only [afterClose_tid h.1, afterClose_core h.1, afterClose_launch h.1]
  refine (get_bind _ _).trans ((congrFun (if_neg (Bool.eq_false_iff.mp hr)) _).trans ((emit_bind _ _ _ _ _).trans ?_))
  rw [afterClose_tid h.1, afterClose_sid h.1]
  rfl

/-- R218: OFFER whose services run to their end. -/
theorem offer_counts (h : Issues s e) {d : BitVec 8} {t : State} (ho : OpsOk e crewOnly [⟨d, .vect, 1⟩])
    (hl : c.lanes ≠ []) (hs : serveLanes c d c.lanes (closed s e) = .ok () t) :
    let u := wakeAdopters e.tid t
    let got := match getSplit u e.tid e.sid with | some sp => sp.progress | none => Progress.none
    exec (.offer m d) s = .next (e.done m (.offer m d) Flow.nextClose
      (emitTo e.tid e.sid (c.lanes.map (fun l => regWrite l d (got.countOf l))) 0 u)) := by
  have htid : c.tid = e.tid := hc ▸ afterClose_tid h.1
  have hsid : c.sid = e.sid := hc ▸ afterClose_sid h.1
  refine issue_ok h ((closing_ok h.1 ho fun _ => hc ▸ hl).trans ?_)
  rw [hc, bind_ok hs, act_bind, htid, hsid]
  refine (get_bind _ _).trans ((emit_bind _ _ _ _ _).trans ?_)
  rw [htid, hsid]
  rfl

/-- R217, R219: ADOPTQ whose requests are answered, with aligned addresses and the records that its parts need. -/
theorem adoptq_divides (h : Resumes s e .go) {d a : BitVec 8} {parts : List Branch}
    (ho : OpsOk e crewOnly [⟨d, .vect, 1⟩, ⟨a, .any, 1⟩]) (hl : c.lanes ≠ []) (ha : c.th.answered e.sid = true)
    (hparts : c.th.adoptParts e.sid c.sp = parts)
    (hal : ∀ g ∈ adoptedLanes (c.th.requestsOf e.sid), g.2.toNat % 4 = 0)
    (hp : 2 ≤ parts.length → c.inHandler = false ∧ parts.length ≤ c.th.spare c.sp + 1 ∧
      (c.sp.wait.map Wait.obj = some .records ∨ recordsWanted (closed s e) e.tid = false)) :
    exec (.adoptq m d a) s = .next (divideSplit e.tid e.sid parts
      (modThread e.tid (fun t => { t with requests := t.requests.filter (fun r => r.split != e.sid) })
        (emitTo e.tid e.sid ((c.th.requestsOf e.sid).flatMap (adoptWrites d)) 0 (closed s e)))) := by
  have htid : c.tid = e.tid := hc ▸ afterClose_tid h.1
  have hsid : c.sid = e.sid := hc ▸ afterClose_sid h.1
  have hasked : c.sp.handed.isSome = true := hc ▸ closed_handed h
  have hth : Sparse.find? (closed s e).threads e.tid = some c.th := by
    obtain ⟨_, _, _, ht⟩ := afterClose_split h.1
    rw [ht, hc]
  have hodd : (adoptedLanes (c.th.requestsOf e.sid)).filter (fun g => decide (g.2.toNat % 4 ≠ 0)) = [] :=
    List.filter_eq_nil_iff.mpr fun g hg => by simpa using hal g hg
  have hin : (decide (2 ≤ parts.length) && c.inHandler) = false := by simpa using fun h2 => (hp h2).1
  have hrec : (decide (2 ≤ parts.length) && (decide (c.th.spare c.sp + 1 < parts.length) ||
      (decide (c.sp.wait.map Wait.obj ≠ some .records) && recordsWanted (closed s e) e.tid))) = false := by
    by_cases h2 : 2 ≤ parts.length
    · obtain ⟨-, hroom, hwait | hwait⟩ := hp h2 <;> simp [hwait, hroom]
    · simp [h2]
  refine run_gone (h.proceeds (by simp)) ((closing_ok h.1 ho fun _ => hc ▸ hl).trans ?_)
  simp only [hc, htid, hsid, hasked, Bool.true_or, Bool.not_true, Bool.false_eq_true, if_false]
  refine (get_bind _ _).trans ?_
  simp only [hth, ha, hparts, hodd, hin, hrec, Bool.not_true, Bool.false_eq_true, if_false, List.isEmpty_nil]
  refine (emit_bind _ _ _ _ _).trans ?_
  rw [htid, hsid]
  rfl

end

/-! ## FORK and RDV (R175, R332 to R334, R358 to R360) -/

section
variable {s : State} {e : Env} (m : BitVec 1)

section
variable {d a b : BitVec 8} (ho : OpsOk e [.crew, .scout] [⟨d, .scal, 2⟩, ⟨a, .scal, 2⟩, ⟨b, .scal, 2⟩])
include ho

/-- R359: the FORK of a gang's member goes on after the latch. -/
theorem fork_resumes (h : Resumes s e .go) :
    exec (.fork m d a b) s = .next (e.done m (.fork m d a b) Flow.next (opened s)) := by
  refine run_ok (h.proceeds (by simp)) ?_
  rw [forkChecks, checkOps_ok ho, pure_bind, if_pos (by rw [h.2.1]; rfl)]
  rfl

/-- R358: FORK of an issuer that is in no gang takes its effect at once; SHBANK is read there (log 45). -/
theorem fork_starts {t : State} (h : Issues s e) (hg : e.ganged = false) (hf : forkEffect e d a b (opened s) = .ok () t) :
    exec (.fork m d a b) s = .next (e.done m (.fork m d a b) Flow.next t) := by
  refine issue_ok h ?_
  rw [forkChecks, checkOps_ok ho, pure_bind, if_neg (not_handed h), if_neg (Bool.eq_false_iff.mp hg), bind_ok hf]
  rfl

end

/-- R360: the end of an RDV, its run closed: D, the flags and the acquire. -/
theorem rdvEnd_ok (h : issuer s = some e) (d : BitVec 8) (x fl : Word) (t : State) :
    rdvEnd (e.afterClose s) d x fl t = .ok Flow.nextClose
      (acquire e.th.core e.cid 2 (emitTo e.tid e.sid [regWrite 0 d x.toNat] fl t)) := by
  rw [← afterClose_core h, ← afterClose_cid h, ← afterClose_tid h, ← afterClose_sid h]
  rfl

section
variable {d : BitVec 8} (f : BitVec 2) (ho : OpsOk e [.crew, .scout] [⟨d, .scal, 1⟩])
include ho

/-- R360: RDV of a gang's member gives the result that the latch has handed to it. -/
theorem rdv_resumes {x fl : Word} (h : Resumes s e (.result x fl)) :
    exec (.rdv m d f) s = .next (e.done m (.rdv m d f) Flow.nextClose
      (acquire e.th.core e.cid 2 (emitTo e.tid e.sid [regWrite 0 d x.toNat] fl (closed s e)))) := by
  refine run_ok (h.proceeds (by simp)) ((closing_ok h.1 ho (by simp)).trans ?_)
  rw [afterClose_handed h.1, h.2.1]
  exact rdvEnd_ok h.1 d x fl _

/-- R360: RDV of sequencers that have ended takes their result. -/
theorem rdv_takes {c : Env} (hc : e.afterClose s = c) (h : Issues s e) (hg : c.ganged = false)
    (hb : rdvBusy (closed s e) e.th.core (c.owner (closed s e)) f = false) :
    let r := rdvTake (closed s e) e.th.core (c.owner (closed s e)) f
    exec (.rdv m d f) s = .next (e.done m (.rdv m d f) Flow.nextClose
      (acquire e.th.core e.cid 2 (emitTo e.tid e.sid [regWrite 0 d r.1.toNat] r.2.1 r.2.2))) := by
  subst hc
  refine issue_ok h ((closing_ok h.1 ho (by simp)).trans ?_)
  rw [afterClose_handed h.1, h.2.1]
  refine (congrFun (if_neg (Bool.eq_false_iff.mp hg)) _).trans ((get_bind _ _).trans ?_)
  rw [afterClose_core h.1, if_neg (Bool.eq_false_iff.mp hb)]
  exact rdvEnd_ok h.1 d _ _ _

end
end

/-! ## Launch events (R157, R172, R177, R186, R395, R413 to R417) -/

/-- What the dispatcher makes of the record at a queue's head, by its fate (R413 to R416): it stays, its queue stalls with
an event, or its launch starts and the next record follows. -/
def dispatched (k : Nat) (q : Queue) (s : State) : Fate → State
  | .waits => s
  | .rejected reason => postTo (leadOf s q.part)
      { seq := 0, flg := 0, skind := 5, sidx := 0, type := 2, cid := recNat s (headAt q) 70 2, launch := 0, who := 0,
        arg0 := reason, arg1 := 0 } (consume k true s)
  | .starts l gs => due [.launchRecordDispatch k] (startLaunch (nextLaunch s) l gs (consume k false s))

section
variable {s : State}

/-- R157: CREW_START of the first crew in line, with its banks awake (log 19) and a place on its core. -/
theorem crewStart_starts {k crew : Nat} {l : Launch} (hl : Sparse.find? s.launches k = some l)
    (hline : l.firstInLine crew = true) (hscout : l.record.scout = 0xFFFFFFFF) (hsusp : l.suspended = false)
    (hpart : partRuns s l.part = true) (hawake : banksAwake s l = true) (hmay : mayStart s l (homeCore l crew) = true)
    (hplace : 1 ≤ freePlaces s (homeCore l crew) k l.record) :
    exec (.crewStart k crew) s =
      .next (due (startsAt (startCrew k l crew s) (homeCore l crew)) (startCrew k l crew s)) := by
  refine congrArg Host.Outcome.next ?_
  simp only [hl]
  rw [if_pos (by simp [hline, hscout, hsusp, hpart, hawake, hmay, hplace])]

/-- R177: SHARE_START of a share whose crews all find a place, after the share before it on their core. -/
theorem shareStart_starts {k share c : Nat} {cs : List Nat} {l : Launch} (hl : Sparse.find? s.launches k = some l)
    (hwait : shareWaiting l share = c :: cs) (hline : l.firstInLine c = true) (hheld : shareHeld l share = false)
    (hscout : l.record.scout ≠ 0xFFFFFFFF) (hsusp : l.suspended = false) (hpart : partRuns s l.part = true)
    (hawake : banksAwake s l = true) (hmay : mayStart s l (homeCore l c) = true) (hbusy : shareBusy s k l c = false)
    (hplace : (c :: cs).length ≤ freePlaces s (homeCore l c) k l.record) :
    exec (.shareStart k share) s = .next (startScout k share l ((shareCrews l share).headD c) (c :: cs)
      ((c :: cs).foldl (fun s x => startCrew k l x s) s)) := by
  refine congrArg Host.Outcome.next ?_
  simp only [hl, hwait]
  rw [if_pos (by simp only [hline, hheld, hscout, hsusp, hpart, hawake, hmay, hbusy, hplace, ne_eq, not_false_eq_true,
    decide_true, Bool.not_false, Bool.and_self])]

/-- R206: BARRIER_COMPLETE of a full circle. -/
theorem barrierComplete_completes {k circle : Nat} {c : Machine.Circle}
    (hc : Sparse.find? s.circles (circleKey k circle) = some c) (hfull : c.full = true) :
    exec (.barrierComplete k circle) s = .next (completeBarrier k circle c s) := by
  refine congrArg Host.Outcome.next ?_
  simp only [hc]
  exact if_pos hfull

section
variable {tid sid : Nat} {sp : Split} (hsp : getSplit s tid sid = some sp)
include hsp

/-- R186: WAITER_RELEASE of a split that waits no longer. -/
theorem waiterRelease_activates (h : sp.handed.isSome = true ∨ sp.wait = none) :
    exec (.waiterRelease tid sid) s = .next (activate tid sid s) := by
  refine congrArg Host.Outcome.next ?_
  simp only [hsp]
  rcases h with hh | hw
  · exact if_pos hh
  · rw [hw]
    exact ite_self _

/-- R186: WAITER_RELEASE of a split that still waits examines what it waits for. -/
theorem waiterRelease_examines {w : Wait} (hh : sp.handed = none) (hw : sp.wait = some w) :
    exec (.waiterRelease tid sid) s = .next (examine tid sid sp w s) := by
  refine congrArg Host.Outcome.next ?_
  simp only [hsp, hh, hw]
  exact if_neg Bool.false_ne_true

end

section
variable {k : Nat} {q : Queue} (hq : Sparse.find? s.queues k = some q) (ho : dispatchOpen s q = true)
include hq ho

/-- R412: a queue ahead of this one dispatches first. -/
theorem dispatch_yields {j : Nat} (hj : queueAhead s k = some j) :
    exec (.launchRecordDispatch k) s = .next (due [.launchRecordDispatch j, .launchRecordDispatch k] s) := by
  refine congrArg Host.Outcome.next ?_
  simp only [hq, ho, hj]
  rfl

/-- R413 to R416: what becomes of the record at the head of the first queue. -/
theorem dispatch_decides {fate : Fate} (hj : queueAhead s k = none)
    (hf : fateOf s (nextLaunch s) q.part (headAt q) = fate) :
    exec (.launchRecordDispatch k) s = .next (dispatched k q s fate) := by
  refine congrArg Host.Outcome.next ?_
  simp only [hq, ho, hj, hf]
  cases fate <;> rfl

end

/-- R417: LAUNCH_END of a launch that is done: its context's caches reach memory before the completion word (log 25). -/
theorem launchEnd_ends {k : Nat} {l : Launch} (hl : Sparse.find? s.launches k = some l) (hd : launchDone k s = true) :
    let r := completionWord l.record (flushContext l.record.cid s)
    let t := idleRaises (giveBack l (freeLaunch k (post l.record.cid 5 0 1 l.ident 0 l.requeued (ofBool (!r.1)) r.2)))
    exec (.launchEnd k) s =
      .next (l.mapping.eraseDups.foldl (fun s core => placeFreed core s) (due (waitingQueues t) t)) := by
  refine congrArg Host.Outcome.next ?_
  simp only [hl, hd]
  rfl

/-- R395: IMAGE_SWITCH bakes the launch's image again, and its programs take the fresh words. -/
theorem imageSwitch_switches {k : Nat} {l : Launch} (hl : Sparse.find? s.launches k = some l) :
    exec (.imageSwitch k) s = .next (mapPrograms k (Thread.refresh (rebake l))
      (writeImage k (modLaunch k (fun x => { x with fresh := rebake l }) s))) := by
  refine congrArg Host.Outcome.next ?_
  simp only [hl]

end

end Sys2Proof.Laws

namespace Sys2Proof.Proofs
open Sys2Proof.Machine Sys2Proof.Claims Sys2Proof.Laws

/-- Settles O57: whatever the step has done, the turn that it then gives is that of a split that may
issue (which of them is log 1). -/
theorem turnStaysReady : Obligations.TurnStaysReady := by
  intro s t _ h
  obtain ⟨u, rfl | rfl⟩ := step_chooses h
  · exact pickTurn_ok u
  · exact nextTurn_ok u

/-- R193 to R195: the writes that the split has in the tile-layout unit are drained before it divides (log 43). -/
theorem divergeCompletes : DivergeCompletes := fun _ _ m k o h hk ht =>
  ⟨fun _ => brd_divides h hk rfl m k o ht, brd_whole h hk rfl m k o ht⟩

/-- R166, R196, with the same drain before the wait (log 43). -/
theorem joinCompletes : JoinCompletes := fun _ _ m k h hk =>
  ⟨fun _ => join_waits h hk rfl m k, join_passes h hk rfl m k⟩

/-- Settles O11: BRD, and JOIN. -/
theorem divergeAndJoinComplete : Obligations.DivergeAndJoinComplete := ⟨divergeCompletes, joinCompletes⟩

/-- Settles O15: each word of the family by the lemma about it. -/
theorem barriersComplete : Obligations.BarriersComplete := by
  unfold Obligations.BarriersComplete
  intro s e m k hk hcirc
  have outside (hh : e.th.handler ≠ some e.sid) : e.inHandler = false := decide_eq_false hh
  refine ⟨fun h => ⟨barrier_resumes hk hcirc h m rfl fun _ _ _ hc => if_pos hc,
    barrier_resumes hk hcirc h m rfl fun _ _ _ hc => if_pos hc⟩,
    fun h => bara_resumes hk hcirc h m, fun h hr => ?_, fun h => barw_passes hk hcirc h m⟩
  have hr := Bool.eq_false_iff.mp hr
  exact ⟨⟨bara_arrives hk hcirc h m hr, fun ha hh => bara_waits hk hcirc h m hr (outside hh) ha⟩,
    fun hh => bar_waits hk hcirc h m hr (outside hh)⟩

/-- R181, R208, R209. -/
theorem decisionQueueCompletes : DecisionQueueCompletes := fun _ _ m h =>
  ⟨fun _ ho hroom => dqpush_pushes h m ho hroom,
    fun _ _ ho hf => ⟨dqRead_wrote (pops := true) h m ho hf rfl rfl, dqRead_wrote (pops := false) h m ho hf rfl rfl⟩⟩

/-- R183, R184, R210 to R212. -/
theorem taskWordsComplete : TaskWordsComplete := by
  intro s e m h
  refine ⟨fun a b ho hl => ?_, fun d a ho hl => ?_, fun a t ho hl hact hnew => ?_⟩
  · intro rs ha hr r hp
    exact spawn_stores h m ho hl rfl ha (Prod.ext hr rfl) (Prod.ext hp rfl)
  · intro q hq t hn
    exact qpop_pops h m ho hl rfl hq (Prod.eta _).symm hn (Prod.eta _).symm
  · intro ps ha hd
    exact tdone_decrements h m ho hl hact hnew rfl ha hd

/-- Settles O16: the decision queue, and the task queues. -/
theorem decisionQueueAndTaskWordsComplete : Obligations.DecisionQueueAndTaskWordsComplete :=
  ⟨decisionQueueCompletes, taskWordsComplete⟩

/-- R174, R213. -/
theorem gangCompletes : GangCompletes := fun _ _ m _ h ho hr => setgang_joins rfl m h ho hr

/-- R217 to R219. -/
theorem adoptionCompletes : AdoptionCompletes := fun _ _ m =>
  ⟨fun _ _ h ho hl hs => offer_counts rfl m h ho hl hs,
    fun _ _ h ho hl ha hal hp => adoptq_divides rfl m h ho hl ha rfl hal hp⟩

/-- Settles O17: SETGANG, then OFFER and ADOPTQ. -/
theorem gangAndAdoptionComplete : Obligations.GangAndAdoptionComplete := ⟨gangCompletes, adoptionCompletes⟩

/-- Settles O28: each word where its latch has let it go on, and outside of a gang. -/
theorem sequencerWordsComplete : Obligations.SequencerWordsComplete := by
  unfold Obligations.SequencerWordsComplete
  exact fun s e m => ⟨fun d a b ho => ⟨fork_resumes m ho, fun t h hg hf => fork_starts m ho h hg hf⟩,
    fun d f ho => ⟨fun x fl h => rdv_resumes m f ho h, fun h hg hb => rdv_takes m f ho rfl h hg hb⟩⟩

/-- Settles O31: the events in their order; a record is dispatched by its fate. -/
theorem launchEventsComplete : Obligations.LaunchEventsComplete := by
  unfold Obligations.LaunchEventsComplete
  intro s
  refine ⟨fun k crew l => crewStart_starts, fun k share c cs l => shareStart_starts,
    fun k circle c => barrierComplete_completes,
    fun tid sid sp hsp => ⟨waiterRelease_activates hsp, fun w => waiterRelease_examines hsp⟩, fun k q hq ho => ?_,
    fun k l => launchEnd_ends, fun k l => imageSwitch_switches⟩
  exact ⟨fun j => dispatch_yields hq ho, dispatch_decides hq ho, fun l gs => dispatch_decides hq ho,
    fun reason => dispatch_decides hq ho⟩

end Sys2Proof.Proofs
end

/-! PROOFS. Parallel instructions: the shuffles (R198), the votes, BALLOT, FIRSTLANE and MBCNT (R199), and RSUM and SCANS
(R200 to R204). The first part says once what each word comes to; the second assembles the obligation. -/

namespace Sys2Proof.Laws
open Sys2Proof.Machine Sys2Proof.Claims

/-! ## Shuffles (R198) -/

section
variable {s : State} {e : Env} (m : BitVec 1) {d a : BitVec 8} (hl : e.lanes ≠ [])
include hl

section
variable {b : BitVec 8} (h : CrewReady s e [⟨d, .vect, 1⟩, ⟨a, .vect, 1⟩, ⟨b, .any, 1⟩])
include h

theorem shfl_gives : Gives e s (.shfl m d a b) m d 1 (fun l =>
    ((e.regs.vec (heard e l (e.regs.field l b).toNat) a.toNat).toNat, 0)) :=
  shuffle_gives ⟨_, rfl, rfl⟩ h.1 h.2 hl rfl

/-- The low six bits of B say in which bits of its number the lane that is read differs from l. -/
theorem shflx_gives : Gives e s (.shflx m d a b) m d 1 (fun l =>
    ((e.regs.vec (heard e l (l ^^^ (e.regs.field l b).toNat % 64)) a.toNat).toNat, 0)) :=
  shuffle_gives ⟨_, rfl, rfl⟩ h.1 h.2 hl rfl

end

section
variable (n : BitVec 6) (h : CrewReady s e [⟨d, .vect, 1⟩, ⟨a, .vect, 1⟩])
include h

/-- A lane below the distance names no lane. -/
theorem shflup_gives : Gives e s (.shflup m d a n) m d 1 (fun l =>
    ((e.regs.vec (if n.toNat ≤ l then heard e l (l - n.toNat) else l) a.toNat).toNat, 0)) := by
  refine shuffle_gives ⟨_, rfl, rfl⟩ h.1 h.2 hl (funext fun l => ?_)
  by_cases hn : n.toNat ≤ l
  · rw [if_pos hn, if_pos hn]
    rfl
  · rw [if_neg hn, if_neg hn]

theorem shfldn_gives : Gives e s (.shfldn m d a n) m d 1 (fun l =>
    ((e.regs.vec (heard e l (l + n.toNat)) a.toNat).toNat, 0)) :=
  shuffle_gives ⟨_, rfl, rfl⟩ h.1 h.2 hl rfl

end
end

/-- The type of a reduction is the run's TYPE. -/
theorem reduceTy_of {e : Env} {ty : ElemType} (ht : elemType e.type = some ty) : e.reduceTy = ty := by
  simp [Env.reduceTy, ht]

/-! ## Votes and reductions (R199 to R204) -/

section
variable {s : State} {e : Env} (h : Issues s e)
include h

/-- A word that the guard does not govern, once its checks pass, emits its results and goes on. -/
theorem emits_wrote {m : BitVec 1} {i : Instr} {who : List Kind} {ops : List Opnd} {ws : List RegWrite}
    {fl : Word} {body : Env → M Machine.Flow} (hx : exec i s = issue m i body s)
    (hb : body e = checkOps e who false ops false >>= fun _ => emit e ws fl >>= fun _ => pure Flow.next)
    (ho : OpsOk e who ops) : exec i s = .next (e.wrote m i ws fl (opened s)) := by
  refine hx.trans (issue_ok h ?_)
  rw [hb, checkOps_ok ho, pure_bind, emit_bind]
  rfl

variable (m : BitVec 1) {d a : BitVec 8}

/-! ### Votes (R199) -/

/-- VOTEALL and VOTEANY: one truth value for every active lane. -/
theorem vote_wrote {i : Instr} {p : BitVec 3} {x : Bool} {body : Env → M Machine.Flow} (hk : e.th.kind = .crew)
    (hx : exec i s = issue m i body s) (hb : body e = vote e p x) :
    exec i s = .next (e.wrote m i (e.active.map (fun l => .pred l p.toNat x)) 0 (opened s)) :=
  emits_wrote h hx hb ⟨List.mem_singleton.mpr hk, by simp⟩

theorem ballot_wrote (ho : OpsOk e crewOnly [⟨d, .any, 2⟩]) :
    exec (.ballot m d) s = .next (e.wrote m (.ballot m d)
      ((if isVec d then e.active else [0]).flatMap (fun l => regWrites l d (maskOf e.lanes).toNat 2)) 0 (opened s)) :=
  emits_wrote h rfl rfl ho

section
variable (ho : OpsOk e crewOnly [⟨d, .any, 1⟩, ⟨a, .vect, 1⟩])
include ho

/-- FIRSTLANE without a guarded lane writes nothing. -/
theorem firstlane_done (hl : e.lanes = []) :
    exec (.firstlane m d a) s = .next (e.done m (.firstlane m d a) Flow.next (opened s)) := by
  refine issue_ok h ?_
  rw [checkOps_ok ho, pure_bind, hl]
  rfl

theorem firstlane_wrote {l : Nat} {ls : List Nat} (hl : e.lanes = l :: ls) :
    exec (.firstlane m d a) s = .next (e.wrote m (.firstlane m d a)
      ((if isVec d then e.active else [0]).flatMap (fun k => regWrites k d (e.regs.field l a).toNat 1)) 0 (opened s)) := by
  refine emits_wrote h rfl ?_ ho
  rw [hl]
  rfl

end

/-- MBCNT is governed by the guard. -/
theorem mbcnt_gives (ho : OpsOk e crewOnly [⟨d, .vect, 1⟩, ⟨a, .any, 2⟩]) (hl : e.lanes ≠ []) :
    Gives e s (.mbcnt m d a) m d 1 (fun l => (popLow (e.regs.pair l a).toNat l, 0)) := by
  refine issue_ok h ?_
  rw [whenLanes_of_lanes hl, checkOps_ok ho, pure_bind, emitLanes_ok]

/-! ### Reductions (R200 to R204) -/

section
variable {ty : ElemType} (f : BitVec 1) (ht : elemType e.type = some ty) (hr : reduceType ty = true)
  (ho : OpsOk e crewOnly [⟨d, .vect, 1⟩, ⟨a, .vect, 1⟩])
include ht hr ho

/-- R201, R203; RSUM completes at issue (log 38). -/
theorem rsum_wrote : exec (.rsum m d a f) s = .next (e.wrote m (.rsum m d a f)
    ((e.active.filter (fun l => f = 0#1 || l = 0)).map (fun l => regWrite l d (joinElems ty.b (rsumHalf e ty a) ty.n).1))
    (joinElems ty.b (rsumHalf e ty a) ty.n).2 (opened s)) := by
  refine emits_wrote h rfl ?_ ho
  rw [typeBad_of ht hr, reduceTy_of ht]

/-- R202, R203; SCANS completes at issue (log 38). -/
theorem scans_wrote :
    let rs := (List.range ty.n).map (scanHalf e ty a)
    let at_ (h i : Nat) : Nat := if f = 0#1 then ((rs.getD h []).getD i (0, 0)).1
      else if i = 0 then 0 else ((rs.getD h []).getD (i - 1) (0, 0)).1
    exec (.scans m d a f) s = .next (e.wrote m (.scans m d a f)
      (e.active.map (fun l => regWrite l d (joinElems ty.b (fun h => (at_ h l, 0)) ty.n).1))
      (rs.flatten.foldl (fun fl r => fl ||| r.2) 0) (opened s)) := by
  refine emits_wrote h rfl ?_ ho
  rw [typeBad_of ht hr, reduceTy_of ht]

end
end

end Sys2Proof.Laws

namespace Sys2Proof.Proofs
open Sys2Proof.Machine Sys2Proof.Claims Sys2Proof.Laws

/-- R198: the four words differ in the lane that they name. -/
theorem shufflesComplete : ShufflesComplete := fun _ _ m _ _ hl _ =>
  ⟨fun _ h => ⟨shfl_gives m hl h, shflx_gives m hl h⟩, fun n h => ⟨shflup_gives m hl n h, shfldn_gives m hl n h⟩⟩

/-- R199. -/
theorem votesComplete : VotesComplete := fun _ _ m h hk =>
  ⟨fun _ => ⟨vote_wrote h m hk rfl rfl, vote_wrote h m hk rfl rfl⟩, fun _ ho => ballot_wrote h m ho,
    fun _ _ ho => ⟨firstlane_done h m ho, fun _ _ hl => firstlane_wrote h m ho hl⟩,
    fun _ _ ho hl => mbcnt_gives h m ho hl⟩

/-- R200 to R203; both words complete at issue, where R204 lets them wait for a pass of the matrix engine (log 38). -/
theorem reductionsComplete : ReductionsComplete := fun _ _ _ m _ _ f h ht hr ho =>
  ⟨rsum_wrote h m f ht hr ho, scans_wrote h m f ht hr ho⟩

/-- Settles O14: the shuffles, the votes, and the reductions. -/
theorem shufflesVotesReductionsComplete : Obligations.ShufflesVotesReductionsComplete :=
  ⟨shufflesComplete, votesComplete, reductionsComplete⟩

end Sys2Proof.Proofs

/-! PROOFS. The levels of memory: main memory, scratch banks, caches and fences, samples and FIFOs, tiles, coherence, Lantern
cores, and the requests and registers of the host (O22, O24 to O26, O32 to O34, O37, O38, O53, O54, O58). -/

namespace Sys2Proof.Laws
open Sys2Proof.Machine Sys2Proof.Claims

/-! ## Main memory (R236, R301) -/

section
variable {s : State} (h : s.memOk)
include h

theorem physWriteByte_read_other {pa a : Nat} (x : Byte) (ha : a ≠ pa) :
    Memory.read (physWriteByte s pa x).mem a = Memory.read s.mem a := by
  unfold physWriteByte
  split
  · exact Memory.read_write_other x h ha
  · rfl

theorem physWriteByte_read_same {pa : Nat} (x : Byte) (hl : linesOf s (pa / 128) = []) :
    Memory.read (physWriteByte s pa x).mem pa = x := by
  unfold physWriteByte
  rw [hl]
  exact Memory.read_write_same pa x h

theorem physWrite_read_other {pa a : Nat} (xs : List Byte) (ha : ¬ (pa ≤ a ∧ a < pa + xs.length)) :
    Memory.read (physWrite s pa xs).mem a = Memory.read s.mem a := by
  induction xs generalizing s pa with
  | nil => rfl
  | cons x xs ih =>
    rw [List.length_cons] at ha
    exact (ih (physWriteByte_memOk pa x h) (by omega)).trans (physWriteByte_read_other h x (by omega))

theorem physWrite_read_written {pa k : Nat} {x : Byte} {xs : List Byte} (hx : xs[k]? = some x)
    (hl : linesOf s ((pa + k) / 128) = []) : Memory.read (physWrite s pa xs).mem (pa + k) = x := by
  induction xs generalizing s pa k with
  | nil => cases hx
  | cons y xs ih =>
    cases k with
    | zero =>
      obtain rfl : y = x := Option.some.inj hx
      exact (physWrite_read_other (physWriteByte_memOk pa y h) xs (by omega)).trans (physWriteByte_read_same h y hl)
    | succ k =>
      have hk : pa + (k + 1) = pa + 1 + k := by omega
      rw [hk] at hl ⊢
      exact ih (physWriteByte_memOk pa y h) hx (physByte_lines s pa y _ hl)

end

/-! ## Reset (R429) -/

theorem reset_turnOk : TurnOk State.reset := by
  intro tid sid h
  have : State.reset.turn = none := rfl
  rw [this] at h
  cases h

/-! ## Scratch (R229 to R231, R270, R271) -/

/-- The parts of STS: one for all lanes under a scalar address, else one per lane. -/
abbrev stsParts (e : Env) (a o : BitVec 8) : List Machine.Part :=
  if !isVec a then [⟨e.lanes, e.scratchAddr 0 a o⟩] else e.lanes.map (fun l => ⟨[l], e.scratchAddr l a o⟩)

/-- The parts of LDS: one for the active lanes when D is scalar, else as for STS. -/
abbrev ldsParts (e : Env) (d a o : BitVec 8) : List Machine.Part :=
  if !isVec d then [⟨e.active, e.scratchAddr 0 a o⟩] else stsParts e a o

section
variable {s t : State} {e : Env} (m : BitVec 1) {d a o : BitVec 8} (h : Issues s e)
include h

theorem sts_done (hl : e.lanes ≠ []) (ho : OpsOk e crewOnly [⟨d, .any, 1⟩, ⟨a, .any, 1⟩])
    (hp : ∀ p ∈ stsParts e a o, p.va < spadOf (opened s) e.th.launch ∧ p.va % 4 = 0)
    (hn : needScratch e (.sts m d a o) (stsParts e a o) (opened s) = .ok () t) :
    exec (.sts m d a o) s =
      .next (e.done m (.sts m d a o) Machine.Flow.next ((stsParts e a o).foldl (scratchStore e d) t)) := by
  refine issue_ok h ?_
  rw [whenLanes_of_lanes hl, checkOps_ok ho, pure_bind]
  exact (bind_ok (checkScratch_ok hp) _).trans (bind_ok hn _)

/-- R231, R271: a word that was not written is logged under SPADCHK 0. -/
theorem lds_wrote (hl : e.takes d) (ho : OpsOk e crewOnly [⟨d, .any, 1⟩, ⟨a, if isVec d then .any else .scal, 1⟩])
    (hp : ∀ p ∈ ldsParts e d a o, p.va < spadOf (opened s) e.th.launch ∧ p.va % 4 = 0)
    (hn : needScratch e (.lds m d a o) (ldsParts e d a o) (opened s) = .ok () t)
    (hu : e.spadchk = false ∨ (ldsParts e d a o).filter (fun p => !scratchValid e t p) = []) :
    exec (.lds m d a o) s = .next (e.wrote m (.lds m d a o)
      ((ldsParts e d a o).flatMap (fun p => loadResults d 1 p (scratchWord e t p))) 0
      (((ldsParts e d a o).filter (fun p => !scratchValid e t p)).foldl
        (fun s p => logUnwritten e.th.launch p.va s) t)) := by
  have hc : (e.spadchk && !((ldsParts e d a o).filter (fun p => !scratchValid e t p)).isEmpty) = false := by
    rcases hu with hu | hu
    · rw [hu]; rfl
    · rw [hu]; exact Bool.and_false _
  refine issue_ok h ?_
  rw [whenLanes_takes hl, checkOps_ok ho, pure_bind]
  refine (bind_ok (checkScratch_ok hp) _).trans ((bind_ok hn _).trans ((get_bind _ _).trans ?_))
  rw [hc]
  rfl

end

/-- A word in the middle of its run that emits nothing leaves the registers and memory as it finds them. -/
theorem done_mid_keeps {s v : State} {e : Env} (h : Issues s e) (hc : e.sp.run.count + 1 < 64)
    (hv : v.threads = (opened s).threads) (i : Instr) :
    ∃ t, Sparse.find? (e.done 0#1 i Machine.Flow.next v).threads e.tid = some t ∧ t.regs = e.th.regs ∧
      (e.done 0#1 i Machine.Flow.next v).mem = v.mem ∧ (e.done 0#1 i Machine.Flow.next v).l2 = v.l2 ∧
      (e.done 0#1 i Machine.Flow.next v).clusters = v.clusters := by
  obtain ⟨sp, -, -, ht, hs, he, -, -⟩ := issuer_inv h.1
  rw [← hv] at ht
  rw [he, anew_run] at hc
  rw [done_mid ht hs hc rfl]
  exact ⟨_, modSplit_find _ ht hs, rfl, rfl, rfl, rfl⟩

end Sys2Proof.Laws

namespace Sys2Proof.Proofs
open Sys2Proof.Machine Sys2Proof.Claims Sys2Proof.Laws

/-- Settles O54: by induction on the bytes of the write. -/
theorem memoryReadsWrites : Obligations.MemoryReadsWrites := fun _ pa xs h =>
  ⟨physWrite_memOk pa xs h, fun _ => physWrite_read_other h xs, fun _ _ => physWrite_read_written h⟩

/-- Settles O22: LDS, then STS. -/
theorem scratchAccessesComplete : Obligations.ScratchAccessesComplete := fun _ _ m _ _ _ _ h =>
  ⟨fun hl ho hp hn hu => lds_wrote m h hl ho hp hn hu, fun hl ho hp hn => sts_done m h hl ho hp hn⟩

/-- Settles O53: the banks are touched, then the words stored, and both keep `SpadInv` outside of the words stored; the
word itself only moves its split on. -/
theorem scratchStoreFrame : Obligations.ScratchStoreFrame := by
  intro s e d a o h hl ho hc hops cl ps at_ hp hpwr hwf
  obtain ⟨hmem, hl2, hcl⟩ := opened_keeps s
  have hbank (b : Nat) : getBank (opened s) cl b = getBank s cl b := getBank_congr hcl cl b
  have hinit : SpadInv (opened s) (opened s) cl (fun b x => ∃ p ∈ ps, (at_ p).1 = b ∧ (at_ p).2 ≤ x ∧ x < (at_ p).2 + 4) :=
    ⟨rfl, rfl, rfl, rfl, fun _ _ => rfl, rfl, fun _ => rfl, fun b => by rw [hbank]; exact hwf b, fun _ _ _ => rfl⟩
  obtain ⟨t, hn, ht⟩ := need_ok (i := .sts 0#1 d a o) rfl ps _ hinit (fun p hm => by rw [hbank]; exact hpwr p hm)
  have hv := spad_stores (d := d) rfl ps t ht (fun p hm => ⟨(hp p hm).2, fun x hx => ⟨p, hm, rfl, hx⟩⟩)
  obtain ⟨t', ht', hregs, hm, hl', hcs⟩ := done_mid_keeps h hc hv.threads (.sts 0#1 d a o)
  have hother (k : Nat) (hk : k ≠ cl) : getCluster (e.done 0#1 (.sts 0#1 d a o) Machine.Flow.next
      (ps.foldl (scratchStore e d) t)) k = getCluster s k := by
    rw [getCluster_congr hcs, hv.others k hk, getCluster_congr hcl]
  refine ⟨_, t', sts_done 0#1 h hl hops hp hn, ⟨hm.trans (hv.mem.trans hmem), hl'.trans (hv.l2.trans hl2), fun k => ?_⟩,
    ht', hregs, hother, fun b x hx => ?_⟩
  · by_cases hk : k = cl
    · rw [hk, getCluster_congr hcs, hv.cache, getCluster_congr hcl]
    · rw [hother k hk]
  · rw [getBank_congr hcs, hv.bytes b x (fun ⟨p, hm, hb, hx'⟩ => hx p hm hb hx'), hbank]

/-- Settles O58: each value as `State.reset` lists it (the empty agenda is log 6, memory that reads zero log 59). -/
theorem resetState : Obligations.ResetState :=
  ⟨reset_memOk, reset_turnOk, fun _ => rfl, rfl, rfl, rfl, rfl, fun _ _ => rfl⟩

end Sys2Proof.Proofs

namespace Sys2Proof.Laws
open Sys2Proof.Machine Sys2Proof.Claims

/-! ## FENCE, PFENCE, CWB, CINV, CFLUSH and PREF (R278 to R283) -/

section
variable {s : State} {e : Env} (m : BitVec 1) (h : Issues s e)
include h

theorem fence_acts {p : BitVec 1} {k : BitVec 2} (hp : p = 0#1 ∨ 2 ≤ k.toNat ∨ e.scope < 2 ∨ e.th.kind ≠ .crew) :
    exec (.fence m p k) s = .next (e.done m (.fence m p k) Machine.Flow.next
      (fenceActs e.th.core e.cid e.scope k.toNat (opened s))) := by
  have hc : ¬ (p = 1#1 && decide (k.toNat < 2) && decide (2 ≤ e.scope) && decide (e.th.kind = .crew)) = true := by
    simp only [Bool.and_eq_true, decide_eq_true_eq]
    rintro ⟨⟨⟨rfl, hk⟩, hsc⟩, hcrew⟩
    rcases hp with hp | hp | hp | hp
    · cases hp
    · omega
    · omega
    · exact hp hcrew
  refine issue_ok h ?_
  rw [any_ops, pure_bind, if_neg hc]
  rfl

/-- R279: a speculative fence closes its run and opens a checkpoint. -/
theorem fence_speculates {k : BitVec 2} (hk : k.toNat < 2) (hsc : 2 ≤ e.scope) (hcrew : e.th.kind = .crew) :
    exec (.fence m 1#1 k) s = .next (e.done m (.fence m 1#1 k) Machine.Flow.nextClose
      (openSpec (e.afterClose s) k.toNat (closed s e))) := by
  refine issue_ok h ?_
  rw [any_ops, pure_bind, if_pos (by simp [hk, hsc, hcrew]), closeFirst_bind h.1]
  rfl

theorem pfence_acts (p : BitVec 7) (hk : e.th.kind = .crew) :
    exec (.pfence m p) s = .next (e.done m (.pfence m p) Machine.Flow.next
      ((List.range 7).foldl (fun s i => if p.getLsbD i then pathFence e i s else s) (opened s))) := by
  refine issue_ok h ?_
  rw [crew_ops hk, pure_bind]
  rfl

/-- R282: CWB, CINV and CFLUSH act at the cluster, and from device scope at the L2. -/
theorem cacheControl_acts {i : Instr} {op : CacheOp} {d a : BitVec 8}
    (hx : exec i s = issue m i (fun e => cacheControl e op d a) s)
    (ho : OpsOk e crewOnly [⟨d, .scal, 1⟩, ⟨a, .scal, 2⟩])
    (hr : rangeOk (e.addr 0 a 0) (max (e.regs.field 0 d).toNat 1) = true) :
    let n := max (e.regs.field 0 d).toNat 1
    let t := cacheCluster op (clusterOf e.th.core) e.cid (e.addr 0 a 0) n (opened s)
    exec i s = .next (e.done m i Machine.Flow.next
      (if 2 ≤ e.scope then cacheL2 op e.scope (dieOf e.th.core) e.cid (e.addr 0 a 0) n t else t)) := by
  refine hx.trans (issue_ok h ?_)
  unfold cacheControl
  rw [checkOps_ok ho, pure_bind]
  refine (congrFun (if_neg (by simpa using hr)) _).trans ?_
  rw [act_bind]
  by_cases hsc : 2 ≤ e.scope
  · rw [if_pos hsc, if_pos hsc]
    rfl
  · rw [if_neg hsc, if_neg hsc]
    rfl

/-- R283: a vector A names an address per lane, a scalar one a single address. -/
theorem pref_acts {a : BitVec 8} (ho : OpsOk e anyKind [⟨a, .any, 2⟩]) :
    exec (.pref m a) s = .next (e.done m (.pref m a) Machine.Flow.next
      ((if isVec a then e.lanes.map (fun l => e.addr l a 0) else [e.addr 0 a 0]).foldl
        (fun s va => prefetch (clusterOf e.th.core) e.cid e.hint va s) (opened s))) := by
  by_cases hl : isVec a = true ∧ e.lanes = []
  · refine issue_ok h ?_
    rw [hl.1, whenLanes_none hl.2, hl.2]
    rfl
  · refine issue_ok h ?_
    rw [whenLanes_some fun hv hn => hl ⟨hv, hn⟩, checkOps_ok ho, pure_bind]
    rfl

/-! ## PIN and UNPIN (R237, R284, R285) -/

section
variable {d a : BitVec 8} (ho : OpsOk e crewOnly [⟨d, .scal, 2⟩, ⟨a, .scal, 2⟩]) (hn : (e.regs.field 0 d).toNat ≠ 0)
  (hr : rangeOk (e.addr 0 a 0) (e.regs.field 0 d).toNat = true)
include ho hn hr

theorem pin_full (hf : freePin (opened s) (dieOf e.th.core) = none) :
    exec (.pin m d a) s = .next (e.wrote m (.pin m d a)
      [regWrite 0 d (rangeLines (e.addr 0 a 0) (e.regs.field 0 d).toNat).length, regWrite 0 (d + 1) 0xFFFFFFFF] 0
      (opened s)) := by
  refine issue_ok h ?_
  rw [checkOps_ok ho, pure_bind]
  refine (congrFun (if_neg hn) _).trans ((congrFun (if_neg (by simpa using hr)) _).trans ((get_bind _ _).trans ?_))
  rw [hf]
  rfl

theorem pin_takes {w : Nat} {held : List Nat} {lost : Nat} {u t : State}
    (hf : freePin (opened s) (dieOf e.th.core) = some w)
    (hfill : pinFills (dieOf e.th.core) e.cid (rangeLines (e.addr 0 a 0) (e.regs.field 0 d).toNat) [] (opened s) = (none, u))
    (hpin : pinLines (dieOf e.th.core) e.cid (rangeLines (e.addr 0 a 0) (e.regs.field 0 d).toNat) ([], 0, u) =
      (held, lost, t)) :
    let load := if (e.regs.field 0 (d + 1)).toNat % 256 = 0 then 255 else (e.regs.field 0 (d + 1)).toNat % 256
    exec (.pin m d a) s = .next (e.wrote m (.pin m d a) [regWrite 0 d lost, regWrite 0 (d + 1) w] 0
      (after Config.pinTick (.pinFadeTick (dieOf e.th.core) w) { t with
        pins := Sparse.put t.pins (64 * dieOf e.th.core + w)
          { cid := e.cid, base := e.addr 0 a 0, size := (e.regs.field 0 d).toNat, fade := load, load := load,
            touched := false, lines := held } })) := by
  refine issue_ok h ?_
  rw [checkOps_ok ho, pure_bind]
  refine (congrFun (if_neg hn) _).trans ((congrFun (if_neg (by simpa using hr)) _).trans ((get_bind _ _).trans ?_))
  rw [hf]
  refine (ask_bind _ _ _).trans ?_
  rw [hfill]
  refine (get_bind _ _).trans ?_
  rw [hpin]
  rfl

end

theorem unpin_acts {a : BitVec 8} (ho : OpsOk e crewOnly [⟨a, .scal, 2⟩]) :
    exec (.unpin m a) s = .next (e.done m (.unpin m a) Machine.Flow.next
      (match List.find? (fun (kp : Nat × Pin) => kp.1 / 64 == dieOf e.th.core && kp.2.cid == e.cid
          && kp.2.base == e.addr 0 a 0) (opened s).pins with
       | some kp => dropPin kp.1 (opened s)
       | none => opened s)) := by
  refine issue_ok h ?_
  rw [checkOps_ok ho, pure_bind]
  rfl

end

end Sys2Proof.Laws

namespace Sys2Proof.Proofs
open Sys2Proof.Machine Sys2Proof.Claims Sys2Proof.Laws

/-- R278 to R283. -/
theorem fencesAndCachesComplete : FencesAndCachesComplete := fun _ _ m h =>
  ⟨fun _ _ hp => fence_acts m h hp, fun _ hk hsc hc => fence_speculates m h hk hsc hc, fun p hk => pfence_acts m h p hk,
    fun _ _ ho hr => ⟨cacheControl_acts m h rfl ho hr, cacheControl_acts m h rfl ho hr, cacheControl_acts m h rfl ho hr⟩,
    fun _ ho => pref_acts m h ho⟩

/-- R237, R284, R285. -/
theorem pinsComplete : PinsComplete := fun _ _ m h =>
  ⟨fun _ _ ho hn hr => ⟨pin_full m h ho hn hr, fun _ _ _ _ _ hf hfill hpin => pin_takes m h ho hn hr hf hfill hpin⟩,
    fun _ ho => unpin_acts m h ho⟩

/-- Settles O24: the fences and cache words, then PIN and UNPIN. -/
theorem fencesCachesPinsComplete : Obligations.FencesCachesPinsComplete := ⟨fencesAndCachesComplete, pinsComplete⟩

end Sys2Proof.Proofs

namespace Sys2Proof.Laws
open Sys2Proof.Machine Sys2Proof.Claims

/-! ## SAMPLE (R286) -/

section
variable {s : State} {e : Env} (m : BitVec 1) (h : Issues s e)
include h

theorem sample_accessed {d a b : BitVec 8} {sh : Shape} {t u : State} {prog : Progress} (hl : e.lanes ≠ [])
    (ho : OpsOk e crewOnly [⟨d, .vect, 1⟩, ⟨a, .scal, 2⟩, ⟨b, .any, 2⟩])
    (hsh : readShape e e.lanes (e.addr 0 a 0) (opened s) = .ok sh t) (hok : sh.ok = true)
    (hform : engineForm sh.elem = false)
    (ha : (e.lanes.map (fun l => (⟨[l], sampleAddr e sh b l⟩ : Machine.Part))).all (goodAddr (elemBytes sh.elem)) = true)
    (hp : PartsAnswer e (e.lanes.map (fun l => (⟨[l], sampleAddr e sh b l⟩ : Machine.Part))) (samplePart e d sh) t prog u) :
    exec (.sample m d a b) s = .next (e.accessed m (.sample m d a b) prog u) := by
  refine issue_ok h ?_
  rw [whenLanes_of_lanes hl, checkOps_ok ho, pure_bind]
  refine (bind_ok hsh _).trans ((congrFun (if_neg (by simp [hok, hform])) _).trans ?_)
  rw [checkAddrs_ok ha, pure_bind, runParts_bind hp]
  rfl

end

/-! ## The FIFO words (R272, R273) -/

theorem needBank_ok {s : State} {cl b : Nat} (hp : (getBank s cl b).pwr = .active) (i : Instr) :
    needBank cl b i s = .ok () (touchBank cl b s) := if_pos hp

/-- A touched bank holds what it held. -/
theorem getBank_touchBank_fifo (s : State) (cl b : Nat) :
    (getBank (touchBank cl b s) cl b).fifo = (getBank s cl b).fifo ∧
      (getBank (touchBank cl b s) cl b).capacity = (getBank s cl b).capacity := by
  unfold touchBank
  rw [getBank_congr (scheduleOnce_clusters _ _ _), getBank_modBank]
  exact ⟨rfl, rfl⟩

/-- A pop that finds no poisoned entry goes on with what it finds (R273, R352). -/
theorem popEntry_then {β : Type} {s u : State} {cl b : Nat} {x : Option Entry} (hpop : popEntry cl b s = (x, u))
    (hx : ∀ y, x = some y → y.poison = false) (stop : M β) (k : Option Entry → M β) :
    ((get : M State) >>= fun s => if headPoison s cl b then stop else ask (popEntry cl b) >>= k) s = k x u := by
  have hhead : headPoison s cl b = false := by
    unfold headPoison
    cases hf : (getBank s cl b).fifo with
    | nil => rfl
    | cons y ys =>
      cases hw : (fifoWaiters s cl b true).isEmpty with
      | false => exact Bool.and_false _
      | true =>
        have hsome : x = some y := by
          refine (congrArg Prod.fst hpop).symm.trans ?_
          unfold popEntry takeEntry
          rw [if_pos hw, hf]
        exact (Bool.and_true _).trans (hx y hsome)
  rw [get_bind, hhead]
  refine (ask_bind _ _ _).trans ?_
  rw [hpop]

theorem popTo_emits {y : Entry} (hy : y.poison = false) (e : Env) (cl b : Nat) (d : BitVec 8) :
    popTo e cl b d y = emit e (e.lanes.map (fun l => regWrite l d (leNat ((y.bytes.drop (4 * l)).take 4)))) 0 := by
  unfold popTo
  rw [hy]
  rfl

/-- A names an active FIFO bank of the launch whose entries fit the crew (R272). -/
structure OwnFifo (s : State) (e : Env) (a : BitVec 8) : Prop where
  lt : (e.regs.field 0 a).toNat < 64
  mode : (getBank s (clusterOf e.th.core) ((e.regs.field 0 a).toNat % 64)).mode = .fifo
  owner : (getBank s (clusterOf e.th.core) ((e.regs.field 0 a).toNat % 64)).owner = some e.th.launch
  size : (getBank s (clusterOf e.th.core) ((e.regs.field 0 a).toNat % 64)).entryBytes = 4 * e.th.width
  pwr : (getBank s (clusterOf e.th.core) ((e.regs.field 0 a).toNat % 64)).pwr = .active

/-- The state once a FIFO word has touched its bank. -/
def fifoTouched (e : Env) (a : BitVec 8) (s : State) : State :=
  touchBank (clusterOf e.th.core) (e.regs.field 0 a).toNat s

/-- What FPOP and FTRYPOP write to D of an entry. -/
abbrev popWrites (e : Env) (d : BitVec 8) (y : Entry) : List RegWrite :=
  e.lanes.map (fun l => regWrite l d (leNat ((y.bytes.drop (4 * l)).take 4)))

/-- The checks of R272 pass, and the bank is touched. -/
theorem OwnFifo.then {β : Type} {s : State} {e : Env} {a : BitVec 8} (hf : OwnFifo s e a) (i : Instr) (k : Nat → M β) :
    (fifoBank e a >>= fun b => needBank (clusterOf e.th.core) b i >>= fun _ => k b) s =
      k (e.regs.field 0 a).toNat (fifoTouched e a s) := by
  obtain ⟨hlt, hmode, hown, hsize, hpwr⟩ := hf
  refine (bind_ok (fifoBank_ok hlt hmode hown hsize) _).trans (bind_ok (needBank_ok ?_ i) _)
  rwa [Nat.mod_eq_of_lt hlt] at hpwr

section
variable {s u : State} {e : Env} (m : BitVec 1) {d a : BitVec 8} (h : Issues s e) (hf : OwnFifo (opened s) e a)
  (ho : OpsOk e crewOnly [⟨d, .vect, 1⟩, ⟨a, .scal, 1⟩])
include h hf ho

theorem fpush_gives
    (hroom : (getBank (opened s) (clusterOf e.th.core) ((e.regs.field 0 a).toNat % 64)).fifo.length <
      (getBank (opened s) (clusterOf e.th.core) ((e.regs.field 0 a).toNat % 64)).capacity) :
    exec (.fpush m d a) s = .next (e.done m (.fpush m d a) Machine.Flow.next
      (giveEntry (clusterOf e.th.core) (e.regs.field 0 a).toNat (pushEntry e d) false (fifoTouched e a (opened s)))) := by
  refine issue_ok h ?_
  rw [checkOps_ok ho, pure_bind, h.2.1]
  refine (hf.then _ _).trans ((get_bind _ _).trans ?_)
  obtain ⟨hfifo, hcap⟩ := getBank_touchBank_fifo (opened s) (clusterOf e.th.core) (e.regs.field 0 a).toNat
  rw [Nat.mod_eq_of_lt hf.lt] at hroom
  unfold fifoTouched
  rw [hfifo, hcap, if_pos hroom]
  rfl

section
variable {y : Entry}
  (hpop : popEntry (clusterOf e.th.core) (e.regs.field 0 a).toNat (fifoTouched e a (opened s)) = (some y, u))
  (hy : y.poison = false)
include hpop hy

theorem fpop_wrote : exec (.fpop m d a) s = .next (e.wrote m (.fpop m d a) (popWrites e d y) 0 u) := by
  refine issue_ok h ?_
  rw [checkOps_ok ho, pure_bind, h.2.1]
  refine (hf.then _ _).trans ((popEntry_then hpop (fun _ hx => Option.some.inj hx ▸ hy) _ _).trans ?_)
  dsimp only
  rw [popTo_emits hy]
  rfl

theorem ftrypop_wrote (hd : d.toNat + 2 ≤ e.th.vregs) : exec (.ftrypop m d a) s = .next (e.wrote m (.ftrypop m d a)
    (e.lanes.map (fun l => regWrite l (d + 1) 0)) 0 (emitTo e.tid e.sid (popWrites e d y) 0 u)) := by
  refine issue_ok h ?_
  rw [checkOps_ok ho, pure_bind, if_neg (Nat.not_lt.mpr hd)]
  refine (hf.then _ _).trans ((popEntry_then hpop (fun _ hx => Option.some.inj hx ▸ hy) _ _).trans ?_)
  dsimp only
  rw [popTo_emits hy]
  rfl

end

/-- R273: FTRYPOP that finds no entry gives status 1. -/
theorem ftrypop_empty (hd : d.toNat + 2 ≤ e.th.vregs)
    (hpop : popEntry (clusterOf e.th.core) (e.regs.field 0 a).toNat (fifoTouched e a (opened s)) = (none, u)) :
    exec (.ftrypop m d a) s = .next (e.wrote m (.ftrypop m d a) (e.lanes.map (fun l => regWrite l (d + 1) 1)) 0 u) := by
  refine issue_ok h ?_
  rw [checkOps_ok ho, pure_bind, if_neg (Nat.not_lt.mpr hd)]
  exact (hf.then _ _).trans (popEntry_then hpop (fun _ hx => nomatch hx) _ _)

end

/-! ## The bank words (R225, R287 to R290) -/

/-- The status of a BANKPWR whose bank does not wake, and the state that it leaves (R289). -/
def bankpwrGrant (s : State) (launch cl b req : Nat) : Nat × State :=
  let k := getBank s cl b
  if req = 0 then (0, s)
  else if req = 1 then
    if k.owner = some launch ∧ mayRetain s k = true then (0, modBank cl b (fun k => { k with pwr := .retention }) s)
    else (1, s)
  else if k.mode = .cache ∧ k.pwr = .deepOff then (0, s)
  else if k.mode = .unallocated then
    (0, modBank cl b (fun k => { k with pwr := .deepOff, data := [], valid := [], fifo := [] }) s)
  else if mayPowerOff s cl b then (0, modBank cl b (fun k => { k with pwr := .deepOff, data := [] }) (clearWay cl b s))
  else (1, s)

section
variable {s : State} {launch cl b : Nat}

theorem bankpwrGrant_active : bankpwrGrant s launch cl b 0 = (0, s) := rfl

theorem bankpwrGrant_retention (ho : (getBank s cl b).owner = some launch) (hr : mayRetain s (getBank s cl b) = true) :
    bankpwrGrant s launch cl b 1 = (0, modBank cl b (fun k => { k with pwr := .retention }) s) := if_pos ⟨ho, hr⟩

theorem bankpwrGrant_no_retention
    (h : (getBank s cl b).owner ≠ some launch ∨ mayRetain s (getBank s cl b) = false) :
    bankpwrGrant s launch cl b 1 = (1, s) := by
  refine if_neg ?_
  rintro ⟨ho, hr⟩
  rcases h with h | h
  · exact h ho
  · rw [h] at hr
    cases hr

theorem bankpwrGrant_unallocated (hm : (getBank s cl b).mode = .unallocated) : bankpwrGrant s launch cl b 2 =
    (0, modBank cl b (fun k => { k with pwr := .deepOff, data := [], valid := [], fifo := [] }) s) := by
  simp [bankpwrGrant, hm]

theorem bankpwrGrant_already_off (h : (getBank s cl b).mode = .cache ∧ (getBank s cl b).pwr = .deepOff) :
    bankpwrGrant s launch cl b 2 = (0, s) := if_pos h

section
variable (hoff : ¬ ((getBank s cl b).mode = .cache ∧ (getBank s cl b).pwr = .deepOff))
  (hm : (getBank s cl b).mode ≠ .unallocated)
include hoff hm

theorem bankpwrGrant_off (h : mayPowerOff s cl b = true) : bankpwrGrant s launch cl b 2 =
    (0, modBank cl b (fun k => { k with pwr := .deepOff, data := [] }) (clearWay cl b s)) :=
  (if_neg hoff).trans ((if_neg hm).trans (if_pos h))

theorem bankpwrGrant_no_off (h : mayPowerOff s cl b = false) : bankpwrGrant s launch cl b 2 = (1, s) :=
  (if_neg hoff).trans ((if_neg hm).trans (if_neg (Bool.eq_false_iff.mp h)))

end
end

section
variable {s : State} {e : Env} (m : BitVec 1) (h : Issues s e)
include h

theorem bwphase_wrote (n : BitVec 8) (k : BitVec 2) (hk : e.th.kind = .crew) :
    exec (.bwphase m n k) s = .next (e.wrote m (.bwphase m n k)
      [.special 0 0x100 (BitVec.ofNat 64 (k.toNat + 4 * n.toNat))] 0 (opened s)) :=
  emits_wrote h rfl rfl ⟨List.mem_singleton.mpr hk, by simp⟩

variable {a : BitVec 8} {r : BitVec 4} {c : BitVec 5} (ho : OpsOk e crewOnly [⟨a, .scal, 2⟩])
  (hcl : launchCluster (opened s) e.th.launch (8 * r.toNat + c.toNat) = true)
include ho hcl

/-- R287: the checks of a bank word whose cluster is the launch's pass. -/
theorem bankWord_done {i : Instr} {k : Nat → M Machine.Flow} {t : State} {body : Env → M Machine.Flow}
    (hx : exec i s = issue m i body s)
    (hb : body e = checkOps e crewOnly false [⟨a, .scal, 2⟩] false >>= fun _ => bankCluster e r c >>= k)
    (hk : k (8 * r.toNat + c.toNat) (opened s) = .ok Machine.Flow.next t) :
    exec i s = .next (e.done m i Machine.Flow.next t) := by
  refine hx.trans (issue_ok h ?_)
  rw [hb, checkOps_ok ho, pure_bind]
  refine (bind_ok ?_ _).trans hk
  unfold bankCluster
  refine (get_bind _ _).trans ?_
  rw [hcl]
  rfl

theorem bankq_wrote (hlt : (e.regs.field 0 a).toNat < 64) :
    exec (.bankq m a r c) s = .next (e.wrote m (.bankq m a r c)
      (regWrites 0 a (mapEntry (opened s) (8 * r.toNat + c.toNat) ((e.regs.field 0 a).toNat % 64)) 2) 0 (opened s)) := by
  refine bankWord_done m h ho hcl rfl rfl ?_
  have : bits (e.regs.field 0 a).toNat 6 26 = 0 := by simp [bits, Nat.div_eq_of_lt hlt]
  rw [if_neg (not_not.mpr this)]
  rfl

theorem bankmode_wrote {x : Nat} (hx : (e.regs.field 0 a).toNat = x) {tgt : BankMode} (ht : bankModeOf (bits x 8 2) = tgt)
    {st : Nat} (hst : bankmodeStatus (opened s) e.th.launch (8 * r.toNat + c.toNat) (x % 64) tgt = st)
    (h6 : bits x 6 2 = 0) (h10 : bits x 10 2 = 0) (h15 : bits x 15 17 = 0) (hesz : tgt = .fifo → bits x 12 3 < 6)
    (hawake : st ≠ 0 ∨ tgt = .unallocated ∨ (getBank (opened s) (8 * r.toNat + c.toNat) (x % 64)).mode = tgt ∨
      (getBank (opened s) (8 * r.toNat + c.toNat) (x % 64)).pwr = .active) :
    exec (.bankmode m a r c) s = .next (e.wrote m (.bankmode m a r c) [regWrite 0 (a + 1) st] 0
      (if st = 0 then switchBank (opened s) e.th.launch (8 * r.toNat + c.toNat) (x % 64) tgt (bits x 12 3)
       else opened s)) := by
  subst hx ht hst
  refine bankWord_done m h ho hcl rfl rfl ?_
  refine (congrFun (if_neg ?_) _).trans ((get_bind _ _).trans ((congrFun (if_neg ?_) _).trans ?_))
  · rintro (hc | hc | hc | ⟨hc, hc'⟩)
    · exact hc h6
    · exact hc h10
    · exact hc h15
    · exact absurd (hesz hc) (Nat.not_lt.mpr hc')
  · rintro ⟨hst, hun, hsame, hpwr⟩
    rcases hawake with hc | hc | hc | hc
    · exact hc hst
    · exact hun hc
    · simp [hc] at hsame
    · exact hpwr hc
  · by_cases hst : bankmodeStatus (opened s) e.th.launch (8 * r.toNat + c.toNat) ((e.regs.field 0 a).toNat % 64)
        (bankModeOf (bits (e.regs.field 0 a).toNat 8 2)) = 0
    · rw [if_pos hst, if_pos hst]
      rfl
    · rw [if_neg hst, if_neg hst]
      rfl

/-- R289: no bank wakes, and a request for power finds its bank active. -/
theorem bankpwr_grants {x : Nat} (hx : (e.regs.field 0 a).toNat = x) (h6 : bits x 6 2 = 0) (h10 : bits x 10 22 = 0)
    (h3 : bits x 8 2 ≠ 3) (hwake : (getBank (opened s) (8 * r.toNat + c.toNat) (x % 64)).pwr ≠ .waking)
    (h0 : bits x 8 2 = 0 → (getBank (opened s) (8 * r.toNat + c.toNat) (x % 64)).pwr = .active) {st : Nat} {t : State}
    (hg : bankpwrGrant (opened s) e.th.launch (8 * r.toNat + c.toNat) (x % 64) (bits x 8 2) = (st, t)) :
    exec (.bankpwr m a r c) s = .next (e.wrote m (.bankpwr m a r c) [regWrite 0 (a + 1) st] 0 t) := by
  subst hx
  refine bankWord_done m h ho hcl rfl rfl ?_
  refine (congrFun (if_neg ?_) _).trans ((get_bind _ _).trans ((congrFun (if_neg hwake) _).trans ?_))
  · rintro (hc | hc | hc)
    · exact hc h6
    · exact hc h10
    · exact h3 hc
  · unfold bankpwrGrant at hg
    by_cases hr0 : bits (e.regs.field 0 a).toNat 8 2 = 0
    · rw [if_pos hr0] at hg
      rw [if_pos hr0, if_pos (h0 hr0)]
      cases hg
      rfl
    · rw [if_neg hr0] at hg ⊢
      split_ifs at hg ⊢ <;> cases hg <;> rfl

end

end Sys2Proof.Laws

namespace Sys2Proof.Proofs
open Sys2Proof.Machine Sys2Proof.Claims Sys2Proof.Laws

/-- R286. -/
theorem sampleCompletes : SampleCompletes := fun _ _ m _ _ _ _ _ _ _ h hl ho hsh hok hform ha hp =>
  sample_accessed m h hl ho hsh hok hform ha hp

/-- R272, R273. -/
theorem fifoWordsComplete : FifoWordsComplete := by
  intro s e m d a h x cl k hlt hmode hown hsize hpwr t
  have hf : OwnFifo (opened s) e a := ⟨hlt, hmode, hown, hsize, hpwr⟩
  exact ⟨fun ho hroom => fpush_gives m h hf ho hroom, fun _ _ ho hpop hy => fpop_wrote m h hf ho hpop hy,
    fun ho hd => ⟨fun _ _ hpop hy => ftrypop_wrote m h hf ho hpop hy hd, fun _ hpop => ftrypop_empty m h hf ho hd hpop⟩⟩

/-- R225, R287 to R290. -/
theorem bankWordsComplete : BankWordsComplete := by
  intro s e m a r c h hk
  refine ⟨fun n k => bwphase_wrote m h n k hk, ?_⟩
  intro cl x b k ho hcl
  refine ⟨fun hlt => bankq_wrote m h ho hcl hlt,
    fun h6 h10 h15 hesz hawake => bankmode_wrote m h ho hcl rfl rfl rfl h6 h10 h15 hesz hawake, ?_⟩
  intro h6 h10 hwake put
  have hputs {st : Nat} {t : State} {req : Nat} (hr : bits x 8 2 = req) (h3 : req ≠ 3)
      (hg : bankpwrGrant (opened s) e.th.launch cl b req = (st, t)) (h0 : req = 0 → k.pwr = .active) : put st t := by
    subst hr
    exact bankpwr_grants m h ho hcl rfl h6 h10 h3 hwake h0 hg
  exact ⟨fun hr hact => hputs hr (by decide) bankpwrGrant_active (fun _ => hact),
    fun hr hown hret => hputs hr (by decide) (bankpwrGrant_retention hown hret) nofun,
    fun hr hno => hputs hr (by decide) (bankpwrGrant_no_retention hno) nofun,
    fun hr hun => hputs hr (by decide) (bankpwrGrant_unallocated hun) nofun,
    fun hr hoff => hputs hr (by decide) (bankpwrGrant_already_off hoff) nofun,
    fun hr hoff hun hmay => hputs hr (by decide) (bankpwrGrant_off hoff hun hmay) nofun,
    fun hr hoff hun hmay => hputs hr (by decide) (bankpwrGrant_no_off hoff hun hmay) nofun⟩

/-- Settles O25: SAMPLE, the FIFO words, the bank words. -/
theorem sampleFifoBankWordsComplete : Obligations.SampleFifoBankWordsComplete :=
  ⟨sampleCompletes, fifoWordsComplete, bankWordsComplete⟩

end Sys2Proof.Proofs

namespace Sys2Proof.Laws
open Sys2Proof.Machine Sys2Proof.Claims

/-! ## The tile words (R252 to R256, R291 to R296) -/

section
variable {s : State} {e : Env} (m : BitVec 1) (h : Issues s e)
include h

/-- R293: TOPEN over no tile that is being acquired opens where `openAt` says, or answers 0. -/
theorem topen_opens {d a : BitVec 8} {sh : Shape} {t : State} (ho : OpsOk e crewOnly [⟨d, .scal, 1⟩, ⟨a, .scal, 2⟩])
    (hr : tileRecord e (e.addr 0 a 0) (opened s) = .ok sh t) (hb : beingAcquired t e sh = none) :
    exec (.topen m d a) s = .next (match openAt t e.cid sh with
      | some key => e.wrote m (.topen m d a) [regWrite 0 d (handleOf key (nextGen t key))] 0 (enterTile e.cid key sh t)
      | none => e.wrote m (.topen m d a) [regWrite 0 d 0] 0 t) := by
  refine (issue_run h.proceeds).trans (congrArg Host.Outcome.next ?_)
  rw [checkOps_ok ho, pure_bind, bind_ok hr, get_bind, hb]
  cases openAt t e.cid sh <;> rfl

section
variable {a : BitVec 8} {t : Tile} (ho : OpsOk e crewOnly [⟨a, .scal, 1⟩])
  (ht : tileOf (opened s) e.cid (e.regs.field 0 a).toNat = some t)
include ho ht

theorem tclose_closes (ha : t.asked (opened s) e.tid e.sid = false) :
    exec (.tclose m a) s = .next (e.done m (.tclose m a) Machine.Flow.next
      (closeTile (handleKey (e.regs.field 0 a).toNat) (opened s))) := by
  refine issue_ok h ?_
  rw [checkOps_ok ho, pure_bind]
  refine (bind_ok (needTile_ok ht) _).trans ((get_bind _ _).trans ?_)
  rw [ha]
  rfl

/-- R294: TACQR takes read tenure once the lines at line level have come. -/
theorem tacqr_acquires {u : State}
    (hu : askTileRead (dieOf e.th.core) (handleKey (e.regs.field 0 a).toNat) t (opened s) = (none, u)) :
    exec (.tacqr m a) s = .next (e.done m (.tacqr m a) Machine.Flow.next
      (acquireTileRead (dieOf e.th.core) (handleKey (e.regs.field 0 a).toNat) t u)) := by
  refine issue_ok h ?_
  rw [checkOps_ok ho, pure_bind]
  refine (bind_ok (needTile_ok ht) _).trans ((ask_bind _ _ _).trans ?_)
  rw [hu]
  rfl

/-- R262, R294: TACQW takes write tenure when it is the first that the home has accepted and no other die holds a line. -/
theorem tacqw_acquires {v u : State} (hv : acceptAcquire (handleKey (e.regs.field 0 a).toNat) e.tid e.sid (opened s) = v)
    (hb : asksBefore v (handleKey (e.regs.field 0 a).toNat) e.tid e.sid = false)
    (hu : askTileWrite (dieOf e.th.core) (handleKey (e.regs.field 0 a).toNat) t v = (none, u))
    (hw : awaited u (dieOf e.th.core) e.cid t.shape.lines = none) :
    exec (.tacqw m a) s = .next (e.done m (.tacqw m a) Machine.Flow.next
      (acquireTileWrite (dieOf e.th.core) (handleKey (e.regs.field 0 a).toNat) e.tid e.sid t u)) := by
  refine issue_ok h ?_
  rw [checkOps_ok ho, pure_bind]
  refine (bind_ok (needTile_ok ht) _).trans ((act_bind _ _ _).trans ((get_bind _ _).trans ?_))
  rw [hv, hb]
  refine (ask_bind _ _ _).trans ?_
  rw [hu]
  refine (get_bind _ _).trans ?_
  rw [hw]
  rfl

theorem trel_releases :
    exec (.trel m a) s = .next (e.done m (.trel m a) Machine.Flow.next (modTile (handleKey (e.regs.field 0 a).toNat)
      (fun x => { x with tenure := Sparse.erase x.tenure (dieOf e.th.core) }) (opened s))) :=
  issue_ok h (onTile_ok ho ht)

end

theorem tquery_wrote {d a : BitVec 8} (ho : OpsOk e crewOnly [⟨d, .scal, 1⟩, ⟨a, .scal, 1⟩]) :
    exec (.tquery m d a) s = .next (e.wrote m (.tquery m d a)
      [regWrite 0 d (match tileOf (opened s) e.cid (e.regs.field 0 a).toNat with
        | some t => t.query (dieOf e.th.core)
        | none => 0)] 0 (opened s)) := by
  refine issue_ok h ?_
  rw [checkOps_ok ho, pure_bind]
  rfl

theorem lmsg_sends {a : BitVec 8} (r : BitVec 4) (c : BitVec 5) (ho : OpsOk e crewOnly [⟨a, .vect, 1⟩]) :
    exec (.lmsg m a r c) s = .next (e.done m (.lmsg m a r c) Machine.Flow.next
      (sendMessage e (sliceOf r.toNat c.toNat) (messageWords e a) (release e.th.core 2 (opened s)))) := by
  refine issue_ok h ?_
  rw [checkOps_ok ho, pure_bind]
  rfl

section
variable {d a b : BitVec 8} {t : Tile} {dim x n : Nat} {lo hi : Shape}
  (ho : OpsOk e crewOnly [⟨d, .scal, 2⟩, ⟨a, .scal, 1⟩, ⟨b, .scal, 2⟩])
  (ht : tileOf (opened s) e.cid (e.regs.field 0 a).toNat = some t)
  (hdim : (e.regs.field 0 b).toNat = dim) (hx : (e.regs.field 0 (b + 1)).toNat = x) (hn : t.shape.ext.getD dim 0 = n)
  (hd4 : dim < 4) (hrank : dim < t.shape.rank) (h0 : 0 < x) (hlt : x < n)
  (hlo : t.shape.cut dim x 0 = lo) (hhi : t.shape.cut dim (n - x) x = hi)
include ho ht hdim hx hn hd4 hrank h0 hlt hlo hhi

/-- TSPLIT gives 0 where a table is full (log 41). -/
theorem tsplit_full (hk : childKeys (opened s) e.cid lo hi = none) :
    exec (.tsplit m d a b) s = .next (e.wrote m (.tsplit m d a b) (regWrites 0 d 0 2) 0 (opened s)) := by
  subst hdim hx hn hlo hhi
  refine issue_ok h ?_
  rw [checkOps_ok ho, pure_bind, if_neg (Nat.not_le.mpr hd4), bind_ok (needTile_ok ht), if_neg (by omega), get_bind, hk]
  rfl

/-- R296: TSPLIT gives the handles of two children, which inherit from the tile that closes. -/
theorem tsplit_splits {i j : Nat} (hk : childKeys (opened s) e.cid lo hi = some (i, j)) :
    exec (.tsplit m d a b) s = .next (e.wrote m (.tsplit m d a b)
      (regWrites 0 d (handleOf i (nextGen (opened s) i) + 2 ^ 32 * handleOf j (nextGen (opened s) j)) 2) 0
      (childOf t j (enterTile e.cid j hi (childOf t i (enterTile e.cid i lo
        (closeTile (handleKey (e.regs.field 0 a).toNat) (opened s))))))) := by
  subst hdim hx hn hlo hhi
  refine issue_ok h ?_
  rw [checkOps_ok ho, pure_bind, if_neg (Nat.not_le.mpr hd4), bind_ok (needTile_ok ht), if_neg (by omega), get_bind, hk]
  rfl

end
end

end Sys2Proof.Laws

namespace Sys2Proof.Proofs
open Sys2Proof.Machine Sys2Proof.Claims Sys2Proof.Laws

/-- R252 to R256, R291 to R296. -/
theorem tileWordsComplete : TileWordsComplete := by
  intro s e m h
  refine ⟨fun _ _ _ _ ho hr hb => topen_opens m h ho hr hb, fun _ _ ho ht => ?_,
    fun _ _ ho => tquery_wrote m h ho, fun d a b t ho ht => ?_, fun _ r c ho => lmsg_sends m h r c ho⟩
  · exact ⟨tclose_closes m h ho ht, fun _ hu => tacqr_acquires m h ho ht hu,
      fun _ hb hu hw => tacqw_acquires m h ho ht rfl hb hu hw, trel_releases m h ho ht⟩
  · intro dim x n hd4 hrank h0 hlt lo hi
    cases hk : childKeys (opened s) e.cid lo hi with
    | none => exact tsplit_full m h ho ht rfl rfl rfl hd4 hrank h0 hlt rfl rfl hk
    | some ij => exact tsplit_splits m h ho ht rfl rfl rfl hd4 hrank h0 hlt rfl rfl hk

/-- R297, R439. -/
theorem tileAccessesComplete : TileAccessesComplete := fun _ _ _ _ _ _ _ _ _ h =>
  ⟨fun hp => issue_ok h.1 (tileAccess_ok h hp), fun hp => issue_ok h.1 (tileAccess_ok h hp)⟩

/-- Settles O26: the tile words, then TLD and TST. -/
theorem tileWordsAndAccessesComplete : Obligations.TileWordsAndAccessesComplete :=
  ⟨tileWordsComplete, tileAccessesComplete⟩

end Sys2Proof.Proofs

namespace Sys2Proof.Laws
open Sys2Proof.Machine Sys2Proof.Claims

/-! ## Bank timers, the FIFO retry and pin windows (R226 to R228, R232, R237) -/

@[simp] theorem touchBank_mem (cl b : Nat) (s : State) : (touchBank cl b s).mem = s.mem := by
  unfold touchBank
  rw [scheduleOnce_mem]
  rfl

/-- A touched bank has a new time of its last access, and nothing else. -/
theorem getBank_touchBank (s : State) (cl b : Nat) :
    getBank (touchBank cl b s) cl b = { getBank s cl b with lastAt := s.chiptime } := by
  unfold touchBank
  rw [getBank_congr (scheduleOnce_clusters _ _ _), getBank_modBank]

section
variable {s : State} {cl b : Nat}

theorem bankRetentionEntry_retains (hp : (getBank s cl b).pwr = .active) (hr : mayRetain s (getBank s cl b) = true)
    (ht : idleSince s (getBank s cl b) + Config.retentionIdle ≤ s.chiptime) :
    exec (.bankRetentionEntry cl b) s = .next (modBank cl b (fun k => { k with pwr := .retention }) s) :=
  congrArg Host.Outcome.next ((if_pos ⟨hp, hr⟩).trans (if_pos ht))

theorem bankDeepOffEntry_turns_off (hm : (getBank s cl b).mode = .unallocated) (hoff : (getBank s cl b).pwr ≠ .deepOff)
    (hw : (getBank s cl b).pwr ≠ .waking) (ht : (getBank s cl b).lastAt + Config.deepOffIdle ≤ s.chiptime) :
    exec (.bankDeepOffEntry cl b) s =
      .next (modBank cl b (fun k => { k with pwr := .deepOff, data := [], valid := [], fifo := [] }) s) :=
  congrArg Host.Outcome.next ((if_pos ⟨hm, hoff, hw⟩).trans (if_pos ht))

/-- R226: a bank that wakes is active, with what it held. -/
theorem bankWakeComplete_wakes (hw : (getBank s cl b).pwr = .waking) :
    ∃ t, exec (.bankWakeComplete cl b) s = .next t ∧ (getBank t cl b).pwr = .active ∧
      (getBank t cl b).data = (getBank s cl b).data ∧ (getBank t cl b).fifo = (getBank s cl b).fifo ∧ t.mem = s.mem := by
  refine ⟨_, congrArg Host.Outcome.next (if_pos hw), ?_⟩
  dsimp only
  have htouch := getBank_touchBank (modBank cl b (fun k => { k with pwr := .active }) s) cl b
  rw [getBank_modBank] at htouch
  have hmem : (touchBank cl b (modBank cl b (fun k => { k with pwr := .active }) s)).mem = s.mem := touchBank_mem _ _ _
  generalize touchBank cl b (modBank cl b (fun k => { k with pwr := .active }) s) = u at htouch hmem ⊢
  have hkeep (v : State) (hc : v.clusters = u.clusters) (hm : v.mem = u.mem) : (getBank v cl b).pwr = .active ∧
      (getBank v cl b).data = (getBank s cl b).data ∧ (getBank v cl b).fifo = (getBank s cl b).fifo ∧ v.mem = s.mem := by
    rw [getBank_congr hc, htouch]
    exact ⟨rfl, rfl, rfl, hm.trans hmem⟩
  split
  · exact hkeep _ (by simp [wakeAll]) (by simp [wakeAll])
  · exact hkeep _ rfl rfl

theorem cacheBankPowerOff_clears (h : mayPowerOff s cl b = true) : exec (.cacheBankPowerOff cl b) s =
    .next (modBank cl b (fun k => { k with pwr := .deepOff, data := [] }) (clearWay cl b s)) :=
  congrArg Host.Outcome.next (if_pos h)

theorem fifoWaiterRetry_wakes {tid sid x y : Nat} {sp : Split} {w : Wait} (hsp : getSplit s tid sid = some sp)
    (hw : sp.wait = some w) (hobj : w.obj = .fifoFull x y) :
    exec (.fifoWaiterRetry tid sid) s = .next (wake tid sid (modSplit tid sid (fun sp => { sp with handed := none }) s)) := by
  refine congrArg Host.Outcome.next ?_
  simp only [hsp, Option.bind_some, hw, hobj]

end

section
variable {s : State} {die win : Nat} {p : Pin} (hp : Sparse.find? s.pins (64 * die + win) = some p)
include hp

/-- R237: a tick lowers the counter unless an access has reloaded it; at 0 the window fades. -/
theorem pinFadeTick_counts {fade : Nat} (hf : (if p.touched then p.fade else p.fade - 1) = fade) :
    exec (.pinFadeTick die win) s = .next (if fade = 0
      then after 1 (.pinWindowFaded die win)
        { s with pins := Sparse.put s.pins (64 * die + win) { p with fade := fade, touched := false } }
      else after Config.pinTick (.pinFadeTick die win)
        { s with pins := Sparse.put s.pins (64 * die + win) { p with fade := fade, touched := false } }) := by
  subst hf
  refine congrArg Host.Outcome.next ?_
  simp only [hp]

/-- A faded window is released with an event of its base's home slice (log 103), a reloaded one goes on. -/
theorem pinWindowFaded_drops : exec (.pinWindowFaded die win) s = .next (if p.fade = 0
    then post p.cid 2 (homeSlice p.cid p.base) 10 0 0 p.base 0 (dropPin (64 * die + win) s)
    else after (Config.pinTick - 1) (.pinFadeTick die win) s) := by
  refine congrArg Host.Outcome.next ?_
  simp only [hp]

end

/-! ## Coherence messages, the host's accesses and speculative fences (R249 to R251, R258, R260, R280) -/

section
variable {s t : State} {die cid line : Nat}

theorem askHome_asks (h : wayFor die cid line s = (true, t)) (own : Bool) (i : Instr) :
    askHome die cid line own i s = deliver i (askCopy die (lineKey cid line) own t) := by
  unfold askHome
  rw [h]

/-- A die without a way for the line asks for nothing (log 8). -/
theorem askHome_waits (h : wayFor die cid line s = (false, t)) (own : Bool) (i : Instr) :
    askHome die cid line own i s = t := by
  unfold askHome
  rw [h]

theorem hostSnoop_absent {p : Nat} (h : reverseLines s die p = []) : exec (.hostSnoop die p) s = .next (answer [0] s) := by
  refine congrArg Host.Outcome.next ?_
  rw [h]

/-- R260: the host snoops every line of the reverse map with one free wish (log 10). -/
theorem hostSnoop_asks {p : Nat} (h : reverseLines s die p ≠ []) : exec (.hostSnoop die p) s = .next
    ((reverseLines s die p).foldl (fun t k => snoopLine die k (Config.freeBool s.fresh) t) { s with fresh := s.fresh + 1 }) := by
  refine congrArg Host.Outcome.next ?_
  cases hr : reverseLines s die p with
  | nil => exact absurd hr h
  | cons k ks => rfl

section
variable (hr : hostReady s = true)
include hr

theorem hostRead_accesses {pa : Nat} (n : Nat) (h : pa < Config.hbmBytes) :
    exec (.hostCxlMemRead pa n) s = .next (hostAccess (.read pa n) s) :=
  congrArg Host.Outcome.next (if_neg (by simp [hr, h]))

theorem hostWrite_accesses {pa : Nat} (bs : List Byte) (h : pa < Config.hbmBytes) :
    exec (.hostCxlMemWrite pa bs) s = .next (hostAccess (.write pa bs) s) :=
  congrArg Host.Outcome.next ((if_neg (by simp [hr])).trans (if_pos h))

end

/-- An access of the host performs at once where no home serves another request of its line (log 97). -/
theorem hostAccess_performs {o : HostOp} (h : ∀ kl ∈ linesOf s (hostPlace s o / 128), kl.2.txn = none) :
    hostAccess o s = hostPerform o s := by
  unfold hostAccess
  rw [List.find?_eq_none.mpr fun kl hk => by simp [h kl hk]]

section
variable {tid sid : Nat} {sp : Split} {x : Spec} (hsp : getSplit s tid sid = some sp) (hx : sp.spec = some x)
include hsp hx

theorem specFenceComplete_completes (h : x.hit = false) :
    exec (.specFenceComplete tid sid) s = .next (completeSpec tid sid x s) := by
  refine congrArg Host.Outcome.next ?_
  simp [hsp, hx, h]

theorem specFenceComplete_rolls_back (h : x.hit = true) (hn : x.rollbacks + 1 < 4) :
    exec (.specFenceComplete tid sid) s = .next (rollback tid sid x s) := by
  refine congrArg Host.Outcome.next ?_
  simp only [hsp, Option.bind_some, hx, h, Bool.not_true, Bool.false_eq_true, if_false]
  exact if_neg (Nat.not_le.mpr hn)

/-- R280: the fourth rollback completes the fence (log 36). -/
theorem specFenceComplete_fourth (h : x.hit = true) (hn : 4 ≤ x.rollbacks + 1) : exec (.specFenceComplete tid sid) s =
    .next (completeSpec tid sid { x with held := none, fault := none } (rollback tid sid x s)) := by
  refine congrArg Host.Outcome.next ?_
  simp only [hsp, Option.bind_some, hx, h, Bool.not_true, Bool.false_eq_true, if_false]
  exact if_pos hn

end
end

end Sys2Proof.Laws

namespace Sys2Proof.Proofs
open Sys2Proof.Machine Sys2Proof.Claims Sys2Proof.Laws

/-- Settles O32: the timers of banks, the FIFO retry, and the fade of windows (the slice of the event is log 103). -/
theorem bankAndPinEventsComplete : Obligations.BankAndPinEventsComplete := by
  intro s cl b
  refine ⟨bankRetentionEntry_retains, bankDeepOffEntry_turns_off, bankWakeComplete_wakes, cacheBankPowerOff_clears,
    fun _ _ _ _ _ _ => fifoWaiterRetry_wakes, fun die win p hp => ?_⟩
  have htick := pinFadeTick_counts hp rfl
  have hfade := pinWindowFaded_drops hp
  exact ⟨fun h => htick.trans (congrArg _ (if_neg h)), fun h => htick.trans (congrArg _ (if_pos h)),
    fun h => hfade.trans (congrArg _ (if_pos h)), fun h => hfade.trans (congrArg _ (if_neg h))⟩

/-- Settles O33: requests of a die, messages that are delivered (log 42), the host, and speculative fences. -/
theorem coherenceEventsComplete : Obligations.CoherenceEventsComplete := by
  intro s die cid line
  have hasks (t : State) (h : wayFor die cid line s = (true, t)) (own : Bool) (i : Instr) :=
    congrArg (Host.Outcome.next (φ := Fault) (ρ := Refusal)) (askHome_asks h own i)
  have hwaits (t : State) (h : wayFor die cid line s = (false, t)) (own : Bool) (i : Instr) :=
    congrArg (Host.Outcome.next (φ := Fault) (ρ := Refusal)) (askHome_waits h own i)
  refine ⟨fun t h => ⟨hasks t h _ _, hasks t h _ _, hasks t h _ _⟩, fun t h i hi => ?_, rfl, rfl, fun _ => rfl, fun _ => rfl,
    rfl, fun _ => rfl, rfl, rfl, rfl, rfl, fun p => hostSnoop_absent, fun p => hostSnoop_asks,
    fun hr => ⟨fun pa n => hostRead_accesses hr n, fun pa bs => hostWrite_accesses hr bs, fun o => hostAccess_performs⟩,
    fun tid sid sp x hsp hx => ⟨specFenceComplete_completes hsp hx, specFenceComplete_rolls_back hsp hx,
      specFenceComplete_fourth hsp hx⟩⟩
  simp only [List.mem_cons, List.not_mem_nil, or_false] at hi
  rcases hi with rfl | rfl | rfl
  · exact hwaits t h _ _
  · exact hwaits t h _ _
  · exact hwaits t h _ _

end Sys2Proof.Proofs

namespace Sys2Proof.Laws
open Sys2Proof.Machine Sys2Proof.Claims

/-! ## Lantern cores (R247, R248, R339 to R344) -/

@[simp] theorem getLantern_dropBudget (slice k : Nat) (s : State) : getLantern (dropBudget slice s) k = getLantern s k := rfl

theorem retryAsked_none {s : State} {slice : Nat} (h : (getLantern s slice).asking = none) : retryAsked slice s = s := by
  unfold retryAsked
  rw [h]

theorem setRmw_codeOk {cmd : Nat} (h : cmd ≤ 7) (pa : Nat) (wide : Bool) (x : BitVec 64) (l : Lantern) :
    (setRmw pa cmd wide x l).codeOk = true := by
  have hw : ofBool wide ≤ 1 := by cases wide <;> decide
  have hcmd : (setRmw pa cmd wide x l).pcmd.toNat = cmd + 16 * ofBool wide := Nat.mod_eq_of_lt (by omega)
  unfold Lantern.codeOk
  rw [hcmd]
  simp only [Bool.and_eq_true, decide_eq_true_eq]
  omega

section
variable {s : State} {slice : Nat}

section
variable (ha : (getLantern s slice).asking = none)
include ha

theorem handlerStart_starts {t : Trigger} {ts : List Trigger} (hr : (getLantern s slice).running = none)
    (hq : (getLantern s slice).queue = t :: ts) :
    exec (.lanternHandlerStart slice) s = .next (startTrigger slice t ts s) := by
  refine congrArg Host.Outcome.next ?_
  simp only [retryAsked_none ha, hr, hq]

theorem handlerStart_steps {t : Trigger} (hr : (getLantern s slice).running = some t)
    (hd : (getLantern s slice).done = none) (hn : (getLantern s slice).nextAt ≤ s.chiptime) :
    exec (.lanternHandlerStart slice) s = .next (rvStep slice t.cid s) := by
  refine congrArg Host.Outcome.next ?_
  simp only [retryAsked_none ha, hr, hd]
  exact if_pos hn

end

theorem abortHandler_done (h : (getLantern s slice).done.isSome = true) : abortHandler slice s = s := by
  obtain ⟨x, hx⟩ := Option.isSome_iff_exists.mp h
  unfold abortHandler
  dsimp only
  rw [hx]
  cases (getLantern s slice).running <;> rfl

theorem budgetExpiry_done (h : (getLantern s slice).done.isSome = true) :
    exec (.lanternBudgetExpiry slice) s = .next s := by
  refine congrArg Host.Outcome.next ?_
  simp only [abortHandler_done h, ite_self]

section
variable {t : Trigger} (hr : (getLantern s slice).running = some t)
include hr

section
variable (hd : (getLantern s slice).done = none)
include hd

theorem abortHandler_ends (hw : endWaits (overrun slice t s) t = false) :
    abortHandler slice s = endHandler slice t none (overrun slice t s) := by
  unfold abortHandler
  simp only [hr, hd, hw]
  rfl

theorem budgetExpiry_ends (hw : endWaits (overrun slice t s) t = false)
    (hb : (getLantern s slice).started + 2 * (getLantern s slice).budget ≤ s.chiptime) :
    exec (.lanternBudgetExpiry slice) s = .next (endHandler slice t none (overrun slice t s)) :=
  congrArg Host.Outcome.next ((if_pos hb).trans (abortHandler_ends hr hd hw))

/-- R343: a handler that writes DONE ends where no port operation is busy, with the line at 0x0080 if it substitutes. -/
theorem handlerDone_ends {x : Bool} {u : State}
    (hu : modLantern slice (fun l => { l with done := some x }) (dropBudget slice s) = u)
    (hb : portBusy u slice = false) (hw : endWaits u t = false) :
    handlerDone slice x s = endHandler slice t
      (if x && decide (t.kind < 3) then some (Sparse.getAll 0 (getLantern s slice).mem 0x80 128) else none) u := by
  have hl : getLantern u slice = { getLantern s slice with done := some x } := by rw [← hu]; simp
  unfold handlerDone
  simp only [hr, hd, hu]
  unfold finishHandler
  simp only [hl, hr, hb, hw]
  rfl

end

/-! ### Ports (R341, R342) -/

/-- PCMD with one of the codes of R342: refused while the port is busy or for a bad length or address (log 21), an
exception for a local range outside of the handler's memory, and else performed where no page changes its bias. -/
theorem port_starts {i : Instr} {f : Lantern → Lantern} (hx : exec i s = .next (portStart slice (modLantern slice f s)))
    (hrun : (f (getLantern s slice)).running = (getLantern s slice).running)
    (hcode : (f (getLantern s slice)).codeOk = true) {c : PortCmd} (hc : (f (getLantern s slice)).command t = c)
    {u : State} (hu : modLantern slice f s = u) :
    (portBusy u slice = true ∨ c.fine = false → exec i s = .next (modLantern slice (fun l => { l with pstat := 3 }) u)) ∧
    (portBusy u slice = false → c.fine = true → localOk u slice t.cid c.plocal c.span = false →
      exec i s = .next (abortHandler slice u)) ∧
    (portBusy u slice = false → c.fine = true → localOk u slice t.cid c.plocal c.span = true →
      (∀ p ∈ c.parts, flipping u t.cid p.1 = false) →
      exec i s = .next (portEnds slice (portAct slice c u).1 (portAct slice c u).2)) := by
  have hl : getLantern u slice = f (getLantern s slice) := by rw [← hu]; simp
  have hstart : exec i s = .next (if portBusy u slice || !c.fine then modLantern slice (fun l => { l with pstat := 3 }) u
      else if !localOk u slice t.cid c.plocal c.span then abortHandler slice u else portPerform slice c u) := by
    rw [hx, hu]
    unfold portStart
    simp only [hl, hrun, hr, hcode, hc, Bool.not_true, Bool.or_false]
  refine ⟨fun h => ?_, fun hb hf hlo => ?_, fun hb hf hlo hp => ?_⟩
  · refine hstart.trans (congrArg _ (if_pos ?_))
    rcases h with h | h <;> simp [h]
  · simpa [hb, hf, hlo] using hstart
  · have htrig : c.trigger = t := by rw [← hc]; rfl
    have hflip : c.parts.any (fun p => flipping u c.trigger.cid p.1) = false := by
      rw [htrig]
      exact List.any_eq_false.mpr fun p hm => Bool.eq_false_iff.mp (hp p hm)
    rw [hstart, hb, hf, hlo]
    unfold portPerform
    rw [hflip]
    rfl

end
end

end Sys2Proof.Laws

namespace Sys2Proof.Proofs
open Sys2Proof.Machine Sys2Proof.Claims Sys2Proof.Laws

/-- Settles O34: handlers start, run (log 20), end and are aborted; then PSTAT, and each port operation (log 21). -/
theorem lanternEventsComplete : Obligations.LanternEventsComplete := by
  intro s slice l
  refine ⟨fun t ts ha => handlerStart_starts ha, fun t ha => handlerStart_steps ha, fun t hr hd hw => ?_, budgetExpiry_done,
    fun t hr hd => ⟨fun hb hw => ?_, fun hb hw => ?_⟩, fun _ => rfl, rfl, ?_⟩
  · exact ⟨congrArg _ (abortHandler_ends hr hd hw), fun hb => budgetExpiry_ends hr hd hw hb⟩
  · exact congrArg _ (handlerDone_ends hr hd rfl hb hw)
  · refine congrArg _ ((handlerDone_ends hr hd rfl hb hw).trans ?_)
    simp only [Bool.true_and, decide_eq_true_eq]
    rfl
  · exact ⟨fun pa lo n t hr => port_starts hr rfl rfl rfl rfl rfl, fun pa lo n t hr => port_starts hr rfl rfl rfl rfl rfl,
      fun pa t hr => port_starts hr rfl rfl rfl rfl rfl,
      fun pa w x t hr => port_starts hr rfl rfl (setRmw_codeOk (by decide) _ _ _ _) rfl rfl,
      fun pa w x t hr => port_starts hr rfl rfl (setRmw_codeOk (by decide) _ _ _ _) rfl rfl,
      fun pa w x t hr => port_starts hr rfl rfl (setRmw_codeOk (by decide) _ _ _ _) rfl rfl,
      fun pa w x t hr => port_starts hr rfl rfl (setRmw_codeOk (by decide) _ _ _ _) rfl rfl,
      fun pa w x t hr => port_starts hr rfl rfl (setRmw_codeOk (by decide) _ _ _ _) rfl rfl,
      fun lo r t hr => port_starts hr rfl rfl rfl rfl rfl⟩

end Sys2Proof.Proofs

namespace Sys2Proof.Laws
open Sys2Proof.Machine Sys2Proof.Claims

/-! ## Requests of a mailbox (R238, R243, R261, R339, R385, R399, R406 to R410, R424) -/

section
variable {s t : State} {i : Instr} (hx : exec i s = .next (whenReady s t))
include hx

/-- Before the end of step 6 a request changes nothing (R429). -/
theorem request_rests (hr : hostReady s = false) : exec i s = .next s :=
  hx.trans (congrArg _ (if_neg (Bool.eq_false_iff.mp hr)))

theorem request_acts (hr : hostReady s = true) : exec i s = .next t := hx.trans (congrArg _ (if_pos hr))

end

/-- R261: the page's entries change their bias, its reverse-map entries go, its mark ends; the event's SIDX is log 77. -/
theorem biasFlipComplete_flips {s : State} {cid va a lo : Nat} {c : Context} (hc : Sparse.find? s.contexts cid = some c)
    (hl : leafFrom s va c.ptbase 0 walkLevels = some (a, lo)) (host : Bool) :
    let pte := withBias (physNat s a 8) host
    let keys := (pageLines s cid lo va).map Prod.fst
    let t := physWrite s a (leBytes 8 pte)
    exec (.biasFlipComplete cid va host) s = .next (post cid 6 (leafPa pte lo va / 128 % 4) 12 0 0 va 0 (endFlip cid lo va { t with
      tlb := t.tlb.map (fun x => if x.cid = cid ∧ x.bits = lo ∧ x.page = va / 2 ^ lo then
        { x with pte := withBias x.pte host } else x),
      revmap := t.revmap.filter (fun x => !keys.contains x.2) })) := by
  refine congrArg Host.Outcome.next ?_
  simp only [hc, hl]

section
variable {s : State} {part : Nat} (hr : hostReady s = true)
include hr

/-! ### Requests on a context -/

theorem newctx_grants {cid : Nat} (hf : freshCid (freeNat s).2 (freeNat s).1 = some cid) :
    exec (.newctx part) s = .next (finishRequest part (65536 * cid)
      { (freeNat s).2 with contexts := Sparse.put (freeNat s).2.contexts cid (Context.fresh part) }) := by
  refine (request_acts rfl hr).trans (congrArg _ ?_)
  dsimp only
  rw [hf]

section
variable {cid : Nat} {c : Context} (hc : Sparse.find? s.contexts cid = some c) (ho : ownsContext s part cid = true)
include hc ho

theorem contextRequest_acts {i : Instr} {f : Context → State → State}
    (hx : exec i s = .next (whenReady s (onContext part cid f s))) : exec i s = .next (f c s) := by
  refine (request_acts hx hr).trans (congrArg _ ?_)
  unfold onContext
  rw [hc]
  exact if_pos ho

theorem endctx_grants (h : runsLaunch s cid = false) : exec (.endctx part cid) s = .next (granted part (endContext cid s)) :=
  (contextRequest_acts hr hc ho rfl).trans (congrArg _ (if_neg (Bool.eq_false_iff.mp h)))

theorem mapframe_grants (v : Nat) {p n cls : Nat} (h3 : cls < 3) (hp : p + 2 ^ 21 * n ≤ Config.hbmBytes) :
    exec (.mapframe part cid v p n cls) s = .next (granted part (setFrames p n cls s)) :=
  (contextRequest_acts hr hc ho rfl).trans (congrArg _ (if_pos ⟨h3, hp⟩))

/-- R261: the page keeps an earlier mark, or is marked; no copy command that was accepted before reaches it (log 15). -/
theorem biasflip_grants {va a lo : Nat} {host : Bool} (hl : leafFrom s va c.ptbase 0 walkLevels = some (a, lo))
    {marked : Flip × State}
    (hm : (match findFlip s cid lo va with
      | some f => (f, s)
      | none => startFlip cid lo va host s) = marked)
    (hcopy : copiesPage marked.2 marked.1 = false) :
    exec (.biasflip part cid va host) s = .next
      { granted part (releasePage cid lo va marked.2) with
        agenda := .biasFlipComplete cid va host :: (granted part (releasePage cid lo va marked.2)).agenda } := by
  subst hm
  refine (contextRequest_acts hr hc ho rfl).trans (congrArg _ ?_)
  simp only [hl]
  cases hf : findFlip s cid lo va with
  | some f =>
    rw [hf] at hcopy
    exact if_neg (Bool.eq_false_iff.mp hcopy)
  | none =>
    rw [hf] at hcopy
    exact if_neg (Bool.eq_false_iff.mp hcopy)

theorem image_grants {size : Nat} (h : imageTop c + 65536 * ((freeNat s).1 % 65536) + size < 2 ^ 48) :
    exec (.image part cid size) s = .next
      (finishRequest part ((imageTop c + 65536 * ((freeNat s).1 % 65536)) / 65536) (modContext cid (fun x =>
        { x with images := x.images ++ [(imageTop c + 65536 * ((freeNat s).1 % 65536), size)] }) (freeNat s).2)) :=
  (contextRequest_acts hr hc ho rfl).trans (congrArg _ (if_pos h))

/-- R424: a confirmed CHECKPOINT names its region and buddy. -/
theorem checkpoint_grants {r b : Nat} (h64 : r < 64) (hb : b < 32768) : exec (.checkpoint part cid r b true) s =
    .next (granted part (modContext cid (fun c => { c with ckpt := some (r, b) }) s)) :=
  (contextRequest_acts hr hc ho rfl).trans (congrArg _ ((if_neg (by omega)).trans (if_pos ⟨h64, hb, rfl⟩)))

/-- R339: the region's place and room are free (log 50), the digest is opaque (log 54). -/
theorem lantern_grants {mask image size table : Nat} {rs : List HandlerRange} {places : List (Nat × Nat)}
    (hpl : regionPlaces (othersRegions s cid mask) size = places) (hne : places ≠ [])
    (hmap : size = 0 ∨ mapped s c image size = true) (hrs : readHandlers s c table = some rs) :
    let n := (freeNat s).1
    let n' := (freeNat (freeNat s).2).1
    let u := (freeNat (freeNat s).2).2
    let at_ := places.getD (n % places.length) (256, size)
    let bs := (List.range size).map (fun i => BitVec.ofNat 8 (tableNat u c (image + i) 1))
    let v := ((List.range Config.slices).filter (fun sl => bit mask sl)).foldl
      (bindSlice cid at_.1 (size + n' % (at_.2 - size + 1)) bs rs) u
    exec (.lantern part cid mask image size table) s = .next (granted part { v with
      station := { v.station with measured := v.station.measured ++ [(cid, Config.sha384 (dwords bs))] } }) := by
  subst hpl
  have hfree : ¬ ((regionPlaces (othersRegions s cid mask) size).isEmpty = true ∨
      (size ≠ 0 ∧ (!mapped s c image size) = true)) := by
    rintro (h | ⟨h0, h⟩)
    · exact hne (List.isEmpty_iff.mp h)
    · rcases hmap with hmap | hmap
      · exact h0 hmap
      · simp [hmap] at h
  refine (contextRequest_acts hr hc ho rfl).trans (congrArg _ ((if_neg hfree).trans ?_))
  rw [hrs]

end

/-! ### Requests on windows, queues, partitions and the device -/

/-- R243: no launch of the selected context runs, and none of the context that the window serves (log 14). -/
theorem setwindow_grants {ctrl win : Nat} {w : FormatWindow} (h8 : ctrl < 8) (h16 : win < 16) (h4 : w.fmt < 4)
    (hsel : ∀ k c, selected s part = some (k, c) → runsLaunch s k = false)
    (hserved : ∀ k, Sparse.find? s.windowCids (16 * ctrl + win) = some k → runsLaunch s k = false) :
    exec (.setwindow part ctrl win w) s = .next (granted part { s with
      windows := Sparse.put s.windows (16 * ctrl + win)
        ⟨w.ebase % 2 ^ 36, w.esize % 2 ^ 36, w.dbase % 2 ^ 47, w.sbase % 2 ^ 50, w.fmt⟩
      windowCids := match selected s part with
        | some kc => Sparse.put s.windowCids (16 * ctrl + win) kc.1
        | none => Sparse.erase s.windowCids (16 * ctrl + win) }) := by
  have hidle : ((((selected s part).map Prod.fst).toList ++ (Sparse.find? s.windowCids (16 * ctrl + win)).toList).any
      (runsLaunch s)) = false := by
    refine List.any_eq_false.mpr fun k hk => Bool.eq_false_iff.mp ?_
    rcases List.mem_append.mp hk with hk | hk
    · obtain ⟨⟨k', c⟩, hkc, rfl⟩ := Option.map_eq_some_iff.mp (Option.mem_toList.mp hk)
      exact hsel _ c hkc
    · exact hserved k (Option.mem_toList.mp hk)
  refine (request_acts rfl hr).trans (congrArg _ ((if_neg ?_).trans ?_))
  · rw [hidle]
    simp only [Bool.false_eq_true, false_or, not_or, Nat.not_le]
    exact ⟨h8, h16, h4⟩
  · cases selected s part <;> rfl

theorem assignq_grants {q : Nat} (h : q < Config.queues) : exec (.assignq part q) s =
    .next (granted part { s with queues := Sparse.put s.queues q { getQueue s q with part := part, assigned := true } }) :=
  (request_acts rfl hr).trans (congrArg _ (if_neg (Nat.not_le.mpr h)))

section
variable {n : Nat} {p : Partition} (hp : Sparse.find? s.parts part = some p)
include hp

/-- R408: 4 to 64 banks, while the span runs no launch. -/
theorem setcache_grants (h4 : 4 ≤ n) (h64 : n ≤ 64)
    (hl : s.launches.any (fun kl => leadOf s kl.2.part == leadOf s part) = false) :
    exec (.setcache part n) s = .next (granted part (modPart part (fun p => { p with banks := n })
      (p.clusterList.foldl (fun s cl => assignCache n cl s) s))) := by
  refine (request_acts rfl hr).trans (congrArg _ ?_)
  rw [hp]
  refine if_neg ?_
  rw [hl]
  simp only [Bool.false_eq_true, or_false, not_or, Nat.not_lt]
  exact ⟨h4, h64⟩

theorem setreserve_grants (h63 : part ≠ 63) (h64 : n ≤ 64) (hn : n ≤ p.cores.length) :
    exec (.setreserve part n) s = .next (granted part (modPart part (fun p => { p with reserve := n }) s)) := by
  refine (request_acts rfl hr).trans (congrArg _ ?_)
  rw [hp]
  exact (if_neg h63).trans (if_pos ⟨h64, hn⟩)

theorem swap_grants (x : Bool) : exec (.swap part x) s = .next (if x then swapBack part s else swapOut part s) := by
  refine (request_acts rfl hr).trans (congrArg _ (if_neg ?_))
  rw [hp]
  exact Bool.false_ne_true

end

theorem stash_grants {n : Nat} (h : n ≤ 10) :
    exec (.stash part n) s = .next (granted part ((List.range Config.dies).foldl (fun s d =>
      evictSome d { s with stashWays := Sparse.set 0 s.stashWays d n })
      (wakeAll (fun o => match o with | .line .. => true | _ => false) s))) :=
  (request_acts rfl hr).trans (congrArg _ (if_neg (Nat.not_lt.mpr h)))

/-- R410: partitions that exist and hold no context are joined through partition 63. -/
theorem span_grants {mask : Nat} (hne : maskParts mask ≠ [])
    (hsome : ∀ i ∈ maskParts mask, (Sparse.find? s.parts i).isSome = true)
    (hfree : ∀ kc ∈ s.contexts, ∀ i ∈ maskParts mask, leadOf s kc.2.part ≠ leadOf s i) :
    exec (.span 63 mask) s = .next (granted 63 { s with
      parts := s.parts.map (fun kp => (kp.1, { kp.2 with lead := newLead s (maskParts mask) kp.1 })) }) := by
  refine (request_acts rfl hr).trans (congrArg _ (if_neg ?_))
  rintro (h | h | h | h)
  · exact h rfl
  · exact hne (List.isEmpty_iff.mp h)
  · obtain ⟨kc, hkc, h⟩ := List.any_eq_true.mp h
    obtain ⟨i, hi, h⟩ := List.any_eq_true.mp h
    exact hfree kc hkc i hi (beq_iff_eq.mp h)
  · obtain ⟨i, hi, h⟩ := List.any_eq_true.mp h
    have hi' := hsome i hi
    rw [Option.isNone_iff_eq_none.mp h] at hi'
    cases hi'

theorem mirror_grants {dev cid size base : Nat} (hd : dev < 32768) (hc : cid < 4096)
    (hb : base + size ≤ Config.hbmBytes) :
    let t := setFrames base ((base % 2 ^ 21 + size + 2 ^ 21 - 1) / 2 ^ 21) 2 s
    exec (.mirror part dev cid size base) s = .next (granted part { t with
      station := { t.station with mirrors := t.station.mirrors ++ [(4096 * dev + cid, base, size)] } }) :=
  (request_acts rfl hr).trans (congrArg _ (if_pos ⟨hd, hc, hb⟩))

end

end Sys2Proof.Laws

namespace Sys2Proof.Proofs
open Sys2Proof.Machine Sys2Proof.Claims Sys2Proof.Laws

/-- Settles O37: no request acts before step 6 has ended; a flip takes its effect (its event's SIDX is log 77); then the
requests on a context (BIASFLIP's order log 15, free values logs 49 to 52, digest log 54), SETWINDOW (log 14), and those
on queues, partitions and the device. -/
theorem requestsComplete : Obligations.RequestsComplete := by
  intro s part
  refine ⟨fun hr => ?_, fun cid c hc va a lo host hl => biasFlipComplete_flips hc hl host, fun hr =>
    ⟨fun code => request_acts rfl hr, fun cid hf => newctx_grants hr hf, fun cid c hc ho => ?_,
      fun ctrl win w h8 h16 h4 => setwindow_grants hr h8 h16 h4, fun q hq => assignq_grants hr hq,
      fun n p hp => ⟨setcache_grants hr hp, setreserve_grants hr hp, swap_grants hr hp⟩, fun n hn => stash_grants hr hn,
      fun mask => span_grants hr, fun dev cid size base => mirror_grants hr⟩⟩
  · intro a b c d e x w i hi
    simp only [List.mem_cons, List.not_mem_nil, or_false] at hi
    rcases hi with rfl | rfl | rfl | rfl | rfl | rfl | rfl | rfl | rfl | rfl | rfl | rfl | rfl | rfl | rfl | rfl | rfl | rfl <;>
      exact request_rests rfl hr
  · exact ⟨endctx_grants hr hc ho, fun v p n cls => mapframe_grants hr hc ho v,
      fun va a lo host hl => biasflip_grants hr hc ho hl rfl, fun size => image_grants hr hc ho,
      fun a => (contextRequest_acts hr hc ho rfl).trans rfl, (contextRequest_acts hr hc ho rfl).trans rfl,
      fun r b => checkpoint_grants hr hc ho,
      fun b x => (contextRequest_acts hr hc ho rfl).trans (congrArg _ (if_pos rfl)),
      fun mask image size table rs => lantern_grants hr hc ho rfl⟩

end Sys2Proof.Proofs

namespace Sys2Proof.Laws
open Sys2Proof.Machine Sys2Proof.Claims

/-! ## Host events (R241, R406, R409, R411, R429 to R431) -/

section
variable {s : State} {i : Instr} {t : State} (hr : hostReady s = true)
include hr

/-- Once step 6 has ended, a write of the host takes its effect. -/
theorem hostWrite_acts (hx : exec i s = .next (if hostReady s then t else s)) : exec i s = .next t :=
  hx.trans (congrArg _ (if_pos hr))

/-- R406: the owner's request is granted where the partition may hold the clusters, and else refused (log 62). -/
theorem ownerRequest_answers {p d m : Nat} {w : Partition} (hw : Sparse.find? s.parts 63 = some w) (hq : w.reqstat ≠ 1) :
    let t := modPart 63 (fun p => { p with reqblk := p.reqaddr }) s
    exec (.registerWrite (.owner p d) m) s =
      .next (if mayHold t p d m then granted 63 (formPartition p d m t) else refuse 63 t) := by
  refine (hostWrite_acts hr rfl).trans (congrArg _ ?_)
  unfold ownerRequest
  rw [hw]
  exact if_neg hq

end

theorem bar0Write_acts {s : State} (o v : Nat) (hr : s.station.retry = false) (ho : o % 8 = 0) :
    exec (.registerWrite (.bar0 o) v) s = .next (bar0Write o v s) := by
  refine congrArg Host.Outcome.next (if_neg ?_)
  simp [hr, ho]

/-- R241: the range's dirty lines are written back and its lines and translations dropped; INVSTAT changes no memory. -/
theorem invalidationComplete_drops (s : State) (cid base len : Nat) : ∃ t, exec (.invalidationComplete cid base len) s = .next t ∧
    t.mem = (invDrop cid base len (invWriteBack cid base len s)).mem := by
  refine ⟨_, rfl, ?_⟩
  generalize invDrop cid base len (invWriteBack cid base len s) = u
  dsimp only
  split
  · rfl
  · rfl

end Sys2Proof.Laws

namespace Sys2Proof.Proofs
open Sys2Proof.Machine Sys2Proof.Claims Sys2Proof.Laws

/-- Settles O38: the host's writes once step 6 has ended, with the owner's request (log 62); BAR0; the end of an
invalidation; then reset, boot (log 48) and recovery. -/
theorem hostEventsComplete : Obligations.HostEventsComplete := by
  intro s
  refine ⟨fun hr => ?_, bar0Write_acts, invalidationComplete_drops s, rfl, rfl, fun b hb => congrArg _ (if_pos hb),
    fun b hb => congrArg _ (if_neg (Bool.eq_false_iff.mp hb)), fun b => rfl⟩
  exact ⟨fun q v => hostWrite_acts hr rfl, fun q => hostWrite_acts hr rfl, fun p v => hostWrite_acts hr rfl,
    fun p v => hostWrite_acts hr rfl, fun p n => hostWrite_acts hr rfl, fun p b n => hostWrite_acts hr rfl,
    fun p o v => hostWrite_acts hr rfl, fun q o v => hostWrite_acts hr rfl, fun p d m w hw => ownerRequest_answers hr hw⟩

end Sys2Proof.Proofs

namespace Sys2Proof.Laws
open Sys2Proof.Machine Sys2Proof.Claims

/-! ## The TYPEs of the atomics (R274) -/

section
variable {ty : ElemType} (hn : ty.n = 1)
include hn

/-- R274: a TYPE of one integer element is one of ATADD, ATMIN and ATMAX. -/
theorem atomicInt_accepts (hf : ty.isFloat = false) : atomicInt ty = true := by
  simp [atomicInt, hn, hf]

/-- R274: ATFADD takes the TYPEs of one float element. -/
theorem atomicFloat_accepts (hf : ty.isFloat = true) : atomicFloat ty = true := by
  simp [atomicFloat, hn, hf]

/-- R274: ATINC takes the unsigned ones among the integer TYPEs. -/
theorem atomicUnsigned_accepts (hf : ty.isFloat = false) (hs : ty.isSigned = false) : atomicUnsigned ty = true := by
  simp [atomicUnsigned, atomicInt_accepts hn hf, hs]

end

/-! ## The atomics by the TYPEs that they accept (R274, R275) -/

section
variable {s : State} {e : Env} {ty : ElemType} {d a b : BitVec 8} (m : BitVec 1) (h : AtomicReady s e ty d a b 1)
include h

/-- R274: the sum wraps at the width of TYPE; minimum and maximum compare in its signedness. -/
theorem integerAtomics_update (hn : ty.n = 1) (hf : ty.isFloat = false) :
    Updates s e (.atadd m d a b) m ty d a b (fun l old => ((old + e.val l b ty.regs) % 2 ^ ty.b, 0)) ∧
    Updates s e (.atmin m d a b) m ty d a b (fun l old => pickInt false ty old (e.val l b ty.regs)) ∧
    Updates s e (.atmax m d a b) m ty d a b (fun l old => pickInt true ty old (e.val l b ty.regs)) := by
  have hok := atomicInt_accepts hn hf
  exact ⟨atomic_ok h rfl rfl hok rfl, atomic_ok h rfl rfl hok rfl, atomic_ok h rfl rfl hok rfl⟩

/-- R274: ATINC counts up to B, then starts again at zero. -/
theorem atinc_updates (hn : ty.n = 1) (hf : ty.isFloat = false) (hs : ty.isSigned = false) :
    Updates s e (.atinc m d a b) m ty d a b (fun l old => (if e.val l b ty.regs ≤ old then 0 else old + 1, 0)) :=
  atomic_ok h rfl rfl (atomicUnsigned_accepts hn hf hs) rfl

/-- R274: ATFADD rounds the sum as the modes say, and raises its flags. -/
theorem atfadd_updates (hn : ty.n = 1) (hf : ty.isFloat = true) :
    Updates s e (.atfadd m d a b) m ty d a b (fun l old => floatAdd e ty old (e.val l b ty.regs)) :=
  atomic_ok h rfl rfl (atomicFloat_accepts hn hf) rfl

/-- R274: ATAND, ATOR, ATXOR and ATSWP take every TYPE. -/
theorem bitwiseAtomics_update :
    Updates s e (.atand m d a b) m ty d a b (fun l old => (old &&& e.val l b ty.regs, 0)) ∧
    Updates s e (.ator m d a b) m ty d a b (fun l old => (old ||| e.val l b ty.regs, 0)) ∧
    Updates s e (.atxor m d a b) m ty d a b (fun l old => (old ^^^ e.val l b ty.regs, 0)) ∧
    Updates s e (.atswp m d a b) m ty d a b (fun l _ => (e.val l b ty.regs, 0)) :=
  ⟨atomic_ok h rfl rfl rfl rfl, atomic_ok h rfl rfl rfl rfl, atomic_ok h rfl rfl rfl rfl, atomic_ok h rfl rfl rfl rfl⟩

end

/-- R274: ATCAS finds its compare value in B and the new value in the registers after it. -/
theorem atcas_updates {s : State} {e : Env} {ty : ElemType} {d a b : BitVec 8} (m : BitVec 1)
    (h : AtomicReady s e ty d a b 2) :
    Updates s e (.atcas m d a b) m ty d a b (fun l old =>
      (if old = e.val l b ty.regs then e.val l (b + BitVec.ofNat 8 ty.regs) ty.regs else old, 0)) :=
  atomic_ok h rfl rfl rfl rfl

end Sys2Proof.Laws

namespace Sys2Proof.Proofs
open Sys2Proof.Machine Sys2Proof.Claims Sys2Proof.Laws

/-- Settles O21: LDA and LDAD have the shape `acquireLoad`, STL and STLD the shape `releaseStore`, whose release is done
before any part, and LDC that of a load, through the constant cache. -/
theorem orderedAccessesComplete : Obligations.OrderedAccessesComplete := fun _ _ _ _ _ _ _ _ =>
  ⟨fun h hp => acquire_ok h rfl hp, fun h hp => acquire_ok h rfl hp, fun h hp => release_ok h rfl hp,
    fun h hp => release_ok h rfl hp, fun h _ _ hp => issue_ok h.1 (loadWith_ok h rfl hp)⟩

/-- Settles O23: the atomics on integers, on floats and on every TYPE, then ATCAS with its two arguments. -/
theorem atomicsComplete : Obligations.AtomicsComplete := by
  intro s e ty m d a b
  refine ⟨fun h hn hf => ?_, fun h hn hf => atfadd_updates m h hn hf, fun h => bitwiseAtomics_update m h,
    fun h => atcas_updates m h⟩
  obtain ⟨hadd, hmin, hmax⟩ := integerAtomics_update m h hn hf
  exact ⟨hadd, hmin, hmax, fun hs => atinc_updates m h hn hf hs⟩

end Sys2Proof.Proofs

/-! PROOFS. The engines: the copy words and PUBLISH, and the events of copy engines, matrix engines and sequencers
(O27, O35). -/

namespace Sys2Proof.Laws
open Sys2Proof.Machine Sys2Proof.Claims

/-! ## COPY, COPYG, COLLECT and PUBLISH (R318, R319, R348 to R354, R361) -/

/-- R348: a control word below 16 passes; that of a COLLECT names no bank space. -/
theorem copyControl_ok {e : Env} {d : BitVec 8} {collective : Bool} (h16 : control e d < 16)
    (hc : collective = true → control e d % 4 ≠ 3 ∧ control e d / 4 ≠ 3) :
    copyControl e d collective = pure (control e d) := by
  refine if_neg ?_
  rintro (h | ⟨h, h3 | h3⟩)
  · exact absurd h16 (Nat.not_lt.mpr h)
  · exact (hc h).1 h3
  · exact (hc h).2 h3

section
variable {s t : State} {e : Env} {m : BitVec 1} {i : Instr} {who : List Kind} {d a b : BitVec 8} {collective : Bool}

/-- R319: a command that is accepted joins its queue with its promise; the words go on. -/
theorem acceptCopy_ok (kind : CopyKind) (ssp dsp link : Nat) (r : Records) (peers : Nat × Nat) (group op : Nat) :
    acceptCopy e kind d ssp dsp link r peers group op t =
      .ok Machine.Flow.next (accepted t e d kind ssp dsp link r peers group op) := rfl

/-- A copy word that is ready is accepted in the state that the checks of its records leave. -/
theorem copyWord_accepted (h : CopyReady s e who d a b)
    (hc : collective = true → control e d % 4 ≠ 3 ∧ control e d / 4 ≠ 3) {body : Env → M Machine.Flow}
    {f : Nat → M Machine.Flow} (hx : exec i s = issue m i body s) (hb : body e = copyInstr e i who d a b collective f)
    {kind : CopyKind} {ssp dsp link : Nat} {r : Records} {peers : Nat × Nat} {group op : Nat}
    (hf : f (control e d) (opened s) = acceptCopy e kind d ssp dsp link r peers group op t) :
    exec i s = .next (e.done m i Machine.Flow.next (accepted t e d kind ssp dsp link r peers group op)) := by
  obtain ⟨hi, ho, h16, hroom⟩ := h
  refine hx.trans (issue_ok hi ?_)
  rw [hb, copyInstr, checkOps_ok ho, pure_bind, copyControl_ok h16 hc, pure_bind, get_bind, if_pos hroom, hf]
  exact acceptCopy_ok ..

end

section
variable {s t1 t2 t3 t4 : State} {e : Env} (m : BitVec 1) {d a b : BitVec 8}

section
variable (h : CopyReady s e [.crew, .scout, .cseq] d a b)
include h

/-- R350, R351. -/
theorem copy_accepted {src dst : Named}
    (h1 : checkRecords e [e.addr 0 a 0, e.addr 0 b 0] (opened s) = .ok () t1)
    (h2 : namedShape e (e.addr 0 a 0) t1 = .ok src t2) (h3 : namedShape e (e.addr 0 b 0) t2 = .ok dst t3)
    (h4 : checkCopy e ⟨src, none, dst⟩ (control e d % 4) (control e d / 4) t3 = .ok () t4) :
    exec (.copy m d a b) s = .next (e.done m (.copy m d a b) Machine.Flow.next
      (accepted t4 e d .copy (control e d % 4) (control e d / 4) 0 ⟨src, none, dst⟩ (0, 0) 0 0)) := by
  refine copyWord_accepted (collective := false) h nofun rfl rfl ?_
  rw [bind_ok h1, bind_ok h2, bind_ok h3, bind_ok h4]

/-- R353. -/
theorem copyg_accepted {src idx dst : Named} {t5 : State}
    (h1 : checkRecords e [e.addr 0 a 0, e.addr 0 b 0, e.addr 0 b 64] (opened s) = .ok () t1)
    (h2 : namedShape e (e.addr 0 a 0) t1 = .ok src t2) (h3 : namedShape e (e.addr 0 b 0) t2 = .ok idx t3)
    (h4 : namedShape e (e.addr 0 b 64) t3 = .ok dst t4)
    (h5 : checkCopy e ⟨src, some idx, dst⟩ (control e d % 4) (control e d / 4) t4 = .ok () t5) :
    exec (.copyg m d a b) s = .next (e.done m (.copyg m d a b) Machine.Flow.next
      (accepted t5 e d .gather (control e d % 4) (control e d / 4) 0 ⟨src, some idx, dst⟩ (0, 0) 0 0)) := by
  refine copyWord_accepted (collective := false) h nofun rfl rfl ?_
  rw [bind_ok h1, bind_ok h2, bind_ok h3, bind_ok h4, bind_ok h5]

end

/-- R354: COLLECT reads its descriptor, then the records of its source and of the tile that the descriptor names. -/
theorem collect_accepted {t5 t6 t7 : State} {bs : List Byte} {src dst : Named}
    (h : CopyReady s e [.crew, .cseq] d a b) (hs : control e d % 4 ≠ 3) (hd : control e d / 4 ≠ 3)
    (h1 : checkRecords e [e.addr 0 a 0, e.addr 0 b 0] (opened s) = .ok () t1)
    (h2 : oneRead e e.active (e.addr 0 b 0) (recordSource e.th.core e.cid (e.addr 0 b 0)) t1 = .ok bs t2)
    (h3 : checkRecords e [recField bs 0 8] t2 = .ok () t3)
    (h4 : namedShape e (e.addr 0 a 0) t3 = .ok src t4) (h5 : namedShape e (recField bs 0 8) t4 = .ok dst t5)
    (h6 : checkCollectForms e src dst t5 = .ok () t6) (h7 : checkStrides e [(0, src), (0, dst)] t6 = .ok () t7)
    (hok : collectBad t7 e (control e d) bs src.shape dst.shape = false) :
    let peers := groupEntry t7 e.cid (recField bs 8 4)
    exec (.collect m d a b) s = .next (e.done m (.collect m d a b) Machine.Flow.next
      (accepted t7 e d .collect 0 0
        (linkTerm t7 (groupDevices t7 e.cid (recField bs 8 4)) peers.1 (recField bs 12 1) src.shape.size)
        ⟨src, none, dst⟩ peers (recField bs 8 4) (recField bs 12 1))) := by
  refine copyWord_accepted h (fun _ => ⟨hs, hd⟩) rfl rfl ?_
  rw [bind_ok h1, bind_ok h2, bind_ok h3, bind_ok h4, bind_ok h5, bind_ok h6, bind_ok h7, get_bind,
    if_neg (Bool.eq_false_iff.mp hok)]

/-- R361: PUBLISH that goes on after its swap closes its run and acquires. -/
theorem publish_resumes (h : Resumes s e .go) (ho : OpsOk e [.crew, .cseq] [⟨a, .scal, 1⟩]) :
    exec (.publish m a) s = .next (e.done m (.publish m a) Machine.Flow.nextClose
      (acquire e.th.core e.cid 2 (closed s e))) := by
  refine run_ok (h.proceeds (by simp)) ?_
  rw [checkOps_ok ho, pure_bind, if_pos (by rw [h.2.1]; rfl), closeFirst_bind h.1, act_bind, afterClose_core h.1,
    afterClose_cid h.1]
  rfl

end

/-! ## The events of copy engines, and WAITT_WAKE (R319 to R321, R350) -/

section
variable {s : State}

theorem copyCommandStart_continues {cl : Nat} {c : CopyCmd} {cs : List CopyCmd}
    (hq : (getCluster s cl).copyq = c :: cs) (hm : c.moved = false) (hw : c.why = none) :
    exec (.copyCommandStart cl) s = .next (continueCopy cl c s) := by
  refine congrArg Host.Outcome.next ?_
  simp only [hq]
  exact if_neg (by simp [hm, hw])

theorem copyCommandComplete_finishes {cl : Nat} {c : CopyCmd} {cs : List CopyCmd}
    (hq : (getCluster s cl).copyq = c :: cs) (hm : c.moved = true) :
    exec (.copyCommandComplete cl) s = .next (finishCopy cl s) := by
  refine congrArg Host.Outcome.next ?_
  simp only [hq]
  exact if_pos hm

theorem waittWake_hands {tid sid t : Nat} {sp : Split} {w : Wait} (hsp : getSplit s tid sid = some sp)
    (hw : sp.wait = some w) (hobj : w.obj = .sleep t) (ht : t ≤ s.chiptime) :
    exec (.waittWake tid sid) s = .next (hand tid sid .go s) := by
  refine congrArg Host.Outcome.next ?_
  simp only [hsp, Option.bind_some, hw, hobj]
  exact if_pos ht

end

/-! ## PUBLISH_SWAP (R322 to R324)

The swap posts events (R387, log 74), rolls speculative fences back, and hands PUBLISH on at once or starts its mirror
(R424). `swapView` is what the statement speaks of; each of those operations leaves it. -/

theorem physWrite_contexts (s : State) (pa : Nat) (bs : List Byte) : (physWrite s pa bs).contexts = s.contexts := by
  induction bs generalizing s pa with
  | nil => rfl
  | cons x xs ih =>
    refine (ih _ _).trans ?_
    unfold physWriteByte
    split <;> rfl

theorem flushEvents_contexts (part fuel : Nat) (s : State) : (flushEvents part fuel s).contexts = s.contexts := by
  induction fuel generalizing s with
  | zero => rfl
  | succ n ih =>
    unfold flushEvents
    split
    · rfl
    next p _ =>
      split
      · rfl
      next x xs _ =>
        split
        · have hw := physWrite_contexts s (p.evbase + 64 * (p.evtail % 2 ^ p.evlog)) x.bytes
          dsimp only
          generalize physWrite s (p.evbase + 64 * (p.evtail % 2 ^ p.evlog)) x.bytes = w at hw ⊢
          exact (ih _).trans hw
        · rfl

theorem postTo_contexts (part : Nat) (x : Event) (s : State) : (postTo part x s).contexts = s.contexts := by
  unfold postTo
  split
  · rfl
  · dsimp only
    split
    · exact flushEvents_contexts _ _ _
    · rfl

theorem post_contexts (cid skind sidx type launch who arg0 arg1 : Nat) (s : State) :
    (post cid skind sidx type launch who arg0 arg1 s).contexts = s.contexts := by
  unfold post
  cases Sparse.find? s.contexts cid with
  | none => rfl
  | some c => exact postTo_contexts _ _ _

theorem dropPart_contexts (cid g : Nat) (s : State) : (dropPart cid g s).contexts = s.contexts :=
  post_contexts _ _ _ _ _ _ _ _ _

theorem settleBacking_contexts (cid : Nat) (c : Context) (r : Nat) (s : State) :
    (settleBacking cid c r s).contexts = s.contexts := by
  unfold settleBacking
  exact foldl_keeps State.contexts
    (fun s g => dropPart_contexts cid g { s with rewrites := Sparse.erase s.rewrites g }) _ _

/-- Memory, the lines of the L2 level, and the contexts. -/
def swapView (s : State) : List Host.Cell × Sparse L2Line × Sparse Context := (s.mem, s.l2, s.contexts)

theorem due_swapView (es : List Instr) (s : State) : swapView (due es s) = swapView s := rfl

theorem specHit_swapView (die cid line : Nat) (s : State) : swapView (specHit die cid line s) = swapView s := rfl

/-- The fences of some dies that have read a line roll back (R280). -/
theorem specHits_swapView (cid line : Nat) (dies : Sparse DieState) (s : State) :
    swapView (dies.foldl (fun s d => specHit d.1 cid line s) s) = swapView s :=
  foldl_keeps swapView (fun s (d : Nat × DieState) => specHit_swapView d.1 cid line s) dies s

/-- Every die that holds one of some lines loses it. -/
theorem linesLost_swapView (cid : Nat) (lines : Sparse L2Line) (s : State) :
    swapView (lines.foldl (fun s kl => kl.2.copies.foldl (fun s d => specHit d.1 cid kl.2.line s) s) s) = swapView s :=
  foldl_keeps swapView (fun s (kl : Nat × L2Line) => specHits_swapView cid kl.2.line kl.2.copies s) lines s

theorem scheduleOnce_swapView (t : Nat) (i : Instr) (s : State) : swapView (scheduleOnce t i s) = swapView s := by
  obtain ⟨c, h⟩ := scheduleOnce_eq t i s
  rw [h]
  rfl

theorem putFlit_swapView (p : Nat) (f : Flit) (s : State) : swapView (putFlit p f s) = swapView s := by
  unfold putFlit
  exact (scheduleOnce_swapView _ _ _).trans rfl

theorem sendPart_swapView (p : Nat) (x : Transfer) (xs : List Transfer) (s : State) :
    swapView (sendPart p x xs s) = swapView s := by
  unfold sendPart sendFlit
  dsimp only
  split
  · rfl
  · exact putFlit_swapView _ _ _

theorem mirrorAccepted_swapView (x : Transfer) (s : State) : swapView (mirrorAccepted x s) = swapView s := by
  unfold mirrorAccepted
  split
  · rfl
  · split <;> rfl

theorem pumpMirrors_swapView (n : Nat) (s : State) : swapView (pumpMirrors n s) = swapView s := by
  induction n generalizing s with
  | zero => rfl
  | succ n ih =>
    unfold pumpMirrors
    split
    · rfl
    next x xs _ =>
      split
      · split
        · rfl
        · exact (ih _).trans (mirrorAccepted_swapView _ _)
      · split
        · rfl
        · split
          · rfl
          · exact (ih _).trans (sendPart_swapView _ _ _ _)

theorem finishPublish_swapView (cid r : Nat) (c : Context) (pa size : Nat) (s : State) :
    swapView (finishPublish cid r c pa size s) = swapView s := by
  unfold finishPublish
  dsimp only
  split
  · split
    · exact mirrorAccepted_swapView _ _
    · split
      · rfl
      · exact pumpMirrors_swapView _ _
  · exact mirrorAccepted_swapView _ _

/-- What a swap makes of the view of the state `u`: the region's lines go, the selector flips and a PUBLISH is done. -/
def flipView (cid r : Nat) (c : Context) (u : State) :
    List Host.Cell × Sparse L2Line × Sparse Context → List Host.Cell × Sparse L2Line × Sparse Context
  | (mem, l2, contexts) => (mem, l2.filter (fun kl => !(kl.2.cid == cid && inRegion u c r kl.2)),
    Sparse.alter contexts cid (fun c => { c with
      selector := Sparse.set false c.selector r (!(Sparse.get false c.selector r))
      publish := c.publish.erase r }))

section
variable {s : State} {cid r : Nat} {c : Context} (hc : Sparse.find? s.contexts cid = some c)
  (hr : c.publish.contains r = true)
include hc hr

theorem publishSwap_swapView : ∃ t, exec (.publishSwap cid r) s = .next t ∧
    swapView t = flipView cid r c (settleBacking cid c r s) (swapView (settleBacking cid c r s)) := by
  change ∃ t, execPublishSwap cid r s = .next t ∧ _
  unfold execPublishSwap
  rw [hc]
  refine ⟨_, congrArg Host.Outcome.next (if_neg (by rw [hr]; decide)), ?_⟩
  refine (due_swapView _ _).trans ((finishPublish_swapView _ _ _ _ _ _).trans ?_)
  exact congrArg (flipView cid r c (settleBacking cid c r s)) (linesLost_swapView cid _ _)

/-- R323, R324: the swap flips the region's selector and takes the oldest PUBLISH off it, keeps memory but for what
settling poison has posted (log 74), and leaves no line of the region at the L2 level. -/
theorem publishSwap_flips :
    ∃ t x, exec (.publishSwap cid r) s = .next t ∧ Sparse.find? t.contexts cid = some x ∧
      x.selector = Sparse.set false c.selector r (!(Sparse.get false c.selector r)) ∧ x.publish = c.publish.erase r ∧
      t.mem = (settleBacking cid c r s).mem ∧
      ∀ kl ∈ t.l2, kl.2.cid = cid → inRegion (settleBacking cid c r s) c r kl.2 = false := by
  obtain ⟨t, hx, hview⟩ := publishSwap_swapView hc hr
  obtain ⟨hmem, hrest⟩ := Prod.mk.inj hview
  obtain ⟨hl2, hctx⟩ := Prod.mk.inj hrest
  rw [settleBacking_contexts] at hctx
  refine ⟨t, _, hx, by rw [hctx, alter_same hc], rfl, rfl, hmem, fun kl hkl hcid => ?_⟩
  rw [hl2] at hkl
  simpa [hcid] using (List.mem_filter.mp hkl).2

end

/-! ## The events of matrix engines (R329, R330, R363 to R371) -/

section
variable {s u : State} {core i launch : Nat} {o : EngineOp} {ow : Owner}

/-- An engine that is not held lets an operation go on that has work left (R389). -/
theorem operation_goes (hh : engineHeld u core = false) (hd : o.done < 2 ^ 20) :
    ¬ (2 ^ 20 ≤ o.done ∨ engineHeld u core = true ∧ (!o.running) = true) := by
  rintro (h | ⟨h, -⟩)
  · exact absurd hd (Nat.not_lt.mpr h)
  · rw [hh] at h
    cases h

section
variable (hu : pumpOps core 9 s = u) (hl : engineLaunch u core = some (launch, ow)) (hh : engineHeld u core = false)
include hu hl hh

theorem planeLoadStart_runs (hr : readyOp (getCore u core).ops OpKind.isLoad = some (i, o)) (hd : o.done < 2 ^ 20) :
    exec (.planeLoadStart core) s = .next (runLoad core i launch ow o u) := by
  refine congrArg Host.Outcome.next ?_
  simp only [hu, hr, hl]
  exact if_neg (operation_goes hh hd)

theorem streamPassStart_runs {tile arow rows sel : Nat} {bg : Nat × Nat}
    (hr : readyOp (getCore u core).ops OpKind.isStream = some (i, o)) (hp : passRunning u core = false)
    (hk : o.kind = .stream tile arow rows sel bg) :
    exec (.streamPassStart core) s = .next (runPass core i launch ow o tile arow rows sel bg u) := by
  refine congrArg Host.Outcome.next ?_
  simp only [hu, hr, hl, hk]
  exact if_neg (by simp [hp, hh])

section
variable (hr : readyOp (getCore u core).ops OpKind.isDrain = some (i, o)) (hd : o.done < 2 ^ 20)
include hr hd

/-- R368: a drain to a bank group pushes entries. -/
theorem drainStart_pushes {tile fmt : Nat} {clr : Bool} {bg : Nat × Nat} {sh : Option Shape}
    (hk : o.kind = .drain tile fmt clr (some bg) sh) : exec (.drainStart core) s =
      .next (drainPush core i bg tile fmt (128 * rowEntries fmt + 1)
        (modOp core i (fun o => { o with running := true }) u)) := by
  refine congrArg Host.Outcome.next ?_
  simp only [hu, hr, hl, hk]
  exact if_neg (operation_goes hh hd)

/-- R369: a drain to memory writes units. -/
theorem drainStart_stores {tile fmt : Nat} {clr : Bool} {sh : Shape}
    (hk : o.kind = .drain tile fmt clr none (some sh)) : exec (.drainStart core) s =
      .next (drainStore core i launch tile fmt sh (drainUnits fmt sh + 1)
        (modOp core i (fun o => { o with running := true }) u)) := by
  refine congrArg Host.Outcome.next ?_
  simp only [hu, hr, hl, hk]
  exact if_neg (operation_goes hh hd)

end
end

section
variable {es : List EngineOp}

theorem planeLoadEnd_ends
    (hf : findOp (getCore s core).ops (fun o => o.running && o.kind.isLoad && decide (2 ^ 20 ≤ o.done)) =
      some (i, o, es)) :
    exec (.planeLoadEnd core) s = .next (pumpOps core 9 (endOp core i s)) := by
  refine congrArg Host.Outcome.next ?_
  simp only [hf]

theorem drainEnd_finishes
    (hf : findOp (getCore s core).ops (fun o => o.running && o.kind.isDrain && decide (2 ^ 20 ≤ o.done)) =
      some (i, o, es)) :
    exec (.drainEnd core) s = .next (finishDrain core i o s) := by
  refine congrArg Host.Outcome.next ?_
  simp only [hf]

theorem mzeroEnd_clears {ts : Nat}
    (hf : findOp (getCore s core).ops (fun o => o.running && o.kind.isZero) = some (i, o, es)) (hk : o.kind = .zero ts) :
    exec (.mzeroEnd core) s =
      .next (pumpOps core 9 (endOp core i (modCore core (fun c => { c with tiles := zeroTiles ts c.tiles }) s))) := by
  refine congrArg Host.Outcome.next ?_
  simp only [hf, hk]

theorem mshadowEnd_ends
    (hf : findOp (getCore s core).ops (fun o => o.running && o.kind.isShadow) = some (i, o, es)) :
    exec (.mshadowEnd core) s = .next (pumpOps core 9 (endOp core i s)) := by
  refine congrArg Host.Outcome.next ?_
  simp only [hf]

section
variable {tile arow rows sel d : Nat} {bg : Nat × Nat}
  (hf : findOp (getCore s core).ops (fun o => o.running && o.kind.isStream) = some (i, o, es))
  (hl : engineLaunch s core = some (launch, ow)) (hk : o.kind = .stream tile arow rows sel bg)
  (hd : Nat.min rows (o.done + passRows o.xmode) = d)
include hf hl hk hd

/-- R329: rows are left, and the next pass may start. -/
theorem streamPassEnd_continues (h : d < rows) : exec (.streamPassEnd core) s =
    .next (due [.streamPassStart core] (passBoundary core (modOp core i (fun o => { o with done := d }) s))) := by
  refine congrArg Host.Outcome.next ?_
  simp only [hf, hl, hk, hd]
  exact if_pos h

/-- The last row has streamed; entries that a launch in recovery has kept go now (R337). -/
theorem streamPassEnd_ends (h : d = rows) : exec (.streamPassEnd core) s =
    .next (pumpOps core 9 (endOp core i (if launchFlag s launch 2 && shbankOk s core launch
      then popGroup (clusterOf core) bg (streamTotal o.xmode rows bg.2) s else s))) := by
  refine congrArg Host.Outcome.next ?_
  simp only [hf, hl, hk, hd]
  exact if_neg (Nat.not_lt.mpr h.ge)

end
end
end

/-! ## The end of a sequencer (R347) -/

theorem seq_setSeq (c : Core) (which : Nat) (q : Seq) : (c.setSeq which q).seq which = q := by
  unfold Core.setSeq Core.seq
  split <;> rfl

theorem getCore_wakeAll (p : WaitObj → Bool) (core : Nat) (s : State) :
    getCore (wakeAll p s) core = getCore s core := rfl

theorem getCore_checkLaunch (launch core : Nat) (s : State) : getCore (checkLaunch launch s) core = getCore s core := by
  unfold checkLaunch
  split <;> rfl

/-- R347: a sequencer whose operations and commands have ended is ending no longer. -/
theorem sequencerEndComplete_ends {s : State} {core which : Nat} (he : ((getCore s core).seq which).ending = true)
    (hd : seqDrained s core which = true) :
    ∃ t, exec (.sequencerEndComplete core which) s = .next t ∧ ((getCore t core).seq which).ending = false := by
  refine ⟨_, congrArg Host.Outcome.next (if_pos (by simp [he, hd])), ?_⟩
  dsimp only
  split
  · rw [getCore_checkLaunch, getCore_wakeAll, getCore_modCore, seq_setSeq]
  · rw [getCore_wakeAll, getCore_modCore, seq_setSeq]

end Sys2Proof.Laws

namespace Sys2Proof.Proofs
open Sys2Proof.Machine Sys2Proof.Claims Sys2Proof.Laws

/-- Settles O27: each word by its checks in their order, then PUBLISH. A promise counts what is left of the commands
ahead (log 110) and the pages that no TLB holds (log 109). -/
theorem copyWordsComplete : Obligations.CopyWordsComplete := by
  intro s e m d a b
  exact ⟨fun h => ⟨fun _ _ _ _ _ _ => copy_accepted m h, fun _ _ _ _ _ _ _ _ => copyg_accepted m h⟩,
    fun h hs hd _ _ _ _ _ _ _ _ _ _ => collect_accepted m h hs hd, publish_resumes m⟩

/-- Settles O35: the events of copy engines (room by log 63), the swap (poison by log 74), those of matrix engines as
they start and as they end, and the end of a sequencer. -/
theorem engineEventsComplete : Obligations.EngineEventsComplete := by
  intro s cl core
  refine ⟨rfl, fun c cs hq => ⟨copyCommandStart_continues hq, copyCommandComplete_finishes hq⟩,
    fun _ _ _ _ _ => waittWake_hands, fun _ _ _ => publishSwap_flips, ?_, fun i o es => ?_,
    fun _ => sequencerEndComplete_ends⟩
  · intro u i launch o ow hl hh
    exact ⟨planeLoadStart_runs rfl hl hh, fun _ _ _ _ _ => streamPassStart_runs rfl hl hh, fun hr hd =>
      ⟨fun _ _ _ _ => drainStart_pushes rfl hl hh hr hd, fun _ _ _ _ => drainStart_stores rfl hl hh hr hd⟩⟩
  · exact ⟨planeLoadEnd_ends, fun _ _ _ _ _ _ _ hf hl hk =>
      ⟨streamPassEnd_continues hf hl hk rfl, streamPassEnd_ends hf hl hk rfl⟩,
      drainEnd_finishes, fun _ => mzeroEnd_clears, mshadowEnd_ends⟩

end Sys2Proof.Proofs

/-! PROOFS. The words of the matrix sequencer, trap entry, faults and preemption, the Krazu ports, attestation and the
monitors (O29, O36, O39, O40, O45). -/

namespace Sys2Proof.Laws
open Sys2Proof.Machine Sys2Proof.Claims

/-! ## The words of the matrix sequencer (R362 to R371) -/

/-- The matrix sequencer passes the checks of a word without register operands. -/
theorem ops_mseq {e : Env} (hk : e.th.kind = .mseq) : checkOps e mseqOnly false [] false = pure () :=
  checkOps_ok ⟨by simp [hk, mseqOnly], by simp⟩

section
variable {s t : State} {e : Env} (m : BitVec 1) (hi : Issues s e)
include hi

section
variable (hk : e.th.kind = .mseq)
include hk

/-- R365. -/
theorem mones_sets (k : BitVec 2) : exec (.mones m k) s = .next (e.done m (.mones m k) Machine.Flow.next
    (modCore e.th.core (fun c => { c with mones := k.toNat }) (opened s))) := by
  refine issue_ok hi ?_
  rw [ops_mseq hk, pure_bind]
  rfl

/-- R366. -/
theorem mswap_queued (hr : EngineRoom (opened s) e) :
    exec (.mswap m) s = .next (e.done m (.mswap m) Machine.Flow.next (queued e .swap (opened s))) := by
  refine issue_ok hi ?_
  rw [ops_mseq hk, pure_bind]
  exact placeOp_ok hr

/-- R334, R371. -/
theorem mshadow_queued (f : BitVec 1) (hb : shbankOk (opened s) e.th.core e.th.launch = true)
    (hr : EngineRoom (opened s) e) : exec (.mshadow m f) s = .next (e.done m (.mshadow m f) Machine.Flow.next
      (queued e (if f = 0#1 then .save else .restore) (opened s))) := by
  refine issue_ok hi ?_
  rw [ops_mseq hk, pure_bind, get_bind, if_neg (by simp [hb])]
  exact placeOp_ok hr

end

section
variable {a : BitVec 8} (ho : OpsOk e mseqOnly [⟨a, .scal, 1⟩])
include ho

/-- R370: MZERO of no tile has no effect. -/
theorem mzero_none (hz : e.regs.field 0 a = 0) :
    exec (.mzero m a) s = .next (e.done m (.mzero m a) Machine.Flow.next (opened s)) := by
  refine issue_ok hi ?_
  rw [checkOps_ok ho, pure_bind, hz]
  rfl

theorem mzero_queued (hpos : 0 < (e.regs.field 0 a).toNat) (hlt : (e.regs.field 0 a).toNat < 16)
    (hr : EngineRoom (opened s) e) : exec (.mzero m a) s = .next (e.done m (.mzero m a) Machine.Flow.next
      (queued e (.zero (e.regs.field 0 a).toNat) (opened s))) := by
  refine issue_ok hi ?_
  rw [checkOps_ok ho, pure_bind, if_neg (Nat.not_le.mpr hlt), if_neg hpos.ne']
  exact placeOp_ok hr

end

section
variable (hx : xLegal e.regs.xmode = true)
include hx

section
variable {a b : BitVec 8} (ho : OpsOk e mseqOnly [⟨a, .scal, 1⟩, ⟨b, .scal, 2⟩])
include ho

/-- R364: a load from a bank group. -/
theorem mlds_group_queued (hb : b = 0xC0#8) (ha : a ≠ 0xC0#8) (hg : GroupOk (opened s) e a)
    (hr : EngineRoom (opened s) e) : exec (.mlds m a b) s = .next (e.done m (.mlds m a b) Machine.Flow.next
      (queued e (.load (some (groupOf e a)) none 0) (opened s))) := by
  refine issue_ok hi ?_
  rw [checkOps_ok ho, pure_bind, if_neg (eqs_ne (by tauto)), needXmode_ok hx, pure_bind, if_pos hb,
    bind_ok (bankGroup_ok hg)]
  exact placeOp_ok hr

/-- R364: a load by a record. -/
theorem mlds_record_queued {sh : Shape} (hb : b ≠ 0xC0#8) (ha : a = 0xC0#8)
    (hs : engineRecord e b (xSfmt e.regs.xmode) false (opened s) = .ok sh t) (hr : EngineRoom t e) :
    exec (.mlds m a b) s = .next (e.done m (.mlds m a b) Machine.Flow.next
      (queued e (.load none (some sh) (e.regs.pair 0 b)) t)) := by
  refine issue_ok hi ?_
  rw [checkOps_ok ho, pure_bind, if_neg (eqs_ne (by tauto)), needXmode_ok hx, pure_bind, if_neg hb, bind_ok hs]
  exact placeOp_ok hr

end

section
variable {d a b : BitVec 8} (ho : OpsOk e mseqOnly [⟨d, .scal, 1⟩, ⟨a, .scal, 1⟩, ⟨b, .scal, 1⟩])
  (h9 : bits (e.regs.field 0 d).toNat 9 23 = 0) (hrows : (e.regs.field 0 b).toNat ≤ 4096) (hg : GroupOk (opened s) e a)
include ho h9 hrows hg

/-- R367: MSTREAM of no rows has no effect. -/
theorem mstream_none (hz : (e.regs.field 0 b).toNat = 0) :
    exec (.mstream m d a b) s = .next (e.done m (.mstream m d a b) Machine.Flow.next (opened s)) := by
  refine issue_ok hi ?_
  rw [checkOps_ok ho, pure_bind, if_neg (not_or.mpr ⟨not_not.mpr h9, Nat.not_lt.mpr hrows⟩),
    needXmode_ok hx, pure_bind, bind_ok (bankGroup_ok hg), get_bind, if_pos hz]
  rfl

/-- R365, R367: a pass in selective mode takes its rows at once; the mode ends with the word. -/
theorem mstream_queued (hnz : (e.regs.field 0 b).toNat ≠ 0)
    (hsel : (getCore (opened s) e.th.core).mones = 0 ∨ (e.regs.field 0 b).toNat ≤ passRows e.regs.xmode)
    (hr : EngineRoom (opened s) e) : exec (.mstream m d a b) s = .next (e.done m (.mstream m d a b) Machine.Flow.next
      (modCore e.th.core (fun c => { c with mones := 0 }) (queued e (.stream (bits (e.regs.field 0 d).toNat 0 2)
        (bits (e.regs.field 0 d).toNat 2 7) (e.regs.field 0 b).toNat (getCore (opened s) e.th.core).mones (groupOf e a))
        (opened s)))) := by
  refine issue_ok hi ?_
  rw [checkOps_ok ho, pure_bind, if_neg (not_or.mpr ⟨not_not.mpr h9, Nat.not_lt.mpr hrows⟩),
    needXmode_ok hx, pure_bind, bind_ok (bankGroup_ok hg), get_bind, if_neg hnz, if_neg (by omega), bind_ok (placeOp_ok hr)]
  rfl

end

section
variable {d a b : BitVec 8} (ho : OpsOk e mseqOnly [⟨d, .scal, 1⟩, ⟨a, .scal, 1⟩, ⟨b, .scal, 2⟩])
  (h7 : bits (e.regs.field 0 d).toNat 7 25 = 0) (hf : drainFmtOk e.regs.xmode (bits (e.regs.field 0 d).toNat 2 4) = true)
include ho h7 hf

/-- R368: a drain to a bank group. -/
theorem mdrain_group_queued (hb : b = 0xC0#8) (ha : a ≠ 0xC0#8) (hg : GroupOk (opened s) e a)
    (hr : EngineRoom (opened s) e) : exec (.mdrain m d a b) s = .next (e.done m (.mdrain m d a b) Machine.Flow.next
      (queued e (.drain (bits (e.regs.field 0 d).toNat 0 2) (bits (e.regs.field 0 d).toNat 2 4)
        (bit (e.regs.field 0 d).toNat 6) (some (groupOf e a)) none) (opened s))) := by
  refine issue_ok hi ?_
  rw [checkOps_ok ho, pure_bind, if_neg (not_or.mpr ⟨not_not.mpr h7, eqs_ne (by tauto)⟩), needXmode_ok hx, pure_bind,
    if_neg (by simp [hf]), if_pos hb, bind_ok (bankGroup_ok hg)]
  exact placeOp_ok hr

/-- R369: a drain by a record. -/
theorem mdrain_record_queued {sh : Shape} (hb : b ≠ 0xC0#8) (ha : a = 0xC0#8)
    (hs : engineRecord e b (bits (e.regs.field 0 d).toNat 2 4) true (opened s) = .ok sh t) (hr : EngineRoom t e) :
    exec (.mdrain m d a b) s = .next (e.done m (.mdrain m d a b) Machine.Flow.next
      (queued e (.drain (bits (e.regs.field 0 d).toNat 0 2) (bits (e.regs.field 0 d).toNat 2 4)
        (bit (e.regs.field 0 d).toNat 6) none (some sh)) t)) := by
  refine issue_ok hi ?_
  rw [checkOps_ok ho, pure_bind, if_neg (not_or.mpr ⟨not_not.mpr h7, eqs_ne (by tauto)⟩), needXmode_ok hx, pure_bind,
    if_neg (by simp [hf]), if_neg hb, bind_ok hs]
  exact placeOp_ok hr

end
end
end

end Sys2Proof.Laws

namespace Sys2Proof.Proofs
open Sys2Proof.Machine Sys2Proof.Claims Sys2Proof.Laws

/-- Settles O29, word by word. -/
theorem engineWordsComplete : Obligations.EngineWordsComplete := by
  intro s e m hi hk
  exact ⟨mones_sets m hi hk, mswap_queued m hi hk, fun _ ho => ⟨mzero_none m hi ho, mzero_queued m hi ho⟩,
    mshadow_queued m hi hk,
    fun _ _ ho hx => ⟨mlds_group_queued m hi hx ho, fun _ _ => mlds_record_queued m hi hx ho⟩,
    fun _ _ _ ho hx h9 hrows hg => ⟨mstream_none m hi hx ho h9 hrows hg, mstream_queued m hi hx ho h9 hrows hg⟩,
    fun _ _ _ ho hx h7 hf =>
      ⟨mdrain_group_queued m hi hx ho h7 hf, fun _ _ => mdrain_record_queued m hi hx ho h7 hf⟩⟩

end Sys2Proof.Proofs

namespace Sys2Proof.Laws
open Sys2Proof.Machine Sys2Proof.Claims

/-! ## Taking a trap (R375, R376, R378, R380) -/

/-- The thread whose split has entered its handler. -/
def trappedThread (t : Thread) (sid : Nat) (x : TrapInfo) (tvec : DWord) : Thread :=
  { t with handler := some sid, regs := { t.regs with cmode := 0, mmode := 0 },
           splits := Sparse.alter t.splits sid (fun sp => sp.enterTrap x t.regs.cmode t.regs.mmode tvec) }

/-- The split that keeps its trap for the end of the cycle. -/
def trapKept (sp : Split) (x : TrapInfo) (links : Nat) : Split :=
  { sp with handed := some (.trap x), wait := some (sp.wait.getD { obj := .trap, instr := .nop 0, since := links }) }

section
variable {s : State} {tid sid : Nat} {t : Thread} {x : TrapInfo} {c : Context}
  (ht : Sparse.find? s.threads tid = some t)
include ht

section
variable (hc : Sparse.find? s.contexts (cidOf s t.launch) = some c)
include hc

theorem takeTrap_enters (hh : t.handler = none) (hv : tvecOk c.tvec = true) :
    takeTrap tid sid x s = { s with threads := Sparse.put s.threads tid (trappedThread t sid x c.tvec) } := by
  unfold takeTrap
  simp only [ht, hc, hh, hv, Option.isSome_none, Bool.not_true, Bool.or_self, Bool.false_eq_true, if_false]
  exact modThread_listed ht _

/-- R378: a trap inside a handler, or without a usable TVEC, kills the crew. -/
theorem takeTrap_kills (h : t.handler ≠ none ∨ tvecOk c.tvec = false) :
    takeTrap tid sid x s = killCrew tid x.cause sid s := by
  have hk : (t.handler.isSome || !tvecOk c.tvec) = true := by
    rcases h with h | h
    · rw [Option.isSome_iff_ne_none.mpr h, Bool.true_or]
    · rw [h, Bool.not_false, Bool.or_true]
  unfold takeTrap
  simp only [ht, hc]
  exact if_pos hk

end

theorem keepTrap_listed {sp : Split} (hs : Sparse.find? t.splits sid = some sp) :
    keepTrap tid sid x s = { s with
      threads := Sparse.put s.threads tid { t with splits := Sparse.put t.splits sid (trapKept sp x s.links) } } := by
  refine (modThread_listed ht _).trans ?_
  simp only [Sparse.alter, hs]
  rfl

end

/-- While a split is in a handler, no other split of its thread issues. -/
theorem mayIssue_held {q : Split} {t : Thread} {h k : Nat} (hh : t.handler = some h) (hk : k ≠ h) :
    q.mayIssue t k = false := by
  simp [Split.mayIssue, hh, Ne.symm hk]

end Sys2Proof.Laws

namespace Sys2Proof.Proofs
open Sys2Proof.Machine Sys2Proof.Claims Sys2Proof.Laws

/-- Settles O45: the trap is taken in a usable handler, kills the crew elsewhere, and is kept where splits of one cycle
come before (log 113). -/
theorem trapEntry : Obligations.TrapEntry := by
  intro s tid sid t sp x c ht hs hc
  refine ⟨fun hh hv => ?_, takeTrap_kills ht hc, fun hk hj => ?_, fun hk hj => ?_⟩
  · exact ⟨trappedThread t sid x c.tvec, sp.enterTrap x t.regs.cmode t.regs.mmode c.tvec, takeTrap_enters ht hc hh hv,
      alter_same hs, rfl, rfl, rfl, rfl, rfl, rfl, rfl, ⟨_, rfl, rfl, rfl, rfl, rfl, rfl, rfl, rfl⟩, rfl, rfl, rfl, rfl, rfl,
      fun _ hk => alter_other hk, fun _ _ hk _ => mayIssue_held rfl hk⟩
  · rw [raise_thread ht hk, if_neg (by simp [hj])]
  · refine ⟨trapKept sp x s.links, ?_, rfl, rfl, rfl, rfl, rfl, rfl, rfl⟩
    rw [raise_thread ht hk, if_pos hj]
    exact keepTrap_listed ht hs

end Sys2Proof.Proofs

namespace Sys2Proof.Laws
open Sys2Proof.Machine Sys2Proof.Claims

/-! ## Fault records, narrowings, saves, restores and a partition reset (R382 to R392, R397 to R399) -/

section
variable {s : State}

/-- R382: records go to the ring, and those that wait are tried again. -/
theorem faultRecordWrite_writes {cid : Nat} {c : Context} (hc : Sparse.find? s.contexts cid = some c) :
    let t := writeFaults cid (c.faults.length + 1) (freeFaultPlaces cid s)
    exec (.faultRecordWrite cid) s = .next (match Sparse.find? t.contexts cid with
      | some c => if c.faults.isEmpty ∨ c.fqbase = 0 then t else scheduleOnce (t.chiptime + 64) (.faultRecordWrite cid) t
      | none => t) := by
  show execFaultRecordWrite cid s = _
  unfold execFaultRecordWrite
  rw [hc] <;> rfl

section
variable (cid token : Nat)

/-- R383, R429: a verdict takes its effect once step 6 of the boot has ended. -/
theorem fqres_resolves (h : s.station.stage = 6) :
    exec (.fqresRetry cid token) s = .next (resolveFault cid token true s) ∧
    exec (.fqresUnresolvable cid token) s = .next (resolveFault cid token false s) :=
  ⟨congrArg Host.Outcome.next (if_pos h), congrArg Host.Outcome.next (if_pos h)⟩

theorem fqres_early (h : s.station.stage ≠ 6) : exec (.fqresRetry cid token) s = .next s ∧
    exec (.fqresUnresolvable cid token) s = .next s :=
  ⟨congrArg Host.Outcome.next (if_neg h), congrArg Host.Outcome.next (if_neg h)⟩

end

/-- R389 to R391: a crew that has halted is saved; with the last of an owner's crews the owner's engine is. -/
theorem crewSaveComplete_saves {tid : Nat} {t : Thread} (ht : Sparse.find? s.threads tid = some t) (hp : t.place = .halted)
    (hm : (idleOwners s t.core).any (fun o => (ownerThreads s t.core o).any
      (fun u => u.crewid == t.crewid && u.launch == t.launch)) = false) :
    let u := modThread tid (fun t => { t with place := .saved }) s
    let full := (engineOwners (getCore u t.core)).filter (fun o =>
      allOff (ownerThreads u t.core o) && (ownerThreads u t.core o).all (fun v => decide (v.place = .saved)))
    let v := placeFreed t.core (saveScouts (full.foldl (fun s o => saveEngine t.core o s) u))
    exec (.crewSaveComplete tid) s = .next (match Sparse.find? v.launches t.launch with
      | some l => evacuateSpan l.part v
      | none => v) := by
  show execCrewSaveComplete tid s = _
  unfold execCrewSaveComplete
  rw [ht]
  dsimp only
  rw [if_neg (not_not_intro hp), hm, Bool.false_and, if_neg Bool.false_ne_true] <;> rfl

/-- R392: a saved crew whose group is saved comes back onto the named core where it may, else onto the best one. -/
theorem crewRestore_restores {tid core k : Nat} {ks : List Nat} {t : Thread} {l : Launch}
    (ht : Sparse.find? s.threads tid = some t) (hl : Sparse.find? s.launches t.launch = some l) (hp : t.place = .saved)
    (hr : partRuns s l.part = true) (hh : s.station.halted = false) (hsus : l.suspended = false)
    (hg : (groupOf s tid).all (fun k => (savedCrews s t.launch).contains k) = true) (hco : bit l.record.flags 0 = false)
    (hk : (if (restoreCores s tid).contains core then [core] else restoreCores s tid) = k :: ks) :
    exec (.crewRestore tid core) s = .next (restoreGroup tid k s) := by
  show execCrewRestore tid core s = _
  unfold execCrewRestore
  simp only [ht, hl, hp, hr, hh, hsus, hg, hco, hk, ne_eq, not_true_eq_false, Bool.not_true, Bool.false_eq_true, or_self,
    false_and, if_false]

/-- R386: the partitions of the span run again and its contexts accept launches; memory stays. -/
theorem partitionReset_restarts (part : Nat) : ∃ t, exec (.partitionReset part) s = .next t ∧
    (∀ kp ∈ t.parts, leadOf s kp.1 = leadOf s part → kp.2.stopped = false) ∧
    (∀ kc ∈ t.contexts, leadOf s kc.2.part = leadOf s part → kc.2.poisoned = false) ∧ t.mem = s.mem := by
  refine ⟨_, rfl, fun kp hp hlead => ?_, fun kc hc hlead => ?_, rfl⟩
  · obtain ⟨old, -, rfl⟩ := List.mem_map.mp hp
    by_cases h : leadOf s old.1 = leadOf s part
    · rw [if_pos h]
    · rw [if_neg h] at hlead
      exact absurd hlead h
  · obtain ⟨old, -, rfl⟩ := List.mem_map.mp hc
    by_cases h : leadOf s old.2.part = leadOf s part
    · rw [if_pos h]
    · rw [if_neg h] at hlead
      exact absurd hlead h

end

end Sys2Proof.Laws

namespace Sys2Proof.Proofs
open Sys2Proof.Machine Sys2Proof.Claims Sys2Proof.Laws

/-- Settles O36: records and verdicts, the rows of R386, narrowings (an urgent one spares urgent launches, the others no
launch of the span; the banks leave by log 95), saves, restores and a reset. A register error's cause is log 26. -/
theorem faultEventsComplete : Obligations.FaultEventsComplete := by
  intro s
  refine ⟨fun _ _ => faultRecordWrite_writes, fun cid token => ⟨fqres_resolves cid token, fqres_early cid token⟩,
    fun _ => rfl, fun _ => rfl, fun _ _ => ⟨rfl, rfl⟩, fun _ => rfl, fun _ => rfl, fun part cores => ?_,
    fun _ _ => crewSaveComplete_saves, fun _ _ _ _ _ _ => crewRestore_restores, partitionReset_restarts⟩
  dsimp only
  simp only [List.filter_true]
  exact ⟨rfl, rfl, rfl, rfl⟩

end Sys2Proof.Proofs

namespace Sys2Proof.Laws
open Sys2Proof.Machine Sys2Proof.Claims

/-! ## The Krazu ports (R422) -/

section
variable {s : State} {port : Nat}

/-- R422: a port that is down or trains takes no flit, and no acknowledgement is missed there. -/
theorem port_rests (f : Flit) (h : (getPort s port).up = false ∨ (getPort s port).training = true) :
    exec (.krazuAckTimeout port) s = .next s ∧ exec (.krazuFlitReceive port f) s = .next s := by
  have hd : (!(getPort s port).up || (getPort s port).training) = true := by
    rcases h with h | h <;> simp [h]
  exact ⟨congrArg Host.Outcome.next (if_pos hd), congrArg Host.Outcome.next (if_pos hd)⟩

section
variable (hu : (getPort s port).up = true) (ht : (getPort s port).training = false)
include hu ht

theorem port_works : ¬ (!(getPort s port).up || (getPort s port).training) = true := by
  simp [hu, ht]

theorem ackTimeout_retries : exec (.krazuAckTimeout port) s = .next (retryPort port s) :=
  congrArg Host.Outcome.next (if_neg (port_works hu ht))

/-- A damaged flit is dropped, and a resend asked for. -/
theorem flitReceive_damaged {f : Flit} (hc : f.crcOk = false) :
    exec (.krazuFlitReceive port f) s = .next (modPort port (fun q => { q with asks := true }) s) :=
  congrArg Host.Outcome.next ((if_neg (port_works hu ht)).trans (if_pos (by simp [hc])))

/-- What a good flit does: its type, a free value (log 53), says whether it acknowledges or asks for a resend. -/
theorem flitReceive_good {f : Flit} (hc : f.crcOk = true) :
    exec (.krazuFlitReceive port f) s = .next
      (if Config.freeBool s.fresh then acknowledge port f.seq { s with fresh := s.fresh + 2 }
       else if Config.freeBool (s.fresh + 1) then retryPort port { s with fresh := s.fresh + 2 }
       else takeFlit port f { s with fresh := s.fresh + 2 }) :=
  congrArg Host.Outcome.next ((if_neg (port_works hu ht)).trans (if_neg (by simp [hc])))

end

/-- With no flit held there is nothing to resend. -/
theorem retryPort_idle (h : (getPort s port).replay = []) : retryPort port s = s := by
  unfold retryPort
  exact if_pos (List.isEmpty_iff.mpr h)

section
variable (h : (getPort s port).replay ≠ [])
include h

theorem retryPort_resends (hr : (getPort s port).retries + 1 < 16) :
    retryPort port s = scheduleOnce (s.chiptime + 5400) (.krazuAckTimeout port)
      (modPort port (fun q => { q with retries := q.retries + 1, sent := q.sent + q.replay.length }) s) := by
  unfold retryPort
  exact (if_neg (by simpa using h)).trans (if_neg (Nat.not_le.mpr hr))

/-- The sixteenth retry in a row trains the port. -/
theorem retryPort_trains (hr : 16 ≤ (getPort s port).retries + 1) :
    let u := portEvent port 2 (modPort port (fun q => { q with training := true, retries := 0 }) s)
    let r := freeDelay u 270000
    retryPort port s = after r.1 (.krazuRetrainComplete port (Config.freeBool r.2.fresh)) { r.2 with fresh := r.2.fresh + 1 } := by
  unfold retryPort
  exact (if_neg (by simpa using h)).trans (if_pos hr)

end

theorem takeFlit_outOfOrder {f : Flit} (h : f.seq ≠ (getPort s port).rx) : takeFlit port f s = s := if_pos h

/-- A flit in its sequence is acknowledged, and taken here or sent on (log 53). -/
theorem takeFlit_inOrder {f : Flit} (h : f.seq = (getPort s port).rx) :
    let v := modPort port (fun q => { q with rx := (q.rx + 1) % 65536, acked := some f.seq, asks := false })
      { s with fresh := s.fresh + 1 }
    takeFlit port f s = if Config.freeBool s.fresh then takeMirror f v
      else match routePort v f.dest with
        | some p => sendFlit p f v
        | none => v := if_neg (not_not_intro h)

theorem retrainComplete_other (x : Bool) (h : (getPort s port).training = false) :
    exec (.krazuRetrainComplete port x) s = .next s :=
  congrArg Host.Outcome.next (if_neg (by simp [h]))

theorem retrainComplete_ends (x : Bool) (h : (getPort s port).training = true) :
    exec (.krazuRetrainComplete port x) s = .next (endTraining port x s) :=
  congrArg Host.Outcome.next (if_pos h)

end

/-- A port that comes up sends what is due to mirrors, and waits for the acknowledgement of the flits it holds. -/
theorem endTraining_up (s : State) (port : Nat) :
    let up := portEvent port 1 (modPort port (fun q => { q with training := false, up := true, retries := 0 }) s)
    endTraining port true s = pumpMirrors mirrorFuel (if (getPort s port).replay.isEmpty then up
      else scheduleOnce (up.chiptime + 5400) (.krazuAckTimeout port) up) := by
  unfold endTraining
  exact if_pos rfl

/-! ## The loss of a peer (R424) -/

section
variable (s : State) (dev p q : Nat)

theorem portDown_up : (getPort (portDown p s) q).up = (if q = p then false else (getPort s q).up) := by
  unfold portDown
  rw [getPort_portEvent]
  split
  · next h => simp [h, getPort]
  · next h => simp [getPort, Sparse.find?_put_other _ _ h]

/-- Ports that are marked down are down. -/
theorem portsDown_up (ps : List Nat) (s : State) (h : q ∈ ps ∨ (getPort s q).up = false) :
    (getPort (ps.foldl (fun s p => portDown p s) s) q).up = false := by
  induction ps generalizing s with
  | nil => simpa using h
  | cons p ps ih =>
    refine ih _ ?_
    rw [portDown_up, List.mem_cons] at *
    split
    · exact .inr rfl
    · next hq => simpa [hq] using h

/-- Flits that go out by other routes leave every port up or down as it was. -/
theorem reroute_up (fs : List Flit) : (getPort (reroute fs s) q).up = (getPort s q).up := by
  refine foldl_keeps (fun s => (getPort s q).up) (fun s f => ?_) fs s
  split
  · exact sendFlit_up ..
  · rfl

/-- The failed devices once another one has been lost. -/
def failedWith (s : State) (dev : Nat) : List Nat :=
  if s.station.heartbeat.contains dev then s.station.heartbeat else s.station.heartbeat ++ [dev]

theorem mem_failedWith : dev ∈ failedWith s dev := by
  unfold failedWith
  split
  · next h => exact List.contains_iff_mem.mp h
  · exact List.mem_append_right _ (List.mem_singleton_self dev)

/-- The state in which a loss is noted, before the job is judged. -/
def lossNoted (s : State) (dev : Nat) : State :=
  { s with station := { s.station with
    heartbeat := failedWith s dev
    outgoing := s.station.outgoing.filter (fun x => x.buddy != dev) } }

theorem noteLoss_eq : noteLoss dev s = if jobLost (lossNoted s dev)
    then portEvent 0xFFFF 0 { lossNoted s dev with station := { (lossNoted s dev).station with recovering := [] } }
    else lossNoted s dev := rfl

theorem getPort_noteLoss : getPort (noteLoss dev s) q = getPort s q := by
  rw [noteLoss_eq]
  split
  · exact getPort_portEvent ..
  · rfl

theorem noteLoss_heartbeat : (noteLoss dev s).station.heartbeat = failedWith s dev := by
  rw [noteLoss_eq]
  split
  · rw [station_portEvent]
    rfl
  · rfl

/-- R424: every port to a peer that is lost is down. -/
theorem lostPeer_portsDown (h : p ∈ portsTo s dev) : (getPort (noteLoss dev (closePorts dev s)) p).up = false := by
  rw [getPort_noteLoss]
  unfold closePorts
  rw [reroute_up]
  exact portsDown_up p _ s (.inl h)

end

section
variable {s : State} {dev : Nat}

/-- The first news of a loss. -/
theorem heartbeatTimeout_loses (h : s.station.recovering.find? (fun r => r.device == dev) = none) :
    exec (.krazuHeartbeatTimeout dev) s = .next (losePeer dev s) := by
  show execKrazuHeartbeatTimeout dev s = _
  unfold execKrazuHeartbeatTimeout
  rw [h]

/-- The next step of a recovery, when it is due. -/
theorem heartbeatTimeout_recovers {r : Recovery} (h : s.station.recovering.find? (fun r => r.device == dev) = some r) :
    exec (.krazuHeartbeatTimeout dev) s = .next (if s.chiptime < r.due then s
      else if r.step = 1 then spareTakes dev s
      else if r.step = 2 then sendMirrors dev s
      else resumeJob dev s) := by
  show execKrazuHeartbeatTimeout dev s = _
  unfold execKrazuHeartbeatTimeout
  rw [h]

end

end Sys2Proof.Laws

namespace Sys2Proof.Proofs
open Sys2Proof.Machine Sys2Proof.Claims Sys2Proof.Laws

/-- Settles O39: a port that rests and one that works, retries, flits in and out of order, the end of a training, and the
loss of a peer with the steps of its recovery. Free values and the steps are log 53. -/
theorem krazuEventsComplete : Obligations.KrazuEventsComplete := by
  intro s port
  refine ⟨port_rests, fun hu ht => ⟨ackTimeout_retries hu ht, fun _ => flitReceive_damaged hu ht, fun f hc => ?_⟩,
    retryPort_idle, fun h => ⟨retryPort_resends h, retryPort_trains h⟩,
    fun f => ⟨takeFlit_outOfOrder, fun h hf => ?_, fun h hf => ?_⟩, retrainComplete_other, fun ht => ?_, fun dev h => ?_,
    fun dev r h => ?_⟩
  · rw [flitReceive_good hu ht hc]
    exact ⟨fun h => by rw [if_pos h], fun h h' => by rw [h, h']; rfl, fun h h' => by rw [h, h']; rfl⟩
  · rw [takeFlit_inOrder h, if_pos hf]
  · rw [takeFlit_inOrder h, hf, if_neg Bool.false_ne_true]
    exact ⟨fun p hp => by rw [hp], fun hp => by rw [hp]⟩
  · simp only [retrainComplete_ends _ ht]
    exact ⟨fun h => by rw [endTraining_up, if_pos (List.isEmpty_iff.mpr h)],
      fun h => by rw [endTraining_up, if_neg (by simpa using h)], rfl⟩
  · exact ⟨heartbeatTimeout_loses h, noteLoss_heartbeat _ dev ▸ mem_failedWith _ dev, fun p => lostPeer_portsDown s dev p⟩
  · rw [heartbeatTimeout_recovers h]
    refine ⟨fun hd => by rw [if_pos hd], fun hd => ?_⟩
    rw [if_neg (Nat.not_lt.mpr hd)]
    exact ⟨fun h1 => by rw [if_pos h1], fun h2 => by rw [if_neg (by omega), if_pos h2],
      fun h1 h2 => by rw [if_neg h1, if_neg h2]⟩

end Sys2Proof.Proofs

namespace Sys2Proof.Laws
open Sys2Proof.Machine Sys2Proof.Claims

/-! ## Attestation (R427) -/

section
variable {s : State}

/-- A device that answers configuration requests names its version; another one does not answer. -/
theorem getVersion_answers (hr : s.station.inReset = false) (hc : s.station.retry = false) :
    exec .getVersion s = .next (spdmReply 1 false [0x13] s) :=
  congrArg Host.Outcome.next (if_neg (by simp [hr, hc]))

theorem getVersion_rests (h : s.station.inReset = true ∨ s.station.retry = true) : exec .getVersion s = .next s :=
  congrArg Host.Outcome.next (if_pos (by simpa using h))

section
variable (h : hostReady s = true) (request : Nat) (content : List DWord)
include h

/-- What a ready device answers: as it is, or with the signatures of both keys. -/
theorem spdmAnswer_plain : spdmAnswer request false content s = spdmReply request false content s := by
  unfold spdmAnswer
  rw [if_pos h, if_neg Bool.false_ne_true, List.append_nil]

theorem spdmAnswer_signed :
    spdmAnswer request true content s = spdmReply request true (content ++ signatures s content) s := if_pos h

end

theorem spdmAnswer_early (h : hostReady s = false) (request : Nat) (signed : Bool) (content : List DWord) :
    spdmAnswer request signed content s = s := if_neg (by simp [h])

end

/-! ## The monitors (R433 to R437) -/

section
variable {cap sum n : Nat}

/-- R433: the cap falls by a step, rises by one, or stays. -/
theorem stepCap_falls (h : 2400 * n < sum) : stepCap cap sum n = Nat.max 1800 (cap - 100) := if_pos h

theorem stepCap_rises (h : sum < 2300 * n) : stepCap cap sum n = Nat.min 2700 (cap + 100) :=
  (if_neg (by omega)).trans (if_pos h)

theorem stepCap_stays (h1 : 2300 * n ≤ sum) (h2 : sum ≤ 2400 * n) : stepCap cap sum n = cap :=
  (if_neg (Nat.not_lt.mpr h2)).trans (if_neg (Nat.not_lt.mpr h1))

end

/-- R433: the average of the samples of 1 ms, the cap that it leaves, and the next sample. -/
theorem powerSample_steps (s : State) (w : Nat) :
    let xs := (w :: s.monitors.samples).take 10
    exec (.powerSample w) s = .next (renewSample isPowerSample nextPower { s with monitors := { s.monitors with
      samples := xs, power := xs.sum / xs.length, cap := stepCap s.monitors.cap xs.sum xs.length } }) := by
  intro xs
  rw [List.sum_eq_foldl]
  rfl

/-- Two updates that agree on a cluster's health change it alike. -/
theorem modHealth_congr {s : State} {cl : Nat} {f g : ClusterHealth → ClusterHealth}
    (h : f (getHealth s cl) = g (getHealth s cl)) : modHealth cl f s = modHealth cl g s := by
  unfold modHealth
  rw [h]

section
variable {s : State} {cl : Nat} (mv : Nat)

/-- The droops of a cluster within 1 ms, with the one that is detected now. -/
def recentDroops (s : State) (cl : Nat) : List Nat :=
  s.chiptime :: (getHealth s cl).recent.filter (fun t => decide (s.chiptime < t + 2700000))

/-- R435: a droop that does not fill the window is counted. -/
theorem droopDetect_counts (h : (recentDroops s cl).length < 16) :
    exec (.droopDetect cl mv) s = .next (modHealth cl (fun h => { h with
      droops := Nat.min 65535 (h.droops + 1), deep := Nat.max h.deep mv, recent := recentDroops s cl }) s) :=
  congrArg Host.Outcome.next (modHealth_congr (if_neg (Nat.not_le.mpr h)))

/-- R437: the sixteenth droop within 1 ms raises the voltage. -/
theorem droopDetect_raises (h : 16 ≤ (recentDroops s cl).length) :
    exec (.droopDetect cl mv) s = .next (modHealth cl (fun h => { h with
      droops := Nat.min 65535 (h.droops + 1), deep := Nat.max h.deep mv, recent := []
      vset := Nat.max h.vset (Nat.min (h.vset + 5) (h.vboot + 30)) }) s) :=
  congrArg Host.Outcome.next (modHealth_congr (if_pos h))

end

/-- R435, R437: a process monitor's reading is held; a slow one asks for more voltage. -/
theorem processMonitorSample_held (s : State) (cl mhz : Nat) :
    exec (.processMonitorSample cl mhz) s = .next (renewSample (isMonitorSample cl) (nextMonitor cl) (idleRaises
      (modHealth cl (fun h => { h with ro := mhz, raise := h.raise || decide (mhz * 100 ≤ (getHealth s cl).boot * 97) }) s))) :=
  rfl

end Sys2Proof.Laws

namespace Sys2Proof.Proofs
open Sys2Proof.Machine Sys2Proof.Claims Sys2Proof.Laws

/-- Settles O40: attestation (log 54), then power, temperature (log 64), droops and process monitors; every periodic
sample renews itself (log 13). -/
theorem monitorsAndAttestationComplete : Obligations.MonitorsAndAttestationComplete := by
  intro s
  refine ⟨getVersion_answers, getVersion_rests, fun h => ?_, fun h slot nonce => ?_, fun w => ?_, fun _ _ _ => rfl,
    fun cl mv => ⟨droopDetect_counts mv, droopDetect_raises mv⟩, fun cl mhz => ?_⟩
  · refine ⟨congrArg Host.Outcome.next (if_pos h), congrArg Host.Outcome.next (spdmAnswer_plain h ..),
      congrArg Host.Outcome.next (spdmAnswer_plain h ..), fun slot hs => ?_, fun slot hs => ?_,
      fun _ _ => congrArg Host.Outcome.next (spdmAnswer_signed h ..),
      fun _ _ => congrArg Host.Outcome.next (spdmAnswer_signed h ..)⟩
    · exact congrArg Host.Outcome.next ((spdmAnswer_plain h ..).trans (by rw [if_pos hs]))
    · exact congrArg Host.Outcome.next ((spdmAnswer_plain h ..).trans (by rw [if_neg (Nat.not_lt.mpr hs)]))
  · have quiet (request : Nat) (signed : Bool) (content : List DWord) :
        Host.Outcome.next (spdmAnswer request signed content s) = (.next s : Host.Outcome State Fault Refusal) :=
      congrArg Host.Outcome.next (spdmAnswer_early h request signed content)
    exact ⟨congrArg Host.Outcome.next (if_neg (by simp [h])), quiet .., quiet .., quiet .., quiet .., quiet ..⟩
  · rw [powerSample_steps]
    exact ⟨fun h => by rw [stepCap_falls h], fun h => by rw [stepCap_rises h], fun h1 h2 => by rw [stepCap_stays h1 h2]⟩
  · rw [processMonitorSample_held]
    exact ⟨fun h => by rw [decide_eq_false (Nat.not_le.mpr h)], fun h => by rw [decide_eq_true h]⟩

end Sys2Proof.Proofs
